-- ==== Sys2Proof/Word.lean ====
section
/-! DEFINITION. The word types of the VH-2240 and their plainest arithmetic: the wrapping counters as bit
vectors of the counter's own width (00_scope.md, "Counters that wrap"), the saturating counts and the clamps as
natural numbers, and `Table`, a list of a fixed number of like records. -/

namespace Sys2Proof

/-- One byte of a cell, packet, message or report. -/
abbrev Byte := BitVec 8
/-- A tick count, 0 to 4,294,967,295 (R1). -/
abbrev Tick := BitVec 32
/-- A picture number, 0 to 4,294,967,295 (R10). -/
abbrev Pic := BitVec 32
/-- A block number, kept modulo 65,536 (R1, R9). -/
abbrev BlockNo := BitVec 16
/-- A link's packet sequence, 0 to 65,535 (R170). -/
abbrev Seq := BitVec 16
/-- A link's epoch, 0 to 255 (R172). -/
abbrev Epoch := BitVec 8
/-- A sound sample, a 24-bit signed whole number (chapter 5). -/
abbrev Sample := BitVec 24
/-- A programme P0 to P3, which is also the number of its camera port. -/
abbrev Prog := Fin 4
/-- A home link L0 to L3. -/
abbrev Link := Fin 4
/-- A ring stream number. -/
abbrev RingStream := Fin 256

/-- `n` records of one kind: a list together with the fact that it has `n` entries. -/
structure Table (n : Nat) (α : Type) where
  vals : List α
  len : vals.length = n
deriving DecidableEq, Repr

namespace Table
variable {n : Nat} {α β : Type}

def get (t : Table n α) (i : Fin n) : α := t.vals.get (i.cast t.len.symm)

def set (t : Table n α) (i : Fin n) (a : α) : Table n α := ⟨t.vals.set i a, by simp [t.len]⟩

def modify (t : Table n α) (i : Fin n) (f : α → α) : Table n α := t.set i (f (t.get i))

def replicate (n : Nat) (a : α) : Table n α := ⟨List.replicate n a, by simp⟩

def ofFn (f : Fin n → α) : Table n α := ⟨List.ofFn f, by simp⟩

def map (f : α → β) (t : Table n α) : Table n β := ⟨t.vals.map f, by simp [t.len]⟩

end Table

/-- A 16-sample block of one sound channel. -/
abbrev SoundBlock := Table 16 Sample

/-- The block of 16 zero samples. -/
def silentBlock : SoundBlock := Table.replicate 16 0

/-- A count of 0 to 65,535 that saturates gains one. -/
def satInc (n : Nat) : Nat := min (n + 1) 65535

/-- `v` clamped to the range `lo` to `hi` (00_scope.md, "Arithmetic"). -/
def clampNat (lo hi v : Nat) : Nat := min hi (max lo v)

/-- `v` clamped to the range `lo` to `hi`. -/
def clampInt (lo hi v : Int) : Int := min hi (max lo v)

/-- The least whole number not below `a / b`. -/
def ceilDiv (a b : Nat) : Nat := (a + b - 1) / b

end Sys2Proof
end

