-- ==== Sys2Proof/Config.lean ====
section
/-! DEFINITION. What the manual fixes once for the part: sizes, limits and power-on constants. The manual leaves no
value open after a command (every effect it gives states its value), so there is no free value here. -/

namespace Sys2Proof.Config

/-- Consecutive frame starts that qualify the ring (R3, R5). -/
def qualifyRun : Nat := 48
/-- Missed frames that bring HOLDOVER (R4). -/
def holdoverMisses : Nat := 8
/-- Ticks from a period start to its code start (R7). -/
def codeStartTicks : Nat := 16
/-- Code starts without a picture that make an input LOST (R19). -/
def lostGap : Nat := 25
/-- Entries of an anchor history (R49). -/
def historySize : Nat := 16
/-- Payload bytes of a full fragment (R54). -/
def fragmentBytes : Nat := 1312
/-- Bytes of a slice header (chapter 3, 3.6). -/
def sliceHeaderBytes : Nat := 8
/-- Bytes of a home packet's header (chapter 8, 8.3). -/
def packetHeaderBytes : Nat := 16
/-- Fragments of one slice at most (R55). -/
def maxFragments : Nat := 6
/-- Bytes of a pool block (chapter 8). -/
def blockBytes : Nat := 256
/-- Blocks of the Packet Pool (R146). -/
def poolBlocks : Nat := 16384
/-- Ticks to a millisecond: deadlines are D × 48 ticks (R56, R116). -/
def ticksPerMs : Nat := 48
/-- Greatest delay of a home sound stream, and depth of its line (R110, R111). -/
def maxDelay : Nat := 96000
/-- Records of the clip table (R122). -/
def clipRecords : Nat := 64
/-- Characters of a label (R127, R136). -/
def labelChars : Nat := 48
/-- Entries of an in-flight list (R171). -/
def inFlightMax : Nat := 256
/-- Greatest reported capacity, kbit/s (R182). -/
def maxCapacity : Nat := 250000
/-- Ticks between probes (R185). -/
def probeTicks : Nat := 2400
/-- Ticks of a measuring window and of a recovery (R191, R194). -/
def windowTicks : Nat := 48000
/-- Commands a queue holds (R203). -/
def commandQueue : Nat := 8
/-- Cells of the ring output queue (chapter 11). -/
def ringQueue : Nat := 64
/-- Cells of the largest reply (R203, R205). -/
def replyCells : Nat := 8
/-- Notices of the notice queue and of the home notice list (R209, R210). -/
def noticeQueue : Nat := 32
/-- Message bytes of one cell (11.2). -/
def cellBody : Nat := 56
/-- Bytes of the largest message (11.2). -/
def maxMessage : Nat := 448
/-- The largest positive sample (chapter 5). -/
def maxSample : Nat := 8388607

end Sys2Proof.Config
end

