-- ==== Sys2Proof/Syntax.lean ====
section
/-! DEFINITION. The commands the VH-2240 takes: the fields of each command message (chapters 1 to 11), the message as
the Command Unit holds it, and `Instr`, one constructor for each row of spec/opcode_table.json. Numbers a message carries
are natural numbers as the wire gives them; the owner's rule judges and clamps them. -/

namespace Sys2Proof

/-- Where a command came from (R202, R203): the ring, with its stream and the desk that the stream's entry names, or
the studio. -/
inductive Src where
  | van (stream : RingStream) (desk : Option (Fin 8))
  | home
deriving DecidableEq, Repr

/-- What a complete command message carries beside its fields: its origin and the tag its sender chose (11.2). -/
structure Hdr where
  src : Src
  tag : Byte
deriving DecidableEq, Repr

/-- TIMEBASE-SET (R12). -/
structure TimebaseFields where
  base : Option Nat := none
  num : Option Nat := none
  den : Option Nat := none
  rate : Option Nat := none
  origin : Option Nat := none
deriving DecidableEq, Repr

/-- FORMAT-SET (R22). -/
structure FormatFields where
  entry : Option Nat := none
  width : Option Nat := none
  bands : Option Nat := none
deriving DecidableEq, Repr

/-- PROGRAMME-SET (R23, section 2.3). Choices are their wire numbers, from 1 in the listed order (12.1). -/
structure ProgFields where
  prog : Option Nat := none
  enable : Option Nat := none
  format : Option Nat := none
  group : Option Nat := none
  factor : Option Nat := none
  qMin : Option Nat := none
  qMax : Option Nat := none
  offset : Option Nat := none
  bandLimit : Option Nat := none
  action : Option Nat := none
  latency : Option Nat := none
  delay : Option Nat := none
  hold : Option Nat := none
  guard : Option Nat := none
  pair : Option Nat := none
deriving DecidableEq, Repr

/-- RATE-SET (R67). -/
structure RateFields where
  prog : Option Nat := none
  weight : Option Nat := none
  boost : Option Nat := none
  minRate : Option Nat := none
  maxRate : Option Nat := none
  rDown : Option Nat := none
  rUp : Option Nat := none
  collapse : Option Nat := none
  step : Option Nat := none
  headroom : Option Nat := none
  labelReserve : Option Nat := none
deriving DecidableEq, Repr

/-- One entry of INPUT-MAP: stream, destination choice, and the input or desk number (R200, 12.1). -/
structure MapEntry where
  stream : Nat
  dest : Nat
  index : Nat
deriving DecidableEq, Repr

/-- INPUT-MAP (R200). -/
structure MapFields where
  entries : List MapEntry := []
  output : Option Nat := none
deriving DecidableEq, Repr

/-- INPUT-SET (R97). -/
structure InputFields where
  input : Option Nat := none
  trim : Option Nat := none
  mute : Option Nat := none
  groups : Option (List Nat) := none
  policy : Option Nat := none
deriving DecidableEq, Repr

/-- One entry of MIX-SET: input, bus and cross value (R98). -/
structure MixEntry where
  input : Nat
  bus : Nat
  cross : Nat
deriving DecidableEq, Repr

/-- BUS-SET (R99); `groups` holds the mute field of each of groups 0 to 7. -/
structure BusFields where
  bus : Option Nat := none
  master : Option Nat := none
  decay : Option Nat := none
  lag : Option Nat := none
  groups : Table 8 (Option Nat) := Table.replicate 8 none
deriving DecidableEq, Repr

/-- TRIGGER-SET (R100). -/
structure TriggerFields where
  trigger : Option Nat := none
  bus : Option Nat := none
  hi : Option Nat := none
  lo : Option Nat := none
  nOpen : Option Nat := none
  nClose : Option Nat := none
  cameras : Option (List Nat) := none
  priority : Option Nat := none
deriving DecidableEq, Repr

/-- SOUND-STREAM-SET (R108); `linked` is absent, "no programme", or a programme number. -/
structure StreamFields where
  stream : Option Nat := none
  enable : Option Nat := none
  left : Option Nat := none
  right : Option Nat := none
  width : Option Nat := none
  linked : Option (Option Nat) := none
  fixedDelay : Option Nat := none
  trim : Option Int := none
  allowance : Option Nat := none
deriving DecidableEq, Repr

/-- What names the clip a command acts on (R125): a clip number, a desk, both or neither. -/
structure ClipRef where
  clip : Option Nat := none
  desk : Option Nat := none
deriving DecidableEq, Repr

/-- CLIP-MARK (section 7.2). -/
structure MarkFields where
  ref : ClipRef := {}
  cameras : Option (List Nat) := none
  priority : Option Nat := none
  text : Option (List Byte) := none
deriving DecidableEq, Repr

/-- CLIP-SETTINGS (R137). -/
structure ClipSettingsFields where
  preRoll : Option Nat := none
  postRoll : Option Nat := none
  autoMark : Option Nat := none
  tallyPriority : Option Nat := none
deriving DecidableEq, Repr

/-- LINK-SET (section 10.2) with its pool section (R149): `caps` are those of P0 to P3, sound and label-and-reply. -/
structure LinkFields where
  link : Option Nat := none
  share : Option Nat := none
  kinds : Option (List Nat) := none
  burst : Option Nat := none
  floor : Option Nat := none
  ackTimeout : Option Nat := none
  minFraction : Option Nat := none
  count : Option Nat := none
  proveTimeout : Option Nat := none
  retryTime : Option Nat := none
  actions : Option (List (Nat × Nat)) := none
  caps : Table 6 (Option Nat) := Table.replicate 6 none
deriving DecidableEq, Repr

/-- STATUS-QUERY (R207, 12.1): the block's number, the object as its kind and numbers, and the clear option. -/
structure QueryFields where
  block : Option Nat := none
  object : Option (Nat × List Nat) := none
  clear : Bool := false
deriving DecidableEq, Repr

/-- EVENTS-CLEAR (R208): a list of flag numbers, or ALL. -/
inductive ClearList where
  | flags (l : List Nat)
  | all
deriving DecidableEq, Repr

/-- AUTHORITY-SET (R206). -/
structure AuthorityFields where
  authority : Option Nat := none
  noticesHome : Option Nat := none
deriving DecidableEq, Repr

/-- A well-formed command message, by its kind (R204). The mode of PROGRAMME-STOP, the action of CLIP-MARK and the scope
of RESET are choices like any other (12.1); 0 stands for an absent one. -/
inductive Command where
  | timebaseSet (f : TimebaseFields)
  | formatSet (f : FormatFields)
  | programmeSet (f : ProgFields)
  | programmeStart (prog : Option Nat)
  | programmeStop (prog : Option Nat) (mode : Nat) (flush : Bool)
  | refresh (prog : Option Nat)
  | rateSet (f : RateFields)
  | inputMap (f : MapFields)
  | inputSet (f : InputFields)
  | mixSet (entries : List MixEntry)
  | busSet (f : BusFields)
  | triggerSet (f : TriggerFields)
  | soundStreamSet (f : StreamFields)
  | clipMark (action : Nat) (f : MarkFields)
  | clipLabel (ref : ClipRef) (text : Option (List Byte))
  | clipQuery (ref : ClipRef)
  | clipSettings (f : ClipSettingsFields)
  | linkSet (f : LinkFields)
  | linkUp (link : Option Nat)
  | linkDown (link : Option Nat)
  | linkClear (link : Option Nat)
  | statusQuery (f : QueryFields)
  | eventsClear (l : ClearList)
  | authoritySet (f : AuthorityFields)
  | reset (scope : Nat)
deriving DecidableEq, Repr

/-- What a message's bytes spell, judged without any state (steps 1 and 2 of R204). -/
inductive Body where
  | malformed
  | unknown
  | command (c : Command)
deriving DecidableEq, Repr

/-- A command message in a queue of the Command Unit (R203); `kind` is its kind byte, which its reply echoes. -/
structure Msg where
  hdr : Hdr
  kind : Byte
  body : Body
deriving DecidableEq, Repr

/-- The commands of the block: one constructor for each row of spec/opcode_table.json. Rows that are command messages
carry the message's origin and tag; rows that are cells, packets and reports carry their bytes or fields; a row that is
an event of one link, port or trigger carries its number. -/
inductive Instr where
  | powerOnReset
  /-- `elapsed` is the local reference's measure, in sixteenths of a frame time rounded up, of the time since the point
  R2 judges against: the previous tick, and in HOLDOVER the previous frame start or the entry to HOLDOVER. -/
  | ringFrameStart (elapsed : Nat)
  | missedFrame
  | localTick
  | periodStart
  | codeStart
  | fragmentClose
  /-- `coded` is the band's whole coded output (R42: "this manual treats it as given"). -/
  | bandCompletion (coded : List Byte)
  | blockEvent
  | pictureStartSignal (port : Prog)
  | pictureEndComplete (port : Prog)
  | pictureEndBroken (port : Prog)
  | soundCell (stream : RingStream) (block : BlockNo) (samples : SoundBlock)
  /-- `body` is the cell's 56-byte body. -/
  | tallyCell (stream : RingStream) (count : Byte) (body : List Byte)
  | controlFirstCell (stream : RingStream) (kind tag count : Byte) (length : BitVec 16) (body : List Byte)
  | controlContinuationCell (stream : RingStream) (index : Byte) (body : List Byte)
  | timebaseSet (m : Hdr) (f : TimebaseFields)
  | formatSet (m : Hdr) (f : FormatFields)
  | programmeSet (m : Hdr) (f : ProgFields)
  | programmeStart (m : Hdr) (prog : Option Nat)
  | programmeStopCut (m : Hdr) (prog : Option Nat) (flush : Bool)
  | programmeStopFinish (m : Hdr) (prog : Option Nat) (flush : Bool)
  | programmeStopFreeze (m : Hdr) (prog : Option Nat) (flush : Bool)
  | refresh (m : Hdr) (prog : Option Nat)
  | rateSet (m : Hdr) (f : RateFields)
  | inputMap (m : Hdr) (f : MapFields)
  | inputSet (m : Hdr) (f : InputFields)
  | mixSet (m : Hdr) (entries : List MixEntry)
  | busSet (m : Hdr) (f : BusFields)
  | triggerSet (m : Hdr) (f : TriggerFields)
  | soundStreamSet (m : Hdr) (f : StreamFields)
  | clipMarkIn (m : Hdr) (f : MarkFields)
  | clipMarkOut (m : Hdr) (f : MarkFields)
  | clipMarkExtend (m : Hdr) (f : MarkFields)
  | clipMarkCancel (m : Hdr) (f : MarkFields)
  | clipLabel (m : Hdr) (ref : ClipRef) (text : Option (List Byte))
  | clipQuery (m : Hdr) (ref : ClipRef)
  | clipSettings (m : Hdr) (f : ClipSettingsFields)
  | linkSet (m : Hdr) (f : LinkFields)
  | linkUp (m : Hdr) (link : Option Nat)
  | linkDown (m : Hdr) (link : Option Nat)
  | linkClear (m : Hdr) (link : Option Nat)
  | statusQuery (m : Hdr) (f : QueryFields)
  | eventsClear (m : Hdr) (l : ClearList)
  | resetMedia (m : Hdr)
  | resetAll (m : Hdr)
  | authoritySet (m : Hdr) (f : AuthorityFields)
  /-- A complete message of any kind byte, with its bytes. -/
  | unknownCommand (m : Hdr) (kind : Byte) (message : List Byte)
  | ack (link epoch : Byte) (seq : Seq)
  | refreshPacket (prog : Byte)
  /-- A CONTROL return packet: kind, tag, the length it states, and the message bytes that follow its 6-byte head. -/
  | controlPacket (kind tag : Byte) (length : BitVec 16) (message : List Byte)
  | capacityReport (link : Link) (capacity : BitVec 32)
  | faultReport (link : Link) (code : Byte)
  | takenReport (link : Link) (epoch : Epoch) (seq : Seq)
  | probeBuild (link : Link)
  | provingDeadline (link : Link)
  | retryExpiry (link : Link)
  | recoveryExpiry (link : Link)
  | windowEnd (link : Link)
  | ackTimeout (link : Link)
  | triggerAnswer (trigger : Fin 4)
  /-- A ring cell as its 64 bytes. -/
  | unroutedCell (cell : List Byte)
  /-- A return packet as its bytes. -/
  | ignoredReturnPacket (bytes : List Byte)
  /-- A report of one link's modem as its bytes. -/
  | ignoredModemReport (link : Link) (bytes : List Byte)
deriving DecidableEq, Repr

end Sys2Proof
end

