-- ==== Sys2Proof/Machine/State.lean ====
section
/-! DEFINITION. The state of the VH-2240: one record for each of its thirteen blocks (00_scope.md, block diagram), the
queue of waiting commands, and the state after power-on reset. -/

namespace Sys2Proof.Machine

/-! ### Timebase Unit (chapter 1) -/

inductive LockState where
  | unlocked | locked | holdover
deriving DecidableEq, Repr

/-- The period in progress (R6). -/
structure Period where
  length : Nat
  remaining : Nat
deriving DecidableEq, Repr

/-- A code start not yet taken: its picture number and the tick at which it falls (R7, R8). -/
structure CodeStart where
  pic : Pic
  tick : Tick
deriving DecidableEq, Repr

/-- The Timebase Unit. `blockDue` is the model's own: the tick last taken is a multiple of 16 and its block event has not
yet been taken (R9). -/
structure Timebase where
  lock : LockState := .unlocked
  tick : Tick := 0
  run : Nat := 0
  miss : Nat := 0
  base : Nat := 960
  num : Nat := 0
  den : Nat := 1
  acc : Nat := 0
  period : Option Period := none
  codeStarts : List CodeStart := []
  pic : Pic := 0
  rate : Nat := 25
  origin : Nat := 0
  blockDue : Bool := false
deriving DecidableEq, Repr

/-! ### Camera ports and Programme Controller (chapter 2) -/

structure StoredPicture where
  arrival : Tick
  taken : Bool
deriving DecidableEq, Repr

/-- A camera port; `store` is oldest first (R17). -/
structure Port where
  store : List StoredPicture := []
  delivering : Bool := false
  dropped : Nat := 0
deriving DecidableEq, Repr

inductive ProgState where
  | idle | ready | starting | running | stopping | freezing | paired
deriving DecidableEq, Repr

inductive InputStatus where
  | present | gap | lost
deriving DecidableEq, Repr

inductive LimitAction where
  | coarsen | shed | report | off
deriving DecidableEq, Repr

inductive Origin where
  | van | home
deriving DecidableEq, Repr

/-- A command whose completion notice is still owed: its tag and origin. -/
structure OpenCommand where
  tag : Byte
  origin : Origin
deriving DecidableEq, Repr

/-- The fields of PROGRAMME-SET (section 2.3) but the pair. -/
structure ProgConfig where
  enable : Bool := false
  format : Fin 8 := 0
  group : Nat := 25
  factor : Nat := 4
  qMin : Nat := 1
  qMax : Nat := 63
  offset : Nat := 0
  bandLimit : Nat := 200
  action : LimitAction := .report
  latency : Nat := 0
  delay : Nat := 500
  hold : Nat := 0
  guard : Nat := 0
deriving DecidableEq, Repr

structure Programme where
  state : ProgState := .idle
  cfg : ProgConfig := {}
  pair : Bool := false
  input : InputStatus := .present
  gapCount : Nat := 0
  refreshOwed : Bool := false
  skipNext : Bool := false
  awaiting : Bool := false
  firstPic : Option Pic := none
  remHold : Nat := 0
  openStop : Option OpenCommand := none
  ignored : Nat := 0
  causes : Nat := 0
deriving DecidableEq, Repr

structure Format where
  width : Nat := 0
  bands : Nat := 0
deriving DecidableEq, Repr

structure Controller where
  progs : Table 4 Programme := Table.replicate 4 {}
  formats : Table 8 Format := Table.replicate 8 {}
deriving DecidableEq, Repr

/-! ### Coding Engine (chapter 3) -/

inductive PicType where
  | anchor | follow
deriving DecidableEq, Repr

inductive Method where
  | full | half
deriving DecidableEq, Repr

/-- A picture in progress (section 3.1). -/
structure Entry where
  pic : Pic
  type : PicType
  method : Method
  bands : Nat
  started : Nat := 0
  done : Nat := 0
  produced : Nat := 0
  target : Nat
  limit : Nat
  loopQ : Nat
  codingQ : Nat
  struck : Bool := false
  tick : Tick
deriving DecidableEq, Repr

/-- The band in coding. `quant` and `tiles` are what the coder was handed when it started (R41, R48); `frags` are the
block lists granted for the fragments closed so far, the producer's assembly of R55; `lost` is set when a request was
refused or the band outgrew six fragments (R55, R57). -/
structure Band where
  prog : Prog
  pic : Pic
  band : Nat
  discard : Bool := false
  quant : Nat
  tiles : Nat
  frags : List (List Nat) := []
  lost : Bool := false
deriving DecidableEq, Repr

/-- The engine's per-programme state; `history` is newest first (R49). -/
structure CodingLoop where
  carried : Nat := 32
  groupCount : Nat := 0
  method : Method := .full
  pending : Option Method := none
  collapse : Option Nat := none
  history : List Pic := []
deriving DecidableEq, Repr

/-- The Coding Engine. The picture-in-progress list holds at most one entry per programme (R40): it is held by programme. -/
structure Engine where
  entries : Table 4 (Option Entry) := Table.replicate 4 none
  band : Option Band := none
  lastServed : Prog := 3
  loops : Table 4 CodingLoop := Table.replicate 4 {}
deriving DecidableEq, Repr

/-! ### Rate Allocator (chapter 4) -/

structure RateRecord where
  weight : Nat := 1
  boost : Nat := 1
  minRate : Nat := 0
  maxRate : Nat := 0
  rDown : Nat := 0
  rUp : Nat := 100000
  collapse : Nat := 0
  step : Nat := 1
deriving DecidableEq, Repr

structure RateProg where
  pending : RateRecord := {}
  active : RateRecord := {}
  rate : Nat := 0
  prevRate : Nat := 0
  boosted : Bool := false
  tookPart : Bool := false
  budget : Nat := 0
  carry : Nat := 0
  fullness : Nat := 0
  limit : Nat := 0
  anchorTarget : Nat := 0
  followTarget : Nat := 0
  decided : Method := .full
deriving DecidableEq, Repr

/-- The figures of the last allocation (R82). -/
structure AllocFigures where
  usable : Nat := 0
  soundReserve : Nat := 0
  labelReserve : Nat := 0
  videoPool : Nat := 0
  weightSum : Nat := 0
  minSum : Nat := 0
deriving DecidableEq, Repr

structure Allocator where
  headroom : Nat := 0
  labelReserve : Nat := 0
  figures : AllocFigures := {}
  progs : Table 4 RateProg := Table.replicate 4 {}
deriving DecidableEq, Repr

/-! ### Sound Mixer (chapter 5) -/

inductive LossPolicy where
  | silence | again | hold
deriving DecidableEq, Repr

/-- A block waiting in a jitter store. -/
structure JitterBlock where
  block : BlockNo
  samples : SoundBlock
deriving DecidableEq, Repr

structure Input where
  trim : Nat := 4096
  mute : Bool := false
  groups : Table 8 Bool := Table.replicate 8 false
  policy : LossPolicy := .silence
  store : List JitterBlock := []
  last : SoundBlock := silentBlock
  late : Nat := 0
  early : Nat := 0
  duplicate : Nat := 0
  loss : Nat := 0
deriving DecidableEq, Repr

structure CrossPoint where
  cross : Nat := 0
  target : Nat := 0
  applied : Nat := 0
deriving DecidableEq, Repr

structure Bus where
  master : Nat := 4096
  applied : Nat := 4096
  decay : Nat := 1024
  blockPeak : Nat := 0
  heldPeak : Nat := 0
  clips : Nat := 0
deriving DecidableEq, Repr

inductive TriggerState where
  | idle | arming | active | releasing
deriving DecidableEq, Repr

/-- The clip of a trigger: absent, awaited, or a clip number (section 5.6). -/
inductive TriggerClip where
  | absent
  | awaited
  | number (n : Nat)
deriving DecidableEq, Repr

inductive Priority where
  | normal | hot
deriving DecidableEq, Repr

structure Trigger where
  state : TriggerState := .idle
  bus : Fin 8 := 0
  hi : Nat := 0
  lo : Nat := 0
  nOpen : Nat := 2
  nClose : Nat := 48
  cameras : Table 4 Bool := Table.replicate 4 false
  priority : Priority := .normal
  run : Nat := 0
  clip : TriggerClip := .absent
  fired : Nat := 0
deriving DecidableEq, Repr

/-- The Clip Marker's answer to a trigger's MARK-IN, on its way to the trigger (R102; DEDUCED, log
entry 19): a clip number, or a refusal. -/
structure TriggerReply where
  trigger : Fin 4
  clip : Option Nat
deriving DecidableEq, Repr

structure Mixer where
  aligned : Bool := false
  next : BlockNo := 0
  lag : Nat := 2
  inputs : Table 32 Input := Table.replicate 32 {}
  cross : Table 32 (Table 8 CrossPoint) := Table.replicate 32 (Table.replicate 8 {})
  buses : Table 8 Bus := Table.replicate 8 {}
  groups : Table 8 Bool := Table.replicate 8 false
  triggers : Table 4 Trigger := Table.replicate 4 {}
  answers : List TriggerReply := []
deriving DecidableEq, Repr

/-! ### Packets (chapter 8), held by the pool's queues, by the Home Scheduler and by assemblies -/

inductive PacketKind where
  | picture | sound | label | reply | probe
deriving DecidableEq, Repr

/-- The six owners of pool blocks (R147). -/
inductive Owner where
  | prog (p : Prog)
  | sound
  | labelReply
deriving DecidableEq, Repr

/-- A home packet: its record (R151) and its payload. A PROBE has no owner and no blocks. `band` is the band number that
the slice header carries; with the programme and the picture number it names the slice that a reservation concerns (R168;
DEDUCED, log entry 30). -/
structure Packet where
  kind : PacketKind
  owner : Option Owner
  subject : Option Nat
  number : BitVec 32
  band : Nat := 0
  fragIndex : Nat := 1
  fragCount : Nat := 1
  stamp : Tick
  deadline : Option Tick := none
  size : Nat
  blocks : List Nat := []
  payload : List Byte := []
deriving DecidableEq, Repr

/-! ### Sound Delay and Packer (chapter 6) -/

inductive Width where
  | bits16 | bits24
deriving DecidableEq, Repr

/-- A SOUND packet being packed: its blocks packed, its width, and its packet, or none where the pool refused it (R118). -/
structure Assembly where
  packed : Nat
  width : Width
  packet : Option Packet
deriving DecidableEq, Repr

/-- A home sound stream. `lineL` and `lineR` are the delay line's samples, newest first; a position past the list's end
holds a zero sample, and the last sample listed is not zero. -/
structure SoundStream where
  enable : Bool := false
  left : Fin 8 := 0
  right : Fin 8 := 1
  width : Width := .bits24
  linked : Option Prog := none
  fixedDelay : Nat := 0
  trim : Int := 0
  allowance : Nat := 500
  target : Nat := 0
  current : Nat := 0
  lineL : List Sample := []
  lineR : List Sample := []
  assembly : Option Assembly := none
  packets : Nat := 0
  refused : Nat := 0
deriving DecidableEq, Repr

/-! ### Clip Marker (chapter 7) -/

inductive ClipState where
  | opened | postRoll | closing | closed | sent | acked
deriving DecidableEq, Repr

inductive ClipSource where
  | vanDesk (d : Fin 8)
  | home
  | trigger (t : Fin 4)
  | tally
deriving DecidableEq, Repr

structure InPoint where
  pic : Pic
  short : Bool
deriving DecidableEq, Repr

/-- A camera of a clip; its in-point is absent while pending. -/
structure ClipCamera where
  prog : Prog
  inPoint : Option InPoint
deriving DecidableEq, Repr

/-- A clip record (section 7.1). Fields that are not present in the record's state are 0 or absent. -/
structure Clip where
  number : Nat
  state : ClipState := .opened
  source : ClipSource
  priority : Priority
  mark : Pic
  cameras : List ClipCamera
  count : Nat := 0
  expiry : Option Pic := none
  outPoint : Option Pic := none
  text : List Byte := []
  ackTick : Option Tick := none
deriving DecidableEq, Repr

/-- The Clip Marker. Pointers and orders refer to a record by its clip number, which no two records share (R122). -/
structure ClipMarker where
  clips : List Clip := []
  next : Nat := 1
  desks : Table 8 (Option Nat) := Table.replicate 8 none
  tally : Table 4 (Option Nat) := Table.replicate 4 none
  view : Table 4 Bool := Table.replicate 4 false
  waiting : List Nat := []
  acked : List Nat := []
  preRoll : Nat := 0
  postRoll : Nat := 0
  autoMark : Bool := false
  tallyPriority : Priority := .normal
deriving DecidableEq, Repr

/-! ### Packet Pool (chapter 8) -/

structure OwnerRecord where
  count : Nat := 0
  cap : Nat := 0
  refused : Nat := 0
deriving DecidableEq, Repr

/-- The four class queues, highest priority first (R154). -/
inductive QueueClass where
  | reply | label | sound | picture
deriving DecidableEq, Repr

/-- The Packet Pool; every queue is head first. `owners` are those of P0 to P3, sound and label-and-reply. -/
structure Pool where
  free : List Nat := List.range Config.poolBlocks
  owners : Table 6 OwnerRecord :=
    (Table.replicate 6 { count := 0, cap := 0, refused := 0 }).set 5 { count := 0, cap := 64, refused := 0 }
  reply : List Packet := []
  label : List Packet := []
  sound : List Packet := []
  picture : List Packet := []
deriving DecidableEq, Repr

/-! ### Home Scheduler (chapter 9) -/

/-- The handover slot: its packet, the epoch and sequence written into the header, and the tick at which it was offered. -/
structure Slot where
  packet : Packet
  epoch : Epoch
  seq : Seq
  offered : Tick
deriving DecidableEq, Repr

structure InFlight where
  seq : Seq
  packet : Packet
  tick : Tick
deriving DecidableEq, Repr

/-- A slice reservation: the slice, by programme, picture and band, and the fragment index expected next (R168). -/
structure Reservation where
  prog : Nat
  pic : Pic
  band : Nat
  expects : Nat
deriving DecidableEq, Repr

/-- The Home Scheduler's state for one link. `owed` is the model's own: an event of R165 has asked for a take attempt that
has not yet been made (DESIGN CHOICE, log entry 29); it is clear between commands. -/
structure LinkSched where
  credit : Nat := 0
  carry : Nat := 0
  slot : Option Slot := none
  inFlight : List InFlight := []
  nextSeq : Seq := 0
  lastAck : Seq := 65535
  epoch : Epoch := 0
  reservation : Option Reservation := none
  taken : Nat := 0
  lateDrops : Nat := 0
  stale : Nat := 0
  repeated : Nat := 0
  invalid : Nat := 0
  ignoredTaken : Nat := 0
  owed : Bool := false
deriving DecidableEq, Repr

structure Scheduler where
  links : Table 4 LinkSched := Table.replicate 4 {}
  ignoredHome : Nat := 0
deriving DecidableEq, Repr

/-! ### Link Supervisor (chapter 10) -/

inductive LinkState where
  | down | proving | up | degraded | held
deriving DecidableEq, Repr

inductive FaultClass where
  | ackTimeout | ackShortfall | capacityFloor | modemFault | proveFail
deriving DecidableEq, Repr

inductive FaultAction where
  | holdLatched | holdRetry | degrade | report | ignore
deriving DecidableEq, Repr

/-- The fields of LINK-SET (section 10.2). `kinds` are the permitted kinds by `QueueClass`; `actions` are by `FaultClass`. -/
structure LinkSettings where
  share : Nat := 100
  kindPicture : Bool := true
  kindSound : Bool := true
  kindLabel : Bool := true
  kindReply : Bool := true
  burst : Nat := 2656
  floor : Nat := 0
  ackTimeout : Nat := 96000
  minFraction : Nat := 0
  count : Nat := 3
  proveTimeout : Nat := 48000
  retryTime : Nat := 240000
  actions : Table 5 FaultAction := Table.replicate 5 .holdRetry
deriving DecidableEq, Repr

/-- The proving record (R185); `nextProbe` is the tick at which the next probe is built. -/
structure Proving where
  sent : Nat := 0
  retired : Nat := 0
  deadline : Tick
  nextProbe : Tick
deriving DecidableEq, Repr

/-- The recovery expiry of a DEGRADED link, and whether it has passed while the link waits for modem code 0 (R194). -/
structure Recovery where
  tick : Tick
  passed : Bool := false
deriving DecidableEq, Repr

/-- The measuring window (R191). -/
structure Window where
  start : Tick
  handed : Nat := 0
  retired : Nat := 0
deriving DecidableEq, Repr

structure FirstFault where
  cls : FaultClass
  tick : Tick
  code : Byte
  later : Nat := 0
deriving DecidableEq, Repr

structure LinkRecord where
  state : LinkState := .down
  reported : Nat := 0
  capacity : Nat := 0
  code : Byte := 0
  settings : LinkSettings := {}
  proving : Option Proving := none
  retry : Option Tick := none
  degrading : Table 5 Bool := Table.replicate 5 false
  recovery : Option Recovery := none
  window : Option Window := none
  timedOut : Option Seq := none
  openCommand : Option OpenCommand := none
  firstFault : Option FirstFault := none
  faults : Table 5 Nat := Table.replicate 5 0
deriving DecidableEq, Repr

/-! ### Station Ring Interface and Command Unit (chapter 11) -/

/-- An entry of the acceptance table (R199). -/
inductive Dest where
  | none
  | soundInput (k : Fin 32)
  | tally
  | desk (d : Fin 8)
  | control
deriving DecidableEq, Repr

/-- The cells received so far of one message (R202). -/
structure Assembling where
  kind : Byte
  tag : Byte
  cells : Nat
  length : Nat
  received : Nat
  bytes : List Byte
deriving DecidableEq, Repr

/-- The Station Ring Interface. Cells are their 64 bytes. `slot` is the part's own cell in the output slot of the ring
frame now passing, absent where the frame carries none (R199). -/
structure Ring where
  table : Table 256 Dest := (Table.replicate 256 Dest.none).set 255 .control
  output : RingStream := 254
  partials : Table 256 (Option Assembling) := Table.replicate 256 none
  onAir : Table 4 Bool := Table.replicate 4 false
  queue : List (List Byte) := []
  unrouted : Nat := 0
  wrongKind : Nat := 0
  discarded : Nat := 0
  slot : Option (List Byte) := none
deriving DecidableEq, Repr

inductive Authority where
  | van | home | both
deriving DecidableEq, Repr

/-- The 19 event flags (11.4). -/
inductive EventFlag where
  | pictureSkipped | bandLimited | engineOverrun | bufferOverflow | inputLost | methodChanged
  | poolShort
  | soundLoss | soundLate | busClipped
  | clipFull
  | poolRefused
  | linkFault | lateDrop | ackInvalid
  | holdover
  | noticeOverrun | commandOverflow | malformed
deriving DecidableEq, Repr

structure FlagRecord where
  set : Bool := false
  counter : Nat := 0
deriving DecidableEq, Repr

/-- The modes of PROGRAMME-STOP, which are the outcomes its notices name (R27, R29, R30). -/
inductive StopMode where
  | cut | finish | freeze
deriving DecidableEq, Repr

/-- The fields of a notice, by the rule that queues it (R209). -/
inductive NoticeBody where
  /-- R26, R27, R29, R30. -/
  | programme (p : Prog) (state : ProgState) (pic : Pic) (outcome : Option StopMode)
  /-- R186. -/
  | linkUp (l : Link) (epoch : Epoch)
  /-- R187. -/
  | proveFail (l : Link)
  /-- R188. -/
  | linkDown (l : Link)
  /-- R193. -/
  | linkHeld (l : Link) (cls : FaultClass)
  /-- R130. -/
  | camerasStopped (clip : Nat)
  /-- R208. -/
  | flag (f : EventFlag) (counter : Nat)
deriving DecidableEq, Repr

/-- A notice: what it reports, the command it answers, and the tick count and picture number at its queuing (R209). -/
structure Notice where
  body : NoticeBody
  answers : Option OpenCommand := none
  tick : Tick
  pic : Pic
deriving DecidableEq, Repr

/-- The reply to the head command of the HOME queue that waits for a pool grant (R205): its tag and its bytes. -/
structure HeldReply where
  tag : Byte
  bytes : List Byte
deriving DecidableEq, Repr

structure CommandUnit where
  van : List Msg := []
  home : List Msg := []
  held : Option HeldReply := none
  authority : Authority := .both
  noticesHome : Bool := false
  flags : Table 19 FlagRecord := Table.replicate 19 {}
  notices : List Notice := []
  homeNotices : List Notice := []
  overflow : Nat := 0
deriving DecidableEq, Repr

end Sys2Proof.Machine

namespace Sys2Proof.Machine

/-- The block raises no stop of its own: every case the manual names has an effect, so no command faults. -/
inductive Fault where
deriving DecidableEq, Repr

/-- Why a command has no meaning here. -/
inductive Refusal where
  /-- An arm of `exec` whose command is not modelled yet; none is left (safe). -/
  | notModelled (mnemonic : String)
deriving DecidableEq, Repr

/-- The whole part: the commands waiting, first in first out, and the state of its thirteen blocks. -/
structure State where
  pending : List Instr
  tbu : Timebase
  ports : Table 4 Port
  pgc : Controller
  cde : Engine
  ral : Allocator
  smx : Mixer
  sdp : Table 4 SoundStream
  clm : ClipMarker
  pkp : Pool
  hsc : Scheduler
  lsu : Table 4 LinkRecord
  sri : Ring
  cmu : CommandUnit
deriving DecidableEq, Repr

/-- The part right after power-on reset: R15, R38, R61, R83, R106, R120, R144, R161, R180, R197, R212. -/
def State.reset : State where
  pending := []
  tbu := {}
  ports := Table.replicate 4 {}
  pgc := {}
  cde := {}
  ral := {}
  smx := {}
  sdp := Table.replicate 4 {}
  clm := {}
  pkp := {}
  hsc := {}
  lsu := Table.replicate 4 {}
  sri := {}
  cmu := {}

end Sys2Proof.Machine
end

