-- ==== Sys2Proof/Machine/Operands.lean ====
section
/-! DEFINITION. Chapter 12: byte order, the numbers that stand for names, field records, the bodies of messages, replies and
notices, ring cells, home packets, return packets and modem reports. Nothing here reads or changes the part's state. -/

namespace Sys2Proof.Machine

/-! ### Byte order (chapter 12, opening) -/

/-- `v` in `k` bytes, most significant byte first; higher bits are dropped. -/
def beBytes : Nat → Nat → List Byte
  | 0, _ => []
  | k + 1, v => BitVec.ofNat 8 (v / 256 ^ k) :: beBytes k v

/-- The number that bytes spell, most significant byte first. -/
def beNat (l : List Byte) : Nat := l.foldl (fun a b => a * 256 + b.toNat) 0

/-- The signed number that two bytes spell, in two's complement. -/
def beInt16 (l : List Byte) : Int := (BitVec.ofNat 16 (beNat l)).toInt

def byteOf (n : Nat) : Byte := BitVec.ofNat 8 n

/-- Byte `i` of a cell, packet or report; a byte past the end reads as 0. -/
def byteAt (l : List Byte) (i : Nat) : Byte := l.getD i 0

/-- `l` cut or filled with zero bytes to exactly `k` bytes. -/
def padTo (k : Nat) (l : List Byte) : List Byte := l.take k ++ List.replicate (k - l.length) 0

/-- `l` in pieces of `k`, at most `fuel` of them. -/
def chunks (k : Nat) : Nat → List Byte → List (List Byte)
  | 0, _ => []
  | _ + 1, [] => []
  | fuel + 1, l => l.take k :: chunks k fuel (l.drop k)

/-! ### Numbers for names (12.1): from 1 in the order in which the owning table or rule lists them -/

def LockState.code : LockState → Nat
  | .unlocked => 1 | .locked => 2 | .holdover => 3

def ProgState.code : ProgState → Nat
  | .idle => 1 | .ready => 2 | .starting => 3 | .running => 4 | .stopping => 5 | .freezing => 6 | .paired => 7

def InputStatus.code : InputStatus → Nat
  | .present => 1 | .gap => 2 | .lost => 3

def LimitAction.code : LimitAction → Nat
  | .coarsen => 1 | .shed => 2 | .report => 3 | .off => 4

def LimitAction.ofCode : Nat → Option LimitAction
  | 1 => some .coarsen | 2 => some .shed | 3 => some .report | 4 => some .off | _ => none

def PicType.code : PicType → Nat
  | .anchor => 1 | .follow => 2

def Method.code : Method → Nat
  | .full => 1 | .half => 2

def LossPolicy.code : LossPolicy → Nat
  | .silence => 1 | .again => 2 | .hold => 3

def LossPolicy.ofCode : Nat → Option LossPolicy
  | 1 => some .silence | 2 => some .again | 3 => some .hold | _ => none

def TriggerState.code : TriggerState → Nat
  | .idle => 1 | .arming => 2 | .active => 3 | .releasing => 4

def Priority.code : Priority → Nat
  | .normal => 1 | .hot => 2

def Priority.ofCode : Nat → Option Priority
  | 1 => some .normal | 2 => some .hot | _ => none

def ClipState.code : ClipState → Nat
  | .opened => 1 | .postRoll => 2 | .closing => 3 | .closed => 4 | .sent => 5 | .acked => 6

/-- Source and desk or trigger number, as the LABEL payload carries them (12.2). -/
def ClipSource.codes : ClipSource → Nat × Nat
  | .vanDesk d => (1, d.val) | .home => (2, 0) | .trigger t => (3, t.val) | .tally => (4, 0)

def Width.bits : Width → Nat
  | .bits16 => 16 | .bits24 => 24

def Width.ofBits : Nat → Option Width
  | 16 => some .bits16 | 24 => some .bits24 | _ => none

def PacketKind.code : PacketKind → Nat
  | .picture => 1 | .sound => 2 | .label => 3 | .reply => 4 | .probe => 5

def LinkState.code : LinkState → Nat
  | .down => 1 | .proving => 2 | .up => 3 | .degraded => 4 | .held => 5

def FaultClass.idx : FaultClass → Fin 5
  | .ackTimeout => 0 | .ackShortfall => 1 | .capacityFloor => 2 | .modemFault => 3 | .proveFail => 4

def FaultClass.code (c : FaultClass) : Nat := c.idx.val + 1

def FaultClass.ofCode : Nat → Option FaultClass
  | 1 => some .ackTimeout | 2 => some .ackShortfall | 3 => some .capacityFloor | 4 => some .modemFault
  | 5 => some .proveFail | _ => none

def FaultAction.code : FaultAction → Nat
  | .holdLatched => 1 | .holdRetry => 2 | .degrade => 3 | .report => 4 | .ignore => 5

def FaultAction.ofCode : Nat → Option FaultAction
  | 1 => some .holdLatched | 2 => some .holdRetry | 3 => some .degrade | 4 => some .report | 5 => some .ignore
  | _ => none

/-- The destination's number and its input or desk number (12.1, INPUT-MAP). -/
def Dest.codes : Dest → Nat × Nat
  | .none => (1, 0) | .soundInput k => (2, k.val) | .tally => (3, 0) | .desk d => (4, d.val) | .control => (5, 0)

def Authority.code : Authority → Nat
  | .van => 1 | .home => 2 | .both => 3

def Authority.ofCode : Nat → Option Authority
  | 1 => some .van | 2 => some .home | 3 => some .both | _ => none

def Origin.code : Origin → Nat
  | .van => 1 | .home => 2

def StopMode.code : StopMode → Nat
  | .cut => 1 | .finish => 2 | .freeze => 3

/-- A choice of "on, off", "set, clear", "muted, not muted" or "formed, not formed", and the answer to a "whether": the
first is 1, the second 2. -/
def onOff (b : Bool) : Nat := if b then 1 else 2

def onOffOfCode : Nat → Option Bool
  | 1 => some true | 2 => some false | _ => none

/-- Place of a flag in the flag table of 11.4. -/
def EventFlag.idx : EventFlag → Fin 19
  | .pictureSkipped => 0 | .bandLimited => 1 | .engineOverrun => 2 | .bufferOverflow => 3 | .inputLost => 4
  | .methodChanged => 5 | .poolShort => 6 | .soundLoss => 7 | .soundLate => 8 | .busClipped => 9 | .clipFull => 10
  | .poolRefused => 11 | .linkFault => 12 | .lateDrop => 13 | .ackInvalid => 14 | .holdover => 15
  | .noticeOverrun => 16 | .commandOverflow => 17 | .malformed => 18

/-- Place of an owner in the owner table of R147; object kind 10 of 12.1 numbers them alike. -/
def Owner.idx : Owner → Fin 6
  | .prog p => ⟨p.val, by omega⟩ | .sound => 4 | .labelReply => 5

/-- The ten reply statuses (11.3). -/
inductive Status where
  | done | doneClamped | accepted | refusedState | refusedRange | refusedAuthority | refusedFull | queueFull | unknown
  | malformed
deriving DecidableEq, Repr

def Status.code : Status → Nat
  | .done => 1 | .doneClamped => 2 | .accepted => 3 | .refusedState => 4 | .refusedRange => 5 | .refusedAuthority => 6
  | .refusedFull => 7 | .queueFull => 8 | .unknown => 9 | .malformed => 10

/-- DONE-CLAMPED if a value was clamped, DONE otherwise. -/
def doneIf (clamped : Bool) : Status := if clamped then .doneClamped else .done

/-- A present field that its range changes. -/
def clampedBy (lo hi : Nat) (v : Option Nat) : Bool := (v.map fun n => n != clampNat lo hi n).getD false

/-- The kind byte of each command: its place in the command table of R204 (12.1, Note 1). -/
def commandKind : Command → Byte
  | .timebaseSet _ => 1 | .formatSet _ => 2 | .programmeSet _ => 3 | .programmeStart _ => 4 | .programmeStop _ _ _ => 5
  | .refresh _ => 6 | .rateSet _ => 7 | .inputMap _ => 8 | .inputSet _ => 9 | .mixSet _ => 10 | .busSet _ => 11
  | .triggerSet _ => 12 | .soundStreamSet _ => 13 | .clipMark _ _ => 14 | .clipLabel _ _ => 15 | .clipQuery _ => 16
  | .clipSettings _ => 17 | .linkSet _ => 18 | .linkUp _ => 19 | .linkDown _ => 20 | .linkClear _ => 21
  | .statusQuery _ => 22 | .eventsClear _ => 23 | .authoritySet _ => 24 | .reset _ => 25

/-! ### Field records and bodies (12.1) -/

/-- One field record: identifier, value length, value. -/
def record (id : Nat) (v : List Byte) : List Byte := byteOf id :: byteOf v.length :: v

/-- The records of results or notice fields, numbered upward from `id`; an absent one keeps its number and has no record. -/
def records : Nat → List (Option (List Byte)) → List Byte
  | _, [] => []
  | id, none :: rest => records (id + 1) rest
  | id, some v :: rest => record id v ++ records (id + 1) rest

/-- The answer of an owner: a status and its results, in the order in which the owner's rule lists them. -/
structure Reply where
  status : Status
  results : List (Option (List Byte)) := []
deriving DecidableEq, Repr

/-- The stream that a reply names: the command's, and 0 for a reply sent home (12.1). -/
def srcStreamByte : Src → Byte
  | .van s _ => byteOf s.val
  | .home => 0

def srcOrigin : Src → Origin
  | .van _ _ => .van
  | .home => .home

/-- The body of a reply (12.1). -/
def Reply.bytes (r : Reply) (m : Msg) : List Byte :=
  [m.kind, byteOf r.status.code, srcStreamByte m.hdr.src, 0] ++ records 1 r.results

/-- The fields of a notice (R209 and the rules it names). -/
def NoticeBody.fields : NoticeBody → List (Option (List Byte))
  | .programme p st pic out =>
    [some (beBytes 1 p.val), some (beBytes 1 st.code), some (beBytes 4 pic.toNat), out.map fun o => beBytes 1 o.code]
  | .linkUp l e => [some (beBytes 1 l.val), some [e], some [1]]
  | .proveFail l => [some (beBytes 1 l.val), some [2]]
  | .linkDown l => [some (beBytes 1 l.val), some [3]]
  | .linkHeld l c => [some (beBytes 1 l.val), some (beBytes 1 c.code), some [4]]
  | .camerasStopped n => [some (beBytes 2 n), some [1]]
  | .flag f n => [some (beBytes 1 (f.idx.val + 1)), some (beBytes 2 n)]

/-- The notice kinds (12.1, Note 2). -/
def NoticeBody.kind : NoticeBody → Byte
  | .programme .. => 1
  | .linkUp .. | .proveFail .. | .linkDown .. | .linkHeld .. => 2
  | .camerasStopped _ => 3
  | .flag .. => 4

/-- The body of a notice: 12 bytes of head, then its fields (12.1). -/
def Notice.bytes (n : Notice) : List Byte :=
  (match n.answers with
    | none => [0, 0]
    | some o => [byteOf o.origin.code, o.tag]) ++
  [0, 0] ++ beBytes 4 n.tick.toNat ++ beBytes 4 n.pic.toNat ++ records 1 n.body.fields

/-! ### Cells that the part builds (12.1, R213) -/

/-- The REPLY cells of a reply of `tag` whose body is `body`, on output stream `out`: ceil(length / 56) of them, from 1. -/
def replyCells (out : RingStream) (tag : Byte) (body : List Byte) : List (List Byte) :=
  let n := ceilDiv body.length Config.cellBody
  (chunks Config.cellBody n body).mapIdx fun i c =>
    [byteOf out.val, 5, tag, byteOf (i + 1), byteOf n, 0] ++ beBytes 2 body.length ++ padTo Config.cellBody c

/-- The NOTICE cell of a notice. -/
def noticeCell (out : RingStream) (n : Notice) : List Byte :=
  [byteOf out.val, 6, n.body.kind, 0, 0, 0] ++ beBytes 2 n.bytes.length ++ padTo Config.cellBody n.bytes

/-! ### Home packets (12.2) -/

/-- The 16-byte header of a packet handed over by link `l` under `epoch` and `seq`. -/
def Packet.header (p : Packet) (l : Link) (epoch : Epoch) (seq : Seq) : List Byte :=
  [byteOf p.kind.code, byteOf l.val, epoch, byteOf (p.fragIndex * 16 + p.fragCount)] ++ beBytes 2 seq.toNat ++
  beBytes 2 (p.subject.getD 65535) ++ beBytes 4 p.number.toNat ++ beBytes 4 p.stamp.toNat

/-- What link `l` offers its modem: the whole packet in its handover slot (R169). -/
def Slot.bytes (t : Slot) (l : Link) : List Byte := t.packet.header l t.epoch t.seq ++ t.packet.payload

/-- The 8-byte slice header; `type` is 1 ANCHOR, 2 FOLLOW or 3 SKIP, `kind` 1 CODED, 2 SKIP-BAND or 3 SKIP-PICTURE. -/
def sliceHeader (band bands type : Nat) (method : Method) (quant kind length : Nat) : List Byte :=
  [byteOf band, byteOf bands, byteOf type, byteOf method.code, byteOf quant, byteOf kind] ++ beBytes 2 length

/-- A PROBE's payload: its ordinal within the proving, and six zero bytes. -/
def probePayload (ordinal : Nat) : List Byte := beBytes 2 ordinal ++ List.replicate 6 0

/-- One output sample at the stream's width (R115). -/
def packSample (w : Width) (z : Sample) : List Byte :=
  match w with
  | .bits24 => beBytes 3 z.toNat
  | .bits16 => beBytes 2 (BitVec.ofInt 16 (clampInt (-32768) 32767 ((z.toInt + 128) / 256))).toNat

/-- One output block: left and right samples taking turns (R115). -/
def packBlock (w : Width) (l r : SoundBlock) : List Byte :=
  ((l.vals.zip r.vals).map fun p => packSample w p.1 ++ packSample w p.2).flatten

/-! ### Command messages (12.1, R204) -/

/-- The field records of a message, or none where they do not fill its length exactly. -/
def parseRecords : Nat → List Byte → Option (List (Nat × List Byte))
  | _, [] => some []
  | fuel + 1, id :: len :: rest =>
    if len.toNat ≤ rest.length then
      (parseRecords fuel (rest.drop len.toNat)).map ((id.toNat, rest.take len.toNat) :: ·)
    else none
  | _, _ => none

/-- A field's value, if the message carries the field. -/
def fieldOf (rs : List (Nat × List Byte)) (id : Nat) : Option (List Byte) := (rs.find? fun r => r.1 == id).map (·.2)

/-- A field's number, if the message carries the field. -/
def numOf (rs : List (Nat × List Byte)) (id : Nat) : Option Nat := (fieldOf rs id).map beNat

/-- A list field with entries of one byte. -/
def listOf (rs : List (Nat × List Byte)) (id : Nat) : Option (List Nat) := (fieldOf rs id).map fun v => v.map (·.toNat)

/-- The value length of a field: exactly so many bytes, or whatever the text or list has in entries of so many bytes. -/
inductive FieldSize where
  | exact (n : Nat)
  | entries (n : Nat)
  | oneOf (a b : Nat)
deriving DecidableEq, Repr

def FieldSize.admits : FieldSize → Nat → Bool
  | .exact n, k => n == k
  | .entries n, k => k % n == 0
  | .oneOf a b, k => k == a || k == b

/-- Every record is a field of the command with the length its value takes, and no field is carried twice. The object
number of a clip command is a clip number in two bytes or a desk in one, so there the length tells the two apart
(DEDUCED, log entries 41 and 55). -/
def fieldsFit (table : List (Nat × FieldSize)) (rs : List (Nat × List Byte)) : Bool :=
  (rs.all fun r => table.any fun t => t.1 == r.1 && t.2.admits r.2.length) &&
  decide (rs.map fun r => (r.1, if r.1 = 0 then r.2.length else 0)).Nodup

/-- The object of a clip command (R125): identifier 0 in two bytes is a clip number, in one byte a desk. -/
def clipRefOf (rs : List (Nat × List Byte)) : ClipRef where
  clip := (rs.find? fun r => r.1 == 0 && r.2.length == 2).map fun r => beNat r.2
  desk := (rs.find? fun r => r.1 == 0 && r.2.length == 1).map fun r => beNat r.2

/-- The entries of a list field, end to end in `k` bytes each. -/
def entriesOf (k : Nat) (v : List Byte) : List (List Byte) := chunks k v.length v

/-- The fields of each command kind with their identifiers and value lengths (12.1). -/
def fieldTable : Nat → Option (List (Nat × FieldSize))
  | 1 => some [(1, .exact 2), (2, .exact 1), (3, .exact 1), (4, .exact 1), (5, .exact 4)]
  | 2 => some [(0, .exact 1), (1, .exact 1), (2, .exact 1)]
  | 3 => some [(0, .exact 1), (1, .exact 1), (2, .exact 1), (3, .exact 1), (4, .exact 1), (5, .exact 1), (6, .exact 1),
      (7, .exact 1), (8, .exact 2), (9, .exact 1), (10, .exact 1), (11, .exact 2), (12, .exact 1), (13, .exact 1),
      (14, .exact 1)]
  | 4 => some [(0, .exact 1)]
  | 5 => some [(0, .exact 1), (1, .exact 1), (2, .exact 0)]
  | 6 => some [(0, .exact 1)]
  | 7 => some [(0, .exact 1), (1, .exact 1), (2, .exact 1), (3, .exact 4), (4, .exact 4), (5, .exact 4), (6, .exact 4),
      (7, .exact 1), (8, .exact 1), (9, .exact 1), (10, .exact 2)]
  | 8 => some [(1, .entries 3), (2, .exact 1)]
  | 9 => some [(0, .exact 1), (1, .exact 2), (2, .exact 1), (3, .entries 1), (4, .exact 1)]
  | 10 => some [(1, .entries 4)]
  | 11 => some [(0, .exact 1), (1, .exact 2), (2, .exact 2), (3, .exact 1), (4, .exact 1), (5, .exact 1), (6, .exact 1),
      (7, .exact 1), (8, .exact 1), (9, .exact 1), (10, .exact 1), (11, .exact 1)]
  | 12 => some [(0, .exact 1), (1, .exact 1), (2, .exact 4), (3, .exact 4), (4, .exact 1), (5, .exact 1), (6, .entries 1),
      (7, .exact 1)]
  | 13 => some [(0, .exact 1), (1, .exact 1), (2, .exact 1), (3, .exact 1), (4, .exact 1), (5, .oneOf 0 1),
      (6, .exact 4), (7, .exact 2), (8, .exact 2)]
  | 14 => some [(0, .oneOf 1 2), (1, .exact 1), (2, .entries 1), (3, .exact 1), (4, .entries 1)]
  | 15 => some [(0, .oneOf 1 2), (1, .entries 1)]
  | 16 => some [(0, .oneOf 1 2)]
  | 17 => some [(1, .exact 1), (2, .exact 1), (3, .exact 1), (4, .exact 1)]
  | 18 => some [(0, .exact 1), (1, .exact 1), (2, .entries 1), (3, .exact 2), (4, .exact 4), (5, .exact 4), (6, .exact 1),
      (7, .exact 1), (8, .exact 4), (9, .exact 4), (10, .entries 2), (11, .exact 2), (12, .exact 2), (13, .exact 2),
      (14, .exact 2), (15, .exact 2), (16, .exact 2)]
  | 19 => some [(0, .exact 1)]
  | 20 => some [(0, .exact 1)]
  | 21 => some [(0, .exact 1)]
  | 22 => some [(0, .exact 1), (1, .entries 1), (2, .exact 0)]
  | 23 => some [(1, .entries 1), (2, .exact 0)]
  | 24 => some [(1, .exact 1), (2, .exact 1)]
  | 25 => some [(1, .exact 1)]
  | _ => none

/-- The command that field records of one kind spell; none for an EVENTS-CLEAR that carries both its fields or neither. Of
TIMEBASE-SET's fields the denominator is 2 and the numerator 3, in the order of R12's table; the sentence above that rule names
the numerator first (DEDUCED, log entry 56). -/
def commandOf (kind : Nat) (rs : List (Nat × List Byte)) : Option Command :=
  match kind with
  | 1 => some (.timebaseSet ⟨numOf rs 1, numOf rs 3, numOf rs 2, numOf rs 4, numOf rs 5⟩)
  | 2 => some (.formatSet ⟨numOf rs 0, numOf rs 1, numOf rs 2⟩)
  | 3 => some (.programmeSet ⟨numOf rs 0, numOf rs 1, numOf rs 2, numOf rs 3, numOf rs 4, numOf rs 5, numOf rs 6,
      numOf rs 7, numOf rs 8, numOf rs 9, numOf rs 10, numOf rs 11, numOf rs 12, numOf rs 13, numOf rs 14⟩)
  | 4 => some (.programmeStart (numOf rs 0))
  | 5 => some (.programmeStop (numOf rs 0) ((numOf rs 1).getD 0) (fieldOf rs 2).isSome)
  | 6 => some (.refresh (numOf rs 0))
  | 7 => some (.rateSet ⟨numOf rs 0, numOf rs 1, numOf rs 2, numOf rs 3, numOf rs 4, numOf rs 5, numOf rs 6, numOf rs 7,
      numOf rs 8, numOf rs 9, numOf rs 10⟩)
  | 8 => some (.inputMap ⟨(entriesOf 3 ((fieldOf rs 1).getD [])).map fun e =>
      ⟨(byteAt e 0).toNat, (byteAt e 1).toNat, (byteAt e 2).toNat⟩, numOf rs 2⟩)
  | 9 => some (.inputSet ⟨numOf rs 0, numOf rs 1, numOf rs 2, listOf rs 3, numOf rs 4⟩)
  | 10 => some (.mixSet ((entriesOf 4 ((fieldOf rs 1).getD [])).map fun e =>
      ⟨(byteAt e 0).toNat, (byteAt e 1).toNat, beNat (e.drop 2)⟩))
  | 11 => some (.busSet ⟨numOf rs 0, numOf rs 1, numOf rs 2, numOf rs 3, Table.ofFn fun i => numOf rs (4 + i.val)⟩)
  | 12 => some (.triggerSet ⟨numOf rs 0, numOf rs 1, numOf rs 2, numOf rs 3, numOf rs 4, numOf rs 5, listOf rs 6,
      numOf rs 7⟩)
  | 13 => some (.soundStreamSet ⟨numOf rs 0, numOf rs 1, numOf rs 2, numOf rs 3, numOf rs 4,
      (fieldOf rs 5).map fun v => if v.length = 0 then none else some (beNat v), numOf rs 6, (fieldOf rs 7).map beInt16,
      numOf rs 8⟩)
  | 14 => some (.clipMark ((numOf rs 1).getD 0) ⟨clipRefOf rs, listOf rs 2, numOf rs 3, fieldOf rs 4⟩)
  | 15 => some (.clipLabel (clipRefOf rs) (fieldOf rs 1))
  | 16 => some (.clipQuery (clipRefOf rs))
  | 17 => some (.clipSettings ⟨numOf rs 1, numOf rs 2, numOf rs 3, numOf rs 4⟩)
  | 18 => some (.linkSet ⟨numOf rs 0, numOf rs 1, listOf rs 2, numOf rs 3, numOf rs 4, numOf rs 5, numOf rs 6, numOf rs 7,
      numOf rs 8, numOf rs 9, (fieldOf rs 10).map fun v => (entriesOf 2 v).map fun e =>
        ((byteAt e 0).toNat, (byteAt e 1).toNat), Table.ofFn fun i => numOf rs (11 + i.val)⟩)
  | 19 => some (.linkUp (numOf rs 0))
  | 20 => some (.linkDown (numOf rs 0))
  | 21 => some (.linkClear (numOf rs 0))
  | 22 => some (.statusQuery ⟨numOf rs 0, (fieldOf rs 1).map fun v => ((byteAt v 0).toNat, (v.drop 1).map (·.toNat)),
      (fieldOf rs 2).isSome⟩)
  | 23 => match listOf rs 1, fieldOf rs 2 with
    | some l, none => some (.eventsClear (.flags l))
    | none, some _ => some (.eventsClear .all)
    | _, _ => none
  | 24 => some (.authoritySet ⟨numOf rs 1, numOf rs 2⟩)
  | 25 => some (.reset ((numOf rs 1).getD 0))
  | _ => none

/-- The list fields of a command hold a number of entries within the command's range (R204, step 1): INPUT-MAP 0 to 32,
INPUT-SET 0 to 8 groups, MIX-SET 1 to 32, TRIGGER-SET 0 to 4 cameras, CLIP-MARK 1 to 4 cameras, EVENTS-CLEAR 1 to 19. -/
def listsFit : Command → Bool
  | .inputMap f => decide (f.entries.length ≤ 32)
  | .inputSet f => (f.groups.map fun l => decide (l.length ≤ 8)).getD true
  | .mixSet l => decide (1 ≤ l.length ∧ l.length ≤ 32)
  | .triggerSet f => (f.cameras.map fun l => decide (l.length ≤ 4)).getD true
  | .clipMark _ f => (f.cameras.map fun l => decide (1 ≤ l.length ∧ l.length ≤ 4)).getD true
  | .eventsClear (.flags l) => decide (1 ≤ l.length ∧ l.length ≤ 19)
  | _ => true

/-- A command with its list fields judged. -/
def bodyOf (c : Command) : Body := if listsFit c then .command c else .malformed

/-- What the bytes of a message of one kind spell (R204, steps 1 and 2). -/
def parseMessage (kind : Byte) (bytes : List Byte) : Body :=
  match parseRecords bytes.length bytes with
  | none => .malformed
  | some rs =>
    match fieldTable kind.toNat with
    | none => .unknown
    | some t =>
      if fieldsFit t rs then
        match commandOf kind.toNat rs with
        | some c => bodyOf c
        | none => .malformed
      else .malformed

/-! ### Cells, return packets and reports as they arrive (12.1, 12.3) -/

/-- A ring cell by its kind byte; `other` is a cell of kind REPLY or NOTICE or of no kind. -/
inductive RingCell where
  | sound (stream : RingStream) (block : BlockNo) (samples : SoundBlock)
  | tally (stream : RingStream) (count : Byte) (body : List Byte)
  | first (stream : RingStream) (kind tag count : Byte) (length : BitVec 16) (body : List Byte)
  | continuation (stream : RingStream) (index : Byte) (body : List Byte)
  | other (stream : RingStream) (kind : Byte)
deriving DecidableEq, Repr

/-- The cell that 64 bytes spell (12.1). -/
def parseCell (c : List Byte) : RingCell :=
  let stream : RingStream := (byteAt c 0).toFin
  let body := padTo Config.cellBody (c.drop 8)
  match (byteAt c 1).toNat with
  | 1 => .sound stream (BitVec.ofNat 16 (beNat [byteAt c 2, byteAt c 3]))
      (Table.ofFn fun j => BitVec.ofNat 24 (beNat ((body.drop (3 * j.val)).take 3)))
  | 2 => .tally stream (byteAt c 2) body
  | 3 => .first stream (byteAt c 2) (byteAt c 3) (byteAt c 4) (BitVec.ofNat 16 (beNat [byteAt c 6, byteAt c 7])) body
  | 4 => .continuation stream (byteAt c 2) body
  | _ => .other stream (byteAt c 1)

/-- A return packet (12.3); `bad` is one that R214 discards. -/
inductive ReturnPacket where
  | ack (link epoch : Byte) (seq : Seq)
  | refresh (prog : Byte)
  | control (kind tag : Byte) (length : BitVec 16) (message : List Byte)
  | bad
deriving DecidableEq, Repr

/-- R214. -/
def parseReturn (b : List Byte) : ReturnPacket :=
  match (byteAt b 0).toNat with
  | 1 => if b.length = 5 then .ack (byteAt b 1) (byteAt b 2) (BitVec.ofNat 16 (beNat [byteAt b 3, byteAt b 4])) else .bad
  | 2 => if b.length = 2 then .refresh (byteAt b 1) else .bad
  | 3 => if 6 ≤ b.length then
      .control (byteAt b 1) (byteAt b 2) (BitVec.ofNat 16 (beNat [byteAt b 4, byteAt b 5])) (b.drop 6) else .bad
  | _ => .bad

/-- A modem report (12.3); `bad` is one that R215 discards. -/
inductive ModemReport where
  | capacity (c : BitVec 32)
  | fault (code : Byte)
  | taken (epoch : Epoch) (seq : Seq)
  | bad
deriving DecidableEq, Repr

/-- R215. -/
def parseReport (b : List Byte) : ModemReport :=
  match (byteAt b 0).toNat with
  | 1 => if b.length = 5 then .capacity (BitVec.ofNat 32 (beNat (b.drop 1))) else .bad
  | 2 => if b.length = 2 then .fault (byteAt b 1) else .bad
  | 3 => if b.length = 4 then .taken (byteAt b 1) (BitVec.ofNat 16 (beNat [byteAt b 2, byteAt b 3])) else .bad
  | _ => .bad

/-- A number as a member of a numbered range, or none where it names no object. -/
def finOf (n : Nat) (v : Nat) : Option (Fin n) := if h : v < n then some ⟨v, h⟩ else none

/-- An object number that a command may carry. -/
def objectOf (n : Nat) (v : Option Nat) : Option (Fin n) := v.bind (finOf n)

/-- A list of numbers, each naming one of `n` objects, as a set; none where one names no object. -/
def setOf (n : Nat) (l : List Nat) : Option (Table n Bool) :=
  l.foldl (fun acc v => acc.bind fun t => (finOf n v).map fun i => t.set i true) (some (Table.replicate n false))

/-- The members of a set, in ascending order. -/
def members {n : Nat} (t : Table n Bool) : List (Fin n) := (List.finRange n).filter fun i => t.get i

end Sys2Proof.Machine
end

