-- ==== Sys2Proof/Decode.lean ====
section
/-! DEFINITION. Words as commands. The VH-2240 has no instruction words: spec/opcode_table.json gives bits to none of its
rows. What the part does decode, the bytes of cells, messages, return packets and reports, is in Machine/Operands. -/

namespace Sys2Proof

/-- The command that a word of the opcode table spells: no row has bits, so no word spells one. -/
def decodeTableWord (_nbits _w : Nat) : Option Instr := none

end Sys2Proof
end

