-- ==== Sys2Proof/Machine/Ops.lean ====
section
/-! DEFINITION. Operations that several blocks share: one update for each part of the state, the comparison of wrapping
counters (R10), the timecode (R11), cascade pairs and the refresh-owed mark (R33, R34), and the Packet Pool's grants,
releases, appends and re-routes (chapter 8). -/

namespace Sys2Proof.Machine

/-! ### One update for each part of the state -/

def State.onTbu (f : Timebase → Timebase) (s : State) : State := { s with tbu := f s.tbu }
def State.onPort (p : Prog) (f : Port → Port) (s : State) : State := { s with ports := s.ports.modify p f }
def State.onPgc (f : Controller → Controller) (s : State) : State := { s with pgc := f s.pgc }
def State.onProg (p : Prog) (f : Programme → Programme) (s : State) : State :=
  s.onPgc fun c => { c with progs := c.progs.modify p f }
def State.onCde (f : Engine → Engine) (s : State) : State := { s with cde := f s.cde }
def State.onLoop (p : Prog) (f : CodingLoop → CodingLoop) (s : State) : State :=
  s.onCde fun c => { c with loops := c.loops.modify p f }
def State.setEntry (p : Prog) (e : Option Entry) (s : State) : State :=
  s.onCde fun c => { c with entries := c.entries.set p e }
def State.setBand (b : Option Band) (s : State) : State := s.onCde fun c => { c with band := b }
def State.onRal (f : Allocator → Allocator) (s : State) : State := { s with ral := f s.ral }
def State.onRate (p : Prog) (f : RateProg → RateProg) (s : State) : State :=
  s.onRal fun r => { r with progs := r.progs.modify p f }
def State.onSmx (f : Mixer → Mixer) (s : State) : State := { s with smx := f s.smx }
def State.onTrigger (t : Fin 4) (f : Trigger → Trigger) (s : State) : State :=
  s.onSmx fun m => { m with triggers := m.triggers.modify t f }
def State.onStream (i : Fin 4) (f : SoundStream → SoundStream) (s : State) : State := { s with sdp := s.sdp.modify i f }
def State.onClm (f : ClipMarker → ClipMarker) (s : State) : State := { s with clm := f s.clm }
def State.onPool (f : Pool → Pool) (s : State) : State := { s with pkp := f s.pkp }
def State.onHsc (f : Scheduler → Scheduler) (s : State) : State := { s with hsc := f s.hsc }
def State.onSched (l : Link) (f : LinkSched → LinkSched) (s : State) : State :=
  s.onHsc fun h => { h with links := h.links.modify l f }
def State.onLink (l : Link) (f : LinkRecord → LinkRecord) (s : State) : State := { s with lsu := s.lsu.modify l f }
def State.onSri (f : Ring → Ring) (s : State) : State := { s with sri := f s.sri }
def State.onCmu (f : CommandUnit → CommandUnit) (s : State) : State := { s with cmu := f s.cmu }

/-- The programmes, links, triggers and home sound streams, in ascending number. -/
def four : List (Fin 4) := [0, 1, 2, 3]

/-! ### Wrapping counters (R10, R152) -/

/-- `a` is after `b` (R10). -/
def after (a b : BitVec 32) : Bool := decide (1 ≤ (a - b).toNat) && decide ((a - b).toNat ≤ 2147483647)

/-- `a` is at or before `b` (R10). -/
def atOrBefore (a b : BitVec 32) : Bool := decide ((b - a).toNat ≤ 2147483647)

/-- The later of two picture numbers in the order of R10. -/
def laterPic (a b : Pic) : Pic := if after b a then b else a

/-- A tick that a timer names has come. -/
def reached (s : State) (t : Tick) : Bool := atOrBefore t s.tbu.tick

/-- `t` plus a number of ticks. -/
def tickPlus (t : Tick) (n : Nat) : Tick := t + BitVec.ofNat 32 n

/-- The block number of a tick count (R1). -/
def blockOf (t : Tick) : BlockNo := BitVec.ofNat 16 (t.toNat / 16)

/-! ### Timecode (R11) -/

structure Timecode where
  hours : Nat
  minutes : Nat
  seconds : Nat
  pictures : Nat
deriving DecidableEq, Repr

/-- The timecode of a picture number (R11). -/
def timecode (t : Timebase) (p : Pic) : Timecode :=
  let count := (p.toNat + t.origin) % (t.rate * 86400)
  { hours := count / (t.rate * 3600)
    minutes := count / (t.rate * 60) % 60
    seconds := count / t.rate % 60
    pictures := count % t.rate }

/-- A timecode in its 4 bytes (chapter 12, opening). -/
def timecodeBytes (t : Timebase) (p : Pic) : List Byte :=
  let c := timecode t p
  [byteOf c.hours, byteOf c.minutes, byteOf c.seconds, byteOf c.pictures]

/-! ### Cascade pairs (R33) and the refresh-owed mark (R34) -/

def isOdd (p : Prog) : Bool := p.val % 2 == 1

/-- The even member of the pair that `p` may belong to. -/
def evenOf (p : Prog) : Prog := ⟨p.val / 2 * 2, by omega⟩

/-- The odd member of the pair that `p` may belong to. -/
def oddOf (p : Prog) : Prog := ⟨p.val / 2 * 2 + 1, by omega⟩

def prog (s : State) (p : Prog) : Programme := s.pgc.progs.get p

/-- The pair that `p` may belong to is formed; its even member's record says so. -/
def pairFormed (s : State) (p : Prog) : Bool := (prog s (evenOf p)).pair

/-- `p` is the odd member of a formed pair. -/
def isPairedOdd (s : State) (p : Prog) : Bool := isOdd p && pairFormed s p

/-- A reference to the odd member of a formed pair is one to the even member (R33). -/
def fold (s : State) (p : Prog) : Prog := if isPairedOdd s p then evenOf p else p

/-- A set of programmes folded onto even members. -/
def foldSet (s : State) (t : Table 4 Bool) : Table 4 Bool :=
  Table.ofFn fun p => (members t).any fun q => fold s q == p

/-- A cause sets the refresh-owed mark and is counted (R34). -/
def refreshCause (p : Prog) (s : State) : State :=
  s.onProg (fold s p) fun r => { r with refreshOwed := true, causes := satInc r.causes }

/-! ### The Packet Pool: blocks, owners and grants (R146 to R150) -/

def Pool.queue (k : Pool) : QueueClass → List Packet
  | .reply => k.reply | .label => k.label | .sound => k.sound | .picture => k.picture

def Pool.setQueue (k : Pool) (c : QueueClass) (q : List Packet) : Pool :=
  match c with
  | .reply => { k with reply := q } | .label => { k with label := q }
  | .sound => { k with sound := q } | .picture => { k with picture := q }

/-- A grant of `n` blocks to owner `o`, from the head of the free list, or none where the pool refuses (R146, R148). -/
def Pool.grant (k : Pool) (o : Owner) (n : Nat) : Option (List Nat × Pool) :=
  let r := k.owners.get o.idx
  if n ≤ k.free.length ∧ r.count + n ≤ r.cap then
    some (k.free.take n,
      { k with free := k.free.drop n, owners := k.owners.set o.idx { r with count := r.count + n } })
  else none

/-- A refusal adds one to the owner's refused count (R148). -/
def Pool.refuse (k : Pool) (o : Owner) : Pool :=
  { k with owners := k.owners.modify o.idx fun r => { r with refused := satInc r.refused } }

/-- Blocks of owner `o` return to the tail of the free list, and the owner's count falls by their number (R146, R147). -/
def Pool.release (k : Pool) (o : Owner) (blocks : List Nat) : Pool :=
  { k with
    free := k.free ++ blocks
    owners := k.owners.modify o.idx fun r => { r with count := r.count - blocks.length } }

/-- The blocks of a packet are released; a probe holds none. -/
def Pool.releasePacket (k : Pool) (p : Packet) : Pool :=
  match p.owner with
  | some o => k.release o p.blocks
  | none => k

def Pool.releasePackets (k : Pool) (ps : List Packet) : Pool := ps.foldl Pool.releasePacket k

/-- The class queue of a packet's kind (R154); a probe has none. -/
def PacketKind.queue : PacketKind → Option QueueClass
  | .reply => some .reply | .label => some .label | .sound => some .sound | .picture => some .picture | .probe => none

/-- Blocks that a packet of so many bytes needs (R146). -/
def blocksFor (bytes : Nat) : Nat := ceilDiv bytes Config.blockBytes

/-! ### Take attempts owed (R165) and the class queues (R154, R156) -/

/-- An event of R165 asks for a take attempt of link `l`. -/
def oweTake (l : Link) (s : State) : State := s.onSched l fun h => { h with owed := true }

/-- An event of R165 asks for a take attempt of every link. -/
def oweAll (s : State) : State := s.onHsc fun h => { h with links := h.links.map fun k => { k with owed := true } }

/-- A producer appends packets at the tail of a class queue, together and in order (R154). -/
def appendPackets (c : QueueClass) (ps : List Packet) (s : State) : State :=
  oweAll (s.onPool fun k => k.setQueue c (k.queue c ++ ps))

/-- A packet of the odd member of a formed pair, which a re-route releases (R156). -/
def pairedOddPacket (s : State) (p : Packet) : Bool :=
  p.kind == .picture && four.any fun q => isPairedOdd s q && p.subject == some q.val

/-- The packets of one class that a list holds, in the list's order. -/
def ofClass (c : QueueClass) (ps : List Packet) : List Packet := ps.filter fun p => p.kind.queue == some c

/-- A lost link's packets return to the heads of their class queues, in the list's order (R156). -/
def reroute (ps : List Packet) (s : State) : State :=
  let kept := ps.filter fun p => !pairedOddPacket s p
  let gone := ps.filter fun p => pairedOddPacket s p
  oweAll (s.onPool fun k =>
    { k.releasePackets gone with
      reply := ofClass .reply kept ++ k.reply
      label := ofClass .label kept ++ k.label
      sound := ofClass .sound kept ++ k.sound
      picture := ofClass .picture kept ++ k.picture })

/-- A packet is a fragment of the slice that a reservation concerns. -/
def Reservation.covers (r : Reservation) (p : Packet) : Bool :=
  p.kind == .picture && p.subject == some r.prog && p.number == r.pic && p.band == r.band

/-- A reservation's slice has lost one of the packets `gone`. -/
def Reservation.loses (gone : List Packet) (r : Reservation) : Bool := gone.any r.covers

/-- The reservations of the slices whose fragments have been removed end (R28, R157, R168), and every link has an attempt
where one ends (R165). -/
def endReservations (gone : List Packet) (s : State) : State :=
  let held := four.any fun l => ((s.hsc.links.get l).reservation.map (·.loses gone)).getD false
  let s1 := s.onHsc fun h => { h with links := h.links.map fun k =>
    { k with reservation := k.reservation.filter fun r => !r.loses gone } }
  if held then oweAll s1 else s1

/-- The PICTURE packets of a programme that stand in the PICTURE queue, head first. -/
def queuedPictures (p : Prog) (k : Pool) : List Packet := k.picture.filter fun q => q.subject == some p.val

/-- Every PICTURE packet of a programme leaves the PICTURE queue and its blocks are released (R28, R159). Their block lists
return in the order in which the packets stood, head first: R150 orders the blocks of one list alone (DESIGN CHOICE, log
entry 57). -/
def flushPictures (p : Prog) (s : State) : State :=
  endReservations (queuedPictures p s.pkp) (s.onPool fun k =>
    { k.releasePackets (queuedPictures p k) with picture := k.picture.filter fun q => !(q.subject == some p.val) })

end Sys2Proof.Machine
end

