-- ==== Sys2Proof/Machine/Flags.lean ====
section
/-! DEFINITION. Event flags and notices (R208 to R210), and the pool request that raises POOL-REFUSED when it is refused
(R148). A raise may queue a notice, a notice may overrun a full queue or send a home copy, a home copy may be refused a
block: each of these raises a flag in its turn. -/

namespace Sys2Proof.Machine

/-- A flag is set and its counter gains one (R208). -/
def bumpFlag (f : EventFlag) (s : State) : State :=
  s.onCmu fun c => { c with flags := c.flags.modify f.idx fun r => { set := true, counter := satInc r.counter } }

def flagRec (s : State) (f : EventFlag) : FlagRecord := s.cmu.flags.get f.idx

/-- The packet of a reply body or notice body sent home (R151, R205, R210). -/
def replyPacket (tag : Option Byte) (body : List Byte) (blocks : List Nat) (now : Tick) : Packet where
  kind := .reply
  owner := some .labelReply
  subject := tag.map (·.toNat)
  number := 0
  stamp := now
  size := Config.packetHeaderBytes + body.length
  blocks := blocks
  payload := body

/-- The notice at the head of the home notice list asks for its block. On a grant it is built, queued and leaves the list;
on a refusal it stays, and POOL-REFUSED is raised (R148, R210). The answer says whether it was granted. -/
def sendHomeNotice (raise : EventFlag → State → State) (s : State) : Bool × State :=
  match s.cmu.homeNotices with
  | [] => (false, s)
  | n :: rest =>
    match s.pkp.grant .labelReply 1 with
    | some (bs, k) =>
      (true, appendPackets .reply [replyPacket none n.bytes bs s.tbu.tick]
        (({ s with pkp := k } : State).onCmu fun c => { c with homeNotices := rest }))
    | none => (false, raise .poolRefused (s.onPool fun k => k.refuse .labelReply))

/-- A list of at most 32 that another notice joins: the oldest leaves a full one. -/
def joinNotices (l : List Notice) (n : Notice) : List Notice :=
  (if Config.noticeQueue ≤ l.length then l.tail else l) ++ [n]

/-- The home copy of a notice joins the home notice list (R210). -/
def homeCopy (raise : EventFlag → State → State) (n : Notice) (s : State) : State :=
  let l := s.cmu.homeNotices
  let s1 := s.onCmu fun c => { c with homeNotices := joinNotices l n }
  let s2 := if l.isEmpty ∧ s.cmu.held = none then (sendHomeNotice raise s1).2 else s1
  if Config.noticeQueue ≤ l.length then raise .noticeOverrun s2 else s2

/-- A notice joins the notice queue (R209) and, where R210 says so, the home notice list. -/
def queueNoticeWith (raise : EventFlag → State → State) (n : Notice) (s : State) : State :=
  let l := s.cmu.notices
  let s1 := s.onCmu fun c => { c with notices := joinNotices l n }
  let s2 := if s.cmu.noticesHome ∨ n.answers.map (·.origin) = some .home then homeCopy raise n s1 else s1
  if Config.noticeQueue ≤ l.length then raise .noticeOverrun s2 else s2

/-- A raise of a flag (R208), with a bound on the raises within raises. A raise within a raise is of NOTICE-OVERRUN or
POOL-REFUSED, and goes further only while that flag is clear, so the bound 4 is never reached. -/
def raiseWithin : Nat → EventFlag → State → State
  | 0, f, s => bumpFlag f s
  | k + 1, f, s =>
    if (flagRec s f).set then bumpFlag f s
    else
      let s1 := bumpFlag f s
      queueNoticeWith (raiseWithin k)
        { body := .flag f (flagRec s1 f).counter, tick := s.tbu.tick, pic := s.tbu.pic } s1

/-- A block raises a flag (R208). -/
def raiseFlag (f : EventFlag) (s : State) : State := raiseWithin 4 f s

/-- A block queues a notice, which may answer a command (R209). -/
def queueNotice (body : NoticeBody) (answers : Option OpenCommand) (s : State) : State :=
  queueNoticeWith raiseFlag { body := body, answers := answers, tick := s.tbu.tick, pic := s.tbu.pic } s

/-- EVENTS-CLEAR of one flag (R208). -/
def clearFlag (f : Fin 19) (s : State) : State := s.onCmu fun c => { c with flags := c.flags.set f {} }

/-- A producer's request of `n` blocks for owner `o`: the blocks, or none after a refusal that is counted and raises
POOL-REFUSED once (R148). -/
def request (o : Owner) (n : Nat) (s : State) : Option (List Nat) × State :=
  match s.pkp.grant o n with
  | some (bs, k) => (some bs, { s with pkp := k })
  | none => (none, raiseFlag .poolRefused (s.onPool fun k => k.refuse o))

/-- Blocks that a producer's assembly held are released (R150). -/
def releaseBlocks (o : Owner) (blocks : List Nat) (s : State) : State := s.onPool fun k => k.release o blocks

end Sys2Proof.Machine
end

