-- ==== Sys2Proof/Machine/Clip.lean ====
section
/-! DEFINITION. The Clip Marker (chapter 7): the clip table, marks from their four sources, in-points, marking out and
closing, label delivery, and its four commands. -/

namespace Sys2Proof.Machine

/-! ### The clip table (section 7.1) -/

def clipOf (s : State) (n : Nat) : Option Clip := s.clm.clips.find? fun c => c.number == n

/-- The record that holds number `n` is changed. -/
def onClip (n : Nat) (f : Clip → Clip) (s : State) : State :=
  s.onClm fun m => { m with clips := m.clips.map fun c => if c.number = n then f c else c }

/-- A record in OPEN, POST-ROLL or CLOSING is live. -/
def Clip.live (c : Clip) : Bool := c.state == .opened || c.state == .postRoll || c.state == .closing

/-- A live record of priority HOT (R139). -/
def Clip.hotLive (c : Clip) : Bool := c.priority == .hot && c.live

/-- Every in-point of the record is present. -/
def Clip.resolved (c : Clip) : Bool := c.cameras.all fun k => k.inPoint.isSome

/-- The in-points that a record holds. -/
def Clip.inPoints (c : Clip) : List Pic := c.cameras.filterMap fun k => k.inPoint.map (·.pic)

/-- The record waits for the in-point of camera `p`. -/
def Clip.pendingOn (c : Clip) (p : Prog) : Bool := c.live && c.cameras.any fun k => k.prog == p && k.inPoint.isNone

/-- A record is freed: every pointer and tally clip that refers to it becomes absent, and it leaves both orders (R122). -/
def freeClip (n : Nat) (s : State) : State :=
  s.onClm fun m =>
    { m with
      clips := m.clips.filter fun c => c.number != n
      desks := m.desks.map fun d => d.filter (· != n)
      tally := m.tally.map fun d => d.filter (· != n)
      waiting := m.waiting.filter (· != n)
      acked := m.acked.filter (· != n) }

/-- The clip number after `n`, passing from 65,535 to 1 (R123). -/
def nextNumber (n : Nat) : Nat := if 65535 ≤ n then 1 else n + 1

/-- The first number from `n` upward that no record holds, within `fuel` steps (R123). -/
def pickNumber (held : List Nat) : Nat → Nat → Nat
  | 0, n => n
  | fuel + 1, n => if n = 0 ∨ n ∈ held then pickNumber held fuel (nextNumber n) else n

/-- A place for a new record: a free one, or that of the record acknowledged longest ago, which is freed; none where the
table is full and no record is ACKED (R124). -/
def makeRoom (s : State) : Option State :=
  if s.clm.clips.length < Config.clipRecords then some s
  else match s.clm.acked with
    | [] => none
    | n :: _ => some (freeClip n s)

/-! ### In-points (R128) -/

/-- The in-point of a camera whose anchor history is `history`, newest first; none while pending (R128). -/
def placeInPoint (history : List Pic) (mark : Pic) (preRoll : Nat) : Option InPoint :=
  if preRoll = 0 then
    if history.contains mark then some ⟨mark, false⟩ else none
  else
    let target := mark - BitVec.ofNat 32 preRoll
    match history.find? fun a => atOrBefore a target with
    | some a => some ⟨a, false⟩
    | none => history.getLast?.map fun a => ⟨a, true⟩

/-! ### Label delivery (R142) -/

/-- The LABEL payload of a record (12.2); its timecodes are computed as it is built. -/
def labelPayload (t : Timebase) (c : Clip) : List Byte :=
  let out := c.outPoint.getD 0
  let codes := c.source.codes
  [byteOf codes.1, byteOf codes.2, byteOf c.priority.code, byteOf c.cameras.length] ++
  beBytes 4 c.mark.toNat ++ beBytes 4 out.toNat ++ timecodeBytes t c.mark ++ timecodeBytes t out ++
  [byteOf c.text.length, 0, 0, 0] ++
  (c.cameras.map fun k =>
    let i := k.inPoint.getD ⟨0, false⟩
    [byteOf k.prog.val, if i.short then 1 else 0, 0, 0] ++ beBytes 4 i.pic.toNat ++ timecodeBytes t i.pic).flatten ++
  c.text

/-- The LABEL packet of a record (R142, R151). -/
def labelPacket (t : Timebase) (c : Clip) (blocks : List Nat) : Packet where
  kind := .label
  owner := some .labelReply
  subject := some c.number
  number := c.outPoint.getD 0
  stamp := t.tick
  size := Config.packetHeaderBytes + (labelPayload t c).length
  blocks := blocks
  payload := labelPayload t c

/-- The record at the head of the label waiting order asks for its block: granted, its packet is built and queued and it
leaves the order; refused, it stays (R142). The answer says whether it was granted. -/
def requestLabel (s : State) : Bool × State :=
  match s.clm.waiting with
  | [] => (false, s)
  | n :: rest =>
    match request .labelReply 1 s with
    | (none, s1) => (false, s1)
    | (some bs, s1) =>
      let s2 := s1.onClm fun m => { m with waiting := rest }
      (true, match clipOf s n with
        | some c => appendPackets .label [labelPacket s.tbu c bs] s2
        | none => releaseBlocks .labelReply bs s2)

/-- At a period start the waiting records ask in their order, up to the first refusal (R142). -/
def retryLabels : Nat → State → State
  | 0, s => s
  | fuel + 1, s =>
    if s.clm.waiting.isEmpty then s
    else match requestLabel s with
      | (true, s1) => retryLabels fuel s1
      | (false, s1) => s1

/-! ### Closing (R133, R134) -/

/-- A record enters CLOSED with its out-point, the latest of `e` and every in-point, and joins the label delivery. -/
def closeClip (n : Nat) (e : Pic) (s : State) : State :=
  let s1 := onClip n (fun c =>
    { c with state := .closed, count := 0, expiry := none, outPoint := some (c.inPoints.foldl laterPic e) }) s
  let s2 := s1.onClm fun m => { m with waiting := m.waiting ++ [n] }
  if s.clm.waiting.isEmpty then (requestLabel s2).2 else s2

/-- The post-roll of a record runs out (R133). -/
def runOut (n : Nat) (s : State) : State :=
  let e := s.tbu.pic - 1
  match clipOf s n with
  | none => s
  | some c =>
    if c.resolved then closeClip n e s
    else onClip n (fun c => { c with state := .closing, count := 0, expiry := some e }) s

/-- A CLOSING record with no pending in-point closes (R134). -/
def closeIfResolved (n : Nat) (s : State) : State :=
  match clipOf s n with
  | none => s
  | some c => if c.state = .closing ∧ c.resolved then closeClip n (c.expiry.getD 0) s else s

/-- At a period start every count in POST-ROLL falls by one, and a count that reaches 0 runs out (R133). -/
def countPostRoll (s : State) : State :=
  (s.clm.clips.filter fun c => c.state == .postRoll).foldl (fun s c =>
    if c.count ≤ 1 then runOut c.number s else onClip c.number (fun c => { c with count := c.count - 1 }) s) s

/-- The post-roll count of a record is set to the post-roll setting; a setting of 0 runs out at once (R131, R132). -/
def startPostRoll (n : Nat) (s : State) : State :=
  let s1 := onClip n (fun c => { c with state := .postRoll, count := s.clm.postRoll }) s
  if s.clm.postRoll = 0 then runOut n s1 else s1

/-! ### Marks (R127, R131) -/

/-- The cameras that a MARK-IN of the set `cams` keeps: folded, and RUNNING (R127). -/
def keptCameras (cams : Table 4 Bool) (s : State) : List Prog :=
  (members (foldSet s cams)).filter fun p => (prog s p).state == .running

/-- A MARK-IN: the new clip's number, or the refusal (R127). `cams` is the camera set as named. -/
def markIn (source : ClipSource) (cams : Table 4 Bool) (prio : Priority) (text : List Byte) (s : State) :
    Except Status Nat × State :=
  let kept := keptCameras cams s
  if kept.isEmpty then (.error .refusedState, s)
  else match makeRoom s with
    | none => (.error .refusedFull, raiseFlag .clipFull s)
    | some s1 =>
      let n := pickNumber (s1.clm.clips.map (·.number)) 65 s1.clm.next
      let mark := s.tbu.pic
      let cameras := kept.map fun p =>
        (⟨p, placeInPoint (s.cde.loops.get p).history mark s.clm.preRoll⟩ : ClipCamera)
      let c : Clip :=
        { number := n, source := source, priority := prio, mark := mark, cameras := cameras,
          text := text.take Config.labelChars }
      let s2 := s1.onClm fun m => { m with clips := m.clips ++ [c], next := nextNumber n }
      (.ok n, (cameras.filter fun k => k.inPoint.isNone).foldl (fun s k => refreshCause k.prog s) s2)

/-- A MARK-OUT of a record, or none where no record holds the number or its state refuses it (R131). -/
def markOut (n : Nat) (s : State) : Option State :=
  (clipOf s n).bind fun c =>
    match c.state with
    | .opened => some (startPostRoll n s)
    | .postRoll => some s
    | _ => none

/-- A MARK-OUT from a sound trigger or from tally; one that finds no record, or is refused, is disregarded (R140, R141). -/
def silentMarkOut (n : Nat) (s : State) : State := (markOut n s).getD s

/-! ### Reports of the other blocks -/

/-- "Anchor started" (R49): pending in-points of the camera are resolved, and CLOSING records may close (R129). -/
def anchorStarted (p : Prog) (q : Pic) (s : State) : State :=
  (s.clm.clips.filter fun c => c.pendingOn p).foldl (fun s c =>
    closeIfResolved c.number (onClip c.number (fun c =>
      { c with cameras := c.cameras.map fun k =>
          if k.prog = p ∧ k.inPoint = none then { k with inPoint := some ⟨q, false⟩ } else k }) s)) s

/-- A programme leaves RUNNING: it leaves the records whose in-point waits for it (R130). -/
def leavesRunning (p : Prog) (s : State) : State :=
  (s.clm.clips.filter fun c => c.pendingOn p).foldl (fun s c =>
    let left := c.cameras.filter fun k => !(k.prog == p && k.inPoint.isNone)
    if left.isEmpty then queueNotice (.camerasStopped c.number) none (freeClip c.number s)
    else closeIfResolved c.number (onClip c.number (fun c => { c with cameras := left }) s)) s

/-- A LABEL packet has entered an in-flight list: its record enters SENT if it was CLOSED (R143). -/
def labelTaken (n : Nat) (s : State) : State :=
  onClip n (fun c => if c.state = .closed then { c with state := .sent } else c) s

/-- An acknowledgement has retired a LABEL packet: its record enters ACKED (R143). -/
def labelRetired (n : Nat) (s : State) : State :=
  match clipOf s n with
  | none => s
  | some _ =>
    (onClip n (fun c => { c with state := .acked, ackTick := some s.tbu.tick }) s).onClm fun m =>
      { m with acked := m.acked ++ [n] }

/-- The HOT cameras (R139). -/
def hotCameras (s : State) : Table 4 Bool :=
  Table.ofFn fun p => s.clm.clips.any fun c => c.hotLive && c.cameras.any fun k => k.prog == p

/-! ### Tally (R140) -/

/-- A camera leaves the air: its tally clip, if it has one, is marked out. -/
def leaveAir (p : Prog) (s : State) : State :=
  match s.clm.tally.get p with
  | none => s
  | some n => (silentMarkOut n s).onClm fun m => { m with tally := m.tally.set p none }

/-- A camera enters the air while auto-mark is on: a MARK-IN of that camera alone. -/
def enterAir (p : Prog) (s : State) : State :=
  match markIn .tally ((Table.replicate 4 false).set p true) s.clm.tallyPriority [] s with
  | (.ok n, s1) => s1.onClm fun m => { m with tally := m.tally.set p (some n) }
  | (.error _, s1) => s1.onClm fun m => { m with tally := m.tally.set p none }

/-- A new on-air set is judged against the tally view (R140). The cameras that leave the air are worked first, in ascending
number, as those that enter it are; the manual orders the entering ones alone (DESIGN CHOICE, log entry 24). -/
def judgeTally (onAir : Table 4 Bool) (s : State) : State :=
  let new := foldSet s onAir
  let old := s.clm.view
  let s1 := (four.filter fun p => old.get p && !new.get p).foldl (fun s p => leaveAir p s) s
  let s2 :=
    if s.clm.autoMark then (four.filter fun p => new.get p && !old.get p).foldl (fun s p => enterAir p s) s1 else s1
  s2.onClm fun m => { m with view := new }

/-! ### The Clip Marker's commands (R125 to R138) -/

/-- A character whose code lies from 32 to 126. -/
def printable (b : Byte) : Bool := decide (32 ≤ b.toNat) && decide (b.toNat ≤ 126)

/-- The desk that a command acts for, if any; none where R125 refuses the command for the desk it names. -/
def actingDesk (src : Src) (ref : ClipRef) : Option (Option (Fin 8)) :=
  match src, ref.desk with
  | .van _ (some d), _ => some (some d)
  | .van _ none, none => some none
  | .van _ none, some d => (finOf 8 d).map some
  | .home, none => some none
  | .home, some _ => none

/-- The record that OUT, EXTEND, CANCEL, CLIP-LABEL and CLIP-QUERY act on; none where R125 refuses them. -/
def recordOf (src : Src) (ref : ClipRef) (s : State) : Option Nat :=
  (actingDesk src ref).bind fun desk =>
    (match ref.clip with
      | some n => if n = 0 then none else some n
      | none => desk.bind fun d => s.clm.desks.get d).bind fun n => (clipOf s n).map fun _ => n

/-- A camera's in-point in a reply: the picture number, then 1 for placed, 2 for placed with SHORT and 3 for pending, whose
picture number is 0 (R127, R138; the numbers are the model's, log entry 52). -/
def inPointBytes (k : ClipCamera) : List Byte :=
  match k.inPoint with
  | some i => beBytes 4 i.pic.toNat ++ [byteOf (if i.short then 2 else 1)]
  | none => beBytes 4 0 ++ [3]

/-- The camera set that a CLIP-MARK names, or none where a number names no camera (R125). -/
def markCameras (f : MarkFields) : Option (Table 4 Bool) := setOf 4 (f.cameras.getD [])

/-- The priority and text that a CLIP-MARK carries, or none where R125 refuses them. R125 does not order these refusals
against those of the record's state, so by 11.3 they come after them (log entry 27). -/
def markValues (f : MarkFields) : Option (Priority × List Byte) :=
  (Priority.ofCode (f.priority.getD 1)).bind fun prio =>
    let text := f.text.getD []
    if text.all printable then some (prio, text) else none

/-- The source of a CLIP-MARK IN: HOME, or the desk it acts for; none for a control stream's without a desk (R125, R127). -/
def markSource (src : Src) (desk : Option (Fin 8)) : Option ClipSource :=
  match src with
  | .home => some .home
  | .van _ _ => desk.map .vanDesk

/-- A MARK-IN of a CLIP-MARK, for `desk` if it acts for one (R126, R127). -/
def markInFor (desk : Option (Fin 8)) (source : ClipSource) (cams : Table 4 Bool) (prio : Priority) (text : List Byte)
    (s : State) : State × Reply :=
  match markIn source cams prio text s with
  | (.error st, s1) => (s1, { status := st })
  | (.ok n, s1) =>
    let s2 := match desk with
      | some d => s1.onClm fun m => { m with desks := m.desks.set d (some n) }
      | none => s1
    let cameras := ((clipOf s2 n).map (·.cameras)).getD []
    (s2, { status := doneIf (decide (Config.labelChars < text.length))
           results := [some (beBytes 2 n), some (beBytes 4 s.tbu.pic.toNat),
             some (cameras.map fun k => byteOf k.prog.val), some (cameras.map inPointBytes).flatten] })

/-- CLIP-MARK IN (R125 to R127): the numbers it names are judged first, then the programmes' states, then its other values. -/
def clipMarkIn (src : Src) (f : MarkFields) (s : State) : State × Reply :=
  match markCameras f, actingDesk src f.ref with
  | some cams, some desk =>
    match markSource src desk with
    | none => (s, { status := .refusedRange })
    | some source =>
      if (keptCameras cams s).isEmpty then (s, { status := .refusedState })
      else match markValues f with
        | none => (s, { status := .refusedRange })
        | some (prio, text) => markInFor desk source cams prio text s
  | _, _ => (s, { status := .refusedRange })

/-- A CLIP-MARK of the record it names, once the numbers it carries are judged: `act` gives the record's own judgement, none
where its state refuses the command; the other values are judged last (R125, 11.3). -/
def markRecord (src : Src) (f : MarkFields) (act : Clip → Option (State × Reply)) (s : State) : State × Reply :=
  match markCameras f, (recordOf src f.ref s).bind (clipOf s) with
  | some _, some c =>
    match act c with
    | none => (s, { status := .refusedState })
    | some r => if (markValues f).isSome then r else (s, { status := .refusedRange })
  | _, _ => (s, { status := .refusedRange })

/-- CLIP-MARK OUT (R131). -/
def clipMarkOut (src : Src) (f : MarkFields) (s : State) : State × Reply :=
  markRecord src f (fun c => (markOut c.number s).map fun s1 =>
    (s1, { status := .done
           results := [some (beBytes 2 c.number), (clipOf s1 c.number).map fun c => beBytes 1 c.state.code] })) s

/-- CLIP-MARK EXTEND (R132). -/
def clipMarkExtend (src : Src) (f : MarkFields) (s : State) : State × Reply :=
  markRecord src f (fun c =>
    match c.state with
    | .postRoll => some (startPostRoll c.number s, { status := .done })
    | .opened => some (s, { status := .done })
    | _ => none) s

/-- CLIP-MARK CANCEL (R135). -/
def clipMarkCancel (src : Src) (f : MarkFields) (s : State) : State × Reply :=
  markRecord src f (fun c =>
    if c.live then some (freeClip c.number s, { status := .done, results := [some (beBytes 2 c.number)] }) else none) s

/-- CLIP-MARK by its action (R125): IN 1, OUT 2, EXTEND 3, CANCEL 4. -/
def clipMark (src : Src) (action : Nat) (f : MarkFields) (s : State) : State × Reply :=
  match action with
  | 1 => clipMarkIn src f s
  | 2 => clipMarkOut src f s
  | 3 => clipMarkExtend src f s
  | 4 => clipMarkCancel src f s
  | _ => (s, { status := .refusedRange })

/-- CLIP-LABEL (R136): the record is fixed first, then its state is judged, and the text last (11.3). -/
def clipLabel (src : Src) (ref : ClipRef) (text : Option (List Byte)) (s : State) : State × Reply :=
  match (recordOf src ref s).bind (clipOf s) with
  | none => (s, { status := .refusedRange })
  | some c =>
    if !c.live then (s, { status := .refusedState })
    else if !(text.getD []).all printable then (s, { status := .refusedRange })
    else match text with
      | none => (s, { status := .done })
      | some t =>
        (onClip c.number (fun c => { c with text := t.take Config.labelChars }) s,
          { status := doneIf (decide (Config.labelChars < t.length)) })

/-- The fields of one record, each as present in its state (R138). -/
def clipResults (c : Clip) : List (Option (List Byte)) :=
  let codes := c.source.codes
  [some (beBytes 2 c.number), some (beBytes 1 c.state.code), some [byteOf codes.1, byteOf codes.2],
    some (beBytes 1 c.priority.code), some (beBytes 4 c.mark.toNat), some (c.cameras.map fun k => byteOf k.prog.val),
    some (c.cameras.map inPointBytes).flatten, if c.state = .postRoll then some (beBytes 1 c.count) else none,
    c.expiry.map fun e => beBytes 4 e.toNat, c.outPoint.map fun o => beBytes 4 o.toNat, some c.text,
    c.ackTick.map fun t => beBytes 4 t.toNat]

/-- A record put in its place in ascending clip number. -/
def insertByNumber (c : Clip) : List Clip → List Clip
  | [] => [c]
  | d :: rest => if c.number ≤ d.number then c :: d :: rest else d :: insertByNumber c rest

/-- CLIP-QUERY (R138). -/
def clipQuery (src : Src) (ref : ClipRef) (s : State) : State × Reply :=
  if ref.clip = none ∧ ref.desk = none then
    (s, { status := .done
          results := [some ((s.clm.clips.foldr insertByNumber []).map fun c =>
            beBytes 2 c.number ++ beBytes 1 c.state.code).flatten] })
  else match (recordOf src ref s).bind (clipOf s) with
    | some c => (s, { status := .done, results := clipResults c })
    | none => (s, { status := .refusedRange })

/-- The four settings, as CLIP-SETTINGS and STATUS-QUERY list them. -/
def clipSettingsResults (m : ClipMarker) : List (Option (List Byte)) :=
  [some (beBytes 1 m.preRoll), some (beBytes 1 m.postRoll), some (beBytes 1 (onOff m.autoMark)),
    some (beBytes 1 m.tallyPriority.code)]

/-- CLIP-SETTINGS (R137). -/
def clipSettings (f : ClipSettingsFields) (s : State) : State × Reply :=
  match onOffOfCode (f.autoMark.getD (onOff s.clm.autoMark)),
      Priority.ofCode (f.tallyPriority.getD s.clm.tallyPriority.code) with
  | some auto, some prio =>
    let clamped := decide (250 < f.preRoll.getD 0) || decide (250 < f.postRoll.getD 0)
    let s1 := s.onClm fun m =>
      { m with
        preRoll := (f.preRoll.map (min 250)).getD m.preRoll
        postRoll := (f.postRoll.map (min 250)).getD m.postRoll
        autoMark := auto
        tallyPriority := prio }
    (s1, { status := doneIf clamped
           results := if f = {} then clipSettingsResults s.clm else [] })
  | _, _ => (s, { status := .refusedRange })

end Sys2Proof.Machine
end

