-- ==== Sys2Proof/Machine/Scheduler.lean ====
section
/-! DEFINITION. The Home Scheduler's own work (chapter 9): credit, the take attempt, the handover slot, probes, and the
withdrawal of a lost link's traffic. Acknowledgements and reports, which reach the Link Supervisor, are in Returns. -/

namespace Sys2Proof.Machine

def sched (s : State) (l : Link) : LinkSched := s.hsc.links.get l
def link (s : State) (l : Link) : LinkRecord := s.lsu.get l

/-- The link is UP or DEGRADED. -/
def LinkState.carries (st : LinkState) : Bool := st == .up || st == .degraded

/-! ### Credit (R163) -/

/-- The capacity that a link's credit gains at, and that it contributes to U: C when UP, floor(C / 2) when DEGRADED. -/
def workingCapacity (r : LinkRecord) : Nat :=
  match r.state with
  | .up => r.capacity
  | .degraded => r.capacity / 2
  | _ => 0

/-- One link's credit gain of a block event (R163). -/
def gainCredit (r : LinkRecord) (h : LinkSched) : LinkSched :=
  if r.state.carries then
    let sum := workingCapacity r + h.carry
    { h with credit := min r.settings.burst (h.credit + sum / 24), carry := sum % 24 }
  else h

/-- Every link that is UP or DEGRADED gains credit, and each link has a take attempt (R163, R165). -/
def creditBlock (s : State) : State :=
  oweAll (s.onHsc fun h => { h with links := Table.ofFn fun l => gainCredit (s.lsu.get l) (h.links.get l) })

/-! ### The take (R165 to R169) -/

/-- The link permits packets of a class. -/
def permits (r : LinkRecord) : QueueClass → Bool
  | .reply => r.settings.kindReply | .label => r.settings.kindLabel
  | .sound => r.settings.kindSound | .picture => r.settings.kindPicture

/-- A link can take (R165). -/
def canTake (s : State) (l : Link) : Bool :=
  (link s l).state.carries && (sched s l).slot.isNone && decide ((sched s l).inFlight.length < Config.inFlightMax)

/-- A packet is reserved for a link other than `l`. -/
def reservedElsewhere (s : State) (l : Link) (p : Packet) : Bool :=
  four.any fun k => k != l && ((sched s k).reservation.map fun r => r.covers p).getD false

/-- The first element that satisfies `f`, and the list without it. -/
def takeFirst (f : Packet → Bool) : List Packet → Option (Packet × List Packet)
  | [] => none
  | p :: ps => if f p then some (p, ps) else (takeFirst f ps).map fun r => (r.1, p :: r.2)

/-- A packet of a class queue is open to link `l` (R166). -/
def openTo (s : State) (l : Link) (c : QueueClass) (p : Packet) : Bool :=
  match c with
  | .picture =>
    match (sched s l).reservation with
    | some r => r.covers p
    | none => !reservedElsewhere s l p
  | _ => true

/-- A link's candidate: its class, the packet, and the class queue without it (R166). -/
def candidate (s : State) (l : Link) : Option (QueueClass × Packet × List Packet) :=
  [QueueClass.reply, .label, .sound, .picture].findSome? fun c =>
    if permits (link s l) c then (takeFirst (openTo s l c) (s.pkp.queue c)).map fun r => (c, r.1, r.2) else none

/-- The packet's deadline has passed at the present tick (R152). -/
def isLate (s : State) (p : Packet) : Bool := (p.deadline.map fun d => after s.tbu.tick d).getD false

/-- The reservation after a link has taken fragment `p` (R168). -/
def reservationAfter (r : Option Reservation) (p : Packet) : Option Reservation :=
  if p.kind = .picture then
    if p.fragIndex < p.fragCount then some ⟨p.subject.getD 0, p.number, p.band, p.fragIndex + 1⟩ else none
  else r

/-- The reservation after fragment `p` has been dropped late (R167). -/
def reservationDropped (r : Option Reservation) (p : Packet) : Option Reservation :=
  match r with
  | some v => if v.covers p then
      if p.fragIndex < p.fragCount then some { v with expects := p.fragIndex + 1 } else none
    else some v
  | none => none

/-- Link `l` gets another reservation state; an end of one gives every link an attempt (R165). -/
def setReservation (l : Link) (r : Option Reservation) (s : State) : State :=
  let ended := (sched s l).reservation.isSome && r.isNone
  let s1 := s.onSched l fun h => { h with reservation := r }
  if ended then oweAll s1 else s1

/-- A late candidate is dropped (R167). -/
def dropLate (l : Link) (c : QueueClass) (p : Packet) (rest : List Packet) (s : State) : State :=
  let s1 := s.onPool fun k => (k.setQueue c rest).releasePacket p
  let s2 := raiseFlag .lateDrop (s1.onSched l fun h => { h with lateDrops := satInc h.lateDrops })
  let s3 := if p.kind = .picture then
      match p.subject.bind (finOf 4) with
      | some q => refreshCause q s2
      | none => s2
    else s2
  setReservation l (reservationDropped (sched s l).reservation p) s3

/-- Link `l` takes a packet: it enters the handover slot under the link's epoch and next sequence (R168, R169). -/
def takePacket (l : Link) (c : QueueClass) (p : Packet) (rest : List Packet) (s : State) : State :=
  let s1 := s.onPool fun k => k.setQueue c rest
  let s2 := s1.onSched l fun h =>
    { h with
      credit := h.credit - p.size
      slot := some ⟨p, h.epoch, h.nextSeq, s.tbu.tick⟩
      taken := satInc h.taken }
  setReservation l (reservationAfter (sched s l).reservation p) s2

/-- A take attempt of link `l`: late candidates are dropped until one is taken or none can be (R165 to R168). -/
def attempt : Nat → Link → State → State
  | 0, _, s => s
  | fuel + 1, l, s =>
    if canTake s l then
      match candidate s l with
      | none => s
      | some (c, p, rest) =>
        if isLate s p then attempt fuel l (dropLate l c p rest s)
        else if p.size ≤ (sched s l).credit then takePacket l c p rest s
        else s
    else s

/-- Packets in the four class queues. -/
def queued (s : State) : Nat :=
  s.pkp.reply.length + s.pkp.label.length + s.pkp.sound.length + s.pkp.picture.length

/-- Link `l` makes the attempt it is owed. Every late drop removes a packet, and the notices it raises add few, so the
bound is not reached. -/
def attemptOwed (l : Link) (s : State) : State :=
  if (sched s l).owed then attempt (queued s + 32) l (s.onSched l fun h => { h with owed := false }) else s

/-- Every link that is owed an attempt makes it, in ascending link number, until none is owed. -/
def settle : Nat → State → State
  | 0, s => s.onHsc fun h => { h with links := h.links.map fun k => { k with owed := false } }
  | fuel + 1, s =>
    if four.any fun l => (sched s l).owed then settle fuel (four.foldl (fun s l => attemptOwed l s) s) else s

/-- The take attempts that a command's events ask for, made once its other effects stand. -/
def settleTakes (s : State) : State := settle 8 s

/-! ### Probes (R174) -/

/-- A probe is given for link `l`: it enters an empty slot of a link with room in flight, and is discarded otherwise. -/
def offerProbe (l : Link) (ordinal : Nat) (s : State) : State :=
  let p : Packet :=
    { kind := .probe, owner := none, subject := none, number := 0, stamp := s.tbu.tick, size := 24,
      payload := probePayload ordinal }
  s.onSched l fun h =>
    if h.slot.isNone && decide (h.inFlight.length < Config.inFlightMax) then
      { h with slot := some ⟨p, h.epoch, h.nextSeq, s.tbu.tick⟩ }
    else h

/-! ### The loss of a link and the entry to PROVING (R172, R173) -/

/-- The pooled packets of a link: its in-flight entries in sequence order, then its slot packet (R173). -/
def linkPackets (h : LinkSched) : List Packet :=
  (h.inFlight.map (·.packet) ++ (h.slot.map (·.packet)).toList).filter fun p => p.kind != .probe

/-- The link's traffic is withdrawn: pooled packets go back to their queues, probes are discarded (R173, R189). -/
def withdraw (l : Link) (s : State) : State :=
  let h := sched s l
  let s1 := setReservation l none s
  let s2 := s1.onSched l fun h => { h with slot := none, inFlight := [], credit := 0, carry := 0 }
  if (linkPackets h).isEmpty then s2 else reroute (linkPackets h) s2

/-- A new epoch begins at an entry to PROVING (R172). -/
def newEpoch (l : Link) (s : State) : State :=
  s.onSched l fun h => { h with epoch := h.epoch + 1, nextSeq := 0, lastAck := 65535, credit := 0, carry := 0 }

end Sys2Proof.Machine
end

