-- ==== Sys2Proof/Machine/SoundStream.lean ====
section
/-! DEFINITION. The Sound Delay and Packer (chapter 6): target delay, the delay line and its slew, the sound reserve, the
packing of SOUND packets, and SOUND-STREAM-SET. -/

namespace Sys2Proof.Machine

/-! ### Target delay (R109, R110) -/

/-- The programme through which a stream's link is read (R109). -/
def linkedProg (s : State) (t : SoundStream) : Option Prog := t.linked.map (fold s)

/-- The delay that a stream should have (R110). -/
def targetDelay (s : State) (t : SoundStream) : Nat :=
  let raw : Int := match linkedProg s t with
    | some p =>
      let c := (prog s p).cfg.latency
      (c * s.tbu.base + c * s.tbu.num / s.tbu.den : Nat) + t.trim
    | none => t.fixedDelay + t.trim
  (clampInt 0 Config.maxDelay raw).toNat

/-- The target delay of stream `i` is computed again (R110). -/
def retarget (i : Fin 4) (s : State) : State := s.onStream i fun t => { t with target := targetDelay s t }

/-- The target of every stream that satisfies `which` is computed again. -/
def retargetWhere (which : SoundStream → Bool) (s : State) : State :=
  (four.filter fun i => which (s.sdp.get i)).foldl (fun s i => retarget i s) s

/-- The streams whose link is read as programme `p`. -/
def readsProg (s : State) (p : Prog) (t : SoundStream) : Bool := linkedProg s t == some p

/-! ### The sound reserve (R114) -/

/-- The load of one enabled stream in kbit/s. -/
def streamRate (t : SoundStream) : Nat := if t.enable then 96 * t.width.bits + 96 else 0

def soundReserve (s : State) : Nat := (s.sdp.vals.map streamRate).sum

/-! ### The delay line (R111, R112) -/

/-- A line without the zero samples at its old end. -/
def trimLine : List Sample → List Sample
  | [] => []
  | x :: xs => match trimLine xs with
    | [] => if x = 0 then [] else [x]
    | y :: ys => x :: y :: ys

/-- A block is written into a line: the 16 samples of the current block and the 96,000 before it are kept. -/
def writeLine (line : List Sample) (b : SoundBlock) : List Sample :=
  trimLine ((b.vals.reverse ++ line).take (Config.maxDelay + 16))

/-- The sample written `d` samples before input sample `j` of the current block. -/
def readLine (line : List Sample) (j d : Nat) : Sample := line.getD (15 - j + d) 0

/-- The current delay after one slew step toward the target (R112). -/
def slewed (t : SoundStream) : Nat :=
  if t.current < t.target then t.current + 1 else if t.target < t.current then t.current - 1 else t.current

/-- The output block read from a written line: samples 0 to 14 at delay `d`, sample 15 at `d'` (R111, R112). -/
def outBlock (line : List Sample) (d d' : Nat) : SoundBlock :=
  Table.ofFn fun j => readLine line j.val (if j.val = 15 then d' else d)

/-! ### Packing (R115 to R118) -/

/-- The size of a SOUND packet (R116). -/
def soundSize : Width → Nat
  | .bits16 => 272 | .bits24 => 400

/-- The buffer delay in milliseconds that fixes a stream's deadlines (R116). -/
def deadlineMs (s : State) (t : SoundStream) : Nat :=
  match linkedProg s t with
  | some p => (prog s p).cfg.delay
  | none => t.allowance

/-- The SOUND packet that stream `i` opens at the block event carrying `m` (R116). -/
def openPacket (s : State) (i : Fin 4) (m : BlockNo) (t : SoundStream) (blocks : List Nat) (payload : List Byte) : Packet :=
  let stamp : Tick := s.tbu.tick - 16 - BitVec.ofNat 32 t.current
  { kind := .sound, owner := some .sound, subject := some i.val, number := BitVec.ofNat 32 m.toNat, stamp := stamp,
    deadline := some (tickPlus stamp (deadlineMs s t * Config.ticksPerMs)), size := soundSize t.width, blocks := blocks,
    payload := payload }

/-- The bus blocks `left` and `right` of the block event carrying `m` arrive at stream `i` (R111, R112, R116 to R118). -/
def streamArrival (i : Fin 4) (m : BlockNo) (left right : SoundBlock) (s : State) : State :=
  let t := s.sdp.get i
  let d' := slewed t
  let lineL := writeLine t.lineL left
  let lineR := writeLine t.lineR right
  let outL := outBlock lineL t.current d'
  let outR := outBlock lineR t.current d'
  let s1 := s.onStream i fun t => { t with lineL := lineL, lineR := lineR, current := d' }
  match t.assembly with
  | none =>
    match request .sound 2 s1 with
    | (some bs, s2) => s2.onStream i fun u =>
        { u with assembly := some ⟨1, t.width, some (openPacket s i m t bs (packBlock t.width outL outR))⟩ }
    | (none, s2) => s2.onStream i fun u =>
        { u with assembly := some ⟨1, t.width, none⟩, refused := satInc u.refused }
  | some a =>
    let packet := a.packet.map fun p => { p with payload := p.payload ++ packBlock a.width outL outR }
    if a.packed + 1 < 4 then s1.onStream i fun u => { u with assembly := some ⟨a.packed + 1, a.width, packet⟩ }
    else match packet with
      | none => s1.onStream i fun u => { u with assembly := none }
      | some p =>
        appendPackets .sound [p] (s1.onStream i fun u => { u with assembly := none, packets := satInc u.packets })

/-- The bus blocks of a block event arrive at every enabled stream. -/
def streamsArrival (m : BlockNo) (blocks : Table 8 SoundBlock) (s : State) : State :=
  four.foldl (fun s i =>
    let t := s.sdp.get i
    if t.enable then streamArrival i m (blocks.get t.left) (blocks.get t.right) s else s) s

/-! ### SOUND-STREAM-SET (R108, R113) -/

/-- The record of a stream, as R108 and R119 list it. The blocks-packed figure of an assembly that the pool refused is the
number of blocks it has discarded so far (DEDUCED, log entry 63). -/
def streamResults (s : State) (t : SoundStream) : List (Option (List Byte)) :=
  [some (beBytes 1 (onOff t.enable)), some (beBytes 1 t.left.val), some (beBytes 1 t.right.val),
    some (beBytes 1 t.width.bits), t.linked.map fun p => beBytes 1 p.val, some (beBytes 4 t.fixedDelay),
    some (beBytes 2 (BitVec.ofInt 16 t.trim).toNat), some (beBytes 2 t.allowance),
    (linkedProg s t).map fun p => beBytes 1 p.val, some (beBytes 4 t.target), some (beBytes 4 t.current),
    some (beBytes 1 (onOff t.assembly.isSome)), t.assembly.map fun a => beBytes 1 a.packed,
    t.assembly.map fun a => beBytes 1 (onOff a.packet.isNone), some (beBytes 2 t.packets), some (beBytes 2 t.refused)]

/-- An enabled stream is turned off: its assembly's blocks are freed (R113). -/
def disableStream (i : Fin 4) (s : State) : State :=
  let blocks := ((((s.sdp.get i).assembly).bind (·.packet)).map (·.blocks)).getD []
  releaseBlocks .sound blocks (s.onStream i fun t => { t with enable := false, assembly := none, lineL := [], lineR := [] })

/-- A disabled stream is turned on (R113). -/
def enableStream (i : Fin 4) (s : State) : State :=
  s.onStream i fun t =>
    { t with enable := true, current := t.target, lineL := [], lineR := [], assembly := none }

/-- The fields of SOUND-STREAM-SET that are choices or numbers of objects, judged; none where one is REFUSED-RANGE. -/
def streamChoices (f : StreamFields) (t : SoundStream) :
    Option (Bool × Fin 8 × Fin 8 × Width × Option Prog) :=
  (onOffOfCode (f.enable.getD (onOff t.enable))).bind fun enable =>
    (finOf 8 (f.left.getD t.left.val)).bind fun left =>
      (finOf 8 (f.right.getD t.right.val)).bind fun right =>
        (Width.ofBits (f.width.getD t.width.bits)).bind fun width =>
          (match f.linked with
            | none => some t.linked
            | some none => some none
            | some (some p) => (finOf 4 p).map some).map fun linked => (enable, left, right, width, linked)

/-- SOUND-STREAM-SET (R108). -/
def soundStreamSet (f : StreamFields) (s : State) : State × Reply :=
  match objectOf 4 f.stream with
  | none => (s, { status := .refusedRange })
  | some i =>
    let t := s.sdp.get i
    if f = { stream := f.stream } then (s, { status := .done, results := streamResults s t })
    else match streamChoices f t with
      | none => (s, { status := .refusedRange })
      | some (enable, left, right, width, linked) =>
        let fixedDelay := f.fixedDelay.map fun v => clampNat 0 96000 v
        let trim := f.trim.map fun v => clampInt (-4800) 4800 v
        let allowance := f.allowance.map fun v => clampNat 100 2000 v
        let clamped := fixedDelay != f.fixedDelay || trim != f.trim || allowance != f.allowance
        let s1 := s.onStream i fun t =>
          { t with
            left := left, right := right, width := width, linked := linked
            fixedDelay := fixedDelay.getD t.fixedDelay
            trim := trim.getD t.trim
            allowance := allowance.getD t.allowance }
        let s2 := if f.linked.isSome || f.fixedDelay.isSome || f.trim.isSome then retarget i s1 else s1
        let s3 := if enable && !t.enable then enableStream i s2
          else if !enable && t.enable then disableStream i s2 else s2
        (s3, { status := doneIf clamped })

end Sys2Proof.Machine
end

