-- ==== Sys2Proof/Machine/Rate.lean ====
section
/-! DEFINITION. The Rate Allocator (chapter 4): the allocation of a period start, the buffer model, and RATE-SET. -/

namespace Sys2Proof.Machine

def rateOf (s : State) (p : Prog) : RateProg := s.ral.progs.get p

/-- The programme takes part in an allocation (R63). -/
def takesPart (s : State) (p : Prog) : Bool := (prog s p).state == .starting || (prog s p).state == .running

/-- The usable capacity U (R65). -/
def usableCapacity (s : State) : Nat := (s.lsu.vals.map workingCapacity).sum

/-- The video pool V (R66). -/
def videoPool (usable reserve headroom : Nat) : Nat :=
  if reserve < usable then (usable - reserve) * (100 - headroom) / 100 else 0

/-- The programme is on-air or a camera of a HOT clip, after folding (R70). -/
def isBoosted (s : State) (p : Prog) : Bool := (foldSet s s.sri.onAir).get p || (foldSet s (hotCameras s)).get p

/-- The effective weight (R70). -/
def effectiveWeight (s : State) (p : Prog) : Nat :=
  let r := (rateOf s p).active
  if isBoosted s p then r.weight * r.boost else r.weight

/-- Every programme's pending record is copied to its active record, whatever the programme's state (R68). The odd member of
a formed pair is no exception, though R69 leaves its active record unused while it is PAIRED (DEDUCED, log entry 59). -/
def copyRecords (s : State) : State :=
  s.onRal fun a => { a with progs := a.progs.map fun r => { r with active := r.pending } }

/-- The programmes that take part, in ascending number. -/
def participants (s : State) : List Prog := four.filter (takesPart s)

/-- The figures of an allocation, over copied records (R65, R66, R70, R72). -/
def allocFigures (s : State) : AllocFigures :=
  let ps := participants s
  { usable := usableCapacity s
    soundReserve := soundReserve s
    labelReserve := s.ral.labelReserve
    videoPool := videoPool (usableCapacity s) (soundReserve s + s.ral.labelReserve) s.ral.headroom
    weightSum := (ps.map (effectiveWeight s)).sum
    minSum := (ps.map fun p => (rateOf s p).active.minRate).sum }

/-- The rate of a share between a minimum and a maximum (R71). -/
def allocRate (videoPool weight weightSum : Nat) (r : RateRecord) : Nat :=
  clampNat r.minRate r.maxRate (videoPool * weight / weightSum)

/-- The reduction of both targets (R76). -/
def targetReduction (fullness limit : Nat) : Nat := if limit / 2 < fullness then (fullness - limit / 2) / 4 else 0

/-- A target: its base less the reduction, raised to a quarter of the budget (R76). -/
def targetOf (base budget reduction : Nat) : Nat :=
  if budget = 0 then 0 else max (budget / 4) (base - reduction)

/-- One programme's figures of an allocation (R71, R73 to R76, R80): rate `rate` for a period of `ticks`; a STARTING
programme is allocated from an empty buffer and keeps its fullness and carry (R74). -/
def allocate (rate ticks factor delay : Nat) (starting : Bool) (r : RateProg) : RateProg :=
  let sum := rate * ticks + (if starting then 0 else r.carry)
  let budget := sum / 48
  let fullness := (if starting then 0 else r.fullness) - budget
  let reduction := targetReduction fullness (rate * delay)
  { r with
    rate := rate
    prevRate := rate
    budget := budget
    carry := if starting then r.carry else sum % 48
    fullness := if starting then r.fullness else fullness
    limit := rate * delay
    anchorTarget := targetOf (budget * factor) budget reduction
    followTarget := targetOf budget budget reduction }

/-- The method that a rate decides against the decided method, if it decides one (R79). -/
def methodDecision (rate : Nat) (a : RateRecord) (decided : Method) : Option Method :=
  match decided with
  | .full => if rate < a.rDown then some .half else none
  | .half => if a.rUp < rate then some .full else none

/-- A method decision is given to the engine, owes a refresh and raises METHOD-CHANGED (R48, R79). -/
def decideMethod (p : Prog) (m : Method) (s : State) : State :=
  let s1 := s.onRate p fun r => { r with decided := m }
  let s2 := s1.onLoop p fun c => { c with pending := if c.method = m then none else some m }
  raiseFlag .methodChanged (refreshCause p s2)

/-- The rate has collapsed (R80). -/
def collapsed (rate prev percent : Nat) : Bool := decide (0 < percent) && decide (rate * 100 < prev * (100 - percent))

/-- The allocation of one programme that takes part (R71 to R80). -/
def allocateProg (figures : AllocFigures) (ticks : Nat) (p : Prog) (s : State) : State :=
  let before := rateOf s p
  let starting := (prog s p).state == .starting
  let rate := allocRate figures.videoPool (effectiveWeight s p) figures.weightSum before.active
  let s1 := s.onRate p fun r =>
    { allocate rate ticks (prog s p).cfg.factor (prog s p).cfg.delay starting r with boosted := isBoosted s p }
  let s2 := match methodDecision rate before.active before.decided with
    | some m => decideMethod p m s1
    | none => s1
  if !starting && collapsed rate before.prevRate before.active.collapse then
    s2.onLoop p fun c => { c with collapse := some before.active.step }
  else s2

/-- The allocation of a period start whose period is `ticks` long (R63). A programme that takes no part keeps its boosted mark
with its other figures, though R64 does not list that mark (DEDUCED, log entry 60). -/
def allocation (ticks : Nat) (s : State) : State :=
  let s1 := copyRecords s
  let figures := allocFigures s1
  let s2 := s1.onRal fun a =>
    { a with
      figures := figures
      progs := Table.ofFn fun p => { a.progs.get p with tookPart := takesPart s1 p } }
  let s3 := if figures.videoPool < figures.minSum then raiseFlag .poolShort s2 else s2
  (participants s1).foldl (fun s p => allocateProg figures ticks p s) s3

/-- A programme becomes RUNNING (R26, R74). -/
def rateRunning (p : Prog) (s : State) : State :=
  s.onRate p fun r => { r with fullness := 0, carry := 0, prevRate := r.rate }

/-- A completed picture of `bits` produced bits is reported (R78). -/
def pictureReported (p : Prog) (bits : Nat) (s : State) : State :=
  let s1 := s.onRate p fun r => { r with fullness := r.fullness + bits }
  if (rateOf s1 p).limit < (rateOf s1 p).fullness then
    raiseFlag .bufferOverflow (s1.onProg p fun r => { r with skipNext := true })
  else s1

/-! ### RATE-SET (R67, R68) -/

/-- A collapse percent of 1 to 9 is raised to 10, one above 90 lowered to 90 (R67). -/
def clampCollapse (v : Nat) : Nat := if v = 0 then 0 else clampNat 10 90 v

/-- The record that the rate fields of a RATE-SET form, and whether a value was clamped, raised or lowered (R67). -/
def formRate (f : RateFields) (r : RateRecord) : RateRecord × Bool :=
  let formed : RateRecord :=
    { weight := (f.weight.map (clampNat 1 255)).getD r.weight
      boost := (f.boost.map (clampNat 1 4)).getD r.boost
      minRate := (f.minRate.map (clampNat 0 100000)).getD r.minRate
      maxRate := (f.maxRate.map (clampNat 0 100000)).getD r.maxRate
      rDown := (f.rDown.map (clampNat 0 100000)).getD r.rDown
      rUp := (f.rUp.map (clampNat 0 100000)).getD r.rUp
      collapse := (f.collapse.map clampCollapse).getD r.collapse
      step := (f.step.map (clampNat 1 16)).getD r.step }
  let changed (v : Option Nat) (w : Nat) : Bool := (v.map (· != w)).getD false
  let clamped := changed f.weight formed.weight || changed f.boost formed.boost || changed f.minRate formed.minRate ||
    changed f.maxRate formed.maxRate || changed f.rDown formed.rDown || changed f.rUp formed.rUp ||
    changed f.collapse formed.collapse || changed f.step formed.step
  ({ formed with maxRate := max formed.maxRate formed.minRate },
    clamped || decide (formed.maxRate < formed.minRate))

def hasRateField (f : RateFields) : Bool :=
  f.weight.isSome || f.boost.isSome || f.minRate.isSome || f.maxRate.isSome || f.rDown.isSome || f.rUp.isSome ||
  f.collapse.isSome || f.step.isSome

/-- A pool field of RATE-SET is clamped. -/
def poolClamped (f : RateFields) : Bool :=
  (f.headroom.map fun v => decide (50 < v)).getD false || (f.labelReserve.map fun v => decide (2000 < v)).getD false

/-- The pool fields of RATE-SET are stored (R67, R68). -/
def setPoolFields (f : RateFields) (s : State) : State :=
  s.onRal fun a =>
    { a with
      headroom := (f.headroom.map (min 50)).getD a.headroom
      labelReserve := (f.labelReserve.map (min 2000)).getD a.labelReserve }

/-- A rate record's eight figures end to end. -/
def rateRecordBytes (r : RateRecord) : List Byte :=
  beBytes 1 r.weight ++ beBytes 1 r.boost ++ beBytes 4 r.minRate ++ beBytes 4 r.maxRate ++ beBytes 4 r.rDown ++
  beBytes 4 r.rUp ++ beBytes 1 r.collapse ++ beBytes 1 r.step

/-- RATE-SET (R67, R68). -/
def rateSet (f : RateFields) (s : State) : State × Reply :=
  match f.prog with
  | none =>
    if hasRateField f then (s, { status := .refusedRange })
    else (setPoolFields f s, { status := doneIf (poolClamped f) })
  | some n =>
    match finOf 4 n with
    | none => (s, { status := .refusedRange })
    | some p =>
      if isPairedOdd s p then (s, { status := .refusedState })
      else if f = { prog := some n } then
        (s, { status := .done, results := [some (rateRecordBytes (rateOf s p).pending)] })
      else
        let formed := formRate f (rateOf s p).pending
        if formed.1.rUp ≤ formed.1.rDown then (s, { status := .refusedRange })
        else
          let atOnce := (prog s p).state == .idle || (prog s p).state == .ready
          let s1 := s.onRate p fun r =>
            { r with pending := formed.1, active := if atOnce then formed.1 else r.active }
          (setPoolFields f s1, { status := doneIf (formed.2 || poolClamped f) })

end Sys2Proof.Machine
end

