-- ==== Sys2Proof/Machine/Engine.lean ====
section
/-! DEFINITION. The Coding Engine (chapter 3) with the camera ports' takes and the input status (R18, R19, R21), which it
works on at each code start: picture types, the quantiser loop, the band limit, slices, fragments, overruns and discards. -/

namespace Sys2Proof.Machine

def loopOf (s : State) (p : Prog) : CodingLoop := s.cde.loops.get p
def entryOf (s : State) (p : Prog) : Option Entry := s.cde.entries.get p
def formatOf (s : State) (p : Prog) : Format := s.pgc.formats.get (prog s p).cfg.format

/-! ### Completion of a picture and of a stop (R29, R58) -/

/-- A stop, or a start cut short, ends: the programme is READY and the notice owed to its command is sent (R27, R29, R30). -/
def endStop (p : Prog) (mode : StopMode) (pic : Pic) (s : State) : State :=
  let cmd := (prog s p).openStop
  let s1 := s.onProg p fun r => { r with state := .ready, openStop := none }
  match cmd with
  | some _ => queueNotice (.programme p .ready pic (some mode)) cmd s1
  | none => s1

/-- A picture completes: its entry is removed, the carried quantiser set, and the completion reported (R51, R58). -/
def completePicture (p : Prog) (e : Entry) (s : State) : State :=
  let s1 := (s.setEntry p none).onLoop p fun c => { c with carried := e.loopQ }
  let s2 := pictureReported p e.produced s1
  if (prog s2 p).state = .stopping then endStop p .finish e.pic s2 else s2

/-! ### Slices and packets (R46, R54, R56) -/

/-- A PICTURE packet of programme `p` (R56, R151). -/
def picturePacket (s : State) (p : Prog) (pic : Pic) (tick : Tick) (band index count : Nat) (blocks : List Nat)
    (payload : List Byte) : Packet :=
  { kind := .picture, owner := some (.prog p), subject := some p.val, number := pic, band := band, fragIndex := index,
    fragCount := count, stamp := tick,
    deadline := some (tickPlus tick ((prog s p).cfg.delay * Config.ticksPerMs)),
    size := Config.packetHeaderBytes + payload.length, blocks := blocks, payload := payload }

/-- A slice of a header alone is requested and queued; a refusal loses it and owes a refresh (R46, R53, R57). -/
def emitHeader (p : Prog) (pic : Pic) (tick : Tick) (band : Nat) (header : List Byte) (s : State) : State :=
  match request (.prog p) 1 s with
  | (some bs, s1) => appendPackets .picture [picturePacket s p pic tick band 1 1 bs header] s1
  | (none, s1) => refreshCause p s1

/-- A programme's group counter gains one, up to 255 (R45). -/
def countGroup (p : Prog) (s : State) : State := s.onLoop p fun c => { c with groupCount := min 255 (c.groupCount + 1) }

/-- A skip picture is emitted whole and reported as 0 bits (R45, R46). -/
def emitSkip (p : Prog) (c : CodeStart) (s : State) : State :=
  let header := sliceHeader 0 (formatOf s p).bands 3 (loopOf s p).method 0 3 Config.sliceHeaderBytes
  pictureReported p 0 (emitHeader p c.pic c.tick 0 header (countGroup p s))

/-! ### Band service (R41, R48) -/

/-- The tiles at which a band is coded (R48). -/
def bandTiles (width : Nat) : Method → Nat
  | .full => width
  | .half => ceilDiv width 2

/-- The programme whose band is started next: the first after the last served, in cyclic order, whose picture has bands
not yet started (R41). -/
def nextServed (c : Engine) : Option Prog :=
  [c.lastServed + 1, c.lastServed + 2, c.lastServed + 3, c.lastServed].find? fun p =>
    ((c.entries.get p).map fun e => decide (e.started < e.bands)).getD false

/-- With no band in coding, the next band is started (R41). -/
def startBand (s : State) : State :=
  if s.cde.band.isSome then s
  else match nextServed s.cde with
    | none => s
    | some p =>
      match entryOf s p with
      | none => s
      | some e =>
        let b : Band :=
          { prog := p, pic := e.pic, band := e.started + 1, quant := e.codingQ,
            tiles := bandTiles (formatOf s p).width e.method }
        ((s.setEntry p (some { e with started := e.started + 1 })).setBand (some b)).onCde fun c =>
          { c with lastServed := p }

/-! ### Fragments (R55, R57) -/

/-- The band in coding is lost: the blocks granted for its fragments are freed, in fragment order, and a refresh is owed (R55,
R57; the order is the model's, DESIGN CHOICE, log entry 57). -/
def loseBand (b : Band) (s : State) : State :=
  let s1 := b.frags.foldl (fun s bs => releaseBlocks (.prog b.prog) bs s) s
  refreshCause b.prog (s1.setBand (some { b with frags := [], lost := true }))

/-- A fragment of the band in coding is closed and its `blocks` blocks are requested; a seventh loses the band (R55). -/
def closeFragment (blocks : Nat) (s : State) : State :=
  match s.cde.band with
  | none => s
  | some b =>
    if b.discard || b.lost then s
    else if Config.maxFragments ≤ b.frags.length then loseBand b s
    else match request (.prog b.prog) blocks s with
      | (some bs, s1) => s1.setBand (some { b with frags := b.frags ++ [bs] })
      | (none, s1) => loseBand b s1

/-! ### The quantiser loop (R50) -/

/-- How far the loop quantiser moves for produced bits `S`, target `t` and band `i` of `n` (R50). -/
def loopMove (produced target i n : Nat) : Int :=
  let u : Int := (max 1 (target / (4 * n)) : Nat)
  let d : Int := (produced : Int) - (target * i / n : Nat)
  if 2 * u < d then 2 else if u < d then 1 else if -u ≤ d then 0 else if -(2 * u) ≤ d then -1 else -2

/-- The loop quantiser after the step of a band (R50). -/
def loopQuant (q : Nat) (move : Int) (qMin qMax : Nat) : Nat := (clampInt qMin qMax (q + move)).toNat

/-- The entry after a band that produced `bits`: bits and bands counted, and the loop step made unless the limit has
struck (R42, R50). -/
def stepEntry (e : Entry) (bits qMin qMax : Nat) : Entry :=
  let e1 := { e with produced := e.produced + bits, done := e.done + 1 }
  if e1.struck then e1
  else
    let q := loopQuant e1.loopQ (loopMove e1.produced e1.target e1.done e1.bands) qMin qMax
    { e1 with loopQ := q, codingQ := q }

/-- The band limit strikes (R52). -/
def limitStrikes (e : Entry) (action : LimitAction) : Bool :=
  decide (e.done < e.bands) && !e.struck && decide (e.limit < e.produced) && action != .off

/-- The fragments of a queued slice, each with its granted blocks (R56). -/
def slicePackets (s : State) (p : Prog) (e : Entry) (band : Nat) (frags : List (List Nat)) (pieces : List (List Byte)) :
    List Packet :=
  (frags.zip pieces).mapIdx fun i f => picturePacket s p e.pic e.tick band (i + 1) pieces.length f.1 f.2

/-- SHED: the remaining bands are emitted as skip-band slices and the picture ends (R53). -/
def shedPicture (p : Prog) (e : Entry) (s : State) : State :=
  let s1 := ((List.range e.bands).filter fun k => e.done ≤ k).foldl (fun s k =>
    emitHeader p e.pic e.tick (k + 1)
      (sliceHeader (k + 1) e.bands e.type.code e.method 0 2 Config.sliceHeaderBytes) s) s
  let s2 := completePicture p e s1
  if e.type = .anchor then refreshCause p s2 else s2

/-- A band whose discard mark is set completes: its blocks are freed, in fragment order, and nothing is produced or reported
(R59; the order is the model's, DESIGN CHOICE, log entry 57). -/
def discardBand (b : Band) (s : State) : State :=
  startBand ((b.frags.foldl (fun s bs => releaseBlocks (.prog b.prog) bs s) s).setBand none)

/-- A band of the picture `e` completes with its coded output (R42, R50 to R58). The last fragments are closed first,
because a refusal decides what the band adds to S (R57). -/
def completeBand (b : Band) (e : Entry) (coded : List Byte) (s : State) : State :=
  let p := b.prog
  let cfg := (prog s p).cfg
  let length := Config.sliceHeaderBytes + coded.length
  let slice := sliceHeader b.band e.bands e.type.code e.method b.quant 1 length ++ coded
  let pieces := chunks Config.fragmentBytes (ceilDiv length Config.fragmentBytes) slice
  let s1 := (pieces.drop b.frags.length).foldl (fun s f =>
    closeFragment (blocksFor (Config.packetHeaderBytes + f.length)) s) s
  let frags := ((s1.cde.band.map fun b => b.frags)).getD []
  let lost := (s1.cde.band.map fun b => b.lost).getD true
  let e1 := stepEntry e (if lost then 0 else 8 * coded.length) cfg.qMin cfg.qMax
  let strikes := limitStrikes e1 cfg.action
  let e2 := if strikes then
      { e1 with struck := true, codingQ := if cfg.action = .coarsen then cfg.qMax else e1.codingQ } else e1
  let s2 := (s1.setEntry p (some e2)).setBand none
  let s3 := if strikes then raiseFlag .bandLimited s2 else s2
  let s4 := if lost then s3 else appendPackets .picture (slicePackets s3 p e2 b.band frags pieces) s3
  let s5 := if strikes && cfg.action == .shed then shedPicture p e2 s4
    else if e2.bands ≤ e2.done then completePicture p e2 s4 else s4
  startBand s5

/-- The end of a band's coding (R42, R59). Coded output shorter than the fragments already closed cannot come. -/
def bandEnds (coded : List Byte) (s : State) : State :=
  match s.cde.band with
  | none => s
  | some b =>
    if b.discard then discardBand b s
    else match entryOf s b.prog with
      | none => discardBand b s
      | some e =>
        if !b.lost && decide (Config.sliceHeaderBytes + coded.length < Config.fragmentBytes * b.frags.length) then s
        else completeBand b e coded s

/-! ### Dropping a picture in progress (R27, R43) -/

/-- The band in coding is marked for discard if it is of programme `p` (R27, R43). -/
def markDiscard (p : Prog) (s : State) : State :=
  s.onCde fun c => { c with band := c.band.map fun b => if b.prog = p then { b with discard := true } else b }

/-- A picture still in progress at its programme's code start is ended as an overrun (R43). -/
def overrun (p : Prog) (s : State) : State :=
  match entryOf s p with
  | none => s
  | some e => completePicture p e (raiseFlag .engineOverrun (refreshCause p (markDiscard p (s.setEntry p none))))

/-- A CUT drops a programme's picture in progress, unreported; the carried quantiser keeps the loop's last step (R27, R51). -/
def dropPicture (p : Prog) (s : State) : State :=
  match entryOf s p with
  | none => s
  | some e => markDiscard p ((s.setEntry p none).onLoop p fun c => { c with carried := e.loopQ })

/-! ### The take (R18, R21) and the input status (R19) -/

/-- The newest untaken picture of a store is marked taken and older untaken ones are removed: the store, the number
removed, and whether one was taken. The store is oldest first. -/
def takeNewest (store : List StoredPicture) : List StoredPicture × Nat × Bool :=
  store.foldr (fun v acc =>
    if v.taken then (v :: acc.1, acc.2)
    else if acc.2.2 then (acc.1, acc.2.1 + 1, true)
    else ({ v with taken := true } :: acc.1, acc.2.1, true)) ([], 0, false)

/-- The ports that a programme takes from (R21). -/
def portsOf (s : State) (p : Prog) : List Prog := if (prog s p).pair then [p, oddOf p] else [p]

def offers (s : State) (p : Prog) : Bool := (s.ports.get p).store.any fun v => !v.taken

/-- A port's picture is taken; a removed older picture is counted when the programme was RUNNING before (R18). -/
def takeFrom (counts : Bool) (p : Prog) (s : State) : State :=
  let t := takeNewest (s.ports.get p).store
  let s1 := s.onPort p fun q => { q with store := t.1 }
  if counts && decide (0 < t.2.1) then
    raiseFlag .pictureSkipped (s1.onPort p fun q => { q with dropped := satInc q.dropped })
  else s1

/-- The take of a programme at a code start: whether a picture was taken (R18, R21). -/
def takePicture (p : Prog) (wasRunning : Bool) (s : State) : Bool × State :=
  if (portsOf s p).all (offers s) then (true, (portsOf s p).foldl (fun s q => takeFrom wasRunning q s) s)
  else (false, s)

/-- The input status after a code start at which the programme takes (R19). -/
def judgeInput (p : Prog) (taken : Bool) (s : State) : State :=
  let r := prog s p
  if taken then s.onProg p fun r => { r with input := .present, gapCount := 0 }
  else
    let gaps := min Config.lostGap (r.gapCount + 1)
    if r.input = .lost then s.onProg p fun r => { r with gapCount := gaps }
    else if gaps < Config.lostGap then s.onProg p fun r => { r with input := .gap, gapCount := gaps }
    else raiseFlag .inputLost (s.onProg p fun r => { r with input := .lost, gapCount := gaps })

/-! ### The picture type and the start of a picture (R44 to R49) -/

/-- The starting quantiser of a picture (R47). -/
def startQuant (c : CodingLoop) (g : ProgConfig) (type : PicType) : Nat :=
  min g.qMax (c.carried + (if type = .anchor then g.offset else 0) + c.collapse.getD 0)

/-- The engine's per-programme state after a picture of a type has begun (R45, R47, R48, R49). -/
def loopBegins (c : CodingLoop) (type : PicType) (pic : Pic) : CodingLoop :=
  match type with
  | .anchor =>
    { c with
      groupCount := 1
      method := c.pending.getD c.method
      pending := none
      collapse := none
      history := (pic :: c.history).take Config.historySize }
  | .follow => { c with groupCount := min 255 (c.groupCount + 1), collapse := none }

/-- A coded picture begins (R40, R44, R49). -/
def beginPicture (p : Prog) (type : PicType) (target : Nat) (c : CodeStart) (s : State) : State :=
  let cfg := (prog s p).cfg
  let q := startQuant (loopOf s p) cfg type
  let after := loopBegins (loopOf s p) type c.pic
  let e : Entry :=
    { pic := c.pic, type := type, method := after.method, bands := (formatOf s p).bands, target := target,
      limit := target * cfg.bandLimit / 100, loopQ := q, codingQ := q, tick := c.tick }
  let s1 := (s.setEntry p (some e)).onLoop p fun _ => after
  match type with
  | .anchor => anchorStarted p c.pic (s1.onProg p fun r => { r with refreshOwed := false })
  | .follow => s1

/-- The decision of a programme's picture type (R44). -/
def decidePicture (p : Prog) (taken : Bool) (c : CodeStart) (s : State) : State :=
  let r := prog s p
  if r.skipNext then emitSkip p c (s.onProg p fun r => { r with skipNext := false })
  else if !taken then emitSkip p c s
  else
    let type : PicType := if r.refreshOwed || decide (r.cfg.group ≤ (loopOf s p).groupCount) then .anchor else .follow
    let target := match type with
      | .anchor => (rateOf s p).anchorTarget
      | .follow => (rateOf s p).followTarget
    if target = 0 then emitSkip p c s else beginPicture p type target c s

/-- A STARTING programme becomes RUNNING (R26, R47). -/
def becomeRunning (p : Prog) (s : State) : State :=
  let s1 := rateRunning p (s.onProg p fun r => { r with state := .running })
  s1.onLoop p fun c => { c with carried := ((prog s p).cfg.qMin + (prog s p).cfg.qMax) / 2 }

/-- The programme becomes RUNNING at this code start (R26). -/
def runsNow (s : State) (p : Prog) (c : CodeStart) : Bool :=
  (prog s p).state == .starting && !(prog s p).awaiting && (prog s p).firstPic == some c.pic

/-- One programme's work at a code start, if it codes there (R18, R19, R26, R44). -/
def codeProgramme (c : CodeStart) (p : Prog) (s : State) : State :=
  let starts := runsNow s p c
  if starts || (prog s p).state == .running then
    let s1 := if starts then becomeRunning p s else s
    let t := takePicture p (!starts) s1
    let s2 := decidePicture p t.1 c (judgeInput p t.1 t.2)
    if starts then
      let cmd := (prog s2 p).openStop
      let s3 := s2.onProg p fun r => { r with openStop := none }
      match cmd with
      | some _ => queueNotice (.programme p .running c.pic none) cmd s3
      | none => s3
    else s2
  else s

/-- The hold of a FREEZING programme is acted upon (R30). -/
def freezeHold (c : CodeStart) (p : Prog) (s : State) : State :=
  let r := prog s p
  if r.state = .freezing then
    let s1 := if 0 < r.remHold then emitSkip p c (s.onProg p fun r => { r with remHold := r.remHold - 1 }) else s
    if r.remHold ≤ 1 then endStop p .freeze c.pic s1 else s1
  else s

/-- A code start: overruns, holds, takes and decisions, then a band if the engine is idle (R8, R41, R43, R44). -/
def takeCodeStart (c : CodeStart) (s : State) : State :=
  let s1 := four.foldl (fun s p => overrun p s) s
  let s2 := four.foldl (fun s p => freezeHold c p s) s1
  startBand (four.foldl (fun s p => codeProgramme c p s) s2)

end Sys2Proof.Machine
end

