-- ==== Sys2Proof/Machine/Programme.lean ====
section
/-! DEFINITION. The camera ports and the Programme Controller (chapter 2): picture arrivals, the programme state machine,
cascade pairs, refresh requests, and FORMAT-SET, PROGRAMME-SET, PROGRAMME-START, PROGRAMME-STOP and REFRESH. -/

namespace Sys2Proof.Machine

/-! ### Camera ports (R17, R20, R21) -/

/-- The start of a picture: it is in delivery, in place of any earlier one (R17). -/
def pictureStarts (p : Prog) (s : State) : State := s.onPort p fun q => { q with delivering := true }

/-- The end of a picture as broken off: the picture in delivery is discarded (R17). -/
def pictureBreaks (p : Prog) (s : State) : State := s.onPort p fun q => { q with delivering := false }

/-- The store that a new picture finds: the older of two is evicted; and whether an untaken picture was (R17). -/
def evictOlder (store : List StoredPicture) : List StoredPicture × Bool :=
  match store with
  | v :: rest => if 2 ≤ store.length then (rest, !v.taken) else (store, false)
  | [] => ([], false)

/-- A stored picture returns a LOST input to PRESENT and owes a refresh (R20, R21). -/
def returnInput (p : Prog) (s : State) : State :=
  let q := fold s p
  if (prog s q).input = .lost then
    refreshCause q (s.onProg q fun r => { r with input := .present, gapCount := 0 })
  else s

/-- The end of a picture as complete (R17, R20). -/
def pictureCompletes (p : Prog) (s : State) : State :=
  let left := evictOlder (s.ports.get p).store
  let owner := prog s (fold s p)
  let counts := left.2 && (owner.state == .running || owner.state == .stopping)
  let s1 := s.onPort p fun q =>
    { store := left.1 ++ [{ arrival := s.tbu.tick, taken := false }]
      delivering := false
      dropped := if counts then satInc q.dropped else q.dropped }
  let s2 := if counts then raiseFlag .pictureSkipped s1 else s1
  returnInput p s2

/-! ### The period start (R26) -/

/-- The first allocated picture of every STARTING programme that awaits an allocation is recorded (R26). -/
def firstAllocated (s : State) : State :=
  s.onPgc fun c => { c with progs := c.progs.map fun r =>
    if r.state = .starting ∧ r.awaiting then { r with awaiting := false, firstPic := some s.tbu.pic } else r }

/-! ### FORMAT-SET (R22) -/

/-- The programme is STARTING, RUNNING, STOPPING or FREEZING. -/
def ProgState.active (t : ProgState) : Bool := t == .starting || t == .running || t == .stopping || t == .freezing

/-- A format entry is that of an active programme (R22). -/
def formatInUse (s : State) (e : Fin 8) : Bool := four.any fun p => (prog s p).state.active && (prog s p).cfg.format == e

/-- FORMAT-SET (R22). -/
def formatSet (f : FormatFields) (s : State) : State × Reply :=
  match objectOf 8 f.entry with
  | none => (s, { status := .refusedRange })
  | some e =>
    if formatInUse s e then (s, { status := .refusedState })
    else
      (s.onPgc fun c => { c with formats := c.formats.modify e fun t =>
          { width := (f.width.map (clampNat 1 255)).getD t.width
            bands := (f.bands.map (clampNat 1 135)).getD t.bands } },
        { status := doneIf (clampedBy 1 255 f.width || clampedBy 1 135 f.bands) })

/-! ### PROGRAMME-SET (R23, R24, R32) -/

/-- The programme is IDLE or READY. -/
def ProgState.settable (t : ProgState) : Bool := t == .idle || t == .ready

/-- The choices that a PROGRAMME-SET carries, or none where one is forbidden or the pair field names an odd member (R23). -/
def programmeChoices (f : ProgFields) (p : Prog) (g : ProgConfig) (pair : Bool) : Option (Bool × LimitAction × Bool) :=
  (onOffOfCode (f.enable.getD (onOff g.enable))).bind fun enable =>
    (LimitAction.ofCode (f.action.getD g.action.code)).bind fun action =>
      if f.pair.isSome ∧ isOdd p then none
      else (onOffOfCode (f.pair.getD (onOff pair))).map fun formed => (enable, action, formed)

/-- A format entry number clamped to 0 to 7. -/
def clampFormat (v : Nat) : Fin 8 := ⟨min 7 v, by omega⟩

/-- The configuration that a PROGRAMME-SET forms (R23). -/
def formConfig (f : ProgFields) (enable : Bool) (action : LimitAction) (g : ProgConfig) : ProgConfig :=
  let qMin := (f.qMin.map (clampNat 1 63)).getD g.qMin
  { enable := enable
    format := (f.format.map clampFormat).getD g.format
    group := (f.group.map (clampNat 1 255)).getD g.group
    factor := (f.factor.map (clampNat 1 8)).getD g.factor
    qMin := qMin
    qMax := max qMin ((f.qMax.map (clampNat 1 63)).getD g.qMax)
    offset := (f.offset.map (clampNat 0 15)).getD g.offset
    bandLimit := (f.bandLimit.map (clampNat 100 400)).getD g.bandLimit
    action := action
    latency := (f.latency.map (clampNat 0 100)).getD g.latency
    delay := (f.delay.map (clampNat 100 2000)).getD g.delay
    hold := (f.hold.map (clampNat 0 250)).getD g.hold
    guard := (f.guard.map (clampNat 0 250)).getD g.guard }

/-- A value of a PROGRAMME-SET is clamped, or q_max is raised (R23). -/
def programmeClamped (f : ProgFields) (g : ProgConfig) : Bool :=
  clampedBy 0 7 f.format || clampedBy 1 255 f.group || clampedBy 1 8 f.factor || clampedBy 1 63 f.qMin ||
  clampedBy 1 63 f.qMax || clampedBy 0 15 f.offset || clampedBy 100 400 f.bandLimit || clampedBy 0 100 f.latency ||
  clampedBy 100 2000 f.delay || clampedBy 0 250 f.hold || clampedBy 0 250 f.guard ||
  decide ((f.qMax.map (clampNat 1 63)).getD g.qMax < (f.qMin.map (clampNat 1 63)).getD g.qMin)

/-- The state that follows an enable (R24). -/
def stateOfEnable (enable : Bool) : ProgState := if enable then .ready else .idle

/-- The stored fields of a taken PROGRAMME-SET and what they bring about at once (R24). -/
def storeConfig (p : Prog) (g : ProgConfig) (s : State) : State :=
  let old := (prog s p).cfg
  let s1 := s.onProg p fun r => { r with cfg := g, state := stateOfEnable g.enable }
  let s2 := if g.qMin != old.qMin || g.qMax != old.qMax then
      s1.onLoop p fun c => { c with carried := clampNat g.qMin g.qMax c.carried } else s1
  if g.latency != old.latency then retargetWhere (readsProg s2 p) s2 else s2

/-- A stream's stored link names a member of the pair of `p`. -/
def linksPair (p : Prog) (t : SoundStream) : Bool := t.linked == some (evenOf p) || t.linked == some (oddOf p)

/-- The pair of even member `p` is formed: the odd member is PAIRED and its queued packets are removed (R32, R159). -/
def formPair (p : Prog) (s : State) : State :=
  let s1 := (s.onProg p fun r => { r with pair := true }).onProg (oddOf p) fun r => { r with state := .paired }
  retargetWhere (linksPair p) (flushPictures (oddOf p) s1)

/-- The pair of even member `p` is dissolved: the odd member follows its own enable (R32). -/
def dissolvePair (p : Prog) (s : State) : State :=
  let s1 := (s.onProg p fun r => { r with pair := false }).onProg (oddOf p) fun r =>
    { r with state := stateOfEnable r.cfg.enable, input := .present, gapCount := 0, refreshOwed := false, skipNext := false }
  retargetWhere (linksPair p) s1

/-- PROGRAMME-SET (R23, R24, R32). -/
def programmeSet (f : ProgFields) (s : State) : State × Reply :=
  match objectOf 4 f.prog with
  | none => (s, { status := .refusedRange })
  | some p =>
    let r := prog s p
    let forms := !isOdd p && !r.pair && f.pair == some 1
    if !r.state.settable || (forms && !(prog s (oddOf p)).state.settable) then (s, { status := .refusedState })
    else match programmeChoices f p r.cfg r.pair with
      | none => (s, { status := .refusedRange })
      | some (enable, action, formed) =>
        let s1 := storeConfig p (formConfig f enable action r.cfg) s
        let s2 := if formed && !r.pair then formPair p s1 else if !formed && r.pair then dissolvePair p s1 else s1
        (s2, { status := doneIf (programmeClamped f r.cfg) })

/-! ### PROGRAMME-START (R25) -/

/-- The entry that a programme names is usable (section 2.2). -/
def Format.usable (t : Format) : Bool := t.width != 0 && t.bands != 0

/-- A READY programme becomes STARTING (R25). -/
def startProgramme (m : Hdr) (p : Prog) (s : State) : State :=
  refreshCause p (s.onProg p fun r =>
    { r with
      state := .starting
      openStop := some ⟨m.tag, srcOrigin m.src⟩
      skipNext := false
      input := .present
      gapCount := 0
      awaiting := true
      firstPic := none })

/-- PROGRAMME-START (R25). -/
def programmeStart (m : Hdr) (n : Option Nat) (s : State) : State × Reply :=
  match objectOf 4 n with
  | none => (s, { status := .refusedRange })
  | some p =>
    if (prog s p).state = .ready ∧ (formatOf s p).usable then (startProgramme m p s, { status := .accepted })
    else (s, { status := .refusedState })

/-! ### PROGRAMME-STOP (R27 to R31) -/

/-- The Clip Marker is told that a programme has left RUNNING, if it was RUNNING (R130). -/
def tellLeaves (was : ProgState) (p : Prog) (s : State) : State := if was = .running then leavesRunning p s else s

/-- A CUT of an active programme (R27, R28). A FLUSH frees its blocks before the label of a clip that the programme's leaving
RUNNING closes asks for its block (R130, R134); the manual gives no order of the two (DESIGN CHOICE, log entry 58). -/
def cutProgramme (p : Prog) (flush : Bool) (s : State) : State :=
  let was := (prog s p).state
  let s1 := dropPicture p s
  let s2 := if flush then flushPictures p s1 else s1
  tellLeaves was p (endStop p .cut s.tbu.pic s2)

/-- A programme in one of the states that no PROGRAMME-STOP may name (R31, R33). -/
def ProgState.unstoppable (t : ProgState) : Bool := !t.active

/-- PROGRAMME-STOP CUT (R27, R28, R31). -/
def programmeCut (n : Option Nat) (flush : Bool) (s : State) : State × Reply :=
  match objectOf 4 n with
  | none => (s, { status := .refusedRange })
  | some p =>
    if (prog s p).state.unstoppable then (s, { status := .refusedState })
    else (cutProgramme p flush s, { status := .done })

/-- A FINISH or FREEZE of programme `p` that is judged alike: refused in IDLE, READY, PAIRED, STOPPING and FREEZING, and
with FLUSH; taken as a CUT in STARTING; `run` in RUNNING (R28, R31). -/
def gentleStop (n : Option Nat) (flush : Bool) (run : Prog → State → State × Reply) (s : State) : State × Reply :=
  match objectOf 4 n with
  | none => (s, { status := .refusedRange })
  | some p =>
    match (prog s p).state with
    | .starting => if flush then (s, { status := .refusedRange }) else (cutProgramme p false s, { status := .done })
    | .running => if flush then (s, { status := .refusedRange }) else run p s
    | _ => (s, { status := .refusedState })

/-- A FINISH of a RUNNING programme (R29). -/
def finishRunning (m : Hdr) (p : Prog) (s : State) : State × Reply :=
  if (entryOf s p).isSome then
    (leavesRunning p (s.onProg p fun r =>
      { r with state := .stopping, openStop := some ⟨m.tag, srcOrigin m.src⟩ }), { status := .accepted })
  else (leavesRunning p (s.onProg p fun r => { r with state := .ready }), { status := .done })

/-- PROGRAMME-STOP FINISH (R29, R31). -/
def programmeFinish (m : Hdr) (n : Option Nat) (flush : Bool) (s : State) : State × Reply :=
  gentleStop n flush (finishRunning m) s

/-- A FREEZE of a RUNNING programme (R30). -/
def freezeRunning (m : Hdr) (p : Prog) (s : State) : State × Reply :=
  (leavesRunning p (s.onProg p fun r =>
    { r with state := .freezing, remHold := r.cfg.hold, openStop := some ⟨m.tag, srcOrigin m.src⟩ }),
    { status := .accepted })

/-- PROGRAMME-STOP FREEZE (R30, R31). -/
def programmeFreeze (m : Hdr) (n : Option Nat) (flush : Bool) (s : State) : State × Reply :=
  gentleStop n flush (freezeRunning m) s

/-- PROGRAMME-STOP by its mode: CUT 1, FINISH 2, FREEZE 3; another is judged after the object and the state. -/
def programmeStop (m : Hdr) (n : Option Nat) (mode : Nat) (flush : Bool) (s : State) : State × Reply :=
  match mode with
  | 1 => programmeCut n flush s
  | 2 => programmeFinish m n flush s
  | 3 => programmeFreeze m n flush s
  | _ =>
    match objectOf 4 n with
    | none => (s, { status := .refusedRange })
    | some p => (s, { status := if (prog s p).state.unstoppable then .refusedState else .refusedRange })

/-! ### REFRESH (R35, R36) -/

/-- The REFRESH command (R36). -/
def refreshCommand (n : Option Nat) (s : State) : State × Reply :=
  match objectOf 4 n with
  | none => (s, { status := .refusedRange })
  | some p => (refreshCause p s, { status := .done })

/-- An anchor has started within the refresh guard of programme `p` (R35). -/
def guarded (s : State) (p : Prog) : Bool :=
  match (loopOf s p).history with
  | [] => false
  | a :: _ => atOrBefore a s.tbu.pic && decide ((s.tbu.pic - a).toNat < (prog s p).cfg.guard)

/-- A home REFRESH packet of a programme 0 to 3 (R35). -/
def homeRefresh (p : Prog) (s : State) : State :=
  let q := fold s p
  if guarded s q then s.onProg q fun r => { r with ignored := satInc r.ignored } else refreshCause q s

end Sys2Proof.Machine
end

