-- ==== Sys2Proof/Machine/Cadence.lean ====
section
/-! DEFINITION. The Timebase Unit's own state (chapter 1): ticks, the lock states' judgements, the cadence step, the pending
code starts, and TIMEBASE-SET. -/

namespace Sys2Proof.Machine

/-! ### Ticks (R1, R6, R9) -/

/-- The lock state produces period, code start and block events (section 1.1). -/
def LockState.produces (t : LockState) : Bool := t == .locked || t == .holdover

/-- The tick count advances by one. In LOCKED and HOLDOVER the ticks remaining fall by one, and a count that is a multiple
of 16 makes a block event due (R1, R6, R9). -/
def Timebase.takeTick (t : Timebase) : Timebase :=
  let tick := t.tick + 1
  { t with
    tick := tick
    period := if t.lock.produces then t.period.map fun p => { p with remaining := p.remaining - 1 } else t.period
    blockDue := t.lock.produces && tick.toNat % 16 == 0 }

/-! ### Frame starts and missed frames (R2 to R5) -/

/-- A frame start so many sixteenths of a frame time after the point it is judged against is consecutive (R2). -/
def consecutive (elapsed : Nat) : Bool := decide (elapsed ≤ 24)

/-- The run count after a frame start (R3, R5). -/
def runAfter (elapsed run : Nat) : Nat := if consecutive elapsed then min Config.qualifyRun (run + 1) else 1

/-- A ring frame start (R3 to R5). The answer says whether it completes the lock from UNLOCKED, so that its tick is the
first period start. -/
def Timebase.frameStart (elapsed : Nat) (t : Timebase) : Timebase × Bool :=
  match t.lock with
  | .unlocked =>
    let run := runAfter elapsed t.run
    let t1 := { t.takeTick with run := run }
    if Config.qualifyRun ≤ run then
      ({ t1 with lock := .locked, miss := 0, blockDue := t1.tick.toNat % 16 == 0 }, true)
    else (t1, false)
  | .locked => ({ t.takeTick with miss := 0 }, false)
  | .holdover =>
    let run := runAfter elapsed t.run
    if Config.qualifyRun ≤ run then ({ t.takeTick with run := run, lock := .locked, miss := 0 }, false)
    else ({ t with run := run }, false)

/-- A missed frame (R3 to R5). The answer says whether it is the one that enters HOLDOVER. -/
def Timebase.frameMissed (t : Timebase) : Timebase × Bool :=
  match t.lock with
  | .unlocked => ({ t with run := 0 }, false)
  | .locked =>
    let t1 := { t.takeTick with miss := t.miss + 1 }
    if Config.holdoverMisses ≤ t1.miss then ({ t1 with lock := .holdover, run := 0 }, true) else (t1, false)
  | .holdover => ({ t with run := 0 }, false)

/-- The local reference's tick, which it takes in HOLDOVER alone (R5). -/
def Timebase.localTick (t : Timebase) : Timebase := if t.lock = .holdover then t.takeTick else t

/-! ### The cadence (R6 to R8) -/

/-- The accumulator after a period start, and the length of the period that begins (R6). -/
def cadenceStep (base num den acc : Nat) : Nat × Nat :=
  if den ≤ acc + num then (acc + num - den, base + 1) else (acc + num, base)

/-- A period start in the Timebase Unit: the picture number, the period and the code start to come (R6, R7). -/
def Timebase.startPeriod (t : Timebase) : Timebase :=
  let step := cadenceStep t.base t.num t.den t.acc
  { t with
    acc := step.1
    pic := t.pic + 1
    period := some { length := step.2, remaining := step.2 }
    codeStarts := t.codeStarts ++ [{ pic := t.pic + 1, tick := tickPlus t.tick Config.codeStartTicks }] }

/-- The present tick is a period boundary whose period start has not been taken (R6). -/
def periodDue (s : State) : Bool :=
  s.tbu.lock.produces && (s.tbu.period.map fun p => p.remaining == 0).getD false

/-- The oldest pending code start, if its tick has come (R8). -/
def codeStartDue (s : State) : Option CodeStart :=
  s.tbu.codeStarts.head?.filter fun c => s.tbu.lock.produces && reached s c.tick

/-- The number of the block that the present tick ends (R9). -/
def endedBlock (s : State) : BlockNo := blockOf s.tbu.tick - 1

/-! ### TIMEBASE-SET (R12, R13) -/

/-- The denominator that a TIMEBASE-SET leaves (R12). -/
def denAfter (f : TimebaseFields) (t : Timebase) : Nat := (f.den.map (clampNat 1 255)).getD t.den

/-- The Timebase Unit after the fields of a TIMEBASE-SET are stored (R12). -/
def Timebase.setFields (f : TimebaseFields) (t : Timebase) : Timebase :=
  let den := denAfter f t
  { t with
    base := (f.base.map (clampNat 1 65535)).getD t.base
    den := den
    num := min (f.num.getD t.num) (den - 1)
    acc := if f.base.isSome || f.num.isSome || f.den.isSome then 0 else t.acc
    rate := (f.rate.map (clampNat 24 60)).getD t.rate
    origin := (f.origin.map (clampNat 0 5183999)).getD t.origin }

/-- A value of a TIMEBASE-SET, or the stored numerator, is clamped (R12). -/
def timebaseClamped (f : TimebaseFields) (t : Timebase) : Bool :=
  clampedBy 1 65535 f.base || clampedBy 1 255 f.den || decide (denAfter f t - 1 < f.num.getD t.num) ||
  clampedBy 24 60 f.rate || clampedBy 0 5183999 f.origin

/-- TIMEBASE-SET (R12, R13). -/
def timebaseSet (f : TimebaseFields) (s : State) : State × Reply :=
  if four.any fun p => (prog s p).state.active then (s, { status := .refusedState })
  else
    (retargetWhere (fun t => t.linked.isSome) (s.onTbu (·.setFields f)),
      { status := doneIf (timebaseClamped f s.tbu) })

end Sys2Proof.Machine
end

