-- ==== Sys2Proof/Machine/Mixer.lean ====
section
/-! DEFINITION. The Sound Mixer (chapter 5): jitter stores, the mix deadline, gains and ramps, buses and meters, sound
triggers, and INPUT-SET, MIX-SET, BUS-SET and TRIGGER-SET. -/

namespace Sys2Proof.Machine

def inputOf (s : State) (k : Fin 32) : Input := s.smx.inputs.get k
def crossOf (s : State) (k : Fin 32) (b : Fin 8) : CrossPoint := (s.smx.cross.get k).get b
def busOf (s : State) (b : Fin 8) : Bus := s.smx.buses.get b
def triggerOf (s : State) (t : Fin 4) : Trigger := s.smx.triggers.get t

def State.onInput (k : Fin 32) (f : Input → Input) (s : State) : State :=
  s.onSmx fun m => { m with inputs := m.inputs.modify k f }
def State.onCross (k : Fin 32) (b : Fin 8) (f : CrossPoint → CrossPoint) (s : State) : State :=
  s.onSmx fun m => { m with cross := m.cross.modify k fun row => row.modify b f }
def State.onBus (b : Fin 8) (f : Bus → Bus) (s : State) : State :=
  s.onSmx fun m => { m with buses := m.buses.modify b f }

/-! ### Sound cells (R85, R86) -/

/-- Input `k` is mapped (R85). -/
def isMapped (s : State) (k : Fin 32) : Bool := s.sri.table.vals.any fun d => d == .soundInput k

/-- The cases of a sound cell's block number against the next block to mix (R86). -/
inductive CellCase where
  | stored | duplicate | late | early
deriving DecidableEq, Repr

/-- R86's table: `c` against `n` and the block numbers held. -/
def cellCase (n c : BlockNo) (held : List JitterBlock) : CellCase :=
  let d := (c - n).toNat
  if d < 4 then if held.any fun v => v.block == c then .duplicate else .stored
  else if 32768 ≤ d then .late
  else .early

/-- A sound cell arrives for input `k` (R86). -/
def soundArrival (k : Fin 32) (c : BlockNo) (samples : SoundBlock) (s : State) : State :=
  if s.smx.aligned then
    match cellCase s.smx.next c (inputOf s k).store with
    | .stored => s.onInput k fun v => { v with store := v.store ++ [⟨c, samples⟩] }
    | .duplicate => raiseFlag .soundLate (s.onInput k fun v => { v with duplicate := satInc v.duplicate })
    | .late => raiseFlag .soundLate (s.onInput k fun v => { v with late := satInc v.late })
    | .early => raiseFlag .soundLate (s.onInput k fun v => { v with early := satInc v.early })
  else s

/-! ### Gains (R91 to R93) -/

/-- Input `v` is muted by its own mute or by a muted group of which it is a member (R92). -/
def inputMuted (groups : Table 8 Bool) (v : Input) : Bool :=
  v.mute || (List.finRange 8).any fun g => v.groups.get g && groups.get g

/-- The effective gain of a cross-point (R91). -/
def targetGain (muted : Bool) (trim cross : Nat) : Nat := if muted then 0 else trim * cross / 4096

/-- The targets of all eight cross-points of input `k` are computed again (R91). -/
def recompute (k : Fin 32) (s : State) : State :=
  let v := inputOf s k
  let muted := inputMuted s.smx.groups v
  let point : CrossPoint → CrossPoint := fun x => { x with target := targetGain muted v.trim x.cross }
  s.onSmx fun m => { m with cross := m.cross.modify k (Table.map point) }

/-- The gain of sample `j` of a ramp from `a` to `e` (R93, R95). -/
def rampGain (a e j : Nat) : Int := (a : Int) + (((e : Int) - a) * (j + 1)).tdiv 16

/-! ### The blocks that inputs contribute (R90) -/

/-- The substitute for a lost block (R90). -/
def substitute (v : Input) : SoundBlock :=
  match v.policy with
  | .silence => silentBlock
  | .again => v.last
  | .hold => Table.replicate 16 (v.last.get 15)

/-- What an input contributes to the mix of block `n`, and whether the block is lost (R90). -/
def contribution (mapped : Bool) (n : BlockNo) (v : Input) : SoundBlock × Bool :=
  match v.store.find? fun b => b.block == n with
  | some b => (b.samples, false)
  | none => if mapped then (substitute v, true) else (silentBlock, false)

/-- An input after the mix of block `n` (R90). -/
def contributed (mapped : Bool) (n : BlockNo) (v : Input) : Input :=
  let c := contribution mapped n v
  { v with
    store := v.store.filter fun b => b.block != n
    last := c.1
    loss := if c.2 then satInc v.loss else v.loss }

/-! ### Buses (R94 to R96) -/

/-- The sum of the inputs' sample `j` into one bus, at sample scale (R94). -/
def busSample (terms : List (SoundBlock × CrossPoint)) (j : Fin 16) : Int :=
  let acc := (terms.map fun t => (t.1.get j).toInt * rampGain t.2.applied t.2.target j.val).sum
  (acc + 2048) / 4096

/-- The master gain of sample `j` (R95). -/
def masterGain (b : Bus) (j : Fin 16) : Int := rampGain b.applied b.master j.val

/-- A summed sample under its master gain, not yet saturated (R95). -/
def mastered (y gain : Int) : Int := (y * gain + 2048) / 4096

/-- Saturation to 24 bits (R95). -/
def saturate (z : Int) : Int := clampInt (-8388608) 8388607 z

/-- The largest magnitude of a block, with 8,388,608 counted as 8,388,607 (R96). -/
def blockPeak (block : SoundBlock) : Nat :=
  block.vals.foldl (fun m z => max m (min Config.maxSample z.toInt.natAbs)) 0

/-- What a bus does with the terms of its inputs: its output block, and whether a sample was saturated (R94, R95). -/
def busOutput (b : Bus) (terms : List (SoundBlock × CrossPoint)) : SoundBlock × Bool :=
  let zs : Fin 16 → Int := fun j => mastered (busSample terms j) (masterGain b j)
  (Table.ofFn fun j => BitVec.ofInt 24 (saturate (zs j)), (List.finRange 16).any fun j => saturate (zs j) != zs j)

/-- A bus after a mix: clip count, master ramp and meter (R95, R96). -/
def busAfter (b : Bus) (out : SoundBlock × Bool) : Bus :=
  let peak := blockPeak out.1
  { b with
    applied := b.master
    clips := if out.2 then satInc b.clips else b.clips
    blockPeak := peak
    heldPeak := max peak (b.heldPeak - b.decay) }

/-! ### Sound triggers (R101 to R103) -/

/-- A trigger is enabled (section 5.6). -/
def Trigger.enabled (t : Trigger) : Bool := decide (t.lo < t.hi)

/-- A trigger sends a MARK-IN, unless one is still awaited (R102). The Clip Marker takes it at once; its answer is on its
way until a trigger answer delivers it. -/
def triggerMarkIn (i : Fin 4) (s : State) : State :=
  let t := triggerOf s i
  if t.clip = .awaited then s
  else
    let r := markIn (.trigger i) t.cameras t.priority [] (s.onTrigger i fun t => { t with clip := .awaited })
    let clip := match r.1 with
      | .ok n => some n
      | .error _ => none
    r.2.onSmx fun m => { m with answers := m.answers ++ [⟨i, clip⟩] }

/-- The release of a trigger (R103, R104): a recorded clip is marked out and becomes absent; an awaited one waits. -/
def triggerMarkOut (i : Fin 4) (s : State) : State :=
  match (triggerOf s i).clip with
  | .number n => silentMarkOut n (s.onTrigger i fun t => { t with clip := .absent })
  | _ => s

/-- Entry to ACTIVE at an opening (R101, R102). -/
def triggerOpens (i : Fin 4) (s : State) : State :=
  triggerMarkIn i (s.onTrigger i fun t => { t with state := .active, fired := satInc t.fired })

/-- Entry to IDLE from RELEASING (R101, R103). -/
def triggerReleases (i : Fin 4) (s : State) : State :=
  triggerMarkOut i (s.onTrigger i fun t => { t with state := .idle })

/-- The run count of trigger `i` reaches `run`; if that is its opening count it opens, otherwise it is ARMING (R101). -/
def armTrigger (i : Fin 4) (run : Nat) (s : State) : State :=
  let s1 := s.onTrigger i fun t => { t with state := .arming, run := run }
  if (triggerOf s i).nOpen ≤ run then triggerOpens i s1 else s1

/-- The run count of trigger `i` reaches `run`; if that is its closing count it releases, otherwise it is RELEASING (R101). -/
def releaseTrigger (i : Fin 4) (run : Nat) (s : State) : State :=
  let s1 := s.onTrigger i fun t => { t with state := .releasing, run := run }
  if (triggerOf s i).nClose ≤ run then triggerReleases i s1 else s1

/-- One step of a trigger on the block peak of its bus (R101). -/
def stepTrigger (i : Fin 4) (s : State) : State :=
  let t := triggerOf s i
  let peak := (busOf s t.bus).blockPeak
  if !t.enabled then s
  else match t.state with
    | .idle => if t.hi ≤ peak then armTrigger i 1 s else s
    | .arming =>
      if t.hi ≤ peak then armTrigger i (t.run + 1) s
      else s.onTrigger i fun t => { t with state := .idle, run := 0 }
    | .active => if peak < t.lo then releaseTrigger i 1 s else s
    | .releasing =>
      if peak < t.lo then releaseTrigger i (t.run + 1) s
      else s.onTrigger i fun t => { t with state := .active, run := 0 }

/-- The Clip Marker's answer arrives at trigger `i` (R102). -/
def takeAnswer (i : Fin 4) (clip : Option Nat) (s : State) : State :=
  let t := triggerOf s i
  if t.clip = .awaited then
    match clip with
    | none => s.onTrigger i fun t => { t with clip := .absent }
    | some n =>
      match t.state with
      | .active | .releasing => s.onTrigger i fun t => { t with clip := .number n }
      | .idle | .arming => silentMarkOut n (s.onTrigger i fun t => { t with clip := .absent })
  else s

/-- The oldest answer on its way to trigger `i` arrives; with none on its way nothing happens (R102). -/
def answerTrigger (i : Fin 4) (s : State) : State :=
  match s.smx.answers.find? fun a => a.trigger == i with
  | none => s
  | some a => takeAnswer i a.clip (s.onSmx fun m => { m with answers := m.answers.erase a })

/-! ### The mix deadline (R87 to R89) -/

/-- The eight silent blocks of a silent event (R88). -/
def silentBlocks : Table 8 SoundBlock := Table.replicate 8 silentBlock

/-- The terms of bus `b` at the mix of block `n` (R90, R93). -/
def busTerms (s : State) (n : BlockNo) (b : Fin 8) : List (SoundBlock × CrossPoint) :=
  (List.finRange 32).map fun k => ((contribution (isMapped s k) n (inputOf s k)).1, crossOf s k b)

/-- Block `n` is mixed: the eight bus blocks, and the mixer after gains, meters and triggers (R90 to R101). -/
def mixBlock (n : BlockNo) (s : State) : Table 8 SoundBlock × State :=
  let lost := (List.finRange 32).filter fun k => (contribution (isMapped s k) n (inputOf s k)).2
  let outs : Table 8 (SoundBlock × Bool) := Table.ofFn fun b => busOutput (busOf s b) (busTerms s n b)
  let s1 := s.onSmx fun m =>
    { m with
      inputs := Table.ofFn fun k => contributed (isMapped s k) n (m.inputs.get k)
      cross := m.cross.map fun row => row.map fun x => { x with applied := x.target }
      buses := Table.ofFn fun b => busAfter (m.buses.get b) (outs.get b) }
  let s2 := lost.foldl (fun s _ => raiseFlag .soundLoss s) s1
  let s3 := ((List.finRange 8).filter fun b => (outs.get b).2).foldl (fun s _ => raiseFlag .busClipped s) s2
  (outs.map (·.1), four.foldl (fun s i => stepTrigger i s) s3)

/-- Blocks before `n` leave every store: they are skipped (R88). -/
def skipTo (n : BlockNo) (s : State) : State :=
  s.onSmx fun m => { m with inputs := m.inputs.map fun v =>
    { v with store := v.store.filter fun b => decide ((b.block - n).toNat < 32768) } }

/-- The mixer's part of the block event carrying `m` (R87, R88). -/
def mixEvent (m : BlockNo) (s : State) : Table 8 SoundBlock × State :=
  if s.smx.aligned then
    let gap := (m - s.smx.next).toNat
    if gap < s.smx.lag ∨ 32768 ≤ gap then (silentBlocks, s)
    else
      let n := m - BitVec.ofNat 16 s.smx.lag
      let r := mixBlock n (skipTo n s)
      (r.1, r.2.onSmx fun x => { x with next := n + 1 })
  else (silentBlocks, s.onSmx fun x => { x with aligned := true, next := m + 1 })

/-- The block event carrying `m`: the mixer, the streams and the links' credit (R9). -/
def blockWork (m : BlockNo) (s : State) : State :=
  let r := mixEvent m s
  creditBlock (streamsArrival m r.1 r.2)

/-! ### INPUT-SET, MIX-SET, BUS-SET (R97 to R99) -/

/-- An input's record, as R105 lists it; the block numbers of its jitter store stand in the order in which the blocks
arrived, two bytes each (DESIGN CHOICE, log entry 62). -/
def inputResults (s : State) (k : Fin 32) : List (Option (List Byte)) :=
  let v := inputOf s k
  [some (beBytes 2 v.trim), some (beBytes 1 (onOff v.mute)), some ((members v.groups).map fun g => byteOf g.val),
    some (beBytes 1 v.policy.code), some (v.store.map fun b => beBytes 2 b.block.toNat).flatten,
    some (beBytes 1 (onOff (isMapped s k))), some (beBytes 2 v.late), some (beBytes 2 v.early),
    some (beBytes 2 v.duplicate), some (beBytes 2 v.loss)]

/-- The choices and group numbers of an INPUT-SET, or none where one is refused (R97). -/
def inputChoices (f : InputFields) (v : Input) : Option (Bool × Table 8 Bool × LossPolicy) :=
  (onOffOfCode (f.mute.getD (onOff v.mute))).bind fun mute =>
    ((f.groups.map (setOf 8)).getD (some v.groups)).bind fun groups =>
      (LossPolicy.ofCode (f.policy.getD v.policy.code)).map fun policy => (mute, groups, policy)

/-- INPUT-SET (R97). -/
def inputSet (f : InputFields) (s : State) : State × Reply :=
  match objectOf 32 f.input with
  | none => (s, { status := .refusedRange })
  | some k =>
    if f = { input := f.input } then (s, { status := .done, results := inputResults s k })
    else match inputChoices f (inputOf s k) with
      | none => (s, { status := .refusedRange })
      | some (mute, groups, policy) =>
        (recompute k (s.onInput k fun v =>
          { v with
            trim := (f.trim.map (clampNat 0 8192)).getD v.trim
            mute := mute
            groups := groups
            policy := policy }), { status := doneIf (clampedBy 0 8192 f.trim) })

/-- An entry of MIX-SET with its objects found, or none (R98). -/
def mixObjects (e : MixEntry) : Option (Fin 32 × Fin 8 × Nat) :=
  (finOf 32 e.input).bind fun k => (finOf 8 e.bus).map fun b => (k, b, clampNat 0 8192 e.cross)

/-- One cross value is stored and its cross-point computed again (R91, R98). -/
def setCross (k : Fin 32) (b : Fin 8) (cross : Nat) (s : State) : State :=
  let v := inputOf s k
  s.onCross k b fun x =>
    { x with cross := cross, target := targetGain (inputMuted s.smx.groups v) v.trim cross }

/-- MIX-SET (R98). -/
def mixSet (entries : List MixEntry) (s : State) : State × Reply :=
  match entries.mapM mixObjects with
  | none => (s, { status := .refusedRange })
  | some l =>
    (l.foldl (fun s e => setCross e.1 e.2.1 e.2.2 s) s,
      { status := doneIf (entries.any fun e => clampedBy 0 8192 (some e.cross)) })

/-- The group mutes that a BUS-SET leaves, or none where a value is no choice (R99). -/
def groupMutes (given : Table 8 (Option Nat)) (stored : Table 8 Bool) : Option (Table 8 Bool) :=
  (List.finRange 8).foldl (fun acc g => acc.bind fun t =>
    (onOffOfCode ((given.get g).getD (onOff (stored.get g)))).map fun v => t.set g v) (some stored)

/-- The group mutes are stored, and every member of a changed group is computed again (R91, R92). -/
def storeGroups (groups : Table 8 Bool) (s : State) : State :=
  let old := s.smx.groups
  let s1 := s.onSmx fun m => { m with groups := groups }
  ((List.finRange 32).filter fun k => (List.finRange 8).any fun g =>
    (inputOf s k).groups.get g && groups.get g != old.get g).foldl (fun s k => recompute k s) s1

/-- The bus fields of a BUS-SET are stored (R99). -/
def storeBus (f : BusFields) (b : Option (Fin 8)) (s : State) : State :=
  match b with
  | none => s
  | some b => s.onBus b fun v =>
    { v with
      master := (f.master.map (clampNat 0 8192)).getD v.master
      decay := (f.decay.map (clampNat 0 65535)).getD v.decay }

/-- BUS-SET (R99). -/
def busSet (f : BusFields) (s : State) : State × Reply :=
  if (f.bus = none ∧ (f.master.isSome ∨ f.decay.isSome)) ∨ (f.bus.isSome ∧ objectOf 8 f.bus = none) then
    (s, { status := .refusedRange })
  else match groupMutes f.groups s.smx.groups with
    | none => (s, { status := .refusedRange })
    | some groups =>
      let s1 := storeGroups groups (storeBus f (objectOf 8 f.bus) s)
      (s1.onSmx fun m => { m with lag := (f.lag.map (clampNat 1 4)).getD m.lag },
        { status := doneIf (clampedBy 0 8192 f.master || clampedBy 0 65535 f.decay || clampedBy 1 4 f.lag) })

/-! ### TRIGGER-SET (R100, R104) -/

/-- The object numbers and priority of a TRIGGER-SET, or none where one is refused (R100). -/
def triggerChoices (f : TriggerFields) (t : Trigger) : Option (Fin 8 × Table 4 Bool × Priority) :=
  (finOf 8 (f.bus.getD t.bus.val)).bind fun bus =>
    ((f.cameras.map (setOf 4)).getD (some t.cameras)).bind fun cameras =>
      (Priority.ofCode (f.priority.getD t.priority.code)).map fun prio => (bus, cameras, prio)

/-- A value of a TRIGGER-SET is clamped (R100). -/
def triggerClamped (f : TriggerFields) : Bool :=
  clampedBy 0 Config.maxSample f.hi || clampedBy 0 Config.maxSample f.lo || clampedBy 1 255 f.nOpen ||
  clampedBy 1 255 f.nClose

/-- The trigger that a TRIGGER-SET forms (R100). -/
def formTrigger (f : TriggerFields) (bus : Fin 8) (cameras : Table 4 Bool) (prio : Priority) (t : Trigger) : Trigger :=
  { t with
    bus := bus
    hi := (f.hi.map (clampNat 0 Config.maxSample)).getD t.hi
    lo := (f.lo.map (clampNat 0 Config.maxSample)).getD t.lo
    nOpen := (f.nOpen.map (clampNat 1 255)).getD t.nOpen
    nClose := (f.nClose.map (clampNat 1 255)).getD t.nClose
    cameras := cameras
    priority := prio }

/-- A TRIGGER-SET that changes the bus or a threshold, or that disables, ends what the trigger is doing (R104). -/
def endsTrigger (old new : Trigger) : Bool :=
  old.bus != new.bus || old.hi != new.hi || old.lo != new.lo || (new.hi == 0 && new.lo == 0)

/-- A formed trigger is stored (R104). -/
def storeTrigger (i : Fin 4) (new : Trigger) (s : State) : State :=
  if endsTrigger (triggerOf s i) new then
    triggerMarkOut i (s.onTrigger i fun _ => { new with state := .idle, run := 0 })
  else s.onTrigger i fun _ => new

/-- TRIGGER-SET (R100, R104). -/
def triggerSet (f : TriggerFields) (s : State) : State × Reply :=
  match objectOf 4 f.trigger with
  | none => (s, { status := .refusedRange })
  | some i =>
    match triggerChoices f (triggerOf s i) with
    | none => (s, { status := .refusedRange })
    | some (bus, cameras, prio) =>
      let new := formTrigger f bus cameras prio (triggerOf s i)
      if new.hi ≤ new.lo ∧ ¬(new.hi = 0 ∧ new.lo = 0) then (s, { status := .refusedRange })
      else (storeTrigger i new s, { status := doneIf (triggerClamped f) })

end Sys2Proof.Machine
end

