-- ==== Sys2Proof/Machine/Supervisor.lean ====
section
/-! DEFINITION. The Link Supervisor (chapter 10): proving, faults and their actions, degrading and recovery, the timers of
each link, and LINK-SET, LINK-UP, LINK-DOWN and LINK-CLEAR. -/

namespace Sys2Proof.Machine

/-! ### Fault actions (R193, R194) -/

def actionOf (r : LinkRecord) (c : FaultClass) : FaultAction := r.settings.actions.get c.idx

/-- The fault is counted under its class, and the first-fault record is filled or its later count rises (R193). -/
def recordFault (c : FaultClass) (now : Tick) (code : Byte) (r : LinkRecord) : LinkRecord :=
  { r with
    faults := r.faults.modify c.idx satInc
    firstFault := match r.firstFault with
      | none => some { cls := c, tick := now, code := code }
      | some f => some { f with later := satInc f.later } }

/-- The link enters HELD from UP, DEGRADED or PROVING (R189, R193). -/
def holdLink (l : Link) (c : FaultClass) (retry : Bool) (s : State) : State :=
  let carried := (link s l).state.carries
  let s1 := s.onLink l fun r =>
    { r with
      state := .held
      retry := if retry then some (tickPlus s.tbu.tick r.settings.retryTime) else none
      proving := none
      degrading := Table.replicate 5 false
      recovery := none
      window := none }
  let s2 := withdraw l s1
  if carried then queueNotice (.linkHeld l c) none s2 else s2

/-- DEGRADE: an UP link enters DEGRADED, a DEGRADED one restarts its recovery (R194). -/
def degradeLink (l : Link) (c : FaultClass) (s : State) : State :=
  let entered := (link s l).state == .up
  let s1 := s.onLink l fun r =>
    { r with
      state := .degraded
      degrading := (if r.state = .up then Table.replicate 5 false else r.degrading).set c.idx true
      recovery := some { tick := tickPlus s.tbu.tick Config.windowTicks } }
  if entered then oweTake l s1 else s1

/-- A fault detected on a link is applied (R193). `code` is the modem code that a filled record keeps. -/
def applyFault (l : Link) (c : FaultClass) (code : Byte) (s : State) : State :=
  let r := link s l
  if r.state = .held then s.onLink l (recordFault c s.tbu.tick code)
  else match actionOf r c with
    | .ignore => s
    | action =>
      let s1 := raiseFlag .linkFault (s.onLink l (recordFault c s.tbu.tick code))
      match action with
      | .holdLatched => holdLink l c false s1
      | .holdRetry => holdLink l c true s1
      | .degrade => if r.state.carries then degradeLink l c s1 else s1
      | _ => s1

/-! ### Entering PROVING and UP (R185, R186) -/

/-- A probe is built and given to the Home Scheduler (R174, R185). -/
def giveProbe (l : Link) (s : State) : State :=
  match (link s l).proving with
  | none => s
  | some p =>
    offerProbe l (p.sent + 1)
      (s.onLink l fun r => { r with proving := r.proving.map fun p => { p with sent := p.sent + 1 } })

/-- The link enters PROVING (R185). -/
def enterProving (l : Link) (cmd : Option OpenCommand) (s : State) : State :=
  let s1 := newEpoch l s
  let s2 := s1.onLink l fun r =>
    { r with
      state := .proving
      retry := none
      openCommand := cmd
      proving := some
        { deadline := tickPlus s.tbu.tick r.settings.proveTimeout
          nextProbe := tickPlus s.tbu.tick Config.probeTicks } }
  giveProbe l s2

/-- The link enters UP from PROVING: a window begins, its standing condition is judged once, and a notice is queued
(R186; the order of the notices is DEDUCED, log entry 31). -/
def enterUp (l : Link) (s : State) : State :=
  let r := link s l
  let s1 := s.onLink l fun r =>
    { r with state := .up, proving := none, window := some { start := s.tbu.tick }, timedOut := none }
  let s2 := if r.capacity < r.settings.floor then applyFault l .capacityFloor r.code s1 else s1
  let s3 := if (link s2 l).state.carries && r.code != 0 then applyFault l .modemFault r.code s2 else s2
  let s4 := s3.onLink l fun r => { r with openCommand := none }
  oweTake l (queueNotice (.linkUp l (sched s l).epoch) r.openCommand s4)

/-- The probes retired reach K: the link enters UP (R185, R186). -/
def judgeProving (l : Link) (s : State) : State :=
  match (link s l).proving with
  | some p => if (link s l).state = .proving ∧ (link s l).settings.count ≤ p.retired then enterUp l s else s
  | none => s

/-- A probe has been retired (R185); after the link has left PROVING it changes nothing. -/
def probeRetired (l : Link) (s : State) : State :=
  if (link s l).state = .proving then
    judgeProving l
      (s.onLink l fun r => { r with proving := r.proving.map fun p => { p with retired := p.retired + 1 } })
  else s

/-! ### The timers of a link -/

/-- A further probe is due (R185). -/
def probeDue (l : Link) (s : State) : Bool :=
  (link s l).state == .proving && ((link s l).proving.map fun p => reached s p.nextProbe).getD false

/-- A further probe is built, and the next is due 2,400 ticks after it (R185). -/
def buildProbe (l : Link) (s : State) : State :=
  giveProbe l (s.onLink l fun r =>
    { r with proving := r.proving.map fun p => { p with nextProbe := tickPlus p.nextProbe Config.probeTicks } })

def provingDeadlineDue (l : Link) (s : State) : Bool :=
  (link s l).state == .proving && ((link s l).proving.map fun p => reached s p.deadline).getD false

/-- The proving deadline of a link still PROVING (R187). -/
def failProving (l : Link) (s : State) : State :=
  let cmd := (link s l).openCommand
  let s1 := applyFault l .proveFail (link s l).code s
  match cmd with
  | some _ => queueNotice (.proveFail l) cmd (s1.onLink l fun r => { r with openCommand := none })
  | none => s1

def retryDue (l : Link) (s : State) : Bool :=
  (link s l).state == .held && ((link s l).retry.map fun t => reached s t).getD false

def recoveryDue (l : Link) (s : State) : Bool :=
  (link s l).state == .degraded && ((link s l).recovery.map fun r => !r.passed && reached s r.tick).getD false

/-- A DEGRADED link returns to UP (R194). -/
def returnToUp (l : Link) (s : State) : State :=
  oweTake l (s.onLink l fun r =>
    { r with state := .up, degrading := Table.replicate 5 false, recovery := none })

/-- The link waits for modem code 0 before it returns (R194). -/
def waitsForModem (r : LinkRecord) : Bool := r.degrading.get FaultClass.modemFault.idx && r.code != 0

/-- The recovery expiry of a DEGRADED link (R194). -/
def expireRecovery (l : Link) (s : State) : State :=
  if waitsForModem (link s l) then
    s.onLink l fun r => { r with recovery := r.recovery.map fun v => { v with passed := true } }
  else returnToUp l s

def windowDue (l : Link) (s : State) : Bool :=
  (link s l).state.carries && ((link s l).window.map fun w => reached s (tickPlus w.start Config.windowTicks)).getD false

/-- The end of a measuring window (R191). -/
def endWindow (l : Link) (s : State) : State :=
  match (link s l).window with
  | none => s
  | some w =>
    let short := decide (1 ≤ w.handed) &&
      decide (w.retired < w.handed * (link s l).settings.minFraction / 100)
    let s1 := if short then applyFault l .ackShortfall (link s l).code s else s
    s1.onLink l fun r =>
      { r with window := r.window.map fun w => { start := tickPlus w.start Config.windowTicks } }

/-- The oldest in-flight entry of a carrying link has grown older than the ack timeout and has not been judged (R190). -/
def ackTimeoutDue (l : Link) (s : State) : Bool :=
  (link s l).state.carries &&
  match (sched s l).inFlight with
  | [] => false
  | e :: _ =>
    decide ((link s l).settings.ackTimeout < (s.tbu.tick - e.tick).toNat) && (link s l).timedOut != some e.seq

/-- ACK-TIMEOUT is detected on the oldest entry (R190). -/
def timeOutOldest (l : Link) (s : State) : State :=
  match (sched s l).inFlight with
  | [] => s
  | e :: _ => applyFault l .ackTimeout (link s l).code (s.onLink l fun r => { r with timedOut := some e.seq })

/-! ### Modem reports (R182, R192) -/

/-- C for a reported capacity and a share (R182). -/
def effectiveCapacity (reported share : Nat) : Nat := reported * share / 100

/-- A CAPACITY report (R182, R192). In HELD a low capacity is counted under R193. -/
def takeCapacity (l : Link) (cap : Nat) (s : State) : State :=
  let s1 := s.onLink l fun r =>
    { r with
      reported := min Config.maxCapacity cap
      capacity := effectiveCapacity (min Config.maxCapacity cap) r.settings.share }
  let r := link s1 l
  if (r.state.carries || r.state == .held) && decide (r.capacity < r.settings.floor) then
    applyFault l .capacityFloor r.code s1
  else s1

/-- A FAULT report (R182, R192, R194). -/
def takeFaultReport (l : Link) (code : Byte) (s : State) : State :=
  let s1 := s.onLink l fun r => { r with code := code }
  let r := link s1 l
  if code = 0 then
    if r.state = .degraded ∧ (r.recovery.map (·.passed)).getD false then returnToUp l s1 else s1
  else if r.state.carries || r.state == .held then applyFault l .modemFault code s1
  else s1

/-! ### LINK-SET, LINK-UP, LINK-DOWN, LINK-CLEAR (R183, R184, R188, R196) -/

/-- The permitted kinds that a list names, as PICTURE, SOUND, LABEL, REPLY (R183). -/
def kindsOf (l : List Nat) : Option (Table 4 Bool) :=
  setOf 4 (l.map fun k => if k = 0 then 4 else k - 1)

/-- A fault action list, laid over the stored actions; a later pair of a class stands (R183). -/
def actionsOf (l : List (Nat × Nat)) (stored : Table 5 FaultAction) : Option (Table 5 FaultAction) :=
  l.foldl (fun acc p => acc.bind fun t =>
    (FaultClass.ofCode p.1).bind fun c => (FaultAction.ofCode p.2).bind fun a =>
      if c = .proveFail ∧ a ≠ .holdLatched ∧ a ≠ .holdRetry then none else some (t.set c.idx a)) (some stored)

/-- The link's settings and actions, as R183 and R196 list them. -/
def settingsResults (t : LinkSettings) : List (Option (List Byte)) :=
  let kinds := (if t.kindPicture then [1] else []) ++ (if t.kindSound then [2] else []) ++
    (if t.kindLabel then [3] else []) ++ (if t.kindReply then [4] else [])
  [some (beBytes 1 t.share), some (kinds.map byteOf), some (beBytes 2 t.burst), some (beBytes 4 t.floor),
    some (beBytes 4 t.ackTimeout), some (beBytes 1 t.minFraction), some (beBytes 1 t.count),
    some (beBytes 4 t.proveTimeout), some (beBytes 4 t.retryTime), some (t.actions.vals.map fun a => byteOf a.code)]

/-- The settings that the link fields of a LINK-SET form. -/
def formSettings (f : LinkFields) (kinds : Table 4 Bool) (actions : Table 5 FaultAction) (t : LinkSettings) :
    LinkSettings where
  share := (f.share.map (clampNat 0 100)).getD t.share
  kindPicture := kinds.get 0
  kindSound := kinds.get 1
  kindLabel := kinds.get 2
  kindReply := kinds.get 3
  burst := (f.burst.map (clampNat 1328 65535)).getD t.burst
  floor := (f.floor.map (clampNat 0 250000)).getD t.floor
  ackTimeout := (f.ackTimeout.map (clampNat 4800 480000)).getD t.ackTimeout
  minFraction := (f.minFraction.map (clampNat 0 100)).getD t.minFraction
  count := (f.count.map (clampNat 1 16)).getD t.count
  proveTimeout := (f.proveTimeout.map (clampNat 24000 480000)).getD t.proveTimeout
  retryTime := (f.retryTime.map (clampNat 4800 2880000)).getD t.retryTime
  actions := actions

/-- A value of the command is clamped, the pool caps included (R149, R183). -/
def linkClamped (f : LinkFields) : Bool :=
  clampedBy 0 100 f.share || clampedBy 1328 65535 f.burst || clampedBy 0 250000 f.floor ||
  clampedBy 4800 480000 f.ackTimeout || clampedBy 0 100 f.minFraction || clampedBy 1 16 f.count ||
  clampedBy 24000 480000 f.proveTimeout || clampedBy 4800 2880000 f.retryTime ||
  f.caps.vals.any (clampedBy 0 Config.poolBlocks)

/-- The command carries a field of a link. -/
def hasLinkField (f : LinkFields) : Bool :=
  f.share.isSome || f.kinds.isSome || f.burst.isSome || f.floor.isSome || f.ackTimeout.isSome || f.minFraction.isSome ||
  f.count.isSome || f.proveTimeout.isSome || f.retryTime.isSome || f.actions.isSome

/-- The pool section: each present cap is clamped and stored (R149). -/
def setCaps (caps : Table 6 (Option Nat)) (s : State) : State :=
  s.onPool fun k => { k with owners := Table.ofFn fun o =>
    let r := k.owners.get o
    { r with cap := ((caps.get o).map (clampNat 0 Config.poolBlocks)).getD r.cap } }

/-- The permitted kinds of stored settings, as PICTURE, SOUND, LABEL, REPLY. -/
def storedKinds (t : LinkSettings) : Table 4 Bool := ⟨[t.kindPicture, t.kindSound, t.kindLabel, t.kindReply], rfl⟩

/-- What a taken LINK-SET does at once with the new settings of link `l` (R164, R165, R168, R182, R183, R190). -/
def applySettings (l : Link) (t : LinkSettings) (s : State) : State :=
  let old := (link s l).settings
  let s1 := s.onLink l fun r => { r with settings := t, capacity := effectiveCapacity r.reported t.share }
  let s2 := s1.onSched l fun h => { h with credit := min t.burst h.credit }
  let s3 := if t.kindPicture then s2 else setReservation l none s2
  let s4 := if storedKinds t != storedKinds old || decide (old.burst < t.burst) then oweTake l s3 else s3
  let s5 := judgeProving l s4
  if ackTimeoutDue l s5 && t.ackTimeout != old.ackTimeout then timeOutOldest l s5 else s5

/-- LINK-SET (R183). -/
def linkSet (f : LinkFields) (s : State) : State × Reply :=
  match f.link with
  | none =>
    if hasLinkField f then (s, { status := .refusedRange })
    else (setCaps f.caps s, { status := doneIf (linkClamped f) })
  | some n =>
    match finOf 4 n with
    | none => (s, { status := .refusedRange })
    | some l =>
      let old := (link s l).settings
      if f = { link := some n } then (s, { status := .done, results := settingsResults old })
      else match (f.kinds.map kindsOf).getD (some (storedKinds old)), actionsOf (f.actions.getD []) old.actions with
        | some kinds, some actions =>
          let s1 := setCaps f.caps s
          let s2 := if hasLinkField f then applySettings l (formSettings f kinds actions old) s1 else s1
          (s2, { status := doneIf (linkClamped f) })
        | _, _ => (s, { status := .refusedRange })

/-- LINK-UP (R184). -/
def linkUp (m : Hdr) (n : Option Nat) (s : State) : State × Reply :=
  match objectOf 4 n with
  | none => (s, { status := .refusedRange })
  | some l =>
    if (link s l).state = .down then (enterProving l (some ⟨m.tag, srcOrigin m.src⟩) s, { status := .accepted })
    else (s, { status := .refusedState })

/-- LINK-DOWN of one link (R188). -/
def takeDown (l : Link) (s : State) : State :=
  let cmd := (link s l).openCommand
  let s1 := s.onLink l fun r =>
    { r with
      state := .down
      proving := none
      retry := none
      degrading := Table.replicate 5 false
      recovery := none
      window := none
      openCommand := none }
  let s2 := if (link s l).state = .down ∨ (link s l).state = .held then s1 else withdraw l s1
  match cmd with
  | some _ => queueNotice (.linkDown l) cmd s2
  | none => s2

/-- LINK-DOWN (R188). -/
def linkDown (n : Option Nat) (s : State) : State × Reply :=
  match objectOf 4 n with
  | none => (s, { status := .refusedRange })
  | some l => (takeDown l s, { status := .done })

/-- LINK-CLEAR (R195, R196). -/
def linkClear (m : Hdr) (n : Option Nat) (s : State) : State × Reply :=
  match objectOf 4 n with
  | none => (s, { status := .refusedRange })
  | some l =>
    match (link s l).state with
    | .held => (enterProving l (some ⟨m.tag, srcOrigin m.src⟩) s, { status := .accepted })
    | .proving => (s, { status := .refusedState })
    | _ => (s.onLink l fun r => { r with firstFault := none }, { status := .done })

end Sys2Proof.Machine
end

