-- ==== Sys2Proof/Machine/Reset.lean ====
section
/-! DEFINITION. Power-on reset and RESET ALL, which leave every block alike, and RESET MEDIA block by block (R39, R62, R84,
R107, R121, R145, R162, R181, R198, R211). -/

namespace Sys2Proof.Machine

/-- Every block as power-on reset and RESET ALL leave it; the commands that wait at the part's inputs still wait
(DESIGN CHOICE, log entry 1). -/
def resetBlocks (s : State) : State := { State.reset with pending := s.pending }

/-- A programme after RESET MEDIA (R39). -/
def Programme.resetMedia (r : Programme) : Programme :=
  { r with
    state := if r.state = .paired then .paired else stateOfEnable r.cfg.enable
    input := .present
    gapCount := 0
    refreshOwed := false
    skipNext := false
    awaiting := false
    firstPic := none
    remHold := 0
    openStop := none
    ignored := 0
    causes := 0 }

/-- A rate programme after RESET MEDIA (R84). -/
def RateProg.resetMedia (r : RateProg) : RateProg := { pending := r.pending, active := r.pending }

/-- A trigger after RESET MEDIA (R107). -/
def Trigger.resetMedia (t : Trigger) : Trigger := { t with state := .idle, run := 0, clip := .absent, fired := 0 }

/-- The Sound Mixer after RESET MEDIA (R107). An answer on its way would find the clip absent and be disregarded, whatever
the trigger has done since, so none is left on its way (log entry 19). -/
def Mixer.resetMedia (m : Mixer) : Mixer :=
  { m with
    aligned := false
    answers := []
    inputs := m.inputs.map fun v => { trim := v.trim, mute := v.mute, groups := v.groups, policy := v.policy }
    cross := m.cross.map fun row => row.map fun x => { x with applied := x.target }
    buses := m.buses.map fun b => { master := b.master, applied := b.master, decay := b.decay }
    triggers := m.triggers.map Trigger.resetMedia }

/-- A home sound stream after RESET MEDIA, once its target is computed again (R121). -/
def SoundStream.resetMedia (t : SoundStream) : SoundStream :=
  { t with
    current := if t.enable then t.target else t.current
    lineL := if t.enable then [] else t.lineL
    lineR := if t.enable then [] else t.lineR
    assembly := none
    packets := 0
    refused := 0 }

/-- The Clip Marker after RESET MEDIA (R145). -/
def ClipMarker.resetMedia (m : ClipMarker) : ClipMarker :=
  { next := m.next, preRoll := m.preRoll, postRoll := m.postRoll, autoMark := m.autoMark,
    tallyPriority := m.tallyPriority }

/-- The Packet Pool after RESET MEDIA (R162). -/
def Pool.resetMedia (k : Pool) : Pool := { owners := k.owners.map fun r => { cap := r.cap } }

/-- One link's scheduling after RESET MEDIA (R181). -/
def LinkSched.resetMedia (h : LinkSched) : LinkSched :=
  { nextSeq := h.nextSeq, lastAck := h.lastAck, epoch := h.epoch }

/-- A link record after RESET MEDIA (R198). -/
def LinkRecord.resetMedia (r : LinkRecord) : LinkRecord :=
  { reported := r.reported, capacity := r.capacity, code := r.code, settings := r.settings }

/-- The Command Unit after RESET MEDIA; `home` is what stays of the HOME queue (R211). -/
def CommandUnit.resetMedia (home : List Msg) (c : CommandUnit) : CommandUnit :=
  { van := c.van, home := home, authority := c.authority, noticesHome := c.noticesHome, notices := c.notices }

/-- RESET MEDIA in every block (R211). -/
def resetMediaBlocks (home : List Msg) (s : State) : State :=
  let s1 : State :=
    { s with
      ports := Table.replicate 4 {}
      pgc := { s.pgc with progs := s.pgc.progs.map Programme.resetMedia }
      cde := {}
      ral := { s.ral with figures := {}, progs := s.ral.progs.map RateProg.resetMedia }
      smx := s.smx.resetMedia
      clm := s.clm.resetMedia
      pkp := s.pkp.resetMedia
      hsc := { links := s.hsc.links.map LinkSched.resetMedia, ignoredHome := 0 }
      lsu := s.lsu.map LinkRecord.resetMedia
      cmu := s.cmu.resetMedia home }
  { s1 with sdp := s1.sdp.map fun t => { t with target := targetDelay s1 t }.resetMedia }

end Sys2Proof.Machine
end

