-- ==== Sys2Proof/Machine/RingMap.lean ====
section
/-! DEFINITION. The acceptance table and INPUT-MAP (R199, R200), and the on-air set of a tally cell (R201, R213). -/

namespace Sys2Proof.Machine

/-- The destination that an INPUT-MAP entry names, or none where it is refused (R200). -/
def destOf (dest index : Nat) : Option Dest :=
  match dest with
  | 1 => some .none
  | 2 => (finOf 32 index).map .soundInput
  | 3 => some .tally
  | 4 => (finOf 8 index).map .desk
  | 5 => some .control
  | _ => none

/-- The table that the entries of an INPUT-MAP would leave, in list order; none where one is refused (R200). -/
def formTable (entries : List MapEntry) (t : Table 256 Dest) : Option (Table 256 Dest) :=
  entries.foldl (fun acc e => acc.bind fun t =>
    (finOf 256 e.stream).bind fun i => (destOf e.dest e.index).map fun d => t.set i d) (some t)

/-- The number of streams of each destination kind, in the order of the kinds. -/
def destCounts (t : Table 256 Dest) : List Nat :=
  [1, 2, 3, 4, 5].map fun k => t.vals.countP fun d => d.codes.1 == k

/-- A table and output stream that R200 lets stand: some entry is CONTROL, and the output stream's entry is NONE. -/
def mapStands (t : Table 256 Dest) (out : RingStream) : Bool :=
  (t.vals.any fun d => d == .control) && t.get out == .none

/-- A formed table is stored: a stream whose entry changes loses its partial message, which is counted (R200). -/
def Ring.storeMap (t : Table 256 Dest) (out : RingStream) (r : Ring) : Ring :=
  let lost := (List.finRange 256).filter fun i => t.get i != r.table.get i && (r.partials.get i).isSome
  { r with
    table := t
    output := out
    partials := lost.foldl (fun p i => p.set i none) r.partials
    discarded := lost.foldl (fun n _ => satInc n) r.discarded }

/-- INPUT-MAP (R200). -/
def inputMap (f : MapFields) (s : State) : State × Reply :=
  if f.entries = [] ∧ f.output = none then
    (s, { status := .done
          results := [some (beBytes 1 s.sri.output.val), some ((destCounts s.sri.table).map (beBytes 2)).flatten] })
  else match formTable f.entries s.sri.table, finOf 256 (f.output.getD s.sri.output.val) with
    | some t, some out =>
      if mapStands t out then (s.onSri (·.storeMap t out), { status := .done })
      else (s, { status := .refusedState })
    | _, _ => (s, { status := .refusedRange })

/-- The on-air set that a tally cell carries, or none where its form is wrong (R213). -/
def tallySet (count : Byte) (body : List Byte) : Option (Table 4 Bool) :=
  let names := (body.take count.toNat).map (·.toNat)
  if count.toNat ≤ 4 ∧ names.Nodup then setOf 4 names else none

end Sys2Proof.Machine
end

