-- ==== Sys2Proof/Machine/Status.lean ====
section
/-! DEFINITION. STATUS-QUERY (R207): what each of the thirteen blocks answers (R14, R37, R60, R82, R105, R119, R138, R160,
R179, R196, R207), and what the clear option clears. -/

namespace Sys2Proof.Machine

/-- The results of a reply: a field that is absent keeps its number and has no record. -/
abbrev Results := List (Option (List Byte))

/-- A field that is always present, of `k` bytes. -/
def num (k v : Nat) : Option (List Byte) := some (beBytes k v)

/-- An answer to a "whether". -/
def whether (b : Bool) : Option (List Byte) := num 1 (onOff b)

/-- The ticks left to a tick, 0 once it has come. -/
def ticksLeft (s : State) (t : Tick) : Nat := if reached s t then 0 else (t - s.tbu.tick).toNat

/-- R14. -/
def timebaseResults (s : State) : Results :=
  let t := s.tbu
  [num 1 t.lock.code, num 1 t.run, num 1 t.miss, num 4 t.tick.toNat, num 2 (blockOf t.tick).toNat, num 4 t.pic.toNat,
    some (timecodeBytes t t.pic), num 2 t.base, num 1 t.num, num 1 t.den, num 1 t.acc,
    t.period.map fun p => beBytes 4 p.length, t.period.map fun p => beBytes 4 p.remaining, num 1 t.rate, num 4 t.origin]

/-- The tag and origin of a command whose notice is owed. -/
def openBytes (o : OpenCommand) : List Byte := [o.tag, byteOf o.origin.code]

/-- R37. The record's awaiting-allocation mark and its first allocated picture are left out of the reply: the rule speaks of
the fields of the record beside the figures that it names one by one (DEDUCED, log entry 61). -/
def programmeResults (s : State) (p : Prog) : Results :=
  let r := prog s p
  let g := r.cfg
  let q := s.ports.get p
  [num 1 r.state.code, whether g.enable, num 1 g.format.val, num 1 g.group, num 1 g.factor, num 1 g.qMin, num 1 g.qMax,
    num 1 g.offset, num 2 g.bandLimit, num 1 g.action.code, num 1 g.latency, num 2 g.delay, num 1 g.hold, num 1 g.guard,
    if isOdd p then none else whether r.pair, num 1 r.input.code, num 1 r.gapCount, whether r.refreshOwed,
    whether r.skipNext, if r.state = .freezing then num 1 r.remHold else none, r.openStop.map openBytes,
    num 2 r.causes, num 2 r.ignored, num 1 q.store.length, whether q.delivering, num 2 q.dropped]

def formatResults (t : Format) : Results := [num 1 t.width, num 1 t.bands]

/-- The band in coding: its programme, picture number, band number and discard mark (R60; the record of section 3.1). -/
def bandBytes (b : Band) : List Byte :=
  beBytes 1 b.prog.val ++ beBytes 4 b.pic.toNat ++ beBytes 1 b.band ++ beBytes 1 (onOff b.discard)

/-- R60, without a programme. -/
def engineResults (s : State) : Results :=
  [num 1 (s.cde.entries.vals.countP (·.isSome)), s.cde.band.map bandBytes, num 1 s.cde.lastServed.val]

/-- R60, for a programme. -/
def loopResults (s : State) (p : Prog) : Results :=
  let c := loopOf s p
  let e := entryOf s p
  let b := s.cde.band.filter fun b => b.prog == p
  [num 1 c.carried, num 1 c.groupCount, num 1 c.method.code, c.pending.map fun m => beBytes 1 m.code,
    c.collapse.map (beBytes 1), some (c.history.map fun a => beBytes 4 a.toNat).flatten,
    e.map fun e => beBytes 1 e.type.code, e.map fun e => beBytes 4 e.pic.toNat, e.map fun e => beBytes 1 e.started,
    e.map fun e => beBytes 1 e.done, e.map fun e => beBytes 4 e.produced, e.map fun e => beBytes 4 e.target,
    e.map fun e => beBytes 4 e.limit, e.map fun e => beBytes 1 e.loopQ, e.map fun e => beBytes 1 e.codingQ,
    e.bind fun e => whether e.struck, whether b.isSome, b.map fun b => beBytes 1 b.band, b.bind fun b => whether b.discard]

/-- R82, without a programme. -/
def allocatorResults (s : State) : Results :=
  let a := s.ral
  let f := a.figures
  [num 1 a.headroom, num 2 a.labelReserve, num 4 f.usable, num 2 f.soundReserve, num 2 f.labelReserve, num 4 f.videoPool,
    num 2 f.weightSum, num 4 f.minSum]

/-- R82, for a programme. -/
def rateResults (r : RateProg) : Results :=
  [some (rateRecordBytes r.pending), some (rateRecordBytes r.active), num 4 r.rate, num 4 r.prevRate, whether r.tookPart,
    whether r.boosted, num 4 r.budget, num 1 r.carry, num 4 r.fullness, num 4 r.limit, num 4 r.anchorTarget,
    num 4 r.followTarget, num 1 r.decided.code]

/-- R105, the mixer itself. -/
def mixerResults (s : State) : Results :=
  [whether s.smx.aligned, num 2 s.smx.next.toNat, num 1 s.smx.lag, some (s.smx.groups.vals.map fun g => byteOf (onOff g))]

/-- R105, a bus. -/
def busResults (b : Bus) : Results :=
  [num 2 b.master, num 2 b.applied, num 2 b.decay, num 4 b.blockPeak, num 4 b.heldPeak, num 2 b.clips]

/-- R105, a cross-point. -/
def crossResults (x : CrossPoint) : Results := [num 2 x.cross, num 2 x.target, num 2 x.applied]

/-- R105, a trigger. An absent clip has no record; an awaited one is the number 0. -/
def triggerResults (t : Trigger) : Results :=
  [num 1 t.bus.val, num 4 t.hi, num 4 t.lo, num 1 t.nOpen, num 1 t.nClose,
    some ((members t.cameras).map fun p => byteOf p.val), num 1 t.priority.code, num 1 t.state.code, num 1 t.run,
    match t.clip with
      | .absent => none
      | .awaited => num 2 0
      | .number n => num 2 n,
    num 2 t.fired]

/-- R138, the Clip Marker itself; an absent pointer or tally clip is the number 0. -/
def clipMarkerResults (m : ClipMarker) : Results :=
  clipSettingsResults m ++
  [num 2 m.next,
    some ([1, 2, 3, 4, 5, 6].map fun k => byteOf (m.clips.countP fun c => c.state.code == k)),
    some (m.desks.vals.map fun d => beBytes 2 (d.getD 0)).flatten,
    some (m.tally.vals.map fun d => beBytes 2 (d.getD 0)).flatten,
    some ((members m.view).map fun p => byteOf p.val), num 1 m.waiting.length]

/-- An owner's count, cap and refused count (R160). -/
def ownerBytes (r : OwnerRecord) : List Byte := beBytes 2 r.count ++ beBytes 2 r.cap ++ beBytes 2 r.refused

/-- A class queue's packets and the blocks they hold (R160). -/
def queueBytes (q : List Packet) : List Byte :=
  beBytes 2 q.length ++ beBytes 2 ((q.map fun p => p.blocks.length).sum)

/-- The head of a class queue: subject, number and fragment index; zeros for an empty queue (R160). The absent subject of a
notice is written 65,535, as in its packet's header (12.2), and the absent number of a REPLY packet 0 (DEDUCED, log entry 52). -/
def headBytes (q : List Packet) : List Byte :=
  match q with
  | [] => List.replicate 7 0
  | p :: _ => beBytes 2 (p.subject.getD 65535) ++ beBytes 4 p.number.toNat ++ beBytes 1 p.fragIndex

/-- R160. -/
def poolResults (k : Pool) : Results :=
  let queues := [k.reply, k.label, k.sound, k.picture]
  [num 2 k.free.length, some (k.owners.vals.map ownerBytes).flatten, some (queues.map queueBytes).flatten,
    some (queues.map headBytes).flatten]

/-- R179, for a link. The absent subject of a notice or a PROBE in the slot is answered 65,535, as in its packet's header
(DEDUCED, log entry 52). -/
def schedResults (s : State) (h : LinkSched) : Results :=
  let t := h.slot
  let r := h.reservation
  let e := h.inFlight.head?
  [num 2 h.credit, num 1 h.carry, t.map fun t => beBytes 1 t.packet.kind.code,
    t.map fun t => beBytes 2 (t.packet.subject.getD 65535), t.map fun t => beBytes 1 t.packet.fragIndex,
    t.map fun t => beBytes 1 t.epoch.toNat, t.map fun t => beBytes 2 t.seq.toNat,
    t.map fun t => beBytes 4 (s.tbu.tick - t.offered).toNat, num 2 h.inFlight.length,
    e.map fun e => beBytes 2 e.seq.toNat, e.map fun e => beBytes 4 e.tick.toNat, num 2 h.nextSeq.toNat,
    num 2 h.lastAck.toNat, num 1 h.epoch.toNat, r.map fun r => beBytes 1 r.prog, r.map fun r => beBytes 4 r.pic.toNat,
    r.map fun r => beBytes 1 r.expects, num 2 h.taken, num 2 h.lateDrops, num 2 h.stale, num 2 h.repeated,
    num 2 h.invalid, num 2 h.ignoredTaken]

/-- R179, without a link. The slot state of a link is 1 where its slot is occupied and 2 where it is absent (DEDUCED, log entry
52). -/
def schedulerResults (h : Scheduler) : Results :=
  [num 2 h.ignoredHome,
    some (h.links.vals.map fun k => byteOf (onOff k.slot.isSome) :: beBytes 2 k.inFlight.length).flatten]

/-- R196, for a link. -/
def linkResults (s : State) (r : LinkRecord) : Results :=
  let v := if r.state = .proving then r.proving else none
  [num 1 r.state.code, num 4 r.reported, num 4 r.capacity, num 1 r.code.toNat] ++ settingsResults r.settings ++
  [v.map fun p => beBytes 1 p.sent, v.map fun p => beBytes 1 p.retired, v.map fun p => beBytes 4 (ticksLeft s p.deadline),
    r.retry.map fun t => beBytes 4 (ticksLeft s t),
    if r.state = .degraded then some ((members r.degrading).map fun c => byteOf (c.val + 1)) else none,
    r.recovery.map fun t => beBytes 4 (ticksLeft s t.tick), r.window.map fun w => beBytes 4 w.start.toNat,
    r.window.map fun w => beBytes 4 w.handed, r.window.map fun w => beBytes 4 w.retired, r.openCommand.map openBytes,
    r.firstFault.map fun f => beBytes 1 f.cls.code ++ beBytes 4 f.tick.toNat ++ [f.code] ++ beBytes 2 f.later,
    some (r.faults.vals.map (beBytes 2)).flatten]

/-- R196, without a link. -/
def supervisorResults (s : State) : Results :=
  [some (s.lsu.vals.map fun r => byteOf r.state.code :: beBytes 4 r.capacity).flatten]

/-- R207, the Station Ring Interface. -/
def ringResults (r : Ring) : Results :=
  [num 1 r.output.val, some ((members r.onAir).map fun p => byteOf p.val), num 1 r.queue.length, num 2 r.unrouted,
    num 2 r.wrongKind, num 2 r.discarded]

/-- R207, a stream's entry and, for a CONTROL or DESK stream, the cells its partial message holds. -/
def streamEntryResults (r : Ring) (i : RingStream) : Results :=
  let d := r.table.get i
  [some [byteOf d.codes.1, byteOf d.codes.2],
    match d with
      | .control | .desk _ => num 1 (((r.partials.get i).map (·.received)).getD 0)
      | _ => none]

/-- A command queue's length and head tag; the tag of an empty queue is 0 (R207). -/
def commandQueueBytes (q : List Msg) : List Byte := [byteOf q.length, ((q.head?).map (·.hdr.tag)).getD 0]

/-- R207, the Command Unit. -/
def commandUnitResults (c : CommandUnit) : Results :=
  [num 1 c.authority.code, whether c.noticesHome, some (commandQueueBytes c.van ++ commandQueueBytes c.home),
    whether c.held.isSome, some (c.flags.vals.map fun f => byteOf (onOff f.set) :: beBytes 2 f.counter).flatten,
    num 1 c.notices.length, num 1 c.homeNotices.length, num 2 c.overflow]

/-! ### The clear option (R160, R179, R196, R207) -/

def LinkSched.clearCounts (h : LinkSched) : LinkSched :=
  { h with taken := 0, lateDrops := 0, stale := 0, repeated := 0, invalid := 0, ignoredTaken := 0 }

def LinkRecord.clearFaults (r : LinkRecord) : LinkRecord := { r with firstFault := none, faults := Table.replicate 5 0 }

/-- The pool's refused counts are set to 0 (R160). -/
def clearRefused (s : State) : State :=
  let clear : OwnerRecord → OwnerRecord := fun r => { r with refused := 0 }
  s.onPool fun k => { k with owners := k.owners.map clear }

/-- Keeps the state unless the query carries the clear option. -/
def clearIf (clear : Bool) (f : State → State) (s : State) : State := if clear then f s else s

/-- A query's answer and the state it leaves. -/
def answerWith (r : Results) (s : State) : State × Reply := (s, { status := .done, results := r })

/-- A query answered by an object of a block, or refused where the object is not the block's. -/
def answerObject {n : Nat} (o : Option (Fin n)) (f : Fin n → State × Reply) (s : State) : State × Reply :=
  match o with
  | some i => f i
  | none => (s, { status := .refusedRange })

/-- The one object number of an object of a given kind (12.1). -/
def objectNumber (n kind : Nat) (o : Nat × List Nat) : Option (Fin n) :=
  match o.2 with
  | [v] => if o.1 = kind then finOf n v else none
  | _ => none

/-- A query of the Sound Mixer (R105). -/
def queryMixer (object : Option (Nat × List Nat)) (s : State) : State × Reply :=
  let base := mixerResults s
  match object with
  | none => answerWith base s
  | some (4, [v]) => answerObject (finOf 32 v) (fun k => answerWith (base ++ inputResults s k) s) s
  | some (5, [v]) => answerObject (finOf 8 v) (fun b => answerWith (base ++ busResults (busOf s b)) s) s
  | some (6, [v, w]) =>
    answerObject (finOf 32 v) (fun k =>
      answerObject (finOf 8 w) (fun b => answerWith (base ++ crossResults (crossOf s k b)) s) s) s
  | some (7, [v]) => answerObject (finOf 4 v) (fun t => answerWith (base ++ triggerResults (triggerOf s t)) s) s
  | some _ => (s, { status := .refusedRange })

/-- STATUS-QUERY of block `b`, by its number of 12.1 (R207). The forms without an object are DEDUCED, log entry 43; the
numbers of results, log entries 50 to 54. -/
def queryBlock (b : Nat) (object : Option (Nat × List Nat)) (clear : Bool) (s : State) : State × Reply :=
  match b, object with
  | 1, none => answerWith (ringResults s.sri) s
  | 1, some o =>
    answerObject (objectNumber 256 9 o) (fun i => answerWith (ringResults s.sri ++ streamEntryResults s.sri i) s) s
  | 2, none => answerWith (timebaseResults s) s
  | 3, some o => answerObject (objectNumber 4 3 o) (fun p => answerWith (programmeResults s p) s) s
  | 4, some (2, l) =>
    answerObject (objectNumber 8 2 (2, l)) (fun e => answerWith (formatResults (s.pgc.formats.get e)) s) s
  | 4, some o => answerObject (objectNumber 4 1 o) (fun p => answerWith (programmeResults s p) s) s
  | 5, none => answerWith (engineResults s) s
  | 5, some o => answerObject (objectNumber 4 1 o) (fun p => answerWith (loopResults s p) s) s
  | 6, none => answerWith (allocatorResults s) s
  | 6, some o => answerObject (objectNumber 4 1 o) (fun p => answerWith (rateResults (rateOf s p)) s) s
  | 7, o => queryMixer o s
  | 8, none => answerWith [num 2 (soundReserve s)] s
  | 8, some o =>
    answerObject (objectNumber 4 8 o) (fun i =>
      answerWith (num 2 (soundReserve s) :: streamResults s (s.sdp.get i)) s) s
  | 9, none => answerWith (clipMarkerResults s.clm) s
  | 10, none => answerWith (poolResults s.pkp) (clearIf clear clearRefused s)
  | 10, some o =>
    answerObject (objectNumber 6 10 o) (fun i =>
      let r := s.pkp.owners.get i
      answerWith [num 2 r.count, num 2 r.cap, num 2 r.refused] (clearIf clear clearRefused s)) s
  | 11, none => answerWith (schedulerResults s.hsc) (clearIf clear (·.onHsc fun h => { h with ignoredHome := 0 }) s)
  | 11, some o =>
    answerObject (objectNumber 4 11 o) (fun l =>
      answerWith (schedResults s (sched s l)) (clearIf clear (·.onSched l LinkSched.clearCounts) s)) s
  | 12, none => answerWith (supervisorResults s) (clearIf clear (fun s => { s with lsu := s.lsu.map (·.clearFaults) }) s)
  | 12, some o =>
    answerObject (objectNumber 4 11 o) (fun l =>
      answerWith (linkResults s (link s l)) (clearIf clear (·.onLink l LinkRecord.clearFaults) s)) s
  | 13, none => answerWith (commandUnitResults s.cmu) s
  | _, _ => (s, { status := .refusedRange })

/-- STATUS-QUERY (R207). -/
def statusQuery (f : QueryFields) (s : State) : State × Reply :=
  match f.block with
  | some b => queryBlock b f.object f.clear s
  | none => (s, { status := .refusedRange })

end Sys2Proof.Machine
end

