-- ==== Sys2Proof/Machine/Command.lean ====
section
/-! DEFINITION. The Command Unit (chapter 11): the judgement of a message at the head of its queue, the owners' commands,
replies on the ring and home, EVENTS-CLEAR, AUTHORITY-SET, the two RESETs, and the joining of the queues. -/

namespace Sys2Proof.Machine

/-! ### The Command Unit's own commands (R206, R208) -/

/-- EVENTS-CLEAR (R208). -/
def eventsClear (l : ClearList) (s : State) : State × Reply :=
  match l with
  | .all => (s.onCmu fun c => { c with flags := Table.replicate 19 {} }, { status := .done })
  | .flags l =>
    match l.mapM fun v => finOf 19 (if v = 0 then 19 else v - 1) with
    | none => (s, { status := .refusedRange })
    | some fs => (fs.foldl (fun s f => clearFlag f s) s, { status := .done })

/-- AUTHORITY-SET (R206). -/
def authoritySet (f : AuthorityFields) (s : State) : State × Reply :=
  match Authority.ofCode (f.authority.getD s.cmu.authority.code), onOffOfCode (f.noticesHome.getD (onOff s.cmu.noticesHome)) with
  | some a, some n => (s.onCmu fun c => { c with authority := a, noticesHome := n }, { status := .done })
  | _, _ => (s, { status := .refusedRange })

/-! ### The judgement at dispatch (R204) -/

/-- A desk may issue the command (R204, the table's last column). -/
def deskCommand : Command → Bool
  | .clipMark _ _ | .clipLabel _ _ | .clipQuery _ | .clipSettings _ => true
  | .statusQuery f => !f.clear
  | _ => false

/-- The query form of a setting command, or the form of CLIP-SETTINGS with no field (R204, Note 1). -/
def queryForm : Command → Bool
  | .rateSet f => f.prog.isSome && f == { prog := f.prog }
  | .inputMap f => f.entries.isEmpty && f.output.isNone
  | .inputSet f => f.input.isSome && f == { input := f.input }
  | .soundStreamSet f => f.stream.isSome && f == { stream := f.stream }
  | .clipSettings f => f == {}
  | .linkSet f => f.link.isSome && f == { link := f.link }
  | _ => false

/-- The command needs authority (R204, the table's third column). -/
def needsAuthority : Command → Bool
  | .clipMark _ _ | .clipLabel _ _ | .clipQuery _ | .authoritySet _ => false
  | .statusQuery f => f.clear
  | c => !queryForm c

/-- The authority setting includes an origin (R204, step 5). -/
def includes (a : Authority) (o : Origin) : Bool :=
  match a, o with
  | .both, _ | .van, .van | .home, .home => true
  | _, _ => false

/-- Steps 3 to 5 of R204 refuse the command. -/
def unauthorised (a : Authority) (src : Src) (c : Command) : Bool :=
  (match src with
    | .van _ (some _) => !deskCommand c
    | _ => false) ||
  (match src, c with
    | .home, .authoritySet _ => true
    | _, _ => false) ||
  (needsAuthority c && !includes a (srcOrigin src))

/-! ### The owners (R204 to R211) -/

/-- A command that passes goes to its owner. A RESET ALL that passes does not come here (`resetAll`). -/
def perform (m : Msg) (c : Command) (s : State) : State × Reply :=
  match c with
  | .timebaseSet f => timebaseSet f s
  | .formatSet f => formatSet f s
  | .programmeSet f => programmeSet f s
  | .programmeStart p => programmeStart m.hdr p s
  | .programmeStop p mode flush => programmeStop m.hdr p mode flush s
  | .refresh p => refreshCommand p s
  | .rateSet f => rateSet f s
  | .inputMap f => inputMap f s
  | .inputSet f => inputSet f s
  | .mixSet l => mixSet l s
  | .busSet f => busSet f s
  | .triggerSet f => triggerSet f s
  | .soundStreamSet f => soundStreamSet f s
  | .clipMark action f => clipMark m.hdr.src action f s
  | .clipLabel ref text => clipLabel m.hdr.src ref text s
  | .clipQuery ref => clipQuery m.hdr.src ref s
  | .clipSettings f => clipSettings f s
  | .linkSet f => linkSet f s
  | .linkUp l => linkUp m.hdr l s
  | .linkDown l => linkDown l s
  | .linkClear l => linkClear m.hdr l s
  | .statusQuery f => statusQuery f s
  | .eventsClear l => eventsClear l s
  | .authoritySet f => authoritySet f s
  | .reset 1 =>
    (resetMediaBlocks (match m.hdr.src with
      | .home => [m]
      | .van _ _ => []) s, { status := .done })
  | .reset _ => (s, { status := .refusedRange })

/-- The answer to the head command of a queue, and the state its owner leaves (R204). -/
def answer (m : Msg) (s : State) : State × Reply :=
  match m.body with
  | .malformed => (raiseFlag .malformed s, { status := .malformed })
  | .unknown => (s, { status := .unknown })
  | .command c =>
    if unauthorised s.cmu.authority m.hdr.src c then (s, { status := .refusedAuthority }) else perform m c s

/-- The message is a RESET ALL that its judgement lets pass (R204, R212). -/
def isResetAll (m : Msg) (s : State) : Bool :=
  match m.body with
  | .command (.reset 2) => !unauthorised s.cmu.authority m.hdr.src (.reset 2)
  | _ => false

/-- RESET ALL: power-on reset, then its reply as the first cell of the emptied ring output queue (R212). -/
def resetAll (m : Msg) (s : State) : State :=
  let s1 := resetBlocks s
  s1.onSri fun r => { r with queue := replyCells r.output m.hdr.tag (({ status := .done } : Reply).bytes m) }

/-! ### Replies (R205) -/

/-- A reply goes to the ring: its cells join the ring output queue, and the command leaves the VAN queue. -/
def replyVan (m : Msg) (r : Reply) (s : State) : State :=
  (s.onSri fun q => { q with queue := q.queue ++ replyCells q.output m.hdr.tag (r.bytes m) }).onCmu fun c =>
    { c with van := c.van.tail }

/-- The head command of the HOME queue has been answered and leaves it. -/
def leaveHome (s : State) : State := s.onCmu fun c => { c with home := c.home.tail, held := none }

/-- A home reply asks for its blocks: granted, it is queued and its command leaves the HOME queue; refused, it is held. The
reply is held before the refusal raises POOL-REFUSED, so the home copy of that flag's notice asks for no block of its own
(R210; the worked sequence of chapter 11, row 5). -/
def offerHome (tag : Byte) (body : List Byte) (s : State) : State :=
  match request .labelReply (blocksFor (Config.packetHeaderBytes + body.length))
      (s.onCmu fun c => { c with held := some { tag := tag, bytes := body } }) with
  | (some bs, s1) => leaveHome (appendPackets .reply [replyPacket (some tag) body bs s.tbu.tick] s1)
  | (none, s1) => s1

/-! ### The queues at work (R203) -/

/-- The head of the VAN queue is dispatched and answered. -/
def dispatchVan (m : Msg) (s : State) : State :=
  if isResetAll m s then resetAll m s
  else
    let r := answer m s
    replyVan m r.2 r.1

/-- The head of the HOME queue is dispatched and answered. -/
def dispatchHome (m : Msg) (s : State) : State :=
  if isResetAll m s then resetAll m s
  else
    let r := answer m s
    offerHome m.hdr.tag (r.2.bytes m) r.1

/-- The VAN queue works on its head while the ring output queue has room for the largest reply. -/
def serveVan : Nat → State → State
  | 0, s => s
  | fuel + 1, s =>
    match s.cmu.van with
    | [] => s
    | m :: _ =>
      if s.sri.queue.length + Config.replyCells ≤ Config.ringQueue then serveVan fuel (dispatchVan m s) else s

/-- The HOME queue works on its head while no held reply waits. -/
def serveHome : Nat → State → State
  | 0, s => s
  | fuel + 1, s =>
    match s.cmu.home, s.cmu.held with
    | m :: _, none => serveHome fuel (dispatchHome m s)
    | _, _ => s

/-- Both queues do what they can, VAN first (DEDUCED, log entry 38). -/
def serve (s : State) : State :=
  let s1 := serveVan s.cmu.van.length s
  serveHome s1.cmu.home.length s1

/-- What every command ends with: the queues do what they can, and the take attempts asked for are made. -/
def finish (s : State) : State := settleTakes (serve s)

/-! ### Messages join their queue (R203) -/

/-- The reply to a message that finds its queue full. -/
def queueFull : Reply := { status := .queueFull }

/-- A message from the ring joins the VAN queue or is answered QUEUE-FULL (R203). -/
def joinVan (m : Msg) (s : State) : State :=
  if s.cmu.van.length < Config.commandQueue then s.onCmu fun c => { c with van := c.van ++ [m] }
  else if s.sri.queue.length < Config.ringQueue then
    raiseFlag .commandOverflow
      (s.onSri fun q => { q with queue := q.queue ++ replyCells q.output m.hdr.tag (queueFull.bytes m) })
  else raiseFlag .commandOverflow (s.onCmu fun c => { c with overflow := satInc c.overflow })

/-- A message from home joins the HOME queue or is answered QUEUE-FULL (R203). -/
def joinHome (m : Msg) (s : State) : State :=
  if s.cmu.home.length < Config.commandQueue then s.onCmu fun c => { c with home := c.home ++ [m] }
  else match request .labelReply 1 s with
    | (some bs, s1) =>
      raiseFlag .commandOverflow
        (appendPackets .reply [replyPacket (some m.hdr.tag) (queueFull.bytes m) bs s.tbu.tick] s1)
    | (none, s1) => raiseFlag .commandOverflow (s1.onCmu fun c => { c with overflow := satInc c.overflow })

/-- A complete message joins the queue of its origin (R203). -/
def submit (m : Msg) (s : State) : State :=
  match m.hdr.src with
  | .van _ _ => joinVan m s
  | .home => joinHome m s

/-- A command message of a known kind joins its queue, and the queues do what they can. -/
def takeCommand (h : Hdr) (c : Command) (s : State) : State :=
  finish (submit { hdr := h, kind := commandKind c, body := bodyOf c } s)

/-! ### The period start (R205, R210) -/

/-- The held reply asks again; granted, its command leaves the queue and the next heads are dispatched (R205). -/
def retryHeld (s : State) : State :=
  match s.cmu.held with
  | none => s
  | some h =>
    let s1 := offerHome h.tag h.bytes s
    serveHome s1.cmu.home.length s1

/-- The home notices ask in their order, up to the first refusal (R210). -/
def sendHomeNotices : Nat → State → State
  | 0, s => s
  | fuel + 1, s =>
    match sendHomeNotice raiseFlag s with
    | (true, s1) => sendHomeNotices fuel s1
    | (false, s1) => s1

/-- The Command Unit's part of a period start (R205, R210). -/
def retryHome (s : State) : State :=
  let s1 := retryHeld s
  if s1.cmu.held.isNone then sendHomeNotices s1.cmu.homeNotices.length s1 else s1

end Sys2Proof.Machine
end

