-- ==== Sys2Proof/Machine/Cells.lean ====
section
/-! DEFINITION. The Station Ring Interface at work: the form and the routing of arriving cells, message assembly, and the
part's output slot (R199, R201, R202, R213). -/

namespace Sys2Proof.Machine

/-! ### Counts (R199, R202, R213) -/

def countUnrouted (s : State) : State := s.onSri fun r => { r with unrouted := satInc r.unrouted }
def countWrongKind (s : State) : State := s.onSri fun r => { r with wrongKind := satInc r.wrongKind }

/-- A stream has another partial message, or none. -/
def setPartial (i : RingStream) (p : Option Assembling) (s : State) : State :=
  s.onSri fun r => { r with partials := r.partials.set i p }

/-- A cell or partial message is discarded: the assembly-discard count gains one and MALFORMED is raised (R202, R213). -/
def discardAssembly (s : State) : State := raiseFlag .malformed (s.onSri fun r => { r with discarded := satInc r.discarded })

/-! ### Message assembly (R202) -/

/-- The origin of a message assembled on a stream, by the stream's entry; none where the entry takes no messages. -/
def assemblySrc (d : Dest) (i : RingStream) : Option Src :=
  match d with
  | .desk k => some (.van i (some k))
  | .control => some (.van i none)
  | _ => none

/-- The cell count holds the length (R213): a one-cell message has 0 to 56 bytes, one of `n` cells (n − 1) × 56 + 1 to
n × 56. -/
def lengthFits (cells length : Nat) : Bool :=
  decide (length ≤ cells * Config.cellBody) && (decide ((cells - 1) * Config.cellBody < length) || (cells == 1))

/-- The message that complete cells spell. -/
def assembled (src : Src) (a : Assembling) : Msg where
  hdr := { src := src, tag := a.tag }
  kind := a.kind
  body := if lengthFits a.cells a.length then parseMessage a.kind (a.bytes.take a.length) else .malformed

/-- A partial message that has just gained a cell: complete, it passes to the Command Unit; otherwise it waits. -/
def assemble (src : Src) (i : RingStream) (a : Assembling) (s : State) : State :=
  if a.cells ≤ a.received then submit (assembled src a) (setPartial i none s) else setPartial i (some a) s

/-- A routed CONTROL-first cell (R202). -/
def firstCell (src : Src) (i : RingStream) (kind tag : Byte) (count length : Nat) (body : List Byte) (s : State) : State :=
  let s1 := if (s.sri.partials.get i).isSome then discardAssembly (setPartial i none s) else s
  assemble src i { kind := kind, tag := tag, cells := count, length := length, received := 1, bytes := body } s1

/-- A routed CONTROL-continuation cell (R202). -/
def continuationCell (src : Src) (i : RingStream) (index : Nat) (body : List Byte) (s : State) : State :=
  match s.sri.partials.get i with
  | none => discardAssembly s
  | some a =>
    if a.received = index then assemble src i { a with received := a.received + 1, bytes := a.bytes ++ body } s
    else discardAssembly (setPartial i none s)

/-! ### Tally (R201) -/

/-- A routed tally cell of good form (R201). -/
def takeTally (t : Table 4 Bool) (s : State) : State := judgeTally t (s.onSri fun r => { r with onAir := t })

/-! ### Form and routing (R199, R213) -/

/-- A cell of good form on stream `i` is routed: `use` where the entry takes its kind, or is counted (R199). -/
def route (i : RingStream) (use : Dest → Option (State → State)) (s : State) : State :=
  match s.sri.table.get i with
  | .none => countUnrouted s
  | d =>
    match use d with
    | some f => f s
    | none => countWrongKind s

/-- A SOUND cell arrives (R85, R199). -/
def soundCell (i : RingStream) (c : BlockNo) (samples : SoundBlock) (s : State) : State :=
  route i (fun
    | .soundInput k => some (soundArrival k c samples)
    | _ => none) s

/-- A TALLY cell arrives (R201, R213). -/
def tallyCell (i : RingStream) (count : Byte) (body : List Byte) (s : State) : State :=
  match tallySet count body with
  | none => s
  | some t =>
    route i (fun
      | .tally => some (takeTally t)
      | _ => none) s

/-- The form of a CONTROL-first cell is wrong (R213). -/
def badFirst (count length : Nat) : Bool := count == 0 || decide (8 < count) || decide (Config.maxMessage < length)

/-- A CONTROL-first cell arrives (R202, R213). -/
def controlFirst (i : RingStream) (kind tag : Byte) (count length : Nat) (body : List Byte) (s : State) : State :=
  if badFirst count length then discardAssembly (setPartial i none s)
  else route i (fun d => (assemblySrc d i).map fun src => firstCell src i kind tag count length body) s

/-- A CONTROL-continuation cell arrives (R202). -/
def controlContinuation (i : RingStream) (index : Nat) (body : List Byte) (s : State) : State :=
  route i (fun d => (assemblySrc d i).map fun src => continuationCell src i index body) s

/-- A cell of kind REPLY or NOTICE on any stream, or of no kind (R199, R213). -/
def otherCell (i : RingStream) (kind : Byte) (s : State) : State :=
  if kind.toNat = 5 ∨ kind.toNat = 6 then route i (fun _ => none) s else countWrongKind s

/-- A cell arrives (R199, R213). -/
def ringCell (c : RingCell) (s : State) : State :=
  match c with
  | .sound i b samples => soundCell i b samples s
  | .tally i n body => tallyCell i n body s
  | .first i kind tag count length body => controlFirst i kind tag count.toNat length.toNat body s
  | .continuation i index body => controlContinuation i index.toNat body s
  | .other i kind => otherCell i kind s

/-! ### The output slot (R199) -/

/-- A ring frame's output slot takes the head of the ring output queue, or else the oldest notice's cell (R199, R209). -/
def fillSlot (s : State) : State :=
  match s.sri.queue, s.cmu.notices with
  | c :: rest, _ => s.onSri fun r => { r with slot := some c, queue := rest }
  | [], n :: rest => (s.onSri fun r => { r with slot := some (noticeCell r.output n) }).onCmu fun c => { c with notices := rest }
  | [], [] => s.onSri fun r => { r with slot := none }

end Sys2Proof.Machine
end

