-- ==== Sys2Proof/Machine/Returns.lean ====
section
/-! DEFINITION. What the modems deliver (R170, R175 to R178, R182, R192, R214, R215): acknowledgements, refresh requests,
command packets, and the reports of capacity, faults and handovers. -/

namespace Sys2Proof.Machine

/-- The ignored home request count gains one (R175, R178, R214, R215). -/
def ignoreHome (s : State) : State := s.onHsc fun h => { h with ignoredHome := satInc h.ignoredHome }

/-! ### TAKEN reports (R170) -/

/-- The packet of the handover slot enters the in-flight list (R170, R171). -/
def LinkSched.handOver (now : Tick) (t : Slot) (h : LinkSched) : LinkSched :=
  { h with
    slot := none
    inFlight := h.inFlight ++ [{ seq := t.seq, packet := t.packet, tick := now }]
    nextSeq := h.nextSeq + 1 }

/-- A packet counted in a link's measuring window (R191). -/
def windowHanded (p : Packet) (r : LinkRecord) : LinkRecord :=
  if p.kind = .probe then r else { r with window := r.window.map fun w => { w with handed := w.handed + 1 } }

def windowRetired (p : Packet) (r : LinkRecord) : LinkRecord :=
  if p.kind = .probe then r else { r with window := r.window.map fun w => { w with retired := w.retired + 1 } }

/-- The clip number of a LABEL packet. -/
def labelNumber (p : Packet) : Option Nat := if p.kind = .label then p.subject else none

/-- The Clip Marker is told what has happened to a LABEL packet. -/
def tellLabel (f : Nat → State → State) (p : Packet) (s : State) : State :=
  match labelNumber p with
  | some n => f n s
  | none => s

/-- A TAKEN report that matches the slot (R170). -/
def handOver (l : Link) (t : Slot) (s : State) : State :=
  let s1 := s.onSched l (·.handOver s.tbu.tick t)
  let s2 := s1.onLink l (windowHanded t.packet)
  oweTake l (tellLabel labelTaken t.packet s2)

/-- A TAKEN report (R170). -/
def takenReport (l : Link) (epoch : Epoch) (seq : Seq) (s : State) : State :=
  match (sched s l).slot with
  | some t =>
    if t.epoch = epoch ∧ t.seq = seq then handOver l t s
    else s.onSched l fun h => { h with ignoredTaken := satInc h.ignoredTaken }
  | none => s.onSched l fun h => { h with ignoredTaken := satInc h.ignoredTaken }

/-! ### Acknowledgements (R175, R176) -/

/-- One retired entry: its blocks are released, and the Clip Marker or the Link Supervisor is told (R176). -/
def retireEntry (l : Link) (e : InFlight) (s : State) : State :=
  let s1 := s.onPool fun k => k.releasePacket e.packet
  let s2 := tellLabel labelRetired e.packet s1
  let s3 := s2.onLink l (windowRetired e.packet)
  if e.packet.kind = .probe then probeRetired l s3 else s3

/-- A current acknowledgement retires the oldest `k` entries, up to sequence `a` (R176); where the list is then below 256
entries the link has an attempt (R165). -/
def retire (l : Link) (k : Nat) (a : Seq) (s : State) : State :=
  let entries := (sched s l).inFlight
  let s1 := s.onSched l fun h => { h with inFlight := h.inFlight.drop k, lastAck := a }
  let s2 := (entries.take k).foldl (fun s e => retireEntry l e s) s1
  if (entries.drop k).length < Config.inFlightMax then oweTake l s2 else s2

/-- The judgement of an acknowledgement's sequence (R175). -/
inductive AckCase where
  | repeated | current | invalid
deriving DecidableEq, Repr

/-- R175's table: advance `k` against outstanding count `m`. -/
def ackCase (k m : Nat) : AckCase :=
  if k = 0 then .repeated
  else if 32768 ≤ k then .repeated
  else if k ≤ m then .current
  else .invalid

/-- An acknowledgement of link `l` (R175). -/
def ackLink (l : Link) (epoch : Epoch) (a : Seq) (s : State) : State :=
  let h := sched s l
  if (link s l).state = .down ∨ (link s l).state = .held ∨ h.epoch ≠ epoch then
    s.onSched l fun h => { h with stale := satInc h.stale }
  else
    let k := (a - h.lastAck).toNat
    let m := (h.nextSeq - 1 - h.lastAck).toNat
    match ackCase k m with
    | .repeated => s.onSched l fun h => { h with repeated := satInc h.repeated }
    | .current => retire l k a s
    | .invalid => raiseFlag .ackInvalid (s.onSched l fun h => { h with invalid := satInc h.invalid })

/-- An ACK return packet (R175). -/
def ackPacket (n : Byte) (epoch : Epoch) (a : Seq) (s : State) : State :=
  match finOf 4 n.toNat with
  | some l => ackLink l epoch a s
  | none => ignoreHome s

/-! ### REFRESH and CONTROL (R35, R178, R214) -/

/-- A REFRESH return packet (R35, R178). -/
def refreshReturn (n : Byte) (s : State) : State :=
  match finOf 4 n.toNat with
  | some p => homeRefresh p s
  | none => ignoreHome s

/-- What a CONTROL packet's message spells: MALFORMED where its length is not the one it states, or is above 448 (R214). -/
def controlBody (kind : Byte) (length : Nat) (message : List Byte) : Body :=
  if length = message.length ∧ length ≤ Config.maxMessage then parseMessage kind message else .malformed

/-- A CONTROL return packet (R178, R214). -/
def controlReturn (kind tag : Byte) (length : Nat) (message : List Byte) (s : State) : State :=
  submit { hdr := { src := .home, tag := tag }, kind := kind, body := controlBody kind length message } s

/-- A return packet, by its kind (R178, R214). -/
def returnPacket (p : ReturnPacket) (s : State) : State :=
  match p with
  | .ack l e a => ackPacket l e a s
  | .refresh n => refreshReturn n s
  | .control kind tag length message => controlReturn kind tag length.toNat message s
  | .bad => ignoreHome s

/-- A report of one link's modem, by its kind (R178, R215). -/
def modemReport (l : Link) (r : ModemReport) (s : State) : State :=
  match r with
  | .capacity c => takeCapacity l c.toNat s
  | .fault code => takeFaultReport l code s
  | .taken e a => takenReport l e a s
  | .bad => ignoreHome s

end Sys2Proof.Machine
end

