-- ==== Sys2Proof/Machine/Events.lean ====
section
/-! DEFINITION. The events of the Timebase Unit and of the link timers: the work of a period start, of a code start and of a
block event, what is due at the present tick, and the ticks themselves. -/

namespace Sys2Proof.Machine

/-! ### Period start, code start, block event (R7 to R9) -/

/-- The deliveries of a period start, once the Timebase Unit has made it: Programme Controller, Rate Allocator, Clip Marker
and Command Unit (R7, R26, R63, R133, R142, R205, R210). -/
def deliverPeriod (s : State) : State :=
  let s1 := allocation ((s.tbu.period.map (·.length)).getD 0) (firstAllocated s)
  let s2 := countPostRoll s1
  retryHome (retryLabels s2.clm.waiting.length s2)

/-- A period start (R6, R7). -/
def startPeriod (s : State) : State := deliverPeriod (s.onTbu Timebase.startPeriod)

/-- The period start, if it is due. -/
def periodIfDue (s : State) : State := if periodDue s then startPeriod s else s

/-- The oldest pending code start, if it is due (R8). -/
def codeStartIfDue (s : State) : State :=
  match codeStartDue s with
  | some c => takeCodeStart c (s.onTbu fun t => { t with codeStarts := t.codeStarts.tail })
  | none => s

/-- The code starts that are due, oldest first. -/
def codeStartsDue : Nat → State → State
  | 0, s => s
  | fuel + 1, s => if (codeStartDue s).isSome then codeStartsDue fuel (codeStartIfDue s) else s

/-- The block event, if it is due (R9). -/
def blockIfDue (s : State) : State :=
  if s.tbu.blockDue then blockWork (endedBlock s) (s.onTbu fun t => { t with blockDue := false }) else s

/-! ### The timers of a link (chapter 10) -/

/-- The proving deadline, if it is due (R187). -/
def deadlineIfDue (l : Link) (s : State) : State := if provingDeadlineDue l s then failProving l s else s

/-- The retry expiry, if it is due: the link enters PROVING (R195). -/
def retryIfDue (l : Link) (s : State) : State := if retryDue l s then enterProving l none s else s

/-- The further probe, if it is due (R185). -/
def probeIfDue (l : Link) (s : State) : State := if probeDue l s then buildProbe l s else s

/-- The recovery expiry, if it is due (R194). -/
def recoveryIfDue (l : Link) (s : State) : State := if recoveryDue l s then expireRecovery l s else s

/-- The end of the measuring window, if it is due (R191). -/
def windowIfDue (l : Link) (s : State) : State := if windowDue l s then endWindow l s else s

/-- The ACK-TIMEOUT of the oldest entry, if it is due (R190). -/
def timeoutIfDue (l : Link) (s : State) : State := if ackTimeoutDue l s then timeOutOldest l s else s

/-- Everything that one link's timers have due. -/
def timersIfDue (l : Link) (s : State) : State :=
  timeoutIfDue l (windowIfDue l (recoveryIfDue l (probeIfDue l (retryIfDue l (deadlineIfDue l s)))))

/-- Everything that is due at the present tick and has not been taken is taken, so that no event is lost when the next tick
is (R6, R8, R9); the order is a DESIGN CHOICE, log entry 3. -/
def catchUp (s : State) : State :=
  let s1 := periodIfDue s
  let s2 := codeStartsDue s1.tbu.codeStarts.length s1
  four.foldl (fun s l => timersIfDue l s) (blockIfDue s2)

/-! ### Ticks (R2 to R5, R199) -/

/-- The state before a tick or a frame is judged: what was due is taken and settled. -/
def caughtUp (s : State) : State := finish (catchUp s)

/-- A ring frame start: the frame's output slot, then its judgement (DEDUCED, log entry 5); the frame
start that completes the lock is the first period start (R2 to R6, R199). -/
def ringFrame (elapsed : Nat) (s : State) : State :=
  let s1 := fillSlot (caughtUp s)
  let t := s1.tbu.frameStart elapsed
  let s2 := s1.onTbu fun _ => t.1
  if t.2 then startPeriod s2 else s2

/-- A missed frame (R3 to R5). -/
def missFrame (s : State) : State :=
  let s1 := caughtUp s
  let t := s1.tbu.frameMissed
  let s2 := s1.onTbu fun _ => t.1
  if t.2 then raiseFlag .holdover s2 else s2

/-- A tick of the local reference (R5). -/
def localTick (s : State) : State := (caughtUp s).onTbu Timebase.localTick

end Sys2Proof.Machine
end

