-- ==== Sys2Proof/Machine/TimebaseEvents.lean ====
section
/-! DEFINITION. The rows of the reset pin, the Timebase Unit, the coder and the camera ports (chapters 1 to 3), one meaning for each. -/

namespace Sys2Proof.Machine

/-- The outcome of a command: every command of the part answers a next state. -/
abbrev Result := Host.Outcome State Fault Refusal

/-- POWER_ON_RESET (R212 and each block's own rule): the reset pin. -/
def execPowerOnReset (s : State) : Result :=
  .next (resetBlocks s)

/-- RING_FRAME_START (R2 to R5, R199). -/
def execRingFrameStart (elapsed : Nat) (s : State) : Result :=
  .next (finish (ringFrame elapsed s))

/-- MISSED_FRAME (R2 to R5). -/
def execMissedFrame (s : State) : Result :=
  .next (finish (missFrame s))

/-- LOCAL_TICK (R5); outside HOLDOVER the local reference takes no tick of this kind. -/
def execLocalTick (s : State) : Result :=
  .next (finish (localTick s))

/-- PERIOD_START (R6, R7), taken where it is due. -/
def execPeriodStart (s : State) : Result :=
  .next (finish (periodIfDue s))

/-- CODE_START (R8), taken where it is due. -/
def execCodeStart (s : State) : Result :=
  .next (finish (codeStartIfDue s))

/-- FRAGMENT_CLOSE (R54, R55): the band in coding has filled a fragment of 1,312 bytes. -/
def execFragmentClose (s : State) : Result :=
  .next (finish (closeFragment (blocksFor (Config.packetHeaderBytes + Config.fragmentBytes)) s))

/-- BAND_COMPLETION (R42): the band in coding ends with its whole coded output. -/
def execBandCompletion (coded : List Byte) (s : State) : Result :=
  .next (finish (bandEnds coded s))

/-- BLOCK_EVENT (R9), taken where it is due. -/
def execBlockEvent (s : State) : Result :=
  .next (finish (blockIfDue s))

/-- PICTURE_START_SIGNAL (R17). -/
def execPictureStartSignal (port : Prog) (s : State) : Result :=
  .next (finish (pictureStarts port s))

/-- PICTURE_END_COMPLETE (R17, R20). -/
def execPictureEndComplete (port : Prog) (s : State) : Result :=
  .next (finish (pictureCompletes port s))

/-- PICTURE_END_BROKEN (R17). -/
def execPictureEndBroken (port : Prog) (s : State) : Result :=
  .next (finish (pictureBreaks port s))

end Sys2Proof.Machine
end

