-- ==== Sys2Proof/Machine/CommandEvents.lean ====
section
/-! DEFINITION. The rows of the command messages (R203 to R212), one meaning for each. -/

namespace Sys2Proof.Machine

/-- TIMEBASE_SET (R12): the message joins its queue (R203), is judged (R204), taken by its owner and answered (R205). -/
def execTimebaseSet (m : Hdr) (f : TimebaseFields) (s : State) : Result :=
  .next (takeCommand m (.timebaseSet f) s)

/-- FORMAT_SET (R22): the message joins its queue (R203), is judged (R204), taken by its owner and answered (R205). -/
def execFormatSet (m : Hdr) (f : FormatFields) (s : State) : Result :=
  .next (takeCommand m (.formatSet f) s)

/-- PROGRAMME_SET (R23, R24, R32): the message joins its queue (R203), is judged (R204), taken by its owner and answered (R205). -/
def execProgrammeSet (m : Hdr) (f : ProgFields) (s : State) : Result :=
  .next (takeCommand m (.programmeSet f) s)

/-- PROGRAMME_START (R25): the message joins its queue (R203), is judged (R204), taken by its owner and answered (R205). -/
def execProgrammeStart (m : Hdr) (prog : Option Nat) (s : State) : Result :=
  .next (takeCommand m (.programmeStart prog) s)

/-- PROGRAMME_STOP_CUT (R27, R28, R31): the message joins its queue (R203), is judged (R204), taken by its owner and answered (R205). -/
def execProgrammeStopCut (m : Hdr) (prog : Option Nat) (flush : Bool) (s : State) : Result :=
  .next (takeCommand m (.programmeStop prog 1 flush) s)

/-- PROGRAMME_STOP_FINISH (R29, R31): the message joins its queue (R203), is judged (R204), taken by its owner and answered (R205). -/
def execProgrammeStopFinish (m : Hdr) (prog : Option Nat) (flush : Bool) (s : State) : Result :=
  .next (takeCommand m (.programmeStop prog 2 flush) s)

/-- PROGRAMME_STOP_FREEZE (R30, R31): the message joins its queue (R203), is judged (R204), taken by its owner and answered (R205). -/
def execProgrammeStopFreeze (m : Hdr) (prog : Option Nat) (flush : Bool) (s : State) : Result :=
  .next (takeCommand m (.programmeStop prog 3 flush) s)

/-- REFRESH (R36): the message joins its queue (R203), is judged (R204), taken by its owner and answered (R205). -/
def execRefresh (m : Hdr) (prog : Option Nat) (s : State) : Result :=
  .next (takeCommand m (.refresh prog) s)

/-- RATE_SET (R67, R68): the message joins its queue (R203), is judged (R204), taken by its owner and answered (R205). -/
def execRateSet (m : Hdr) (f : RateFields) (s : State) : Result :=
  .next (takeCommand m (.rateSet f) s)

/-- INPUT_MAP (R200): the message joins its queue (R203), is judged (R204), taken by its owner and answered (R205). -/
def execInputMap (m : Hdr) (f : MapFields) (s : State) : Result :=
  .next (takeCommand m (.inputMap f) s)

/-- INPUT_SET (R97): the message joins its queue (R203), is judged (R204), taken by its owner and answered (R205). -/
def execInputSet (m : Hdr) (f : InputFields) (s : State) : Result :=
  .next (takeCommand m (.inputSet f) s)

/-- MIX_SET (R98): the message joins its queue (R203), is judged (R204), taken by its owner and answered (R205). -/
def execMixSet (m : Hdr) (entries : List MixEntry) (s : State) : Result :=
  .next (takeCommand m (.mixSet entries) s)

/-- BUS_SET (R99): the message joins its queue (R203), is judged (R204), taken by its owner and answered (R205). -/
def execBusSet (m : Hdr) (f : BusFields) (s : State) : Result :=
  .next (takeCommand m (.busSet f) s)

/-- TRIGGER_SET (R100, R104): the message joins its queue (R203), is judged (R204), taken by its owner and answered (R205). -/
def execTriggerSet (m : Hdr) (f : TriggerFields) (s : State) : Result :=
  .next (takeCommand m (.triggerSet f) s)

/-- SOUND_STREAM_SET (R108): the message joins its queue (R203), is judged (R204), taken by its owner and answered (R205). -/
def execSoundStreamSet (m : Hdr) (f : StreamFields) (s : State) : Result :=
  .next (takeCommand m (.soundStreamSet f) s)

/-- CLIP_MARK_IN (R125 to R127): the message joins its queue (R203), is judged (R204), taken by its owner and answered (R205). -/
def execClipMarkIn (m : Hdr) (f : MarkFields) (s : State) : Result :=
  .next (takeCommand m (.clipMark 1 f) s)

/-- CLIP_MARK_OUT (R131): the message joins its queue (R203), is judged (R204), taken by its owner and answered (R205). -/
def execClipMarkOut (m : Hdr) (f : MarkFields) (s : State) : Result :=
  .next (takeCommand m (.clipMark 2 f) s)

/-- CLIP_MARK_EXTEND (R132): the message joins its queue (R203), is judged (R204), taken by its owner and answered (R205). -/
def execClipMarkExtend (m : Hdr) (f : MarkFields) (s : State) : Result :=
  .next (takeCommand m (.clipMark 3 f) s)

/-- CLIP_MARK_CANCEL (R135): the message joins its queue (R203), is judged (R204), taken by its owner and answered (R205). -/
def execClipMarkCancel (m : Hdr) (f : MarkFields) (s : State) : Result :=
  .next (takeCommand m (.clipMark 4 f) s)

/-- CLIP_LABEL (R136): the message joins its queue (R203), is judged (R204), taken by its owner and answered (R205). -/
def execClipLabel (m : Hdr) (ref : ClipRef) (text : Option (List Byte)) (s : State) : Result :=
  .next (takeCommand m (.clipLabel ref text) s)

/-- CLIP_QUERY (R138): the message joins its queue (R203), is judged (R204), taken by its owner and answered (R205). -/
def execClipQuery (m : Hdr) (ref : ClipRef) (s : State) : Result :=
  .next (takeCommand m (.clipQuery ref) s)

/-- CLIP_SETTINGS (R137): the message joins its queue (R203), is judged (R204), taken by its owner and answered (R205). -/
def execClipSettings (m : Hdr) (f : ClipSettingsFields) (s : State) : Result :=
  .next (takeCommand m (.clipSettings f) s)

/-- LINK_SET (R183): the message joins its queue (R203), is judged (R204), taken by its owner and answered (R205). -/
def execLinkSet (m : Hdr) (f : LinkFields) (s : State) : Result :=
  .next (takeCommand m (.linkSet f) s)

/-- LINK_UP (R184): the message joins its queue (R203), is judged (R204), taken by its owner and answered (R205). -/
def execLinkUp (m : Hdr) (link : Option Nat) (s : State) : Result :=
  .next (takeCommand m (.linkUp link) s)

/-- LINK_DOWN (R188): the message joins its queue (R203), is judged (R204), taken by its owner and answered (R205). -/
def execLinkDown (m : Hdr) (link : Option Nat) (s : State) : Result :=
  .next (takeCommand m (.linkDown link) s)

/-- LINK_CLEAR (R196): the message joins its queue (R203), is judged (R204), taken by its owner and answered (R205). -/
def execLinkClear (m : Hdr) (link : Option Nat) (s : State) : Result :=
  .next (takeCommand m (.linkClear link) s)

/-- STATUS_QUERY (R207): the message joins its queue (R203), is judged (R204), taken by its owner and answered (R205). -/
def execStatusQuery (m : Hdr) (f : QueryFields) (s : State) : Result :=
  .next (takeCommand m (.statusQuery f) s)

/-- EVENTS_CLEAR (R208): the message joins its queue (R203), is judged (R204), taken by its owner and answered (R205). -/
def execEventsClear (m : Hdr) (l : ClearList) (s : State) : Result :=
  .next (takeCommand m (.eventsClear l) s)

/-- RESET_MEDIA (R211): the message joins its queue (R203), is judged (R204), taken by its owner and answered (R205). -/
def execResetMedia (m : Hdr) (s : State) : Result :=
  .next (takeCommand m (.reset 1) s)

/-- RESET_ALL (R212): the message joins its queue (R203), is judged (R204), taken by its owner and answered (R205). -/
def execResetAll (m : Hdr) (s : State) : Result :=
  .next (takeCommand m (.reset 2) s)

/-- AUTHORITY_SET (R206): the message joins its queue (R203), is judged (R204), taken by its owner and answered (R205). -/
def execAuthoritySet (m : Hdr) (f : AuthorityFields) (s : State) : Result :=
  .next (takeCommand m (.authoritySet f) s)

/-- UNKNOWN_COMMAND (R204): a complete message of any kind byte, judged by its bytes like any other. -/
def execUnknownCommand (m : Hdr) (kind : Byte) (message : List Byte) (s : State) : Result :=
  .next (finish (submit { hdr := m, kind := kind, body := parseMessage kind message } s))

end Sys2Proof.Machine
end

