-- ==== Sys2Proof/Machine/ReturnEvents.lean ====
section
/-! DEFINITION. The rows of return packets, modem reports, link timers and trigger answers (chapters 5, 9 and 10), one meaning for each. -/

namespace Sys2Proof.Machine

/-- ACK (R175, R176). -/
def execAck (link epoch : Byte) (seq : Seq) (s : State) : Result :=
  .next (finish (ackPacket link epoch seq s))

/-- REFRESH_PACKET (R35, R178). -/
def execRefreshPacket (prog : Byte) (s : State) : Result :=
  .next (finish (refreshReturn prog s))

/-- CONTROL_PACKET (R178, R203, R214). -/
def execControlPacket (kind tag : Byte) (length : BitVec 16) (message : List Byte) (s : State) : Result :=
  .next (finish (controlReturn kind tag length.toNat message s))

/-- CAPACITY_REPORT (R182, R192). -/
def execCapacityReport (link : Link) (capacity : BitVec 32) (s : State) : Result :=
  .next (finish (takeCapacity link capacity.toNat s))

/-- FAULT_REPORT (R182, R192, R194). -/
def execFaultReport (link : Link) (code : Byte) (s : State) : Result :=
  .next (finish (takeFaultReport link code s))

/-- TAKEN_REPORT (R170). -/
def execTakenReport (link : Link) (epoch : Epoch) (seq : Seq) (s : State) : Result :=
  .next (finish (takenReport link epoch seq s))

/-- PROBE_BUILD (R185), taken where it is due. -/
def execProbeBuild (link : Link) (s : State) : Result :=
  .next (finish (probeIfDue link s))

/-- PROVING_DEADLINE (R187), taken where it is due. -/
def execProvingDeadline (link : Link) (s : State) : Result :=
  .next (finish (deadlineIfDue link s))

/-- RETRY_EXPIRY (R195), taken where it is due. -/
def execRetryExpiry (link : Link) (s : State) : Result :=
  .next (finish (retryIfDue link s))

/-- RECOVERY_EXPIRY (R194), taken where it is due. -/
def execRecoveryExpiry (link : Link) (s : State) : Result :=
  .next (finish (recoveryIfDue link s))

/-- WINDOW_END (R191), taken where it is due. -/
def execWindowEnd (link : Link) (s : State) : Result :=
  .next (finish (windowIfDue link s))

/-- ACK_TIMEOUT (R190), taken where it is due. -/
def execAckTimeout (link : Link) (s : State) : Result :=
  .next (finish (timeoutIfDue link s))

/-- TRIGGER_ANSWER (R102). -/
def execTriggerAnswer (trigger : Fin 4) (s : State) : Result :=
  .next (finish (answerTrigger trigger s))

/-- IGNORED_RETURN_PACKET (R178, R214): a return packet as its bytes, judged and dispatched like any other. -/
def execIgnoredReturnPacket (bytes : List Byte) (s : State) : Result :=
  .next (finish (returnPacket (parseReturn bytes) s))

/-- IGNORED_MODEM_REPORT (R215): a report as its bytes, judged and taken like any other. -/
def execIgnoredModemReport (link : Link) (bytes : List Byte) (s : State) : Result :=
  .next (finish (modemReport link (parseReport bytes) s))

end Sys2Proof.Machine
end

