-- ==== Sys2Proof/Machine/RingEvents.lean ====
section
/-! DEFINITION. The rows of the station ring's cells (R85, R199, R201, R202, R213), one meaning for each. -/

namespace Sys2Proof.Machine

/-- SOUND_CELL (R85, R86, R199). -/
def execSoundCell (stream : RingStream) (block : BlockNo) (samples : SoundBlock) (s : State) : Result :=
  .next (finish (soundCell stream block samples s))

/-- TALLY_CELL (R201, R213). -/
def execTallyCell (stream : RingStream) (count : Byte) (body : List Byte) (s : State) : Result :=
  .next (finish (tallyCell stream count body s))

/-- CONTROL_FIRST_CELL (R202, R213). -/
def execControlFirstCell (stream : RingStream) (kind tag count : Byte) (length : BitVec 16) (body : List Byte) (s : State) : Result :=
  .next (finish (controlFirst stream kind tag count.toNat length.toNat body s))

/-- CONTROL_CONTINUATION_CELL (R202). -/
def execControlContinuationCell (stream : RingStream) (index : Byte) (body : List Byte) (s : State) : Result :=
  .next (finish (controlContinuation stream index.toNat body s))

/-- UNROUTED_CELL (R199, R213): a cell as its 64 bytes, judged and routed like any other. -/
def execUnroutedCell (cell : List Byte) (s : State) : Result :=
  .next (finish (ringCell (parseCell cell) s))

end Sys2Proof.Machine
end

