-- ==== Sys2Proof/Machine/Dispatch.lean ====
section
/-! DEFINITION. The dispatch of a command to its meaning, one arm for each row of spec/opcode_table.json. -/

namespace Sys2Proof.Machine

def exec (i : Instr) (s : State) : Host.Outcome State Fault Refusal :=
  match i with
  | .powerOnReset => Sys2Proof.Machine.execPowerOnReset s
  | .ringFrameStart elapsed => Sys2Proof.Machine.execRingFrameStart elapsed s
  | .missedFrame => Sys2Proof.Machine.execMissedFrame s
  | .localTick => Sys2Proof.Machine.execLocalTick s
  | .periodStart => Sys2Proof.Machine.execPeriodStart s
  | .codeStart => Sys2Proof.Machine.execCodeStart s
  | .fragmentClose => Sys2Proof.Machine.execFragmentClose s
  | .bandCompletion coded => Sys2Proof.Machine.execBandCompletion coded s
  | .blockEvent => Sys2Proof.Machine.execBlockEvent s
  | .pictureStartSignal port => Sys2Proof.Machine.execPictureStartSignal port s
  | .pictureEndComplete port => Sys2Proof.Machine.execPictureEndComplete port s
  | .pictureEndBroken port => Sys2Proof.Machine.execPictureEndBroken port s
  | .soundCell stream block samples => Sys2Proof.Machine.execSoundCell stream block samples s
  | .tallyCell stream count body => Sys2Proof.Machine.execTallyCell stream count body s
  | .controlFirstCell stream kind tag count length body => Sys2Proof.Machine.execControlFirstCell stream kind tag count length body s
  | .controlContinuationCell stream index body => Sys2Proof.Machine.execControlContinuationCell stream index body s
  | .timebaseSet m f => Sys2Proof.Machine.execTimebaseSet m f s
  | .formatSet m f => Sys2Proof.Machine.execFormatSet m f s
  | .programmeSet m f => Sys2Proof.Machine.execProgrammeSet m f s
  | .programmeStart m prog => Sys2Proof.Machine.execProgrammeStart m prog s
  | .programmeStopCut m prog flush => Sys2Proof.Machine.execProgrammeStopCut m prog flush s
  | .programmeStopFinish m prog flush => Sys2Proof.Machine.execProgrammeStopFinish m prog flush s
  | .programmeStopFreeze m prog flush => Sys2Proof.Machine.execProgrammeStopFreeze m prog flush s
  | .refresh m prog => Sys2Proof.Machine.execRefresh m prog s
  | .rateSet m f => Sys2Proof.Machine.execRateSet m f s
  | .inputMap m f => Sys2Proof.Machine.execInputMap m f s
  | .inputSet m f => Sys2Proof.Machine.execInputSet m f s
  | .mixSet m entries => Sys2Proof.Machine.execMixSet m entries s
  | .busSet m f => Sys2Proof.Machine.execBusSet m f s
  | .triggerSet m f => Sys2Proof.Machine.execTriggerSet m f s
  | .soundStreamSet m f => Sys2Proof.Machine.execSoundStreamSet m f s
  | .clipMarkIn m f => Sys2Proof.Machine.execClipMarkIn m f s
  | .clipMarkOut m f => Sys2Proof.Machine.execClipMarkOut m f s
  | .clipMarkExtend m f => Sys2Proof.Machine.execClipMarkExtend m f s
  | .clipMarkCancel m f => Sys2Proof.Machine.execClipMarkCancel m f s
  | .clipLabel m ref text => Sys2Proof.Machine.execClipLabel m ref text s
  | .clipQuery m ref => Sys2Proof.Machine.execClipQuery m ref s
  | .clipSettings m f => Sys2Proof.Machine.execClipSettings m f s
  | .linkSet m f => Sys2Proof.Machine.execLinkSet m f s
  | .linkUp m link => Sys2Proof.Machine.execLinkUp m link s
  | .linkDown m link => Sys2Proof.Machine.execLinkDown m link s
  | .linkClear m link => Sys2Proof.Machine.execLinkClear m link s
  | .statusQuery m f => Sys2Proof.Machine.execStatusQuery m f s
  | .eventsClear m l => Sys2Proof.Machine.execEventsClear m l s
  | .resetMedia m => Sys2Proof.Machine.execResetMedia m s
  | .resetAll m => Sys2Proof.Machine.execResetAll m s
  | .authoritySet m f => Sys2Proof.Machine.execAuthoritySet m f s
  | .unknownCommand m kind message => Sys2Proof.Machine.execUnknownCommand m kind message s
  | .ack link epoch seq => Sys2Proof.Machine.execAck link epoch seq s
  | .refreshPacket prog => Sys2Proof.Machine.execRefreshPacket prog s
  | .controlPacket kind tag length message => Sys2Proof.Machine.execControlPacket kind tag length message s
  | .capacityReport link capacity => Sys2Proof.Machine.execCapacityReport link capacity s
  | .faultReport link code => Sys2Proof.Machine.execFaultReport link code s
  | .takenReport link epoch seq => Sys2Proof.Machine.execTakenReport link epoch seq s
  | .probeBuild link => Sys2Proof.Machine.execProbeBuild link s
  | .provingDeadline link => Sys2Proof.Machine.execProvingDeadline link s
  | .retryExpiry link => Sys2Proof.Machine.execRetryExpiry link s
  | .recoveryExpiry link => Sys2Proof.Machine.execRecoveryExpiry link s
  | .windowEnd link => Sys2Proof.Machine.execWindowEnd link s
  | .ackTimeout link => Sys2Proof.Machine.execAckTimeout link s
  | .triggerAnswer trigger => Sys2Proof.Machine.execTriggerAnswer trigger s
  | .unroutedCell cell => Sys2Proof.Machine.execUnroutedCell cell s
  | .ignoredReturnPacket bytes => Sys2Proof.Machine.execIgnoredReturnPacket bytes s
  | .ignoredModemReport link bytes => Sys2Proof.Machine.execIgnoredModemReport link bytes s

end Sys2Proof.Machine
end

