-- ==== Sys2Proof/Safety.lean ====
section
/-! DEFINITION. The terms in which statements about the part are made: when a command finds nothing else to do, the ring
reply a command receives, what the end of a band and a fault of a link do, and the invariants of the Timebase Unit, the
acceptance table, the command queues and the clip table. -/

namespace Sys2Proof.Machine

/-! ### States in which a command does its own work and nothing else -/

/-- No take attempt is owed (the mark is clear between commands). -/
def NoOwed (s : State) : Prop := ∀ l, (sched s l).owed = false

/-- Nothing waits in the Command Unit's queues and no take attempt is owed. -/
def Quiet (s : State) : Prop := NoOwed s ∧ s.cmu.van = [] ∧ s.cmu.home = []

/-- Nothing that the Timebase Unit or a link timer has due is untaken. -/
def NothingDue (s : State) : Prop :=
  periodDue s = false ∧ codeStartDue s = none ∧ s.tbu.blockDue = false ∧
  ∀ l, provingDeadlineDue l s = false ∧ retryDue l s = false ∧ probeDue l s = false ∧ recoveryDue l s = false ∧
    windowDue l s = false ∧ ackTimeoutDue l s = false

/-- No link is UP or DEGRADED, so no link takes a packet (R165). -/
def NoLinkCarries (s : State) : Prop := ∀ l, (link s l).state.carries = false

/-- No link can take: each is neither UP nor DEGRADED, or has its handover slot occupied, or 256 packets in flight (R165). -/
def NoLinkTakes (s : State) : Prop :=
  ∀ l, (link s l).state.carries = false ∨ (sched s l).slot.isSome = true ∨ 256 ≤ (sched s l).inFlight.length

/-- The four class queues are empty. -/
def QueuesEmpty (s : State) : Prop := s.pkp.reply = [] ∧ s.pkp.label = [] ∧ s.pkp.sound = [] ∧ s.pkp.picture = []

/-- A setting command of header `h` finds its way free: nothing waits, it came on the ring's control stream `i`, VAN has
authority, and the ring output queue has room for the largest reply (R203, R204). -/
def VanReady (h : Hdr) (i : RingStream) (s : State) : Prop :=
  Quiet s ∧ h.src = .van i none ∧ s.cmu.authority ≠ .home ∧ s.sri.queue.length + 8 ≤ 64

/-- The Station Ring Interface once the reply to a command of kind `kind`, on stream `i`, has joined its output queue: the
status by its number of 11.3, and the results (R205, 12.1). -/
def ringReply (r : Ring) (h : Hdr) (i : RingStream) (kind status : Byte) (results : List (Option (List Byte))) : Ring :=
  { r with queue := r.queue ++ replyCells r.output h.tag ([kind, status, byteOf i.val, 0] ++ records 1 results) }

/-- A value clamped to a range replaces the stored one where the field is present (chapter "Conventions"). -/
def loaded (lo hi stored : Nat) : Option Nat → Nat
  | none => stored
  | some v => if v < lo then lo else if hi < v then hi else v

/-- A present value lies outside its range. -/
def outside (lo hi : Nat) : Option Nat → Bool
  | none => false
  | some v => decide (v < lo) || decide (hi < v)

/-- The number of DONE-CLAMPED where a value was clamped, and of DONE where none was (11.3). -/
def doneCode (clamped : Bool) : Byte := if clamped then 2 else 1

/-- The target delay of R110 for the stream `t` linked to a programme of camera latency `c`, under the cadence of `u`. -/
def linkedDelay (u : Timebase) (c : Nat) (t : SoundStream) : Nat :=
  (min 96000 (max 0 (((c * u.base + c * u.num / u.den : Nat) : Int) + t.trim))).toNat

/-- Two records of a programme differ at most in the refresh-owed mark and its count, which a packet dropped late sets in
any programme (R167). -/
def ExceptMarks (r r' : Programme) : Prop := r = { r' with refreshOwed := r.refreshOwed, causes := r.causes }

/-- What no PROGRAMME-STOP, picture arrival or clip command changes: `t` is as `s` was in the Timebase Unit, the Rate
Allocator, the mixer, the sound streams, the link records, the format table and the waiting commands. -/
def SteadyFrom (s t : State) : Prop :=
  t.pending = s.pending ∧ t.tbu = s.tbu ∧ t.ral = s.ral ∧ t.smx = s.smx ∧ t.sdp = s.sdp ∧ t.lsu = s.lsu ∧
  t.pgc.formats = s.pgc.formats

/-- Only programme `p` may code: every other one is IDLE, READY or PAIRED and has no picture in progress. -/
def Alone (p : Prog) (s : State) : Prop :=
  ∀ q, q ≠ p → entryOf s q = none ∧
    ((prog s q).state = .idle ∨ (prog s q).state = .ready ∨ (prog s q).state = .paired)

/-! ### Flags -/

/-- The Command Unit once flag `f` is raised: set, its counter one higher, and one notice of it where it was clear (R208), with
room in the notice queue and no home copy. -/
def flagRaised (f : EventFlag) (s : State) : CommandUnit :=
  { s.cmu with
    flags := s.cmu.flags.set f.idx { set := true, counter := min ((s.cmu.flags.get f.idx).counter + 1) 65535 }
    notices := s.cmu.notices ++ if (s.cmu.flags.get f.idx).set then [] else [{
      body := .flag f (min ((s.cmu.flags.get f.idx).counter + 1) 65535), tick := s.tbu.tick, pic := s.tbu.pic }] }

/-! ### Takes (R165 to R169) -/

/-- R165: link `l` can take. -/
def LinkTakes (l : Link) (s : State) : Prop :=
  (link s l).state.carries = true ∧ (sched s l).slot = none ∧ (sched s l).inFlight.length < 256

/-- R166: packet `p` of class `c`, between `skipped` and `rest` in its class queue, is the candidate of link `l`. -/
structure Candidate (l : Link) (s : State) (c : QueueClass) (skipped : List Packet) (p : Packet) (rest : List Packet) : Prop where
  stands : s.pkp.queue c = skipped ++ p :: rest
  permitted : permits (link s l) c = true
  noReply : c ≠ .reply → permits (link s l) .reply = true → s.pkp.reply = []
  noLabel : c = .sound ∨ c = .picture → permits (link s l) .label = true → s.pkp.label = []
  noSound : c = .picture → permits (link s l) .sound = true → s.pkp.sound = []
  first : c ≠ .picture → skipped = []
  reserved : ∀ r, c = .picture → (sched s l).reservation = some r → r.covers p = true ∧ ∀ q ∈ skipped, r.covers q = false
  free : c = .picture → (sched s l).reservation = none →
    (∀ k r, k ≠ l → (sched s k).reservation = some r → r.covers p = false) ∧
    ∀ q ∈ skipped, ∃ k r, k ≠ l ∧ (sched s k).reservation = some r ∧ r.covers q = true

/-- R152: the packet's deadline has passed at the present tick. -/
def Late (s : State) (p : Packet) : Prop :=
  ∃ d, p.deadline = some d ∧ 1 ≤ (s.tbu.tick - d).toNat ∧ (s.tbu.tick - d).toNat ≤ 2147483647

/-- R168, R169: the state in which link `l` has taken packet `p` from its queue, of which `queue` is left. -/
def takenBy (l : Link) (c : QueueClass) (p : Packet) (queue : List Packet) (s : State) : State :=
  { s with
    pkp := s.pkp.setQueue c queue
    hsc := { s.hsc with
      links := s.hsc.links.modify l fun k => { k with
        credit := k.credit - p.size
        slot := some { packet := p, epoch := k.epoch, seq := k.nextSeq, offered := s.tbu.tick }
        taken := min (k.taken + 1) 65535
        reservation :=
          if p.kind = .picture then
            if p.fragIndex < p.fragCount then
              some { prog := p.subject.getD 0, pic := p.number, band := p.band, expects := p.fragIndex + 1 }
            else none
          else k.reservation } } }

/-- R167: the state in which link `l` has dropped the late packet `p` from its queue, of which `queue` is left. -/
def droppedBy (l : Link) (c : QueueClass) (p : Packet) (queue : List Packet) (s : State) : State :=
  { s with
    pkp := (s.pkp.setQueue c queue).releasePacket p
    hsc := { s.hsc with
      links := s.hsc.links.modify l fun k => { k with
        lateDrops := min (k.lateDrops + 1) 65535
        reservation := k.reservation.bind fun r =>
          if r.covers p then if p.fragIndex < p.fragCount then some { r with expects := p.fragIndex + 1 } else none
          else some r } }
    pgc := { s.pgc with
      progs := Table.ofFn fun q =>
        if p.kind = .picture ∧ ∃ r : Prog, p.subject = some r.val ∧ fold s r = q then
          { prog s q with refreshOwed := true, causes := min ((prog s q).causes + 1) 65535 }
        else prog s q }
    cmu := flagRaised .lateDrop s }

/-- R166 to R168: a take attempt of a link `l` that can take leads from one state to another. -/
inductive TakeAttempt (l : Link) : State → State → Prop
  | noCandidate {s : State} : (∀ c skipped p rest, ¬ Candidate l s c skipped p rest) → TakeAttempt l s s
  | noCredit {s : State} {c : QueueClass} {skipped rest : List Packet} {p : Packet} :
      Candidate l s c skipped p rest → ¬ Late s p → (sched s l).credit < p.size → TakeAttempt l s s
  | take {s : State} {c : QueueClass} {skipped rest : List Packet} {p : Packet} :
      Candidate l s c skipped p rest → ¬ Late s p → p.size ≤ (sched s l).credit →
      TakeAttempt l s (takenBy l c p (skipped ++ rest) s)
  | drop {s t : State} {c : QueueClass} {skipped rest : List Packet} {p : Packet} :
      Candidate l s c skipped p rest → Late s p → s.cmu.noticesHome = false → s.cmu.notices.length < 32 →
      TakeAttempt l (droppedBy l c p (skipped ++ rest) s) t → TakeAttempt l s t

/-! ### Command messages and their judgement (R204) -/

/-- The header and the command of a row that stands for a complete command message of one of the 25 kinds. -/
def messageOf : Instr → Option (Hdr × Command)
  | .timebaseSet h f => some (h, .timebaseSet f)
  | .formatSet h f => some (h, .formatSet f)
  | .programmeSet h f => some (h, .programmeSet f)
  | .programmeStart h n => some (h, .programmeStart n)
  | .programmeStopCut h n flush => some (h, .programmeStop n 1 flush)
  | .programmeStopFinish h n flush => some (h, .programmeStop n 2 flush)
  | .programmeStopFreeze h n flush => some (h, .programmeStop n 3 flush)
  | .refresh h n => some (h, .refresh n)
  | .rateSet h f => some (h, .rateSet f)
  | .inputMap h f => some (h, .inputMap f)
  | .inputSet h f => some (h, .inputSet f)
  | .mixSet h l => some (h, .mixSet l)
  | .busSet h f => some (h, .busSet f)
  | .triggerSet h f => some (h, .triggerSet f)
  | .soundStreamSet h f => some (h, .soundStreamSet f)
  | .clipMarkIn h f => some (h, .clipMark 1 f)
  | .clipMarkOut h f => some (h, .clipMark 2 f)
  | .clipMarkExtend h f => some (h, .clipMark 3 f)
  | .clipMarkCancel h f => some (h, .clipMark 4 f)
  | .clipLabel h ref text => some (h, .clipLabel ref text)
  | .clipQuery h ref => some (h, .clipQuery ref)
  | .clipSettings h f => some (h, .clipSettings f)
  | .linkSet h f => some (h, .linkSet f)
  | .linkUp h n => some (h, .linkUp n)
  | .linkDown h n => some (h, .linkDown n)
  | .linkClear h n => some (h, .linkClear n)
  | .statusQuery h f => some (h, .statusQuery f)
  | .eventsClear h l => some (h, .eventsClear l)
  | .authoritySet h f => some (h, .authoritySet f)
  | .resetMedia h => some (h, .reset 1)
  | .resetAll h => some (h, .reset 2)
  | _ => none

/-- A list field of the command holds a number of entries outside its range (R204, step 1; the ranges are those of the rules
R200, R97, R98, R100, R125 and R208). -/
def ListOut : Command → Prop
  | .inputMap f => 32 < f.entries.length
  | .inputSet f => ∃ l, f.groups = some l ∧ 8 < l.length
  | .mixSet l => l = [] ∨ 32 < l.length
  | .triggerSet f => ∃ l, f.cameras = some l ∧ 4 < l.length
  | .clipMark _ f => ∃ l, f.cameras = some l ∧ (l = [] ∨ 4 < l.length)
  | .eventsClear l => ∃ names, l = .flags names ∧ (names = [] ∨ 19 < names.length)
  | _ => False

/-- A desk stream may give the command (R204, the table's last column). -/
def DeskMay : Command → Prop
  | .clipMark _ _ | .clipLabel _ _ | .clipQuery _ | .clipSettings _ => True
  | .statusQuery f => f.clear = false
  | _ => False

/-- The command needs no authority (R204, the table's third column and Note 1). -/
def NeedsNone : Command → Prop
  | .rateSet f => ∃ n, f = { prog := some n }
  | .inputMap f => f = {}
  | .inputSet f => ∃ n, f = { input := some n }
  | .soundStreamSet f => ∃ n, f = { stream := some n }
  | .clipMark _ _ | .clipLabel _ _ | .clipQuery _ | .authoritySet _ => True
  | .clipSettings f => f = {}
  | .linkSet f => ∃ n, f = { link := some n }
  | .statusQuery f => f.clear = false
  | _ => False

/-- The command is shut out where it comes from source `src` under authority `a` (R204, steps 3 to 5). -/
def ShutOut (a : Authority) (src : Src) (c : Command) : Prop :=
  match src with
  | .van _ desk => desk ≠ none ∧ ¬ DeskMay c ∨ a = .home ∧ ¬ NeedsNone c
  | .home => (∃ f, c = .authoritySet f) ∨ a = .van ∧ ¬ NeedsNone c

/-- The bytes are a run of field records, each an identifier, a value length and the value (12.1). -/
def FieldsFill (bytes : List Byte) : Prop :=
  ∃ fields : List (Byte × List Byte), (∀ f ∈ fields, f.2.length < 256) ∧
    bytes = (fields.map fun f => f.1 :: byteOf f.2.length :: f.2).flatten

/-- The reply of tag `tag` and body `body` is on its way home (R205): a REPLY packet of the label-and-reply owner, with the tag
as its subject and no deadline, waits in the REPLY queue or, taken since, in the handover slot of a link. -/
def OnItsWay (tag : Byte) (body : List Byte) (s : State) : Prop :=
  ∃ p : Packet, (p.kind = .reply ∧ p.owner = some .labelReply ∧ p.subject = some tag.toNat ∧ p.number = 0 ∧
      p.stamp = s.tbu.tick ∧ p.deadline = none ∧ p.size = 16 + body.length ∧
      p.blocks.length = (16 + body.length + 255) / 256 ∧ p.payload = body) ∧
    (p ∈ s.pkp.reply ∨ ∃ l t, (sched s l).slot = some t ∧ t.packet = p)

/-! ### Faults of a link -/

/-- A fault of link `l` finds room for the two notices it may queue, no home copy of them is owed, no pair is formed, no other
link can take the packets it may re-route, and the link itself has nothing to take. -/
structure FaultSettles (l : Link) (s : State) : Prop where
  noCopy : s.cmu.noticesHome = false
  room : s.cmu.notices.length + 2 ≤ 32
  unpaired : ∀ p, (prog s p).pair = false
  others : ∀ k, k ≠ l → (link s k).state.carries = false
  full : (sched s l).slot.isSome = true ∨ QueuesEmpty s

/-- The record once a fault of class `c` with modem code `code` is recorded in it (R193). -/
def withFault (c : FaultClass) (now : Tick) (code : Byte) (r : LinkRecord) : LinkRecord :=
  { r with
    faults := r.faults.set c.idx (min (r.faults.get c.idx + 1) 65535)
    firstFault := match r.firstFault with
      | none => some { cls := c, tick := now, code := code, later := 0 }
      | some f => some { f with later := min (f.later + 1) 65535 } }

/-- The Command Unit once the LINK-FAULT flag is raised (R208), with room in the notice queue and no home copy. -/
def linkFaultRaised (s : State) : CommandUnit := flagRaised .linkFault s

/-- What R193 and R194 make of a fault of class `c` with modem code `code` on link `l`, whose state is not DOWN: the part is as
`t` says. The packets of a link that is held return to the heads of their class queues (R156, R173, R189). -/
structure FaultApplied (l : Link) (c : FaultClass) (code : Byte) (s t : State) : Prop where
  held : (link s l).state = .held → t = { s with lsu := s.lsu.set l (withFault c s.tbu.tick code (link s l)) }
  ignored : (link s l).state ≠ .held → (link s l).settings.actions.get c.idx = .ignore → t = s
  reported : (link s l).state ≠ .held → (link s l).settings.actions.get c.idx = .report →
    t = { s with lsu := s.lsu.set l (withFault c s.tbu.tick code (link s l)), cmu := linkFaultRaised s }
  degraded : (link s l).state.carries = true → (link s l).settings.actions.get c.idx = .degrade →
    t = { s with
      lsu := s.lsu.set l { withFault c s.tbu.tick code (link s l) with
        state := .degraded
        degrading :=
          (if (link s l).state = .up then Table.replicate 5 false else (link s l).degrading).set c.idx true
        recovery := some { tick := s.tbu.tick + 48000, passed := false } }
      cmu := linkFaultRaised s }
  holds : ∀ ps : List Packet,
    ps = (((sched s l).inFlight.map (·.packet) ++ ((sched s l).slot.map (·.packet)).toList).filter fun p =>
      p.kind != .probe) →
    (link s l).state ≠ .held →
    (link s l).settings.actions.get c.idx = .holdLatched ∨ (link s l).settings.actions.get c.idx = .holdRetry →
    t = { s with
      lsu := s.lsu.set l { withFault c s.tbu.tick code (link s l) with
        state := .held
        retry := if (link s l).settings.actions.get c.idx = .holdRetry then
          some (s.tbu.tick + BitVec.ofNat 32 (link s l).settings.retryTime) else none
        proving := none
        degrading := Table.replicate 5 false
        recovery := none
        window := none }
      pkp := { s.pkp with
        reply := (ps.filter fun p => p.kind = .reply) ++ s.pkp.reply
        label := (ps.filter fun p => p.kind = .label) ++ s.pkp.label
        sound := (ps.filter fun p => p.kind = .sound) ++ s.pkp.sound
        picture := (ps.filter fun p => p.kind = .picture) ++ s.pkp.picture }
      hsc := { s.hsc with
        links := s.hsc.links.modify l fun k => { k with
          slot := none, inFlight := [], reservation := none, credit := 0, carry := 0 } }
      cmu := { linkFaultRaised s with
        notices := (linkFaultRaised s).notices ++ if (link s l).state.carries then [{
          body := .linkHeld l c, tick := s.tbu.tick, pic := s.tbu.pic }] else [] } }

/-! ### The end of a band (R42, R52 to R58) -/

/-- R54, R56: the packets of the slice of band `b` of the picture `e`, one for each of the fragments that hold the blocks `frags`. -/
def bandPackets (coded : List Byte) (b : Band) (e : Entry) (s : State) (frags : List (List Nat)) : List Packet :=
  frags.mapIdx fun i blocks => {
    kind := .picture
    owner := some (.prog b.prog)
    subject := some b.prog.val
    number := e.pic
    band := b.band
    fragIndex := i + 1
    fragCount := (8 + coded.length + 1311) / 1312
    stamp := e.tick
    deadline := some (e.tick + BitVec.ofNat 32 ((prog s b.prog).cfg.delay * 48))
    size := 16 + min 1312 (8 + coded.length - 1312 * i)
    blocks := blocks
    payload := ((sliceHeader b.band e.bands e.type.code e.method b.quant 1 (8 + coded.length) ++ coded).drop (1312 * i)).take
      1312 }

/-- R54, R55, R148: after those that are closed already, the pool grants the next fragments of band `b` the blocks `new`, each of
as many as its packet needs, and `rest` is left of the free list. -/
structure Grants (coded : List Byte) (b : Band) (s : State) (new : List (List Nat)) (rest : List Nat) : Prop where
  free : s.pkp.free = new.flatten ++ rest
  sizes : new.map List.length = (List.range new.length).map fun i =>
    (16 + min 1312 (8 + coded.length - 1312 * (b.frags.length + i)) + 255) / 256
  cap : (s.pkp.owners.get (Owner.prog b.prog).idx).count + new.flatten.length ≤ (s.pkp.owners.get (Owner.prog b.prog).idx).cap

/-- R34, R57: band `b` is lost, and the blocks of its fragments, of which `new` had been granted last, return to the free list,
of which `rest` was left; a refresh is owed. A refusal is counted and sets POOL-REFUSED. -/
def bandLost (b : Band) (new : List (List Nat)) (rest : List Nat) (refused : Bool) (s : State) : State :=
  { s.onProg b.prog (fun r => { r with refreshOwed := true, causes := min (r.causes + 1) 65535 }) with
    pkp := { s.pkp with
      free := rest ++ (b.frags ++ new).flatten
      owners := s.pkp.owners.modify (Owner.prog b.prog).idx fun r => { r with
        refused := if refused then min (r.refused + 1) 65535 else r.refused
        count := r.count + new.flatten.length - (b.frags ++ new).flatten.length } }
    cmu := if refused then flagRaised .poolRefused s else s.cmu }

/-- R54 to R57: band `b` ends with its coded output: the state once its last fragments are closed, and the bits that join S. -/
inductive BandCloses (coded : List Byte) (b : Band) (e : Entry) (s : State) : State → Nat → Prop
  | queued {new : List (List Nat)} {rest : List Nat} : b.lost = false → Grants coded b s new rest →
      b.frags.length + new.length = (8 + coded.length + 1311) / 1312 → (8 + coded.length + 1311) / 1312 ≤ 6 →
      BandCloses coded b e s { s with
        pkp := { s.pkp with
          free := rest
          owners := s.pkp.owners.modify (Owner.prog b.prog).idx fun r => { r with count := r.count + new.flatten.length }
          picture := s.pkp.picture ++ bandPackets coded b e s (b.frags ++ new) } } (8 * coded.length)
  | refused {new : List (List Nat)} {rest : List Nat} {k : Nat} : b.lost = false → Grants coded b s new rest →
      b.frags.length + new.length < (8 + coded.length + 1311) / 1312 → b.frags.length + new.length < 6 →
      k = (16 + min 1312 (8 + coded.length - 1312 * (b.frags.length + new.length)) + 255) / 256 →
      rest.length < k ∨ (s.pkp.owners.get (Owner.prog b.prog).idx).cap <
        (s.pkp.owners.get (Owner.prog b.prog).idx).count + new.flatten.length + k →
      BandCloses coded b e s (bandLost b new rest true s) 0
  | seventh {new : List (List Nat)} {rest : List Nat} : b.lost = false → Grants coded b s new rest →
      b.frags.length + new.length = 6 → 6 < (8 + coded.length + 1311) / 1312 →
      BandCloses coded b e s (bandLost b new rest false s) 0
  | lost : b.lost = true → BandCloses coded b e s s 0

/-- R53: a skip-band slice that the pool refuses is lost: the refusal is counted, POOL-REFUSED is set and a refresh is owed. -/
def skipBandLost (p : Prog) (s : State) : State :=
  { s.onProg p (fun r => { r with refreshOwed := true, causes := min (r.causes + 1) 65535 }) with
    pkp := { s.pkp with
      owners := s.pkp.owners.modify (Owner.prog p).idx fun r => { r with refused := min (r.refused + 1) 65535 } }
    cmu := flagRaised .poolRefused s }

/-- R53: SHED emits the bands of the picture `e` after the first `done`, of which the pool grants the first `g` and refuses the
others. -/
def Sheds (p : Prog) (e : Entry) (done : Nat) (s t : State) : Prop :=
  ∃ g, done + g ≤ e.bands ∧ g ≤ s.pkp.free.length ∧
    (s.pkp.owners.get (Owner.prog p).idx).count + g ≤ (s.pkp.owners.get (Owner.prog p).idx).cap ∧
    (done + g = e.bands ∨ s.pkp.free.length = g ∨
      (s.pkp.owners.get (Owner.prog p).idx).count + g = (s.pkp.owners.get (Owner.prog p).idx).cap) ∧
    t = (skipBandLost p)^[e.bands - (done + g)] { s with
      pkp := { s.pkp with
        free := s.pkp.free.drop g
        owners := s.pkp.owners.modify (Owner.prog p).idx fun r => { r with count := r.count + g }
        picture := s.pkp.picture ++ (List.range g).map fun i => {
          kind := .picture
          owner := some (.prog p)
          subject := some p.val
          number := e.pic
          band := done + i + 1
          stamp := e.tick
          deadline := some (e.tick + BitVec.ofNat 32 ((prog s p).cfg.delay * 48))
          size := 24
          blocks := (s.pkp.free.drop i).take 1
          payload := sliceHeader (done + i + 1) e.bands e.type.code e.method 0 2 8 } } }

/-! ### The clip table (R122 to R124) -/

/-- The clip table holds at most 64 records, no two of them of one number, and none of number 0 (R122, R123); the
acknowledgement order names records of the table alone (R122, R124). -/
structure ClipsOk (m : ClipMarker) : Prop where
  size : m.clips.length ≤ 64
  distinct : (m.clips.map (·.number)).Nodup
  numbers : ∀ c ∈ m.clips, 1 ≤ c.number ∧ c.number ≤ 65535
  next : 1 ≤ m.next ∧ m.next ≤ 65535
  acked : ∀ n ∈ m.acked, n ∈ m.clips.map (·.number)

/-! ### Marks (R123, R127, R128) -/

/-- R128: `place` is the in-point of a camera of anchor history `history`, newest first, at a mark on picture `mark` under pre-roll
`preRoll`; none while it is pending. -/
def InPointPlaced (history : List Pic) (mark : Pic) (preRoll : Nat) (place : Option InPoint) : Prop :=
  (preRoll = 0 → place = if mark ∈ history then some { pic := mark, short := false } else none) ∧
  (preRoll ≠ 0 → ∀ target, target = mark - BitVec.ofNat 32 preRoll →
    (∀ newer a older, history = newer ++ a :: older → (target - a).toNat ≤ 2147483647 →
      (∀ b ∈ newer, 2147483647 < (target - b).toNat) → place = some { pic := a, short := false }) ∧
    ((∀ b ∈ history, 2147483647 < (target - b).toNat) →
      place = history.getLast?.map fun a => { pic := a, short := true }))

/-- R123, R127: in state `s`, whose table has a free place, a MARK-IN of the cameras `kept` with empty text has added the record `c`
and has left the programmes as `t` has them. -/
structure MarkedIn (source : ClipSource) (prio : Priority) (kept : List Prog) (s t : State) (c : Clip) : Prop where
  record : c = { number := c.number, state := .opened, source := source, priority := prio, mark := s.tbu.pic, cameras := c.cameras }
  number : ∃ ahead, c.number = (s.clm.next - 1 + ahead) % 65535 + 1 ∧ (∀ k ∈ s.clm.clips, k.number ≠ c.number) ∧
    ∀ j < ahead, ∃ k ∈ s.clm.clips, k.number = (s.clm.next - 1 + j) % 65535 + 1
  cameras : c.cameras.map (·.prog) = kept
  inPoints : ∀ k ∈ c.cameras, InPointPlaced (loopOf s k.prog).history s.tbu.pic s.clm.preRoll k.inPoint
  marks : ∀ p, prog t p = if { prog := p, inPoint := none } ∈ c.cameras then
    { prog s p with refreshOwed := true, causes := min ((prog s p).causes + 1) 65535 } else prog s p
  formats : t.pgc.formats = s.pgc.formats

/-- The clip table once the record `c` is added to it (R123). -/
def withRecord (c : Clip) (m : ClipMarker) : ClipMarker :=
  { m with clips := m.clips ++ [c], next := if c.number = 65535 then 1 else c.number + 1 }

/-! ### Cameras that stop (R130, R134) -/

/-- The cameras that the record keeps once `p` has left RUNNING: all but one that waits for `p` (R130). -/
def Clip.keeps (p : Prog) (c : Clip) : List ClipCamera := c.cameras.filter fun k => !(k.prog == p && k.inPoint.isNone)

/-- `p`, leaving RUNNING, is the last that the CLOSING record waited for (R134). -/
def Clip.closesWithout (p : Prog) (c : Clip) : Bool :=
  c.pendingOn p && c.state == .closing && !(c.keeps p).isEmpty && (c.keeps p).all fun k => k.inPoint.isSome

/-- R130, R134: the record once `p` has left RUNNING. One that waited for `p` loses that camera; without a camera left it is
freed; CLOSING, with nothing left to wait for, it closes at its expiry picture, no in-point lying after it. -/
def Clip.without (p : Prog) (c : Clip) : Option Clip :=
  if c.pendingOn p = false then some c
  else if c.keeps p = [] then none
  else if c.closesWithout p then
    some { c with cameras := c.keeps p, state := .closed, count := 0, expiry := none, outPoint := some (c.expiry.getD 0) }
  else some { c with cameras := c.keeps p }

/-- Number `n` is that of a record that is freed once `p` has left RUNNING (R130). -/
def ClipMarker.frees (p : Prog) (m : ClipMarker) (n : Nat) : Bool :=
  m.clips.any fun c => c.number == n && (c.without p).isNone

/-- R122, R130, R142: the Clip Marker once `p` has left RUNNING: no pointer refers to a freed record, and the records that close
join the label waiting order. -/
def withoutCamera (p : Prog) (m : ClipMarker) : ClipMarker :=
  { m with
    clips := m.clips.filterMap (Clip.without p)
    desks := m.desks.map fun d => d.filter fun n => !m.frees p n
    tally := m.tally.map fun d => d.filter fun n => !m.frees p n
    waiting := (m.waiting.filter fun n => !m.frees p n) ++ (m.clips.filter (Clip.closesWithout p)).map (·.number)
    acked := m.acked.filter fun n => !m.frees p n }

/-- R130: the notices of the records that are freed once `p` has left RUNNING. -/
def stoppedNotices (p : Prog) (s : State) : List Notice :=
  (s.clm.clips.filter fun c => (c.without p).isNone).map fun c =>
    { body := .camerasStopped c.number, tick := s.tbu.tick, pic := s.tbu.pic }

/-- `p` may leave RUNNING with nothing else to do: the clip table is well formed, there is room for the notices, and a record that
closes has no in-point after its expiry picture and finds another label waiting. -/
structure LeaveSettles (p : Prog) (s : State) : Prop where
  table : ClipsOk s.clm
  noCopy : s.cmu.noticesHome = false
  room : s.cmu.notices.length + (stoppedNotices p s).length ≤ 32
  waits : (∀ c ∈ s.clm.clips, c.closesWithout p = false) ∨ ∃ n ∈ s.clm.waiting, s.clm.frees p n = false
  inPoints : ∀ c ∈ s.clm.clips, c.closesWithout p = true → ∀ k ∈ c.keeps p, ∀ a, k.inPoint = some a →
    (c.expiry.getD 0 - a.pic).toNat ≤ 2147483647

/-! ### Sound triggers (R101 to R103) -/

/-- A trigger as an opening at run count `run` leaves it (R101, R102; that the run count stays is log entry 18). -/
def Trigger.opened (run : Nat) (v : Trigger) : Trigger :=
  { v with state := .active, run := run, fired := min (v.fired + 1) 65535, clip := .awaited }

/-- A trigger as a release at run count `run` leaves it: a recorded clip becomes absent (R101, R103; the run count as above). -/
def Trigger.released (run : Nat) (v : Trigger) : Trigger :=
  { v with
    state := .idle
    run := run
    clip := match v.clip with
      | .number _ => .absent
      | c => c }

/-- R101's table: a trigger after its step on the block peak `peak` of its bus; a disabled one takes none. -/
def Trigger.stepped (peak : Nat) (v : Trigger) : Trigger :=
  if v.hi ≤ v.lo then v
  else match v.state with
    | .idle => if v.hi ≤ peak then if v.nOpen ≤ 1 then v.opened 1 else { v with state := .arming, run := 1 } else v
    | .arming =>
      if v.hi ≤ peak then if v.nOpen ≤ v.run + 1 then v.opened (v.run + 1) else { v with run := v.run + 1 }
      else { v with state := .idle, run := 0 }
    | .active => if peak < v.lo then if v.nClose ≤ 1 then v.released 1 else { v with state := .releasing, run := 1 } else v
    | .releasing =>
      if peak < v.lo then if v.nClose ≤ v.run + 1 then v.released (v.run + 1) else { v with run := v.run + 1 }
      else { v with state := .active, run := 0 }

/-- The step opens the trigger, and no MARK-IN of it is awaited: it sends one (R102). -/
def Trigger.MarksIn (peak : Nat) (v : Trigger) : Prop :=
  (v.state = .idle ∨ v.state = .arming) ∧ (v.stepped peak).state = .active ∧ v.clip ≠ .awaited

/-- The step releases the trigger, which has recorded clip `n`: it sends the MARK-OUT of that clip (R103). -/
def Trigger.MarksOut (peak n : Nat) (v : Trigger) : Prop :=
  (v.state = .active ∨ v.state = .releasing) ∧ (v.stepped peak).state = .idle ∧ v.clip = .number n

/-! ### The figures of a STATUS-QUERY (R207) -/

/-- Block `b`, by its number of 12.1, answers a STATUS-QUERY of `object` with these figures, each by the rule that lists it; the
widths and the numbers of the choices are those of log entries 50 and 51. A query of an object of blocks 1, 7 and 8 adds to the
block's own figures. -/
inductive Figures (s : State) : Nat → Option (Nat × List Nat) → List (Option (List Byte)) → Prop
  | ring : Figures s 1 none [some (beBytes 1 s.sri.output.val), some ((members s.sri.onAir).map fun p => byteOf p.val),
      some (beBytes 1 s.sri.queue.length), some (beBytes 2 s.sri.unrouted), some (beBytes 2 s.sri.wrongKind),
      some (beBytes 2 s.sri.discarded)]
  | stream {base : List (Option (List Byte))} (i : RingStream) : Figures s 1 none base →
      Figures s 1 (some (9, [i.val])) (base ++ [
        some (match s.sri.table.get i with
          | .none => [1, 0]
          | .soundInput k => [2, byteOf k.val]
          | .tally => [3, 0]
          | .desk d => [4, byteOf d.val]
          | .control => [5, 0]),
        if s.sri.table.get i = .control ∨ ∃ d, s.sri.table.get i = .desk d then
          some (beBytes 1 (((s.sri.partials.get i).map (·.received)).getD 0)) else none])
  | timebase (c : Nat) : c = (s.tbu.pic.toNat + s.tbu.origin) % (s.tbu.rate * 86400) →
      Figures s 2 none [some (beBytes 1 s.tbu.lock.code), some (beBytes 1 s.tbu.run), some (beBytes 1 s.tbu.miss),
        some (beBytes 4 s.tbu.tick.toNat), some (beBytes 2 (s.tbu.tick.toNat / 16 % 65536)),
        some (beBytes 4 s.tbu.pic.toNat),
        some [byteOf (c / (s.tbu.rate * 3600)), byteOf (c / (s.tbu.rate * 60) % 60), byteOf (c / s.tbu.rate % 60),
          byteOf (c % s.tbu.rate)],
        some (beBytes 2 s.tbu.base), some (beBytes 1 s.tbu.num), some (beBytes 1 s.tbu.den), some (beBytes 1 s.tbu.acc),
        s.tbu.period.map fun p => beBytes 4 p.length, s.tbu.period.map fun p => beBytes 4 p.remaining,
        some (beBytes 1 s.tbu.rate), some (beBytes 4 s.tbu.origin)]
  | programme (b kind : Nat) (p : Prog) (g : ProgConfig) : g = (prog s p).cfg → b = 3 ∧ kind = 3 ∨ b = 4 ∧ kind = 1 →
      Figures s b (some (kind, [p.val])) [some (beBytes 1 (prog s p).state.code), some [if g.enable then 1 else 2],
        some (beBytes 1 g.format.val), some (beBytes 1 g.group), some (beBytes 1 g.factor), some (beBytes 1 g.qMin),
        some (beBytes 1 g.qMax), some (beBytes 1 g.offset), some (beBytes 2 g.bandLimit), some (beBytes 1 g.action.code),
        some (beBytes 1 g.latency), some (beBytes 2 g.delay), some (beBytes 1 g.hold), some (beBytes 1 g.guard),
        if p.val % 2 = 0 then some [if (prog s p).pair then 1 else 2] else none,
        some (beBytes 1 (prog s p).input.code), some (beBytes 1 (prog s p).gapCount),
        some [if (prog s p).refreshOwed then 1 else 2], some [if (prog s p).skipNext then 1 else 2],
        if (prog s p).state = .freezing then some (beBytes 1 (prog s p).remHold) else none,
        (prog s p).openStop.map fun o => [o.tag, byteOf o.origin.code], some (beBytes 2 (prog s p).causes),
        some (beBytes 2 (prog s p).ignored), some (beBytes 1 (s.ports.get p).store.length),
        some [if (s.ports.get p).delivering then 1 else 2], some (beBytes 2 (s.ports.get p).dropped)]
  | format (e : Fin 8) : Figures s 4 (some (2, [e.val]))
      [some (beBytes 1 (s.pgc.formats.get e).width), some (beBytes 1 (s.pgc.formats.get e).bands)]
  | engine : Figures s 5 none [some (beBytes 1 (([0, 1, 2, 3] : List Prog).countP fun p => (entryOf s p).isSome)),
      s.cde.band.map fun b => byteOf b.prog.val :: beBytes 4 b.pic.toNat ++ beBytes 1 b.band ++ [if b.discard then 1 else 2],
      some (beBytes 1 s.cde.lastServed.val)]
  | loop (p : Prog) (c : CodingLoop) (e : Option Entry) (b : Option Band) : c = loopOf s p → e = entryOf s p →
      (∀ v, b = some v ↔ s.cde.band = some v ∧ v.prog = p) →
      Figures s 5 (some (1, [p.val])) [some (beBytes 1 c.carried), some (beBytes 1 c.groupCount),
        some (beBytes 1 c.method.code), c.pending.map fun m => beBytes 1 m.code, c.collapse.map (beBytes 1),
        some (c.history.map fun a => beBytes 4 a.toNat).flatten, e.map fun e => beBytes 1 e.type.code,
        e.map fun e => beBytes 4 e.pic.toNat, e.map fun e => beBytes 1 e.started, e.map fun e => beBytes 1 e.done,
        e.map fun e => beBytes 4 e.produced, e.map fun e => beBytes 4 e.target, e.map fun e => beBytes 4 e.limit,
        e.map fun e => beBytes 1 e.loopQ, e.map fun e => beBytes 1 e.codingQ,
        e.map fun e => [if e.struck then 1 else 2], some [if b.isSome then 1 else 2], b.map fun b => beBytes 1 b.band,
        b.map fun b => [if b.discard then 1 else 2]]
  | allocator (f : AllocFigures) : f = s.ral.figures →
      Figures s 6 none [some (beBytes 1 s.ral.headroom), some (beBytes 2 s.ral.labelReserve), some (beBytes 4 f.usable),
        some (beBytes 2 f.soundReserve), some (beBytes 2 f.labelReserve), some (beBytes 4 f.videoPool),
        some (beBytes 2 f.weightSum), some (beBytes 4 f.minSum)]
  | rate (p : Prog) (r : RateProg) (record : RateRecord → List Byte) : r = rateOf s p →
      (∀ v, record v = beBytes 1 v.weight ++ beBytes 1 v.boost ++ beBytes 4 v.minRate ++ beBytes 4 v.maxRate ++
        beBytes 4 v.rDown ++ beBytes 4 v.rUp ++ beBytes 1 v.collapse ++ beBytes 1 v.step) →
      Figures s 6 (some (1, [p.val])) [some (record r.pending), some (record r.active), some (beBytes 4 r.rate),
        some (beBytes 4 r.prevRate), some [if r.tookPart then 1 else 2], some [if r.boosted then 1 else 2],
        some (beBytes 4 r.budget), some (beBytes 1 r.carry), some (beBytes 4 r.fullness), some (beBytes 4 r.limit),
        some (beBytes 4 r.anchorTarget), some (beBytes 4 r.followTarget), some (beBytes 1 r.decided.code)]
  | mixer : Figures s 7 none [some [if s.smx.aligned then 1 else 2], some (beBytes 2 s.smx.next.toNat),
      some (beBytes 1 s.smx.lag), some (s.smx.groups.vals.map fun g => if g then 1 else 2)]
  | input {base : List (Option (List Byte))} (k : Fin 32) (v : Input) : Figures s 7 none base → v = inputOf s k →
      Figures s 7 (some (4, [k.val])) (base ++ [some (beBytes 2 v.trim), some [if v.mute then 1 else 2],
        some ((members v.groups).map fun g => byteOf g.val), some (beBytes 1 v.policy.code),
        some (v.store.map fun b => beBytes 2 b.block.toNat).flatten,
        some [if ∃ i, s.sri.table.get i = .soundInput k then 1 else 2], some (beBytes 2 v.late), some (beBytes 2 v.early),
        some (beBytes 2 v.duplicate), some (beBytes 2 v.loss)])
  | bus {base : List (Option (List Byte))} (b : Fin 8) (v : Bus) : Figures s 7 none base → v = busOf s b →
      Figures s 7 (some (5, [b.val])) (base ++ [some (beBytes 2 v.master), some (beBytes 2 v.applied),
        some (beBytes 2 v.decay), some (beBytes 4 v.blockPeak), some (beBytes 4 v.heldPeak), some (beBytes 2 v.clips)])
  | cross {base : List (Option (List Byte))} (k : Fin 32) (b : Fin 8) (x : CrossPoint) : Figures s 7 none base →
      x = crossOf s k b →
      Figures s 7 (some (6, [k.val, b.val])) (base ++ [some (beBytes 2 x.cross), some (beBytes 2 x.target),
        some (beBytes 2 x.applied)])
  | trigger {base : List (Option (List Byte))} (k : Fin 4) (t : Trigger) : Figures s 7 none base → t = triggerOf s k →
      Figures s 7 (some (7, [k.val])) (base ++ [some (beBytes 1 t.bus.val), some (beBytes 4 t.hi), some (beBytes 4 t.lo),
        some (beBytes 1 t.nOpen), some (beBytes 1 t.nClose), some ((members t.cameras).map fun p => byteOf p.val),
        some (beBytes 1 t.priority.code), some (beBytes 1 t.state.code), some (beBytes 1 t.run),
        match t.clip with
          | .absent => none
          | .awaited => some [0, 0]
          | .number n => some (beBytes 2 n),
        some (beBytes 2 t.fired)])
  | sound : Figures s 8 none [some (beBytes 2 ((List.finRange 4).map fun i =>
      if (s.sdp.get i).enable then 96 * (s.sdp.get i).width.bits + 96 else 0).sum)]
  | soundStream {base : List (Option (List Byte))} (k : Fin 4) (t : SoundStream) : Figures s 8 none base → t = s.sdp.get k →
      Figures s 8 (some (8, [k.val])) (base ++ [some [if t.enable then 1 else 2], some (beBytes 1 t.left.val),
        some (beBytes 1 t.right.val), some (beBytes 1 t.width.bits), t.linked.map fun p => beBytes 1 p.val,
        some (beBytes 4 t.fixedDelay), some (beBytes 2 (BitVec.ofInt 16 t.trim).toNat), some (beBytes 2 t.allowance),
        t.linked.map fun p => beBytes 1 (fold s p).val, some (beBytes 4 t.target), some (beBytes 4 t.current),
        some [if t.assembly.isSome then 1 else 2], t.assembly.map fun a => beBytes 1 a.packed,
        t.assembly.map fun a => [if a.packet.isNone then 1 else 2], some (beBytes 2 t.packets), some (beBytes 2 t.refused)])
  | clips (m : ClipMarker) (states : List ClipState) : m = s.clm →
      states = [.opened, .postRoll, .closing, .closed, .sent, .acked] →
      Figures s 9 none [some (beBytes 1 m.preRoll), some (beBytes 1 m.postRoll), some [if m.autoMark then 1 else 2],
        some (beBytes 1 m.tallyPriority.code), some (beBytes 2 m.next),
        some (states.map fun v => byteOf (m.clips.countP fun c => c.state = v)),
        some (m.desks.vals.map fun d => beBytes 2 (d.getD 0)).flatten,
        some (m.tally.vals.map fun d => beBytes 2 (d.getD 0)).flatten,
        some ((members m.view).map fun p => byteOf p.val), some (beBytes 1 m.waiting.length)]
  | pool (queues : List (List Packet)) : queues = [s.pkp.reply, s.pkp.label, s.pkp.sound, s.pkp.picture] →
      Figures s 10 none [some (beBytes 2 s.pkp.free.length),
        some (s.pkp.owners.vals.map fun r => beBytes 2 r.count ++ beBytes 2 r.cap ++ beBytes 2 r.refused).flatten,
        some (queues.map fun q => beBytes 2 q.length ++ beBytes 2 ((q.map fun p => p.blocks.length).sum)).flatten,
        some (queues.map fun q => match q with
          | [] => List.replicate 7 0
          | p :: _ => beBytes 2 (p.subject.getD 65535) ++ beBytes 4 p.number.toNat ++ beBytes 1 p.fragIndex).flatten]
  | owner (o : Fin 6) (r : OwnerRecord) : r = s.pkp.owners.get o →
      Figures s 10 (some (10, [o.val])) [some (beBytes 2 r.count), some (beBytes 2 r.cap), some (beBytes 2 r.refused)]
  | scheduler : Figures s 11 none [some (beBytes 2 s.hsc.ignoredHome),
      some (s.hsc.links.vals.map fun k => (if k.slot.isSome then 1 else 2) :: beBytes 2 k.inFlight.length).flatten]
  | linkSched (l : Link) (k : LinkSched) : k = sched s l →
      Figures s 11 (some (11, [l.val])) [some (beBytes 2 k.credit), some (beBytes 1 k.carry),
        k.slot.map fun t => beBytes 1 t.packet.kind.code, k.slot.map fun t => beBytes 2 (t.packet.subject.getD 65535),
        k.slot.map fun t => beBytes 1 t.packet.fragIndex, k.slot.map fun t => [t.epoch],
        k.slot.map fun t => beBytes 2 t.seq.toNat, k.slot.map fun t => beBytes 4 (s.tbu.tick - t.offered).toNat,
        some (beBytes 2 k.inFlight.length), k.inFlight.head?.map fun e => beBytes 2 e.seq.toNat,
        k.inFlight.head?.map fun e => beBytes 4 e.tick.toNat, some (beBytes 2 k.nextSeq.toNat),
        some (beBytes 2 k.lastAck.toNat), some [k.epoch], k.reservation.map fun r => beBytes 1 r.prog,
        k.reservation.map fun r => beBytes 4 r.pic.toNat, k.reservation.map fun r => beBytes 1 r.expects,
        some (beBytes 2 k.taken), some (beBytes 2 k.lateDrops), some (beBytes 2 k.stale), some (beBytes 2 k.repeated),
        some (beBytes 2 k.invalid), some (beBytes 2 k.ignoredTaken)]
  | supervisor : Figures s 12 none
      [some (s.lsu.vals.map fun r => byteOf r.state.code :: beBytes 4 r.capacity).flatten]
  | link (l : Link) (r : LinkRecord) (t : LinkSettings) (v : Option Proving) (left : Tick → Nat) : r = link s l →
      t = r.settings → (∀ p, v = some p ↔ r.state = .proving ∧ r.proving = some p) →
      (∀ n, left n = if (s.tbu.tick - n).toNat ≤ 2147483647 then 0 else (n - s.tbu.tick).toNat) →
      Figures s 12 (some (11, [l.val])) [some (beBytes 1 r.state.code), some (beBytes 4 r.reported),
        some (beBytes 4 r.capacity), some [r.code], some (beBytes 1 t.share),
        some ((if t.kindPicture then [1] else []) ++ (if t.kindSound then [2] else []) ++ (if t.kindLabel then [3] else []) ++
          if t.kindReply then [4] else []),
        some (beBytes 2 t.burst), some (beBytes 4 t.floor), some (beBytes 4 t.ackTimeout), some (beBytes 1 t.minFraction),
        some (beBytes 1 t.count), some (beBytes 4 t.proveTimeout), some (beBytes 4 t.retryTime),
        some (t.actions.vals.map fun a => byteOf a.code), v.map fun p => beBytes 1 p.sent,
        v.map fun p => beBytes 1 p.retired, v.map fun p => beBytes 4 (left p.deadline),
        r.retry.map fun n => beBytes 4 (left n),
        if r.state = .degraded then some ((members r.degrading).map fun c => byteOf (c.val + 1)) else none,
        r.recovery.map fun v => beBytes 4 (left v.tick), r.window.map fun w => beBytes 4 w.start.toNat,
        r.window.map fun w => beBytes 4 w.handed, r.window.map fun w => beBytes 4 w.retired,
        r.openCommand.map fun o => [o.tag, byteOf o.origin.code],
        r.firstFault.map fun f => beBytes 1 f.cls.code ++ beBytes 4 f.tick.toNat ++ [f.code] ++ beBytes 2 f.later,
        some (r.faults.vals.map (beBytes 2)).flatten]
  | commandUnit (c : CommandUnit) (queue : List Msg → List Byte) : c = s.cmu →
      queue [] = [0, 0] → (∀ m rest, queue (m :: rest) = [byteOf (rest.length + 1), m.hdr.tag]) →
      Figures s 13 none [some (beBytes 1 c.authority.code), some [if c.noticesHome then 1 else 2],
        some (queue c.van ++ queue c.home), some [if c.held.isSome then 1 else 2],
        some (c.flags.vals.map fun f => (if f.set then 1 else 2) :: beBytes 2 f.counter).flatten,
        some (beBytes 1 c.notices.length), some (beBytes 1 c.homeNotices.length), some (beBytes 2 c.overflow)]

/-! ### Invariants -/

/-- The Timebase Unit's figures lie in the ranges of chapter 1's table (R6, R12). -/
structure CadenceOk (t : Timebase) : Prop where
  base : 1 ≤ t.base ∧ t.base ≤ 65535
  den : 1 ≤ t.den ∧ t.den ≤ 255
  num : t.num < t.den
  acc : t.acc < t.den
  rate : 24 ≤ t.rate ∧ t.rate ≤ 60
  origin : t.origin ≤ 5183999

/-- The acceptance table keeps a control stream, and the part never reads its own output (R200). -/
structure MapOk (r : Ring) : Prop where
  control : ∃ i, r.table.get i = .control
  output : r.table.get r.output = .none

/-- The two command queues hold at most 8 messages each (R203). -/
structure CommandQueuesOk (c : CommandUnit) : Prop where
  van : c.van.length ≤ 8
  home : c.home.length ≤ 8

/-- R171: a link's in-flight list holds at most 256 entries, of the consecutive sequences from one after the last acknowledged
up to one before the next; the slot's packet bears the next sequence, and there is room for it. A link that is DOWN or HELD has
neither. -/
structure LaneOk (st : LinkState) (k : LinkSched) : Prop where
  idle : st = .down ∨ st = .held → k.slot = none ∧ k.inFlight = []
  size : k.inFlight.length ≤ 256
  entries : ∀ (i : Nat) (e : InFlight), k.inFlight[i]? = some e → e.seq = k.lastAck + 1 + BitVec.ofNat 16 i
  next : st ≠ .down → st ≠ .held → k.nextSeq = k.lastAck + 1 + BitVec.ofNat 16 k.inFlight.length
  slot : ∀ v, k.slot = some v → v.epoch = k.epoch ∧ v.seq = k.nextSeq ∧ k.inFlight.length < 256

/-- The blocks that a packet holds, and their owner; a probe has none (R146, R147, R174). -/
def Packet.holding (p : Packet) : Option Owner × List Nat := (if p.kind = .probe then none else p.owner, p.blocks)

/-- R146: what holds blocks: the packets of the class queues, of the slots, of the in-flight lists and of the streams' assemblies,
and the fragments of the band in coding. -/
def holdings (s : State) : List (Option Owner × List Nat) :=
  (s.pkp.reply ++ s.pkp.label ++ s.pkp.sound ++ s.pkp.picture).map Packet.holding ++
  ([0, 1, 2, 3] : List Link).flatMap (fun l =>
    ((sched s l).slot.toList.map (·.packet) ++ (sched s l).inFlight.map (·.packet)).map Packet.holding) ++
  (s.cde.band.toList.flatMap fun b => b.frags.map fun f => (some (.prog b.prog), f)) ++
  ([0, 1, 2, 3] : List (Fin 4)).flatMap fun i => ((s.sdp.get i).assembly.bind (·.packet)).toList.map Packet.holding

/-- R146, R147: every block is free or held, once; each owner's count is the number of blocks held for it, and what has no owner
holds none. A lost band holds none (R57), nor does a disabled stream (R113), and a stream's blocks are the sound's (R118). -/
structure PoolOk (s : State) : Prop where
  whole : (s.pkp.free ++ (holdings s).flatMap (·.2)).Perm (List.range 16384)
  counts : ∀ o : Owner,
    (s.pkp.owners.get o.idx).count = (((holdings s).filter fun h => h.1 == some o).flatMap (·.2)).length
  owned : ∀ h ∈ holdings s, h.1 = none → h.2 = []
  band : ∀ b, s.cde.band = some b → b.lost = true → b.frags = []
  disabled : ∀ i, (s.sdp.get i).enable = false → (s.sdp.get i).assembly = none
  assembly : ∀ i a p, (s.sdp.get i).assembly = some a → a.packet = some p → p.owner = some .sound ∧ p.kind = .sound

end Sys2Proof.Machine
end

