-- ==== Sys2Proof/Certificates/Slice0/Obligations.lean ====
section
/-! DEFINITION. The statements made about the part: what its commands do, by the numbered rules, and what every step keeps. -/

open Sys2Proof Sys2Proof.Machine

/-! ### The queue of commands and the reset pin -/

/-- The model's own rule: a step takes the command at the front of the queue, on a state that holds the rest (log entry 1). -/
def Obligations.Step_RunsFrontCommand : Prop :=
  ∀ (c : Instr) (rest : List Instr) (s : State), s.pending = c :: rest → step s = exec c { s with pending := rest }

/-- The model's own rule: no command changes the queue of waiting commands (log entry 1). -/
def Obligations.Exec_LeavesWaitingCommands : Prop :=
  ∀ (c : Instr) (s t : State), exec c s = .next t → t.pending = s.pending

/-- R15, R38, R61, R83, R106, R120, R144, R161, R180, R197, R212: POWER_ON_RESET leaves every block with the values that these
rules name, and with the model's values where they name none (log entry 3), and RESET ALL leaves the same, but for its reply,
which stands alone in the ring output queue. That the commands waiting at the part's own inputs still wait is the model's choice
(log entry 1). -/
def Obligations.PowerOnReset_LeavesResetValues : Prop :=
  ∀ s : State, ∃ t, exec .powerOnReset s = .next t ∧
    (∀ (h : Hdr) (i : RingStream), VanReady h i s →
      exec (.resetAll h) s = .next { t with
        sri := { t.sri with queue := replyCells 254 h.tag [25, 1, byteOf i.val, 0] } }) ∧
    t.tbu = {
      lock := .unlocked, tick := 0, run := 0, miss := 0, pic := 0, acc := 0, base := 960, num := 0, den := 1, rate := 25
      origin := 0, period := none, codeStarts := [], blockDue := false } ∧
    (∀ p, prog t p = {
        state := .idle
        cfg := {
          enable := false, format := 0, group := 25, factor := 4, qMin := 1, qMax := 63, offset := 0, bandLimit := 200
          action := .report, latency := 0, delay := 500, hold := 0, guard := 0 }
        pair := false, input := .present, gapCount := 0, refreshOwed := false, skipNext := false, awaiting := false
        firstPic := none, remHold := 0, openStop := none, ignored := 0, causes := 0 } ∧
      t.ports.get p = { store := [], delivering := false, dropped := 0 } ∧ entryOf t p = none ∧
      loopOf t p = { carried := 32, groupCount := 0, method := .full, pending := none, collapse := none, history := [] } ∧
      ∃ r : RateRecord, r = {
          weight := 1, boost := 1, minRate := 0, maxRate := 0, rDown := 0, rUp := 100000, collapse := 0, step := 1 } ∧
        rateOf t p = {
          pending := r, active := r, rate := 0, prevRate := 0, boosted := false, tookPart := false, budget := 0, carry := 0
          fullness := 0, limit := 0, anchorTarget := 0, followTarget := 0, decided := .full }) ∧
    (∀ e, t.pgc.formats.get e = { width := 0, bands := 0 }) ∧ t.cde.band = none ∧ t.cde.lastServed = 3 ∧
    t.ral.headroom = 0 ∧ t.ral.labelReserve = 0 ∧
    t.ral.figures = { usable := 0, soundReserve := 0, labelReserve := 0, videoPool := 0, weightSum := 0, minSum := 0 } ∧
    t.smx.aligned = false ∧ t.smx.lag = 2 ∧ (∀ g, t.smx.groups.get g = false) ∧
    (∀ k, (inputOf t k).trim = 4096 ∧ (inputOf t k).mute = false ∧ (∀ g, (inputOf t k).groups.get g = false) ∧
      (inputOf t k).policy = .silence ∧ (inputOf t k).store = [] ∧ (∀ j, (inputOf t k).last.get j = 0) ∧
      (inputOf t k).late = 0 ∧ (inputOf t k).early = 0 ∧ (inputOf t k).duplicate = 0 ∧ (inputOf t k).loss = 0) ∧
    (∀ k b, crossOf t k b = { cross := 0, target := 0, applied := 0 }) ∧
    (∀ b, busOf t b = { master := 4096, applied := 4096, decay := 1024, blockPeak := 0, heldPeak := 0, clips := 0 }) ∧
    (∀ i, (triggerOf t i).state = .idle ∧ (triggerOf t i).bus = 0 ∧ (triggerOf t i).hi = 0 ∧ (triggerOf t i).lo = 0 ∧
      (triggerOf t i).nOpen = 2 ∧ (triggerOf t i).nClose = 48 ∧ (∀ p, (triggerOf t i).cameras.get p = false) ∧
      (triggerOf t i).priority = .normal ∧ (triggerOf t i).run = 0 ∧ (triggerOf t i).clip = .absent ∧
      (triggerOf t i).fired = 0) ∧
    (∀ i, t.sdp.get i = {
      enable := false, left := 0, right := 1, width := .bits24, linked := none, fixedDelay := 0, trim := 0
      allowance := 500, target := 0, current := 0, lineL := [], lineR := [], assembly := none, packets := 0
      refused := 0 }) ∧ soundReserve t = 0 ∧
    t.clm.clips = [] ∧ t.clm.next = 1 ∧ (∀ d, t.clm.desks.get d = none) ∧
    (∀ p, t.clm.tally.get p = none ∧ t.clm.view.get p = false) ∧ t.clm.waiting = [] ∧ t.clm.acked = [] ∧
    t.clm.preRoll = 0 ∧ t.clm.postRoll = 0 ∧ t.clm.autoMark = false ∧ t.clm.tallyPriority = .normal ∧
    t.pkp.free = List.range 16384 ∧ QueuesEmpty t ∧
    (∀ o, t.pkp.owners.get o = { count := 0, cap := if o = 5 then 64 else 0, refused := 0 }) ∧
    (∀ l, sched t l = {
      credit := 0, carry := 0, slot := none, inFlight := [], nextSeq := 0, lastAck := 65535, epoch := 0
      reservation := none, taken := 0, lateDrops := 0, stale := 0, repeated := 0, invalid := 0, ignoredTaken := 0
      owed := false }) ∧ t.hsc.ignoredHome = 0 ∧
    (∀ l, link t l = {
      state := .down, reported := 0, capacity := 0, code := 0
      settings := {
        share := 100, kindPicture := true, kindSound := true, kindLabel := true, kindReply := true, burst := 2656
        floor := 0, ackTimeout := 96000, minFraction := 0, count := 3, proveTimeout := 48000, retryTime := 240000
        actions := Table.replicate 5 .holdRetry }
      proving := none, retry := none, degrading := Table.replicate 5 false, recovery := none, window := none
      timedOut := none, openCommand := none, firstFault := none, faults := Table.replicate 5 0 }) ∧
    t.sri.table.get 255 = .control ∧ (∀ i, i ≠ 255 → t.sri.table.get i = .none) ∧ t.sri.output = 254 ∧
    (∀ i, t.sri.partials.get i = none) ∧ (∀ p, t.sri.onAir.get p = false) ∧ t.sri.queue = [] ∧ t.sri.unrouted = 0 ∧
    t.sri.wrongKind = 0 ∧ t.sri.discarded = 0 ∧ t.cmu.van = [] ∧ t.cmu.home = [] ∧ t.cmu.held = none ∧
    t.cmu.authority = .both ∧ t.cmu.noticesHome = false ∧ t.cmu.notices = [] ∧ t.cmu.homeNotices = [] ∧
    t.cmu.overflow = 0 ∧ (∀ f, t.cmu.flags.get f = { set := false, counter := 0 }) ∧ t.pending = s.pending

/-! ### Chapter 1: ticks, lock states, periods -/

/-- R2, R3: in UNLOCKED, with an empty output slot and nothing due, a frame start that does not complete the lock is a tick; it
adds one to the run count if it is consecutive and sets it to 1 if not, and a missed frame sets it to 0 without a tick. That a
frame start is consecutive up to 24 sixteenths of a frame time is the model's choice (log entry 4). -/
def Obligations.Unlocked_QualifiesTheRing : Prop :=
  ∀ (e : Nat) (s : State), Quiet s → NothingDue s → s.tbu.lock = .unlocked →
    (s.sri.queue = [] → s.cmu.notices = [] → (e ≤ 24 → s.tbu.run < 47) →
      exec (.ringFrameStart e) s = .next { s with
        tbu := { s.tbu with tick := s.tbu.tick + 1, run := if e ≤ 24 then s.tbu.run + 1 else 1 }
        sri := { s.sri with slot := none } }) ∧
    exec .missedFrame s = .next { s with tbu := { s.tbu with run := 0 } }

/-- R4: in LOCKED a frame start is a tick and clears the miss count (the output slot being empty); a missed frame is a tick of
the local reference and adds one to the miss count, and the eighth enters HOLDOVER, clears the run count and raises the
HOLDOVER flag. Each of these ticks lowers the ticks remaining and, at a multiple of 16, makes a block event due. -/
def Obligations.Locked_TicksAndMisses : Prop :=
  ∀ (e : Nat) (s : State), Quiet s → NothingDue s → s.tbu.lock = .locked →
    (s.sri.queue = [] → s.cmu.notices = [] →
      exec (.ringFrameStart e) s = .next { s with
        tbu := { s.tbu with
          tick := s.tbu.tick + 1
          miss := 0
          period := s.tbu.period.map fun p => { p with remaining := p.remaining - 1 }
          blockDue := (s.tbu.tick + 1).toNat % 16 == 0 }
        sri := { s.sri with slot := none } }) ∧
    (s.tbu.miss < 7 →
      exec .missedFrame s = .next { s with
        tbu := { s.tbu with
          tick := s.tbu.tick + 1
          miss := s.tbu.miss + 1
          period := s.tbu.period.map fun p => { p with remaining := p.remaining - 1 }
          blockDue := (s.tbu.tick + 1).toNat % 16 == 0 } }) ∧
    (s.tbu.miss = 7 →
      ∃ t, exec .missedFrame s = .next t ∧ t.tbu.lock = .holdover ∧ t.tbu.run = 0 ∧ t.tbu.miss = 8 ∧
        t.tbu.tick = s.tbu.tick + 1 ∧ t.tbu.pic = s.tbu.pic ∧ t.tbu.acc = s.tbu.acc ∧
        t.tbu.period = (s.tbu.period.map fun p => { p with remaining := p.remaining - 1 }) ∧
        t.tbu.blockDue = ((s.tbu.tick + 1).toNat % 16 == 0) ∧
        t.tbu.codeStarts = s.tbu.codeStarts ∧ (flagRec t .holdover).set = true)

/-- R2, R5: in HOLDOVER the local reference's tick advances the count; a frame start makes no tick and moves the run count, and
a missed frame clears it; the consecutive frame start that brings it to 48 is the next tick and returns to LOCKED with miss
count 0, the cadence, the accumulator and the pending code starts as they were. That a frame start is consecutive up to 24
sixteenths of a frame time, and that LOCAL_TICK has no effect in the other states, are the model's choices (log entries 4 and
2). -/
def Obligations.Holdover_TicksAndReturn : Prop :=
  ∀ (e : Nat) (s : State), Quiet s → NothingDue s →
    (s.tbu.lock ≠ .holdover → exec .localTick s = .next s) ∧
    (s.tbu.lock = .holdover →
      exec .localTick s = .next { s with
        tbu := { s.tbu with
          tick := s.tbu.tick + 1
          period := s.tbu.period.map fun p => { p with remaining := p.remaining - 1 }
          blockDue := (s.tbu.tick + 1).toNat % 16 == 0 } } ∧
      exec .missedFrame s = .next { s with tbu := { s.tbu with run := 0 } } ∧
      (s.sri.queue = [] → s.cmu.notices = [] →
        (¬(e ≤ 24 ∧ 47 ≤ s.tbu.run) →
          exec (.ringFrameStart e) s = .next { s with
            tbu := { s.tbu with run := if e ≤ 24 then s.tbu.run + 1 else 1 }
            sri := { s.sri with slot := none } }) ∧
        (e ≤ 24 → s.tbu.run = 47 →
          exec (.ringFrameStart e) s = .next { s with
            tbu := { s.tbu with
              lock := .locked
              tick := s.tbu.tick + 1
              run := 48
              miss := 0
              period := s.tbu.period.map fun p => { p with remaining := p.remaining - 1 }
              blockDue := (s.tbu.tick + 1).toNat % 16 == 0 }
            sri := { s.sri with slot := none } })))

/-- R199, the output slot: at a ring frame the slot takes the head of the ring output queue, and only with that queue empty
the oldest notice, which then leaves the notice queue; with both empty the frame carries no cell of the part. -/
def Obligations.OutputSlot_RepliesBeforeNotices : Prop :=
  ∀ (e : Nat) (s : State), Quiet s → NothingDue s → s.tbu.lock = .locked →
    ∃ t, exec (.ringFrameStart e) s = .next t ∧
      (∀ c rest, s.sri.queue = c :: rest →
        t.sri = { s.sri with slot := some c, queue := rest } ∧ t.cmu.notices = s.cmu.notices) ∧
      (∀ n rest, s.sri.queue = [] → s.cmu.notices = n :: rest →
        t.sri = { s.sri with slot := some (noticeCell s.sri.output n) } ∧ t.cmu = { s.cmu with notices := rest }) ∧
      (s.sri.queue = [] → s.cmu.notices = [] → t.sri = { s.sri with slot := none } ∧ t.cmu = s.cmu)

/-- R6, R7: a period start that is due adds one to the picture number, adds N to the accumulator and wraps it at D, fixes the
period at B or, after a wrap, at B + 1 ticks, and schedules the code start 16 ticks later under the new picture number. The
frame start that brings the run count to 48 in UNLOCKED makes the state LOCKED, and its tick is the first period start (R3).
R133: the count of every record in POST-ROLL falls by one; one that reaches 0 closes with the last picture as its out-point, no
in-point lying after it, or waits in CLOSING for its in-points. R142: the waiting labels, the newly closed last, are granted a
block each and queued, or all wait on and POOL-REFUSED is raised. R205: a held reply granted its blocks is queued and its
command leaves the HOME queue; refused, it waits, and the home notices with it. R210: the home notices then go in their order.
The model's choices: a frame start of e up to 24 sixteenths is consecutive (log entry 4), the order of the deliveries (log entry
6), and that records closing together join in the order in which they were made (log entry 24). -/
def Obligations.PeriodStart_FixesPeriodAndCodeStart : Prop :=
  (∀ s : State, Quiet s → periodDue s = true →
    ∃ t, exec .periodStart s = .next t ∧
      t.tbu.pic = s.tbu.pic + 1 ∧
      (s.tbu.acc + s.tbu.num < s.tbu.den →
        t.tbu.acc = s.tbu.acc + s.tbu.num ∧ t.tbu.period = some { length := s.tbu.base, remaining := s.tbu.base }) ∧
      (s.tbu.den ≤ s.tbu.acc + s.tbu.num →
        t.tbu.acc = s.tbu.acc + s.tbu.num - s.tbu.den ∧
        t.tbu.period = some { length := s.tbu.base + 1, remaining := s.tbu.base + 1 }) ∧
      t.tbu.codeStarts = s.tbu.codeStarts ++ [{ pic := s.tbu.pic + 1, tick := s.tbu.tick + 16 }] ∧
      t.tbu.tick = s.tbu.tick ∧ t.tbu.lock = s.tbu.lock ∧ t.tbu.run = s.tbu.run ∧ t.tbu.base = s.tbu.base ∧
      t.tbu.num = s.tbu.num ∧ t.tbu.den = s.tbu.den ∧ t.sri.table = s.sri.table ∧ t.sri.output = s.sri.output) ∧
  (∀ (e : Nat) (s : State), Quiet s → NothingDue s → s.tbu.lock = .unlocked → e ≤ 24 → s.tbu.run = 47 →
    ∃ t, exec (.ringFrameStart e) s = .next t ∧
      t.tbu.lock = .locked ∧ t.tbu.tick = s.tbu.tick + 1 ∧ t.tbu.run = 48 ∧ t.tbu.miss = 0 ∧
      t.tbu.pic = s.tbu.pic + 1 ∧
      t.tbu.acc = (if s.tbu.den ≤ s.tbu.acc + s.tbu.num then s.tbu.acc + s.tbu.num - s.tbu.den
        else s.tbu.acc + s.tbu.num) ∧
      (∃ n, n = (if s.tbu.den ≤ s.tbu.acc + s.tbu.num then s.tbu.base + 1 else s.tbu.base) ∧
        t.tbu.period = some { length := n, remaining := n }) ∧
      t.tbu.codeStarts = s.tbu.codeStarts ++ [{ pic := s.tbu.pic + 1, tick := s.tbu.tick + 1 + 16 }] ∧
      t.pending = s.pending ∧ t.sri.table = s.sri.table ∧ t.sri.output = s.sri.output) ∧
  (∀ (after : Clip → Clip) (closes : Clip → Bool) (order : List Nat) (s : State), Quiet s → NoLinkTakes s →
    periodDue s = true → s.cmu.noticesHome = false → s.cmu.held = none → s.cmu.homeNotices = [] → ClipsOk s.clm →
    (∀ n ∈ s.clm.waiting, ∃ c ∈ s.clm.clips, c.number = n) →
    (∀ c ∈ s.clm.clips, c.state = .postRoll → ∀ k ∈ c.cameras, ∀ a, k.inPoint = some a →
      (s.tbu.pic - a.pic).toNat ≤ 2147483647) →
    (∀ c, closes c = true ↔ c.state = .postRoll ∧ c.count ≤ 1 ∧ ∀ k ∈ c.cameras, k.inPoint ≠ none) →
    (∀ c, after c = if c.state ≠ .postRoll then c else if 1 < c.count then { c with count := c.count - 1 }
      else if closes c then { c with state := .closed, count := 0, expiry := none, outPoint := some s.tbu.pic }
      else { c with state := .closing, count := 0, expiry := some s.tbu.pic }) →
    order = s.clm.waiting ++ (s.clm.clips.filter closes).map (·.number) →
    ∃ t, exec .periodStart s = .next t ∧
      (s.pkp.free = [] ∨ (s.pkp.owners.get 5).cap ≤ (s.pkp.owners.get 5).count →
        t.clm = { s.clm with clips := s.clm.clips.map after, waiting := order } ∧ t.pkp.label = s.pkp.label ∧
          (order ≠ [] → (flagRec t .poolRefused).set = true)) ∧
      (order.length ≤ s.pkp.free.length → (s.pkp.owners.get 5).count + order.length ≤ (s.pkp.owners.get 5).cap →
        t.clm = { s.clm with clips := s.clm.clips.map after, waiting := [] } ∧
        ∃ ps : List Packet, t.pkp.label = s.pkp.label ++ ps ∧ ps.map (·.subject) = order.map some ∧
          ps.map (·.blocks) = (s.pkp.free.take order.length).map ([·]) ∧
          ∀ p ∈ ps, ∃ c ∈ s.clm.clips, p = {
            kind := .label, owner := some .labelReply, subject := some c.number, number := (after c).outPoint.getD 0
            stamp := s.tbu.tick, size := 16 + (labelPayload t.tbu (after c)).length, blocks := p.blocks
            payload := labelPayload t.tbu (after c) })) ∧
  (∀ (r : OwnerRecord) (s : State), NoOwed s → s.cmu.van = [] → NoLinkTakes s →
    periodDue s = true → s.cmu.noticesHome = false → s.clm.waiting = [] → (∀ c ∈ s.clm.clips, c.state ≠ .postRoll) →
    r = s.pkp.owners.get 5 →
    (∀ (held : HeldReply) (w : Msg) (n k : Nat), s.cmu.held = some held → s.cmu.home = [w] →
      n = (16 + held.bytes.length + 255) / 256 → k = s.cmu.homeNotices.length →
      ∃ t, exec .periodStart s = .next t ∧
        (n + k ≤ s.pkp.free.length → r.count + n + k ≤ r.cap →
          t.cmu.held = none ∧ t.cmu.home = [] ∧ t.cmu.homeNotices = [] ∧
          t.pkp = { s.pkp with
            free := s.pkp.free.drop (n + k)
            owners := s.pkp.owners.set 5 { r with count := r.count + n + k }
            reply := s.pkp.reply ++ [{
              kind := .reply, owner := some .labelReply, subject := some held.tag.toNat, number := 0
              stamp := s.tbu.tick, size := 16 + held.bytes.length, blocks := s.pkp.free.take n
              payload := held.bytes }] ++ (s.cmu.homeNotices.zip (s.pkp.free.drop n)).map fun x => {
              kind := .reply, owner := some .labelReply, subject := none, number := 0
              stamp := s.tbu.tick, size := 16 + x.1.bytes.length, blocks := [x.2], payload := x.1.bytes } }) ∧
        (s.pkp.free.length < n ∨ r.cap < r.count + n →
          t.cmu.held = some held ∧ t.cmu.home = [w] ∧ t.cmu.homeNotices = s.cmu.homeNotices ∧
          (flagRec t .poolRefused).set = true ∧
          t.pkp = { s.pkp with owners := s.pkp.owners.set 5 { r with refused := min (r.refused + 1) 65535 } })) ∧
    (s.cmu.held = none → s.cmu.home = [] →
      ∃ t, exec .periodStart s = .next t ∧
        (s.cmu.homeNotices.length ≤ s.pkp.free.length → r.count + s.cmu.homeNotices.length ≤ r.cap →
          t.cmu.homeNotices = [] ∧
          t.pkp.reply = s.pkp.reply ++ (s.cmu.homeNotices.zip s.pkp.free).map fun x => {
            kind := .reply, owner := some .labelReply, subject := none, number := 0
            stamp := s.tbu.tick, size := 16 + x.1.bytes.length, blocks := [x.2], payload := x.1.bytes }) ∧
        (s.cmu.homeNotices ≠ [] → s.pkp.free = [] ∨ r.cap ≤ r.count →
          t.cmu.homeNotices = s.cmu.homeNotices ∧ (flagRec t .poolRefused).set = true ∧
          t.pkp = { s.pkp with owners := s.pkp.owners.set 5 { r with refused := min (r.refused + 1) 65535 } })))

/-! ### Invariants of every step, part 1 -/

/-- R6, R12: the Timebase Unit's figures stay in their ranges at every step: the base count 1 to 65,535, D 1 to 255, N and the
accumulator below D, the nominal rate 24 to 60, the origin at most 5,183,999. -/
def Obligations.Step_KeepsCadence : Prop :=
  ∀ s t : State, step s = .next t → CadenceOk s.tbu → CadenceOk t.tbu

/-- R200: at every step the acceptance table keeps a control stream, and the output stream's own entry stays NONE. -/
def Obligations.Step_KeepsRingMap : Prop :=
  ∀ s t : State, step s = .next t → MapOk s.sri → MapOk t.sri

/-! ### Chapters 1 and 2: commands of the Timebase Unit and the Programme Controller -/

/-- R12, R13, R110: TIMEBASE-SET is refused with REFUSED-STATE while a programme is STARTING, RUNNING, STOPPING or FREEZING.
Otherwise each present field is clamped and stored, N is kept below D, the accumulator is cleared if B, N or D is present, every
linked stream is retargeted, and the period in progress and the pending code starts stand. That the streams are retargeted also
where the command carries none of B, N and D is the model's choice (log entry 22). -/
def Obligations.TimebaseSet_LoadsTheCadence : Prop :=
  ∀ (h : Hdr) (i : RingStream) (f : TimebaseFields) (s : State), VanReady h i s →
    ((∃ p, (prog s p).state = .starting ∨ (prog s p).state = .running ∨ (prog s p).state = .stopping ∨
        (prog s p).state = .freezing) →
      exec (.timebaseSet h f) s = .next { s with sri := ringReply s.sri h i 1 4 [] }) ∧
    (CadenceOk s.tbu →
      (∀ p, (prog s p).state = .idle ∨ (prog s p).state = .ready ∨ (prog s p).state = .paired) →
      ∃ t den, exec (.timebaseSet h f) s = .next t ∧ den = loaded 1 255 s.tbu.den f.den ∧
        t.tbu = { s.tbu with
          base := loaded 1 65535 s.tbu.base f.base
          den := den
          num := min (f.num.getD s.tbu.num) (den - 1)
          acc := if f.base = none ∧ f.num = none ∧ f.den = none then s.tbu.acc else 0
          rate := loaded 24 60 s.tbu.rate f.rate
          origin := loaded 0 5183999 s.tbu.origin f.origin } ∧
        (∀ k, (s.sdp.get k).linked = none → t.sdp.get k = s.sdp.get k) ∧
        (∀ k q, (s.sdp.get k).linked = some q →
          t.sdp.get k = { s.sdp.get k with
            target := linkedDelay t.tbu (prog s (fold s q)).cfg.latency (s.sdp.get k) }) ∧
        t = { s with
          tbu := t.tbu
          sdp := t.sdp
          sri := ringReply s.sri h i 1 (doneCode (outside 1 65535 f.base || outside 1 255 f.den ||
            decide (den ≤ f.num.getD s.tbu.num) || outside 24 60 f.rate || outside 0 5183999 f.origin)) [] })

/-- R22: FORMAT-SET is refused with REFUSED-RANGE for an entry outside 0 to 7 and with REFUSED-STATE for the entry of an active
programme; otherwise each present field is clamped and stored, and an absent one keeps its value. That a command without an
entry is REFUSED-RANGE is the model's choice (log entry 42). -/
def Obligations.FormatSet_LoadsAnEntry : Prop :=
  ∀ (h : Hdr) (i : RingStream) (f : FormatFields) (s : State), VanReady h i s →
    ((f.entry = none ∨ ∃ n, f.entry = some n ∧ 7 < n) →
      exec (.formatSet h f) s = .next { s with sri := ringReply s.sri h i 2 5 [] }) ∧
    (∀ e : Fin 8, f.entry = some e.val →
      ((∃ p, (prog s p).cfg.format = e ∧ ((prog s p).state = .starting ∨ (prog s p).state = .running ∨
          (prog s p).state = .stopping ∨ (prog s p).state = .freezing)) →
        exec (.formatSet h f) s = .next { s with sri := ringReply s.sri h i 2 4 [] }) ∧
      ((∀ p, (prog s p).cfg.format = e →
          (prog s p).state = .idle ∨ (prog s p).state = .ready ∨ (prog s p).state = .paired) →
        exec (.formatSet h f) s = .next { s with
          pgc := { s.pgc with
            formats := s.pgc.formats.set e
              { width := loaded 1 255 (s.pgc.formats.get e).width f.width
                bands := loaded 1 135 (s.pgc.formats.get e).bands f.bands } }
          sri := ringReply s.sri h i 2 (doneCode (outside 1 255 f.width || outside 1 135 f.bands)) [] }))

/-- R23, R24, R32: PROGRAMME-SET without a change of pair. It is refused with REFUSED-RANGE for a programme outside 0 to 3,
with REFUSED-STATE for one that is not IDLE or READY, and with REFUSED-RANGE for a pair field that names P1 or P3 and for an
enable, limit action or pair that is not allowed. Otherwise each present field is clamped and stored, q_max is raised to q_min,
the state follows the enable, a changed q_min or q_max clamps the carried quantiser, and a changed camera latency retargets the
linked streams; nothing else changes, also where the pair field equals the present state. The answer to an absent programme
(log entry 42) and the clamping of the format entry (log entry 8) are the model's choices. -/
def Obligations.ProgrammeSet_StoresAndFollowsEnable : Prop :=
  ∀ (h : Hdr) (i : RingStream) (f : ProgFields) (s : State), VanReady h i s →
    ((f.prog = none ∨ ∃ n, f.prog = some n ∧ 3 < n) →
      exec (.programmeSet h f) s = .next { s with sri := ringReply s.sri h i 3 5 [] }) ∧
    (∀ p : Prog, f.prog = some p.val →
      ((prog s p).state ≠ .idle → (prog s p).state ≠ .ready →
        exec (.programmeSet h f) s = .next { s with sri := ringReply s.sri h i 3 4 [] }) ∧
      ((prog s p).state = .idle ∨ (prog s p).state = .ready → p.val % 2 = 1 → f.pair ≠ none →
        exec (.programmeSet h f) s = .next { s with sri := ringReply s.sri h i 3 5 [] }) ∧
      ((prog s p).state = .idle ∨ (prog s p).state = .ready →
        (p.val % 2 = 0 → f.pair = some 1 → (prog s p).pair = true ∨ (prog s (p + 1)).state = .idle ∨
          (prog s (p + 1)).state = .ready) →
        (∃ v, f.enable = some v ∧ v ≠ 1 ∧ v ≠ 2) ∨ (∃ v, f.action = some v ∧ (v = 0 ∨ 4 < v)) ∨
          (∃ v, f.pair = some v ∧ v ≠ 1 ∧ v ≠ 2) →
        exec (.programmeSet h f) s = .next { s with sri := ringReply s.sri h i 3 5 [] }) ∧
      (∀ (enable : Bool) (action : LimitAction), (prog s p).state = .idle ∨ (prog s p).state = .ready →
        f.pair = none ∨ (p.val % 2 = 0 ∧ f.pair = some (if (prog s p).pair then 1 else 2)) →
        f.enable.getD (onOff (prog s p).cfg.enable) = (if enable then 1 else 2) →
        f.action.getD (prog s p).cfg.action.code = action.code →
        ∃ t old new, exec (.programmeSet h f) s = .next t ∧ old = (prog s p).cfg ∧
          new = { enable := enable
                  format := ⟨loaded 0 7 old.format.val f.format % 8, by omega⟩
                  group := loaded 1 255 old.group f.group
                  factor := loaded 1 8 old.factor f.factor
                  qMin := loaded 1 63 old.qMin f.qMin
                  qMax := max (loaded 1 63 old.qMin f.qMin) (loaded 1 63 old.qMax f.qMax)
                  offset := loaded 0 15 old.offset f.offset
                  bandLimit := loaded 100 400 old.bandLimit f.bandLimit
                  action := action
                  latency := loaded 0 100 old.latency f.latency
                  delay := loaded 100 2000 old.delay f.delay
                  hold := loaded 0 250 old.hold f.hold
                  guard := loaded 0 250 old.guard f.guard : ProgConfig } ∧
          t.pgc = { s.pgc with
            progs := s.pgc.progs.set p { prog s p with cfg := new, state := if enable then .ready else .idle } } ∧
          t.cde = { s.cde with
            loops :=
              if new.qMin = old.qMin ∧ new.qMax = old.qMax then s.cde.loops
              else s.cde.loops.set p { loopOf s p with
                carried := min new.qMax (max new.qMin (loopOf s p).carried) } } ∧
          (∀ k, (new.latency = old.latency ∨ ∀ q, (s.sdp.get k).linked = some q → fold s q ≠ p) →
            t.sdp.get k = s.sdp.get k) ∧
          (∀ k q, new.latency ≠ old.latency → (s.sdp.get k).linked = some q → fold s q = p →
            t.sdp.get k = { s.sdp.get k with target := linkedDelay s.tbu new.latency (s.sdp.get k) }) ∧
          t = { s with
            pgc := t.pgc
            cde := t.cde
            sdp := t.sdp
            sri := ringReply s.sri h i 3 (doneCode (outside 0 7 f.format || outside 1 255 f.group ||
              outside 1 8 f.factor || outside 1 63 f.qMin || outside 1 63 f.qMax || outside 0 15 f.offset ||
              outside 100 400 f.bandLimit || outside 0 100 f.latency || outside 100 2000 f.delay ||
              outside 0 250 f.hold || outside 0 250 f.guard ||
              decide (loaded 1 63 old.qMax f.qMax < loaded 1 63 old.qMin f.qMin))) [] }))

/-- R32, R110, R150, R157, R159, R168: with no other field, the pair field forms a pair of IDLE or READY members: the odd
member becomes PAIRED with its fields kept, its PICTURE packets leave the queue, their blocks return to the free list in its
account, and the reservation of a slice of which a packet leaves ends; no link being able to take, nothing is taken. A member
that is not IDLE or READY refuses the command. The pair field dissolves a formed pair: the odd member follows its own enable,
its input status is PRESENT, its gap count 0 and its marks clear. Either way the state of the even member follows its enable,
and the streams linked to a member read the latency of the member that they now stand for. That the blocks return packet by
packet from the head of the queue is the model's choice (log entry 57). -/
def Obligations.ProgrammeSet_FormsAndDissolvesPairs : Prop :=
  ∀ (h : Hdr) (i : RingStream) (p : Prog) (s : State), VanReady h i s → p.val % 2 = 0 →
    (prog s p).state = .idle ∨ (prog s p).state = .ready → (prog s p).cfg.qMin ≤ (prog s p).cfg.qMax →
    ((prog s p).pair = false →
      ((prog s (p + 1)).state ≠ .idle → (prog s (p + 1)).state ≠ .ready →
        exec (.programmeSet h { prog := some p.val, pair := some 1 }) s =
          .next { s with sri := ringReply s.sri h i 3 4 [] }) ∧
      ((prog s (p + 1)).state = .idle ∨ (prog s (p + 1)).state = .ready →
        NoLinkTakes s →
        ∃ t gone, exec (.programmeSet h { prog := some p.val, pair := some 1 }) s = .next t ∧
          gone = (s.pkp.picture.filter fun k => k.subject == some (p.val + 1)) ∧
          prog t p = { prog s p with
            pair := true
            state := if (prog s p).cfg.enable then .ready else .idle } ∧
          prog t (p + 1) = { prog s (p + 1) with state := .paired } ∧
          (∀ q, q ≠ p → q ≠ p + 1 → prog t q = prog s q) ∧ t.pgc.formats = s.pgc.formats ∧
          ((∀ k ∈ gone, k.owner = some (.prog (p + 1))) →
            t.pkp = { s.pkp with
              picture := s.pkp.picture.filter fun k => !(k.subject == some (p.val + 1))
              free := s.pkp.free ++ (gone.map (·.blocks)).flatten
              owners := s.pkp.owners.modify (Owner.prog (p + 1)).idx fun r =>
                { r with count := r.count - (gone.map (·.blocks)).flatten.length } }) ∧
          t.pkp.picture = (s.pkp.picture.filter fun k => !(k.subject == some (p.val + 1))) ∧
          t.pkp.reply = s.pkp.reply ∧ t.pkp.label = s.pkp.label ∧ t.pkp.sound = s.pkp.sound ∧
          (∀ l, sched t l = { sched s l with
            reservation := (sched s l).reservation.filter fun r => !r.loses gone }) ∧
          (∀ k, t.sdp.get k =
            if (s.sdp.get k).linked = some p ∨ (s.sdp.get k).linked = some (p + 1) then
              { s.sdp.get k with target := linkedDelay s.tbu (prog s p).cfg.latency (s.sdp.get k) }
            else s.sdp.get k) ∧
          t = { s with
            pgc := t.pgc
            pkp := t.pkp
            sdp := t.sdp
            hsc := { s.hsc with links := t.hsc.links }
            sri := ringReply s.sri h i 3 1 [] })) ∧
    ((prog s p).pair = true →
      ∃ t, exec (.programmeSet h { prog := some p.val, pair := some 2 }) s = .next t ∧
        prog t p = { prog s p with
          pair := false
          state := if (prog s p).cfg.enable then .ready else .idle } ∧
        prog t (p + 1) = { prog s (p + 1) with
          state := if (prog s (p + 1)).cfg.enable then .ready else .idle
          input := .present
          gapCount := 0
          refreshOwed := false
          skipNext := false } ∧
        (∀ q, q ≠ p → q ≠ p + 1 → prog t q = prog s q) ∧ t.pgc.formats = s.pgc.formats ∧
        (∀ k, t.sdp.get k =
          if (s.sdp.get k).linked = some p then
            { s.sdp.get k with target := linkedDelay s.tbu (prog s p).cfg.latency (s.sdp.get k) }
          else if (s.sdp.get k).linked = some (p + 1) then
            { s.sdp.get k with target := linkedDelay s.tbu (prog s (p + 1)).cfg.latency (s.sdp.get k) }
          else s.sdp.get k) ∧
        t = { s with pgc := t.pgc, sdp := t.sdp, sri := ringReply s.sri h i 3 1 [] })

/-- R25: PROGRAMME-START of a READY programme whose format entry is usable makes it STARTING with an ACCEPTED reply, records its
open stop, sets and counts the refresh-owed mark, clears skip-next, and sets the input status PRESENT, the gap count 0 and the
awaiting-allocation mark. It is refused with REFUSED-STATE otherwise, and with REFUSED-RANGE for a number outside 0 to 3. That a
command without a number is REFUSED-RANGE, a REFRESH too, is the model's choice (log entry 42). -/
def Obligations.ProgrammeStart_MakesStarting : Prop :=
  ∀ (h : Hdr) (i : RingStream) (n : Option Nat) (s : State), VanReady h i s →
    ((n = none ∨ ∃ v, n = some v ∧ 3 < v) →
      exec (.programmeStart h n) s = .next { s with sri := ringReply s.sri h i 4 5 [] }) ∧
    (∀ p : Prog, n = some p.val →
      (((prog s p).state ≠ .ready ∨ (formatOf s p).width = 0 ∨ (formatOf s p).bands = 0) →
        exec (.programmeStart h n) s = .next { s with sri := ringReply s.sri h i 4 4 [] }) ∧
      ((prog s p).state = .ready → (formatOf s p).width ≠ 0 → (formatOf s p).bands ≠ 0 → isPairedOdd s p = false →
        exec (.programmeStart h n) s = .next { s.onProg p (fun r => { r with
            state := .starting
            openStop := some { tag := h.tag, origin := .van }
            skipNext := false
            input := .present
            gapCount := 0
            awaiting := true
            firstPic := none
            refreshOwed := true
            causes := min (r.causes + 1) 65535 }) with
          sri := ringReply s.sri h i 4 3 [] })) ∧
    exec (.refresh h none) s = .next { s with sri := ringReply s.sri h i 6 5 [] }

/-- R36: REFRESH of a programme outside 0 to 3 is refused with REFUSED-RANGE. Otherwise, in every programme state and whatever
the anchor history, the mark is set and counted, an odd member of a formed pair being folded onto the even one, and the reply is
DONE; nothing else changes. -/
def Obligations.Refresh_SetsTheMark : Prop :=
  ∀ (h : Hdr) (i : RingStream) (n : Nat) (s : State), VanReady h i s →
    (3 < n → exec (.refresh h (some n)) s = .next { s with sri := ringReply s.sri h i 6 5 [] }) ∧
    (∀ p q : Prog, n = p.val → q = (if p.val % 2 = 1 ∧ (prog s (p - 1)).pair = true then p - 1 else p) →
      exec (.refresh h (some n)) s = .next
        { s.onProg q (fun r => { r with refreshOwed := true, causes := min (r.causes + 1) 65535 }) with
          sri := ringReply s.sri h i 6 1 [] })

/-- R35: a home REFRESH packet is ignored and counted where the newest anchor lies at or before the current picture and within
the refresh guard, and otherwise sets and counts the mark of the programme, or of the even member of its formed pair; a
programme outside 0 to 3 counts one ignored home request. Nothing else changes. -/
def Obligations.RefreshPacket_AppliesTheGuard : Prop :=
  ∀ (n : Byte) (s : State), Quiet s →
    (4 ≤ n.toNat →
      exec (.refreshPacket n) s = .next { s with
        hsc := { s.hsc with ignoredHome := min (s.hsc.ignoredHome + 1) 65535 } }) ∧
    (∀ p q : Prog, n.toNat = p.val →
      q = (if p.val % 2 = 1 ∧ (prog s (p - 1)).pair = true then p - 1 else p) →
      ((∃ a rest, (loopOf s q).history = a :: rest ∧ (s.tbu.pic - a).toNat ≤ 2147483647 ∧
          (s.tbu.pic - a).toNat < (prog s q).cfg.guard) →
        exec (.refreshPacket n) s = .next (s.onProg q fun r => { r with ignored := min (r.ignored + 1) 65535 })) ∧
      ((∀ a rest, (loopOf s q).history = a :: rest → 2147483647 < (s.tbu.pic - a).toNat ∨
          (prog s q).cfg.guard ≤ (s.tbu.pic - a).toNat) →
        exec (.refreshPacket n) s = .next
          (s.onProg q fun r => { r with refreshOwed := true, causes := min (r.causes + 1) 65535 })))

/-- R27, R28, R31: PROGRAMME-STOP CUT is refused with REFUSED-RANGE for a programme outside 0 to 3 and with REFUSED-STATE for
one that is IDLE, READY or PAIRED. In the other states the programme becomes READY with a DONE reply and its open stop becomes
absent; its picture in progress leaves the list, the carried quantiser keeps the loop's last step, and its band in coding is
marked for discard. The notice owed (to a command from the ring, with room for it) is queued, a FLUSH removes its packets from
the PICTURE queue and frees their blocks, and nothing else changes. R122, R130, R134: where the programme was RUNNING, each live
record that waits for its in-point loses that camera; a record left without a camera is freed, with a CAMERAS-STOPPED notice,
and a CLOSING one left with nothing to wait for closes at its expiry picture and joins the waiting labels. The model's choices:
REFUSED-RANGE where the programme is absent (log entry 42), the picture number of the notice (log entry 9), the order in which a
FLUSH returns several block lists (log entry 57), that it ends the reservations of the slices it removed from (log entry 30),
that the CUT's notice is queued first (log entry 58), and that the records are worked in the order in which they were made (log
entry 24). -/
def Obligations.ProgrammeStopCut_MakesReady : Prop :=
  ∀ (h : Hdr) (i : RingStream) (n : Option Nat) (flush : Bool) (s : State), VanReady h i s →
    ((n = none ∨ ∃ v, n = some v ∧ 3 < v) →
      exec (.programmeStopCut h n flush) s = .next { s with sri := ringReply s.sri h i 5 5 [] }) ∧
    (∀ p : Prog, n = some p.val →
      ((prog s p).state = .idle ∨ (prog s p).state = .ready ∨ (prog s p).state = .paired →
        exec (.programmeStopCut h n flush) s = .next { s with sri := ringReply s.sri h i 5 4 [] }) ∧
      ((prog s p).state = .starting ∨ (prog s p).state = .running ∨ (prog s p).state = .stopping ∨
          (prog s p).state = .freezing →
        ∃ t cde, exec (.programmeStopCut h n flush) s = .next t ∧
          cde = (match entryOf s p with
            | none => s.cde
            | some e => { s.cde with
                entries := s.cde.entries.set p none
                loops := s.cde.loops.set p { loopOf s p with carried := e.loopQ }
                band := s.cde.band.map fun b => if b.prog = p then { b with discard := true } else b }) ∧
          ExceptMarks (prog t p) { prog s p with state := .ready, openStop := none } ∧
          (∀ q, q ≠ p → ExceptMarks (prog t q) (prog s q)) ∧ t.cde = cde ∧ t.ports = s.ports ∧ SteadyFrom s t ∧
          t.sri = ringReply s.sri h i 5 1 [] ∧
          (((prog s p).state = .running → LeaveSettles p s) →
            (∀ o, (prog s p).openStop = some o → o.origin = .van ∧ s.cmu.noticesHome = false ∧
              s.cmu.notices.length + (stoppedNotices p s).length < 32) →
            (flush = true → NoLinkTakes s) →
            t = { s with
              pgc := t.pgc
              cde := cde
              clm := if (prog s p).state = .running then withoutCamera p s.clm else s.clm
              pkp := if flush then
                  { s.pkp.releasePackets (s.pkp.picture.filter fun k => k.subject == some p.val) with
                    picture := s.pkp.picture.filter fun k => !(k.subject == some p.val) }
                else s.pkp
              hsc := if flush then
                  { s.hsc with links := s.hsc.links.map fun k => { k with
                    reservation := k.reservation.filter fun r =>
                      !r.loses (s.pkp.picture.filter fun q => q.subject == some p.val) } }
                else s.hsc
              cmu := { s.cmu with
                notices := s.cmu.notices ++ ((prog s p).openStop.map fun o =>
                  { body := .programme p .ready s.tbu.pic (some .cut)
                    answers := some o
                    tick := s.tbu.tick
                    pic := s.tbu.pic : Notice }).toList ++ if (prog s p).state = .running then stoppedNotices p s else [] }
              sri := ringReply s.sri h i 5 1 [] })))

/-- R29, R31: PROGRAMME-STOP FINISH of a RUNNING programme makes it READY with a DONE reply if it has no picture in progress; if
it has one, it becomes STOPPING with an ACCEPTED reply, the open stop records the command, and the picture stays in progress. In
STARTING it is taken as a CUT; in every other state it is refused with REFUSED-STATE. R122, R130, R134: where the programme was
RUNNING, each live record that waits for its in-point loses that camera; a record left without a camera is freed, with a
CAMERAS-STOPPED notice, and a CLOSING one left with nothing to wait for closes at its expiry picture and joins the waiting
labels. The model's choices: REFUSED-RANGE where the programme is absent (log entry 42), the picture number of the notice (log
entry 9), and the order of the records (log entry 24). -/
def Obligations.ProgrammeStopFinish_EndsThePicture : Prop :=
  ∀ (h : Hdr) (i : RingStream) (n : Option Nat) (s : State), VanReady h i s →
    ((n = none ∨ ∃ v, n = some v ∧ 3 < v) →
      exec (.programmeStopFinish h n false) s = .next { s with sri := ringReply s.sri h i 5 5 [] }) ∧
    (∀ p : Prog, n = some p.val →
      ((prog s p).state ≠ .starting → (prog s p).state ≠ .running →
        exec (.programmeStopFinish h n false) s = .next { s with sri := ringReply s.sri h i 5 4 [] }) ∧
      ((prog s p).state = .starting →
        ∃ t, exec (.programmeStopFinish h n false) s = .next t ∧
          ExceptMarks (prog t p) { prog s p with state := .ready, openStop := none } ∧
          (∀ q, q ≠ p → ExceptMarks (prog t q) (prog s q)) ∧ t.ports = s.ports ∧ SteadyFrom s t ∧
          t.sri = ringReply s.sri h i 5 1 [] ∧
          (entryOf s p = none → ∀ o, (prog s p).openStop = some o →
            o.origin = .van → s.cmu.noticesHome = false → s.cmu.notices.length < 32 →
            t = { s with
              pgc := t.pgc
              cmu := { s.cmu with
                notices := s.cmu.notices ++ [{
                  body := .programme p .ready s.tbu.pic (some .cut)
                  answers := some o
                  tick := s.tbu.tick
                  pic := s.tbu.pic }] }
              sri := ringReply s.sri h i 5 1 [] })) ∧
      ((prog s p).state = .running →
        ∃ t, exec (.programmeStopFinish h n false) s = .next t ∧
          ExceptMarks (prog t p) (if entryOf s p = none then { prog s p with state := .ready }
            else { prog s p with state := .stopping, openStop := some { tag := h.tag, origin := .van } }) ∧
          (∀ q, q ≠ p → ExceptMarks (prog t q) (prog s q)) ∧ t.cde = s.cde ∧ t.ports = s.ports ∧ SteadyFrom s t ∧
          t.sri = ringReply s.sri h i 5 (if entryOf s p = none then 1 else 3) [] ∧
          (LeaveSettles p s →
            t = { s with
              pgc := t.pgc
              clm := withoutCamera p s.clm
              cmu := { s.cmu with notices := s.cmu.notices ++ stoppedNotices p s }
              sri := t.sri })))

/-- R30, R31: PROGRAMME-STOP FREEZE of a RUNNING programme makes it FREEZING with its remaining hold set to its hold count, an
ACCEPTED reply and the command in its open stop; a picture in progress goes on. In STARTING it is taken as a CUT; in every other
state it is refused with REFUSED-STATE. R28: a FLUSH with FINISH or FREEZE is refused with REFUSED-RANGE. R122, R130, R134:
where the programme was RUNNING, each live record that waits for its in-point loses that camera; a record left without a camera
is freed, with a CAMERAS-STOPPED notice, and a CLOSING one left with nothing to wait for closes at its expiry picture and joins
the waiting labels. The model's choices: REFUSED-RANGE where the programme is absent (log entry 42), the picture number of the
notice (log entry 9), and the order of the records (log entry 24). -/
def Obligations.ProgrammeStopFreeze_HoldsThePicture : Prop :=
  ∀ (h : Hdr) (i : RingStream) (n : Option Nat) (s : State), VanReady h i s →
    ((n = none ∨ ∃ v, n = some v ∧ 3 < v) →
      exec (.programmeStopFreeze h n false) s = .next { s with sri := ringReply s.sri h i 5 5 [] }) ∧
    (∀ p : Prog, n = some p.val →
      ((prog s p).state ≠ .starting → (prog s p).state ≠ .running →
        exec (.programmeStopFreeze h n false) s = .next { s with sri := ringReply s.sri h i 5 4 [] }) ∧
      ((prog s p).state = .starting →
        ∃ t, exec (.programmeStopFreeze h n false) s = .next t ∧
          ExceptMarks (prog t p) { prog s p with state := .ready, openStop := none } ∧
          (∀ q, q ≠ p → ExceptMarks (prog t q) (prog s q)) ∧ t.ports = s.ports ∧ SteadyFrom s t ∧
          t.sri = ringReply s.sri h i 5 1 [] ∧
          (entryOf s p = none → ∀ o, (prog s p).openStop = some o →
            o.origin = .van → s.cmu.noticesHome = false → s.cmu.notices.length < 32 →
            t = { s with
              pgc := t.pgc
              cmu := { s.cmu with
                notices := s.cmu.notices ++ [{
                  body := .programme p .ready s.tbu.pic (some .cut)
                  answers := some o
                  tick := s.tbu.tick
                  pic := s.tbu.pic }] }
              sri := ringReply s.sri h i 5 1 [] })) ∧
      ((prog s p).state = .running →
        exec (.programmeStopFinish h n true) s = .next { s with sri := ringReply s.sri h i 5 5 [] } ∧
        exec (.programmeStopFreeze h n true) s = .next { s with sri := ringReply s.sri h i 5 5 [] } ∧
        ∃ t, exec (.programmeStopFreeze h n false) s = .next t ∧
          ExceptMarks (prog t p) { prog s p with
            state := .freezing
            remHold := (prog s p).cfg.hold
            openStop := some { tag := h.tag, origin := .van } } ∧
          (∀ q, q ≠ p → ExceptMarks (prog t q) (prog s q)) ∧ t.cde = s.cde ∧ t.ports = s.ports ∧ SteadyFrom s t ∧
          t.sri = ringReply s.sri h i 5 3 [] ∧
          (LeaveSettles p s →
            t = { s with
              pgc := t.pgc
              clm := withoutCamera p s.clm
              cmu := { s.cmu with notices := s.cmu.notices ++ stoppedNotices p s }
              sri := t.sri })))

/-! ### Chapter 2: the camera ports -/

/-- R17: the start of a picture puts one in delivery in place of any earlier one, its end as broken off discards it, and its
end as complete puts it in the store with the tick of the signal and its taken mark clear; nothing else changes where the
store has room, or evicts a picture that was taken or is of a programme neither RUNNING nor STOPPING, and the input is not
LOST. A store of two evicts the older. -/
def Obligations.PictureDelivery_EntersTheStore : Prop :=
  ∀ (p : Prog) (s : State), Quiet s →
    exec (.pictureStartSignal p) s = .next { s with
      ports := s.ports.set p { s.ports.get p with delivering := true } } ∧
    exec (.pictureEndBroken p) s = .next { s with
      ports := s.ports.set p { s.ports.get p with delivering := false } } ∧
    ((prog s (fold s p)).input ≠ .lost →
      ((s.ports.get p).store.length ≤ 1 →
        exec (.pictureEndComplete p) s = .next { s with
          ports := s.ports.set p { s.ports.get p with
            store := (s.ports.get p).store ++ [{ arrival := s.tbu.tick, taken := false }]
            delivering := false } }) ∧
      (∀ v w, (s.ports.get p).store = [v, w] →
        v.taken = true ∨ ((prog s (fold s p)).state ≠ .running ∧ (prog s (fold s p)).state ≠ .stopping) →
        exec (.pictureEndComplete p) s = .next { s with
          ports := s.ports.set p { s.ports.get p with
            store := [w, { arrival := s.tbu.tick, taken := false }]
            delivering := false } }))

/-- R17, R21, R148, R208, R209, R210: a store of two evicts the older picture; where that picture was never taken and the port's
programme, or the even member of its formed pair, is RUNNING or STOPPING, the dropped-picture count gains one and
PICTURE-SKIPPED is set. A flag that is set already is counted alone. One that was clear queues its notice: in a queue of 32 it
takes the place of the oldest and NOTICE-OVERRUN is raised, whose own notice, if that flag was clear, removes the next oldest.
With notices home on, the copy joins the home notice list; alone in it, with no held reply waiting, it is granted a block and
goes home as a REPLY packet without a subject, or is refused, and stays; in a list of 32 it takes the place of the oldest. The
order of queue, copy and overrun, and that the second overrun only counts, are the model's choices (log entry 45). -/
def Obligations.PictureEviction_CountsUntaken : Prop :=
  ∀ (p : Prog) (s : State) (v w : StoredPicture), Quiet s → (s.ports.get p).store = [v, w] → v.taken = false →
    (prog s (fold s p)).state = .running ∨ (prog s (fold s p)).state = .stopping →
    (∃ t, exec (.pictureEndComplete p) s = .next t ∧
      t.ports = s.ports.set p
        { store := [w, { arrival := s.tbu.tick, taken := false }]
          delivering := false
          dropped := min ((s.ports.get p).dropped + 1) 65535 } ∧
      (flagRec t .pictureSkipped).set = true ∧ t.cde = s.cde ∧ SteadyFrom s t) ∧
    (∀ (u : State) (n k m : Nat) (notice : EventFlag → Nat → Notice) (told : Notice) (cmu : CommandUnit) (r : OwnerRecord),
      (prog s (fold s p)).input ≠ .lost → NoLinkTakes s →
      u = { s with
        ports := s.ports.set p {
          store := [w, { arrival := s.tbu.tick, taken := false }]
          delivering := false
          dropped := min ((s.ports.get p).dropped + 1) 65535 } } →
      n = (flagRec s .pictureSkipped).counter → k = (flagRec s .noticeOverrun).counter →
      m = (flagRec s .poolRefused).counter →
      (∀ f c, notice f c = { body := .flag f (min c 65535), tick := s.tbu.tick, pic := s.tbu.pic }) →
      told = notice .pictureSkipped (n + 1) →
      cmu = { s.cmu with
        flags := s.cmu.flags.set EventFlag.pictureSkipped.idx { set := true, counter := min (n + 1) 65535 } } →
      r = s.pkp.owners.get 5 →
      ((flagRec s .pictureSkipped).set = true → exec (.pictureEndComplete p) s = .next { u with cmu := cmu }) ∧
      ((flagRec s .pictureSkipped).set = false → s.cmu.noticesHome = false →
        (s.cmu.notices.length < 32 →
          exec (.pictureEndComplete p) s = .next { u with cmu := { cmu with notices := s.cmu.notices ++ [told] } }) ∧
        (s.cmu.notices.length = 32 → (flagRec s .noticeOverrun).set = true →
          exec (.pictureEndComplete p) s = .next { u with
            cmu := { cmu with
              notices := s.cmu.notices.drop 1 ++ [told]
              flags := cmu.flags.set EventFlag.noticeOverrun.idx { set := true, counter := min (k + 1) 65535 } } }) ∧
        (s.cmu.notices.length = 32 → (flagRec s .noticeOverrun).set = false →
          exec (.pictureEndComplete p) s = .next { u with
            cmu := { cmu with
              notices := s.cmu.notices.drop 2 ++ [told, notice .noticeOverrun (k + 1)]
              flags := cmu.flags.set EventFlag.noticeOverrun.idx { set := true, counter := min (k + 2) 65535 } } })) ∧
      ((flagRec s .pictureSkipped).set = false → s.cmu.noticesHome = true → s.cmu.notices.length < 32 →
        (s.cmu.homeNotices ≠ [] ∨ s.cmu.held ≠ none → s.cmu.homeNotices.length < 32 →
          exec (.pictureEndComplete p) s = .next { u with
            cmu := { cmu with
              notices := s.cmu.notices ++ [told], homeNotices := s.cmu.homeNotices ++ [told] } }) ∧
        (s.cmu.homeNotices.length = 32 → (flagRec s .noticeOverrun).set = true →
          exec (.pictureEndComplete p) s = .next { u with
            cmu := { cmu with
              notices := s.cmu.notices ++ [told]
              homeNotices := s.cmu.homeNotices.drop 1 ++ [told]
              flags := cmu.flags.set EventFlag.noticeOverrun.idx { set := true, counter := min (k + 1) 65535 } } }) ∧
        (∀ b free, s.cmu.homeNotices = [] → s.cmu.held = none → s.pkp.free = b :: free → r.count < r.cap →
          exec (.pictureEndComplete p) s = .next { u with
            cmu := { cmu with notices := s.cmu.notices ++ [told] }
            pkp := { s.pkp with
              free := free
              owners := s.pkp.owners.set 5 { r with count := r.count + 1 }
              reply := s.pkp.reply ++ [{
                kind := .reply, owner := some .labelReply, subject := none, number := 0
                stamp := s.tbu.tick, size := 16 + told.bytes.length, blocks := [b], payload := told.bytes }] } }) ∧
        (s.cmu.homeNotices = [] → s.cmu.held = none → s.pkp.free = [] ∨ r.cap ≤ r.count →
          (flagRec s .poolRefused).set = true →
          exec (.pictureEndComplete p) s = .next { u with
            cmu := { cmu with
              notices := s.cmu.notices ++ [told]
              homeNotices := [told]
              flags := cmu.flags.set EventFlag.poolRefused.idx { set := true, counter := min (m + 1) 65535 } }
            pkp := { s.pkp with owners := s.pkp.owners.set 5 { r with refused := min (r.refused + 1) 65535 } } })))

/-- R20, R21: a complete picture arriving while the input status of its programme, or of the even member of its formed pair,
is LOST makes it PRESENT with gap count 0, and sets and counts the refresh-owed mark; another programme's record stands. -/
def Obligations.PictureArrival_ReturnsFromLost : Prop :=
  ∀ (p q : Prog) (s : State), Quiet s → q = fold s p → (prog s q).input = .lost → (s.ports.get p).store.length ≤ 1 →
    exec (.pictureEndComplete p) s = .next { s.onProg q (fun r =>
        { r with input := .present, gapCount := 0, refreshOwed := true, causes := min (r.causes + 1) 65535 }) with
      ports := s.ports.set p { s.ports.get p with
        store := (s.ports.get p).store ++ [{ arrival := s.tbu.tick, taken := false }]
        delivering := false } }

/-! ### Chapters 2 and 3: the code start and the Coding Engine -/

/-- R18, R19, R21, R40, R41, R44, R45, R47 to R49, R129: a code start at which a RUNNING programme alone codes, its port, or
both ports of its formed pair, offering a picture. The newest is taken, and an older one that was never taken leaves the store,
is counted and sets PICTURE-SKIPPED. The type is ANCHOR where the refresh-owed mark is set or the group counter has reached G,
and FOLLOW otherwise; the start quantiser is the carried one, with the anchor offset for an anchor and any collapse step owed,
at most q_max. An anchor clears the mark, sets the group counter to 1, applies a pending method, heads the history, which keeps
16 entries, and resolves the in-points pending on the programme (none in a CLOSING record). The engine, which is idle, starts
band 1. -/
def Obligations.CodeStart_BeginsAPicture : Prop :=
  ∀ (c : CodeStart) (p : Prog) (s : State), Quiet s →
    codeStartDue s = some c → Alone p s → (prog s p).state = .running →
    entryOf s p = none → (prog s p).skipNext = false → s.cde.band = none → (formatOf s p).bands ≠ 0 → ClipsOk s.clm →
    (∀ k ∈ s.clm.clips, k.pendingOn p = true → k.state ≠ .closing) →
    ∃ (type : PicType) (target q : Nat) (after : CodingLoop) (begun : Table 4 Port → CommandUnit → State),
      type = (if (prog s p).refreshOwed = true ∨ (prog s p).cfg.group ≤ (loopOf s p).groupCount then .anchor else .follow) ∧
      target = (if type = .anchor then (rateOf s p).anchorTarget else (rateOf s p).followTarget) ∧
      q = min (prog s p).cfg.qMax ((loopOf s p).carried + (if type = .anchor then (prog s p).cfg.offset else 0) +
        (loopOf s p).collapse.getD 0) ∧
      after = (if type = .anchor then
          { loopOf s p with
            groupCount := 1
            method := (loopOf s p).pending.getD (loopOf s p).method
            pending := none
            collapse := none
            history := (c.pic :: (loopOf s p).history).take 16 }
        else { loopOf s p with groupCount := min 255 ((loopOf s p).groupCount + 1), collapse := none }) ∧
      (∀ ports cmu, begun ports cmu = { s with
          tbu := { s.tbu with codeStarts := s.tbu.codeStarts.tail }
          ports := ports
          cmu := cmu
          pgc := { s.pgc with
            progs := s.pgc.progs.set p { prog s p with
              input := .present
              gapCount := 0
              refreshOwed := if type = .anchor then false else (prog s p).refreshOwed } }
          clm := { s.clm with
            clips := s.clm.clips.map fun k =>
              if type = .anchor ∧ k.pendingOn p = true then { k with
                cameras := k.cameras.map fun m =>
                  if m.prog = p ∧ m.inPoint = none then { m with inPoint := some { pic := c.pic, short := false } } else m }
              else k }
          cde := {
            entries := s.cde.entries.set p (some {
              pic := c.pic, type := type, method := after.method, bands := (formatOf s p).bands, started := 1,
              target := target, limit := target * (prog s p).cfg.bandLimit / 100, loopQ := q, codingQ := q,
              tick := c.tick })
            band := some {
              prog := p, pic := c.pic, band := 1, quant := q,
              tiles := if after.method = .full then (formatOf s p).width else ((formatOf s p).width + 1) / 2 }
            lastServed := p
            loops := s.cde.loops.set p after } }) ∧
      (target ≠ 0 → (prog s p).pair = false → ∀ old v, (s.ports.get p).store = old ++ [v] → v.taken = false →
        ((∀ w ∈ old, w.taken = true) →
          exec .codeStart s = .next (begun (s.ports.set p { s.ports.get p with
            store := old ++ [{ v with taken := true }] }) s.cmu)) ∧
        ((∃ w ∈ old, w.taken = false) → s.cmu.noticesHome = false → s.cmu.notices.length < 32 →
          exec .codeStart s = .next (begun (s.ports.set p { s.ports.get p with
            store := (old.filter fun w => w.taken) ++ [{ v with taken := true }]
            dropped := min ((s.ports.get p).dropped + 1) 65535 }) (flagRaised .pictureSkipped s)))) ∧
      (target ≠ 0 → (prog s p).pair = true → p.val % 2 = 0 → ∀ old v old' v',
        (s.ports.get p).store = old ++ [v] → v.taken = false → (∀ w ∈ old, w.taken = true) →
        (s.ports.get (p + 1)).store = old' ++ [v'] → v'.taken = false → (∀ w ∈ old', w.taken = true) →
        exec .codeStart s = .next (begun ((s.ports.set p { s.ports.get p with
            store := old ++ [{ v with taken := true }] }).set (p + 1) { s.ports.get (p + 1) with
            store := old' ++ [{ v' with taken := true }] }) s.cmu))

/-- R19, R21, R44 to R46: a code start at which a RUNNING programme alone codes and its port, or a port of its formed pair,
offers nothing, no overflow being pending. Nothing is taken, the gap count gains one, and the input status becomes GAP below 25;
at 25 it becomes LOST and INPUT-LOST is set. A skip picture of one block is queued with the code start's tick as its timestamp,
the group counter gains one, and the refresh-owed mark stays. Where a picture is taken and the skip-next mark is set or the target
is 0, a skip picture is queued in its place. The skip-next mark is cleared. That the skip picture carries quantiser 0 and its
format's band count is the model's choice (log entry 14). -/
def Obligations.CodeStart_SkipsWithoutAPicture : Prop :=
  ∀ (c : CodeStart) (p : Prog) (b : Nat) (free : List Nat) (s : State), Quiet s → NoLinkTakes s →
    codeStartDue s = some c → Alone p s → (prog s p).state = .running → entryOf s p = none →
    (rateOf s p).fullness ≤ (rateOf s p).limit →
    s.pkp.free = b :: free → (s.pkp.owners.get (Owner.prog p).idx).count < (s.pkp.owners.get (Owner.prog p).idx).cap →
    ∃ skipped : Table 4 Port → Programme → State,
      (∀ ports r, skipped ports r = { s with
        tbu := { s.tbu with codeStarts := s.tbu.codeStarts.tail }
        ports := ports
        pgc := { s.pgc with progs := s.pgc.progs.set p r }
        cde := { s.cde with
          loops := s.cde.loops.set p { loopOf s p with groupCount := min 255 ((loopOf s p).groupCount + 1) } }
        pkp := { s.pkp with
          free := free
          owners := s.pkp.owners.modify (Owner.prog p).idx fun r => { r with count := r.count + 1 }
          picture := s.pkp.picture ++ [{
            kind := .picture, owner := some (.prog p), subject := some p.val, number := c.pic, stamp := c.tick,
            deadline := some (c.tick + BitVec.ofNat 32 ((prog s p).cfg.delay * 48)), size := 24, blocks := [b],
            payload := sliceHeader 0 (formatOf s p).bands 3 (loopOf s p).method 0 3 8 }] } }) ∧
      ((∀ w ∈ (s.ports.get p).store, w.taken = true) ∨
          ((prog s p).pair = true ∧ p.val % 2 = 0 ∧ ∀ w ∈ (s.ports.get (p + 1)).store, w.taken = true) →
        ((prog s p).input ≠ .lost → (prog s p).gapCount < 24 →
          exec .codeStart s = .next (skipped s.ports { prog s p with
            input := .gap, gapCount := (prog s p).gapCount + 1, skipNext := false })) ∧
        ((prog s p).input = .lost →
          exec .codeStart s = .next (skipped s.ports { prog s p with
            gapCount := min 25 ((prog s p).gapCount + 1), skipNext := false })) ∧
        ((prog s p).input ≠ .lost → (prog s p).gapCount = 24 → (prog s p).skipNext = false →
          ∃ t, exec .codeStart s = .next t ∧ (prog t p).input = .lost ∧ (prog t p).gapCount = 25 ∧
            (prog t p).state = .running ∧ (flagRec t .inputLost).set = true ∧ t.ports = s.ports)) ∧
      (∀ old v, (prog s p).pair = false → (s.ports.get p).store = old ++ [v] → v.taken = false →
        (∀ w ∈ old, w.taken = true) →
        (prog s p).skipNext = true ∨
          (if (prog s p).refreshOwed = true ∨ (prog s p).cfg.group ≤ (loopOf s p).groupCount then
            (rateOf s p).anchorTarget else (rateOf s p).followTarget) = 0 →
        exec .codeStart s = .next (skipped (s.ports.set p { s.ports.get p with
            store := old ++ [{ v with taken := true }] })
          { prog s p with input := .present, gapCount := 0, skipNext := false }))

/-- R26: a code start leaves a STARTING programme STARTING unless it carries the programme's first allocated picture; at the
one that does, the programme becomes RUNNING, its buffer fullness and budget carry become 0, its carried quantiser
floor((q_min + q_max) / 2), a picture that its port offers is begun as an anchor, the notice owed to the PROGRAMME-START is
queued with the state RUNNING, and the open stop becomes absent. The picture number in that notice, the code start's, is the
model's choice (log entry 9). -/
def Obligations.CodeStart_MakesRunning : Prop :=
  ∀ (c : CodeStart) (p : Prog) (s : State), Quiet s → codeStartDue s = some c → Alone p s →
    (prog s p).state = .starting → (prog s p).pair = false → entryOf s p = none →
    ((prog s p).awaiting = true ∨ (prog s p).firstPic ≠ some c.pic →
      exec .codeStart s = .next { s with tbu := { s.tbu with codeStarts := s.tbu.codeStarts.tail } }) ∧
    (∀ (v : StoredPicture) (o : OpenCommand), (prog s p).awaiting = false → (prog s p).firstPic = some c.pic →
      (prog s p).refreshOwed = true → (prog s p).skipNext = false → (prog s p).openStop = some o → o.origin = .van →
      s.cmu.noticesHome = false → s.cmu.notices.length < 32 → (rateOf s p).anchorTarget ≠ 0 →
      (formatOf s p).bands ≠ 0 → (s.ports.get p).store = [v] → v.taken = false →
      (∀ k ∈ s.clm.clips, k.pendingOn p = false) →
      ∃ t e, exec .codeStart s = .next t ∧
        t.pgc = { s.pgc with
          progs := s.pgc.progs.set p { prog s p with
            state := .running, input := .present, gapCount := 0, refreshOwed := false, openStop := none } } ∧
        t.ral = { s.ral with
          progs := s.ral.progs.set p { rateOf s p with fullness := 0, carry := 0, prevRate := (rateOf s p).rate } } ∧
        entryOf t p = some e ∧ e.type = .anchor ∧ e.pic = c.pic ∧ e.target = (rateOf s p).anchorTarget ∧
        e.loopQ = min (prog s p).cfg.qMax (((prog s p).cfg.qMin + (prog s p).cfg.qMax) / 2 + (prog s p).cfg.offset +
          (loopOf s p).collapse.getD 0) ∧
        t.cmu.notices = s.cmu.notices ++ [{
          body := .programme p .running c.pic none, answers := some o, tick := s.tbu.tick, pic := s.tbu.pic }] ∧
        (t.ports.get p).store = [{ v with taken := true }] ∧
        t = { s with
          tbu := { s.tbu with codeStarts := s.tbu.codeStarts.tail }
          ports := t.ports
          pgc := t.pgc
          cde := t.cde
          ral := t.ral
          cmu := t.cmu })

/-- R29, R30, R43, R44, R58: a code start that finds the picture of a STOPPING or FREEZING programme still in progress ends it:
the entry leaves the list, the carried quantiser takes the loop quantiser, a band of it in coding is marked for discard,
ENGINE-OVERRUN and the refresh-owed mark are set, the produced bits join the buffer fullness, and a STOPPING programme becomes
READY, as does a FREEZING one at the end of its hold. A RUNNING programme whose buffer stays within its limit and whose port
offers a picture goes on with an anchor, which starts from the quantiser that the overrun carried. -/
def Obligations.CodeStart_EndsAnOverrun : Prop :=
  ∀ (c : CodeStart) (p : Prog) (e : Entry) (s : State), Quiet s → codeStartDue s = some c → Alone p s →
    isPairedOdd s p = false → entryOf s p = some e →
    ((prog s p).state = .stopping ∨ (prog s p).state = .freezing →
      ∃ t, exec .codeStart s = .next t ∧
        (prog t p).state = (if (prog s p).state = .stopping ∨ (prog s p).remHold ≤ 1 then .ready else .freezing) ∧
        ((prog t p).state = .ready → (prog t p).openStop = none) ∧
        (prog t p).refreshOwed = true ∧ entryOf t p = none ∧ (loopOf t p).carried = e.loopQ ∧
        (rateOf t p).fullness = (rateOf s p).fullness + e.produced ∧
        (∀ b, s.cde.band = some b → b.prog = p → t.cde.band = some { b with discard := true }) ∧
        (flagRec t .engineOverrun).set = true ∧ t.ports = s.ports ∧ t.smx = s.smx ∧ t.sdp = s.sdp ∧ t.lsu = s.lsu) ∧
    (∀ old v, (prog s p).state = .running → (rateOf s p).fullness + e.produced ≤ (rateOf s p).limit →
      (prog s p).pair = false → (prog s p).skipNext = false → (rateOf s p).anchorTarget ≠ 0 →
      (s.ports.get p).store = old ++ [v] → v.taken = false → (∀ w ∈ old, w.taken = true) →
      (∀ k ∈ s.clm.clips, k.pendingOn p = false) → s.cmu.noticesHome = false → s.cmu.notices.length < 32 →
      ∃ t f, exec .codeStart s = .next t ∧ entryOf t p = some f ∧ f.type = .anchor ∧ f.pic = c.pic ∧
        f.target = (rateOf s p).anchorTarget ∧ f.produced = 0 ∧ f.done = 0 ∧
        f.loopQ = min (prog s p).cfg.qMax (e.loopQ + (prog s p).cfg.offset + (loopOf s p).collapse.getD 0) ∧
        prog t p = { prog s p with
          input := .present, gapCount := 0, refreshOwed := false, causes := min ((prog s p).causes + 1) 65535 } ∧
        (rateOf t p).fullness = (rateOf s p).fullness + e.produced ∧
        (∀ b, s.cde.band = some b → b.prog = p → t.cde.band = some { b with discard := true }) ∧
        t.cmu = flagRaised .engineOverrun s ∧ t.sdp = s.sdp ∧ t.smx = s.smx ∧ t.lsu = s.lsu)

/-- R30: at a code start a FREEZING programme alone, with no picture in progress and its hold at 0, becomes READY and its
notice is queued with the outcome FREEZE; no skip picture is emitted. With a hold of 1, one skip picture is emitted and the hold
ends with it; with one above 1, one skip picture is emitted and the hold falls by one. The picture number in the notice is that
of the code start, and the skip picture's header carries quantiser 0 and the format's band count: the model's choices (log
entries 9 and 14). -/
def Obligations.CodeStart_ActsOnTheHold : Prop :=
  ∀ (c : CodeStart) (p : Prog) (s : State), Quiet s → codeStartDue s = some c → Alone p s →
    (prog s p).state = .freezing → entryOf s p = none →
    (∀ o, (prog s p).remHold = 0 → (prog s p).openStop = some o → o.origin = .van → s.cmu.noticesHome = false →
      s.cmu.notices.length < 32 →
      exec .codeStart s = .next { s with
        tbu := { s.tbu with codeStarts := s.tbu.codeStarts.tail }
        pgc := { s.pgc with progs := s.pgc.progs.set p { prog s p with state := .ready, openStop := none } }
        cmu := { s.cmu with
          notices := s.cmu.notices ++ [{
            body := .programme p .ready c.pic (some .freeze), answers := some o, tick := s.tbu.tick,
            pic := s.tbu.pic }] } }) ∧
    (∀ (b : Nat) (free : List Nat), 1 ≤ (prog s p).remHold → NoLinkTakes s → s.pkp.free = b :: free →
      (s.pkp.owners.get (Owner.prog p).idx).count < (s.pkp.owners.get (Owner.prog p).idx).cap →
      (rateOf s p).fullness ≤ (rateOf s p).limit →
      ∃ skipped : Programme → CommandUnit → State,
        (∀ r cmu, skipped r cmu = { s with
          tbu := { s.tbu with codeStarts := s.tbu.codeStarts.tail }
          pgc := { s.pgc with progs := s.pgc.progs.set p r }
          cde := { s.cde with
            loops := s.cde.loops.set p { loopOf s p with groupCount := min 255 ((loopOf s p).groupCount + 1) } }
          pkp := { s.pkp with
            free := free
            owners := s.pkp.owners.modify (Owner.prog p).idx fun r => { r with count := r.count + 1 }
            picture := s.pkp.picture ++ [{
              kind := .picture, owner := some (.prog p), subject := some p.val, number := c.pic, stamp := c.tick,
              deadline := some (c.tick + BitVec.ofNat 32 ((prog s p).cfg.delay * 48)), size := 24, blocks := [b],
              payload := sliceHeader 0 (formatOf s p).bands 3 (loopOf s p).method 0 3 8 }] }
          cmu := cmu }) ∧
        (1 < (prog s p).remHold →
          exec .codeStart s = .next (skipped { prog s p with remHold := (prog s p).remHold - 1 } s.cmu)) ∧
        (∀ o, (prog s p).remHold = 1 → (prog s p).openStop = some o → o.origin = .van → s.cmu.noticesHome = false →
          s.cmu.notices.length < 32 →
          exec .codeStart s = .next (skipped { prog s p with remHold := 0, state := .ready, openStop := none }
            { s.cmu with
              notices := s.cmu.notices ++ [{
                body := .programme p .ready c.pic (some .freeze), answers := some o, tick := s.tbu.tick,
                pic := s.tbu.pic }] })))

/-- R55, R57, R146, R148: a full fragment of the band in coding is closed, and six blocks of 256 bytes are requested for its
packet of 1,328 bytes. Granted, they leave the head of the free list and are counted to the programme. A refusal, or a seventh
fragment, loses the band: the blocks it held are freed and a refresh is owed; a refusal is counted and sets POOL-REFUSED. The
model's choices: with no band in coding, or one already lost or marked for discard, nothing happens (log entry 2); a closed
fragment is full (log entry 13); the blocks of several fragments return in fragment order (log entry 57). -/
def Obligations.FragmentClose_RequestsBlocks : Prop :=
  ∀ (s : State), Quiet s →
    ((∀ b, s.cde.band = some b → b.discard = true ∨ b.lost = true) → exec .fragmentClose s = .next s) ∧
    (∀ b, s.cde.band = some b → b.discard = false → b.lost = false →
      (b.frags.length < 6 → 6 ≤ s.pkp.free.length →
        (s.pkp.owners.get (Owner.prog b.prog).idx).count + 6 ≤ (s.pkp.owners.get (Owner.prog b.prog).idx).cap →
        exec .fragmentClose s = .next { s with
          cde := { s.cde with band := some { b with frags := b.frags ++ [s.pkp.free.take 6] } }
          pkp := { s.pkp with
            free := s.pkp.free.drop 6
            owners := s.pkp.owners.modify (Owner.prog b.prog).idx fun r => { r with count := r.count + 6 } } }) ∧
      (6 ≤ b.frags.length → fold s b.prog = b.prog →
        exec .fragmentClose s = .next { s.onProg b.prog (fun r =>
            { r with refreshOwed := true, causes := min (r.causes + 1) 65535 }) with
          cde := { s.cde with band := some { b with frags := [], lost := true } }
          pkp := { s.pkp with
            free := s.pkp.free ++ b.frags.flatten
            owners := s.pkp.owners.modify (Owner.prog b.prog).idx fun r =>
              { r with count := r.count - b.frags.flatten.length } } }) ∧
      (b.frags.length < 6 → s.pkp.free.length < 6 ∨
          (s.pkp.owners.get (Owner.prog b.prog).idx).cap < (s.pkp.owners.get (Owner.prog b.prog).idx).count + 6 →
        s.cmu.noticesHome = false → s.cmu.notices.length < 32 → fold s b.prog = b.prog →
        ∃ t, exec .fragmentClose s = .next t ∧ (flagRec t .poolRefused).set = true ∧
          t = { s.onProg b.prog (fun r => { r with refreshOwed := true, causes := min (r.causes + 1) 65535 }) with
            cde := { s.cde with band := some { b with frags := [], lost := true } }
            pkp := { s.pkp with
              free := s.pkp.free ++ b.frags.flatten
              owners := s.pkp.owners.modify (Owner.prog b.prog).idx fun r =>
                { r with refused := min (r.refused + 1) 65535, count := r.count - b.frags.flatten.length } }
            cmu := t.cmu }))

/-- R42, R50 to R58, R78: the band in coding of a programme alone in the engine ends with its coded output. Its slice is cut
into fragments of 1,312 bytes, and those not yet closed request their blocks. Granted, the slice's packets join the PICTURE
queue in order, with the picture's timestamp and deadline, and its bits join S. A refusal, or a seventh fragment, loses the
band: its blocks return, a refresh is owed, and it adds nothing to S; a band lost before requests nothing. The loop quantiser
moves by the table of R50, within q_min and q_max, unless the limit has struck before. With bands left and S above the limit,
COARSEN, SHED and REPORT strike and set BAND-LIMITED: the next band starts at q_max under COARSEN and at the coding quantiser
under REPORT; SHED emits every band left as a skip-band slice, each where a block is granted, and ends the picture, an anchor
owing a refresh. The last band ends it too: the entry leaves, the carried quantiser takes the loop's, S joins the buffer
fullness, a fullness above the buffer limit sets skip-next and BUFFER-OVERFLOW, and a STOPPING programme becomes READY with the
notice of its FINISH. R59: a band marked for discard frees its blocks instead. The model's choices: the command carries the
whole coded output (log entry 13), the last fragments are closed before the limit is tested (log entry 12), the blocks of
several fragments return in fragment order (log entry 57), the packet record carries the band number (log entry 30), and the
picture number of the notice (log entry 9). -/
def Obligations.BandCompletion_QueuesTheSlice : Prop :=
  ∀ (coded : List Byte) (b : Band) (p : Prog) (s : State), Quiet s → s.cde.band = some b → b.prog = p →
    (b.discard = true → (∀ q, entryOf s q = none) →
      exec (.bandCompletion coded) s = .next { s with
        cde := { s.cde with band := none }
        pkp := { s.pkp with
          free := s.pkp.free ++ b.frags.flatten
          owners := s.pkp.owners.modify (Owner.prog p).idx fun r =>
            { r with count := r.count - b.frags.flatten.length } } }) ∧
    (∀ (e : Entry) (base : State) (bits produced q coding : Nat) (u d : Int) (strikes : Bool),
      b.discard = false → BandCloses coded b e s base bits → b.lost = true ∨ 1312 * b.frags.length ≤ 8 + coded.length →
      NoLinkTakes s → Alone p s → fold s p = p → entryOf s p = some e → 0 < e.bands →
      s.cmu.noticesHome = false → s.cmu.notices.length + 5 ≤ 32 → (∀ o, (prog s p).openStop = some o → o.origin = .van) →
      produced = e.produced + bits →
      u = (max 1 (e.target / (4 * e.bands)) : Nat) →
      d = (produced : Int) - (e.target * (e.done + 1) / e.bands : Nat) →
      (if e.struck then q = e.loopQ ∧ coding = e.codingQ else
        coding = q ∧ (q : Int) = min ((prog s p).cfg.qMax : Int) (max ((prog s p).cfg.qMin : Int) ((e.loopQ : Int) +
          (if 2 * u < d then 2 else if u < d then 1 else if -u ≤ d then 0 else if -(2 * u) ≤ d then -1 else -2)))) →
      (strikes = true ↔
        e.done + 1 < e.bands ∧ e.struck = false ∧ e.limit < produced ∧ (prog s p).cfg.action ≠ .off) →
      (e.done + 1 < e.bands → e.started < e.bands → (strikes = true → (prog s p).cfg.action ≠ .shed) →
        ∃ c : Nat, c = (if strikes = true ∧ (prog s p).cfg.action = .coarsen then (prog s p).cfg.qMax else coding) ∧
          exec (.bandCompletion coded) s = .next { base with
            cmu := if strikes then flagRaised .bandLimited base else base.cmu
            cde := { s.cde with
              entries := s.cde.entries.set p (some { e with
                produced := produced, done := e.done + 1, loopQ := q, codingQ := c, struck := e.struck || strikes
                started := e.started + 1 })
              band := some {
                prog := p, pic := e.pic, band := e.started + 1, quant := c
                tiles := if e.method = .full then (formatOf s p).width else ((formatOf s p).width + 1) / 2 }
              lastServed := p } }) ∧
      (∀ (last : State) (shed overflows stops : Bool) (told : List Notice),
        (shed = true ↔ strikes = true ∧ (prog s p).cfg.action = .shed) →
        (if shed then Sheds p e (e.done + 1) { base with cmu := flagRaised .bandLimited base } last
          else e.done + 1 = e.bands ∧ last = base) →
        (overflows = true ↔ (rateOf s p).limit < (rateOf s p).fullness + produced) →
        (stops = true ↔ (prog s p).state = .stopping) →
        told = (if stops then (prog s p).openStop.toList.map fun o => {
          body := .programme p .ready e.pic (some .finish), answers := some o, tick := s.tbu.tick, pic := s.tbu.pic }
          else []) →
        ∃ c : CommandUnit, c = (if overflows then flagRaised .bufferOverflow last else last.cmu) ∧
          exec (.bandCompletion coded) s = .next { last with
            cmu := { c with notices := c.notices ++ told }
            pgc := { last.pgc with
              progs := last.pgc.progs.modify p fun r => { r with
                skipNext := r.skipNext || overflows
                state := if stops then .ready else r.state
                openStop := if stops then none else r.openStop
                refreshOwed := r.refreshOwed || (shed && e.type == .anchor)
                causes := if shed && e.type == .anchor then min (r.causes + 1) 65535 else r.causes } }
            ral := { s.ral with
              progs := s.ral.progs.modify p fun r => { r with fullness := r.fullness + produced } }
            cde := { s.cde with
              entries := s.cde.entries.set p none
              band := none
              loops := s.cde.loops.modify p fun l => { l with carried := q } } }))

/-! ### Chapter 4: the allocation -/

/-- R65, R66, R68, R70 to R76, R79, R80: at a period start every pending rate record is copied. U is the sum of the links'
capacities (halved where DEGRADED), V what the reserve and the headroom leave of it, W the sum of the effective weights of the
STARTING and RUNNING programmes. Each of those receives its share of V between its minimum and maximum rate, its budget for the
period, its drained fullness (a STARTING programme from an empty buffer), its limit and its two targets, less the reduction
above half the limit and not below a quarter of the budget. A rate below r_down or above r_up turns the decided method: the
engine records it as pending, or clears the pending method where it is the current one (R48), a refresh is owed (R34) and
METHOD-CHANGED is set. A rate that has collapsed gives the engine the step for the carried quantiser. The other programmes keep
their figures and their engine. POOL-SHORT is set where the minima exceed V. The model's choices: the record of a PAIRED
programme is copied too (log entry 59), a programme that takes no part keeps its boosted mark (log entry 60), and POOL-SHORT
stands before the programmes' own figures (log entry 15). -/
def Obligations.PeriodStart_AllocatesRates : Prop :=
  ∀ (boosted : Prog → Bool) (s : State), Quiet s → s.cmu.held = none → periodDue s = true →
    (∀ p, boosted p = true ↔ ∃ q, fold s q = p ∧ (s.sri.onAir.get q = true ∨ ∃ c ∈ s.clm.clips, c.priority = .hot ∧
      (c.state = .opened ∨ c.state = .postRoll ∨ c.state = .closing) ∧ ∃ k ∈ c.cameras, k.prog = q)) →
    ∃ (t : State) (T U reserve V W mins : Nat) (part : Prog → Bool) (eff : Prog → Nat),
      exec .periodStart s = .next t ∧
      T = (if s.tbu.den ≤ s.tbu.acc + s.tbu.num then s.tbu.base + 1 else s.tbu.base) ∧
      (∀ p, part p = true ↔ (prog s p).state = .starting ∨ (prog s p).state = .running) ∧
      (∀ p, eff p = (rateOf s p).pending.weight * (if boosted p then (rateOf s p).pending.boost else 1)) ∧
      U = ((List.finRange 4).map fun l => match (link s l).state with
        | .up => (link s l).capacity
        | .degraded => (link s l).capacity / 2
        | _ => 0).sum ∧
      reserve = ((List.finRange 4).map fun i =>
        if (s.sdp.get i).enable then 96 * (s.sdp.get i).width.bits + 96 else 0).sum ∧
      V = (if reserve + s.ral.labelReserve < U then
        (U - (reserve + s.ral.labelReserve)) * (100 - s.ral.headroom) / 100 else 0) ∧
      W = ((List.finRange 4).map fun p => if part p then eff p else 0).sum ∧
      mins = ((List.finRange 4).map fun p => if part p then (rateOf s p).pending.minRate else 0).sum ∧
      (V < mins → (flagRec t .poolShort).set = true) ∧
      t.ral.headroom = s.ral.headroom ∧ t.ral.labelReserve = s.ral.labelReserve ∧
      t.ral.figures = {
        usable := U, soundReserve := reserve, labelReserve := s.ral.labelReserve, videoPool := V, weightSum := W,
        minSum := mins } ∧
      t.cde = { s.cde with loops := t.cde.loops } ∧
      (∀ p, part p = false →
        rateOf t p = { rateOf s p with active := (rateOf s p).pending, tookPart := false } ∧ loopOf t p = loopOf s p) ∧
      (∀ p, part p = true → ∃ (r : RateRecord) (rate b fullness reduction : Nat),
        r = (rateOf s p).pending ∧
        rate = min r.maxRate (max r.minRate (V * eff p / W)) ∧
        b = (rate * T + if (prog s p).state = .starting then 0 else (rateOf s p).carry) / 48 ∧
        fullness = (if (prog s p).state = .starting then 0 else (rateOf s p).fullness) - b ∧
        reduction = (if rate * (prog s p).cfg.delay / 2 < fullness then
          (fullness - rate * (prog s p).cfg.delay / 2) / 4 else 0) ∧
        rateOf t p = {
          pending := r
          active := r
          rate := rate
          prevRate := rate
          boosted := boosted p
          tookPart := true
          budget := b
          carry := if (prog s p).state = .starting then (rateOf s p).carry
            else (rate * T + (rateOf s p).carry) % 48
          fullness := if (prog s p).state = .starting then (rateOf s p).fullness else fullness
          limit := rate * (prog s p).cfg.delay
          anchorTarget := if b = 0 then 0 else max (b / 4) (b * (prog s p).cfg.factor - reduction)
          followTarget := if b = 0 then 0 else max (b / 4) (b - reduction)
          decided := if (rateOf s p).decided = .full ∧ rate < r.rDown then .half
            else if (rateOf s p).decided = .half ∧ r.rUp < rate then .full else (rateOf s p).decided } ∧
        loopOf t p = { loopOf s p with
          pending := if (rateOf s p).decided = (rateOf t p).decided then (loopOf s p).pending
            else if (loopOf s p).method = (rateOf t p).decided then none else some (rateOf t p).decided
          collapse := if (prog s p).state = .running ∧ 0 < r.collapse ∧
              rate * 100 < (rateOf s p).prevRate * (100 - r.collapse) then some r.step else (loopOf s p).collapse } ∧
        ((rateOf s p).decided ≠ (rateOf t p).decided →
          (prog t (fold s p)).refreshOwed = true ∧ (flagRec t .methodChanged).set = true))

/-! ### Chapters 5, 6 and 9: the block event -/

/-- R9, R87, R88, R163, R165: a block event that finds the mixer unaligned aligns it on the block after the ended one; one below
the mix lag is silent and leaves the mixer. Each UP link gains floor((C + carry) / 24) bytes of credit up to its burst allowance
and keeps the remainder, a DEGRADED one the same with half its capacity, and no other link gains. No home sound stream is
enabled and no packet waits. That with no block event due nothing happens is the model's choice (log entry 2). -/
def Obligations.BlockEvent_AlignsAndCredits : Prop :=
  ∀ (m : BlockNo) (s : State), Quiet s →
    (s.tbu.blockDue = false → exec .blockEvent s = .next s) ∧
    (s.tbu.blockDue = true → (∀ i, (s.sdp.get i).enable = false) → QueuesEmpty s →
      m = BitVec.ofNat 16 (s.tbu.tick.toNat / 16) - 1 →
      ∃ links : Table 4 LinkSched,
        (∀ l c, c = (match (link s l).state with
            | .up => some (link s l).capacity
            | .degraded => some ((link s l).capacity / 2)
            | _ => none) →
          links.get l = match c with
            | some c => { sched s l with
                credit := min (link s l).settings.burst ((sched s l).credit + (c + (sched s l).carry) / 24)
                carry := (c + (sched s l).carry) % 24 }
            | none => sched s l) ∧
        (s.smx.aligned = false →
          exec .blockEvent s = .next { s with
            tbu := { s.tbu with blockDue := false }
            smx := { s.smx with aligned := true, next := m + 1 }
            hsc := { s.hsc with links := links } }) ∧
        (s.smx.aligned = true → (m - s.smx.next).toNat < s.smx.lag ∨ 32768 ≤ (m - s.smx.next).toNat →
          exec .blockEvent s = .next { s with
            tbu := { s.tbu with blockDue := false }
            hsc := { s.hsc with links := links } }))

/-- R88 to R96, R101 to R103: the block event whose gap is the mix lag or above mixes the block at the deadline; blocks before
it are skipped and leave the stores. An input gives its stored block, or, where that is lost, its policy's substitute, and
silence where it is unmapped. Each bus sums the ramped terms at 1/4096, applies its own ramped master gain, saturates and meters
the result; ramps end at their targets. SOUND-LOSS is set for a lost block and BUS-CLIPPED for a saturated bus. Each trigger
then steps on its bus's block peak by the table of R101. Where one alone opens, its MARK-IN makes a record or is refused, and
the answer is on its way; where one alone releases a recorded clip, an OPEN one enters POST-ROLL. No home sound stream is
enabled here. That the run count stays at an opening and a release, that the Clip Marker works a mark at once, and that all
inputs, buses and triggers take their steps in that order, are the model's choices (log entries 18, 19 and 17). -/
def Obligations.BlockEvent_MixesAtTheLag : Prop :=
  ∀ (m n : BlockNo) (s : State), Quiet s → s.tbu.blockDue = true → s.smx.aligned = true →
    (∀ i, (s.sdp.get i).enable = false) → m = BitVec.ofNat 16 (s.tbu.tick.toNat / 16) - 1 →
    s.smx.lag ≤ (m - s.smx.next).toNat → (m - s.smx.next).toNat < 32768 → n = m - BitVec.ofNat 16 s.smx.lag →
    ∃ (t : State) (x : Fin 32 → SoundBlock) (y z out : Fin 8 → Fin 16 → Int) (lost : Fin 32 → Prop) (peak : Fin 4 → Nat),
      exec .blockEvent s = .next t ∧
      (∀ k, lost k ↔ (∀ b ∈ (inputOf s k).store, b.block ≠ n) ∧ ∃ i, s.sri.table.get i = .soundInput k) ∧
      (∀ k b old new, (inputOf s k).store = old ++ b :: new → b.block = n → (∀ c ∈ old, c.block ≠ n) →
        x k = b.samples) ∧
      (∀ k, lost k → x k = match (inputOf s k).policy with
        | .silence => silentBlock
        | .again => (inputOf s k).last
        | .hold => Table.replicate 16 ((inputOf s k).last.get 15)) ∧
      (∀ k, ¬ lost k → (∀ b ∈ (inputOf s k).store, b.block ≠ n) → x k = silentBlock) ∧
      (∀ b j, y b j = (((List.finRange 32).map fun k => ((x k).get j).toInt * (((crossOf s k b).applied : Int) +
        ((((crossOf s k b).target : Int) - (crossOf s k b).applied) * (j.val + 1)).tdiv 16)).sum + 2048) / 4096) ∧
      (∀ b j, z b j = (y b j * (((busOf s b).applied : Int) +
        ((((busOf s b).master : Int) - (busOf s b).applied) * (j.val + 1)).tdiv 16) + 2048) / 4096) ∧
      (∀ b j, out b j = max (-8388608) (min 8388607 (z b j))) ∧
      t.smx.next = n + 1 ∧ t.smx.aligned = true ∧ t.smx.lag = s.smx.lag ∧ t.smx.groups = s.smx.groups ∧
      (∀ k, ∃ loss, (lost k → loss = min ((inputOf s k).loss + 1) 65535) ∧ (¬ lost k → loss = (inputOf s k).loss) ∧
        inputOf t k = { inputOf s k with
          store := (inputOf s k).store.filter fun b => b.block != n && decide ((b.block - n).toNat < 32768)
          last := x k
          loss := loss }) ∧
      (∀ k b, crossOf t k b = { crossOf s k b with applied := (crossOf s k b).target }) ∧
      (∀ b, ∃ peak clips, (∀ j, min 8388607 (out b j).natAbs ≤ peak) ∧ (∃ j, peak = min 8388607 (out b j).natAbs) ∧
        ((∃ j, out b j ≠ z b j) → clips = min ((busOf s b).clips + 1) 65535 ∧ (flagRec t .busClipped).set = true) ∧
        ((∀ j, out b j = z b j) → clips = (busOf s b).clips) ∧
        busOf t b = { busOf s b with
          applied := (busOf s b).master
          clips := clips
          blockPeak := peak
          heldPeak := max peak ((busOf s b).heldPeak - (busOf s b).decay) }) ∧
      ((∃ k, lost k) → (flagRec t .soundLoss).set = true) ∧
      t.sdp = s.sdp ∧ t.ports = s.ports ∧ t.cde = s.cde ∧ t.ral = s.ral ∧ t.lsu = s.lsu ∧
      t.sri = s.sri ∧ t.tbu = { s.tbu with blockDue := false } ∧
      (∀ i, peak i = (busOf t (triggerOf s i).bus).blockPeak) ∧
      (∀ i, triggerOf t i = (triggerOf s i).stepped (peak i)) ∧
      ((∀ i, ¬ (triggerOf s i).MarksIn (peak i) ∧ ∀ c, ¬ (triggerOf s i).MarksOut (peak i) c) →
        t.clm = s.clm ∧ t.smx.answers = s.smx.answers) ∧
      (∀ i, (∀ k, k ≠ i → ¬ (triggerOf s k).MarksIn (peak k) ∧ ∀ c, ¬ (triggerOf s k).MarksOut (peak k) c) →
        ClipsOk s.clm →
        ((triggerOf s i).MarksIn (peak i) → ∀ kept : List Prog, kept.Pairwise (· < ·) →
          (∀ p, p ∈ kept ↔ (∃ q, (triggerOf s i).cameras.get q = true ∧ fold s q = p) ∧ (prog s p).state = .running) →
          (kept = [] → t.clm = s.clm ∧ t.smx.answers = s.smx.answers ++ [{ trigger := i, clip := none }]) ∧
          (kept ≠ [] → s.clm.clips.length = 64 → s.clm.acked = [] → (flagRec t .clipFull).set = true ∧
            t.clm = s.clm ∧ t.smx.answers = s.smx.answers ++ [{ trigger := i, clip := none }]) ∧
          (kept ≠ [] → s.clm.clips.length < 64 → NoLinkTakes s → s.cmu.noticesHome = false → ∃ c,
            MarkedIn (.trigger i) (triggerOf s i).priority kept s t c ∧ t.clm = withRecord c s.clm ∧
            t.smx.answers = s.smx.answers ++ [{ trigger := i, clip := some c.number }])) ∧
        (∀ c, (triggerOf s i).MarksOut (peak i) c → s.clm.postRoll ≠ 0 →
          t.smx.answers = s.smx.answers ∧
          t.clm = { s.clm with
            clips := s.clm.clips.map fun k => if k.number = c ∧ k.state = .opened then
              { k with state := .postRoll, count := s.clm.postRoll } else k }))

/-- R111, R112, R115 to R118: a silent block event reaches the one enabled stream. Its line takes 16 zero samples ahead of
what it held, to a depth of 96,016; samples 0 to 14 are read at the current delay and sample 15 at the delay one step nearer
the target, which becomes current. With no assembly, two blocks are granted and a packet opens, stamped at the block's start
less the delay, its deadline after the buffer delay of the linked programme or the stream's allowance. The fourth block
fills the packet, which joins the SOUND queue. -/
def Obligations.BlockEvent_PacksSound : Prop :=
  ∀ (m : BlockNo) (i : Fin 4) (t : SoundStream) (s : State), Quiet s → NoLinkCarries s → s.tbu.blockDue = true →
    m = BitVec.ofNat 16 (s.tbu.tick.toNat / 16) - 1 → s.smx.aligned = true →
    (m - s.smx.next).toNat < s.smx.lag → t = s.sdp.get i → t.enable = true →
    (∀ k, k ≠ i → (s.sdp.get k).enable = false) →
    ∃ (d stamp : Nat) (lineL lineR : List Sample) (outL outR : SoundBlock) (ms : Nat),
      d = (if t.current < t.target then t.current + 1 else if t.target < t.current then t.current - 1
        else t.current) ∧
      (∀ n, lineL.getD n 0 = if n < 16 ∨ 96016 ≤ n then 0 else t.lineL.getD (n - 16) 0) ∧
      (∀ n, lineR.getD n 0 = if n < 16 ∨ 96016 ≤ n then 0 else t.lineR.getD (n - 16) 0) ∧
      (∀ j, outL.get j = lineL.getD (15 - j.val + if j.val = 15 then d else t.current) 0) ∧
      (∀ j, outR.get j = lineR.getD (15 - j.val + if j.val = 15 then d else t.current) 0) ∧
      ms = (match t.linked with
        | some q => (prog s (fold s q)).cfg.delay
        | none => t.allowance) ∧
      stamp = (s.tbu.tick - 16 - BitVec.ofNat 32 t.current).toNat ∧
      (t.assembly = none → 2 ≤ s.pkp.free.length →
        (s.pkp.owners.get Owner.sound.idx).count + 2 ≤ (s.pkp.owners.get Owner.sound.idx).cap →
        exec .blockEvent s = .next { s with
          tbu := { s.tbu with blockDue := false }
          sdp := s.sdp.set i { t with
            lineL := lineL
            lineR := lineR
            current := d
            assembly := some {
              packed := 1
              width := t.width
              packet := some {
                kind := .sound
                owner := some .sound
                subject := some i.val
                number := BitVec.ofNat 32 m.toNat
                stamp := BitVec.ofNat 32 stamp
                deadline := some (BitVec.ofNat 32 (stamp + ms * 48))
                size := if t.width = .bits16 then 272 else 400
                blocks := s.pkp.free.take 2
                payload := packBlock t.width outL outR } } }
          pkp := { s.pkp with
            free := s.pkp.free.drop 2
            owners := s.pkp.owners.modify Owner.sound.idx fun r => { r with count := r.count + 2 } } }) ∧
      (∀ w pk, t.assembly = some { packed := 3, width := w, packet := some pk } →
        exec .blockEvent s = .next { s with
          tbu := { s.tbu with blockDue := false }
          sdp := s.sdp.set i { t with
            lineL := lineL
            lineR := lineR
            current := d
            assembly := none
            packets := min (t.packets + 1) 65535 }
          pkp := { s.pkp with
            sound := s.pkp.sound ++ [{ pk with payload := pk.payload ++ packBlock w outL outR }] } })

/-! ### Chapters 5, 7, 11 and 12: the cells of the ring -/

/-- R85, R86, R199: a SOUND cell on a stream that names no destination counts one unrouted cell, on one of another
destination one wrong-kind cell. On a stream mapped to an input, an unaligned mixer discards it; an aligned one stores a
block 0 to 3 ahead of the next to mix that it does not hold, and counts every other cell as duplicate, late or early, with
SOUND-LATE set. -/
def Obligations.SoundCell_IsStoredOrCounted : Prop :=
  ∀ (i : RingStream) (c : BlockNo) (x : SoundBlock) (s : State), Quiet s →
    (s.sri.table.get i = .none →
      exec (.soundCell i c x) s = .next { s with sri := { s.sri with unrouted := min (s.sri.unrouted + 1) 65535 } }) ∧
    (s.sri.table.get i = .tally ∨ s.sri.table.get i = .control ∨ (∃ d, s.sri.table.get i = .desk d) →
      exec (.soundCell i c x) s = .next { s with sri := { s.sri with wrongKind := min (s.sri.wrongKind + 1) 65535 } }) ∧
    (∀ k, s.sri.table.get i = .soundInput k →
      (s.smx.aligned = false → exec (.soundCell i c x) s = .next s) ∧
      (s.smx.aligned = true → (c - s.smx.next).toNat < 4 → (∀ b ∈ (inputOf s k).store, b.block ≠ c) →
        exec (.soundCell i c x) s = .next { s with
          smx := { s.smx with
            inputs := s.smx.inputs.modify k fun v => { v with store := v.store ++ [⟨c, x⟩] } } }) ∧
      (s.smx.aligned = true → s.cmu.noticesHome = false → s.cmu.notices.length < 32 →
        (4 ≤ (c - s.smx.next).toNat ∨ ∃ b ∈ (inputOf s k).store, b.block = c) →
        ∃ t, exec (.soundCell i c x) s = .next t ∧ (flagRec t .soundLate).set = true ∧
          t = { s with
            cmu := t.cmu
            smx := { s.smx with
              inputs := s.smx.inputs.modify k fun v =>
                if (c - s.smx.next).toNat < 4 then { v with duplicate := min (v.duplicate + 1) 65535 }
                else if (c - s.smx.next).toNat < 32768 then { v with early := min (v.early + 1) 65535 }
                else { v with late := min (v.late + 1) 65535 } } }))

/-- R127, R131, R140, R199, R201, R213: a TALLY cell of at most four distinct programme numbers below 4 replaces the on-air set,
and the tally view with its members folded onto pairs. The tally clip of a camera that leaves the air is marked out, an OPEN one
entering POST-ROLL, and becomes absent. With auto-mark on, a camera that alone enters the air is marked in: a RUNNING one makes
the record of R127 in a free place, and its tally clip; one in another state, or with the table full and no record ACKED, which
sets CLIP-FULL, makes none. A cell of another form is discarded uncounted, and one on a stream of another destination is counted
as unrouted or of the wrong kind. That a cell of another form is discarded whatever its stream's entry is, is the model's choice
(log entry 49). -/
def Obligations.TallyCell_ReplacesTheOnAirSet : Prop :=
  ∀ (i : RingStream) (count : Byte) (body : List Byte) (names : List Nat) (s : State), Quiet s →
    names = (body.take count.toNat).map (·.toNat) →
    ((4 < count.toNat ∨ ¬ names.Nodup ∨ ∃ v ∈ names, 4 ≤ v) → exec (.tallyCell i count body) s = .next s) ∧
    (count.toNat ≤ 4 → names.Nodup → (∀ v ∈ names, v < 4) →
      (s.sri.table.get i = .none →
        exec (.tallyCell i count body) s = .next { s with
          sri := { s.sri with unrouted := min (s.sri.unrouted + 1) 65535 } }) ∧
      (s.sri.table.get i = .control ∨ (∃ k, s.sri.table.get i = .soundInput k) ∨ (∃ d, s.sri.table.get i = .desk d) →
        exec (.tallyCell i count body) s = .next { s with
          sri := { s.sri with wrongKind := min (s.sri.wrongKind + 1) 65535 } }) ∧
      (s.sri.table.get i = .tally → ∃ onAir view : Table 4 Bool, (∀ p, onAir.get p = true ↔ p.val ∈ names) ∧
        (∀ p, view.get p = true ↔ ∃ q : Prog, q.val ∈ names ∧ fold s q = p) ∧
        (s.clm.autoMark = false → (∀ p, s.clm.view.get p = true → view.get p = false → s.clm.tally.get p = none) →
          exec (.tallyCell i count body) s = .next { s with
            sri := { s.sri with onAir := onAir }
            clm := { s.clm with view := view } }) ∧
        (s.clm.autoMark = false → s.clm.postRoll ≠ 0 → ClipsOk s.clm →
          ∀ leaves : Prog → Bool, (∀ p, leaves p = (s.clm.view.get p && !view.get p)) →
          exec (.tallyCell i count body) s = .next { s with
            sri := { s.sri with onAir := onAir }
            clm := { s.clm with
              view := view
              tally := Table.ofFn fun p => if leaves p then none else s.clm.tally.get p
              clips := s.clm.clips.map fun c =>
                if c.state = .opened ∧ ∃ p, leaves p = true ∧ s.clm.tally.get p = some c.number then
                  { c with state := .postRoll, count := s.clm.postRoll }
                else c } }) ∧
        (∀ p, s.clm.autoMark = true → ClipsOk s.clm →
          (∀ q, s.clm.view.get q = true → view.get q = false → s.clm.tally.get q = none) →
          (∀ q, view.get q = true ∧ s.clm.view.get q = false ↔ q = p) →
          ((prog s p).state ≠ .running →
            exec (.tallyCell i count body) s = .next { s with
              sri := { s.sri with onAir := onAir }
              clm := { s.clm with view := view, tally := s.clm.tally.set p none } }) ∧
          ((prog s p).state = .running → s.clm.clips.length < 64 →
            ∃ (t : State) (c : Clip), exec (.tallyCell i count body) s = .next t ∧
              MarkedIn .tally s.clm.tallyPriority [p] s t c ∧
              t = { s with
                pgc := t.pgc
                sri := { s.sri with onAir := onAir }
                clm := { withRecord c s.clm with view := view, tally := s.clm.tally.set p (some c.number) } }) ∧
          ((prog s p).state = .running → s.clm.clips.length = 64 → s.clm.acked = [] → s.cmu.noticesHome = false →
            s.cmu.notices.length < 32 →
            exec (.tallyCell i count body) s = .next { s with
              sri := { s.sri with onAir := onAir }
              clm := { s.clm with view := view, tally := s.clm.tally.set p none }
              cmu := flagRaised .clipFull s }))))

/-- R202, R203, R213: on a desk's or a control stream, with no message partly received, a CONTROL-first cell of a one-cell
message acts as the complete message of its first length bytes, and one of a longer message is kept as a partial message; over a
message partly received it does the same, once that one is discarded, counted and MALFORMED set. A continuation cell of the
expected index extends the message, or, the last, completes it. A continuation cell of another index, or with none partly
received, is discarded with what was received, counted, and sets MALFORMED. A first cell of a count outside 1 to 8, or of a
length above 448, is discarded and counted likewise. That UNKNOWN_COMMAND stands for the complete message is the model's choice
(log entry 40). -/
def Obligations.ControlCells_AssembleMessages : Prop :=
  ∀ (i : RingStream) (src : Src) (s : State), Quiet s →
    (s.sri.table.get i = .control ∧ src = .van i none ∨ ∃ d, s.sri.table.get i = .desk d ∧ src = .van i (some d)) →
    (∀ (kind tag count : Byte) (length : BitVec 16) (body : List Byte), s.sri.partials.get i = none →
      length.toNat ≤ 448 →
      (count = 1 → length.toNat ≤ 56 →
        exec (.controlFirstCell i kind tag count length body) s =
          exec (.unknownCommand ⟨src, tag⟩ kind (body.take length.toNat)) s) ∧
      (2 ≤ count.toNat → count.toNat ≤ 8 →
        exec (.controlFirstCell i kind tag count length body) s = .next { s with
          sri := { s.sri with
            partials := s.sri.partials.set i (some {
              kind := kind, tag := tag, cells := count.toNat, length := length.toNat, received := 1,
              bytes := body }) } })) ∧
    (∀ (index : Byte) (body : List Byte) (a : Assembling), s.sri.partials.get i = some a → a.received = index.toNat →
      (a.received + 1 < a.cells →
        exec (.controlContinuationCell i index body) s = .next { s with
          sri := { s.sri with
            partials := s.sri.partials.set i (some { a with
              received := a.received + 1, bytes := a.bytes ++ body }) } }) ∧
      (a.received + 1 = a.cells → (a.cells - 1) * 56 < a.length → a.length ≤ a.cells * 56 →
        exec (.controlContinuationCell i index body) s =
          exec (.unknownCommand ⟨src, a.tag⟩ a.kind ((a.bytes ++ body).take a.length))
            { s with sri := { s.sri with partials := s.sri.partials.set i none } })) ∧
    (s.cmu.noticesHome = false → s.cmu.notices.length < 32 →
      (∀ (index : Byte) (body : List Byte),
        (s.sri.partials.get i = none ∨ ∃ a, s.sri.partials.get i = some a ∧ a.received ≠ index.toNat) →
        ∃ t, exec (.controlContinuationCell i index body) s = .next t ∧ (flagRec t .malformed).set = true ∧
          t = { s with
            cmu := t.cmu
            sri := { s.sri with
              partials := s.sri.partials.set i none
              discarded := min (s.sri.discarded + 1) 65535 } }) ∧
      (∀ (kind tag count : Byte) (length : BitVec 16) (body : List Byte),
        (count = 0 ∨ 8 < count.toNat ∨ 448 < length.toNat) →
        ∃ t, exec (.controlFirstCell i kind tag count length body) s = .next t ∧ (flagRec t .malformed).set = true ∧
          t = { s with
            cmu := t.cmu
            sri := { s.sri with
              partials := s.sri.partials.set i none
              discarded := min (s.sri.discarded + 1) 65535 } }) ∧
      (∀ (kind tag count : Byte) (length : BitVec 16) (body : List Byte) (a : Assembling) (dropped : Option Assembling → State),
        s.sri.partials.get i = some a → length.toNat ≤ 448 →
        (∀ x, dropped x = { s with
          cmu := flagRaised .malformed s
          sri := { s.sri with
            partials := s.sri.partials.set i x
            discarded := min (s.sri.discarded + 1) 65535 } }) →
        (count = 1 → length.toNat ≤ 56 →
          exec (.controlFirstCell i kind tag count length body) s =
            exec (.unknownCommand ⟨src, tag⟩ kind (body.take length.toNat)) (dropped none)) ∧
        (2 ≤ count.toNat → count.toNat ≤ 8 →
          exec (.controlFirstCell i kind tag count length body) s = .next (dropped (some {
            kind := kind, tag := tag, cells := count.toNat, length := length.toNat, received := 1, bytes := body })))))

/-- R178, R199, R213 to R215: a cell of no kind counts one wrong-kind cell; a SOUND, continuation, REPLY or NOTICE cell on a
stream that names no destination counts one unrouted cell, and a REPLY or NOTICE cell on another one wrong-kind cell. A return
packet or modem report of an unknown kind, or of the wrong length for its kind, counts one ignored home request. The model's
choices: the commands carry raw bytes, judged like any other (log entry 40), and a cell of no kind is of the wrong kind on every
stream (log entry 49). -/
def Obligations.UnusableInput_IsCounted : Prop :=
  ∀ (s : State), Quiet s →
    (∀ (stream kind : Byte) (rest : List Byte),
      ((kind = 0 ∨ 6 < kind.toNat) →
        exec (.unroutedCell (stream :: kind :: rest)) s = .next { s with
          sri := { s.sri with wrongKind := min (s.sri.wrongKind + 1) 65535 } }) ∧
      ((kind = 1 ∨ kind = 4 ∨ kind = 5 ∨ kind = 6) → s.sri.table.get stream.toFin = .none →
        exec (.unroutedCell (stream :: kind :: rest)) s = .next { s with
          sri := { s.sri with unrouted := min (s.sri.unrouted + 1) 65535 } }) ∧
      ((kind = 5 ∨ kind = 6) → s.sri.table.get stream.toFin ≠ .none →
        exec (.unroutedCell (stream :: kind :: rest)) s = .next { s with
          sri := { s.sri with wrongKind := min (s.sri.wrongKind + 1) 65535 } })) ∧
    (∀ (kind : Byte) (rest : List Byte),
      (¬(kind = 1 ∧ rest.length = 4 ∨ kind = 2 ∧ rest.length = 1 ∨ kind = 3 ∧ 5 ≤ rest.length) →
        exec (.ignoredReturnPacket (kind :: rest)) s = .next { s with
          hsc := { s.hsc with ignoredHome := min (s.hsc.ignoredHome + 1) 65535 } }) ∧
      (∀ l : Link, ¬(kind = 1 ∧ rest.length = 4 ∨ kind = 2 ∧ rest.length = 1 ∨ kind = 3 ∧ rest.length = 3) →
        exec (.ignoredModemReport l (kind :: rest)) s = .next { s with
          hsc := { s.hsc with ignoredHome := min (s.hsc.ignoredHome + 1) 65535 } }))

/-! ### Chapters 4, 5, 6 and 11: the setting commands of the allocator, the ring table, the mixer and the sound streams -/

/-- R67, R68: RATE-SET. Rate fields without a programme, a programme outside 0 to 3, and formed thresholds with r_down not below
r_up are refused with REFUSED-RANGE; the odd member of a formed pair with REFUSED-STATE. A programme and no other field is a
query of the pending record. Otherwise the fields are clamped, the maximum is raised to the minimum, the pending record and the
pool fields are stored, and an IDLE or READY programme's active record follows at once. The model's choices: the odd member is
refused in the query form too (log entry 16), and the widths of the reply's numbers (log entry 50). -/
def Obligations.RateSet_StoresTheRecord : Prop :=
  ∀ (h : Hdr) (i : RingStream) (f : RateFields) (pool : Bool) (s : State), VanReady h i s →
    pool = (outside 0 50 f.headroom || outside 0 2000 f.labelReserve) →
    (f.prog = none →
      ((f.weight ≠ none ∨ f.boost ≠ none ∨ f.minRate ≠ none ∨ f.maxRate ≠ none ∨ f.rDown ≠ none ∨ f.rUp ≠ none ∨
          f.collapse ≠ none ∨ f.step ≠ none) →
        exec (.rateSet h f) s = .next { s with sri := ringReply s.sri h i 7 5 [] }) ∧
      (f.weight = none → f.boost = none → f.minRate = none → f.maxRate = none → f.rDown = none → f.rUp = none →
        f.collapse = none → f.step = none →
        exec (.rateSet h f) s = .next { s with
          ral := { s.ral with
            headroom := loaded 0 50 s.ral.headroom f.headroom
            labelReserve := loaded 0 2000 s.ral.labelReserve f.labelReserve }
          sri := ringReply s.sri h i 7 (doneCode pool) [] })) ∧
    (∀ n, f.prog = some n → 3 < n → exec (.rateSet h f) s = .next { s with sri := ringReply s.sri h i 7 5 [] }) ∧
    (∀ p : Prog, f.prog = some p.val →
      (p.val % 2 = 1 → (prog s (p - 1)).pair = true →
        exec (.rateSet h f) s = .next { s with sri := ringReply s.sri h i 7 4 [] }) ∧
      (p.val % 2 = 0 ∨ (prog s (p - 1)).pair = false → ∀ old formed : RateRecord, old = (rateOf s p).pending →
        formed = { weight := loaded 1 255 old.weight f.weight
                   boost := loaded 1 4 old.boost f.boost
                   minRate := loaded 0 100000 old.minRate f.minRate
                   maxRate := max (loaded 0 100000 old.maxRate f.maxRate) (loaded 0 100000 old.minRate f.minRate)
                   rDown := loaded 0 100000 old.rDown f.rDown
                   rUp := loaded 0 100000 old.rUp f.rUp
                   collapse := if f.collapse = some 0 then 0 else loaded 10 90 old.collapse f.collapse
                   step := loaded 1 16 old.step f.step } →
        (f = { prog := some p.val } →
          exec (.rateSet h f) s = .next { s with
            sri := ringReply s.sri h i 7 1 [some (beBytes 1 old.weight ++ beBytes 1 old.boost ++ beBytes 4 old.minRate ++
              beBytes 4 old.maxRate ++ beBytes 4 old.rDown ++ beBytes 4 old.rUp ++ beBytes 1 old.collapse ++
              beBytes 1 old.step)] }) ∧
        (f ≠ { prog := some p.val } → formed.rUp ≤ formed.rDown →
          exec (.rateSet h f) s = .next { s with sri := ringReply s.sri h i 7 5 [] }) ∧
        (f ≠ { prog := some p.val } → formed.rDown < formed.rUp →
          exec (.rateSet h f) s = .next { s with
            ral := { s.ral with
              headroom := loaded 0 50 s.ral.headroom f.headroom
              labelReserve := loaded 0 2000 s.ral.labelReserve f.labelReserve
              progs := s.ral.progs.modify p fun r => { r with
                pending := formed
                active := if (prog s p).state = .idle ∨ (prog s p).state = .ready then formed else r.active } }
            sri := ringReply s.sri h i 7 (doneCode (outside 1 255 f.weight || outside 1 4 f.boost ||
              outside 0 100000 f.minRate || outside 0 100000 f.maxRate || outside 0 100000 f.rDown ||
              outside 0 100000 f.rUp || (outside 10 90 f.collapse && !decide (f.collapse = some 0)) ||
              outside 1 16 f.step || pool ||
              decide (loaded 0 100000 old.maxRate f.maxRate < loaded 0 100000 old.minRate f.minRate))) [] })))

/-- R200: INPUT-MAP. An empty list and no output stream is a query of the output stream and of the number of streams of each
destination kind. A destination, number or stream out of range is refused with REFUSED-RANGE. The formed table takes, for each
stream named, its later entry; without a CONTROL entry, or with an output stream whose entry is not NONE, the command is refused
with REFUSED-STATE. Otherwise it is stored, and a stream whose entry changes loses its partial message, counted. The model's
choices: the order and width of the counts, and a disregarded third byte (log entry 48). -/
def Obligations.InputMap_JudgesTheTable : Prop :=
  ∀ (h : Hdr) (i : RingStream) (f : MapFields) (s : State), VanReady h i s → f.entries.length ≤ 32 →
    (f = {} → ∀ n1 n2 n3 n4 n5 : Nat, n1 = (Finset.univ.filter fun k => s.sri.table.get k = .none).card →
      n2 = (Finset.univ.filter fun k => ∃ j, s.sri.table.get k = .soundInput j).card →
      n3 = (Finset.univ.filter fun k => s.sri.table.get k = .tally).card →
      n4 = (Finset.univ.filter fun k => ∃ j, s.sri.table.get k = .desk j).card →
      n5 = (Finset.univ.filter fun k => s.sri.table.get k = .control).card →
      exec (.inputMap h f) s = .next { s with
        sri := ringReply s.sri h i 8 1 [some [byteOf s.sri.output.val],
          some (beBytes 2 n1 ++ beBytes 2 n2 ++ beBytes 2 n3 ++ beBytes 2 n4 ++ beBytes 2 n5)] }) ∧
    (f ≠ {} →
      ((∃ n, f.output = some n ∧ 255 < n) ∨ (∃ e ∈ f.entries, 255 < e.stream ∨ e.dest = 0 ∨ 5 < e.dest ∨
          e.dest = 2 ∧ 31 < e.index ∨ e.dest = 4 ∧ 7 < e.index) →
        exec (.inputMap h f) s = .next { s with sri := ringReply s.sri h i 8 5 [] }) ∧
      (∀ out : RingStream, f.output.getD s.sri.output.val = out.val →
        (∀ e ∈ f.entries, e.stream ≤ 255 ∧ 1 ≤ e.dest ∧ e.dest ≤ 5 ∧ (e.dest = 2 → e.index ≤ 31) ∧
          (e.dest = 4 → e.index ≤ 7)) →
        ∃ t : Table 256 Dest,
          (∀ k, (∀ e ∈ f.entries, e.stream ≠ k.val) → t.get k = s.sri.table.get k) ∧
          (∀ k early e late, f.entries = early ++ e :: late → e.stream = k.val → (∀ d ∈ late, d.stream ≠ k.val) →
            match t.get k with
            | .none => e.dest = 1
            | .soundInput n => e.dest = 2 ∧ e.index = n.val
            | .tally => e.dest = 3
            | .desk n => e.dest = 4 ∧ e.index = n.val
            | .control => e.dest = 5) ∧
          ((∀ k, t.get k ≠ .control) ∨ t.get out ≠ .none →
            exec (.inputMap h f) s = .next { s with sri := ringReply s.sri h i 8 4 [] }) ∧
          ((∃ k, t.get k = .control) → t.get out = .none → ∀ partials : Table 256 (Option Assembling), ∀ n : Nat,
            (∀ k, partials.get k = if t.get k = s.sri.table.get k then s.sri.partials.get k else none) →
            n = (Finset.univ.filter fun k => partials.get k ≠ s.sri.partials.get k).card →
            exec (.inputMap h f) s = .next { s with
              sri := ringReply { s.sri with
                table := t
                output := out
                partials := partials
                discarded := if n = 0 then s.sri.discarded else min (s.sri.discarded + n) 65535 } h i 8 1 [] })))

/-- R91, R92, R97: INPUT-SET. An input outside 0 to 31, a group outside 0 to 7, or a mute or policy that is no choice is refused
with REFUSED-RANGE; an input and no other field is a query. Otherwise the fields are stored, the trim clamped, and the targets
of the input's eight cross-points are computed again: 0 where its own mute or a muted group of it mutes it, floor(trim × cross /
4,096) otherwise. That an absent input is REFUSED-RANGE is the model's choice (log entry 42). -/
def Obligations.InputSet_RecomputesTheInput : Prop :=
  ∀ (h : Hdr) (i : RingStream) (f : InputFields) (s : State), VanReady h i s →
    (f.groups = none ∨ ∃ l, f.groups = some l ∧ l.length ≤ 8) →
    ((f.input = none ∨ ∃ n, f.input = some n ∧ 31 < n) →
      exec (.inputSet h f) s = .next { s with sri := ringReply s.sri h i 9 5 [] }) ∧
    (∀ k : Fin 32, f.input = some k.val →
      (f = { input := some k.val } →
        exec (.inputSet h f) s = .next { s with sri := ringReply s.sri h i 9 1 (inputResults s k) }) ∧
      (f ≠ { input := some k.val } →
        ((∃ v, f.mute = some v ∧ v ≠ 1 ∧ v ≠ 2) ∨ (∃ l, f.groups = some l ∧ ∃ g ∈ l, 7 < g) ∨
            (∃ v, f.policy = some v ∧ (v = 0 ∨ 3 < v)) →
          exec (.inputSet h f) s = .next { s with sri := ringReply s.sri h i 9 5 [] }) ∧
        (∀ (mute : Bool) (policy : LossPolicy),
          (f.mute = none ∧ mute = (inputOf s k).mute ∨ f.mute = some (if mute then 1 else 2)) →
          (f.policy = none ∧ policy = (inputOf s k).policy ∨ f.policy = some policy.code) →
          (∀ l, f.groups = some l → ∀ g ∈ l, g ≤ 7) →
          ∃ (groups : Table 8 Bool) (muted : Prop) (trim : Nat),
            (f.groups = none → groups = (inputOf s k).groups) ∧
            (∀ l, f.groups = some l → ∀ g, groups.get g = true ↔ g.val ∈ l) ∧
            (muted ↔ mute = true ∨ ∃ g, groups.get g = true ∧ s.smx.groups.get g = true) ∧
            trim = loaded 0 8192 (inputOf s k).trim f.trim ∧
            ∃ cross : Table 32 (Table 8 CrossPoint),
              (∀ j, j ≠ k → cross.get j = s.smx.cross.get j) ∧
              (∀ b, (muted → (cross.get k).get b = { crossOf s k b with target := 0 }) ∧
                (¬ muted → (cross.get k).get b =
                  { crossOf s k b with target := trim * (crossOf s k b).cross / 4096 })) ∧
              exec (.inputSet h f) s = .next { s with
                smx := { s.smx with
                  inputs := s.smx.inputs.set k { inputOf s k with
                    trim := trim, mute := mute, groups := groups, policy := policy }
                  cross := cross }
                sri := ringReply s.sri h i 9 (doneCode (outside 0 8192 f.trim)) [] })))

/-- R91, R92, R98, R99: MIX-SET stores the later value that its 1 to 32 entries name for each cross-point, clamped to 8,192,
and computes that target again; one entry out of range refuses the whole with REFUSED-RANGE. BUS-SET clamps and stores the
master, decay and mix lag, stores the group mutes, and computes again the cross-points of every member of a changed group;
a bus field without a bus, a bus outside 0 to 7 and a mute that is no choice are refused with REFUSED-RANGE. -/
def Obligations.MixSetAndBusSet_StoreAndRecompute : Prop :=
  ∀ (h : Hdr) (i : RingStream) (s : State), VanReady h i s →
    (∀ entries : List MixEntry, 1 ≤ entries.length → entries.length ≤ 32 →
      ((∃ e ∈ entries, 31 < e.input ∨ 7 < e.bus) →
        exec (.mixSet h entries) s = .next { s with sri := ringReply s.sri h i 10 5 [] }) ∧
      ((∀ e ∈ entries, e.input ≤ 31 ∧ e.bus ≤ 7) →
        ∃ cross : Table 32 (Table 8 CrossPoint),
          (∀ k b, (∀ e ∈ entries, ¬(e.input = k.val ∧ e.bus = b.val)) → (cross.get k).get b = crossOf s k b) ∧
          (∀ (k : Fin 32) (b : Fin 8) early e late, entries = early ++ e :: late → e.input = k.val → e.bus = b.val →
            (∀ d ∈ late, ¬(d.input = k.val ∧ d.bus = b.val)) →
            (cross.get k).get b = { crossOf s k b with
              cross := min 8192 e.cross
              target := if (inputOf s k).mute = true ∨
                  (∃ g, (inputOf s k).groups.get g = true ∧ s.smx.groups.get g = true) then 0
                else (inputOf s k).trim * min 8192 e.cross / 4096 }) ∧
          exec (.mixSet h entries) s = .next { s with
            smx := { s.smx with cross := cross }
            sri := ringReply s.sri h i 10 (doneCode (entries.any fun e => decide (8192 < e.cross))) [] })) ∧
    (∀ f : BusFields,
      ((f.bus = none ∧ (f.master ≠ none ∨ f.decay ≠ none)) ∨ (∃ n, f.bus = some n ∧ 7 < n) ∨
          (∃ g v, f.groups.get g = some v ∧ v ≠ 1 ∧ v ≠ 2) →
        exec (.busSet h f) s = .next { s with sri := ringReply s.sri h i 11 5 [] }) ∧
      (f.bus = none ∧ f.master = none ∧ f.decay = none ∨ (∃ b : Fin 8, f.bus = some b.val) →
        ∀ groups : Table 8 Bool, (∀ g, f.groups.get g = none ∧ groups.get g = s.smx.groups.get g ∨
          f.groups.get g = some (if groups.get g then 1 else 2)) →
        ∃ (buses : Table 8 Bus) (cross : Table 32 (Table 8 CrossPoint)),
          (∀ b, buses.get b = if f.bus = some b.val then { busOf s b with
              master := loaded 0 8192 (busOf s b).master f.master
              decay := loaded 0 65535 (busOf s b).decay f.decay } else busOf s b) ∧
          (∀ k b, (cross.get k).get b =
            if ∃ g, (inputOf s k).groups.get g = true ∧ groups.get g ≠ s.smx.groups.get g then { crossOf s k b with
              target := if (inputOf s k).mute = true ∨ (∃ g, (inputOf s k).groups.get g = true ∧ groups.get g = true)
                then 0 else (inputOf s k).trim * (crossOf s k b).cross / 4096 }
            else crossOf s k b) ∧
          exec (.busSet h f) s = .next { s with
            smx := { s.smx with
              buses := buses
              cross := cross
              groups := groups
              lag := loaded 1 4 s.smx.lag f.lag }
            sri := ringReply s.sri h i 11
              (doneCode (outside 0 8192 f.master || outside 0 65535 f.decay || outside 1 4 f.lag)) [] }))

/-- R100, R104: TRIGGER-SET. A trigger, bus, camera or priority out of range, and a formed hi not above the formed lo unless
both are 0, are refused with REFUSED-RANGE. Otherwise the values are stored, clamped. With the bus and thresholds as they were
the trigger's state, run count and clip are kept; a change of them, and a disable, makes it IDLE with run count 0, keeps an
awaited clip awaited, and sends a recorded clip its MARK-OUT at once, so that an OPEN record enters POST-ROLL. The model's
choices: an absent trigger is REFUSED-RANGE (log entry 42), and the Clip Marker takes the MARK-OUT at once (log entry 19). -/
def Obligations.TriggerSet_StoresAndEnds : Prop :=
  ∀ (h : Hdr) (i : RingStream) (f : TriggerFields) (s : State), VanReady h i s → ClipsOk s.clm → s.clm.postRoll ≠ 0 →
    (f.cameras = none ∨ ∃ l, f.cameras = some l ∧ l.length ≤ 4) →
    ((f.trigger = none ∨ ∃ n, f.trigger = some n ∧ 3 < n) →
      exec (.triggerSet h f) s = .next { s with sri := ringReply s.sri h i 12 5 [] }) ∧
    (∀ (k : Fin 4) (old : Trigger), f.trigger = some k.val → old = triggerOf s k →
      ((∃ v, f.bus = some v ∧ 7 < v) ∨ (∃ l, f.cameras = some l ∧ ∃ c ∈ l, 3 < c) ∨
          (∃ v, f.priority = some v ∧ v ≠ 1 ∧ v ≠ 2) →
        exec (.triggerSet h f) s = .next { s with sri := ringReply s.sri h i 12 5 [] }) ∧
      (∀ (bus : Fin 8) (prio : Priority), (f.bus = none ∧ bus = old.bus ∨ f.bus = some bus.val) →
        (f.priority = none ∧ prio = old.priority ∨ f.priority = some prio.code) →
        (∀ l, f.cameras = some l → ∀ c ∈ l, c ≤ 3) →
        ∃ (cameras : Table 4 Bool) (new : Trigger) (reply : Ring),
          (f.cameras = none → cameras = old.cameras) ∧
          (∀ l, f.cameras = some l → ∀ c, cameras.get c = true ↔ c.val ∈ l) ∧
          new = { old with
            bus := bus
            hi := loaded 0 8388607 old.hi f.hi
            lo := loaded 0 8388607 old.lo f.lo
            nOpen := loaded 1 255 old.nOpen f.nOpen
            nClose := loaded 1 255 old.nClose f.nClose
            cameras := cameras
            priority := prio } ∧
          reply = ringReply s.sri h i 12 (doneCode (outside 0 8388607 f.hi || outside 0 8388607 f.lo ||
            outside 1 255 f.nOpen || outside 1 255 f.nClose)) [] ∧
          (new.hi ≤ new.lo → new.hi ≠ 0 ∨ new.lo ≠ 0 →
            exec (.triggerSet h f) s = .next { s with sri := ringReply s.sri h i 12 5 [] }) ∧
          (new.lo < new.hi → new.bus = old.bus → new.hi = old.hi → new.lo = old.lo →
            exec (.triggerSet h f) s = .next { s with
              smx := { s.smx with triggers := s.smx.triggers.set k new }
              sri := reply }) ∧
          (new.lo < new.hi ∧ (new.bus ≠ old.bus ∨ new.hi ≠ old.hi ∨ new.lo ≠ old.lo) ∨ new.hi = 0 ∧ new.lo = 0 →
            ((∀ n, old.clip ≠ .number n) →
              exec (.triggerSet h f) s = .next { s with
                smx := { s.smx with triggers := s.smx.triggers.set k { new with state := .idle, run := 0 } }
                sri := reply }) ∧
            (∀ n, old.clip = .number n →
              exec (.triggerSet h f) s = .next { s with
                smx := { s.smx with
                  triggers := s.smx.triggers.set k { new with state := .idle, run := 0, clip := .absent } }
                clm := { s.clm with
                  clips := s.clm.clips.map fun c => if c.number = n ∧ c.state = .opened then { c with
                    state := .postRoll
                    count := s.clm.postRoll } else c }
                sri := reply }))))

/-- R102: the answer to a trigger's MARK-IN. Where the trigger's clip is awaited, a refusal makes it absent; a clip number is
recorded by a trigger that is ACTIVE or RELEASING, and for one already released the MARK-OUT owed is sent and the clip becomes
absent. The model's choices: the answer is delivered by its own command, and where no clip is awaited it changes nothing else
(log entry 19); with no answer on its way nothing happens (log entries 2, 19). -/
def Obligations.TriggerAnswer_RecordsOrMarksOut : Prop :=
  ∀ (k : Fin 4) (s : State), Quiet s → ClipsOk s.clm → s.clm.postRoll ≠ 0 →
    ((∀ a ∈ s.smx.answers, a.trigger ≠ k) → exec (.triggerAnswer k) s = .next s) ∧
    (∀ early a late, s.smx.answers = early ++ a :: late → a.trigger = k → (∀ b ∈ early, b.trigger ≠ k) →
      ((triggerOf s k).clip ≠ .awaited →
        exec (.triggerAnswer k) s = .next { s with smx := { s.smx with answers := early ++ late } }) ∧
      ((triggerOf s k).clip = .awaited → a.clip = none →
        exec (.triggerAnswer k) s = .next { s with
          smx := { s.smx with
            answers := early ++ late
            triggers := s.smx.triggers.modify k fun t => { t with clip := .absent } } }) ∧
      (∀ n, (triggerOf s k).clip = .awaited → a.clip = some n →
        ((triggerOf s k).state = .active ∨ (triggerOf s k).state = .releasing →
          exec (.triggerAnswer k) s = .next { s with
            smx := { s.smx with
              answers := early ++ late
              triggers := s.smx.triggers.modify k fun t => { t with clip := .number n } } }) ∧
        ((triggerOf s k).state = .idle ∨ (triggerOf s k).state = .arming →
          exec (.triggerAnswer k) s = .next { s with
            smx := { s.smx with
              answers := early ++ late
              triggers := s.smx.triggers.modify k fun t => { t with clip := .absent } }
            clm := { s.clm with
              clips := s.clm.clips.map fun c => if c.number = n ∧ c.state = .opened then { c with
                state := .postRoll
                count := s.clm.postRoll } else c } })))

/-- R108 to R110, R113: SOUND-STREAM-SET. A stream, bus, width or programme out of range, and an enable that is no choice, are
refused with REFUSED-RANGE; a stream and no other field is a query. Otherwise the fields are stored, clamped, and a link, fixed
delay or trim in the command gives the target of R110. A stream turned on starts at its target with a silent line and no
assembly; one turned off loses its assembly, whose blocks go to the tail of the free list. The model's choices: an absent stream
is REFUSED-RANGE (log entry 42), and the widths of the reply's numbers (log entry 50). -/
def Obligations.SoundStreamSet_StoresAndSwitches : Prop :=
  ∀ (h : Hdr) (i : RingStream) (f : StreamFields) (s : State), VanReady h i s →
    ((f.stream = none ∨ ∃ n, f.stream = some n ∧ 3 < n) →
      exec (.soundStreamSet h f) s = .next { s with sri := ringReply s.sri h i 13 5 [] }) ∧
    (∀ (k : Fin 4) (old : SoundStream), f.stream = some k.val → old = s.sdp.get k →
      (f = { stream := some k.val } →
        exec (.soundStreamSet h f) s = .next { s with sri := ringReply s.sri h i 13 1 (streamResults s old) }) ∧
      (f ≠ { stream := some k.val } →
        ((∃ v, f.enable = some v ∧ v ≠ 1 ∧ v ≠ 2) ∨ (∃ v, f.left = some v ∧ 7 < v) ∨ (∃ v, f.right = some v ∧ 7 < v) ∨
            (∃ v, f.width = some v ∧ v ≠ 16 ∧ v ≠ 24) ∨ (∃ v, f.linked = some (some v) ∧ 3 < v) →
          exec (.soundStreamSet h f) s = .next { s with sri := ringReply s.sri h i 13 5 [] }) ∧
        (∀ (enable : Bool) (left right : Fin 8) (width : Width) (linked : Option Prog),
          (f.enable = none ∧ enable = old.enable ∨ f.enable = some (if enable then 1 else 2)) →
          (f.left = none ∧ left = old.left ∨ f.left = some left.val) →
          (f.right = none ∧ right = old.right ∨ f.right = some right.val) →
          (f.width = none ∧ width = old.width ∨ f.width = some (match width with
            | .bits16 => 16
            | .bits24 => 24)) →
          (f.linked = none ∧ linked = old.linked ∨ f.linked = some (linked.map (·.val))) →
          ∃ (fixedDelay target : Nat) (trim : Int) (new : SoundStream) (reply : Ring),
            fixedDelay = loaded 0 96000 old.fixedDelay f.fixedDelay ∧
            (f.trim = none → trim = old.trim) ∧ (∀ v, f.trim = some v → trim = max (-4800) (min 4800 v)) ∧
            target = (if f.linked = none ∧ f.fixedDelay = none ∧ f.trim = none then old.target
              else match linked with
                | some q => (min 96000 (max 0 ((((prog s (fold s q)).cfg.latency * s.tbu.base +
                    (prog s (fold s q)).cfg.latency * s.tbu.num / s.tbu.den : Nat) : Int) + trim))).toNat
                | none => (min 96000 (max 0 ((fixedDelay : Int) + trim))).toNat) ∧
            new = { old with
              left := left
              right := right
              width := width
              linked := linked
              fixedDelay := fixedDelay
              trim := trim
              allowance := loaded 100 2000 old.allowance f.allowance
              target := target } ∧
            reply = ringReply s.sri h i 13 (doneCode (outside 0 96000 f.fixedDelay || outside 100 2000 f.allowance ||
              decide (∃ v ∈ f.trim, v < -4800 ∨ 4800 < v))) [] ∧
            (enable = old.enable →
              exec (.soundStreamSet h f) s = .next { s with sdp := s.sdp.set k new, sri := reply }) ∧
            (enable = true → old.enable = false →
              exec (.soundStreamSet h f) s = .next { s with
                sdp := s.sdp.set k { new with
                  enable := true, current := target, lineL := [], lineR := [], assembly := none }
                sri := reply }) ∧
            (enable = false → old.enable = true → ∀ blocks : List Nat,
              (∀ a p, old.assembly = some a → a.packet = some p → blocks = p.blocks) →
              ((∀ a p, old.assembly = some a → a.packet ≠ some p) → blocks = []) →
              exec (.soundStreamSet h f) s = .next { s with
                sdp := s.sdp.set k { new with enable := false, lineL := [], lineR := [], assembly := none }
                pkp := { s.pkp with
                  free := s.pkp.free ++ blocks
                  owners := s.pkp.owners.modify Owner.sound.idx fun r => { r with count := r.count - blocks.length } }
                sri := reply }))))

/-! ### Chapter 7: the Clip Marker's commands -/

/-- R123 to R128: CLIP-MARK IN from the control stream for desk d. Its cameras are folded, and those not RUNNING dropped; with
none left it is refused with REFUSED-STATE, and with 64 records and none ACKED with REFUSED-FULL, which sets CLIP-FULL.
Otherwise a record is added, in a free place or that of the record acknowledged longest ago, under the first free number, with
its in-points placed from the anchor histories; desk d's pointer refers to it, a camera with a pending in-point owes a refresh,
and the reply carries the number, the mark, the cameras and their in-points. The model's choices: an anchor at a distance of
2,147,483,648 is not at or before the mark (log entry 25), a clip number in the command is disregarded (log entry 26), and the
bytes of a camera and of an in-point in the reply (log entries 51, 52). -/
def Obligations.ClipMarkIn_MakesARecord : Prop :=
  ∀ (h : Hdr) (i : RingStream) (f : MarkFields) (d : Fin 8) (l : List Nat) (prio : Priority) (text : List Byte)
    (s : State), VanReady h i s → ClipsOk s.clm → f.ref.desk = some d.val → f.cameras = some l → 1 ≤ l.length →
    l.length ≤ 4 → (∀ c ∈ l, c ≤ 3) →
    (f.priority = none ∧ prio = .normal ∨ f.priority = some prio.code) → text = f.text.getD [] →
    (∀ c ∈ text, 32 ≤ c.toNat ∧ c.toNat ≤ 126) →
    ∃ kept : List Prog, kept.Pairwise (· < ·) ∧
      (∀ p, p ∈ kept ↔ (∃ q : Prog, q.val ∈ l ∧ fold s q = p) ∧ (prog s p).state = .running) ∧
      (kept = [] → exec (.clipMarkIn h f) s = .next { s with sri := ringReply s.sri h i 14 4 [] }) ∧
      (kept ≠ [] → s.clm.clips.length = 64 → s.clm.acked = [] → s.cmu.noticesHome = false →
        s.cmu.notices.length < 32 →
        ∃ t, exec (.clipMarkIn h f) s = .next t ∧ (flagRec t .clipFull).set = true ∧
          t = { s with cmu := t.cmu, sri := ringReply s.sri h i 14 7 [] }) ∧
      (∀ m : ClipMarker, kept ≠ [] →
        (s.clm.clips.length < 64 ∧ m = s.clm ∨ s.clm.clips.length = 64 ∧ ∃ old rest, s.clm.acked = old :: rest ∧
          m = { s.clm with
            clips := s.clm.clips.filter fun c => c.number != old
            desks := s.clm.desks.map fun k => if k = some old then none else k
            tally := s.clm.tally.map fun k => if k = some old then none else k
            waiting := s.clm.waiting.filter fun k => k != old
            acked := s.clm.acked.filter fun k => k != old }) →
        ∃ (t : State) (n ahead : Nat) (cameras : List ClipCamera), exec (.clipMarkIn h f) s = .next t ∧
          n = (s.clm.next - 1 + ahead) % 65535 + 1 ∧ (∀ c ∈ m.clips, c.number ≠ n) ∧
          (∀ k < ahead, ∃ c ∈ m.clips, c.number = (s.clm.next - 1 + k) % 65535 + 1) ∧
          cameras.map (·.prog) = kept ∧
          (∀ k ∈ cameras, let history := (loopOf s k.prog).history
            (s.clm.preRoll = 0 →
              k.inPoint = if s.tbu.pic ∈ history then some { pic := s.tbu.pic, short := false } else none) ∧
            (s.clm.preRoll ≠ 0 → ∀ target, target = s.tbu.pic - BitVec.ofNat 32 s.clm.preRoll →
              (∀ newer a older, history = newer ++ a :: older → (target - a).toNat ≤ 2147483647 →
                (∀ b ∈ newer, 2147483647 < (target - b).toNat) → k.inPoint = some { pic := a, short := false }) ∧
              ((∀ b ∈ history, 2147483647 < (target - b).toNat) →
                k.inPoint = history.getLast?.map fun a => { pic := a, short := true }))) ∧
          (∀ p, prog t p = if { prog := p, inPoint := none } ∈ cameras then { prog s p with
            refreshOwed := true, causes := min ((prog s p).causes + 1) 65535 } else prog s p) ∧
          t.pgc.formats = s.pgc.formats ∧
          t = { s with
            pgc := t.pgc
            clm := { m with
              clips := m.clips ++ [{
                number := n, state := .opened, source := .vanDesk d, priority := prio, mark := s.tbu.pic,
                cameras := cameras, text := text.take 48 }]
              next := if n = 65535 then 1 else n + 1
              desks := m.desks.set d (some n) }
            sri := ringReply s.sri h i 14 (doneCode (decide (48 < text.length))) [some (beBytes 2 n),
              some (beBytes 4 s.tbu.pic.toNat), some (kept.map fun p => byteOf p.val),
              some (cameras.map fun k => match k.inPoint with
                | some a => beBytes 4 a.pic.toNat ++ [if a.short then 2 else 1]
                | none => [0, 0, 0, 0, 3]).flatten] })

/-- R125, R131 to R133, R135, R142: CLIP-MARK OUT, EXTEND and CANCEL from the control stream, of the record whose number is
named or to which the named desk's pointer refers; with no such record each is refused with REFUSED-RANGE. OUT moves an OPEN
record to POST-ROLL, and where the setting is 0 runs it out at once, into CLOSING with an in-point pending, or into CLOSED,
where its label waits or is queued; EXTEND restarts a POST-ROLL count; CANCEL frees a live record; each is refused with
REFUSED-STATE in the states that bar it. -/
def Obligations.ClipMarkOutExtendCancel_ActOnTheRecord : Prop :=
  ∀ (h : Hdr) (i : RingStream) (f : MarkFields) (s : State), VanReady h i s → ClipsOk s.clm →
    (f.cameras = none ∨ ∃ l, f.cameras = some l ∧ 1 ≤ l.length ∧ l.length ≤ 4 ∧ ∀ c ∈ l, c ≤ 3) →
    (f.priority = none ∨ f.priority = some 1 ∨ f.priority = some 2) →
    (∀ t, f.text = some t → ∀ c ∈ t, 32 ≤ c.toNat ∧ c.toNat ≤ 126) →
    ∀ names : Nat → Prop, (∀ n, names n ↔ (f.ref.desk = none ∨ ∃ d : Fin 8, f.ref.desk = some d.val) ∧
      (f.ref.clip = some n ∨ f.ref.clip = none ∧ ∃ d : Fin 8, f.ref.desk = some d.val ∧ s.clm.desks.get d = some n)) →
    ((∀ c ∈ s.clm.clips, ¬ names c.number) → ∀ reply, reply = ringReply s.sri h i 14 5 [] →
      exec (.clipMarkOut h f) s = .next { s with sri := reply } ∧
      exec (.clipMarkExtend h f) s = .next { s with sri := reply } ∧
      exec (.clipMarkCancel h f) s = .next { s with sri := reply }) ∧
    (∀ c ∈ s.clm.clips, names c.number →
      ∀ (n : Nat) (put : Clip → State), n = c.number →
      (∀ d, put d = { s with
        clm := { s.clm with clips := s.clm.clips.map fun k => if k.number = n then d else k } }) →
      (c.state = .opened → s.clm.postRoll ≠ 0 →
        exec (.clipMarkOut h f) s = .next { put { c with state := .postRoll, count := s.clm.postRoll } with
          sri := ringReply s.sri h i 14 1 [some (beBytes 2 n), some [2]] }) ∧
      (c.state = .opened → s.clm.postRoll = 0 → (∃ k ∈ c.cameras, k.inPoint = none) →
        exec (.clipMarkOut h f) s = .next { put { c with
            state := .closing, count := 0, expiry := some (s.tbu.pic - 1) } with
          sri := ringReply s.sri h i 14 1 [some (beBytes 2 n), some [3]] }) ∧
      (c.state = .opened → s.clm.postRoll = 0 →
        (∀ k ∈ c.cameras, ∃ a, k.inPoint = some a ∧ (s.tbu.pic - 1 - a.pic).toNat ≤ 2147483647) →
        ∀ closed : Clip, closed = { c with
            state := .closed, count := 0, expiry := none, outPoint := some (s.tbu.pic - 1) } →
          (s.clm.waiting ≠ [] →
            exec (.clipMarkOut h f) s = .next { put closed with
              clm := { (put closed).clm with waiting := s.clm.waiting ++ [n] }
              sri := ringReply s.sri h i 14 1 [some (beBytes 2 n), some [4]] }) ∧
          (∀ b free, s.clm.waiting = [] → NoLinkTakes s → s.pkp.free = b :: free →
            (s.pkp.owners.get Owner.labelReply.idx).count < (s.pkp.owners.get Owner.labelReply.idx).cap →
            exec (.clipMarkOut h f) s = .next { put closed with
              pkp := { s.pkp with
                free := free
                owners := s.pkp.owners.modify Owner.labelReply.idx fun r => { r with count := r.count + 1 }
                label := s.pkp.label ++ [{
                  kind := .label, owner := some .labelReply, subject := some n, number := s.tbu.pic - 1,
                  stamp := s.tbu.tick, size := 16 + (labelPayload s.tbu closed).length, blocks := [b],
                  payload := labelPayload s.tbu closed }] }
              sri := ringReply s.sri h i 14 1 [some (beBytes 2 n), some [4]] })) ∧
      (c.state = .postRoll →
        exec (.clipMarkOut h f) s = .next { s with
          sri := ringReply s.sri h i 14 1 [some (beBytes 2 n), some [2]] } ∧
        (s.clm.postRoll ≠ 0 →
          exec (.clipMarkExtend h f) s = .next { put { c with count := s.clm.postRoll } with
            sri := ringReply s.sri h i 14 1 [] })) ∧
      (c.state = .opened →
        exec (.clipMarkExtend h f) s = .next { s with sri := ringReply s.sri h i 14 1 [] }) ∧
      (c.state = .opened ∨ c.state = .postRoll ∨ c.state = .closing →
        exec (.clipMarkCancel h f) s = .next { s with
          clm := { s.clm with
            clips := s.clm.clips.filter fun k => k.number != n
            desks := s.clm.desks.map fun k => if k = some n then none else k
            tally := s.clm.tally.map fun k => if k = some n then none else k
            waiting := s.clm.waiting.filter fun k => k != n
            acked := s.clm.acked.filter fun k => k != n }
          sri := ringReply s.sri h i 14 1 [some (beBytes 2 n)] }) ∧
      (c.state = .closing ∨ c.state = .closed ∨ c.state = .sent ∨ c.state = .acked →
        exec (.clipMarkOut h f) s = .next { s with sri := ringReply s.sri h i 14 4 [] } ∧
        exec (.clipMarkExtend h f) s = .next { s with sri := ringReply s.sri h i 14 4 [] }) ∧
      (c.state = .closed ∨ c.state = .sent ∨ c.state = .acked →
        exec (.clipMarkCancel h f) s = .next { s with sri := ringReply s.sri h i 14 4 [] }))

/-- R125, R136 to R138: CLIP-LABEL, CLIP-QUERY and CLIP-SETTINGS from the control stream. The record is the one named, or the
named desk's latest. CLIP-LABEL replaces the text of a live record, cut to 48 characters; the record is judged first, then its
state, then the text (11.3; log entry 27): REFUSED-RANGE for no record, REFUSED-STATE for one CLOSED, SENT or ACKED, REFUSED-RANGE
for text that is not printable. Without text it leaves the text, and a query of neither field asks for the whole table (the
model's choices, log entry 26). CLIP-QUERY answers with the fields of one record, or with the number and state of each in
ascending number. CLIP-SETTINGS clamps and stores its fields, refuses a choice that is none with REFUSED-RANGE, and with no field
answers with the four settings. The replies' bytes are the model's choice where log entries 50 to 52 say so. -/
def Obligations.ClipLabelQuerySettings_AnswerAndStore : Prop :=
  ∀ (h : Hdr) (i : RingStream) (s : State), VanReady h i s → ClipsOk s.clm →
    (∀ ref : ClipRef, ∀ names : Nat → Prop,
      (∀ n, names n ↔ (ref.desk = none ∨ ∃ d : Fin 8, ref.desk = some d.val) ∧
        (ref.clip = some n ∨ ref.clip = none ∧ ∃ d : Fin 8, ref.desk = some d.val ∧ s.clm.desks.get d = some n)) →
      (∀ c ∈ s.clm.clips, names c.number →
        (c.state = .closed ∨ c.state = .sent ∨ c.state = .acked → ∀ text,
          exec (.clipLabel h ref text) s = .next { s with sri := ringReply s.sri h i 15 4 [] }) ∧
        (c.state = .opened ∨ c.state = .postRoll ∨ c.state = .closing →
          exec (.clipLabel h ref none) s = .next { s with sri := ringReply s.sri h i 15 1 [] } ∧
          (∀ text : List Byte, (∃ b ∈ text, b.toNat < 32 ∨ 126 < b.toNat) →
            exec (.clipLabel h ref (some text)) s = .next { s with sri := ringReply s.sri h i 15 5 [] }) ∧
          (∀ text : List Byte, (∀ b ∈ text, 32 ≤ b.toNat ∧ b.toNat ≤ 126) →
            exec (.clipLabel h ref (some text)) s = .next { s with
              clm := { s.clm with
                clips := s.clm.clips.map fun k => if k.number = c.number then { c with text := text.take 48 } else k }
              sri := ringReply s.sri h i 15 (doneCode (decide (48 < text.length))) [] })) ∧
        exec (.clipQuery h ref) s = .next { s with
          sri := ringReply s.sri h i 16 1 [some (beBytes 2 c.number), some [byteOf c.state.code],
            some [byteOf c.source.codes.1, byteOf c.source.codes.2], some [byteOf c.priority.code],
            some (beBytes 4 c.mark.toNat), some (c.cameras.map fun k => byteOf k.prog.val),
            some (c.cameras.map fun k => match k.inPoint with
              | some a => beBytes 4 a.pic.toNat ++ [if a.short then 2 else 1]
              | none => [0, 0, 0, 0, 3]).flatten,
            if c.state = .postRoll then some [byteOf c.count] else none, c.expiry.map fun e => beBytes 4 e.toNat,
            c.outPoint.map fun o => beBytes 4 o.toNat, some c.text, c.ackTick.map fun t => beBytes 4 t.toNat] }) ∧
      ((∀ c ∈ s.clm.clips, ¬ names c.number) →
        (∀ text, exec (.clipLabel h ref text) s = .next { s with sri := ringReply s.sri h i 15 5 [] }) ∧
        (ref ≠ {} → exec (.clipQuery h ref) s = .next { s with sri := ringReply s.sri h i 16 5 [] }))) ∧
    (∀ l : List Clip, l.Perm s.clm.clips → (l.map (·.number)).Pairwise (· < ·) →
      exec (.clipQuery h {}) s = .next { s with
        sri := ringReply s.sri h i 16 1 [some (l.map fun c => beBytes 2 c.number ++ [byteOf c.state.code]).flatten] }) ∧
    (∀ f : ClipSettingsFields,
      ((∃ v, f.autoMark = some v ∧ v ≠ 1 ∧ v ≠ 2) ∨ (∃ v, f.tallyPriority = some v ∧ v ≠ 1 ∧ v ≠ 2) →
        exec (.clipSettings h f) s = .next { s with sri := ringReply s.sri h i 17 5 [] }) ∧
      (f = {} →
        exec (.clipSettings h f) s = .next { s with
          sri := ringReply s.sri h i 17 1 [some (beBytes 1 s.clm.preRoll), some (beBytes 1 s.clm.postRoll),
            some [if s.clm.autoMark then 1 else 2], some [if s.clm.tallyPriority = .normal then 1 else 2]] }) ∧
      (∀ (auto : Bool) (prio : Priority), f ≠ {} →
        (f.autoMark = none ∧ auto = s.clm.autoMark ∨ f.autoMark = some (if auto then 1 else 2)) →
        (f.tallyPriority = none ∧ prio = s.clm.tallyPriority ∨
          f.tallyPriority = some (if prio = .normal then 1 else 2)) →
        exec (.clipSettings h f) s = .next { s with
          clm := { s.clm with
            preRoll := loaded 0 250 s.clm.preRoll f.preRoll
            postRoll := loaded 0 250 s.clm.postRoll f.postRoll
            autoMark := auto
            tallyPriority := prio }
          sri := ringReply s.sri h i 17 (doneCode (outside 0 250 f.preRoll || outside 0 250 f.postRoll)) [] }))

/-! ### Chapters 8 to 10: the links -/

/-- R149, R164, R168, R182, R183, R186, R190: LINK-SET, in every link state. A link field without a link, a link outside 0 to 3,
and a kind, class or action out of range or barred for PROVE-FAIL, are refused with REFUSED-RANGE and change nothing; a link and
no other field is a query. Otherwise the caps and the link's fields are clamped and stored, a later pair of a class standing; C
is computed again, the credit falls to a lower burst limit, and the reservation of a link barred from PICTURE ends. A count at
or below the probes retired takes a PROVING link, without a standing fault, UP. A change of the ack timeout that an in-flight
entry already exceeds detects ACK-TIMEOUT at once. A change of the permitted kinds or a higher burst limit gives the link a take
attempt (R165 to R169). The model's choices: a pool section alone, and empty lists (log entry 36), and that the attempt comes
after the other effects (log entry 29). -/
def Obligations.LinkSet_StoresTheSettings : Prop :=
  ∀ (h : Hdr) (i : RingStream) (f : LinkFields) (s : State) (owners : Table 6 OwnerRecord) (caps : Bool),
    VanReady h i s →
    (∀ o, owners.get o = { s.pkp.owners.get o with cap := loaded 0 16384 (s.pkp.owners.get o).cap (f.caps.get o) }) →
    caps = decide (∃ o, outside 0 16384 (f.caps.get o) = true) →
    ∀ bare : Prop, (bare ↔ f.share = none ∧ f.kinds = none ∧ f.burst = none ∧ f.floor = none ∧ f.ackTimeout = none ∧
      f.minFraction = none ∧ f.count = none ∧ f.proveTimeout = none ∧ f.retryTime = none ∧ f.actions = none) →
    (f.link = none → ¬ bare → exec (.linkSet h f) s = .next { s with sri := ringReply s.sri h i 18 5 [] }) ∧
    (f.link = none → bare →
      exec (.linkSet h f) s = .next { s with
        pkp := { s.pkp with owners := owners }
        sri := ringReply s.sri h i 18 (doneCode caps) [] }) ∧
    (∀ n, f.link = some n → 3 < n → exec (.linkSet h f) s = .next { s with sri := ringReply s.sri h i 18 5 [] }) ∧
    (∀ (l : Link) (old : LinkSettings), f.link = some l.val → old = (link s l).settings →
      (f = { link := some l.val } →
        exec (.linkSet h f) s = .next { s with sri := ringReply s.sri h i 18 1 (settingsResults old) }) ∧
      ((∃ ks, f.kinds = some ks ∧ ∃ k ∈ ks, k = 0 ∨ 4 < k) ∨
          (∃ ps, f.actions = some ps ∧ ∃ p ∈ ps, p.1 = 0 ∨ 5 < p.1 ∨ p.2 = 0 ∨ 5 < p.2 ∨ p.1 = 5 ∧ 3 ≤ p.2) →
        exec (.linkSet h f) s = .next { s with sri := ringReply s.sri h i 18 5 [] }) ∧
      (f ≠ { link := some l.val } → bare →
        exec (.linkSet h f) s = .next { s with
          pkp := { s.pkp with owners := owners }
          sri := ringReply s.sri h i 18 (doneCode caps) [] }) ∧
      (¬ bare → (∀ ks, f.kinds = some ks → ∀ k ∈ ks, 1 ≤ k ∧ k ≤ 4) →
        (∀ ps, f.actions = some ps → ∀ p ∈ ps, 1 ≤ p.1 ∧ p.1 ≤ 5 ∧ 1 ≤ p.2 ∧ p.2 ≤ 5 ∧ (p.1 = 5 → p.2 ≤ 2)) →
        ∃ (new : LinkSettings) (actions : Table 5 FaultAction),
          (∀ c, (∀ ps, f.actions = some ps → ∀ p ∈ ps, p.1 ≠ c.val + 1) → actions.get c = old.actions.get c) ∧
          (∀ (c : Fin 5) early p late, f.actions = some (early ++ p :: late) → p.1 = c.val + 1 →
            (∀ q ∈ late, q.1 ≠ c.val + 1) → (actions.get c).code = p.2) ∧
          (f.kinds = none → (new.kindPicture, new.kindSound, new.kindLabel, new.kindReply) =
            (old.kindPicture, old.kindSound, old.kindLabel, old.kindReply)) ∧
          (∀ ks, f.kinds = some ks → (new.kindPicture = true ↔ 1 ∈ ks) ∧ (new.kindSound = true ↔ 2 ∈ ks) ∧
            (new.kindLabel = true ↔ 3 ∈ ks) ∧ (new.kindReply = true ↔ 4 ∈ ks)) ∧
          new = { new with
            share := loaded 0 100 old.share f.share
            burst := loaded 1328 65535 old.burst f.burst
            floor := loaded 0 250000 old.floor f.floor
            ackTimeout := loaded 4800 480000 old.ackTimeout f.ackTimeout
            minFraction := loaded 0 100 old.minFraction f.minFraction
            count := loaded 1 16 old.count f.count
            proveTimeout := loaded 24000 480000 old.proveTimeout f.proveTimeout
            retryTime := loaded 4800 2880000 old.retryTime f.retryTime
            actions := actions } ∧
          ∀ (u : State) (judged raised stays : Prop), u = { s with
            pkp := { s.pkp with owners := owners }
            hsc := { s.hsc with
              links := s.hsc.links.modify l fun k => { k with
                credit := min new.burst k.credit
                reservation := if new.kindPicture then k.reservation else none } }
            lsu := s.lsu.modify l fun r => { r with settings := new, capacity := r.reported * new.share / 100 }
            sri := ringReply s.sri h i 18 (doneCode (outside 0 100 f.share || outside 1328 65535 f.burst ||
              outside 0 250000 f.floor || outside 4800 480000 f.ackTimeout || outside 0 100 f.minFraction ||
              outside 1 16 f.count || outside 24000 480000 f.proveTimeout || outside 4800 2880000 f.retryTime ||
              caps)) [] } →
          (judged ↔ (∃ p, (link s l).state = .proving ∧ (link s l).proving = some p ∧ new.count ≤ p.retired) ∨
            (∃ e es, (link s l).state.carries = true ∧ (sched s l).inFlight = e :: es ∧ new.ackTimeout ≠ old.ackTimeout ∧
              new.ackTimeout < (s.tbu.tick - e.tick).toNat ∧ (link s l).timedOut ≠ some e.seq)) →
          (raised ↔ old.burst < new.burst ∨ (new.kindPicture, new.kindSound, new.kindLabel, new.kindReply) ≠
            (old.kindPicture, old.kindSound, old.kindLabel, old.kindReply)) →
          (stays ↔ ¬ raised ∧ (new.kindPicture = true ∨ (sched s l).reservation = none)) →
          (¬ judged → NoLinkTakes s ∨ QueuesEmpty s ∨ stays → exec (.linkSet h f) s = .next u) ∧
          (∀ w, ¬ judged → raised → LinkTakes l u → (∀ k, k ≠ l → ¬ LinkTakes k s) → TakeAttempt l u w →
            exec (.linkSet h f) s = .next w) ∧
          (∀ p, (link s l).state = .proving → (link s l).proving = some p → new.count ≤ p.retired →
            (∀ e es, (sched s l).inFlight = e :: es → new.ackTimeout = old.ackTimeout ∨
              (s.tbu.tick - e.tick).toNat ≤ new.ackTimeout) →
            new.floor ≤ (link u l).capacity → (link s l).code = 0 → QueuesEmpty s → s.cmu.noticesHome = false →
            s.cmu.notices.length < 32 → (∀ o, (link s l).openCommand = some o → o.origin = .van) →
            exec (.linkSet h f) s = .next { u with
              lsu := u.lsu.modify l fun r => { r with
                state := .up
                proving := none
                window := some { start := s.tbu.tick, handed := 0, retired := 0 }
                timedOut := none
                openCommand := none }
              cmu := { s.cmu with
                notices := s.cmu.notices ++ [{
                  body := .linkUp l (sched s l).epoch
                  answers := (link s l).openCommand
                  tick := s.tbu.tick
                  pic := s.tbu.pic }] } }) ∧
          (∀ e es, (link s l).state.carries = true → (sched s l).inFlight = e :: es → new.ackTimeout ≠ old.ackTimeout →
            new.ackTimeout < (s.tbu.tick - e.tick).toNat → (link s l).timedOut ≠ some e.seq → stays → FaultSettles l s →
            ∃ t, exec (.linkSet h f) s = .next t ∧ FaultApplied l .ackTimeout (link s l).code
              { u with lsu := u.lsu.modify l fun r => { r with timedOut := some e.seq } } t)))

/-- R172, R174, R184, R185, R195, R196: LINK-UP of a DOWN link, LINK-CLEAR of a HELD one and a retry expiry take the link to
PROVING: a new epoch with sequences and credit begun again, a proving record whose deadline lies the proving timeout ahead, and
its first probe in the slot; the two commands are ACCEPTED and stand as the open command. LINK-UP is refused with REFUSED-STATE
in every other state, LINK-CLEAR in PROVING; elsewhere LINK-CLEAR empties the first-fault record. A link outside 0 to 3 is
REFUSED-RANGE. The model's choices: an absent link is REFUSED-RANGE (log entry 42), a retry expiry that is not due does nothing
(log entry 2), and the proving record holds the tick of the next probe (log entry 34). -/
def Obligations.LinkUpClearRetry_EnterProving : Prop :=
  ∀ (s : State) (entered : Link → Option OpenCommand → State),
    (∀ l cmd, entered l cmd = { s with
      hsc := { s.hsc with
        links := s.hsc.links.modify l fun k => { k with
          epoch := k.epoch + 1
          nextSeq := 0
          lastAck := 65535
          credit := 0
          carry := 0
          slot := some {
            packet := {
              kind := .probe, owner := none, subject := none, number := 0, stamp := s.tbu.tick, size := 24,
              payload := [0, 1, 0, 0, 0, 0, 0, 0] }
            epoch := k.epoch + 1
            seq := 0
            offered := s.tbu.tick } } }
      lsu := s.lsu.modify l fun r => { r with
        state := .proving
        retry := none
        openCommand := cmd
        proving := some {
          sent := 1
          retired := 0
          deadline := s.tbu.tick + BitVec.ofNat 32 r.settings.proveTimeout
          nextProbe := s.tbu.tick + 2400 } } }) →
    (∀ (h : Hdr) (i : RingStream) (n : Option Nat), VanReady h i s →
      ((n = none ∨ ∃ v, n = some v ∧ 3 < v) →
        exec (.linkUp h n) s = .next { s with sri := ringReply s.sri h i 19 5 [] } ∧
        exec (.linkClear h n) s = .next { s with sri := ringReply s.sri h i 21 5 [] }) ∧
      (∀ l : Link, n = some l.val →
        ((link s l).state ≠ .down → exec (.linkUp h n) s = .next { s with sri := ringReply s.sri h i 19 4 [] }) ∧
        ((link s l).state = .proving → exec (.linkClear h n) s = .next { s with sri := ringReply s.sri h i 21 4 [] }) ∧
        ((link s l).state ≠ .proving → (link s l).state ≠ .held →
          exec (.linkClear h n) s = .next { s with
            lsu := s.lsu.modify l fun r => { r with firstFault := none }
            sri := ringReply s.sri h i 21 1 [] }) ∧
        ((sched s l).slot = none → (sched s l).inFlight = [] →
          ((link s l).state = .down →
            exec (.linkUp h n) s = .next { entered l (some { tag := h.tag, origin := .van }) with
              sri := ringReply s.sri h i 19 3 [] }) ∧
          ((link s l).state = .held →
            exec (.linkClear h n) s = .next { entered l (some { tag := h.tag, origin := .van }) with
              sri := ringReply s.sri h i 21 3 [] })))) ∧
    (Quiet s → ∀ l,
      ((link s l).state ≠ .held ∨ (link s l).retry = none → exec (.retryExpiry l) s = .next s) ∧
      (∀ t, (link s l).state = .held → (link s l).retry = some t →
        (2147483647 < (s.tbu.tick - t).toNat → exec (.retryExpiry l) s = .next s) ∧
        ((s.tbu.tick - t).toNat ≤ 2147483647 → (sched s l).slot = none → (sched s l).inFlight = [] →
          exec (.retryExpiry l) s = .next (entered l none))))

/-- R156, R173, R188, R189: LINK-DOWN. A link outside 0 to 3 is refused with REFUSED-RANGE. Otherwise the link is DOWN with no
proving, retry, degrade, recovery or window, and the reply is DONE; the pooled packets of a link that was PROVING, UP or
DEGRADED go back to the heads of their class queues, the in-flight ones in order and then the slot's, its probes are discarded,
and its slot, list, reservation, credit and carry are empty; an open command's notice is queued. No other link carries and no
pair is formed here. The model's choices: an absent link is REFUSED-RANGE (log entry 42), and the notice is queued last (log
entry 32). -/
def Obligations.LinkDown_WithdrawsTheTraffic : Prop :=
  ∀ (h : Hdr) (i : RingStream) (n : Option Nat) (s : State), VanReady h i s → s.cmu.noticesHome = false →
    s.cmu.notices.length < 32 →
    ((n = none ∨ ∃ v, n = some v ∧ 3 < v) →
      exec (.linkDown h n) s = .next { s with sri := ringReply s.sri h i 20 5 [] }) ∧
    (∀ (l : Link) (r : LinkRecord) (told : List Notice), n = some l.val → r = link s l →
      (∀ o, r.openCommand = some o → o.origin = .van) →
      told = (r.openCommand.map fun o =>
        ({ body := .linkDown l, answers := some o, tick := s.tbu.tick, pic := s.tbu.pic } : Notice)).toList →
      ∀ down : LinkRecord, down = { r with
        state := .down, proving := none, retry := none, degrading := Table.replicate 5 false, recovery := none,
        window := none, openCommand := none } →
      (r.state = .down ∨ r.state = .held →
        exec (.linkDown h n) s = .next { s with
          lsu := s.lsu.set l down
          cmu := { s.cmu with notices := s.cmu.notices ++ told }
          sri := ringReply s.sri h i 20 1 [] }) ∧
      (r.state = .proving ∨ r.state = .up ∨ r.state = .degraded → (∀ k, k ≠ l → (link s k).state.carries = false) →
        (∀ p, (prog s p).pair = false) → ∀ ps : List Packet,
        ps = (((sched s l).inFlight.map (·.packet) ++ ((sched s l).slot.map (·.packet)).toList).filter fun p =>
          p.kind != .probe) →
        exec (.linkDown h n) s = .next { s with
          lsu := s.lsu.set l down
          pkp := { s.pkp with
            reply := (ps.filter fun p => p.kind = .reply) ++ s.pkp.reply
            label := (ps.filter fun p => p.kind = .label) ++ s.pkp.label
            sound := (ps.filter fun p => p.kind = .sound) ++ s.pkp.sound
            picture := (ps.filter fun p => p.kind = .picture) ++ s.pkp.picture }
          hsc := { s.hsc with
            links := s.hsc.links.modify l fun k => { k with
              slot := none, inFlight := [], reservation := none, credit := 0, carry := 0 } }
          cmu := { s.cmu with notices := s.cmu.notices ++ told }
          sri := ringReply s.sri h i 20 1 [] }))

/-- R182, R192, R193, R194: the CAPACITY and FAULT reports of a link's modem. The capacity is clamped to 250,000 and C computed
again in every link state; a C below the floor is a CAPACITY-FLOOR fault of a link that is UP, DEGRADED or HELD. The code is
stored in every state; a nonzero one is a MODEM-FAULT of such a link, and 0 ends a degrade whose recovery has passed. The
model's choices: on a HELD link a fault is counted whatever the action of its class (log entry 37), and the recovery holds a
mark that its expiry has passed (log entry 34). -/
def Obligations.ModemReports_JudgeAndApply : Prop :=
  ∀ (l : Link) (s : State), Quiet s → ∀ live : Prop,
    (live ↔ (link s l).state = .up ∨ (link s l).state = .degraded ∨ (link s l).state = .held) →
    (∀ (c : BitVec 32) (u : State),
      u = { s with lsu := s.lsu.modify l fun r => { r with
        reported := min c.toNat 250000
        capacity := min c.toNat 250000 * r.settings.share / 100 } } →
      ((¬ live ∨ (link s l).settings.floor ≤ min c.toNat 250000 * (link s l).settings.share / 100) →
        exec (.capacityReport l c) s = .next u) ∧
      (live → min c.toNat 250000 * (link s l).settings.share / 100 < (link s l).settings.floor → FaultSettles l s →
        ∃ t, exec (.capacityReport l c) s = .next t ∧ FaultApplied l .capacityFloor (link s l).code u t)) ∧
    (∀ (code : Byte) (u : State), u = { s with lsu := s.lsu.modify l fun r => { r with code := code } } →
      (code ≠ 0 → ¬ live → exec (.faultReport l code) s = .next u) ∧
      (code ≠ 0 → live → FaultSettles l s →
        ∃ t, exec (.faultReport l code) s = .next t ∧ FaultApplied l .modemFault code u t) ∧
      (code = 0 → ((link s l).state ≠ .degraded ∨ ∀ v, (link s l).recovery = some v → v.passed = false) →
        exec (.faultReport l code) s = .next u) ∧
      (∀ v, code = 0 → (link s l).state = .degraded → (link s l).recovery = some v → v.passed = true →
        (sched s l).slot.isSome = true ∨ QueuesEmpty s →
        exec (.faultReport l code) s = .next { s with lsu := s.lsu.modify l fun r => { r with
          code := code, state := .up, degrading := Table.replicate 5 false, recovery := none } }))

/-- R170, R175, R176, R185, R186: a TAKEN report of the slot's epoch and sequence moves the packet to the tail of the in-flight
list and is counted in the window unless it is a probe (R191); a CLOSED clip whose LABEL packet it is is SENT (R143); any other
TAKEN report is counted as ignored. An ACK of no link of the part, a stale, a repeated and an invalid ACK are counted and do
nothing else but raise ACK-INVALID; a current one retires the entries up to its sequence: blocks are released, clips are ACKED,
the window counts pooled packets and the proving record probes; a proving that reaches K, on a link without a standing fault,
takes it UP. Both leave the link a take attempt (R165 to R169): the candidate is the head packet of the first permitted class
with one to offer; without the credit the link rests; a candidate in time is taken with the next sequence, its size leaving the
credit; a late one is dropped and counted, and the link attempts again. That the attempt comes after the event's other effects
is the model's choice (log entry 29). -/
def Obligations.TakenAndAck_MoveTheList : Prop :=
  ∀ (l : Link) (s : State), Quiet s →
    (∀ e a, (∀ t, (sched s l).slot = some t → t.epoch ≠ e ∨ t.seq ≠ a) →
      exec (.takenReport l e a) s = .next { s with
        hsc := { s.hsc with
          links := s.hsc.links.modify l fun k => { k with ignoredTaken := min (k.ignoredTaken + 1) 65535 } } }) ∧
    (∀ t u, (sched s l).slot = some t →
      u = { s with
        clm := { s.clm with clips := s.clm.clips.map fun c =>
          if t.packet.kind = .label ∧ t.packet.subject = some c.number ∧ c.state = .closed then { c with state := .sent }
          else c }
        hsc := { s.hsc with
          links := s.hsc.links.modify l fun k => { k with
            slot := none
            inFlight := k.inFlight ++ [{ seq := t.seq, packet := t.packet, tick := s.tbu.tick }]
            nextSeq := k.nextSeq + 1 } }
        lsu := s.lsu.modify l fun r => { r with
          window := if t.packet.kind = .probe then r.window else
            r.window.map fun w => { w with handed := w.handed + 1 } } } →
      ((link s l).state.carries = false ∨ QueuesEmpty s ∨ 255 ≤ (sched s l).inFlight.length →
        exec (.takenReport l t.epoch t.seq) s = .next u) ∧
      (∀ w, LinkTakes l u → (∀ k, k ≠ l → ¬ LinkTakes k s) → TakeAttempt l u w →
        exec (.takenReport l t.epoch t.seq) s = .next w)) ∧
    (∀ (n e : Byte) a, 3 < n.toNat → exec (.ack n e a) s = .next { s with
      hsc := { s.hsc with ignoredHome := min (s.hsc.ignoredHome + 1) 65535 } }) ∧
    (∀ (n : Byte) e a k m, n.toNat = l.val → k = (a - (sched s l).lastAck).toNat →
      m = ((sched s l).nextSeq - 1 - (sched s l).lastAck).toNat →
      ((link s l).state = .down ∨ (link s l).state = .held ∨ (sched s l).epoch ≠ e →
        exec (.ack n e a) s = .next { s with
          hsc := { s.hsc with
            links := s.hsc.links.modify l fun k => { k with stale := min (k.stale + 1) 65535 } } }) ∧
      ((link s l).state ≠ .down → (link s l).state ≠ .held → (sched s l).epoch = e →
        (k = 0 ∨ 32768 ≤ k → exec (.ack n e a) s = .next { s with
          hsc := { s.hsc with
            links := s.hsc.links.modify l fun k => { k with repeated := min (k.repeated + 1) 65535 } } }) ∧
        (m < k → k < 32768 → s.cmu.noticesHome = false → s.cmu.notices.length < 32 →
          exec (.ack n e a) s = .next { s with
            hsc := { s.hsc with
              links := s.hsc.links.modify l fun k => { k with invalid := min (k.invalid + 1) 65535 } }
            cmu := { s.cmu with
              flags := s.cmu.flags.modify EventFlag.ackInvalid.idx fun f => {
                set := true, counter := min (f.counter + 1) 65535 }
              notices := s.cmu.notices ++ if (s.cmu.flags.get EventFlag.ackInvalid.idx).set then [] else [{
                body := .flag .ackInvalid (min ((s.cmu.flags.get EventFlag.ackInvalid.idx).counter + 1) 65535)
                tick := s.tbu.tick
                pic := s.tbu.pic }] } }) ∧
        (1 ≤ k → k ≤ m → k < 32768 →
          ∀ (es : List InFlight) (probes : Nat) (owners : Table 6 OwnerRecord) (u : State),
          es = (sched s l).inFlight.take k → probes = es.countP (·.packet.kind = .probe) →
          (∀ o, owners.get o = { s.pkp.owners.get o with
            count := (s.pkp.owners.get o).count -
              ((es.filter fun e => e.packet.owner.map (·.idx) = some o).map (·.packet.blocks.length)).sum }) →
          u = { s with
            pkp := { s.pkp with
              free := s.pkp.free ++ ((es.filter (·.packet.owner.isSome)).map (·.packet.blocks)).flatten
              owners := owners }
            clm := { s.clm with
              clips := s.clm.clips.map fun c =>
                if ∃ e ∈ es, e.packet.kind = .label ∧ e.packet.subject = some c.number then
                  { c with state := .acked, ackTick := some s.tbu.tick } else c
              acked := s.clm.acked ++ (es.filterMap fun e =>
                if e.packet.kind = .label then e.packet.subject else none).filter fun n =>
                  s.clm.clips.any (·.number == n) }
            hsc := { s.hsc with
              links := s.hsc.links.modify l fun h => { h with inFlight := h.inFlight.drop k, lastAck := a } } } →
          (∀ v, (link s l).state ≠ .proving →
            v = { u with
              lsu := s.lsu.modify l fun r => { r with
                window := r.window.map fun w => { w with retired := w.retired + (es.length - probes) } } } →
            ((link s l).state.carries = false ∨ QueuesEmpty s ∨ (sched s l).slot.isSome = true →
              exec (.ack n e a) s = .next v) ∧
            (∀ w, LinkTakes l v → (∀ k, k ≠ l → ¬ LinkTakes k s) → TakeAttempt l v w →
              exec (.ack n e a) s = .next w)) ∧
          (∀ p, (link s l).state = .proving → (link s l).proving = some p → (∀ e ∈ es, e.packet.kind = .probe) →
            (p.retired + probes < (link s l).settings.count →
              exec (.ack n e a) s = .next { u with
                lsu := s.lsu.modify l fun r => { r with proving := some { p with retired := p.retired + probes } } }) ∧
            (p.retired < (link s l).settings.count → (link s l).settings.count ≤ p.retired + probes →
              (link s l).settings.floor ≤ (link s l).capacity → (link s l).code = 0 → QueuesEmpty s →
              s.cmu.noticesHome = false → s.cmu.notices.length < 32 →
              (∀ o, (link s l).openCommand = some o → o.origin = .van) →
              exec (.ack n e a) s = .next { u with
                lsu := s.lsu.modify l fun r => { r with
                  state := .up
                  proving := none
                  window := some { start := s.tbu.tick, handed := 0, retired := 0 }
                  timedOut := none
                  openCommand := none }
                cmu := { s.cmu with
                  notices := s.cmu.notices ++ [{
                    body := .linkUp l e
                    answers := (link s l).openCommand
                    tick := s.tbu.tick
                    pic := s.tbu.pic }] } })))))

/-- R185, R187, R190, R191, R194: the timers of a link. A further probe is due 2,400 ticks after the one before and is counted
whether or not the slot takes it; at its proving deadline a PROVING link takes PROVE-FAIL and answers its open command; at its
recovery expiry a DEGRADED link goes UP, or waits for modem code 0; a measuring window lasts 48,000 ticks and detects
ACK-SHORTFALL at its end; an oldest entry older than the ack timeout detects ACK-TIMEOUT once. The model's choices: a timer that
is not due does nothing (log entry 2), the notice PROVE-FAIL is queued last (log entry 32), and the tick of the next probe and
the passed recovery are held in the link's record (log entry 34). -/
def Obligations.LinkTimers_ActWhenDue : Prop :=
  ∀ (l : Link) (s : State), Quiet s → ∀ due : Tick → Prop, (∀ t, due t ↔ (s.tbu.tick - t).toNat ≤ 2147483647) →
    ((link s l).state ≠ .proving → exec (.probeBuild l) s = .next s ∧ exec (.provingDeadline l) s = .next s) ∧
    ((link s l).state ≠ .degraded → exec (.recoveryExpiry l) s = .next s) ∧
    ((link s l).state.carries = false → exec (.windowEnd l) s = .next s ∧ exec (.ackTimeout l) s = .next s) ∧
    (∀ p, (link s l).state = .proving → (link s l).proving = some p →
      (¬ due p.nextProbe → exec (.probeBuild l) s = .next s) ∧
      (due p.nextProbe → exec (.probeBuild l) s = .next { s with
        lsu := s.lsu.modify l fun r => { r with
          proving := some { p with sent := p.sent + 1, nextProbe := p.nextProbe + 2400 } }
        hsc := { s.hsc with
          links := s.hsc.links.modify l fun k =>
            if k.slot = none ∧ k.inFlight.length < 256 then { k with
              slot := some {
                packet := {
                  kind := .probe, owner := none, subject := none, number := 0, stamp := s.tbu.tick, size := 24
                  payload := [byteOf ((p.sent + 1) / 256), byteOf (p.sent + 1), 0, 0, 0, 0, 0, 0] }
                epoch := k.epoch
                seq := k.nextSeq
                offered := s.tbu.tick } }
            else k } }) ∧
      (¬ due p.deadline → exec (.provingDeadline l) s = .next s) ∧
      (due p.deadline → FaultSettles l s → (∀ o, (link s l).openCommand = some o → o.origin = .van) →
        ∃ t, FaultApplied l .proveFail (link s l).code s t ∧ exec (.provingDeadline l) s = .next { t with
          lsu := t.lsu.modify l fun r => { r with openCommand := none }
          cmu := { t.cmu with
            notices := t.cmu.notices ++ ((link s l).openCommand.map fun o =>
              ({ body := .proveFail l, answers := some o, tick := s.tbu.tick, pic := s.tbu.pic } : Notice)).toList } })) ∧
    (∀ v, (link s l).state = .degraded → (link s l).recovery = some v → ∀ waits : Prop,
      (waits ↔ (link s l).degrading.get FaultClass.modemFault.idx = true ∧ (link s l).code ≠ 0) →
      (v.passed = true ∨ ¬ due v.tick → exec (.recoveryExpiry l) s = .next s) ∧
      (v.passed = false → due v.tick → waits → exec (.recoveryExpiry l) s = .next { s with
        lsu := s.lsu.modify l fun r => { r with recovery := some { v with passed := true } } }) ∧
      (v.passed = false → due v.tick → ¬ waits → (sched s l).slot.isSome = true ∨ QueuesEmpty s →
        exec (.recoveryExpiry l) s = .next { s with
          lsu := s.lsu.modify l fun r => { r with
            state := .up, degrading := Table.replicate 5 false, recovery := none } })) ∧
    (∀ w, (link s l).state.carries = true → (link s l).window = some w → ∀ short : Prop,
      (short ↔ 1 ≤ w.handed ∧ w.retired < w.handed * (link s l).settings.minFraction / 100) →
      (¬ due (w.start + 48000) → exec (.windowEnd l) s = .next s) ∧
      (due (w.start + 48000) → ¬ short → exec (.windowEnd l) s = .next { s with
        lsu := s.lsu.modify l fun r => { r with
          window := some { start := w.start + 48000, handed := 0, retired := 0 } } }) ∧
      (due (w.start + 48000) → short → FaultSettles l s →
        ∃ t, FaultApplied l .ackShortfall (link s l).code s t ∧ exec (.windowEnd l) s = .next { t with
          lsu := t.lsu.modify l fun r => { r with
            window := r.window.map fun w => { start := w.start + 48000, handed := 0, retired := 0 } } })) ∧
    ((link s l).state.carries = true →
      ((sched s l).inFlight = [] → exec (.ackTimeout l) s = .next s) ∧
      (∀ e es, (sched s l).inFlight = e :: es →
        ((s.tbu.tick - e.tick).toNat ≤ (link s l).settings.ackTimeout ∨ (link s l).timedOut = some e.seq →
          exec (.ackTimeout l) s = .next s) ∧
        ((link s l).settings.ackTimeout < (s.tbu.tick - e.tick).toNat → (link s l).timedOut ≠ some e.seq →
          FaultSettles l s →
          ∃ t, exec (.ackTimeout l) s = .next t ∧ FaultApplied l .ackTimeout (link s l).code
            { s with lsu := s.lsu.modify l fun r => { r with timedOut := some e.seq } } t)))

/-! ### Chapter 11: queries, authority, flags, resets and the command queues -/

/-- R206, R207, R208: STATUS-QUERY, AUTHORITY-SET and EVENTS-CLEAR. A query of a block, with an object of it or none, answers
DONE with the figures that R14, R37, R60, R82, R105, R119, R138, R160, R179, R196 and R207 list, as they stand while the query
is at the head of its queue; a query of no block, of a block outside the thirteen, or of an object that the block does not have,
is REFUSED-RANGE. Without the clear option nothing but the ring's output queue changes; the clear option sets to 0 the refused
counts, a link's counts or the ignored home requests, and empties first-fault records and fault counts, and in the other blocks
it changes nothing. AUTHORITY-SET stores its fields; EVENTS-CLEAR clears the named flags or all. The model's choices: an absent
block is REFUSED-RANGE (log entry 42), the blocks that answer without an object (log entry 43), what a query of one owner or
link clears (log entry 44), the numbers and bytes of a reply (log entries 50 to 54), and three figures that the rules leave open
(log entries 61 to 63). -/
def Obligations.QueriesAuthorityAndFlags : Prop :=
  ∀ (h : Hdr) (i : RingStream) (s : State), VanReady h i s →
    (∀ f : QueryFields, f.clear = false → ∃ (status : Byte) (results : List (Option (List Byte))),
      (status = 1 ∨ status = 5 ∧ results = []) ∧
      exec (.statusQuery h f) s = .next { s with sri := ringReply s.sri h i 22 status results }) ∧
    (∀ f : QueryFields, (f.block = none ∨ ∃ b, f.block = some b ∧ (b = 0 ∨ 13 < b)) →
      exec (.statusQuery h f) s = .next { s with sri := ringReply s.sri h i 22 5 [] }) ∧
    (∀ (f : QueryFields) (w : Msg) (b : Nat) (waits : State), f.block = some b →
      w = { hdr := h, kind := 22, body := .command (.statusQuery f) } →
      waits = { s with cmu := { s.cmu with van := [w] } } →
      ((∀ results, ¬ Figures waits b f.object results) →
        exec (.statusQuery h f) s = .next { s with sri := ringReply s.sri h i 22 5 [] }) ∧
      (∀ (results : List (Option (List Byte))) (reply : Ring), Figures waits b f.object results →
        reply = ringReply s.sri h i 22 1 results →
        (f.clear = false ∨ b ≠ 10 ∧ b ≠ 11 ∧ b ≠ 12 →
          exec (.statusQuery h f) s = .next { s with sri := reply }) ∧
        (f.clear = true →
          (b = 10 → exec (.statusQuery h f) s = .next { s with
            pkp := { s.pkp with owners := s.pkp.owners.map fun r => { r with refused := 0 } }
            sri := reply }) ∧
          (b = 11 → f.object = none → exec (.statusQuery h f) s = .next { s with
            hsc := { s.hsc with ignoredHome := 0 }
            sri := reply }) ∧
          (∀ l : Link, b = 11 → f.object = some (11, [l.val]) → exec (.statusQuery h f) s = .next { s with
            hsc := { s.hsc with
              links := s.hsc.links.modify l fun k => { k with
                taken := 0, lateDrops := 0, stale := 0, repeated := 0, invalid := 0, ignoredTaken := 0 } }
            sri := reply }) ∧
          (b = 12 → f.object = none → exec (.statusQuery h f) s = .next { s with
            lsu := s.lsu.map fun r => { r with firstFault := none, faults := Table.replicate 5 0 }
            sri := reply }) ∧
          (∀ l : Link, b = 12 → f.object = some (11, [l.val]) → exec (.statusQuery h f) s = .next { s with
            lsu := s.lsu.modify l fun r => { r with firstFault := none, faults := Table.replicate 5 0 }
            sri := reply })))) ∧
    (∀ f : AuthorityFields,
      ((∃ a, f.authority = some a ∧ (a = 0 ∨ 3 < a)) ∨ (∃ n, f.noticesHome = some n ∧ (n = 0 ∨ 2 < n)) →
        exec (.authoritySet h f) s = .next { s with sri := ringReply s.sri h i 24 5 [] }) ∧
      (∀ (a : Authority) (n : Bool),
        (f.authority = none ∧ a = s.cmu.authority ∨
          f.authority = some (match a with | .van => 1 | .home => 2 | .both => 3)) →
        (f.noticesHome = none ∧ n = s.cmu.noticesHome ∨ f.noticesHome = some (if n then 1 else 2)) →
        exec (.authoritySet h f) s = .next { s with
          cmu := { s.cmu with authority := a, noticesHome := n }
          sri := ringReply s.sri h i 24 1 [] })) ∧
    exec (.eventsClear h .all) s = .next { s with
      cmu := { s.cmu with flags := Table.replicate 19 { set := false, counter := 0 } }
      sri := ringReply s.sri h i 23 1 [] } ∧
    (∀ l : List Nat, 1 ≤ l.length → l.length ≤ 19 →
      ((∃ v ∈ l, v = 0 ∨ 19 < v) →
        exec (.eventsClear h (.flags l)) s = .next { s with sri := ringReply s.sri h i 23 5 [] }) ∧
      ((∀ v ∈ l, 1 ≤ v ∧ v ≤ 19) → ∃ flags : Table 19 FlagRecord,
        (∀ f, flags.get f = if f.val + 1 ∈ l then { set := false, counter := 0 } else s.cmu.flags.get f) ∧
        exec (.eventsClear h (.flags l)) s = .next { s with
          cmu := { s.cmu with flags := flags }
          sri := ringReply s.sri h i 23 1 [] }))

/-- R211, R212 and the RESET MEDIA rule of each block: RESET MEDIA keeps the settings, the Timebase Unit, the Station Ring
Interface, the authority and the notice queue and leaves the rest as the rules say; RESET ALL leaves every block as power-on
reset does. R107: no answer to a trigger is on its way any more (the model's reading, log entry 19). The reply DONE stands in
the ring output queue, alone after a RESET ALL. That the commands waiting at the part's own inputs still wait is the model's
choice (log entry 1). -/
def Obligations.Resets_LeaveTheirState : Prop :=
  ∀ (h : Hdr) (i : RingStream) (s : State), VanReady h i s →
    exec (.resetAll h) s = .next { State.reset with
      pending := s.pending
      sri := { State.reset.sri with queue := replyCells 254 h.tag [25, 1, byteOf i.val, 0] } } ∧
    ∃ t, exec (.resetMedia h) s = .next t ∧
      t.pending = s.pending ∧ t.tbu = s.tbu ∧ t.sri = ringReply s.sri h i 25 1 [] ∧
      t.cmu = {
        authority := s.cmu.authority, noticesHome := s.cmu.noticesHome, notices := s.cmu.notices, van := [], home := []
        held := none, flags := Table.replicate 19 { set := false, counter := 0 }, homeNotices := [], overflow := 0 } ∧
      (∀ p, t.ports.get p = { delivering := false, store := [], dropped := 0 }) ∧
      t.pgc.formats = s.pgc.formats ∧
      (∀ p, prog t p = { prog s p with
        state := if (prog s p).state = .paired then .paired else if (prog s p).cfg.enable then .ready else .idle
        input := .present
        gapCount := 0
        refreshOwed := false
        skipNext := false
        awaiting := false
        firstPic := none
        remHold := 0
        openStop := none
        ignored := 0
        causes := 0 }) ∧
      t.cde = State.reset.cde ∧
      t.ral.headroom = s.ral.headroom ∧ t.ral.labelReserve = s.ral.labelReserve ∧ t.ral.figures = State.reset.ral.figures ∧
      (∀ p, rateOf t p = { rateOf State.reset p with pending := (rateOf s p).pending, active := (rateOf s p).pending }) ∧
      t.smx.aligned = false ∧ t.smx.answers = [] ∧ t.smx.lag = s.smx.lag ∧ t.smx.groups = s.smx.groups ∧
      (∀ k, inputOf t k = { inputOf State.reset k with
        trim := (inputOf s k).trim, mute := (inputOf s k).mute, groups := (inputOf s k).groups,
        policy := (inputOf s k).policy }) ∧
      (∀ k b, crossOf t k b = { crossOf s k b with applied := (crossOf s k b).target }) ∧
      (∀ b, busOf t b = { busOf State.reset b with
        master := (busOf s b).master, applied := (busOf s b).master, decay := (busOf s b).decay }) ∧
      (∀ k, triggerOf t k = { triggerOf s k with state := .idle, run := 0, clip := .absent, fired := 0 }) ∧
      (∀ k target, target = targetDelay s (s.sdp.get k) → t.sdp.get k = { s.sdp.get k with
        target := target
        current := if (s.sdp.get k).enable then target else (s.sdp.get k).current
        lineL := if (s.sdp.get k).enable then [] else (s.sdp.get k).lineL
        lineR := if (s.sdp.get k).enable then [] else (s.sdp.get k).lineR
        assembly := none
        packets := 0
        refused := 0 }) ∧
      t.clm = { State.reset.clm with
        next := s.clm.next, preRoll := s.clm.preRoll, postRoll := s.clm.postRoll, autoMark := s.clm.autoMark,
        tallyPriority := s.clm.tallyPriority } ∧
      t.pkp.free = List.range 16384 ∧ QueuesEmpty t ∧
      (∀ o, t.pkp.owners.get o = { count := 0, cap := (s.pkp.owners.get o).cap, refused := 0 }) ∧
      t.hsc.ignoredHome = 0 ∧
      (∀ l, sched t l = { sched State.reset l with
        nextSeq := (sched s l).nextSeq, lastAck := (sched s l).lastAck, epoch := (sched s l).epoch }) ∧
      (∀ l, link t l = { link State.reset l with
        reported := (link s l).reported, capacity := (link s l).capacity, code := (link s l).code,
        settings := (link s l).settings })

/-- R203, R204, R205, R214: what a message is worth before any owner sees it, and the one reply it receives, for every command
row, from every ring stream, desk and home. A list out of its range is MALFORMED and raises that flag; a command that a desk,
the home origin or the authority shuts out is REFUSED-AUTHORITY; any other goes to its owner, whose status is one of the six
that are an owner's, and exactly one reply joins the ring output queue, or goes home as a REPLY packet, or is held. Bytes that
are no run of field records, and those with a field that is none of the command's (the model's choice, log entry 41), are
MALFORMED; a kind outside 1 to 25 is UNKNOWN; bytes that spell a command are that command, by the identifiers of 12.1 (for
TIMEBASE-SET the model's choice, log entry 56). UNKNOWN_COMMAND stands for a complete message of any kind (the model's choice,
log entry 40). A home packet is the message in its payload. A full queue answers QUEUE-FULL where there is room for it, and
counts an overflow where there is none. -/
def Obligations.Messages_AreJudgedAndAnswered : Prop :=
  (∀ (c : Instr) (h : Hdr) (m : Command) (i : RingStream) (d : Option (Fin 8)) (s : State), messageOf c = some (h, m) →
    h.src = .van i d → Quiet s → s.sri.queue.length + 8 ≤ 64 →
    (ListOut m → s.cmu.noticesHome = false → s.cmu.notices.length < 32 →
      exec c s = .next { s with
        cmu := flagRaised .malformed s
        sri := ringReply s.sri h i (commandKind m) 10 [] }) ∧
    (¬ ListOut m → ShutOut s.cmu.authority h.src m →
      exec c s = .next { s with sri := ringReply s.sri h i (commandKind m) 6 [] }) ∧
    (¬ ListOut m → ¬ ShutOut s.cmu.authority h.src m → m ≠ .reset 2 →
      ∃ (t : State) (status : Byte) (results : List (Option (List Byte))), exec c s = .next t ∧
        (status = 1 ∨ status = 2 ∨ status = 3 ∨ status = 4 ∨ status = 5 ∨ status = 7) ∧
        t.sri.queue = s.sri.queue ++
          replyCells t.sri.output h.tag ([commandKind m, status, byteOf i.val, 0] ++ records 1 results) ∧
        t.cmu.van = [] ∧ t.cmu.home = [])) ∧
  (∀ (c : Instr) (h : Hdr) (m : Command) (s : State), messageOf c = some (h, m) → h.src = .home → Quiet s →
    s.cmu.held = none → ¬ ListOut m → ¬ ShutOut s.cmu.authority h.src m →
    (m = .reset 2 → exec c s = .next { State.reset with
      pending := s.pending
      sri := { State.reset.sri with queue := replyCells 254 h.tag [25, 1, 0, 0] } }) ∧
    (m ≠ .reset 2 → ∃ (t : State) (status : Byte) (results : List (Option (List Byte))) (body : List Byte),
      exec c s = .next t ∧ (status = 1 ∨ status = 2 ∨ status = 3 ∨ status = 4 ∨ status = 5 ∨ status = 7) ∧
      body = [commandKind m, status, 0, 0] ++ records 1 results ∧
      (t.cmu.home = [] ∧ t.cmu.held = none ∧ OnItsWay h.tag body t ∨
        t.cmu.home = [{ hdr := h, kind := commandKind m, body := .command m }] ∧
          t.cmu.held = some { tag := h.tag, bytes := body }) ∧
      t.cmu.van = [] ∧ t.sri.queue = s.sri.queue)) ∧
  (∀ (h : Hdr) (i : RingStream) (d : Option (Fin 8)) (kind : Byte) (bytes : List Byte) (s : State), h.src = .van i d →
    Quiet s → s.sri.queue.length + 8 ≤ 64 →
    ((kind.toNat = 0 ∨ 25 < kind.toNat) → FieldsFill bytes →
      exec (.unknownCommand h kind bytes) s = .next { s with sri := ringReply s.sri h i kind 9 [] }) ∧
    (¬ FieldsFill bytes ∨ 1 ≤ kind.toNat ∧ kind.toNat ≤ 25 ∧ (∃ fields : List (Byte × List Byte),
          (∀ f ∈ fields, f.2.length < 256) ∧ (∃ f ∈ fields, 16 < f.1.toNat) ∧
          bytes = (fields.map fun f => f.1 :: byteOf f.2.length :: f.2).flatten) →
      s.cmu.noticesHome = false → s.cmu.notices.length < 32 →
      exec (.unknownCommand h kind bytes) s = .next { s with
        cmu := flagRaised .malformed s
        sri := ringReply s.sri h i kind 10 [] })) ∧
  (∀ (h : Hdr) (a b c d : Byte) (text : List Byte) (s : State),
    exec (.unknownCommand h 6 [0, 1, a]) s = exec (.refresh h (some a.toNat)) s ∧
    exec (.unknownCommand h 20 [0, 1, a]) s = exec (.linkDown h (some a.toNat)) s ∧
    exec (.unknownCommand h 2 [0, 1, a, 1, 1, b, 2, 1, c]) s =
      exec (.formatSet h { entry := some a.toNat, width := some b.toNat, bands := some c.toNat }) s ∧
    exec (.unknownCommand h 1 [1, 2, a, b, 2, 1, c, 3, 1, d]) s =
      exec (.timebaseSet h {
        base := some (a.toNat * 256 + b.toNat), den := some c.toNat, num := some d.toNat }) s ∧
    (text.length < 256 →
      exec (.unknownCommand h 15 ([0, 2, a, b, 1, byteOf text.length] ++ text)) s =
        exec (.clipLabel h { clip := some (a.toNat * 256 + b.toNat) } (some text)) s)) ∧
  (∀ (kind tag : Byte) (length : BitVec 16) (message : List Byte) (s : State), length.toNat = message.length →
    message.length ≤ 448 →
    exec (.controlPacket kind tag length message) s = exec (.unknownCommand { src := .home, tag := tag } kind message) s) ∧
  (∀ (c : Instr) (tag kind status : Byte) (u : CommandUnit) (r : OwnerRecord) (body : List Byte) (s : State), Quiet s →
    NoLinkTakes s → s.cmu.held = none → s.cmu.noticesHome = false → s.cmu.notices.length < 32 → r = s.pkp.owners.get 5 →
    ((∃ h m, messageOf c = some (h, m) ∧ h = { src := .home, tag := tag } ∧ kind = commandKind m ∧
        (ListOut m ∧ status = 10 ∧ u = flagRaised .malformed s ∨
          ¬ ListOut m ∧ ShutOut s.cmu.authority h.src m ∧ status = 6 ∧ u = s.cmu)) ∨
      (∃ length message, c = .controlPacket kind tag length message ∧
        (length.toNat = message.length ∧ message.length ≤ 448 ∧ FieldsFill message ∧ (kind.toNat = 0 ∨ 25 < kind.toNat) ∧
            status = 9 ∧ u = s.cmu ∨
          (length.toNat ≠ message.length ∨ 448 < length.toNat ∨ ¬ FieldsFill message) ∧ status = 10 ∧
            u = flagRaised .malformed s))) →
    body = [kind, status, 0, 0] →
    (1 ≤ s.pkp.free.length → r.count + 1 ≤ r.cap →
      exec c s = .next { s with
        pkp := { s.pkp with
          free := s.pkp.free.drop 1
          owners := s.pkp.owners.set 5 { r with count := r.count + 1 }
          reply := s.pkp.reply ++ [{
            kind := .reply, owner := some .labelReply, subject := some tag.toNat, number := 0
            stamp := s.tbu.tick, size := 20, blocks := s.pkp.free.take 1, payload := body }] }
        cmu := u }) ∧
    (u.notices.length < 32 → (s.pkp.free = [] ∨ r.cap ≤ r.count) →
      ∃ w : Msg, w.hdr = { src := .home, tag := tag } ∧ w.kind = kind ∧
        exec c s = .next { s with
          pkp := { s.pkp with owners := s.pkp.owners.set 5 { r with refused := min (r.refused + 1) 65535 } }
          cmu := { flagRaised .poolRefused { s with cmu := u } with
            home := [w]
            held := some { tag := tag, bytes := body } } })) ∧
  (∀ (c : Instr) (h : Hdr) (m : Command) (s : State), messageOf c = some (h, m) → NoOwed s → s.cmu.noticesHome = false →
    s.cmu.notices.length < 31 →
    (∀ (i : RingStream) (d : Option (Fin 8)), h.src = .van i d → s.cmu.van.length = 8 → s.cmu.home = [] →
      56 < s.sri.queue.length →
      (s.sri.queue.length < 64 → exec c s = .next { s with
        cmu := flagRaised .commandOverflow s
        sri := ringReply s.sri h i (commandKind m) 8 [] }) ∧
      (64 ≤ s.sri.queue.length → exec c s = .next { s with
        cmu := { flagRaised .commandOverflow s with overflow := min (s.cmu.overflow + 1) 65535 } })) ∧
    (∀ r : OwnerRecord, h.src = .home → s.cmu.home.length = 8 → s.cmu.held ≠ none → s.cmu.van = [] → NoLinkTakes s →
      r = s.pkp.owners.get 5 →
      (1 ≤ s.pkp.free.length → r.count + 1 ≤ r.cap → exec c s = .next { s with
        cmu := flagRaised .commandOverflow s
        pkp := { s.pkp with
          free := s.pkp.free.drop 1
          owners := s.pkp.owners.set 5 { r with count := r.count + 1 }
          reply := s.pkp.reply ++ [{
            kind := .reply, owner := some .labelReply, subject := some h.tag.toNat, number := 0
            stamp := s.tbu.tick, size := 20, blocks := s.pkp.free.take 1, payload := [commandKind m, 8, 0, 0] }] } }) ∧
      ((s.pkp.free = [] ∨ r.cap ≤ r.count) → exec c s = .next { s with
        cmu := { flagRaised .commandOverflow { s with cmu := flagRaised .poolRefused s } with
          overflow := min (s.cmu.overflow + 1) 65535 }
        pkp := { s.pkp with owners := s.pkp.owners.set 5 { r with refused := min (r.refused + 1) 65535 } } }))) ∧
  (∀ (c : Instr) (h : Hdr) (n : Option Nat) (b : Nat) (free : List Nat) (r : OwnerRecord) (answered : Byte → Pool) (s : State),
    (c = .refresh h n ∨ ∃ a : Byte, n = some a.toNat ∧
      (c = .unknownCommand h 6 [0, 1, a] ∨ c = .controlPacket 6 h.tag 3 [0, 1, a])) →
    Quiet s → h.src = .home → s.cmu.authority ≠ .van → NoLinkTakes s → s.cmu.held = none → s.pkp.free = b :: free →
    r = s.pkp.owners.get 5 → r.count + 1 ≤ r.cap →
    (∀ status, answered status = { s.pkp with
      free := free
      owners := s.pkp.owners.set 5 { r with count := r.count + 1 }
      reply := s.pkp.reply ++ [{
        kind := .reply, owner := some .labelReply, subject := some h.tag.toNat, number := 0
        stamp := s.tbu.tick, size := 20, blocks := [b], payload := [6, status, 0, 0] }] }) →
    ((n = none ∨ ∃ v, n = some v ∧ 3 < v) → exec c s = .next { s with pkp := answered 5 }) ∧
    (∀ p q : Prog, n = some p.val → q = (if p.val % 2 = 1 ∧ (prog s (p - 1)).pair = true then p - 1 else p) →
      exec c s = .next
        { s.onProg q (fun r => { r with refreshOwed := true, causes := min (r.causes + 1) 65535 }) with
          pkp := answered 1 }))

/-! ### Invariants of every step, part 2 -/

/-- R122, R123, R124: at every step the clip table keeps at most 64 records of distinct numbers from 1 to 65,535, the next clip
number stays in that range, and the acknowledgement order names records of the table. -/
def Obligations.Step_KeepsClipTable : Prop :=
  ∀ s t : State, step s = .next t → ClipsOk s.clm → ClipsOk t.clm

/-- R165, R203: a step from a state that owes no take attempt leaves none owed, and a step keeps the command queues to 8
messages. The owed marks, and that a step's attempts are made until none is owed, are the model's (log entry 29). R146, R147,
R171: a step keeps the pool whole, that every block is free or held once by a packet of the class queues, the slots, the
in-flight lists and the streams' assemblies or by a fragment of the band in coding, each owner's count being the blocks held for
it, and a lost band or a disabled stream holding none; and it keeps every link's in-flight list to at most 256 entries of the
consecutive sequences that R171 names, with none in a link that is DOWN or HELD. -/
def Obligations.Step_SettlesTakesAndQueues : Prop :=
  ∀ s t : State, step s = .next t → (NoOwed s → NoOwed t) ∧ (CommandQueuesOk s.cmu → CommandQueuesOk t.cmu) ∧
    (PoolOk s → (∀ l, LaneOk (link s l).state (sched s l)) → PoolOk t ∧ ∀ l, LaneOk (link t l).state (sched t l))

/-- R15, R106, R144, R146, R180, R197, R212: the state after reset meets every invariant that is stated of steps, and finds
nothing waiting, owed or due; that no command waits at the part's own inputs, and that no attempt is owed, are the model's own
state (log entries 1, 29). -/
def Obligations.Reset_MeetsTheInvariants : Prop :=
  CadenceOk State.reset.tbu ∧ MapOk State.reset.sri ∧ CommandQueuesOk State.reset.cmu ∧ ClipsOk State.reset.clm ∧
  Quiet State.reset ∧ NothingDue State.reset ∧ NoLinkCarries State.reset ∧ QueuesEmpty State.reset ∧ PoolOk State.reset ∧
  ∀ l, LaneOk (link State.reset l).state (sched State.reset l)
end

