-- ==== Sys2Proof/Laws/State.lean ====
section
/-! SUPPORT. What each update of one part of the state does to every field of it, and the laws of `Table`. -/

namespace Sys2Proof

namespace Table
variable {n : Nat} {α β : Type}

@[ext] theorem ext_vals {t u : Table n α} (h : t.vals = u.vals) : t = u := by
  cases t; cases u; cases h; rfl

theorem get_eq (t : Table n α) (i : Fin n) : t.get i = t.vals[i.val]'(by rw [t.len]; exact i.isLt) := rfl

@[simp] theorem get_set_self (t : Table n α) (i : Fin n) (a : α) : (t.set i a).get i = a := by
  simp [get_eq, set]

theorem get_set_ne (t : Table n α) {i j : Fin n} (a : α) (h : i ≠ j) : (t.set i a).get j = t.get j := by
  have : i.val ≠ j.val := fun e => h (Fin.ext e)
  simp [get_eq, set, this]

@[simp] theorem get_modify_self (t : Table n α) (i : Fin n) (f : α → α) : (t.modify i f).get i = f (t.get i) := by
  simp [modify]

theorem get_modify_ne (t : Table n α) {i j : Fin n} (f : α → α) (h : i ≠ j) : (t.modify i f).get j = t.get j :=
  get_set_ne t (f (t.get i)) h

theorem get_modify (t : Table n α) (i j : Fin n) (f : α → α) :
    (t.modify i f).get j = if i = j then f (t.get j) else t.get j := by
  by_cases h : i = j
  · subst h; simp
  · rw [get_modify_ne t f h, if_neg h]

@[simp] theorem get_replicate (a : α) (i : Fin n) : (replicate n a).get i = a := by
  simp [get_eq, replicate]

@[simp] theorem get_ofFn (f : Fin n → α) (i : Fin n) : (ofFn f).get i = f i := by
  simp [get_eq, ofFn]

@[simp] theorem get_map (f : α → β) (t : Table n α) (i : Fin n) : (t.map f).get i = f (t.get i) := by
  simp [get_eq, map]

/-- Two tables with the same entries are the same. -/
theorem ext_get {t u : Table n α} (h : ∀ i, t.get i = u.get i) : t = u := by
  apply ext_vals
  apply List.ext_getElem (by rw [t.len, u.len])
  intro k h1 h2
  have hk : k < n := by rw [← t.len]; exact h1
  exact h ⟨k, hk⟩

@[simp] theorem set_get_self (t : Table n α) (i : Fin n) : t.set i (t.get i) = t := by
  apply ext_get
  intro j
  by_cases h : i = j
  · subst h; simp
  · exact get_set_ne t _ h

@[simp] theorem set_set (t : Table n α) (i : Fin n) (a b : α) : (t.set i a).set i b = t.set i b := by
  apply ext_vals
  simp [set]

/-- Two updates of one entry are one. -/
@[simp] theorem modify_modify (t : Table n α) (i : Fin n) (f g : α → α) :
    (t.modify i f).modify i g = t.modify i (fun a => g (f a)) := by
  simp [modify]

@[simp] theorem modify_id (t : Table n α) (i : Fin n) : t.modify i (fun a => a) = t := set_get_self t i

end Table

namespace Machine

@[simp] theorem State.onTbu_pending (f : Timebase → Timebase) (s : State) : (s.onTbu f).pending = s.pending := rfl
@[simp] theorem State.onTbu_tbu (f : Timebase → Timebase) (s : State) : (s.onTbu f).tbu = f s.tbu := rfl
@[simp] theorem State.onTbu_ports (f : Timebase → Timebase) (s : State) : (s.onTbu f).ports = s.ports := rfl
@[simp] theorem State.onTbu_pgc (f : Timebase → Timebase) (s : State) : (s.onTbu f).pgc = s.pgc := rfl
@[simp] theorem State.onTbu_cde (f : Timebase → Timebase) (s : State) : (s.onTbu f).cde = s.cde := rfl
@[simp] theorem State.onTbu_ral (f : Timebase → Timebase) (s : State) : (s.onTbu f).ral = s.ral := rfl
@[simp] theorem State.onTbu_smx (f : Timebase → Timebase) (s : State) : (s.onTbu f).smx = s.smx := rfl
@[simp] theorem State.onTbu_sdp (f : Timebase → Timebase) (s : State) : (s.onTbu f).sdp = s.sdp := rfl
@[simp] theorem State.onTbu_clm (f : Timebase → Timebase) (s : State) : (s.onTbu f).clm = s.clm := rfl
@[simp] theorem State.onTbu_pkp (f : Timebase → Timebase) (s : State) : (s.onTbu f).pkp = s.pkp := rfl
@[simp] theorem State.onTbu_hsc (f : Timebase → Timebase) (s : State) : (s.onTbu f).hsc = s.hsc := rfl
@[simp] theorem State.onTbu_lsu (f : Timebase → Timebase) (s : State) : (s.onTbu f).lsu = s.lsu := rfl
@[simp] theorem State.onTbu_sri (f : Timebase → Timebase) (s : State) : (s.onTbu f).sri = s.sri := rfl
@[simp] theorem State.onTbu_cmu (f : Timebase → Timebase) (s : State) : (s.onTbu f).cmu = s.cmu := rfl

@[simp] theorem State.onPort_pending (p : Prog) (f : Port → Port) (s : State) : (s.onPort p f).pending = s.pending := rfl
@[simp] theorem State.onPort_tbu (p : Prog) (f : Port → Port) (s : State) : (s.onPort p f).tbu = s.tbu := rfl
@[simp] theorem State.onPort_ports (p : Prog) (f : Port → Port) (s : State) : (s.onPort p f).ports = s.ports.modify p f := rfl
@[simp] theorem State.onPort_pgc (p : Prog) (f : Port → Port) (s : State) : (s.onPort p f).pgc = s.pgc := rfl
@[simp] theorem State.onPort_cde (p : Prog) (f : Port → Port) (s : State) : (s.onPort p f).cde = s.cde := rfl
@[simp] theorem State.onPort_ral (p : Prog) (f : Port → Port) (s : State) : (s.onPort p f).ral = s.ral := rfl
@[simp] theorem State.onPort_smx (p : Prog) (f : Port → Port) (s : State) : (s.onPort p f).smx = s.smx := rfl
@[simp] theorem State.onPort_sdp (p : Prog) (f : Port → Port) (s : State) : (s.onPort p f).sdp = s.sdp := rfl
@[simp] theorem State.onPort_clm (p : Prog) (f : Port → Port) (s : State) : (s.onPort p f).clm = s.clm := rfl
@[simp] theorem State.onPort_pkp (p : Prog) (f : Port → Port) (s : State) : (s.onPort p f).pkp = s.pkp := rfl
@[simp] theorem State.onPort_hsc (p : Prog) (f : Port → Port) (s : State) : (s.onPort p f).hsc = s.hsc := rfl
@[simp] theorem State.onPort_lsu (p : Prog) (f : Port → Port) (s : State) : (s.onPort p f).lsu = s.lsu := rfl
@[simp] theorem State.onPort_sri (p : Prog) (f : Port → Port) (s : State) : (s.onPort p f).sri = s.sri := rfl
@[simp] theorem State.onPort_cmu (p : Prog) (f : Port → Port) (s : State) : (s.onPort p f).cmu = s.cmu := rfl

@[simp] theorem State.onPgc_pending (f : Controller → Controller) (s : State) : (s.onPgc f).pending = s.pending := rfl
@[simp] theorem State.onPgc_tbu (f : Controller → Controller) (s : State) : (s.onPgc f).tbu = s.tbu := rfl
@[simp] theorem State.onPgc_ports (f : Controller → Controller) (s : State) : (s.onPgc f).ports = s.ports := rfl
@[simp] theorem State.onPgc_pgc (f : Controller → Controller) (s : State) : (s.onPgc f).pgc = f s.pgc := rfl
@[simp] theorem State.onPgc_cde (f : Controller → Controller) (s : State) : (s.onPgc f).cde = s.cde := rfl
@[simp] theorem State.onPgc_ral (f : Controller → Controller) (s : State) : (s.onPgc f).ral = s.ral := rfl
@[simp] theorem State.onPgc_smx (f : Controller → Controller) (s : State) : (s.onPgc f).smx = s.smx := rfl
@[simp] theorem State.onPgc_sdp (f : Controller → Controller) (s : State) : (s.onPgc f).sdp = s.sdp := rfl
@[simp] theorem State.onPgc_clm (f : Controller → Controller) (s : State) : (s.onPgc f).clm = s.clm := rfl
@[simp] theorem State.onPgc_pkp (f : Controller → Controller) (s : State) : (s.onPgc f).pkp = s.pkp := rfl
@[simp] theorem State.onPgc_hsc (f : Controller → Controller) (s : State) : (s.onPgc f).hsc = s.hsc := rfl
@[simp] theorem State.onPgc_lsu (f : Controller → Controller) (s : State) : (s.onPgc f).lsu = s.lsu := rfl
@[simp] theorem State.onPgc_sri (f : Controller → Controller) (s : State) : (s.onPgc f).sri = s.sri := rfl
@[simp] theorem State.onPgc_cmu (f : Controller → Controller) (s : State) : (s.onPgc f).cmu = s.cmu := rfl

@[simp] theorem State.onProg_pending (p : Prog) (f : Programme → Programme) (s : State) : (s.onProg p f).pending = s.pending := rfl
@[simp] theorem State.onProg_tbu (p : Prog) (f : Programme → Programme) (s : State) : (s.onProg p f).tbu = s.tbu := rfl
@[simp] theorem State.onProg_ports (p : Prog) (f : Programme → Programme) (s : State) : (s.onProg p f).ports = s.ports := rfl
@[simp] theorem State.onProg_pgc (p : Prog) (f : Programme → Programme) (s : State) : (s.onProg p f).pgc = { s.pgc with progs := s.pgc.progs.modify p f } := rfl
@[simp] theorem State.onProg_cde (p : Prog) (f : Programme → Programme) (s : State) : (s.onProg p f).cde = s.cde := rfl
@[simp] theorem State.onProg_ral (p : Prog) (f : Programme → Programme) (s : State) : (s.onProg p f).ral = s.ral := rfl
@[simp] theorem State.onProg_smx (p : Prog) (f : Programme → Programme) (s : State) : (s.onProg p f).smx = s.smx := rfl
@[simp] theorem State.onProg_sdp (p : Prog) (f : Programme → Programme) (s : State) : (s.onProg p f).sdp = s.sdp := rfl
@[simp] theorem State.onProg_clm (p : Prog) (f : Programme → Programme) (s : State) : (s.onProg p f).clm = s.clm := rfl
@[simp] theorem State.onProg_pkp (p : Prog) (f : Programme → Programme) (s : State) : (s.onProg p f).pkp = s.pkp := rfl
@[simp] theorem State.onProg_hsc (p : Prog) (f : Programme → Programme) (s : State) : (s.onProg p f).hsc = s.hsc := rfl
@[simp] theorem State.onProg_lsu (p : Prog) (f : Programme → Programme) (s : State) : (s.onProg p f).lsu = s.lsu := rfl
@[simp] theorem State.onProg_sri (p : Prog) (f : Programme → Programme) (s : State) : (s.onProg p f).sri = s.sri := rfl
@[simp] theorem State.onProg_cmu (p : Prog) (f : Programme → Programme) (s : State) : (s.onProg p f).cmu = s.cmu := rfl

@[simp] theorem State.onCde_pending (f : Engine → Engine) (s : State) : (s.onCde f).pending = s.pending := rfl
@[simp] theorem State.onCde_tbu (f : Engine → Engine) (s : State) : (s.onCde f).tbu = s.tbu := rfl
@[simp] theorem State.onCde_ports (f : Engine → Engine) (s : State) : (s.onCde f).ports = s.ports := rfl
@[simp] theorem State.onCde_pgc (f : Engine → Engine) (s : State) : (s.onCde f).pgc = s.pgc := rfl
@[simp] theorem State.onCde_cde (f : Engine → Engine) (s : State) : (s.onCde f).cde = f s.cde := rfl
@[simp] theorem State.onCde_ral (f : Engine → Engine) (s : State) : (s.onCde f).ral = s.ral := rfl
@[simp] theorem State.onCde_smx (f : Engine → Engine) (s : State) : (s.onCde f).smx = s.smx := rfl
@[simp] theorem State.onCde_sdp (f : Engine → Engine) (s : State) : (s.onCde f).sdp = s.sdp := rfl
@[simp] theorem State.onCde_clm (f : Engine → Engine) (s : State) : (s.onCde f).clm = s.clm := rfl
@[simp] theorem State.onCde_pkp (f : Engine → Engine) (s : State) : (s.onCde f).pkp = s.pkp := rfl
@[simp] theorem State.onCde_hsc (f : Engine → Engine) (s : State) : (s.onCde f).hsc = s.hsc := rfl
@[simp] theorem State.onCde_lsu (f : Engine → Engine) (s : State) : (s.onCde f).lsu = s.lsu := rfl
@[simp] theorem State.onCde_sri (f : Engine → Engine) (s : State) : (s.onCde f).sri = s.sri := rfl
@[simp] theorem State.onCde_cmu (f : Engine → Engine) (s : State) : (s.onCde f).cmu = s.cmu := rfl

@[simp] theorem State.onLoop_pending (p : Prog) (f : CodingLoop → CodingLoop) (s : State) : (s.onLoop p f).pending = s.pending := rfl
@[simp] theorem State.onLoop_tbu (p : Prog) (f : CodingLoop → CodingLoop) (s : State) : (s.onLoop p f).tbu = s.tbu := rfl
@[simp] theorem State.onLoop_ports (p : Prog) (f : CodingLoop → CodingLoop) (s : State) : (s.onLoop p f).ports = s.ports := rfl
@[simp] theorem State.onLoop_pgc (p : Prog) (f : CodingLoop → CodingLoop) (s : State) : (s.onLoop p f).pgc = s.pgc := rfl
@[simp] theorem State.onLoop_cde (p : Prog) (f : CodingLoop → CodingLoop) (s : State) : (s.onLoop p f).cde = { s.cde with loops := s.cde.loops.modify p f } := rfl
@[simp] theorem State.onLoop_ral (p : Prog) (f : CodingLoop → CodingLoop) (s : State) : (s.onLoop p f).ral = s.ral := rfl
@[simp] theorem State.onLoop_smx (p : Prog) (f : CodingLoop → CodingLoop) (s : State) : (s.onLoop p f).smx = s.smx := rfl
@[simp] theorem State.onLoop_sdp (p : Prog) (f : CodingLoop → CodingLoop) (s : State) : (s.onLoop p f).sdp = s.sdp := rfl
@[simp] theorem State.onLoop_clm (p : Prog) (f : CodingLoop → CodingLoop) (s : State) : (s.onLoop p f).clm = s.clm := rfl
@[simp] theorem State.onLoop_pkp (p : Prog) (f : CodingLoop → CodingLoop) (s : State) : (s.onLoop p f).pkp = s.pkp := rfl
@[simp] theorem State.onLoop_hsc (p : Prog) (f : CodingLoop → CodingLoop) (s : State) : (s.onLoop p f).hsc = s.hsc := rfl
@[simp] theorem State.onLoop_lsu (p : Prog) (f : CodingLoop → CodingLoop) (s : State) : (s.onLoop p f).lsu = s.lsu := rfl
@[simp] theorem State.onLoop_sri (p : Prog) (f : CodingLoop → CodingLoop) (s : State) : (s.onLoop p f).sri = s.sri := rfl
@[simp] theorem State.onLoop_cmu (p : Prog) (f : CodingLoop → CodingLoop) (s : State) : (s.onLoop p f).cmu = s.cmu := rfl

@[simp] theorem State.setEntry_pending (p : Prog) (e : Option Entry) (s : State) : (s.setEntry p e).pending = s.pending := rfl
@[simp] theorem State.setEntry_tbu (p : Prog) (e : Option Entry) (s : State) : (s.setEntry p e).tbu = s.tbu := rfl
@[simp] theorem State.setEntry_ports (p : Prog) (e : Option Entry) (s : State) : (s.setEntry p e).ports = s.ports := rfl
@[simp] theorem State.setEntry_pgc (p : Prog) (e : Option Entry) (s : State) : (s.setEntry p e).pgc = s.pgc := rfl
@[simp] theorem State.setEntry_cde (p : Prog) (e : Option Entry) (s : State) : (s.setEntry p e).cde = { s.cde with entries := s.cde.entries.set p e } := rfl
@[simp] theorem State.setEntry_ral (p : Prog) (e : Option Entry) (s : State) : (s.setEntry p e).ral = s.ral := rfl
@[simp] theorem State.setEntry_smx (p : Prog) (e : Option Entry) (s : State) : (s.setEntry p e).smx = s.smx := rfl
@[simp] theorem State.setEntry_sdp (p : Prog) (e : Option Entry) (s : State) : (s.setEntry p e).sdp = s.sdp := rfl
@[simp] theorem State.setEntry_clm (p : Prog) (e : Option Entry) (s : State) : (s.setEntry p e).clm = s.clm := rfl
@[simp] theorem State.setEntry_pkp (p : Prog) (e : Option Entry) (s : State) : (s.setEntry p e).pkp = s.pkp := rfl
@[simp] theorem State.setEntry_hsc (p : Prog) (e : Option Entry) (s : State) : (s.setEntry p e).hsc = s.hsc := rfl
@[simp] theorem State.setEntry_lsu (p : Prog) (e : Option Entry) (s : State) : (s.setEntry p e).lsu = s.lsu := rfl
@[simp] theorem State.setEntry_sri (p : Prog) (e : Option Entry) (s : State) : (s.setEntry p e).sri = s.sri := rfl
@[simp] theorem State.setEntry_cmu (p : Prog) (e : Option Entry) (s : State) : (s.setEntry p e).cmu = s.cmu := rfl

@[simp] theorem State.setBand_pending (b : Option Band) (s : State) : (s.setBand b).pending = s.pending := rfl
@[simp] theorem State.setBand_tbu (b : Option Band) (s : State) : (s.setBand b).tbu = s.tbu := rfl
@[simp] theorem State.setBand_ports (b : Option Band) (s : State) : (s.setBand b).ports = s.ports := rfl
@[simp] theorem State.setBand_pgc (b : Option Band) (s : State) : (s.setBand b).pgc = s.pgc := rfl
@[simp] theorem State.setBand_cde (b : Option Band) (s : State) : (s.setBand b).cde = { s.cde with band := b } := rfl
@[simp] theorem State.setBand_ral (b : Option Band) (s : State) : (s.setBand b).ral = s.ral := rfl
@[simp] theorem State.setBand_smx (b : Option Band) (s : State) : (s.setBand b).smx = s.smx := rfl
@[simp] theorem State.setBand_sdp (b : Option Band) (s : State) : (s.setBand b).sdp = s.sdp := rfl
@[simp] theorem State.setBand_clm (b : Option Band) (s : State) : (s.setBand b).clm = s.clm := rfl
@[simp] theorem State.setBand_pkp (b : Option Band) (s : State) : (s.setBand b).pkp = s.pkp := rfl
@[simp] theorem State.setBand_hsc (b : Option Band) (s : State) : (s.setBand b).hsc = s.hsc := rfl
@[simp] theorem State.setBand_lsu (b : Option Band) (s : State) : (s.setBand b).lsu = s.lsu := rfl
@[simp] theorem State.setBand_sri (b : Option Band) (s : State) : (s.setBand b).sri = s.sri := rfl
@[simp] theorem State.setBand_cmu (b : Option Band) (s : State) : (s.setBand b).cmu = s.cmu := rfl

@[simp] theorem State.onRal_pending (f : Allocator → Allocator) (s : State) : (s.onRal f).pending = s.pending := rfl
@[simp] theorem State.onRal_tbu (f : Allocator → Allocator) (s : State) : (s.onRal f).tbu = s.tbu := rfl
@[simp] theorem State.onRal_ports (f : Allocator → Allocator) (s : State) : (s.onRal f).ports = s.ports := rfl
@[simp] theorem State.onRal_pgc (f : Allocator → Allocator) (s : State) : (s.onRal f).pgc = s.pgc := rfl
@[simp] theorem State.onRal_cde (f : Allocator → Allocator) (s : State) : (s.onRal f).cde = s.cde := rfl
@[simp] theorem State.onRal_ral (f : Allocator → Allocator) (s : State) : (s.onRal f).ral = f s.ral := rfl
@[simp] theorem State.onRal_smx (f : Allocator → Allocator) (s : State) : (s.onRal f).smx = s.smx := rfl
@[simp] theorem State.onRal_sdp (f : Allocator → Allocator) (s : State) : (s.onRal f).sdp = s.sdp := rfl
@[simp] theorem State.onRal_clm (f : Allocator → Allocator) (s : State) : (s.onRal f).clm = s.clm := rfl
@[simp] theorem State.onRal_pkp (f : Allocator → Allocator) (s : State) : (s.onRal f).pkp = s.pkp := rfl
@[simp] theorem State.onRal_hsc (f : Allocator → Allocator) (s : State) : (s.onRal f).hsc = s.hsc := rfl
@[simp] theorem State.onRal_lsu (f : Allocator → Allocator) (s : State) : (s.onRal f).lsu = s.lsu := rfl
@[simp] theorem State.onRal_sri (f : Allocator → Allocator) (s : State) : (s.onRal f).sri = s.sri := rfl
@[simp] theorem State.onRal_cmu (f : Allocator → Allocator) (s : State) : (s.onRal f).cmu = s.cmu := rfl

@[simp] theorem State.onRate_pending (p : Prog) (f : RateProg → RateProg) (s : State) : (s.onRate p f).pending = s.pending := rfl
@[simp] theorem State.onRate_tbu (p : Prog) (f : RateProg → RateProg) (s : State) : (s.onRate p f).tbu = s.tbu := rfl
@[simp] theorem State.onRate_ports (p : Prog) (f : RateProg → RateProg) (s : State) : (s.onRate p f).ports = s.ports := rfl
@[simp] theorem State.onRate_pgc (p : Prog) (f : RateProg → RateProg) (s : State) : (s.onRate p f).pgc = s.pgc := rfl
@[simp] theorem State.onRate_cde (p : Prog) (f : RateProg → RateProg) (s : State) : (s.onRate p f).cde = s.cde := rfl
@[simp] theorem State.onRate_ral (p : Prog) (f : RateProg → RateProg) (s : State) : (s.onRate p f).ral = { s.ral with progs := s.ral.progs.modify p f } := rfl
@[simp] theorem State.onRate_smx (p : Prog) (f : RateProg → RateProg) (s : State) : (s.onRate p f).smx = s.smx := rfl
@[simp] theorem State.onRate_sdp (p : Prog) (f : RateProg → RateProg) (s : State) : (s.onRate p f).sdp = s.sdp := rfl
@[simp] theorem State.onRate_clm (p : Prog) (f : RateProg → RateProg) (s : State) : (s.onRate p f).clm = s.clm := rfl
@[simp] theorem State.onRate_pkp (p : Prog) (f : RateProg → RateProg) (s : State) : (s.onRate p f).pkp = s.pkp := rfl
@[simp] theorem State.onRate_hsc (p : Prog) (f : RateProg → RateProg) (s : State) : (s.onRate p f).hsc = s.hsc := rfl
@[simp] theorem State.onRate_lsu (p : Prog) (f : RateProg → RateProg) (s : State) : (s.onRate p f).lsu = s.lsu := rfl
@[simp] theorem State.onRate_sri (p : Prog) (f : RateProg → RateProg) (s : State) : (s.onRate p f).sri = s.sri := rfl
@[simp] theorem State.onRate_cmu (p : Prog) (f : RateProg → RateProg) (s : State) : (s.onRate p f).cmu = s.cmu := rfl

@[simp] theorem State.onSmx_pending (f : Mixer → Mixer) (s : State) : (s.onSmx f).pending = s.pending := rfl
@[simp] theorem State.onSmx_tbu (f : Mixer → Mixer) (s : State) : (s.onSmx f).tbu = s.tbu := rfl
@[simp] theorem State.onSmx_ports (f : Mixer → Mixer) (s : State) : (s.onSmx f).ports = s.ports := rfl
@[simp] theorem State.onSmx_pgc (f : Mixer → Mixer) (s : State) : (s.onSmx f).pgc = s.pgc := rfl
@[simp] theorem State.onSmx_cde (f : Mixer → Mixer) (s : State) : (s.onSmx f).cde = s.cde := rfl
@[simp] theorem State.onSmx_ral (f : Mixer → Mixer) (s : State) : (s.onSmx f).ral = s.ral := rfl
@[simp] theorem State.onSmx_smx (f : Mixer → Mixer) (s : State) : (s.onSmx f).smx = f s.smx := rfl
@[simp] theorem State.onSmx_sdp (f : Mixer → Mixer) (s : State) : (s.onSmx f).sdp = s.sdp := rfl
@[simp] theorem State.onSmx_clm (f : Mixer → Mixer) (s : State) : (s.onSmx f).clm = s.clm := rfl
@[simp] theorem State.onSmx_pkp (f : Mixer → Mixer) (s : State) : (s.onSmx f).pkp = s.pkp := rfl
@[simp] theorem State.onSmx_hsc (f : Mixer → Mixer) (s : State) : (s.onSmx f).hsc = s.hsc := rfl
@[simp] theorem State.onSmx_lsu (f : Mixer → Mixer) (s : State) : (s.onSmx f).lsu = s.lsu := rfl
@[simp] theorem State.onSmx_sri (f : Mixer → Mixer) (s : State) : (s.onSmx f).sri = s.sri := rfl
@[simp] theorem State.onSmx_cmu (f : Mixer → Mixer) (s : State) : (s.onSmx f).cmu = s.cmu := rfl

@[simp] theorem State.onTrigger_pending (t : Fin 4) (f : Trigger → Trigger) (s : State) : (s.onTrigger t f).pending = s.pending := rfl
@[simp] theorem State.onTrigger_tbu (t : Fin 4) (f : Trigger → Trigger) (s : State) : (s.onTrigger t f).tbu = s.tbu := rfl
@[simp] theorem State.onTrigger_ports (t : Fin 4) (f : Trigger → Trigger) (s : State) : (s.onTrigger t f).ports = s.ports := rfl
@[simp] theorem State.onTrigger_pgc (t : Fin 4) (f : Trigger → Trigger) (s : State) : (s.onTrigger t f).pgc = s.pgc := rfl
@[simp] theorem State.onTrigger_cde (t : Fin 4) (f : Trigger → Trigger) (s : State) : (s.onTrigger t f).cde = s.cde := rfl
@[simp] theorem State.onTrigger_ral (t : Fin 4) (f : Trigger → Trigger) (s : State) : (s.onTrigger t f).ral = s.ral := rfl
@[simp] theorem State.onTrigger_smx (t : Fin 4) (f : Trigger → Trigger) (s : State) : (s.onTrigger t f).smx = { s.smx with triggers := s.smx.triggers.modify t f } := rfl
@[simp] theorem State.onTrigger_sdp (t : Fin 4) (f : Trigger → Trigger) (s : State) : (s.onTrigger t f).sdp = s.sdp := rfl
@[simp] theorem State.onTrigger_clm (t : Fin 4) (f : Trigger → Trigger) (s : State) : (s.onTrigger t f).clm = s.clm := rfl
@[simp] theorem State.onTrigger_pkp (t : Fin 4) (f : Trigger → Trigger) (s : State) : (s.onTrigger t f).pkp = s.pkp := rfl
@[simp] theorem State.onTrigger_hsc (t : Fin 4) (f : Trigger → Trigger) (s : State) : (s.onTrigger t f).hsc = s.hsc := rfl
@[simp] theorem State.onTrigger_lsu (t : Fin 4) (f : Trigger → Trigger) (s : State) : (s.onTrigger t f).lsu = s.lsu := rfl
@[simp] theorem State.onTrigger_sri (t : Fin 4) (f : Trigger → Trigger) (s : State) : (s.onTrigger t f).sri = s.sri := rfl
@[simp] theorem State.onTrigger_cmu (t : Fin 4) (f : Trigger → Trigger) (s : State) : (s.onTrigger t f).cmu = s.cmu := rfl

@[simp] theorem State.onInput_pending (k : Fin 32) (f : Input → Input) (s : State) : (s.onInput k f).pending = s.pending := rfl
@[simp] theorem State.onInput_tbu (k : Fin 32) (f : Input → Input) (s : State) : (s.onInput k f).tbu = s.tbu := rfl
@[simp] theorem State.onInput_ports (k : Fin 32) (f : Input → Input) (s : State) : (s.onInput k f).ports = s.ports := rfl
@[simp] theorem State.onInput_pgc (k : Fin 32) (f : Input → Input) (s : State) : (s.onInput k f).pgc = s.pgc := rfl
@[simp] theorem State.onInput_cde (k : Fin 32) (f : Input → Input) (s : State) : (s.onInput k f).cde = s.cde := rfl
@[simp] theorem State.onInput_ral (k : Fin 32) (f : Input → Input) (s : State) : (s.onInput k f).ral = s.ral := rfl
@[simp] theorem State.onInput_smx (k : Fin 32) (f : Input → Input) (s : State) : (s.onInput k f).smx = { s.smx with inputs := s.smx.inputs.modify k f } := rfl
@[simp] theorem State.onInput_sdp (k : Fin 32) (f : Input → Input) (s : State) : (s.onInput k f).sdp = s.sdp := rfl
@[simp] theorem State.onInput_clm (k : Fin 32) (f : Input → Input) (s : State) : (s.onInput k f).clm = s.clm := rfl
@[simp] theorem State.onInput_pkp (k : Fin 32) (f : Input → Input) (s : State) : (s.onInput k f).pkp = s.pkp := rfl
@[simp] theorem State.onInput_hsc (k : Fin 32) (f : Input → Input) (s : State) : (s.onInput k f).hsc = s.hsc := rfl
@[simp] theorem State.onInput_lsu (k : Fin 32) (f : Input → Input) (s : State) : (s.onInput k f).lsu = s.lsu := rfl
@[simp] theorem State.onInput_sri (k : Fin 32) (f : Input → Input) (s : State) : (s.onInput k f).sri = s.sri := rfl
@[simp] theorem State.onInput_cmu (k : Fin 32) (f : Input → Input) (s : State) : (s.onInput k f).cmu = s.cmu := rfl

@[simp] theorem State.onCross_pending (k : Fin 32) (b : Fin 8) (f : CrossPoint → CrossPoint) (s : State) : (s.onCross k b f).pending = s.pending := rfl
@[simp] theorem State.onCross_tbu (k : Fin 32) (b : Fin 8) (f : CrossPoint → CrossPoint) (s : State) : (s.onCross k b f).tbu = s.tbu := rfl
@[simp] theorem State.onCross_ports (k : Fin 32) (b : Fin 8) (f : CrossPoint → CrossPoint) (s : State) : (s.onCross k b f).ports = s.ports := rfl
@[simp] theorem State.onCross_pgc (k : Fin 32) (b : Fin 8) (f : CrossPoint → CrossPoint) (s : State) : (s.onCross k b f).pgc = s.pgc := rfl
@[simp] theorem State.onCross_cde (k : Fin 32) (b : Fin 8) (f : CrossPoint → CrossPoint) (s : State) : (s.onCross k b f).cde = s.cde := rfl
@[simp] theorem State.onCross_ral (k : Fin 32) (b : Fin 8) (f : CrossPoint → CrossPoint) (s : State) : (s.onCross k b f).ral = s.ral := rfl
@[simp] theorem State.onCross_smx (k : Fin 32) (b : Fin 8) (f : CrossPoint → CrossPoint) (s : State) : (s.onCross k b f).smx = { s.smx with cross := s.smx.cross.modify k fun row => row.modify b f } := rfl
@[simp] theorem State.onCross_sdp (k : Fin 32) (b : Fin 8) (f : CrossPoint → CrossPoint) (s : State) : (s.onCross k b f).sdp = s.sdp := rfl
@[simp] theorem State.onCross_clm (k : Fin 32) (b : Fin 8) (f : CrossPoint → CrossPoint) (s : State) : (s.onCross k b f).clm = s.clm := rfl
@[simp] theorem State.onCross_pkp (k : Fin 32) (b : Fin 8) (f : CrossPoint → CrossPoint) (s : State) : (s.onCross k b f).pkp = s.pkp := rfl
@[simp] theorem State.onCross_hsc (k : Fin 32) (b : Fin 8) (f : CrossPoint → CrossPoint) (s : State) : (s.onCross k b f).hsc = s.hsc := rfl
@[simp] theorem State.onCross_lsu (k : Fin 32) (b : Fin 8) (f : CrossPoint → CrossPoint) (s : State) : (s.onCross k b f).lsu = s.lsu := rfl
@[simp] theorem State.onCross_sri (k : Fin 32) (b : Fin 8) (f : CrossPoint → CrossPoint) (s : State) : (s.onCross k b f).sri = s.sri := rfl
@[simp] theorem State.onCross_cmu (k : Fin 32) (b : Fin 8) (f : CrossPoint → CrossPoint) (s : State) : (s.onCross k b f).cmu = s.cmu := rfl

@[simp] theorem State.onBus_pending (b : Fin 8) (f : Bus → Bus) (s : State) : (s.onBus b f).pending = s.pending := rfl
@[simp] theorem State.onBus_tbu (b : Fin 8) (f : Bus → Bus) (s : State) : (s.onBus b f).tbu = s.tbu := rfl
@[simp] theorem State.onBus_ports (b : Fin 8) (f : Bus → Bus) (s : State) : (s.onBus b f).ports = s.ports := rfl
@[simp] theorem State.onBus_pgc (b : Fin 8) (f : Bus → Bus) (s : State) : (s.onBus b f).pgc = s.pgc := rfl
@[simp] theorem State.onBus_cde (b : Fin 8) (f : Bus → Bus) (s : State) : (s.onBus b f).cde = s.cde := rfl
@[simp] theorem State.onBus_ral (b : Fin 8) (f : Bus → Bus) (s : State) : (s.onBus b f).ral = s.ral := rfl
@[simp] theorem State.onBus_smx (b : Fin 8) (f : Bus → Bus) (s : State) : (s.onBus b f).smx = { s.smx with buses := s.smx.buses.modify b f } := rfl
@[simp] theorem State.onBus_sdp (b : Fin 8) (f : Bus → Bus) (s : State) : (s.onBus b f).sdp = s.sdp := rfl
@[simp] theorem State.onBus_clm (b : Fin 8) (f : Bus → Bus) (s : State) : (s.onBus b f).clm = s.clm := rfl
@[simp] theorem State.onBus_pkp (b : Fin 8) (f : Bus → Bus) (s : State) : (s.onBus b f).pkp = s.pkp := rfl
@[simp] theorem State.onBus_hsc (b : Fin 8) (f : Bus → Bus) (s : State) : (s.onBus b f).hsc = s.hsc := rfl
@[simp] theorem State.onBus_lsu (b : Fin 8) (f : Bus → Bus) (s : State) : (s.onBus b f).lsu = s.lsu := rfl
@[simp] theorem State.onBus_sri (b : Fin 8) (f : Bus → Bus) (s : State) : (s.onBus b f).sri = s.sri := rfl
@[simp] theorem State.onBus_cmu (b : Fin 8) (f : Bus → Bus) (s : State) : (s.onBus b f).cmu = s.cmu := rfl

@[simp] theorem State.onStream_pending (i : Fin 4) (f : SoundStream → SoundStream) (s : State) : (s.onStream i f).pending = s.pending := rfl
@[simp] theorem State.onStream_tbu (i : Fin 4) (f : SoundStream → SoundStream) (s : State) : (s.onStream i f).tbu = s.tbu := rfl
@[simp] theorem State.onStream_ports (i : Fin 4) (f : SoundStream → SoundStream) (s : State) : (s.onStream i f).ports = s.ports := rfl
@[simp] theorem State.onStream_pgc (i : Fin 4) (f : SoundStream → SoundStream) (s : State) : (s.onStream i f).pgc = s.pgc := rfl
@[simp] theorem State.onStream_cde (i : Fin 4) (f : SoundStream → SoundStream) (s : State) : (s.onStream i f).cde = s.cde := rfl
@[simp] theorem State.onStream_ral (i : Fin 4) (f : SoundStream → SoundStream) (s : State) : (s.onStream i f).ral = s.ral := rfl
@[simp] theorem State.onStream_smx (i : Fin 4) (f : SoundStream → SoundStream) (s : State) : (s.onStream i f).smx = s.smx := rfl
@[simp] theorem State.onStream_sdp (i : Fin 4) (f : SoundStream → SoundStream) (s : State) : (s.onStream i f).sdp = s.sdp.modify i f := rfl
@[simp] theorem State.onStream_clm (i : Fin 4) (f : SoundStream → SoundStream) (s : State) : (s.onStream i f).clm = s.clm := rfl
@[simp] theorem State.onStream_pkp (i : Fin 4) (f : SoundStream → SoundStream) (s : State) : (s.onStream i f).pkp = s.pkp := rfl
@[simp] theorem State.onStream_hsc (i : Fin 4) (f : SoundStream → SoundStream) (s : State) : (s.onStream i f).hsc = s.hsc := rfl
@[simp] theorem State.onStream_lsu (i : Fin 4) (f : SoundStream → SoundStream) (s : State) : (s.onStream i f).lsu = s.lsu := rfl
@[simp] theorem State.onStream_sri (i : Fin 4) (f : SoundStream → SoundStream) (s : State) : (s.onStream i f).sri = s.sri := rfl
@[simp] theorem State.onStream_cmu (i : Fin 4) (f : SoundStream → SoundStream) (s : State) : (s.onStream i f).cmu = s.cmu := rfl

@[simp] theorem State.onClm_pending (f : ClipMarker → ClipMarker) (s : State) : (s.onClm f).pending = s.pending := rfl
@[simp] theorem State.onClm_tbu (f : ClipMarker → ClipMarker) (s : State) : (s.onClm f).tbu = s.tbu := rfl
@[simp] theorem State.onClm_ports (f : ClipMarker → ClipMarker) (s : State) : (s.onClm f).ports = s.ports := rfl
@[simp] theorem State.onClm_pgc (f : ClipMarker → ClipMarker) (s : State) : (s.onClm f).pgc = s.pgc := rfl
@[simp] theorem State.onClm_cde (f : ClipMarker → ClipMarker) (s : State) : (s.onClm f).cde = s.cde := rfl
@[simp] theorem State.onClm_ral (f : ClipMarker → ClipMarker) (s : State) : (s.onClm f).ral = s.ral := rfl
@[simp] theorem State.onClm_smx (f : ClipMarker → ClipMarker) (s : State) : (s.onClm f).smx = s.smx := rfl
@[simp] theorem State.onClm_sdp (f : ClipMarker → ClipMarker) (s : State) : (s.onClm f).sdp = s.sdp := rfl
@[simp] theorem State.onClm_clm (f : ClipMarker → ClipMarker) (s : State) : (s.onClm f).clm = f s.clm := rfl
@[simp] theorem State.onClm_pkp (f : ClipMarker → ClipMarker) (s : State) : (s.onClm f).pkp = s.pkp := rfl
@[simp] theorem State.onClm_hsc (f : ClipMarker → ClipMarker) (s : State) : (s.onClm f).hsc = s.hsc := rfl
@[simp] theorem State.onClm_lsu (f : ClipMarker → ClipMarker) (s : State) : (s.onClm f).lsu = s.lsu := rfl
@[simp] theorem State.onClm_sri (f : ClipMarker → ClipMarker) (s : State) : (s.onClm f).sri = s.sri := rfl
@[simp] theorem State.onClm_cmu (f : ClipMarker → ClipMarker) (s : State) : (s.onClm f).cmu = s.cmu := rfl

@[simp] theorem State.onPool_pending (f : Pool → Pool) (s : State) : (s.onPool f).pending = s.pending := rfl
@[simp] theorem State.onPool_tbu (f : Pool → Pool) (s : State) : (s.onPool f).tbu = s.tbu := rfl
@[simp] theorem State.onPool_ports (f : Pool → Pool) (s : State) : (s.onPool f).ports = s.ports := rfl
@[simp] theorem State.onPool_pgc (f : Pool → Pool) (s : State) : (s.onPool f).pgc = s.pgc := rfl
@[simp] theorem State.onPool_cde (f : Pool → Pool) (s : State) : (s.onPool f).cde = s.cde := rfl
@[simp] theorem State.onPool_ral (f : Pool → Pool) (s : State) : (s.onPool f).ral = s.ral := rfl
@[simp] theorem State.onPool_smx (f : Pool → Pool) (s : State) : (s.onPool f).smx = s.smx := rfl
@[simp] theorem State.onPool_sdp (f : Pool → Pool) (s : State) : (s.onPool f).sdp = s.sdp := rfl
@[simp] theorem State.onPool_clm (f : Pool → Pool) (s : State) : (s.onPool f).clm = s.clm := rfl
@[simp] theorem State.onPool_pkp (f : Pool → Pool) (s : State) : (s.onPool f).pkp = f s.pkp := rfl
@[simp] theorem State.onPool_hsc (f : Pool → Pool) (s : State) : (s.onPool f).hsc = s.hsc := rfl
@[simp] theorem State.onPool_lsu (f : Pool → Pool) (s : State) : (s.onPool f).lsu = s.lsu := rfl
@[simp] theorem State.onPool_sri (f : Pool → Pool) (s : State) : (s.onPool f).sri = s.sri := rfl
@[simp] theorem State.onPool_cmu (f : Pool → Pool) (s : State) : (s.onPool f).cmu = s.cmu := rfl

@[simp] theorem State.onHsc_pending (f : Scheduler → Scheduler) (s : State) : (s.onHsc f).pending = s.pending := rfl
@[simp] theorem State.onHsc_tbu (f : Scheduler → Scheduler) (s : State) : (s.onHsc f).tbu = s.tbu := rfl
@[simp] theorem State.onHsc_ports (f : Scheduler → Scheduler) (s : State) : (s.onHsc f).ports = s.ports := rfl
@[simp] theorem State.onHsc_pgc (f : Scheduler → Scheduler) (s : State) : (s.onHsc f).pgc = s.pgc := rfl
@[simp] theorem State.onHsc_cde (f : Scheduler → Scheduler) (s : State) : (s.onHsc f).cde = s.cde := rfl
@[simp] theorem State.onHsc_ral (f : Scheduler → Scheduler) (s : State) : (s.onHsc f).ral = s.ral := rfl
@[simp] theorem State.onHsc_smx (f : Scheduler → Scheduler) (s : State) : (s.onHsc f).smx = s.smx := rfl
@[simp] theorem State.onHsc_sdp (f : Scheduler → Scheduler) (s : State) : (s.onHsc f).sdp = s.sdp := rfl
@[simp] theorem State.onHsc_clm (f : Scheduler → Scheduler) (s : State) : (s.onHsc f).clm = s.clm := rfl
@[simp] theorem State.onHsc_pkp (f : Scheduler → Scheduler) (s : State) : (s.onHsc f).pkp = s.pkp := rfl
@[simp] theorem State.onHsc_hsc (f : Scheduler → Scheduler) (s : State) : (s.onHsc f).hsc = f s.hsc := rfl
@[simp] theorem State.onHsc_lsu (f : Scheduler → Scheduler) (s : State) : (s.onHsc f).lsu = s.lsu := rfl
@[simp] theorem State.onHsc_sri (f : Scheduler → Scheduler) (s : State) : (s.onHsc f).sri = s.sri := rfl
@[simp] theorem State.onHsc_cmu (f : Scheduler → Scheduler) (s : State) : (s.onHsc f).cmu = s.cmu := rfl

@[simp] theorem State.onSched_pending (l : Link) (f : LinkSched → LinkSched) (s : State) : (s.onSched l f).pending = s.pending := rfl
@[simp] theorem State.onSched_tbu (l : Link) (f : LinkSched → LinkSched) (s : State) : (s.onSched l f).tbu = s.tbu := rfl
@[simp] theorem State.onSched_ports (l : Link) (f : LinkSched → LinkSched) (s : State) : (s.onSched l f).ports = s.ports := rfl
@[simp] theorem State.onSched_pgc (l : Link) (f : LinkSched → LinkSched) (s : State) : (s.onSched l f).pgc = s.pgc := rfl
@[simp] theorem State.onSched_cde (l : Link) (f : LinkSched → LinkSched) (s : State) : (s.onSched l f).cde = s.cde := rfl
@[simp] theorem State.onSched_ral (l : Link) (f : LinkSched → LinkSched) (s : State) : (s.onSched l f).ral = s.ral := rfl
@[simp] theorem State.onSched_smx (l : Link) (f : LinkSched → LinkSched) (s : State) : (s.onSched l f).smx = s.smx := rfl
@[simp] theorem State.onSched_sdp (l : Link) (f : LinkSched → LinkSched) (s : State) : (s.onSched l f).sdp = s.sdp := rfl
@[simp] theorem State.onSched_clm (l : Link) (f : LinkSched → LinkSched) (s : State) : (s.onSched l f).clm = s.clm := rfl
@[simp] theorem State.onSched_pkp (l : Link) (f : LinkSched → LinkSched) (s : State) : (s.onSched l f).pkp = s.pkp := rfl
@[simp] theorem State.onSched_hsc (l : Link) (f : LinkSched → LinkSched) (s : State) : (s.onSched l f).hsc = { s.hsc with links := s.hsc.links.modify l f } := rfl
@[simp] theorem State.onSched_lsu (l : Link) (f : LinkSched → LinkSched) (s : State) : (s.onSched l f).lsu = s.lsu := rfl
@[simp] theorem State.onSched_sri (l : Link) (f : LinkSched → LinkSched) (s : State) : (s.onSched l f).sri = s.sri := rfl
@[simp] theorem State.onSched_cmu (l : Link) (f : LinkSched → LinkSched) (s : State) : (s.onSched l f).cmu = s.cmu := rfl

@[simp] theorem State.onLink_pending (l : Link) (f : LinkRecord → LinkRecord) (s : State) : (s.onLink l f).pending = s.pending := rfl
@[simp] theorem State.onLink_tbu (l : Link) (f : LinkRecord → LinkRecord) (s : State) : (s.onLink l f).tbu = s.tbu := rfl
@[simp] theorem State.onLink_ports (l : Link) (f : LinkRecord → LinkRecord) (s : State) : (s.onLink l f).ports = s.ports := rfl
@[simp] theorem State.onLink_pgc (l : Link) (f : LinkRecord → LinkRecord) (s : State) : (s.onLink l f).pgc = s.pgc := rfl
@[simp] theorem State.onLink_cde (l : Link) (f : LinkRecord → LinkRecord) (s : State) : (s.onLink l f).cde = s.cde := rfl
@[simp] theorem State.onLink_ral (l : Link) (f : LinkRecord → LinkRecord) (s : State) : (s.onLink l f).ral = s.ral := rfl
@[simp] theorem State.onLink_smx (l : Link) (f : LinkRecord → LinkRecord) (s : State) : (s.onLink l f).smx = s.smx := rfl
@[simp] theorem State.onLink_sdp (l : Link) (f : LinkRecord → LinkRecord) (s : State) : (s.onLink l f).sdp = s.sdp := rfl
@[simp] theorem State.onLink_clm (l : Link) (f : LinkRecord → LinkRecord) (s : State) : (s.onLink l f).clm = s.clm := rfl
@[simp] theorem State.onLink_pkp (l : Link) (f : LinkRecord → LinkRecord) (s : State) : (s.onLink l f).pkp = s.pkp := rfl
@[simp] theorem State.onLink_hsc (l : Link) (f : LinkRecord → LinkRecord) (s : State) : (s.onLink l f).hsc = s.hsc := rfl
@[simp] theorem State.onLink_lsu (l : Link) (f : LinkRecord → LinkRecord) (s : State) : (s.onLink l f).lsu = s.lsu.modify l f := rfl
@[simp] theorem State.onLink_sri (l : Link) (f : LinkRecord → LinkRecord) (s : State) : (s.onLink l f).sri = s.sri := rfl
@[simp] theorem State.onLink_cmu (l : Link) (f : LinkRecord → LinkRecord) (s : State) : (s.onLink l f).cmu = s.cmu := rfl

@[simp] theorem State.onSri_pending (f : Ring → Ring) (s : State) : (s.onSri f).pending = s.pending := rfl
@[simp] theorem State.onSri_tbu (f : Ring → Ring) (s : State) : (s.onSri f).tbu = s.tbu := rfl
@[simp] theorem State.onSri_ports (f : Ring → Ring) (s : State) : (s.onSri f).ports = s.ports := rfl
@[simp] theorem State.onSri_pgc (f : Ring → Ring) (s : State) : (s.onSri f).pgc = s.pgc := rfl
@[simp] theorem State.onSri_cde (f : Ring → Ring) (s : State) : (s.onSri f).cde = s.cde := rfl
@[simp] theorem State.onSri_ral (f : Ring → Ring) (s : State) : (s.onSri f).ral = s.ral := rfl
@[simp] theorem State.onSri_smx (f : Ring → Ring) (s : State) : (s.onSri f).smx = s.smx := rfl
@[simp] theorem State.onSri_sdp (f : Ring → Ring) (s : State) : (s.onSri f).sdp = s.sdp := rfl
@[simp] theorem State.onSri_clm (f : Ring → Ring) (s : State) : (s.onSri f).clm = s.clm := rfl
@[simp] theorem State.onSri_pkp (f : Ring → Ring) (s : State) : (s.onSri f).pkp = s.pkp := rfl
@[simp] theorem State.onSri_hsc (f : Ring → Ring) (s : State) : (s.onSri f).hsc = s.hsc := rfl
@[simp] theorem State.onSri_lsu (f : Ring → Ring) (s : State) : (s.onSri f).lsu = s.lsu := rfl
@[simp] theorem State.onSri_sri (f : Ring → Ring) (s : State) : (s.onSri f).sri = f s.sri := rfl
@[simp] theorem State.onSri_cmu (f : Ring → Ring) (s : State) : (s.onSri f).cmu = s.cmu := rfl

@[simp] theorem State.onCmu_pending (f : CommandUnit → CommandUnit) (s : State) : (s.onCmu f).pending = s.pending := rfl
@[simp] theorem State.onCmu_tbu (f : CommandUnit → CommandUnit) (s : State) : (s.onCmu f).tbu = s.tbu := rfl
@[simp] theorem State.onCmu_ports (f : CommandUnit → CommandUnit) (s : State) : (s.onCmu f).ports = s.ports := rfl
@[simp] theorem State.onCmu_pgc (f : CommandUnit → CommandUnit) (s : State) : (s.onCmu f).pgc = s.pgc := rfl
@[simp] theorem State.onCmu_cde (f : CommandUnit → CommandUnit) (s : State) : (s.onCmu f).cde = s.cde := rfl
@[simp] theorem State.onCmu_ral (f : CommandUnit → CommandUnit) (s : State) : (s.onCmu f).ral = s.ral := rfl
@[simp] theorem State.onCmu_smx (f : CommandUnit → CommandUnit) (s : State) : (s.onCmu f).smx = s.smx := rfl
@[simp] theorem State.onCmu_sdp (f : CommandUnit → CommandUnit) (s : State) : (s.onCmu f).sdp = s.sdp := rfl
@[simp] theorem State.onCmu_clm (f : CommandUnit → CommandUnit) (s : State) : (s.onCmu f).clm = s.clm := rfl
@[simp] theorem State.onCmu_pkp (f : CommandUnit → CommandUnit) (s : State) : (s.onCmu f).pkp = s.pkp := rfl
@[simp] theorem State.onCmu_hsc (f : CommandUnit → CommandUnit) (s : State) : (s.onCmu f).hsc = s.hsc := rfl
@[simp] theorem State.onCmu_lsu (f : CommandUnit → CommandUnit) (s : State) : (s.onCmu f).lsu = s.lsu := rfl
@[simp] theorem State.onCmu_sri (f : CommandUnit → CommandUnit) (s : State) : (s.onCmu f).sri = s.sri := rfl
@[simp] theorem State.onCmu_cmu (f : CommandUnit → CommandUnit) (s : State) : (s.onCmu f).cmu = f s.cmu := rfl

end Machine

end Sys2Proof
end

