-- ==== Sys2Proof/Laws/Calm.lean ====
section
/-! SUPPORT. What take attempts, raised flags, notices and block requests leave alone: everything but the Packet Pool, the
Home Scheduler, the event flags and notice lists, and the refresh-owed marks with their counts. -/

namespace Sys2Proof.Machine

/-- A programme's record without its refresh-owed mark and its refresh-cause count. -/
def Programme.unmarked (r : Programme) : Programme := { r with refreshOwed := false, causes := 0 }

/-- What take attempts and flags leave alone. -/
def State.calm (s : State) :=
  ((s.pending, s.tbu, s.ports, s.cde, s.ral, s.smx, s.sdp), (s.clm, s.lsu, s.sri),
    (s.pgc.formats, s.pgc.progs.map Programme.unmarked),
    (s.cmu.van, s.cmu.home, s.cmu.held, s.cmu.authority, s.cmu.noticesHome, s.cmu.overflow))

@[simp] theorem foldl_calm {α : Type} (f : State → α → State) (h : ∀ s a, (f s a).calm = s.calm) (l : List α)
    (s : State) : (l.foldl f s).calm = s.calm := by
  induction l generalizing s with
  | nil => rfl
  | cons a l ih => simp [ih, h]

@[simp] theorem State.onPool_calm (f : Pool → Pool) (s : State) : (s.onPool f).calm = s.calm := rfl
@[simp] theorem State.onHsc_calm (f : Scheduler → Scheduler) (s : State) : (s.onHsc f).calm = s.calm := rfl
@[simp] theorem State.onSched_calm (l : Link) (f : LinkSched → LinkSched) (s : State) : (s.onSched l f).calm = s.calm := rfl
@[simp] theorem State.withPool_calm (s : State) (k : Pool) : ({ s with pkp := k } : State).calm = s.calm := rfl

@[simp] theorem notices_calm (f : CommandUnit → List Notice) (s : State) :
    (s.onCmu fun c => { c with notices := f c }).calm = s.calm := rfl
@[simp] theorem homeNotices_calm (f : CommandUnit → List Notice) (s : State) :
    (s.onCmu fun c => { c with homeNotices := f c }).calm = s.calm := rfl

@[simp] theorem refreshCause_calm (p : Prog) (s : State) : (refreshCause p s).calm = s.calm := by
  have : ((refreshCause p s).pgc.progs.map Programme.unmarked) = s.pgc.progs.map Programme.unmarked := by
    apply Table.ext_get
    intro q
    simp only [Table.get_map, refreshCause, State.onProg, State.onPgc, Table.get_modify]
    split <;> rfl
  simp only [State.calm, this]
  rfl

@[simp] theorem oweTake_calm (l : Link) (s : State) : (oweTake l s).calm = s.calm := by
  simp [oweTake]

@[simp] theorem oweAll_calm (s : State) : (oweAll s).calm = s.calm := by
  simp [oweAll]

@[simp] theorem appendPackets_calm (c : QueueClass) (ps : List Packet) (s : State) : (appendPackets c ps s).calm = s.calm := by
  simp [appendPackets]

@[simp] theorem reroute_calm (ps : List Packet) (s : State) : (reroute ps s).calm = s.calm := by
  simp [reroute]

@[simp] theorem endReservations_calm (gone : List Packet) (s : State) : (endReservations gone s).calm = s.calm := by
  simp only [endReservations]
  split <;> simp

@[simp] theorem flushPictures_calm (p : Prog) (s : State) : (flushPictures p s).calm = s.calm := by
  simp [flushPictures]

@[simp] theorem bumpFlag_calm (f : EventFlag) (s : State) : (bumpFlag f s).calm = s.calm := rfl

theorem sendHomeNotice_calm (raise : EventFlag → State → State) (h : ∀ f s, (raise f s).calm = s.calm) (s : State) :
    (sendHomeNotice raise s).2.calm = s.calm := by
  simp only [sendHomeNotice]
  split
  · rfl
  · split
    · exact appendPackets_calm ..
    · rw [h]; rfl

theorem homeCopy_calm (raise : EventFlag → State → State) (h : ∀ f s, (raise f s).calm = s.calm) (n : Notice)
    (s : State) : (homeCopy raise n s).calm = s.calm := by
  simp only [homeCopy]
  repeat' split
  all_goals simp [h, sendHomeNotice_calm raise h]

theorem queueNoticeWith_calm (raise : EventFlag → State → State) (h : ∀ f s, (raise f s).calm = s.calm) (n : Notice)
    (s : State) : (queueNoticeWith raise n s).calm = s.calm := by
  simp only [queueNoticeWith]
  repeat' split
  all_goals simp [h, homeCopy_calm raise h]

@[simp] theorem raiseWithin_calm (k : Nat) (f : EventFlag) (s : State) : (raiseWithin k f s).calm = s.calm := by
  induction k generalizing f s with
  | zero => simp only [raiseWithin, bumpFlag_calm]
  | succ k ih =>
    simp only [raiseWithin]
    split
    · exact bumpFlag_calm ..
    · exact (queueNoticeWith_calm _ ih _ _).trans (bumpFlag_calm ..)

@[simp] theorem raiseFlag_calm (f : EventFlag) (s : State) : (raiseFlag f s).calm = s.calm := by
  simp [raiseFlag]

@[simp] theorem queueNotice_calm (body : NoticeBody) (answers : Option OpenCommand) (s : State) : (queueNotice body answers s).calm = s.calm := by
  exact queueNoticeWith_calm _ (by simp) ..

@[simp] theorem request_calm (o : Owner) (n : Nat) (s : State) : (request o n s).2.calm = s.calm := by
  simp only [request]
  split <;> simp

@[simp] theorem releaseBlocks_calm (o : Owner) (blocks : List Nat) (s : State) : (releaseBlocks o blocks s).calm = s.calm := by
  simp [releaseBlocks]

@[simp] theorem setReservation_calm (l : Link) (r : Option Reservation) (s : State) : (setReservation l r s).calm = s.calm := by
  simp only [setReservation]
  split <;> simp

@[simp] theorem dropLate_calm (l : Link) (c : QueueClass) (p : Packet) (rest : List Packet) (s : State) : (dropLate l c p rest s).calm = s.calm := by
  simp only [dropLate]
  repeat' split
  all_goals simp

@[simp] theorem takePacket_calm (l : Link) (c : QueueClass) (p : Packet) (rest : List Packet) (s : State) : (takePacket l c p rest s).calm = s.calm := by
  simp [takePacket]

@[simp] theorem attempt_calm (fuel : Nat) (l : Link) (s : State) : (attempt fuel l s).calm = s.calm := by
  induction fuel generalizing s with
  | zero => rfl
  | succ k ih =>
    simp only [attempt]
    repeat' split
    all_goals simp_all

@[simp] theorem attemptOwed_calm (l : Link) (s : State) : (attemptOwed l s).calm = s.calm := by
  simp only [attemptOwed]
  split <;> simp

@[simp] theorem settle_calm (fuel : Nat) (s : State) : (settle fuel s).calm = s.calm := by
  induction fuel generalizing s with
  | zero => simp [settle]
  | succ k ih =>
    simp only [settle]
    split <;> simp_all

@[simp] theorem settleTakes_calm (s : State) : (settleTakes s).calm = s.calm := by
  simp [settleTakes]

/-! ### The Clip Marker's own work leaves everything but its records alone, and what take attempts and flags change -/

/-- What take attempts, flags and the clip table's own work leave alone. -/
def State.serene (s : State) :=
  ((s.pending, s.tbu, s.ports, s.cde, s.ral, s.smx, s.sdp), (s.lsu, s.sri),
    (s.pgc.formats, s.pgc.progs.map Programme.unmarked),
    (s.cmu.van, s.cmu.home, s.cmu.held, s.cmu.authority, s.cmu.noticesHome, s.cmu.overflow))

theorem serene_of_calm {s t : State} (h : s.calm = t.calm) : s.serene = t.serene := by
  simp only [State.calm, Prod.mk.injEq] at h
  simp only [State.serene, Prod.mk.injEq]
  exact ⟨h.1, h.2.1.2, h.2.2⟩

@[simp] theorem foldl_serene {α : Type} (f : State → α → State) (h : ∀ s a, (f s a).serene = s.serene) (l : List α)
    (s : State) : (l.foldl f s).serene = s.serene := by
  induction l generalizing s with
  | nil => rfl
  | cons a l ih => simp [ih, h]

@[simp] theorem State.onClm_serene (f : ClipMarker → ClipMarker) (s : State) : (s.onClm f).serene = s.serene := rfl

@[simp] theorem refreshCause_serene (p : Prog) (s : State) : (refreshCause p s).serene = s.serene :=
  serene_of_calm (refreshCause_calm ..)

@[simp] theorem oweTake_serene (l : Link) (s : State) : (oweTake l s).serene = s.serene :=
  serene_of_calm (oweTake_calm ..)

@[simp] theorem oweAll_serene (s : State) : (oweAll s).serene = s.serene :=
  serene_of_calm (oweAll_calm ..)

@[simp] theorem appendPackets_serene (c : QueueClass) (ps : List Packet) (s : State) : (appendPackets c ps s).serene = s.serene :=
  serene_of_calm (appendPackets_calm ..)

@[simp] theorem endReservations_serene (gone : List Packet) (s : State) : (endReservations gone s).serene = s.serene :=
  serene_of_calm (endReservations_calm ..)

@[simp] theorem flushPictures_serene (p : Prog) (s : State) : (flushPictures p s).serene = s.serene :=
  serene_of_calm (flushPictures_calm ..)

@[simp] theorem bumpFlag_serene (f : EventFlag) (s : State) : (bumpFlag f s).serene = s.serene :=
  serene_of_calm (bumpFlag_calm ..)

@[simp] theorem raiseWithin_serene (k : Nat) (f : EventFlag) (s : State) : (raiseWithin k f s).serene = s.serene :=
  serene_of_calm (raiseWithin_calm ..)

@[simp] theorem raiseFlag_serene (f : EventFlag) (s : State) : (raiseFlag f s).serene = s.serene :=
  serene_of_calm (raiseFlag_calm ..)

@[simp] theorem queueNotice_serene (body : NoticeBody) (answers : Option OpenCommand) (s : State) : (queueNotice body answers s).serene = s.serene :=
  serene_of_calm (queueNotice_calm ..)

@[simp] theorem request_serene (o : Owner) (n : Nat) (s : State) : (request o n s).2.serene = s.serene :=
  serene_of_calm (request_calm ..)

@[simp] theorem releaseBlocks_serene (o : Owner) (blocks : List Nat) (s : State) : (releaseBlocks o blocks s).serene = s.serene :=
  serene_of_calm (releaseBlocks_calm ..)

@[simp] theorem setReservation_serene (l : Link) (r : Option Reservation) (s : State) : (setReservation l r s).serene = s.serene :=
  serene_of_calm (setReservation_calm ..)

@[simp] theorem dropLate_serene (l : Link) (c : QueueClass) (p : Packet) (rest : List Packet) (s : State) : (dropLate l c p rest s).serene = s.serene :=
  serene_of_calm (dropLate_calm ..)

@[simp] theorem takePacket_serene (l : Link) (c : QueueClass) (p : Packet) (rest : List Packet) (s : State) : (takePacket l c p rest s).serene = s.serene :=
  serene_of_calm (takePacket_calm ..)

@[simp] theorem attempt_serene (fuel : Nat) (l : Link) (s : State) : (attempt fuel l s).serene = s.serene :=
  serene_of_calm (attempt_calm ..)

@[simp] theorem attemptOwed_serene (l : Link) (s : State) : (attemptOwed l s).serene = s.serene :=
  serene_of_calm (attemptOwed_calm ..)

@[simp] theorem settle_serene (fuel : Nat) (s : State) : (settle fuel s).serene = s.serene :=
  serene_of_calm (settle_calm ..)

@[simp] theorem settleTakes_serene (s : State) : (settleTakes s).serene = s.serene :=
  serene_of_calm (settleTakes_calm ..)

@[simp] theorem reroute_serene (ps : List Packet) (s : State) : (reroute ps s).serene = s.serene :=
  serene_of_calm (reroute_calm ..)

@[simp] theorem onClip_serene (n : Nat) (f : Clip → Clip) (s : State) : (onClip n f s).serene = s.serene := by
  simp [onClip]

@[simp] theorem freeClip_serene (n : Nat) (s : State) : (freeClip n s).serene = s.serene := by
  simp [freeClip]

theorem makeRoom_serene (s t : State) (h : makeRoom s = some t) : t.serene = s.serene := by
  simp only [makeRoom] at h
  repeat' split at h
  all_goals simp at h
  all_goals subst h; simp

@[simp] theorem requestLabel_serene (s : State) : (requestLabel s).2.serene = s.serene := by
  simp only [requestLabel]
  split
  · rfl
  · have h := request_serene .labelReply 1 s
    split <;> rename_i h2 <;> rw [h2] at h
    · exact h
    · split <;> simpa using h

@[simp] theorem retryLabels_serene (fuel : Nat) (s : State) : (retryLabels fuel s).serene = s.serene := by
  induction fuel generalizing s with
  | zero => rfl
  | succ k ih =>
    have h := requestLabel_serene s
    simp only [retryLabels]
    split
    · rfl
    · split <;> simp_all

@[simp] theorem closeClip_serene (n : Nat) (e : Pic) (s : State) : (closeClip n e s).serene = s.serene := by
  simp only [closeClip]
  split <;> simp

@[simp] theorem runOut_serene (n : Nat) (s : State) : (runOut n s).serene = s.serene := by
  simp only [runOut]
  repeat' split
  all_goals simp

@[simp] theorem closeIfResolved_serene (n : Nat) (s : State) : (closeIfResolved n s).serene = s.serene := by
  simp only [closeIfResolved]
  repeat' split
  all_goals simp

@[simp] theorem countPostRoll_serene (s : State) : (countPostRoll s).serene = s.serene := by
  simp only [countPostRoll]
  exact foldl_serene _ (fun s a => by split <;> simp) _ _

@[simp] theorem startPostRoll_serene (n : Nat) (s : State) : (startPostRoll n s).serene = s.serene := by
  simp only [startPostRoll]
  split <;> simp

theorem markOut_serene (n : Nat) (s t : State) (h : markOut n s = some t) : t.serene = s.serene := by
  simp only [markOut, Option.bind_eq_some_iff] at h
  obtain ⟨c, -, h⟩ := h
  split at h <;> simp at h <;> subst h <;> simp

@[simp] theorem markIn_serene (source : ClipSource) (cams : Table 4 Bool) (prio : Priority) (text : List Byte) (s : State) : (markIn source cams prio text s).2.serene = s.serene := by
  simp only [markIn]
  split
  · rfl
  · have h := makeRoom_serene s
    split
    · simp
    · rename_i s1 h2
      rw [foldl_serene _ (by simp)]
      simpa using h s1 h2

@[simp] theorem silentMarkOut_serene (n : Nat) (s : State) : (silentMarkOut n s).serene = s.serene := by
  have h := markOut_serene n s
  simp only [silentMarkOut]
  cases h2 : markOut n s with
  | none => rfl
  | some t => exact h t h2

@[simp] theorem anchorStarted_serene (p : Prog) (q : Pic) (s : State) : (anchorStarted p q s).serene = s.serene := by
  simp [anchorStarted]

@[simp] theorem leavesRunning_serene (p : Prog) (s : State) : (leavesRunning p s).serene = s.serene := by
  simp only [leavesRunning]
  exact foldl_serene _ (fun s a => by split <;> simp) _ _

@[simp] theorem labelTaken_serene (n : Nat) (s : State) : (labelTaken n s).serene = s.serene := by
  simp [labelTaken]

@[simp] theorem labelRetired_serene (n : Nat) (s : State) : (labelRetired n s).serene = s.serene := by
  simp only [labelRetired]
  split <;> simp

@[simp] theorem leaveAir_serene (p : Prog) (s : State) : (leaveAir p s).serene = s.serene := by
  simp only [leaveAir]
  split <;> simp

@[simp] theorem enterAir_serene (p : Prog) (s : State) : (enterAir p s).serene = s.serene := by
  simp only [enterAir]
  have h := markIn_serene .tally ((Table.replicate 4 false).set p true) s.clm.tallyPriority [] s
  split <;> rename_i h2 <;> rw [h2] at h <;> simpa using h

@[simp] theorem judgeTally_serene (onAir : Table 4 Bool) (s : State) : (judgeTally onAir s).serene = s.serene := by
  simp only [judgeTally]
  split <;> simp

theorem serene_eq {s t : State} (h : s.serene = t.serene) :
    s.pending = t.pending ∧ s.tbu = t.tbu ∧ s.ports = t.ports ∧ s.cde = t.cde ∧ s.ral = t.ral ∧ s.smx = t.smx ∧
    s.sdp = t.sdp ∧ s.lsu = t.lsu ∧ s.sri = t.sri ∧ s.pgc.formats = t.pgc.formats ∧
    s.pgc.progs.map Programme.unmarked = t.pgc.progs.map Programme.unmarked ∧
    s.cmu.van = t.cmu.van ∧ s.cmu.home = t.cmu.home ∧ s.cmu.authority = t.cmu.authority := by
  simp only [State.serene, Prod.mk.injEq] at h
  tauto

theorem calm_eq {s t : State} (h : s.calm = t.calm) :
    s.pending = t.pending ∧ s.tbu = t.tbu ∧ s.ports = t.ports ∧ s.cde = t.cde ∧ s.ral = t.ral ∧ s.smx = t.smx ∧
    s.sdp = t.sdp ∧ s.clm = t.clm ∧ s.lsu = t.lsu ∧ s.sri = t.sri ∧ s.pgc.formats = t.pgc.formats ∧
    s.pgc.progs.map Programme.unmarked = t.pgc.progs.map Programme.unmarked ∧
    s.cmu.van = t.cmu.van ∧ s.cmu.home = t.cmu.home ∧ s.cmu.authority = t.cmu.authority := by
  simp only [State.calm, Prod.mk.injEq] at h
  tauto

theorem flushPictures_pgc (p : Prog) (s : State) : (flushPictures p s).pgc = s.pgc := by
  simp only [flushPictures, endReservations]
  split <;> rfl

end Sys2Proof.Machine
end

