-- ==== Sys2Proof/Laws/Finish.lean ====
section
/-! SUPPORT. How a command ends: with nothing waiting and no attempt owed `finish` changes nothing; a command that finds its
way free is the owner's work, then its reply. -/

namespace Sys2Proof.Machine

@[simp] theorem mem_four (l : Fin 4) : l ∈ four := by
  fin_cases l <;> decide

theorem noOwed_any {s : State} (h : NoOwed s) : (four.any fun l => (sched s l).owed) = false := by
  simp [List.any_eq_false, h _]

/-- With no attempt owed, none is made. -/
theorem settleTakes_noOwed {s : State} (h : NoOwed s) : settleTakes s = s := by
  simp only [settleTakes, settle, noOwed_any h]
  rfl

theorem serve_empty {s : State} (hv : s.cmu.van = []) (hh : s.cmu.home = []) : serve s = s := by
  simp [serve, hv, hh, serveVan, serveHome]

/-- A command that leaves nothing waiting ends with the take attempts it asks for. -/
theorem finish_empty {s : State} (hv : s.cmu.van = []) (hh : s.cmu.home = []) : finish s = settleTakes s := by
  rw [finish, serve_empty hv hh]

/-- With nothing waiting and no attempt owed, a command ends as its own work left it. -/
theorem finish_quiet {s : State} (h : Quiet s) : finish s = s := by
  rw [finish_empty h.2.1 h.2.2, settleTakes_noOwed h.1]

/-- VAN authority, or authority of both, authorises every command of the ring's control stream. -/
theorem unauthorised_van {a : Authority} (h : a ≠ .home) (i : RingStream) (c : Command) :
    unauthorised a (.van i none) c = false := by
  cases a <;> simp_all [unauthorised, includes, srcOrigin]

/-- The head command of the VAN queue, as it stands while its owner works. -/
def headOf (h : Hdr) (c : Command) : Msg := { hdr := h, kind := commandKind c, body := .command c }

/-- The state in which the owner of a command that found its way free does its work. -/
def atHead (h : Hdr) (c : Command) (s : State) : State := s.onCmu fun q => { q with van := [headOf h c] }

/-- A command that finds its way free: its owner's work, then its reply on the ring, then the take attempts asked for. -/
theorem takeCommand_van {h : Hdr} {i : RingStream} {s : State} (hr : VanReady h i s) {c : Command}
    (hl : listsFit c = true) (hc : c ≠ .reset 2)
    (hh : (perform (headOf h c) c (atHead h c s)).1.cmu.home = []) :
    takeCommand h c s = settleTakes (replyVan (headOf h c) (perform (headOf h c) c (atHead h c s)).2
      (perform (headOf h c) c (atHead h c s)).1) := by
  obtain ⟨⟨hq, hvan, hhome⟩, hsrc, hauth, hroom⟩ := hr
  have hsub : submit { hdr := h, kind := commandKind c, body := bodyOf c } s = atHead h c s := by
    simp [submit, hsrc, joinVan, hvan, Config.commandQueue, atHead, headOf, bodyOf, hl, State.onCmu]
  have hreset : isResetAll (headOf h c) (atHead h c s) = false := by
    simp only [isResetAll, headOf]
    split
    · rename_i h2
      simp only [Body.command.injEq] at h2
      exact absurd h2 hc
    · rfl
  have hans : answer (headOf h c) (atHead h c s) = perform (headOf h c) c (atHead h c s) := by
    have := unauthorised_van (a := (atHead h c s).cmu.authority) (by simpa [atHead] using hauth) i c
    simp only [answer, headOf, hsrc, this] at *
    simp
  rw [takeCommand, hsub, finish]
  have h1 : serveVan (atHead h c s).cmu.van.length (atHead h c s) = dispatchVan (headOf h c) (atHead h c s) := by
    simp [atHead, serveVan, Config.replyCells, Config.ringQueue, hroom]
  have h2 : dispatchVan (headOf h c) (atHead h c s) = replyVan (headOf h c) (perform (headOf h c) c (atHead h c s)).2
      (perform (headOf h c) c (atHead h c s)).1 := by
    simp [dispatchVan, hreset, hans]
  rw [serve, h1, h2]
  simp [replyVan, hh, serveHome]

/-- A command that finds its way free: the owner's state with the reply on the ring, and then the take attempts asked for. -/
theorem takeCommand_settles {h : Hdr} {i : RingStream} {s u : State} (hr : VanReady h i s) {c : Command} {r : Reply}
    (hl : listsFit c = true) (hc : c ≠ .reset 2)
    (hp : perform (headOf h c) c (atHead h c s) = (atHead h c u, r))
    (hv : u.cmu.van = []) (hh : u.cmu.home = []) :
    takeCommand h c s = settleTakes
      { u with sri := ringReply u.sri h i (commandKind c) (byteOf r.status.code) r.results } := by
  rw [takeCommand_van hr hl hc (by rw [hp]; exact hh), hp]
  have e : ({ u.cmu with van := [] } : CommandUnit) = u.cmu := by rw [← hv]
  have hb : r.bytes (headOf h c) = [commandKind c, byteOf r.status.code, byteOf i.val, 0] ++ records 1 r.results := by
    simp [Reply.bytes, headOf, srcStreamByte, hr.2.1]
  simp [replyVan, atHead, State.onSri, State.onCmu, ringReply, hb, e]
  rfl

/-- A command that finds its way free, whose owner asks for no take attempt: the owner's state, with the reply on the ring. -/
theorem takeCommand_done {h : Hdr} {i : RingStream} {s u : State} (hr : VanReady h i s) {c : Command} {r : Reply}
    (hl : listsFit c = true) (hc : c ≠ .reset 2)
    (hp : perform (headOf h c) c (atHead h c s) = (atHead h c u, r))
    (ho : NoOwed u) (hv : u.cmu.van = []) (hh : u.cmu.home = []) :
    takeCommand h c s =
      { u with sri := ringReply u.sri h i (commandKind c) (byteOf r.status.code) r.results } := by
  rw [takeCommand_settles hr hl hc hp hv hh]
  exact settleTakes_noOwed ho

end Sys2Proof.Machine
end

