-- ==== Sys2Proof/Laws/Fixed.lean ====
section
/-! SUPPORT. The part of the state that only the Timebase Unit's own events, INPUT-MAP and the resets change: the waiting
commands, the Timebase Unit, the acceptance table and the output stream. One lemma for each operation that keeps it. -/

namespace Sys2Proof.Machine

/-- The waiting commands, the Timebase Unit, the acceptance table and the output stream. -/
def State.fixed (s : State) : List Instr × Timebase × Table 256 Dest × RingStream :=
  (s.pending, s.tbu, s.sri.table, s.sri.output)

@[simp] theorem foldl_fixed {α : Type} (f : State → α → State) (h : ∀ s a, (f s a).fixed = s.fixed) (l : List α)
    (s : State) : (l.foldl f s).fixed = s.fixed := by
  induction l generalizing s with
  | nil => rfl
  | cons a l ih => simp [ih, h]

@[simp] theorem State.onPort_fixed (p : Prog) (f : Port → Port) (s : State) : (s.onPort p f).fixed = s.fixed := rfl
@[simp] theorem State.onPgc_fixed (f : Controller → Controller) (s : State) : (s.onPgc f).fixed = s.fixed := rfl
@[simp] theorem State.onProg_fixed (p : Prog) (f : Programme → Programme) (s : State) : (s.onProg p f).fixed = s.fixed := rfl
@[simp] theorem State.onCde_fixed (f : Engine → Engine) (s : State) : (s.onCde f).fixed = s.fixed := rfl
@[simp] theorem State.onLoop_fixed (p : Prog) (f : CodingLoop → CodingLoop) (s : State) : (s.onLoop p f).fixed = s.fixed := rfl
@[simp] theorem State.setEntry_fixed (p : Prog) (e : Option Entry) (s : State) : (s.setEntry p e).fixed = s.fixed := rfl
@[simp] theorem State.setBand_fixed (b : Option Band) (s : State) : (s.setBand b).fixed = s.fixed := rfl
@[simp] theorem State.onRal_fixed (f : Allocator → Allocator) (s : State) : (s.onRal f).fixed = s.fixed := rfl
@[simp] theorem State.onRate_fixed (p : Prog) (f : RateProg → RateProg) (s : State) : (s.onRate p f).fixed = s.fixed := rfl
@[simp] theorem State.onSmx_fixed (f : Mixer → Mixer) (s : State) : (s.onSmx f).fixed = s.fixed := rfl
@[simp] theorem State.onTrigger_fixed (t : Fin 4) (f : Trigger → Trigger) (s : State) : (s.onTrigger t f).fixed = s.fixed := rfl
@[simp] theorem State.onInput_fixed (k : Fin 32) (f : Input → Input) (s : State) : (s.onInput k f).fixed = s.fixed := rfl
@[simp] theorem State.onCross_fixed (k : Fin 32) (b : Fin 8) (f : CrossPoint → CrossPoint) (s : State) : (s.onCross k b f).fixed = s.fixed := rfl
@[simp] theorem State.onBus_fixed (b : Fin 8) (f : Bus → Bus) (s : State) : (s.onBus b f).fixed = s.fixed := rfl
@[simp] theorem State.onStream_fixed (i : Fin 4) (f : SoundStream → SoundStream) (s : State) : (s.onStream i f).fixed = s.fixed := rfl
@[simp] theorem State.onClm_fixed (f : ClipMarker → ClipMarker) (s : State) : (s.onClm f).fixed = s.fixed := rfl
@[simp] theorem State.onPool_fixed (f : Pool → Pool) (s : State) : (s.onPool f).fixed = s.fixed := rfl
@[simp] theorem State.onHsc_fixed (f : Scheduler → Scheduler) (s : State) : (s.onHsc f).fixed = s.fixed := rfl
@[simp] theorem State.onSched_fixed (l : Link) (f : LinkSched → LinkSched) (s : State) : (s.onSched l f).fixed = s.fixed := rfl
@[simp] theorem State.onLink_fixed (l : Link) (f : LinkRecord → LinkRecord) (s : State) : (s.onLink l f).fixed = s.fixed := rfl
@[simp] theorem State.onCmu_fixed (f : CommandUnit → CommandUnit) (s : State) : (s.onCmu f).fixed = s.fixed := rfl

@[simp] theorem State.onSri_fixed (f : Ring → Ring) (s : State) (h1 : (f s.sri).table = s.sri.table)
    (h2 : (f s.sri).output = s.sri.output) : (s.onSri f).fixed = s.fixed := by
  simp [State.fixed, h1, h2]

@[simp] theorem State.withPool_fixed (s : State) (k : Pool) : ({ s with pkp := k } : State).fixed = s.fixed := rfl


@[simp] theorem refreshCause_fixed (p : Prog) (s : State) : (refreshCause p s).fixed = s.fixed := by
  simp [refreshCause]

@[simp] theorem oweTake_fixed (l : Link) (s : State) : (oweTake l s).fixed = s.fixed := by
  simp [oweTake]

@[simp] theorem oweAll_fixed (s : State) : (oweAll s).fixed = s.fixed := by
  simp [oweAll]

@[simp] theorem appendPackets_fixed (c : QueueClass) (ps : List Packet) (s : State) : (appendPackets c ps s).fixed = s.fixed := by
  simp [appendPackets]

@[simp] theorem reroute_fixed (ps : List Packet) (s : State) : (reroute ps s).fixed = s.fixed := by
  simp [reroute]

@[simp] theorem endReservations_fixed (gone : List Packet) (s : State) : (endReservations gone s).fixed = s.fixed := by
  simp only [endReservations]
  split <;> simp

@[simp] theorem flushPictures_fixed (p : Prog) (s : State) : (flushPictures p s).fixed = s.fixed := by
  simp [flushPictures]

@[simp] theorem bumpFlag_fixed (f : EventFlag) (s : State) : (bumpFlag f s).fixed = s.fixed := by
  simp [bumpFlag]

theorem sendHomeNotice_fixed (raise : EventFlag → State → State) (h : ∀ f s, (raise f s).fixed = s.fixed) (s : State) :
    (sendHomeNotice raise s).2.fixed = s.fixed := by
  simp only [sendHomeNotice]
  split
  · rfl
  · split
    · exact appendPackets_fixed ..
    · rw [h]; rfl

theorem homeCopy_fixed (raise : EventFlag → State → State) (h : ∀ f s, (raise f s).fixed = s.fixed) (n : Notice)
    (s : State) : (homeCopy raise n s).fixed = s.fixed := by
  simp only [homeCopy]
  repeat' split
  all_goals simp [h, sendHomeNotice_fixed raise h]

theorem queueNoticeWith_fixed (raise : EventFlag → State → State) (h : ∀ f s, (raise f s).fixed = s.fixed) (n : Notice)
    (s : State) : (queueNoticeWith raise n s).fixed = s.fixed := by
  simp only [queueNoticeWith]
  repeat' split
  all_goals simp [h, homeCopy_fixed raise h]

@[simp] theorem raiseWithin_fixed (k : Nat) (f : EventFlag) (s : State) : (raiseWithin k f s).fixed = s.fixed := by
  induction k generalizing f s with
  | zero => simp only [raiseWithin, bumpFlag_fixed]
  | succ k ih =>
    simp only [raiseWithin]
    split
    · exact bumpFlag_fixed ..
    · exact (queueNoticeWith_fixed _ ih _ _).trans (bumpFlag_fixed ..)

@[simp] theorem raiseFlag_fixed (f : EventFlag) (s : State) : (raiseFlag f s).fixed = s.fixed := by
  simp [raiseFlag]

@[simp] theorem queueNotice_fixed (body : NoticeBody) (answers : Option OpenCommand) (s : State) : (queueNotice body answers s).fixed = s.fixed := by
  exact queueNoticeWith_fixed _ (by simp) ..

@[simp] theorem sendHomeNotices_fixed (fuel : Nat) (s : State) : (sendHomeNotices fuel s).fixed = s.fixed := by
  induction fuel generalizing s with
  | zero => rfl
  | succ k ih =>
    have h := sendHomeNotice_fixed raiseFlag (by simp) s
    simp only [sendHomeNotices]
    split <;> simp_all

@[simp] theorem clearFlag_fixed (f : Fin 19) (s : State) : (clearFlag f s).fixed = s.fixed := by
  simp [clearFlag]

@[simp] theorem request_fixed (o : Owner) (n : Nat) (s : State) : (request o n s).2.fixed = s.fixed := by
  simp only [request]
  split <;> simp

@[simp] theorem releaseBlocks_fixed (o : Owner) (blocks : List Nat) (s : State) : (releaseBlocks o blocks s).fixed = s.fixed := by
  simp [releaseBlocks]

@[simp] theorem onClip_fixed (n : Nat) (f : Clip → Clip) (s : State) : (onClip n f s).fixed = s.fixed := by
  simp [onClip]

@[simp] theorem freeClip_fixed (n : Nat) (s : State) : (freeClip n s).fixed = s.fixed := by
  simp [freeClip]

theorem makeRoom_fixed (s t : State) (h : makeRoom s = some t) : t.fixed = s.fixed := by
  simp only [makeRoom] at h
  repeat' split at h
  all_goals simp at h
  all_goals subst h; simp

@[simp] theorem requestLabel_fixed (s : State) : (requestLabel s).2.fixed = s.fixed := by
  simp only [requestLabel]
  split
  · rfl
  · have h := request_fixed .labelReply 1 s
    split <;> rename_i h2 <;> rw [h2] at h
    · exact h
    · split <;> simpa using h

@[simp] theorem retryLabels_fixed (fuel : Nat) (s : State) : (retryLabels fuel s).fixed = s.fixed := by
  induction fuel generalizing s with
  | zero => rfl
  | succ k ih =>
    have h := requestLabel_fixed s
    simp only [retryLabels]
    split
    · rfl
    · split <;> simp_all

@[simp] theorem closeClip_fixed (n : Nat) (e : Pic) (s : State) : (closeClip n e s).fixed = s.fixed := by
  simp only [closeClip]
  split <;> simp

@[simp] theorem runOut_fixed (n : Nat) (s : State) : (runOut n s).fixed = s.fixed := by
  simp only [runOut]
  repeat' split
  all_goals simp

@[simp] theorem closeIfResolved_fixed (n : Nat) (s : State) : (closeIfResolved n s).fixed = s.fixed := by
  simp only [closeIfResolved]
  repeat' split
  all_goals simp

@[simp] theorem countPostRoll_fixed (s : State) : (countPostRoll s).fixed = s.fixed := by
  simp only [countPostRoll]
  exact foldl_fixed _ (fun s a => by split <;> simp) _ _

@[simp] theorem startPostRoll_fixed (n : Nat) (s : State) : (startPostRoll n s).fixed = s.fixed := by
  simp only [startPostRoll]
  split <;> simp

theorem markOut_fixed (n : Nat) (s t : State) (h : markOut n s = some t) : t.fixed = s.fixed := by
  simp only [markOut, Option.bind_eq_some_iff] at h
  obtain ⟨c, -, h⟩ := h
  split at h <;> simp at h <;> subst h <;> simp

@[simp] theorem markIn_fixed (source : ClipSource) (cams : Table 4 Bool) (prio : Priority) (text : List Byte) (s : State) : (markIn source cams prio text s).2.fixed = s.fixed := by
  simp only [markIn]
  split
  · rfl
  · have h := makeRoom_fixed s
    split
    · simp
    · rename_i s1 h2
      rw [foldl_fixed _ (by simp)]
      simpa using h s1 h2

@[simp] theorem silentMarkOut_fixed (n : Nat) (s : State) : (silentMarkOut n s).fixed = s.fixed := by
  have h := markOut_fixed n s
  simp only [silentMarkOut]
  cases h2 : markOut n s with
  | none => rfl
  | some t => exact h t h2

@[simp] theorem anchorStarted_fixed (p : Prog) (q : Pic) (s : State) : (anchorStarted p q s).fixed = s.fixed := by
  simp [anchorStarted]

@[simp] theorem leavesRunning_fixed (p : Prog) (s : State) : (leavesRunning p s).fixed = s.fixed := by
  simp only [leavesRunning]
  exact foldl_fixed _ (fun s a => by split <;> simp) _ _

@[simp] theorem labelTaken_fixed (n : Nat) (s : State) : (labelTaken n s).fixed = s.fixed := by
  simp [labelTaken]

@[simp] theorem labelRetired_fixed (n : Nat) (s : State) : (labelRetired n s).fixed = s.fixed := by
  simp only [labelRetired]
  split <;> simp

@[simp] theorem leaveAir_fixed (p : Prog) (s : State) : (leaveAir p s).fixed = s.fixed := by
  simp only [leaveAir]
  split <;> simp

@[simp] theorem enterAir_fixed (p : Prog) (s : State) : (enterAir p s).fixed = s.fixed := by
  simp only [enterAir]
  have h := markIn_fixed .tally ((Table.replicate 4 false).set p true) s.clm.tallyPriority [] s
  split <;> rename_i h2 <;> rw [h2] at h <;> simpa using h

@[simp] theorem judgeTally_fixed (onAir : Table 4 Bool) (s : State) : (judgeTally onAir s).fixed = s.fixed := by
  simp only [judgeTally]
  split <;> simp

@[simp] theorem markInFor_fixed (desk : Option (Fin 8)) (source : ClipSource) (cams : Table 4 Bool) (prio : Priority)
    (text : List Byte) (s : State) : (markInFor desk source cams prio text s).1.fixed = s.fixed := by
  simp only [markInFor]
  have h := markIn_fixed source cams prio text s
  split <;> rename_i h2 <;> rw [h2] at h
  · exact h
  · split <;> simpa using h

@[simp] theorem clipMarkIn_fixed (src : Src) (f : MarkFields) (s : State) : (clipMarkIn src f s).1.fixed = s.fixed := by
  simp only [clipMarkIn]
  repeat' split
  all_goals simp

theorem markRecord_fixed {src : Src} {f : MarkFields} {act : Clip → Option (State × Reply)} {s : State}
    (h : ∀ c r, act c = some r → r.1.fixed = s.fixed) : (markRecord src f act s).1.fixed = s.fixed := by
  simp only [markRecord]
  split
  · split
    · rfl
    · rename_i h2
      split
      · exact h _ _ h2
      · rfl
  · rfl

@[simp] theorem clipMarkOut_fixed (src : Src) (f : MarkFields) (s : State) : (clipMarkOut src f s).1.fixed = s.fixed := by
  refine markRecord_fixed fun c r h => ?_
  obtain ⟨s1, h1, rfl⟩ := Option.map_eq_some_iff.mp h
  exact markOut_fixed _ s _ h1

@[simp] theorem clipMarkExtend_fixed (src : Src) (f : MarkFields) (s : State) : (clipMarkExtend src f s).1.fixed = s.fixed := by
  refine markRecord_fixed fun c r h => ?_
  split at h <;> simp only [Option.some.injEq, reduceCtorEq] at h <;> subst h <;> simp

@[simp] theorem clipMarkCancel_fixed (src : Src) (f : MarkFields) (s : State) : (clipMarkCancel src f s).1.fixed = s.fixed := by
  refine markRecord_fixed fun c r h => ?_
  split at h <;> simp only [Option.some.injEq, reduceCtorEq] at h <;> subst h <;> simp

@[simp] theorem clipMark_fixed (src : Src) (action : Nat) (f : MarkFields) (s : State) : (clipMark src action f s).1.fixed = s.fixed := by
  simp only [clipMark]
  split <;> simp

@[simp] theorem clipLabel_fixed (src : Src) (ref : ClipRef) (text : Option (List Byte)) (s : State) : (clipLabel src ref text s).1.fixed = s.fixed := by
  simp only [clipLabel]
  repeat' split
  all_goals simp

@[simp] theorem clipQuery_fixed (src : Src) (ref : ClipRef) (s : State) : (clipQuery src ref s).1.fixed = s.fixed := by
  simp only [clipQuery]
  repeat' split
  all_goals simp

@[simp] theorem clipSettings_fixed (f : ClipSettingsFields) (s : State) : (clipSettings f s).1.fixed = s.fixed := by
  simp only [clipSettings]
  split <;> simp

@[simp] theorem retarget_fixed (i : Fin 4) (s : State) : (retarget i s).fixed = s.fixed := by
  simp [retarget]

@[simp] theorem retargetWhere_fixed (which : SoundStream → Bool) (s : State) : (retargetWhere which s).fixed = s.fixed := by
  simp [retargetWhere]

@[simp] theorem streamArrival_fixed (i : Fin 4) (m : BlockNo) (left right : SoundBlock) (s : State) : (streamArrival i m left right s).fixed = s.fixed := by
  simp only [streamArrival]
  split
  · split <;> rename_i h2 <;> have h := congrArg (fun r => r.2.fixed) h2 <;> simp at h <;> simp [← h]
  · repeat' split
    all_goals simp

@[simp] theorem streamsArrival_fixed (m : BlockNo) (blocks : Table 8 SoundBlock) (s : State) : (streamsArrival m blocks s).fixed = s.fixed := by
  simp only [streamsArrival]
  exact foldl_fixed _ (fun s a => by split <;> simp) _ _

@[simp] theorem disableStream_fixed (i : Fin 4) (s : State) : (disableStream i s).fixed = s.fixed := by
  simp [disableStream]

@[simp] theorem enableStream_fixed (i : Fin 4) (s : State) : (enableStream i s).fixed = s.fixed := by
  simp [enableStream]

@[simp] theorem soundStreamSet_fixed (f : StreamFields) (s : State) : (soundStreamSet f s).1.fixed = s.fixed := by
  simp only [soundStreamSet]
  repeat' split
  all_goals simp

@[simp] theorem creditBlock_fixed (s : State) : (creditBlock s).fixed = s.fixed := by
  simp [creditBlock]

@[simp] theorem setReservation_fixed (l : Link) (r : Option Reservation) (s : State) : (setReservation l r s).fixed = s.fixed := by
  simp only [setReservation]
  split <;> simp

@[simp] theorem dropLate_fixed (l : Link) (c : QueueClass) (p : Packet) (rest : List Packet) (s : State) : (dropLate l c p rest s).fixed = s.fixed := by
  simp only [dropLate]
  repeat' split
  all_goals simp

@[simp] theorem takePacket_fixed (l : Link) (c : QueueClass) (p : Packet) (rest : List Packet) (s : State) : (takePacket l c p rest s).fixed = s.fixed := by
  simp [takePacket]

@[simp] theorem attempt_fixed (fuel : Nat) (l : Link) (s : State) : (attempt fuel l s).fixed = s.fixed := by
  induction fuel generalizing s with
  | zero => rfl
  | succ k ih =>
    simp only [attempt]
    repeat' split
    all_goals simp_all

@[simp] theorem attemptOwed_fixed (l : Link) (s : State) : (attemptOwed l s).fixed = s.fixed := by
  simp only [attemptOwed]
  split <;> simp

@[simp] theorem settle_fixed (fuel : Nat) (s : State) : (settle fuel s).fixed = s.fixed := by
  induction fuel generalizing s with
  | zero => simp [settle]
  | succ k ih =>
    simp only [settle]
    split <;> simp_all

@[simp] theorem settleTakes_fixed (s : State) : (settleTakes s).fixed = s.fixed := by
  simp [settleTakes]

@[simp] theorem offerProbe_fixed (l : Link) (ordinal : Nat) (s : State) : (offerProbe l ordinal s).fixed = s.fixed := by
  simp [offerProbe]

@[simp] theorem withdraw_fixed (l : Link) (s : State) : (withdraw l s).fixed = s.fixed := by
  simp only [withdraw]
  split <;> simp

@[simp] theorem newEpoch_fixed (l : Link) (s : State) : (newEpoch l s).fixed = s.fixed := by
  simp [newEpoch]

@[simp] theorem holdLink_fixed (l : Link) (c : FaultClass) (retry : Bool) (s : State) : (holdLink l c retry s).fixed = s.fixed := by
  simp only [holdLink]
  split <;> simp

@[simp] theorem degradeLink_fixed (l : Link) (c : FaultClass) (s : State) : (degradeLink l c s).fixed = s.fixed := by
  simp only [degradeLink]
  split <;> simp

@[simp] theorem applyFault_fixed (l : Link) (c : FaultClass) (code : Byte) (s : State) : (applyFault l c code s).fixed = s.fixed := by
  simp only [applyFault]
  repeat' split
  all_goals simp

@[simp] theorem giveProbe_fixed (l : Link) (s : State) : (giveProbe l s).fixed = s.fixed := by
  simp only [giveProbe]
  split <;> simp

@[simp] theorem enterProving_fixed (l : Link) (cmd : Option OpenCommand) (s : State) : (enterProving l cmd s).fixed = s.fixed := by
  simp [enterProving]

@[simp] theorem enterUp_fixed (l : Link) (s : State) : (enterUp l s).fixed = s.fixed := by
  simp only [enterUp]
  repeat' split
  all_goals simp

@[simp] theorem judgeProving_fixed (l : Link) (s : State) : (judgeProving l s).fixed = s.fixed := by
  simp only [judgeProving]
  repeat' split
  all_goals simp

@[simp] theorem probeRetired_fixed (l : Link) (s : State) : (probeRetired l s).fixed = s.fixed := by
  simp only [probeRetired]
  split <;> simp

@[simp] theorem buildProbe_fixed (l : Link) (s : State) : (buildProbe l s).fixed = s.fixed := by
  simp [buildProbe]

@[simp] theorem failProving_fixed (l : Link) (s : State) : (failProving l s).fixed = s.fixed := by
  simp only [failProving]
  split <;> simp

@[simp] theorem returnToUp_fixed (l : Link) (s : State) : (returnToUp l s).fixed = s.fixed := by
  simp [returnToUp]

@[simp] theorem expireRecovery_fixed (l : Link) (s : State) : (expireRecovery l s).fixed = s.fixed := by
  simp only [expireRecovery]
  split <;> simp

@[simp] theorem endWindow_fixed (l : Link) (s : State) : (endWindow l s).fixed = s.fixed := by
  simp only [endWindow]
  repeat' split
  all_goals simp

@[simp] theorem timeOutOldest_fixed (l : Link) (s : State) : (timeOutOldest l s).fixed = s.fixed := by
  simp only [timeOutOldest]
  split <;> simp

@[simp] theorem takeCapacity_fixed (l : Link) (cap : Nat) (s : State) : (takeCapacity l cap s).fixed = s.fixed := by
  simp only [takeCapacity]
  split <;> simp

@[simp] theorem takeFaultReport_fixed (l : Link) (code : Byte) (s : State) : (takeFaultReport l code s).fixed = s.fixed := by
  simp only [takeFaultReport]
  repeat' split
  all_goals simp

@[simp] theorem setCaps_fixed (caps : Table 6 (Option Nat)) (s : State) : (setCaps caps s).fixed = s.fixed := by
  simp [setCaps]

@[simp] theorem applySettings_fixed (l : Link) (t : LinkSettings) (s : State) : (applySettings l t s).fixed = s.fixed := by
  simp only [applySettings]
  repeat' split
  all_goals simp

@[simp] theorem linkSet_fixed (f : LinkFields) (s : State) : (linkSet f s).1.fixed = s.fixed := by
  simp only [linkSet]
  repeat' split
  all_goals simp

@[simp] theorem linkUp_fixed (m : Hdr) (n : Option Nat) (s : State) : (linkUp m n s).1.fixed = s.fixed := by
  simp only [linkUp]
  repeat' split
  all_goals simp

@[simp] theorem takeDown_fixed (l : Link) (s : State) : (takeDown l s).fixed = s.fixed := by
  simp only [takeDown]
  repeat' split
  all_goals simp

@[simp] theorem linkDown_fixed (n : Option Nat) (s : State) : (linkDown n s).1.fixed = s.fixed := by
  simp only [linkDown]
  split <;> simp

@[simp] theorem linkClear_fixed (m : Hdr) (n : Option Nat) (s : State) : (linkClear m n s).1.fixed = s.fixed := by
  simp only [linkClear]
  repeat' split
  all_goals simp

@[simp] theorem copyRecords_fixed (s : State) : (copyRecords s).fixed = s.fixed := by
  simp [copyRecords]

@[simp] theorem decideMethod_fixed (p : Prog) (m : Method) (s : State) : (decideMethod p m s).fixed = s.fixed := by
  simp [decideMethod]

@[simp] theorem allocateProg_fixed (figures : AllocFigures) (ticks : Nat) (p : Prog) (s : State) : (allocateProg figures ticks p s).fixed = s.fixed := by
  simp only [allocateProg]
  repeat' split
  all_goals simp

@[simp] theorem allocation_fixed (ticks : Nat) (s : State) : (allocation ticks s).fixed = s.fixed := by
  simp only [allocation]
  split <;> simp

@[simp] theorem rateRunning_fixed (p : Prog) (s : State) : (rateRunning p s).fixed = s.fixed := by
  simp [rateRunning]

@[simp] theorem pictureReported_fixed (p : Prog) (bits : Nat) (s : State) : (pictureReported p bits s).fixed = s.fixed := by
  simp only [pictureReported]
  split <;> simp

@[simp] theorem setPoolFields_fixed (f : RateFields) (s : State) : (setPoolFields f s).fixed = s.fixed := by
  simp [setPoolFields]

@[simp] theorem rateSet_fixed (f : RateFields) (s : State) : (rateSet f s).1.fixed = s.fixed := by
  simp only [rateSet]
  repeat' split
  all_goals simp

@[simp] theorem endStop_fixed (p : Prog) (mode : StopMode) (pic : Pic) (s : State) : (endStop p mode pic s).fixed = s.fixed := by
  simp only [endStop]
  split <;> simp

@[simp] theorem completePicture_fixed (p : Prog) (e : Entry) (s : State) : (completePicture p e s).fixed = s.fixed := by
  simp only [completePicture]
  split <;> simp

@[simp] theorem emitHeader_fixed (p : Prog) (pic : Pic) (tick : Tick) (band : Nat) (header : List Byte) (s : State) : (emitHeader p pic tick band header s).fixed = s.fixed := by
  simp only [emitHeader]
  have h := request_fixed (.prog p) 1 s
  split <;> rename_i h2 <;> rw [h2] at h <;> simpa using h

@[simp] theorem countGroup_fixed (p : Prog) (s : State) : (countGroup p s).fixed = s.fixed := by
  simp [countGroup]

@[simp] theorem emitSkip_fixed (p : Prog) (c : CodeStart) (s : State) : (emitSkip p c s).fixed = s.fixed := by
  simp [emitSkip]

@[simp] theorem startBand_fixed (s : State) : (startBand s).fixed = s.fixed := by
  simp only [startBand]
  repeat' split
  all_goals simp

@[simp] theorem loseBand_fixed (b : Band) (s : State) : (loseBand b s).fixed = s.fixed := by
  simp [loseBand]

@[simp] theorem closeFragment_fixed (blocks : Nat) (s : State) : (closeFragment blocks s).fixed = s.fixed := by
  simp only [closeFragment]
  split
  · rfl
  · rename_i b _
    split
    · rfl
    · split
      · simp
      · have h := request_fixed (.prog b.prog) blocks s
        split <;> rename_i h2 <;> rw [h2] at h <;> simpa using h

@[simp] theorem shedPicture_fixed (p : Prog) (e : Entry) (s : State) : (shedPicture p e s).fixed = s.fixed := by
  simp only [shedPicture]
  split <;> simp

@[simp] theorem discardBand_fixed (b : Band) (s : State) : (discardBand b s).fixed = s.fixed := by
  simp [discardBand]

@[simp] theorem completeBand_fixed (b : Band) (e : Entry) (coded : List Byte) (s : State) : (completeBand b e coded s).fixed = s.fixed := by
  simp only [completeBand]
  repeat' split
  all_goals simp

@[simp] theorem bandEnds_fixed (coded : List Byte) (s : State) : (bandEnds coded s).fixed = s.fixed := by
  simp only [bandEnds]
  repeat' split
  all_goals simp

@[simp] theorem markDiscard_fixed (p : Prog) (s : State) : (markDiscard p s).fixed = s.fixed := by
  simp [markDiscard]

@[simp] theorem overrun_fixed (p : Prog) (s : State) : (overrun p s).fixed = s.fixed := by
  simp only [overrun]
  split <;> simp

@[simp] theorem dropPicture_fixed (p : Prog) (s : State) : (dropPicture p s).fixed = s.fixed := by
  simp only [dropPicture]
  split <;> simp

@[simp] theorem takeFrom_fixed (counts : Bool) (p : Prog) (s : State) : (takeFrom counts p s).fixed = s.fixed := by
  simp only [takeFrom]
  split <;> simp

@[simp] theorem takePicture_fixed (p : Prog) (wasRunning : Bool) (s : State) : (takePicture p wasRunning s).2.fixed = s.fixed := by
  simp only [takePicture]
  split <;> simp

@[simp] theorem judgeInput_fixed (p : Prog) (taken : Bool) (s : State) : (judgeInput p taken s).fixed = s.fixed := by
  simp only [judgeInput]
  repeat' split
  all_goals simp

@[simp] theorem beginPicture_fixed (p : Prog) (type : PicType) (target : Nat) (c : CodeStart) (s : State) : (beginPicture p type target c s).fixed = s.fixed := by
  simp only [beginPicture]
  split <;> simp

@[simp] theorem decidePicture_fixed (p : Prog) (taken : Bool) (c : CodeStart) (s : State) : (decidePicture p taken c s).fixed = s.fixed := by
  simp only [decidePicture]
  repeat' split
  all_goals simp

@[simp] theorem becomeRunning_fixed (p : Prog) (s : State) : (becomeRunning p s).fixed = s.fixed := by
  simp [becomeRunning]

@[simp] theorem codeProgramme_fixed (c : CodeStart) (p : Prog) (s : State) : (codeProgramme c p s).fixed = s.fixed := by
  simp only [codeProgramme]
  repeat' split
  all_goals simp

@[simp] theorem freezeHold_fixed (c : CodeStart) (p : Prog) (s : State) : (freezeHold c p s).fixed = s.fixed := by
  simp only [freezeHold]
  repeat' split
  all_goals simp

@[simp] theorem takeCodeStart_fixed (c : CodeStart) (s : State) : (takeCodeStart c s).fixed = s.fixed := by
  simp [takeCodeStart]

@[simp] theorem pictureStarts_fixed (p : Prog) (s : State) : (pictureStarts p s).fixed = s.fixed := by
  simp [pictureStarts]

@[simp] theorem pictureBreaks_fixed (p : Prog) (s : State) : (pictureBreaks p s).fixed = s.fixed := by
  simp [pictureBreaks]

@[simp] theorem returnInput_fixed (p : Prog) (s : State) : (returnInput p s).fixed = s.fixed := by
  simp only [returnInput]
  split <;> simp

@[simp] theorem pictureCompletes_fixed (p : Prog) (s : State) : (pictureCompletes p s).fixed = s.fixed := by
  simp only [pictureCompletes]
  split <;> simp

@[simp] theorem firstAllocated_fixed (s : State) : (firstAllocated s).fixed = s.fixed := by
  simp [firstAllocated]

@[simp] theorem formatSet_fixed (f : FormatFields) (s : State) : (formatSet f s).1.fixed = s.fixed := by
  simp only [formatSet]
  repeat' split
  all_goals simp

@[simp] theorem storeConfig_fixed (p : Prog) (g : ProgConfig) (s : State) : (storeConfig p g s).fixed = s.fixed := by
  simp only [storeConfig]
  repeat' split
  all_goals simp

@[simp] theorem formPair_fixed (p : Prog) (s : State) : (formPair p s).fixed = s.fixed := by
  simp [formPair]

@[simp] theorem dissolvePair_fixed (p : Prog) (s : State) : (dissolvePair p s).fixed = s.fixed := by
  simp [dissolvePair]

@[simp] theorem programmeSet_fixed (f : ProgFields) (s : State) : (programmeSet f s).1.fixed = s.fixed := by
  simp only [programmeSet]
  repeat' split
  all_goals simp

@[simp] theorem startProgramme_fixed (m : Hdr) (p : Prog) (s : State) : (startProgramme m p s).fixed = s.fixed := by
  simp [startProgramme]

@[simp] theorem programmeStart_fixed (m : Hdr) (n : Option Nat) (s : State) : (programmeStart m n s).1.fixed = s.fixed := by
  simp only [programmeStart]
  repeat' split
  all_goals simp

@[simp] theorem tellLeaves_fixed (was : ProgState) (p : Prog) (s : State) : (tellLeaves was p s).fixed = s.fixed := by
  simp only [tellLeaves]
  split <;> simp

@[simp] theorem cutProgramme_fixed (p : Prog) (flush : Bool) (s : State) : (cutProgramme p flush s).fixed = s.fixed := by
  simp only [cutProgramme]
  split <;> simp

@[simp] theorem programmeCut_fixed (n : Option Nat) (flush : Bool) (s : State) : (programmeCut n flush s).1.fixed = s.fixed := by
  simp only [programmeCut]
  repeat' split
  all_goals simp

@[simp] theorem finishRunning_fixed (m : Hdr) (p : Prog) (s : State) : (finishRunning m p s).1.fixed = s.fixed := by
  simp only [finishRunning]
  split <;> simp

theorem gentleStop_fixed (n : Option Nat) (flush : Bool) (run : Prog → State → State × Reply)
    (h : ∀ p s, (run p s).1.fixed = s.fixed) (s : State) : (gentleStop n flush run s).1.fixed = s.fixed := by
  simp only [gentleStop]
  repeat' split
  all_goals simp [h]

@[simp] theorem programmeFinish_fixed (m : Hdr) (n : Option Nat) (flush : Bool) (s : State) : (programmeFinish m n flush s).1.fixed = s.fixed := by
  exact gentleStop_fixed _ _ _ (by simp) _

@[simp] theorem freezeRunning_fixed (m : Hdr) (p : Prog) (s : State) : (freezeRunning m p s).1.fixed = s.fixed := by
  simp [freezeRunning]

@[simp] theorem programmeFreeze_fixed (m : Hdr) (n : Option Nat) (flush : Bool) (s : State) : (programmeFreeze m n flush s).1.fixed = s.fixed := by
  exact gentleStop_fixed _ _ _ (by simp) _

@[simp] theorem programmeStop_fixed (m : Hdr) (n : Option Nat) (mode : Nat) (flush : Bool) (s : State) : (programmeStop m n mode flush s).1.fixed = s.fixed := by
  simp only [programmeStop]
  repeat' split
  all_goals simp

@[simp] theorem refreshCommand_fixed (n : Option Nat) (s : State) : (refreshCommand n s).1.fixed = s.fixed := by
  simp only [refreshCommand]
  split <;> simp

@[simp] theorem homeRefresh_fixed (p : Prog) (s : State) : (homeRefresh p s).fixed = s.fixed := by
  simp only [homeRefresh]
  split <;> simp

@[simp] theorem soundArrival_fixed (k : Fin 32) (c : BlockNo) (samples : SoundBlock) (s : State) : (soundArrival k c samples s).fixed = s.fixed := by
  simp only [soundArrival]
  repeat' split
  all_goals simp

@[simp] theorem recompute_fixed (k : Fin 32) (s : State) : (recompute k s).fixed = s.fixed := by
  simp [recompute]

@[simp] theorem triggerMarkIn_fixed (i : Fin 4) (s : State) : (triggerMarkIn i s).fixed = s.fixed := by
  simp only [triggerMarkIn]
  split <;> simp

@[simp] theorem triggerMarkOut_fixed (i : Fin 4) (s : State) : (triggerMarkOut i s).fixed = s.fixed := by
  simp only [triggerMarkOut]
  split <;> simp

@[simp] theorem triggerOpens_fixed (i : Fin 4) (s : State) : (triggerOpens i s).fixed = s.fixed := by
  simp [triggerOpens]

@[simp] theorem triggerReleases_fixed (i : Fin 4) (s : State) : (triggerReleases i s).fixed = s.fixed := by
  simp [triggerReleases]

@[simp] theorem armTrigger_fixed (i : Fin 4) (run : Nat) (s : State) : (armTrigger i run s).fixed = s.fixed := by
  simp only [armTrigger]
  split <;> simp

@[simp] theorem releaseTrigger_fixed (i : Fin 4) (run : Nat) (s : State) : (releaseTrigger i run s).fixed = s.fixed := by
  simp only [releaseTrigger]
  split <;> simp

@[simp] theorem stepTrigger_fixed (i : Fin 4) (s : State) : (stepTrigger i s).fixed = s.fixed := by
  simp only [stepTrigger]
  repeat' split
  all_goals simp

@[simp] theorem takeAnswer_fixed (i : Fin 4) (clip : Option Nat) (s : State) : (takeAnswer i clip s).fixed = s.fixed := by
  simp only [takeAnswer]
  repeat' split
  all_goals simp

@[simp] theorem answerTrigger_fixed (i : Fin 4) (s : State) : (answerTrigger i s).fixed = s.fixed := by
  simp only [answerTrigger]
  split <;> simp

@[simp] theorem mixBlock_fixed (n : BlockNo) (s : State) : (mixBlock n s).2.fixed = s.fixed := by
  simp [mixBlock]

@[simp] theorem skipTo_fixed (n : BlockNo) (s : State) : (skipTo n s).fixed = s.fixed := by
  simp [skipTo]

@[simp] theorem mixEvent_fixed (m : BlockNo) (s : State) : (mixEvent m s).2.fixed = s.fixed := by
  simp only [mixEvent]
  repeat' split
  all_goals simp

@[simp] theorem blockWork_fixed (m : BlockNo) (s : State) : (blockWork m s).fixed = s.fixed := by
  simp [blockWork]

@[simp] theorem inputSet_fixed (f : InputFields) (s : State) : (inputSet f s).1.fixed = s.fixed := by
  simp only [inputSet]
  repeat' split
  all_goals simp

@[simp] theorem setCross_fixed (k : Fin 32) (b : Fin 8) (cross : Nat) (s : State) : (setCross k b cross s).fixed = s.fixed := by
  simp [setCross]

@[simp] theorem mixSet_fixed (entries : List MixEntry) (s : State) : (mixSet entries s).1.fixed = s.fixed := by
  simp only [mixSet]
  split <;> simp

@[simp] theorem storeGroups_fixed (groups : Table 8 Bool) (s : State) : (storeGroups groups s).fixed = s.fixed := by
  simp [storeGroups]

@[simp] theorem storeBus_fixed (f : BusFields) (b : Option (Fin 8)) (s : State) : (storeBus f b s).fixed = s.fixed := by
  simp only [storeBus]
  split <;> simp

@[simp] theorem busSet_fixed (f : BusFields) (s : State) : (busSet f s).1.fixed = s.fixed := by
  simp only [busSet]
  repeat' split
  all_goals simp

@[simp] theorem storeTrigger_fixed (i : Fin 4) (new : Trigger) (s : State) : (storeTrigger i new s).fixed = s.fixed := by
  simp only [storeTrigger]
  split <;> simp

@[simp] theorem triggerSet_fixed (f : TriggerFields) (s : State) : (triggerSet f s).1.fixed = s.fixed := by
  simp only [triggerSet]
  repeat' split
  all_goals simp

@[simp] theorem resetMediaBlocks_fixed (home : List Msg) (s : State) : (resetMediaBlocks home s).fixed = s.fixed := by
  rfl

@[simp] theorem clearRefused_fixed (s : State) : (clearRefused s).fixed = s.fixed := by
  simp [clearRefused]

@[simp] theorem clearIf_fixed (clear : Bool) (f : State → State) (h : ∀ s, (f s).fixed = s.fixed) (s : State) :
    (clearIf clear f s).fixed = s.fixed := by
  simp only [clearIf]
  split <;> simp [h]

@[simp] theorem answerObject_fixed {n : Nat} (o : Option (Fin n)) (f : Fin n → State × Reply) (s : State)
    (h : ∀ i, (f i).1.fixed = s.fixed) : (answerObject o f s).1.fixed = s.fixed := by
  simp only [answerObject]
  split <;> simp [h]

@[simp] theorem State.withLinks_fixed (s : State) (t : Table 4 LinkRecord) : ({ s with lsu := t } : State).fixed = s.fixed :=
  rfl


@[simp] theorem answerWith_fixed (r : Results) (s : State) : (answerWith r s).1.fixed = s.fixed := by
  simp [answerWith]

@[simp] theorem queryMixer_fixed (object : Option (Nat × List Nat)) (s : State) : (queryMixer object s).1.fixed = s.fixed := by
  simp only [queryMixer]
  split <;> simp

@[simp] theorem queryBlock_fixed (b : Nat) (object : Option (Nat × List Nat)) (clear : Bool) (s : State) : (queryBlock b object clear s).1.fixed = s.fixed := by
  simp only [queryBlock]
  split
  all_goals first
    | rfl
    | (simp; done)
    | exact clearIf_fixed clear _ (by intro; rfl) s
    | (refine answerObject_fixed _ _ _ fun l => ?_
       exact clearIf_fixed clear _ (by intro; rfl) s)

@[simp] theorem statusQuery_fixed (f : QueryFields) (s : State) : (statusQuery f s).1.fixed = s.fixed := by
  simp only [statusQuery]
  split <;> simp

@[simp] theorem eventsClear_fixed (l : ClearList) (s : State) : (eventsClear l s).1.fixed = s.fixed := by
  simp only [eventsClear]
  repeat' split
  all_goals simp

@[simp] theorem authoritySet_fixed (f : AuthorityFields) (s : State) : (authoritySet f s).1.fixed = s.fixed := by
  simp only [authoritySet]
  split <;> simp

@[simp] theorem replyVan_fixed (m : Msg) (r : Reply) (s : State) : (replyVan m r s).fixed = s.fixed := by
  simp [replyVan]

@[simp] theorem leaveHome_fixed (s : State) : (leaveHome s).fixed = s.fixed := by
  simp [leaveHome]

@[simp] theorem offerHome_fixed (tag : Byte) (body : List Byte) (s : State) : (offerHome tag body s).fixed = s.fixed := by
  simp only [offerHome]
  have h := request_fixed .labelReply (blocksFor (Config.packetHeaderBytes + body.length))
    (s.onCmu fun c => { c with held := some { tag := tag, bytes := body } })
  split <;> rename_i h2 <;> rw [h2] at h <;> simpa using h

@[simp] theorem joinVan_fixed (m : Msg) (s : State) : (joinVan m s).fixed = s.fixed := by
  simp only [joinVan]
  repeat' split
  all_goals simp

@[simp] theorem joinHome_fixed (m : Msg) (s : State) : (joinHome m s).fixed = s.fixed := by
  simp only [joinHome]
  split
  · simp
  · have h := request_fixed .labelReply 1 s
    split <;> rename_i h2 <;> rw [h2] at h <;> simpa using h

@[simp] theorem submit_fixed (m : Msg) (s : State) : (submit m s).fixed = s.fixed := by
  simp only [submit]
  split <;> simp

@[simp] theorem ignoreHome_fixed (s : State) : (ignoreHome s).fixed = s.fixed := by
  simp [ignoreHome]

theorem tellLabel_fixed (f : Nat → State → State) (h : ∀ n s, (f n s).fixed = s.fixed) (p : Packet) (s : State) :
    (tellLabel f p s).fixed = s.fixed := by
  simp only [tellLabel]
  split <;> simp [h]

@[simp] theorem handOver_fixed (l : Link) (t : Slot) (s : State) : (handOver l t s).fixed = s.fixed := by
  simp [handOver, tellLabel_fixed _ labelTaken_fixed]

@[simp] theorem takenReport_fixed (l : Link) (epoch : Epoch) (seq : Seq) (s : State) : (takenReport l epoch seq s).fixed = s.fixed := by
  simp only [takenReport]
  repeat' split
  all_goals simp

@[simp] theorem retireEntry_fixed (l : Link) (e : InFlight) (s : State) : (retireEntry l e s).fixed = s.fixed := by
  simp only [retireEntry]
  split <;> simp [tellLabel_fixed _ labelRetired_fixed]

@[simp] theorem retire_fixed (l : Link) (k : Nat) (a : Seq) (s : State) : (retire l k a s).fixed = s.fixed := by
  simp only [retire]
  split <;> simp

@[simp] theorem ackLink_fixed (l : Link) (epoch : Epoch) (a : Seq) (s : State) : (ackLink l epoch a s).fixed = s.fixed := by
  simp only [ackLink]
  repeat' split
  all_goals simp

@[simp] theorem ackPacket_fixed (n : Byte) (epoch : Epoch) (a : Seq) (s : State) : (ackPacket n epoch a s).fixed = s.fixed := by
  simp only [ackPacket]
  split <;> simp

@[simp] theorem refreshReturn_fixed (n : Byte) (s : State) : (refreshReturn n s).fixed = s.fixed := by
  simp only [refreshReturn]
  split <;> simp

@[simp] theorem controlReturn_fixed (kind tag : Byte) (length : Nat) (message : List Byte) (s : State) : (controlReturn kind tag length message s).fixed = s.fixed := by
  simp [controlReturn]

@[simp] theorem returnPacket_fixed (p : ReturnPacket) (s : State) : (returnPacket p s).fixed = s.fixed := by
  simp only [returnPacket]
  split <;> simp

@[simp] theorem modemReport_fixed (l : Link) (r : ModemReport) (s : State) : (modemReport l r s).fixed = s.fixed := by
  simp only [modemReport]
  split <;> simp

@[simp] theorem countUnrouted_fixed (s : State) : (countUnrouted s).fixed = s.fixed := by
  simp [countUnrouted]

@[simp] theorem countWrongKind_fixed (s : State) : (countWrongKind s).fixed = s.fixed := by
  simp [countWrongKind]

theorem route_fixed (i : RingStream) (use : Dest → Option (State → State))
    (h : ∀ d f, use d = some f → ∀ s, (f s).fixed = s.fixed) (s : State) : (route i use s).fixed = s.fixed := by
  simp only [route]
  split
  · simp
  · split
    · rename_i f h2
      exact h _ f h2 s
    · simp

@[simp] theorem setPartial_fixed (i : RingStream) (p : Option Assembling) (s : State) : (setPartial i p s).fixed = s.fixed := by
  simp [setPartial]

@[simp] theorem discardAssembly_fixed (s : State) : (discardAssembly s).fixed = s.fixed := by
  simp [discardAssembly]

@[simp] theorem assemble_fixed (src : Src) (i : RingStream) (a : Assembling) (s : State) : (assemble src i a s).fixed = s.fixed := by
  simp only [assemble]
  split <;> simp

@[simp] theorem firstCell_fixed (src : Src) (i : RingStream) (kind tag : Byte) (count length : Nat) (body : List Byte) (s : State) : (firstCell src i kind tag count length body s).fixed = s.fixed := by
  simp only [firstCell]
  split <;> simp

@[simp] theorem continuationCell_fixed (src : Src) (i : RingStream) (index : Nat) (body : List Byte) (s : State) : (continuationCell src i index body s).fixed = s.fixed := by
  simp only [continuationCell]
  repeat' split
  all_goals simp

@[simp] theorem takeTally_fixed (t : Table 4 Bool) (s : State) : (takeTally t s).fixed = s.fixed := by
  simp [takeTally]

@[simp] theorem soundCell_fixed (i : RingStream) (c : BlockNo) (samples : SoundBlock) (s : State) : (soundCell i c samples s).fixed = s.fixed := by
  simp only [soundCell]
  exact route_fixed _ _ (by intro d f h s; split at h <;> simp at h <;> subst h <;> simp) _

@[simp] theorem tallyCell_fixed (i : RingStream) (count : Byte) (body : List Byte) (s : State) : (tallyCell i count body s).fixed = s.fixed := by
  simp only [tallyCell]
  split
  · rfl
  · exact route_fixed _ _ (by intro d f h s; split at h <;> simp at h <;> subst h <;> simp) _

@[simp] theorem controlFirst_fixed (i : RingStream) (kind tag : Byte) (count length : Nat) (body : List Byte) (s : State) : (controlFirst i kind tag count length body s).fixed = s.fixed := by
  simp only [controlFirst]
  split
  · simp
  · refine route_fixed _ _ ?_ _
    intro d f h t
    simp only [Option.map_eq_some_iff] at h
    obtain ⟨src, -, rfl⟩ := h
    simp

@[simp] theorem controlContinuation_fixed (i : RingStream) (index : Nat) (body : List Byte) (s : State) : (controlContinuation i index body s).fixed = s.fixed := by
  simp only [controlContinuation]
  refine route_fixed _ _ ?_ _
  intro d f h t
  simp only [Option.map_eq_some_iff] at h
  obtain ⟨src, -, rfl⟩ := h
  simp

@[simp] theorem otherCell_fixed (i : RingStream) (kind : Byte) (s : State) : (otherCell i kind s).fixed = s.fixed := by
  simp only [otherCell]
  split
  · exact route_fixed _ _ (by simp) _
  · simp

@[simp] theorem ringCell_fixed (c : RingCell) (s : State) : (ringCell c s).fixed = s.fixed := by
  simp only [ringCell]
  split <;> simp

@[simp] theorem fillSlot_fixed (s : State) : (fillSlot s).fixed = s.fixed := by
  simp only [fillSlot]
  split <;> simp

@[simp] theorem deadlineIfDue_fixed (l : Link) (s : State) : (deadlineIfDue l s).fixed = s.fixed := by
  simp only [deadlineIfDue]
  split <;> simp

@[simp] theorem retryIfDue_fixed (l : Link) (s : State) : (retryIfDue l s).fixed = s.fixed := by
  simp only [retryIfDue]
  split <;> simp

@[simp] theorem probeIfDue_fixed (l : Link) (s : State) : (probeIfDue l s).fixed = s.fixed := by
  simp only [probeIfDue]
  split <;> simp

@[simp] theorem recoveryIfDue_fixed (l : Link) (s : State) : (recoveryIfDue l s).fixed = s.fixed := by
  simp only [recoveryIfDue]
  split <;> simp

@[simp] theorem windowIfDue_fixed (l : Link) (s : State) : (windowIfDue l s).fixed = s.fixed := by
  simp only [windowIfDue]
  split <;> simp

@[simp] theorem timeoutIfDue_fixed (l : Link) (s : State) : (timeoutIfDue l s).fixed = s.fixed := by
  simp only [timeoutIfDue]
  split <;> simp

@[simp] theorem timersIfDue_fixed (l : Link) (s : State) : (timersIfDue l s).fixed = s.fixed := by
  simp [timersIfDue]

end Sys2Proof.Machine
end

