-- ==== Sys2Proof/Laws/Flags.lean ====
section
/-! SUPPORT. A flag that is raised is set, and stays set through every raise and every take attempt (R208). -/

namespace Sys2Proof.Machine

theorem EventFlag.idx_inj {f g : EventFlag} (h : f.idx = g.idx) : f = g := by
  cases f <;> cases g <;> first | rfl | exact absurd h (by decide)

theorem flagRec_congr {s t : State} (h : s.cmu.flags = t.cmu.flags) (g : EventFlag) : flagRec s g = flagRec t g := by
  simp [flagRec, h]

theorem bumpFlag_sets (f : EventFlag) (s : State) : (flagRec (bumpFlag f s) f).set = true := by
  simp [flagRec, bumpFlag]

theorem bumpFlag_keeps (f g : EventFlag) (s : State) (h : (flagRec s g).set = true) :
    (flagRec (bumpFlag f s) g).set = true := by
  simp only [flagRec, bumpFlag, State.onCmu_cmu, Table.get_modify]
  split
  · rfl
  · exact h

theorem sendHomeNotice_keeps (raise : EventFlag → State → State) (g : EventFlag)
    (hr : ∀ f s, (flagRec s g).set = true → (flagRec (raise f s) g).set = true) (s : State)
    (h : (flagRec s g).set = true) : (flagRec (sendHomeNotice raise s).2 g).set = true := by
  simp only [sendHomeNotice]
  split
  · exact h
  · split
    · exact h
    · exact hr _ _ h

theorem homeCopy_keeps (raise : EventFlag → State → State) (g : EventFlag)
    (hr : ∀ f s, (flagRec s g).set = true → (flagRec (raise f s) g).set = true) (n : Notice) (s : State)
    (h : (flagRec s g).set = true) : (flagRec (homeCopy raise n s) g).set = true := by
  have h1 : (flagRec (s.onCmu fun c => { c with homeNotices := joinNotices s.cmu.homeNotices n }) g).set = true := h
  have h2 := sendHomeNotice_keeps raise g hr _ h1
  simp only [homeCopy]
  split <;> split
  · exact hr _ _ h2
  · exact hr _ _ h1
  · exact h2
  · exact h1

theorem queueNoticeWith_keeps (raise : EventFlag → State → State) (g : EventFlag)
    (hr : ∀ f s, (flagRec s g).set = true → (flagRec (raise f s) g).set = true) (n : Notice) (s : State)
    (h : (flagRec s g).set = true) : (flagRec (queueNoticeWith raise n s) g).set = true := by
  have h1 : (flagRec (s.onCmu fun c => { c with notices := joinNotices s.cmu.notices n }) g).set = true := h
  have h2 := homeCopy_keeps raise g hr n _ h1
  simp only [queueNoticeWith]
  split <;> split
  · exact hr _ _ h2
  · exact hr _ _ h1
  · exact h2
  · exact h1

theorem raiseWithin_keeps (k : Nat) (f g : EventFlag) (s : State) (h : (flagRec s g).set = true) :
    (flagRec (raiseWithin k f s) g).set = true := by
  induction k generalizing f s with
  | zero => exact bumpFlag_keeps f g s h
  | succ k ih =>
    simp only [raiseWithin]
    split
    · exact bumpFlag_keeps f g s h
    · exact queueNoticeWith_keeps _ g (fun f s => ih f s) _ _ (bumpFlag_keeps f g s h)

/-- A raise clears no flag. -/
theorem raiseFlag_keeps (f g : EventFlag) (s : State) (h : (flagRec s g).set = true) :
    (flagRec (raiseFlag f s) g).set = true := raiseWithin_keeps 4 f g s h

/-- A raised flag is set. -/
theorem raiseFlag_sets (f : EventFlag) (s : State) : (flagRec (raiseFlag f s) f).set = true := by
  simp only [raiseFlag, raiseWithin]
  split
  · exact bumpFlag_sets f s
  · exact queueNoticeWith_keeps _ f (fun g s => raiseWithin_keeps 3 g f s) _ _ (bumpFlag_sets f s)

theorem setReservation_cmu (l : Link) (r : Option Reservation) (s : State) : (setReservation l r s).cmu = s.cmu := by
  simp only [setReservation]
  split <;> rfl

theorem dropLate_keeps (l : Link) (c : QueueClass) (p : Packet) (rest : List Packet) (g : EventFlag) (s : State)
    (h : (flagRec s g).set = true) : (flagRec (dropLate l c p rest s) g).set = true := by
  simp only [dropLate]
  refine (congrArg _ (flagRec_congr (congrArg CommandUnit.flags (setReservation_cmu _ _ _)) g)).trans ?_
  repeat' split
  all_goals exact raiseFlag_keeps _ _ _ h

theorem attempt_keeps (fuel : Nat) (l : Link) (g : EventFlag) (s : State) (h : (flagRec s g).set = true) :
    (flagRec (attempt fuel l s) g).set = true := by
  induction fuel generalizing s with
  | zero => exact h
  | succ k ih =>
    simp only [attempt]
    repeat' split
    all_goals first
      | exact h
      | exact ih _ (dropLate_keeps _ _ _ _ g s h)
      | skip
    refine (congrArg _ (flagRec_congr (congrArg CommandUnit.flags (setReservation_cmu _ _ _)) g)).trans ?_
    exact h

theorem attemptOwed_keeps (l : Link) (g : EventFlag) (s : State) (h : (flagRec s g).set = true) :
    (flagRec (attemptOwed l s) g).set = true := by
  simp only [attemptOwed]
  split
  · exact attempt_keeps _ _ _ _ h
  · exact h

theorem settle_keeps (fuel : Nat) (g : EventFlag) (s : State) (h : (flagRec s g).set = true) :
    (flagRec (settle fuel s) g).set = true := by
  induction fuel generalizing s with
  | zero => exact h
  | succ k ih =>
    simp only [settle]
    split
    · apply ih
      simp only [four, List.foldl]
      exact attemptOwed_keeps _ _ _ (attemptOwed_keeps _ _ _ (attemptOwed_keeps _ _ _ (attemptOwed_keeps _ _ _ h)))
    · exact h

/-- Take attempts clear no flag. -/
theorem settleTakes_keeps (g : EventFlag) (s : State) (h : (flagRec s g).set = true) :
    (flagRec (settleTakes s) g).set = true := settle_keeps 8 g s h

end Sys2Proof.Machine
end

