-- ==== Sys2Proof/Laws/Waits.lean ====
section
/-! SUPPORT. The command queues of the Command Unit, its held reply and authority, and the ring output queue, which only the
joining and the serving of messages, the output slot, AUTHORITY-SET and the resets change. One lemma for each operation that
keeps them. -/

namespace Sys2Proof.Machine

/-- The two command queues, the authority, the ring output queue and the held reply. -/
def State.waits (s : State) : List Msg × List Msg × Authority × List (List Byte) × Option HeldReply :=
  (s.cmu.van, s.cmu.home, s.cmu.authority, s.sri.queue, s.cmu.held)

@[simp] theorem foldl_waits {α : Type} (f : State → α → State) (h : ∀ s a, (f s a).waits = s.waits) (l : List α)
    (s : State) : (l.foldl f s).waits = s.waits := by
  induction l generalizing s with
  | nil => rfl
  | cons a l ih => simp [ih, h]

@[simp] theorem State.onPort_waits (p : Prog) (f : Port → Port) (s : State) : (s.onPort p f).waits = s.waits := rfl
@[simp] theorem State.onPgc_waits (f : Controller → Controller) (s : State) : (s.onPgc f).waits = s.waits := rfl
@[simp] theorem State.onProg_waits (p : Prog) (f : Programme → Programme) (s : State) : (s.onProg p f).waits = s.waits := rfl
@[simp] theorem State.onCde_waits (f : Engine → Engine) (s : State) : (s.onCde f).waits = s.waits := rfl
@[simp] theorem State.onLoop_waits (p : Prog) (f : CodingLoop → CodingLoop) (s : State) : (s.onLoop p f).waits = s.waits := rfl
@[simp] theorem State.setEntry_waits (p : Prog) (e : Option Entry) (s : State) : (s.setEntry p e).waits = s.waits := rfl
@[simp] theorem State.setBand_waits (b : Option Band) (s : State) : (s.setBand b).waits = s.waits := rfl
@[simp] theorem State.onRal_waits (f : Allocator → Allocator) (s : State) : (s.onRal f).waits = s.waits := rfl
@[simp] theorem State.onRate_waits (p : Prog) (f : RateProg → RateProg) (s : State) : (s.onRate p f).waits = s.waits := rfl
@[simp] theorem State.onSmx_waits (f : Mixer → Mixer) (s : State) : (s.onSmx f).waits = s.waits := rfl
@[simp] theorem State.onTrigger_waits (t : Fin 4) (f : Trigger → Trigger) (s : State) : (s.onTrigger t f).waits = s.waits := rfl
@[simp] theorem State.onInput_waits (k : Fin 32) (f : Input → Input) (s : State) : (s.onInput k f).waits = s.waits := rfl
@[simp] theorem State.onCross_waits (k : Fin 32) (b : Fin 8) (f : CrossPoint → CrossPoint) (s : State) : (s.onCross k b f).waits = s.waits := rfl
@[simp] theorem State.onBus_waits (b : Fin 8) (f : Bus → Bus) (s : State) : (s.onBus b f).waits = s.waits := rfl
@[simp] theorem State.onStream_waits (i : Fin 4) (f : SoundStream → SoundStream) (s : State) : (s.onStream i f).waits = s.waits := rfl
@[simp] theorem State.onClm_waits (f : ClipMarker → ClipMarker) (s : State) : (s.onClm f).waits = s.waits := rfl
@[simp] theorem State.onPool_waits (f : Pool → Pool) (s : State) : (s.onPool f).waits = s.waits := rfl
@[simp] theorem State.onHsc_waits (f : Scheduler → Scheduler) (s : State) : (s.onHsc f).waits = s.waits := rfl
@[simp] theorem State.onSched_waits (l : Link) (f : LinkSched → LinkSched) (s : State) : (s.onSched l f).waits = s.waits := rfl
@[simp] theorem State.onLink_waits (l : Link) (f : LinkRecord → LinkRecord) (s : State) : (s.onLink l f).waits = s.waits := rfl
@[simp] theorem State.onTbu_waits (f : Timebase → Timebase) (s : State) : (s.onTbu f).waits = s.waits := rfl
@[simp] theorem State.onSri_waits (f : Ring → Ring) (s : State) (h : (f s.sri).queue = s.sri.queue) :
    (s.onSri f).waits = s.waits := by simp [State.waits, h]

@[simp] theorem State.onCmu_waits (f : CommandUnit → CommandUnit) (s : State) (h1 : (f s.cmu).van = s.cmu.van)
    (h2 : (f s.cmu).home = s.cmu.home) (h3 : (f s.cmu).authority = s.cmu.authority) (h4 : (f s.cmu).held = s.cmu.held) :
    (s.onCmu f).waits = s.waits := by
  simp [State.waits, h1, h2, h3, h4]

@[simp] theorem State.withPool_waits (s : State) (k : Pool) : ({ s with pkp := k } : State).waits = s.waits := rfl


@[simp] theorem refreshCause_waits (p : Prog) (s : State) : (refreshCause p s).waits = s.waits := by
  simp [refreshCause]

@[simp] theorem oweTake_waits (l : Link) (s : State) : (oweTake l s).waits = s.waits := by
  simp [oweTake]

@[simp] theorem oweAll_waits (s : State) : (oweAll s).waits = s.waits := by
  simp [oweAll]

@[simp] theorem appendPackets_waits (c : QueueClass) (ps : List Packet) (s : State) : (appendPackets c ps s).waits = s.waits := by
  simp [appendPackets]

@[simp] theorem reroute_waits (ps : List Packet) (s : State) : (reroute ps s).waits = s.waits := by
  simp [reroute]

@[simp] theorem endReservations_waits (gone : List Packet) (s : State) : (endReservations gone s).waits = s.waits := by
  simp only [endReservations]
  split <;> simp

@[simp] theorem flushPictures_waits (p : Prog) (s : State) : (flushPictures p s).waits = s.waits := by
  simp [flushPictures]

@[simp] theorem bumpFlag_waits (f : EventFlag) (s : State) : (bumpFlag f s).waits = s.waits := by
  simp [bumpFlag]

theorem sendHomeNotice_waits (raise : EventFlag → State → State) (h : ∀ f s, (raise f s).waits = s.waits) (s : State) :
    (sendHomeNotice raise s).2.waits = s.waits := by
  simp only [sendHomeNotice]
  split
  · rfl
  · split
    · exact appendPackets_waits ..
    · rw [h]; rfl

theorem homeCopy_waits (raise : EventFlag → State → State) (h : ∀ f s, (raise f s).waits = s.waits) (n : Notice)
    (s : State) : (homeCopy raise n s).waits = s.waits := by
  simp only [homeCopy]
  repeat' split
  all_goals simp [h, sendHomeNotice_waits raise h]

theorem queueNoticeWith_waits (raise : EventFlag → State → State) (h : ∀ f s, (raise f s).waits = s.waits) (n : Notice)
    (s : State) : (queueNoticeWith raise n s).waits = s.waits := by
  simp only [queueNoticeWith]
  repeat' split
  all_goals simp [h, homeCopy_waits raise h]

@[simp] theorem raiseWithin_waits (k : Nat) (f : EventFlag) (s : State) : (raiseWithin k f s).waits = s.waits := by
  induction k generalizing f s with
  | zero => simp only [raiseWithin, bumpFlag_waits]
  | succ k ih =>
    simp only [raiseWithin]
    split
    · exact bumpFlag_waits ..
    · exact (queueNoticeWith_waits _ ih _ _).trans (bumpFlag_waits ..)

@[simp] theorem raiseFlag_waits (f : EventFlag) (s : State) : (raiseFlag f s).waits = s.waits := by
  simp [raiseFlag]

@[simp] theorem queueNotice_waits (body : NoticeBody) (answers : Option OpenCommand) (s : State) : (queueNotice body answers s).waits = s.waits := by
  exact queueNoticeWith_waits _ (by simp) ..

@[simp] theorem sendHomeNotices_waits (fuel : Nat) (s : State) : (sendHomeNotices fuel s).waits = s.waits := by
  induction fuel generalizing s with
  | zero => rfl
  | succ k ih =>
    have h := sendHomeNotice_waits raiseFlag (by simp) s
    simp only [sendHomeNotices]
    split <;> simp_all

@[simp] theorem clearFlag_waits (f : Fin 19) (s : State) : (clearFlag f s).waits = s.waits := by
  simp [clearFlag]

@[simp] theorem request_waits (o : Owner) (n : Nat) (s : State) : (request o n s).2.waits = s.waits := by
  simp only [request]
  split <;> simp

@[simp] theorem releaseBlocks_waits (o : Owner) (blocks : List Nat) (s : State) : (releaseBlocks o blocks s).waits = s.waits := by
  simp [releaseBlocks]

@[simp] theorem onClip_waits (n : Nat) (f : Clip → Clip) (s : State) : (onClip n f s).waits = s.waits := by
  simp [onClip]

@[simp] theorem freeClip_waits (n : Nat) (s : State) : (freeClip n s).waits = s.waits := by
  simp [freeClip]

theorem makeRoom_waits (s t : State) (h : makeRoom s = some t) : t.waits = s.waits := by
  simp only [makeRoom] at h
  repeat' split at h
  all_goals simp at h
  all_goals subst h; simp

@[simp] theorem requestLabel_waits (s : State) : (requestLabel s).2.waits = s.waits := by
  simp only [requestLabel]
  split
  · rfl
  · have h := request_waits .labelReply 1 s
    split <;> rename_i h2 <;> rw [h2] at h
    · exact h
    · split <;> simpa using h

@[simp] theorem retryLabels_waits (fuel : Nat) (s : State) : (retryLabels fuel s).waits = s.waits := by
  induction fuel generalizing s with
  | zero => rfl
  | succ k ih =>
    have h := requestLabel_waits s
    simp only [retryLabels]
    split
    · rfl
    · split <;> simp_all

@[simp] theorem closeClip_waits (n : Nat) (e : Pic) (s : State) : (closeClip n e s).waits = s.waits := by
  simp only [closeClip]
  split <;> simp

@[simp] theorem runOut_waits (n : Nat) (s : State) : (runOut n s).waits = s.waits := by
  simp only [runOut]
  repeat' split
  all_goals simp

@[simp] theorem closeIfResolved_waits (n : Nat) (s : State) : (closeIfResolved n s).waits = s.waits := by
  simp only [closeIfResolved]
  repeat' split
  all_goals simp

@[simp] theorem countPostRoll_waits (s : State) : (countPostRoll s).waits = s.waits := by
  simp only [countPostRoll]
  exact foldl_waits _ (fun s a => by split <;> simp) _ _

@[simp] theorem startPostRoll_waits (n : Nat) (s : State) : (startPostRoll n s).waits = s.waits := by
  simp only [startPostRoll]
  split <;> simp

theorem markOut_waits (n : Nat) (s t : State) (h : markOut n s = some t) : t.waits = s.waits := by
  simp only [markOut, Option.bind_eq_some_iff] at h
  obtain ⟨c, -, h⟩ := h
  split at h <;> simp at h <;> subst h <;> simp

@[simp] theorem markIn_waits (source : ClipSource) (cams : Table 4 Bool) (prio : Priority) (text : List Byte) (s : State) : (markIn source cams prio text s).2.waits = s.waits := by
  simp only [markIn]
  split
  · rfl
  · have h := makeRoom_waits s
    split
    · simp
    · rename_i s1 h2
      rw [foldl_waits _ (by simp)]
      simpa using h s1 h2

@[simp] theorem silentMarkOut_waits (n : Nat) (s : State) : (silentMarkOut n s).waits = s.waits := by
  have h := markOut_waits n s
  simp only [silentMarkOut]
  cases h2 : markOut n s with
  | none => rfl
  | some t => exact h t h2

@[simp] theorem anchorStarted_waits (p : Prog) (q : Pic) (s : State) : (anchorStarted p q s).waits = s.waits := by
  simp [anchorStarted]

@[simp] theorem leavesRunning_waits (p : Prog) (s : State) : (leavesRunning p s).waits = s.waits := by
  simp only [leavesRunning]
  exact foldl_waits _ (fun s a => by split <;> simp) _ _

@[simp] theorem labelTaken_waits (n : Nat) (s : State) : (labelTaken n s).waits = s.waits := by
  simp [labelTaken]

@[simp] theorem labelRetired_waits (n : Nat) (s : State) : (labelRetired n s).waits = s.waits := by
  simp only [labelRetired]
  split <;> simp

@[simp] theorem leaveAir_waits (p : Prog) (s : State) : (leaveAir p s).waits = s.waits := by
  simp only [leaveAir]
  split <;> simp

@[simp] theorem enterAir_waits (p : Prog) (s : State) : (enterAir p s).waits = s.waits := by
  simp only [enterAir]
  have h := markIn_waits .tally ((Table.replicate 4 false).set p true) s.clm.tallyPriority [] s
  split <;> rename_i h2 <;> rw [h2] at h <;> simpa using h

@[simp] theorem judgeTally_waits (onAir : Table 4 Bool) (s : State) : (judgeTally onAir s).waits = s.waits := by
  simp only [judgeTally]
  split <;> simp

@[simp] theorem markInFor_waits (desk : Option (Fin 8)) (source : ClipSource) (cams : Table 4 Bool) (prio : Priority)
    (text : List Byte) (s : State) : (markInFor desk source cams prio text s).1.waits = s.waits := by
  simp only [markInFor]
  have h := markIn_waits source cams prio text s
  split <;> rename_i h2 <;> rw [h2] at h
  · exact h
  · split <;> simpa using h

@[simp] theorem clipMarkIn_waits (src : Src) (f : MarkFields) (s : State) : (clipMarkIn src f s).1.waits = s.waits := by
  simp only [clipMarkIn]
  repeat' split
  all_goals simp

theorem markRecord_waits {src : Src} {f : MarkFields} {act : Clip → Option (State × Reply)} {s : State}
    (h : ∀ c r, act c = some r → r.1.waits = s.waits) : (markRecord src f act s).1.waits = s.waits := by
  simp only [markRecord]
  split
  · split
    · rfl
    · rename_i h2
      split
      · exact h _ _ h2
      · rfl
  · rfl

@[simp] theorem clipMarkOut_waits (src : Src) (f : MarkFields) (s : State) : (clipMarkOut src f s).1.waits = s.waits := by
  refine markRecord_waits fun c r h => ?_
  obtain ⟨s1, h1, rfl⟩ := Option.map_eq_some_iff.mp h
  exact markOut_waits _ s _ h1

@[simp] theorem clipMarkExtend_waits (src : Src) (f : MarkFields) (s : State) : (clipMarkExtend src f s).1.waits = s.waits := by
  refine markRecord_waits fun c r h => ?_
  split at h <;> simp only [Option.some.injEq, reduceCtorEq] at h <;> subst h <;> simp

@[simp] theorem clipMarkCancel_waits (src : Src) (f : MarkFields) (s : State) : (clipMarkCancel src f s).1.waits = s.waits := by
  refine markRecord_waits fun c r h => ?_
  split at h <;> simp only [Option.some.injEq, reduceCtorEq] at h <;> subst h <;> simp

@[simp] theorem clipMark_waits (src : Src) (action : Nat) (f : MarkFields) (s : State) : (clipMark src action f s).1.waits = s.waits := by
  simp only [clipMark]
  split <;> simp

@[simp] theorem clipLabel_waits (src : Src) (ref : ClipRef) (text : Option (List Byte)) (s : State) : (clipLabel src ref text s).1.waits = s.waits := by
  simp only [clipLabel]
  repeat' split
  all_goals simp

@[simp] theorem clipQuery_waits (src : Src) (ref : ClipRef) (s : State) : (clipQuery src ref s).1.waits = s.waits := by
  simp only [clipQuery]
  repeat' split
  all_goals simp

@[simp] theorem clipSettings_waits (f : ClipSettingsFields) (s : State) : (clipSettings f s).1.waits = s.waits := by
  simp only [clipSettings]
  split <;> simp

@[simp] theorem retarget_waits (i : Fin 4) (s : State) : (retarget i s).waits = s.waits := by
  simp [retarget]

@[simp] theorem retargetWhere_waits (which : SoundStream → Bool) (s : State) : (retargetWhere which s).waits = s.waits := by
  simp [retargetWhere]

@[simp] theorem streamArrival_waits (i : Fin 4) (m : BlockNo) (left right : SoundBlock) (s : State) : (streamArrival i m left right s).waits = s.waits := by
  simp only [streamArrival]
  split
  · split <;> rename_i h2 <;> have h := congrArg (fun r => r.2.waits) h2 <;> simp at h <;> simp [← h]
  · repeat' split
    all_goals simp

@[simp] theorem streamsArrival_waits (m : BlockNo) (blocks : Table 8 SoundBlock) (s : State) : (streamsArrival m blocks s).waits = s.waits := by
  simp only [streamsArrival]
  exact foldl_waits _ (fun s a => by split <;> simp) _ _

@[simp] theorem disableStream_waits (i : Fin 4) (s : State) : (disableStream i s).waits = s.waits := by
  simp [disableStream]

@[simp] theorem enableStream_waits (i : Fin 4) (s : State) : (enableStream i s).waits = s.waits := by
  simp [enableStream]

@[simp] theorem soundStreamSet_waits (f : StreamFields) (s : State) : (soundStreamSet f s).1.waits = s.waits := by
  simp only [soundStreamSet]
  repeat' split
  all_goals simp

@[simp] theorem creditBlock_waits (s : State) : (creditBlock s).waits = s.waits := by
  simp [creditBlock]

@[simp] theorem setReservation_waits (l : Link) (r : Option Reservation) (s : State) : (setReservation l r s).waits = s.waits := by
  simp only [setReservation]
  split <;> simp

@[simp] theorem dropLate_waits (l : Link) (c : QueueClass) (p : Packet) (rest : List Packet) (s : State) : (dropLate l c p rest s).waits = s.waits := by
  simp only [dropLate]
  repeat' split
  all_goals simp

@[simp] theorem takePacket_waits (l : Link) (c : QueueClass) (p : Packet) (rest : List Packet) (s : State) : (takePacket l c p rest s).waits = s.waits := by
  simp [takePacket]

@[simp] theorem attempt_waits (fuel : Nat) (l : Link) (s : State) : (attempt fuel l s).waits = s.waits := by
  induction fuel generalizing s with
  | zero => rfl
  | succ k ih =>
    simp only [attempt]
    repeat' split
    all_goals simp_all

@[simp] theorem attemptOwed_waits (l : Link) (s : State) : (attemptOwed l s).waits = s.waits := by
  simp only [attemptOwed]
  split <;> simp

@[simp] theorem settle_waits (fuel : Nat) (s : State) : (settle fuel s).waits = s.waits := by
  induction fuel generalizing s with
  | zero => simp [settle]
  | succ k ih =>
    simp only [settle]
    split <;> simp_all

@[simp] theorem settleTakes_waits (s : State) : (settleTakes s).waits = s.waits := by
  simp [settleTakes]

@[simp] theorem offerProbe_waits (l : Link) (ordinal : Nat) (s : State) : (offerProbe l ordinal s).waits = s.waits := by
  simp [offerProbe]

@[simp] theorem withdraw_waits (l : Link) (s : State) : (withdraw l s).waits = s.waits := by
  simp only [withdraw]
  split <;> simp

@[simp] theorem newEpoch_waits (l : Link) (s : State) : (newEpoch l s).waits = s.waits := by
  simp [newEpoch]

@[simp] theorem holdLink_waits (l : Link) (c : FaultClass) (retry : Bool) (s : State) : (holdLink l c retry s).waits = s.waits := by
  simp only [holdLink]
  split <;> simp

@[simp] theorem degradeLink_waits (l : Link) (c : FaultClass) (s : State) : (degradeLink l c s).waits = s.waits := by
  simp only [degradeLink]
  split <;> simp

@[simp] theorem applyFault_waits (l : Link) (c : FaultClass) (code : Byte) (s : State) : (applyFault l c code s).waits = s.waits := by
  simp only [applyFault]
  repeat' split
  all_goals simp

@[simp] theorem giveProbe_waits (l : Link) (s : State) : (giveProbe l s).waits = s.waits := by
  simp only [giveProbe]
  split <;> simp

@[simp] theorem enterProving_waits (l : Link) (cmd : Option OpenCommand) (s : State) : (enterProving l cmd s).waits = s.waits := by
  simp [enterProving]

@[simp] theorem enterUp_waits (l : Link) (s : State) : (enterUp l s).waits = s.waits := by
  simp only [enterUp]
  repeat' split
  all_goals simp

@[simp] theorem judgeProving_waits (l : Link) (s : State) : (judgeProving l s).waits = s.waits := by
  simp only [judgeProving]
  repeat' split
  all_goals simp

@[simp] theorem probeRetired_waits (l : Link) (s : State) : (probeRetired l s).waits = s.waits := by
  simp only [probeRetired]
  split <;> simp

@[simp] theorem buildProbe_waits (l : Link) (s : State) : (buildProbe l s).waits = s.waits := by
  simp [buildProbe]

@[simp] theorem failProving_waits (l : Link) (s : State) : (failProving l s).waits = s.waits := by
  simp only [failProving]
  split <;> simp

@[simp] theorem returnToUp_waits (l : Link) (s : State) : (returnToUp l s).waits = s.waits := by
  simp [returnToUp]

@[simp] theorem expireRecovery_waits (l : Link) (s : State) : (expireRecovery l s).waits = s.waits := by
  simp only [expireRecovery]
  split <;> simp

@[simp] theorem endWindow_waits (l : Link) (s : State) : (endWindow l s).waits = s.waits := by
  simp only [endWindow]
  repeat' split
  all_goals simp

@[simp] theorem timeOutOldest_waits (l : Link) (s : State) : (timeOutOldest l s).waits = s.waits := by
  simp only [timeOutOldest]
  split <;> simp

@[simp] theorem takeCapacity_waits (l : Link) (cap : Nat) (s : State) : (takeCapacity l cap s).waits = s.waits := by
  simp only [takeCapacity]
  split <;> simp

@[simp] theorem takeFaultReport_waits (l : Link) (code : Byte) (s : State) : (takeFaultReport l code s).waits = s.waits := by
  simp only [takeFaultReport]
  repeat' split
  all_goals simp

@[simp] theorem setCaps_waits (caps : Table 6 (Option Nat)) (s : State) : (setCaps caps s).waits = s.waits := by
  simp [setCaps]

@[simp] theorem applySettings_waits (l : Link) (t : LinkSettings) (s : State) : (applySettings l t s).waits = s.waits := by
  simp only [applySettings]
  repeat' split
  all_goals simp

@[simp] theorem linkSet_waits (f : LinkFields) (s : State) : (linkSet f s).1.waits = s.waits := by
  simp only [linkSet]
  repeat' split
  all_goals simp

@[simp] theorem linkUp_waits (m : Hdr) (n : Option Nat) (s : State) : (linkUp m n s).1.waits = s.waits := by
  simp only [linkUp]
  repeat' split
  all_goals simp

@[simp] theorem takeDown_waits (l : Link) (s : State) : (takeDown l s).waits = s.waits := by
  simp only [takeDown]
  repeat' split
  all_goals simp

@[simp] theorem linkDown_waits (n : Option Nat) (s : State) : (linkDown n s).1.waits = s.waits := by
  simp only [linkDown]
  split <;> simp

@[simp] theorem linkClear_waits (m : Hdr) (n : Option Nat) (s : State) : (linkClear m n s).1.waits = s.waits := by
  simp only [linkClear]
  repeat' split
  all_goals simp

@[simp] theorem copyRecords_waits (s : State) : (copyRecords s).waits = s.waits := by
  simp [copyRecords]

@[simp] theorem decideMethod_waits (p : Prog) (m : Method) (s : State) : (decideMethod p m s).waits = s.waits := by
  simp [decideMethod]

@[simp] theorem allocateProg_waits (figures : AllocFigures) (ticks : Nat) (p : Prog) (s : State) : (allocateProg figures ticks p s).waits = s.waits := by
  simp only [allocateProg]
  repeat' split
  all_goals simp

@[simp] theorem allocation_waits (ticks : Nat) (s : State) : (allocation ticks s).waits = s.waits := by
  simp only [allocation]
  split <;> simp

@[simp] theorem rateRunning_waits (p : Prog) (s : State) : (rateRunning p s).waits = s.waits := by
  simp [rateRunning]

@[simp] theorem pictureReported_waits (p : Prog) (bits : Nat) (s : State) : (pictureReported p bits s).waits = s.waits := by
  simp only [pictureReported]
  split <;> simp

@[simp] theorem setPoolFields_waits (f : RateFields) (s : State) : (setPoolFields f s).waits = s.waits := by
  simp [setPoolFields]

@[simp] theorem rateSet_waits (f : RateFields) (s : State) : (rateSet f s).1.waits = s.waits := by
  simp only [rateSet]
  repeat' split
  all_goals simp

@[simp] theorem endStop_waits (p : Prog) (mode : StopMode) (pic : Pic) (s : State) : (endStop p mode pic s).waits = s.waits := by
  simp only [endStop]
  split <;> simp

@[simp] theorem completePicture_waits (p : Prog) (e : Entry) (s : State) : (completePicture p e s).waits = s.waits := by
  simp only [completePicture]
  split <;> simp

@[simp] theorem emitHeader_waits (p : Prog) (pic : Pic) (tick : Tick) (band : Nat) (header : List Byte) (s : State) : (emitHeader p pic tick band header s).waits = s.waits := by
  simp only [emitHeader]
  have h := request_waits (.prog p) 1 s
  split <;> rename_i h2 <;> rw [h2] at h <;> simpa using h

@[simp] theorem countGroup_waits (p : Prog) (s : State) : (countGroup p s).waits = s.waits := by
  simp [countGroup]

@[simp] theorem emitSkip_waits (p : Prog) (c : CodeStart) (s : State) : (emitSkip p c s).waits = s.waits := by
  simp [emitSkip]

@[simp] theorem startBand_waits (s : State) : (startBand s).waits = s.waits := by
  simp only [startBand]
  repeat' split
  all_goals simp

@[simp] theorem loseBand_waits (b : Band) (s : State) : (loseBand b s).waits = s.waits := by
  simp [loseBand]

@[simp] theorem closeFragment_waits (blocks : Nat) (s : State) : (closeFragment blocks s).waits = s.waits := by
  simp only [closeFragment]
  split
  · rfl
  · rename_i b _
    split
    · rfl
    · split
      · simp
      · have h := request_waits (.prog b.prog) blocks s
        split <;> rename_i h2 <;> rw [h2] at h <;> simpa using h

@[simp] theorem shedPicture_waits (p : Prog) (e : Entry) (s : State) : (shedPicture p e s).waits = s.waits := by
  simp only [shedPicture]
  split <;> simp

@[simp] theorem discardBand_waits (b : Band) (s : State) : (discardBand b s).waits = s.waits := by
  simp [discardBand]

@[simp] theorem completeBand_waits (b : Band) (e : Entry) (coded : List Byte) (s : State) : (completeBand b e coded s).waits = s.waits := by
  simp only [completeBand]
  repeat' split
  all_goals simp

@[simp] theorem bandEnds_waits (coded : List Byte) (s : State) : (bandEnds coded s).waits = s.waits := by
  simp only [bandEnds]
  repeat' split
  all_goals simp

@[simp] theorem markDiscard_waits (p : Prog) (s : State) : (markDiscard p s).waits = s.waits := by
  simp [markDiscard]

@[simp] theorem overrun_waits (p : Prog) (s : State) : (overrun p s).waits = s.waits := by
  simp only [overrun]
  split <;> simp

@[simp] theorem dropPicture_waits (p : Prog) (s : State) : (dropPicture p s).waits = s.waits := by
  simp only [dropPicture]
  split <;> simp

@[simp] theorem takeFrom_waits (counts : Bool) (p : Prog) (s : State) : (takeFrom counts p s).waits = s.waits := by
  simp only [takeFrom]
  split <;> simp

@[simp] theorem takePicture_waits (p : Prog) (wasRunning : Bool) (s : State) : (takePicture p wasRunning s).2.waits = s.waits := by
  simp only [takePicture]
  split <;> simp

@[simp] theorem judgeInput_waits (p : Prog) (taken : Bool) (s : State) : (judgeInput p taken s).waits = s.waits := by
  simp only [judgeInput]
  repeat' split
  all_goals simp

@[simp] theorem beginPicture_waits (p : Prog) (type : PicType) (target : Nat) (c : CodeStart) (s : State) : (beginPicture p type target c s).waits = s.waits := by
  simp only [beginPicture]
  split <;> simp

@[simp] theorem decidePicture_waits (p : Prog) (taken : Bool) (c : CodeStart) (s : State) : (decidePicture p taken c s).waits = s.waits := by
  simp only [decidePicture]
  repeat' split
  all_goals simp

@[simp] theorem becomeRunning_waits (p : Prog) (s : State) : (becomeRunning p s).waits = s.waits := by
  simp [becomeRunning]

@[simp] theorem codeProgramme_waits (c : CodeStart) (p : Prog) (s : State) : (codeProgramme c p s).waits = s.waits := by
  simp only [codeProgramme]
  repeat' split
  all_goals simp

@[simp] theorem freezeHold_waits (c : CodeStart) (p : Prog) (s : State) : (freezeHold c p s).waits = s.waits := by
  simp only [freezeHold]
  repeat' split
  all_goals simp

@[simp] theorem takeCodeStart_waits (c : CodeStart) (s : State) : (takeCodeStart c s).waits = s.waits := by
  simp [takeCodeStart]

@[simp] theorem pictureStarts_waits (p : Prog) (s : State) : (pictureStarts p s).waits = s.waits := by
  simp [pictureStarts]

@[simp] theorem pictureBreaks_waits (p : Prog) (s : State) : (pictureBreaks p s).waits = s.waits := by
  simp [pictureBreaks]

@[simp] theorem returnInput_waits (p : Prog) (s : State) : (returnInput p s).waits = s.waits := by
  simp only [returnInput]
  split <;> simp

@[simp] theorem pictureCompletes_waits (p : Prog) (s : State) : (pictureCompletes p s).waits = s.waits := by
  simp only [pictureCompletes]
  split <;> simp

@[simp] theorem firstAllocated_waits (s : State) : (firstAllocated s).waits = s.waits := by
  simp [firstAllocated]

@[simp] theorem formatSet_waits (f : FormatFields) (s : State) : (formatSet f s).1.waits = s.waits := by
  simp only [formatSet]
  repeat' split
  all_goals simp

@[simp] theorem storeConfig_waits (p : Prog) (g : ProgConfig) (s : State) : (storeConfig p g s).waits = s.waits := by
  simp only [storeConfig]
  repeat' split
  all_goals simp

@[simp] theorem formPair_waits (p : Prog) (s : State) : (formPair p s).waits = s.waits := by
  simp [formPair]

@[simp] theorem dissolvePair_waits (p : Prog) (s : State) : (dissolvePair p s).waits = s.waits := by
  simp [dissolvePair]

@[simp] theorem programmeSet_waits (f : ProgFields) (s : State) : (programmeSet f s).1.waits = s.waits := by
  simp only [programmeSet]
  repeat' split
  all_goals simp

@[simp] theorem startProgramme_waits (m : Hdr) (p : Prog) (s : State) : (startProgramme m p s).waits = s.waits := by
  simp [startProgramme]

@[simp] theorem programmeStart_waits (m : Hdr) (n : Option Nat) (s : State) : (programmeStart m n s).1.waits = s.waits := by
  simp only [programmeStart]
  repeat' split
  all_goals simp

@[simp] theorem tellLeaves_waits (was : ProgState) (p : Prog) (s : State) : (tellLeaves was p s).waits = s.waits := by
  simp only [tellLeaves]
  split <;> simp

@[simp] theorem cutProgramme_waits (p : Prog) (flush : Bool) (s : State) : (cutProgramme p flush s).waits = s.waits := by
  simp only [cutProgramme]
  split <;> simp

@[simp] theorem programmeCut_waits (n : Option Nat) (flush : Bool) (s : State) : (programmeCut n flush s).1.waits = s.waits := by
  simp only [programmeCut]
  repeat' split
  all_goals simp

@[simp] theorem finishRunning_waits (m : Hdr) (p : Prog) (s : State) : (finishRunning m p s).1.waits = s.waits := by
  simp only [finishRunning]
  split <;> simp

theorem gentleStop_waits (n : Option Nat) (flush : Bool) (run : Prog → State → State × Reply)
    (h : ∀ p s, (run p s).1.waits = s.waits) (s : State) : (gentleStop n flush run s).1.waits = s.waits := by
  simp only [gentleStop]
  repeat' split
  all_goals simp [h]

@[simp] theorem programmeFinish_waits (m : Hdr) (n : Option Nat) (flush : Bool) (s : State) : (programmeFinish m n flush s).1.waits = s.waits := by
  exact gentleStop_waits _ _ _ (by simp) _

@[simp] theorem freezeRunning_waits (m : Hdr) (p : Prog) (s : State) : (freezeRunning m p s).1.waits = s.waits := by
  simp [freezeRunning]

@[simp] theorem programmeFreeze_waits (m : Hdr) (n : Option Nat) (flush : Bool) (s : State) : (programmeFreeze m n flush s).1.waits = s.waits := by
  exact gentleStop_waits _ _ _ (by simp) _

@[simp] theorem programmeStop_waits (m : Hdr) (n : Option Nat) (mode : Nat) (flush : Bool) (s : State) : (programmeStop m n mode flush s).1.waits = s.waits := by
  simp only [programmeStop]
  repeat' split
  all_goals simp

@[simp] theorem refreshCommand_waits (n : Option Nat) (s : State) : (refreshCommand n s).1.waits = s.waits := by
  simp only [refreshCommand]
  split <;> simp

@[simp] theorem homeRefresh_waits (p : Prog) (s : State) : (homeRefresh p s).waits = s.waits := by
  simp only [homeRefresh]
  split <;> simp

@[simp] theorem soundArrival_waits (k : Fin 32) (c : BlockNo) (samples : SoundBlock) (s : State) : (soundArrival k c samples s).waits = s.waits := by
  simp only [soundArrival]
  repeat' split
  all_goals simp

@[simp] theorem recompute_waits (k : Fin 32) (s : State) : (recompute k s).waits = s.waits := by
  simp [recompute]

@[simp] theorem triggerMarkIn_waits (i : Fin 4) (s : State) : (triggerMarkIn i s).waits = s.waits := by
  simp only [triggerMarkIn]
  split <;> simp

@[simp] theorem triggerMarkOut_waits (i : Fin 4) (s : State) : (triggerMarkOut i s).waits = s.waits := by
  simp only [triggerMarkOut]
  split <;> simp

@[simp] theorem triggerOpens_waits (i : Fin 4) (s : State) : (triggerOpens i s).waits = s.waits := by
  simp [triggerOpens]

@[simp] theorem triggerReleases_waits (i : Fin 4) (s : State) : (triggerReleases i s).waits = s.waits := by
  simp [triggerReleases]

@[simp] theorem armTrigger_waits (i : Fin 4) (run : Nat) (s : State) : (armTrigger i run s).waits = s.waits := by
  simp only [armTrigger]
  split <;> simp

@[simp] theorem releaseTrigger_waits (i : Fin 4) (run : Nat) (s : State) : (releaseTrigger i run s).waits = s.waits := by
  simp only [releaseTrigger]
  split <;> simp

@[simp] theorem stepTrigger_waits (i : Fin 4) (s : State) : (stepTrigger i s).waits = s.waits := by
  simp only [stepTrigger]
  repeat' split
  all_goals simp

@[simp] theorem takeAnswer_waits (i : Fin 4) (clip : Option Nat) (s : State) : (takeAnswer i clip s).waits = s.waits := by
  simp only [takeAnswer]
  repeat' split
  all_goals simp

@[simp] theorem answerTrigger_waits (i : Fin 4) (s : State) : (answerTrigger i s).waits = s.waits := by
  simp only [answerTrigger]
  split <;> simp

@[simp] theorem mixBlock_waits (n : BlockNo) (s : State) : (mixBlock n s).2.waits = s.waits := by
  simp [mixBlock]

@[simp] theorem skipTo_waits (n : BlockNo) (s : State) : (skipTo n s).waits = s.waits := by
  simp [skipTo]

@[simp] theorem mixEvent_waits (m : BlockNo) (s : State) : (mixEvent m s).2.waits = s.waits := by
  simp only [mixEvent]
  repeat' split
  all_goals simp

@[simp] theorem blockWork_waits (m : BlockNo) (s : State) : (blockWork m s).waits = s.waits := by
  simp [blockWork]

@[simp] theorem inputSet_waits (f : InputFields) (s : State) : (inputSet f s).1.waits = s.waits := by
  simp only [inputSet]
  repeat' split
  all_goals simp

@[simp] theorem setCross_waits (k : Fin 32) (b : Fin 8) (cross : Nat) (s : State) : (setCross k b cross s).waits = s.waits := by
  simp [setCross]

@[simp] theorem mixSet_waits (entries : List MixEntry) (s : State) : (mixSet entries s).1.waits = s.waits := by
  simp only [mixSet]
  split <;> simp

@[simp] theorem storeGroups_waits (groups : Table 8 Bool) (s : State) : (storeGroups groups s).waits = s.waits := by
  simp [storeGroups]

@[simp] theorem storeBus_waits (f : BusFields) (b : Option (Fin 8)) (s : State) : (storeBus f b s).waits = s.waits := by
  simp only [storeBus]
  split <;> simp

@[simp] theorem busSet_waits (f : BusFields) (s : State) : (busSet f s).1.waits = s.waits := by
  simp only [busSet]
  repeat' split
  all_goals simp

@[simp] theorem storeTrigger_waits (i : Fin 4) (new : Trigger) (s : State) : (storeTrigger i new s).waits = s.waits := by
  simp only [storeTrigger]
  split <;> simp

@[simp] theorem triggerSet_waits (f : TriggerFields) (s : State) : (triggerSet f s).1.waits = s.waits := by
  simp only [triggerSet]
  repeat' split
  all_goals simp

@[simp] theorem timebaseSet_waits (f : TimebaseFields) (s : State) : (timebaseSet f s).1.waits = s.waits := by
  simp only [timebaseSet]
  split <;> simp

@[simp] theorem inputMap_waits (f : MapFields) (s : State) : (inputMap f s).1.waits = s.waits := by
  simp only [inputMap]
  repeat' split
  all_goals simp [Ring.storeMap]

@[simp] theorem clearRefused_waits (s : State) : (clearRefused s).waits = s.waits := by
  simp [clearRefused]

@[simp] theorem clearIf_waits (clear : Bool) (f : State → State) (h : ∀ s, (f s).waits = s.waits) (s : State) :
    (clearIf clear f s).waits = s.waits := by
  simp only [clearIf]
  split <;> simp [h]

@[simp] theorem answerObject_waits {n : Nat} (o : Option (Fin n)) (f : Fin n → State × Reply) (s : State)
    (h : ∀ i, (f i).1.waits = s.waits) : (answerObject o f s).1.waits = s.waits := by
  simp only [answerObject]
  split <;> simp [h]

@[simp] theorem State.withLinks_waits (s : State) (t : Table 4 LinkRecord) : ({ s with lsu := t } : State).waits = s.waits :=
  rfl


@[simp] theorem answerWith_waits (r : Results) (s : State) : (answerWith r s).1.waits = s.waits := by
  simp [answerWith]

@[simp] theorem queryMixer_waits (object : Option (Nat × List Nat)) (s : State) : (queryMixer object s).1.waits = s.waits := by
  simp only [queryMixer]
  split <;> simp

@[simp] theorem queryBlock_waits (b : Nat) (object : Option (Nat × List Nat)) (clear : Bool) (s : State) : (queryBlock b object clear s).1.waits = s.waits := by
  simp only [queryBlock]
  split
  all_goals first
    | rfl
    | (simp; done)
    | exact clearIf_waits clear _ (by intro; rfl) s
    | (refine answerObject_waits _ _ _ fun l => ?_
       exact clearIf_waits clear _ (by intro; rfl) s)

@[simp] theorem statusQuery_waits (f : QueryFields) (s : State) : (statusQuery f s).1.waits = s.waits := by
  simp only [statusQuery]
  split <;> simp

@[simp] theorem eventsClear_waits (l : ClearList) (s : State) : (eventsClear l s).1.waits = s.waits := by
  simp only [eventsClear]
  repeat' split
  all_goals simp

@[simp] theorem ignoreHome_waits (s : State) : (ignoreHome s).waits = s.waits := by
  simp [ignoreHome]

theorem tellLabel_waits (f : Nat → State → State) (h : ∀ n s, (f n s).waits = s.waits) (p : Packet) (s : State) :
    (tellLabel f p s).waits = s.waits := by
  simp only [tellLabel]
  split <;> simp [h]

@[simp] theorem handOver_waits (l : Link) (t : Slot) (s : State) : (handOver l t s).waits = s.waits := by
  simp [handOver, tellLabel_waits _ labelTaken_waits]

@[simp] theorem takenReport_waits (l : Link) (epoch : Epoch) (seq : Seq) (s : State) : (takenReport l epoch seq s).waits = s.waits := by
  simp only [takenReport]
  repeat' split
  all_goals simp

@[simp] theorem retireEntry_waits (l : Link) (e : InFlight) (s : State) : (retireEntry l e s).waits = s.waits := by
  simp only [retireEntry]
  split <;> simp [tellLabel_waits _ labelRetired_waits]

@[simp] theorem retire_waits (l : Link) (k : Nat) (a : Seq) (s : State) : (retire l k a s).waits = s.waits := by
  simp only [retire]
  split <;> simp

@[simp] theorem ackLink_waits (l : Link) (epoch : Epoch) (a : Seq) (s : State) : (ackLink l epoch a s).waits = s.waits := by
  simp only [ackLink]
  repeat' split
  all_goals simp

@[simp] theorem ackPacket_waits (n : Byte) (epoch : Epoch) (a : Seq) (s : State) : (ackPacket n epoch a s).waits = s.waits := by
  simp only [ackPacket]
  split <;> simp

@[simp] theorem refreshReturn_waits (n : Byte) (s : State) : (refreshReturn n s).waits = s.waits := by
  simp only [refreshReturn]
  split <;> simp

@[simp] theorem modemReport_waits (l : Link) (r : ModemReport) (s : State) : (modemReport l r s).waits = s.waits := by
  simp only [modemReport]
  split <;> simp

@[simp] theorem countUnrouted_waits (s : State) : (countUnrouted s).waits = s.waits := by
  simp [countUnrouted]

@[simp] theorem countWrongKind_waits (s : State) : (countWrongKind s).waits = s.waits := by
  simp [countWrongKind]

theorem route_waits (i : RingStream) (use : Dest → Option (State → State))
    (h : ∀ d f, use d = some f → ∀ s, (f s).waits = s.waits) (s : State) : (route i use s).waits = s.waits := by
  simp only [route]
  split
  · simp
  · split
    · rename_i f h2
      exact h _ f h2 s
    · simp

@[simp] theorem setPartial_waits (i : RingStream) (p : Option Assembling) (s : State) : (setPartial i p s).waits = s.waits := by
  simp [setPartial]

@[simp] theorem discardAssembly_waits (s : State) : (discardAssembly s).waits = s.waits := by
  simp [discardAssembly]

@[simp] theorem takeTally_waits (t : Table 4 Bool) (s : State) : (takeTally t s).waits = s.waits := by
  simp [takeTally]

@[simp] theorem soundCell_waits (i : RingStream) (c : BlockNo) (samples : SoundBlock) (s : State) : (soundCell i c samples s).waits = s.waits := by
  simp only [soundCell]
  exact route_waits _ _ (by intro d f h s; split at h <;> simp at h <;> subst h <;> simp) _

@[simp] theorem tallyCell_waits (i : RingStream) (count : Byte) (body : List Byte) (s : State) : (tallyCell i count body s).waits = s.waits := by
  simp only [tallyCell]
  split
  · rfl
  · exact route_waits _ _ (by intro d f h s; split at h <;> simp at h <;> subst h <;> simp) _

@[simp] theorem otherCell_waits (i : RingStream) (kind : Byte) (s : State) : (otherCell i kind s).waits = s.waits := by
  simp only [otherCell]
  split
  · exact route_waits _ _ (by simp) _
  · simp

@[simp] theorem fillSlot_van (s : State) : (fillSlot s).cmu.van = s.cmu.van := by
  simp only [fillSlot]
  split <;> rfl

@[simp] theorem fillSlot_home (s : State) : (fillSlot s).cmu.home = s.cmu.home := by
  simp only [fillSlot]
  split <;> rfl

@[simp] theorem codeStartIfDue_waits (s : State) : (codeStartIfDue s).waits = s.waits := by
  simp only [codeStartIfDue]
  split <;> simp

@[simp] theorem blockIfDue_waits (s : State) : (blockIfDue s).waits = s.waits := by
  simp only [blockIfDue]
  split <;> simp

@[simp] theorem deadlineIfDue_waits (l : Link) (s : State) : (deadlineIfDue l s).waits = s.waits := by
  simp only [deadlineIfDue]
  split <;> simp

@[simp] theorem retryIfDue_waits (l : Link) (s : State) : (retryIfDue l s).waits = s.waits := by
  simp only [retryIfDue]
  split <;> simp

@[simp] theorem probeIfDue_waits (l : Link) (s : State) : (probeIfDue l s).waits = s.waits := by
  simp only [probeIfDue]
  split <;> simp

@[simp] theorem recoveryIfDue_waits (l : Link) (s : State) : (recoveryIfDue l s).waits = s.waits := by
  simp only [recoveryIfDue]
  split <;> simp

@[simp] theorem windowIfDue_waits (l : Link) (s : State) : (windowIfDue l s).waits = s.waits := by
  simp only [windowIfDue]
  split <;> simp

@[simp] theorem timeoutIfDue_waits (l : Link) (s : State) : (timeoutIfDue l s).waits = s.waits := by
  simp only [timeoutIfDue]
  split <;> simp

@[simp] theorem timersIfDue_waits (l : Link) (s : State) : (timersIfDue l s).waits = s.waits := by
  simp [timersIfDue]

end Sys2Proof.Machine
end

