-- ==== Sys2Proof/Laws/Events.lean ====
section
/-! SUPPORT. The events with nothing else due, the period start's deliveries while no home command waits, and the
induction over all commands for a property of what `State.fixed` names. -/

namespace Sys2Proof.Machine

theorem vanOf {s t : State} (h : s.waits = t.waits) : s.cmu.van = t.cmu.van := congrArg (·.1) h
theorem homeOf {s t : State} (h : s.waits = t.waits) : s.cmu.home = t.cmu.home := congrArg (·.2.1) h

theorem fixed_eq {s t : State} (h : s.fixed = t.fixed) :
    s.pending = t.pending ∧ s.tbu = t.tbu ∧ s.sri.table = t.sri.table ∧ s.sri.output = t.sri.output := by
  simpa [State.fixed] using h

/-! ### Nothing else due -/

theorem catchUp_nothing {s : State} (h : NothingDue s) : catchUp s = s := by
  obtain ⟨h1, h2, h3, h4⟩ := h
  have t : ∀ l, timersIfDue l s = s := by
    intro l
    obtain ⟨a, b, c, d, e, f⟩ := h4 l
    simp [timersIfDue, deadlineIfDue, retryIfDue, probeIfDue, recoveryIfDue, windowIfDue, timeoutIfDue, a, b, c, d, e, f]
  have c : ∀ n, codeStartsDue n s = s := by
    intro n; cases n <;> simp [codeStartsDue, h2]
  simp [catchUp, periodIfDue, h1, c, blockIfDue, h3, four, t]

theorem caughtUp_nothing {s : State} (h : NothingDue s) (q : Quiet s) : caughtUp s = s := by
  rw [caughtUp, catchUp_nothing h, finish_quiet q]

theorem quiet_of {s t : State} (q : Quiet s) (h1 : t.hsc = s.hsc) (h2 : t.cmu.van = s.cmu.van)
    (h3 : t.cmu.home = s.cmu.home) : Quiet t := by
  refine ⟨fun l => ?_, by rw [h2]; exact q.2.1, by rw [h3]; exact q.2.2⟩
  have := q.1 l
  simp only [sched] at *
  rw [h1]; exact this

/-! ### The period start while no home command waits -/

theorem serveHome_nil (n : Nat) {s : State} (h : s.cmu.home = []) : serveHome n s = s := by
  cases n <;> simp [serveHome, h]

theorem offerHome_home (tag : Byte) (body : List Byte) {s : State} (h : s.cmu.home = []) : (offerHome tag body s).cmu.home = [] := by
  have hw := request_waits .labelReply (blocksFor (Config.packetHeaderBytes + body.length))
    (s.onCmu fun c => { c with held := some { tag := tag, bytes := body } })
  simp only [offerHome]
  split <;> rename_i h2 <;> rw [h2] at hw
  · have := homeOf hw
    have h4 := homeOf (appendPackets_waits .reply [replyPacket (some tag) body ‹_› s.tbu.tick] ‹State›)
    simp only at this h4
    simp [leaveHome, h4, this, h]
  · have := homeOf hw
    simp at this
    simp [this, h]

theorem offerHome_van (tag : Byte) (body : List Byte) (s : State) : (offerHome tag body s).cmu.van = s.cmu.van := by
  have hw := request_waits .labelReply (blocksFor (Config.packetHeaderBytes + body.length))
    (s.onCmu fun c => { c with held := some { tag := tag, bytes := body } })
  simp only [offerHome]
  split <;> rename_i h2 <;> rw [h2] at hw
  · have := vanOf hw
    have h4 := vanOf (appendPackets_waits .reply [replyPacket (some tag) body ‹_› s.tbu.tick] ‹State›)
    simp only at this h4
    simp [leaveHome, h4, this]
  · have := vanOf hw
    simp at this
    simp [this]

theorem retryHome_empty {s : State} (h : s.cmu.home = []) :
    (retryHome s).fixed = s.fixed ∧ (retryHome s).cmu.home = [] ∧ (retryHome s).cmu.van = s.cmu.van := by
  have key : (retryHeld s).fixed = s.fixed ∧ (retryHeld s).cmu.home = [] ∧ (retryHeld s).cmu.van = s.cmu.van := by
    simp only [retryHeld]
    split
    · exact ⟨rfl, h, rfl⟩
    · rw [serveHome_nil _ (offerHome_home _ _ h)]
      exact ⟨offerHome_fixed .., offerHome_home _ _ h, offerHome_van ..⟩
  simp only [retryHome]
  split
  · refine ⟨(sendHomeNotices_fixed ..).trans key.1, ?_, ?_⟩
    · exact (homeOf (sendHomeNotices_waits ..)).trans key.2.1
    · exact (vanOf (sendHomeNotices_waits ..)).trans key.2.2
  · exact key

theorem deliver_empty {s : State} (h : s.cmu.home = []) :
    (deliverPeriod s).fixed = s.fixed ∧ (deliverPeriod s).cmu.home = [] ∧ (deliverPeriod s).cmu.van = s.cmu.van := by
  simp only [deliverPeriod]
  have hw := homeOf (retryLabels_waits (countPostRoll (allocation ((s.tbu.period.map (·.length)).getD 0) (firstAllocated s))).clm.waiting.length (countPostRoll (allocation ((s.tbu.period.map (·.length)).getD 0) (firstAllocated s))))
  have hv := vanOf (retryLabels_waits (countPostRoll (allocation ((s.tbu.period.map (·.length)).getD 0) (firstAllocated s))).clm.waiting.length (countPostRoll (allocation ((s.tbu.period.map (·.length)).getD 0) (firstAllocated s))))
  have e : (countPostRoll (allocation ((s.tbu.period.map (·.length)).getD 0) (firstAllocated s))).waits = s.waits := by simp
  have k := retryHome_empty (hw.trans ((homeOf e).trans h))
  refine ⟨k.1.trans (by simp), k.2.1, k.2.2.trans (hv.trans (vanOf e))⟩

theorem startPeriod_after {s : State} (hv : s.cmu.van = []) (hh : s.cmu.home = []) :
    (finish (startPeriod s)).fixed = (s.onTbu Timebase.startPeriod).fixed := by
  have k := deliver_empty (s := s.onTbu Timebase.startPeriod) hh
  rw [startPeriod, finish_empty (k.2.2.trans hv) k.2.1]
  simp [k.1]

/-! ### A property of what `State.fixed` names, kept by every command -/

/-- What keeps a property of the waiting commands, the Timebase Unit, the acceptance table and the output stream. -/
structure Keeper (P : State → Prop) : Prop where
  only : ∀ s t : State, s.fixed = t.fixed → P s → P t
  period : ∀ s, P s → P (s.onTbu Timebase.startPeriod)
  code : ∀ s, P s → P (s.onTbu fun t => { t with codeStarts := t.codeStarts.tail })
  block : ∀ s, P s → P (s.onTbu fun t => { t with blockDue := false })
  frame : ∀ e s, P s → P (s.onTbu fun _ => (s.tbu.frameStart e).1)
  missed : ∀ s, P s → P (s.onTbu fun _ => s.tbu.frameMissed.1)
  tick : ∀ s, P s → P (s.onTbu Timebase.localTick)
  timebase : ∀ f s, P s → P (s.onTbu (·.setFields f))
  map : ∀ f s, P s → P (inputMap f s).1
  reset : ∀ s, P s → P (resetBlocks s)

namespace Keeper
variable {P : State → Prop} (K : Keeper P) {s : State}
include K

theorem same {t : State} (h : t.fixed = s.fixed) (hp : P s) : P t := K.only s t h.symm hp

theorem timebaseSet (f : TimebaseFields) (hp : P s) : P (Machine.timebaseSet f s).1 := by
  simp only [Machine.timebaseSet]
  split
  · exact hp
  · exact K.same (by simp) (K.timebase f s hp)

theorem perform (m : Msg) (c : Command) (hp : P s) : P (Machine.perform m c s).1 := by
  cases c
  case timebaseSet f => exact K.timebaseSet f hp
  case inputMap f => exact K.map f s hp
  case reset n =>
    obtain _ | _ | n := n
    · exact hp
    · exact K.same (resetMediaBlocks_fixed _ _) hp
    · exact hp
  all_goals exact K.same (by simp [Machine.perform]) hp

theorem answer (m : Msg) (hp : P s) : P (Machine.answer m s).1 := by
  simp only [Machine.answer]
  split
  · exact K.same (by simp) hp
  · exact hp
  · split
    · exact hp
    · exact K.perform _ _ hp

theorem resetAll (m : Msg) (hp : P s) : P (Machine.resetAll m s) :=
  K.same (State.onSri_fixed _ _ rfl rfl) (K.reset s hp)

theorem dispatchVan (m : Msg) (hp : P s) : P (Machine.dispatchVan m s) := by
  simp only [Machine.dispatchVan]
  split
  · exact K.resetAll m hp
  · exact K.same (by simp) (K.answer m hp)

theorem dispatchHome (m : Msg) (hp : P s) : P (Machine.dispatchHome m s) := by
  simp only [Machine.dispatchHome]
  split
  · exact K.resetAll m hp
  · exact K.same (by simp) (K.answer m hp)

theorem serveVan (n : Nat) (hp : P s) : P (Machine.serveVan n s) := by
  induction n generalizing s with
  | zero => exact hp
  | succ n ih =>
    simp only [Machine.serveVan]
    repeat' split
    · exact hp
    · exact ih (K.dispatchVan _ hp)
    · exact hp

theorem serveHome (n : Nat) (hp : P s) : P (Machine.serveHome n s) := by
  induction n generalizing s with
  | zero => exact hp
  | succ n ih =>
    simp only [Machine.serveHome]
    split
    · exact ih (K.dispatchHome _ hp)
    · exact hp

theorem finish (hp : P s) : P (Machine.finish s) :=
  K.same (settleTakes_fixed _) (K.serveHome _ (K.serveVan _ hp))

theorem retryHome (hp : P s) : P (Machine.retryHome s) := by
  have h1 : P (Machine.retryHeld s) := by
    simp only [Machine.retryHeld]
    split
    · exact hp
    · exact K.serveHome _ (K.same (by simp) hp)
  simp only [Machine.retryHome]
  split
  · exact K.same (by simp) h1
  · exact h1

theorem startPeriod (hp : P s) : P (Machine.startPeriod s) :=
  K.retryHome (K.same (by simp) (K.period s hp))

theorem periodIfDue (hp : P s) : P (Machine.periodIfDue s) := by
  simp only [Machine.periodIfDue]
  split
  · exact K.startPeriod hp
  · exact hp

theorem codeStartIfDue (hp : P s) : P (Machine.codeStartIfDue s) := by
  simp only [Machine.codeStartIfDue]
  split
  · exact K.same (by simp) (K.code s hp)
  · exact hp

theorem codeStartsDue (n : Nat) (hp : P s) : P (Machine.codeStartsDue n s) := by
  induction n generalizing s with
  | zero => exact hp
  | succ n ih =>
    simp only [Machine.codeStartsDue]
    split
    · exact ih (K.codeStartIfDue hp)
    · exact hp

theorem blockIfDue (hp : P s) : P (Machine.blockIfDue s) := by
  simp only [Machine.blockIfDue]
  split
  · exact K.same (by simp) (K.block s hp)
  · exact hp

theorem caughtUp (hp : P s) : P (Machine.caughtUp s) :=
  K.finish (K.same (foldl_fixed _ (fun s l => timersIfDue_fixed l s) _ _)
    (K.blockIfDue (K.codeStartsDue _ (K.periodIfDue hp))))

theorem takeCommand (h : Hdr) (c : Command) (hp : P s) : P (Machine.takeCommand h c s) :=
  K.finish (K.same (by simp) hp)

/-- Every command keeps the property. -/
theorem exec (c : Instr) {t : State} (h : Machine.exec c s = .next t) (hp : P s) : P t := by
  cases c <;> simp only [Machine.exec] at h <;> injection h with h <;> subst h
  case powerOnReset => exact K.reset s hp
  case ringFrameStart e =>
    apply K.finish
    have h1 : P (fillSlot (Machine.caughtUp s)) := K.same (by simp) (K.caughtUp hp)
    have h2 := K.frame e _ h1
    simp only [ringFrame]
    split
    · exact K.startPeriod h2
    · exact h2
  case missedFrame =>
    apply K.finish
    have h2 := K.missed _ (K.caughtUp hp)
    simp only [missFrame]
    split
    · exact K.same (by simp) h2
    · exact h2
  case localTick => exact K.finish (K.tick _ (K.caughtUp hp))
  case periodStart => exact K.finish (K.periodIfDue hp)
  case codeStart => exact K.finish (K.codeStartIfDue hp)
  case blockEvent => exact K.finish (K.blockIfDue hp)
  case fragmentClose | bandCompletion | pictureStartSignal | pictureEndComplete | pictureEndBroken | soundCell |
      tallyCell | controlFirstCell | controlContinuationCell | unroutedCell | unknownCommand | ack | refreshPacket |
      controlPacket | capacityReport | faultReport | takenReport | probeBuild | provingDeadline | retryExpiry |
      recoveryExpiry | windowEnd | ackTimeout | triggerAnswer | ignoredReturnPacket | ignoredModemReport =>
    exact K.finish (K.same (by simp) hp)
  all_goals exact K.takeCommand _ _ hp

end Keeper

end Sys2Proof.Machine
end

