-- ==== Sys2Proof/Laws/Pool.lean ====
section
/-! SUPPORT. What the Packet Pool's operations do (R146 to R150): grants, refusals, releases, and the reservations that a
flush ends. -/

namespace Sys2Proof.Machine

/-- A release changes the free list and the owner's count alone. -/
theorem Pool.release_only (k : Pool) (o : Owner) (bs : List Nat) :
    k.release o bs = { k with
      free := k.free ++ bs
      owners := k.owners.modify o.idx fun r => { r with count := r.count - bs.length } } := rfl

theorem Pool.releasePacket_queue (k : Pool) (p : Packet) (c : QueueClass) : (k.releasePacket p).queue c = k.queue c := by
  simp only [Pool.releasePacket]
  split <;> cases c <;> rfl

/-- The packets of one owner are released one block list after another (R150). -/
theorem Pool.releasePackets_owned {o : Owner} (ps : List Packet) (h : ∀ p ∈ ps, p.owner = some o) (k : Pool) :
    k.releasePackets ps = { k with
      free := k.free ++ (ps.map (·.blocks)).flatten
      owners := k.owners.modify o.idx fun r => { r with count := r.count - (ps.map (·.blocks)).flatten.length } } := by
  induction ps generalizing k with
  | nil => simp [Pool.releasePackets]
  | cons a ps ih =>
    have ha := h a (List.mem_cons_self ..)
    simp only [Pool.releasePackets] at *
    rw [List.foldl_cons, ih (fun p hp => h p (List.mem_cons_of_mem _ hp))]
    simp [Pool.releasePacket, ha, Pool.release, Nat.sub_sub]

/-- Packets that are released leave the class queues as they are. -/
theorem Pool.releasePackets_queue (k : Pool) (ps : List Packet) (c : QueueClass) :
    (k.releasePackets ps).queue c = k.queue c := by
  induction ps generalizing k with
  | nil => rfl
  | cons p ps ih => exact (ih _).trans (Pool.releasePacket_queue k p c)

/-- A grant takes `n` blocks from the head of the free list and counts them to the owner (R146, R147, R148). -/
theorem Pool.grant_some {k k' : Pool} {o : Owner} {n : Nat} {bs : List Nat} (h : k.grant o n = some (bs, k')) :
    n ≤ k.free.length ∧ (k.owners.get o.idx).count + n ≤ (k.owners.get o.idx).cap ∧ bs = k.free.take n ∧
      k' = { k with
        free := k.free.drop n
        owners := k.owners.set o.idx { k.owners.get o.idx with count := (k.owners.get o.idx).count + n } } := by
  simp only [Pool.grant] at h
  split at h
  · rename_i hc
    simp only [Option.some.injEq, Prod.mk.injEq] at h
    exact ⟨hc.1, hc.2, h.1.symm, h.2.symm⟩
  · exact absurd h (by simp)

/-- The removal of packets of no reserved slice ends no reservation (R157, R168). -/
theorem endReservations_none {gone : List Packet} {s : State}
    (h : ∀ (l : Link) (r : Reservation), (s.hsc.links.get l).reservation = some r → r.loses gone = false) :
    endReservations gone s = s := by
  have h1 : (four.any fun l => ((s.hsc.links.get l).reservation.map (·.loses gone)).getD false) = false := by
    rw [List.any_eq_false]
    intro l _
    cases hr : (s.hsc.links.get l).reservation with
    | none => simp
    | some r => simp [h l r hr]
  have h2 : (s.hsc.links.map fun k => { k with reservation := k.reservation.filter fun r => !r.loses gone }) =
      s.hsc.links := by
    apply Table.ext_get
    intro l
    rw [Table.get_map]
    have : (s.hsc.links.get l).reservation.filter (fun r => !r.loses gone) = (s.hsc.links.get l).reservation := by
      cases hr : (s.hsc.links.get l).reservation with
      | none => rfl
      | some r => simp [h l r hr]
    rw [this]
  simp only [endReservations, h1, State.onHsc, h2]
  rfl

end Sys2Proof.Machine
end

