-- ==== Sys2Proof/Laws/Commands.lean ====
section
/-! SUPPORT. What the shared operations of the setting commands do: clamped fields, retargeted streams, and the outcome of a
command that finds its way free. -/

namespace Sys2Proof.Machine

/-! ### Clamped fields -/

theorem getD_clamp (lo hi stored : Nat) (v : Option Nat) (h : lo ≤ hi) :
    (v.map (clampNat lo hi)).getD stored = loaded lo hi stored v := by
  cases v with
  | none => rfl
  | some v =>
    simp only [Option.map_some, Option.getD_some, clampNat, loaded]
    split_ifs <;> omega

theorem clampedBy_outside (lo hi : Nat) (v : Option Nat) (h : lo ≤ hi) : clampedBy lo hi v = outside lo hi v := by
  cases v with
  | none => rfl
  | some v =>
    simp only [clampedBy, clampNat, outside, Option.map_some, Option.getD_some]
    by_cases h1 : v < lo <;> by_cases h2 : hi < v <;> simp_all
    all_goals omega

theorem doneIf_code (b : Bool) : byteOf (doneIf b).code = doneCode b := by cases b <;> rfl

/-! ### Streams retargeted (R110) -/

theorem retargetWhere_only (w : SoundStream → Bool) (s : State) :
    retargetWhere w s = { s with sdp := (retargetWhere w s).sdp } := by
  have : ∀ (l : List (Fin 4)) (s : State), l.foldl (fun s i => retarget i s) s =
      { s with sdp := (l.foldl (fun s i => retarget i s) s).sdp } := by
    intro l
    induction l with
    | nil => intro s; rfl
    | cons a l ih => intro s; rw [List.foldl_cons, ih]; rfl
  exact this _ s

theorem targetDelay_congr {s t : State} (h1 : s.pgc = t.pgc) (h2 : s.tbu = t.tbu) (k : SoundStream) :
    targetDelay s k = targetDelay t k := by
  cases s; cases t; subst h1 h2; rfl

theorem retargetWhere_get (w : SoundStream → Bool) (s : State) (i : Fin 4) :
    (retargetWhere w s).sdp.get i =
      if w (s.sdp.get i) then { s.sdp.get i with target := targetDelay s (s.sdp.get i) } else s.sdp.get i := by
  have key : ∀ (l : List (Fin 4)) (u : State), l.Nodup → u.pgc = s.pgc → u.tbu = s.tbu →
      (l.foldl (fun s i => retarget i s) u).sdp.get i =
        if i ∈ l then { u.sdp.get i with target := targetDelay s (u.sdp.get i) } else u.sdp.get i := by
    intro l
    induction l with
    | nil => intro u _ _ _; simp
    | cons a l ih =>
      intro u hn h1 h2
      rw [List.nodup_cons] at hn
      rw [List.foldl_cons, ih _ hn.2 (by exact h1) (by exact h2)]
      have hd := targetDelay_congr h1 h2 (u.sdp.get a)
      by_cases hia : i = a
      · subst hia
        simp [hn.1, retarget, State.onStream, hd]
      · have : a ≠ i := fun h => hia h.symm
        simp [hia, retarget, State.onStream, Table.get_modify, this]
  have := key (four.filter fun i => w (s.sdp.get i)) s (by exact List.Nodup.filter _ (by decide)) rfl rfl
  rw [retargetWhere, this]
  simp [List.mem_filter]

/-! ### The owner reads the state as it stood -/

@[simp] theorem atHead_prog (h : Hdr) (c : Command) (s : State) (p : Prog) : prog (atHead h c s) p = prog s p := rfl
@[simp] theorem atHead_loopOf (h : Hdr) (c : Command) (s : State) (p : Prog) : loopOf (atHead h c s) p = loopOf s p := rfl
@[simp] theorem atHead_entryOf (h : Hdr) (c : Command) (s : State) (p : Prog) : entryOf (atHead h c s) p = entryOf s p := rfl
@[simp] theorem atHead_formatOf (h : Hdr) (c : Command) (s : State) (p : Prog) : formatOf (atHead h c s) p = formatOf s p := rfl
@[simp] theorem atHead_rateOf (h : Hdr) (c : Command) (s : State) (p : Prog) : rateOf (atHead h c s) p = rateOf s p := rfl
@[simp] theorem atHead_inputOf (h : Hdr) (c : Command) (s : State) (k : Fin 32) : inputOf (atHead h c s) k = inputOf s k := rfl
@[simp] theorem atHead_crossOf (h : Hdr) (c : Command) (s : State) (k : Fin 32) (b : Fin 8) : crossOf (atHead h c s) k b = crossOf s k b := rfl
@[simp] theorem atHead_busOf (h : Hdr) (c : Command) (s : State) (b : Fin 8) : busOf (atHead h c s) b = busOf s b := rfl
@[simp] theorem atHead_triggerOf (h : Hdr) (c : Command) (s : State) (i : Fin 4) : triggerOf (atHead h c s) i = triggerOf s i := rfl
@[simp] theorem atHead_sched (h : Hdr) (c : Command) (s : State) (l : Link) : sched (atHead h c s) l = sched s l := rfl
@[simp] theorem atHead_link (h : Hdr) (c : Command) (s : State) (l : Link) : link (atHead h c s) l = link s l := rfl
@[simp] theorem atHead_clipOf (h : Hdr) (c : Command) (s : State) (n : Nat) : clipOf (atHead h c s) n = clipOf s n := rfl
@[simp] theorem atHead_fold (h : Hdr) (c : Command) (s : State) (p : Prog) : fold (atHead h c s) p = fold s p := rfl
@[simp] theorem atHead_isPairedOdd (h : Hdr) (c : Command) (s : State) (p : Prog) : isPairedOdd (atHead h c s) p = isPairedOdd s p := rfl
@[simp] theorem atHead_formatInUse (h : Hdr) (c : Command) (s : State) (e : Fin 8) : formatInUse (atHead h c s) e = formatInUse s e := rfl
@[simp] theorem atHead_isMapped (h : Hdr) (c : Command) (s : State) (k : Fin 32) : isMapped (atHead h c s) k = isMapped s k := rfl
@[simp] theorem atHead_foldSet (h : Hdr) (c : Command) (s : State) (t : Table 4 Bool) : foldSet (atHead h c s) t = foldSet s t := rfl
@[simp] theorem atHead_flagRec (h : Hdr) (c : Command) (s : State) (f : EventFlag) : flagRec (atHead h c s) f = flagRec s f := rfl
@[simp] theorem atHead_pending (h : Hdr) (c : Command) (s : State) : (atHead h c s).pending = s.pending := rfl
@[simp] theorem atHead_tbu (h : Hdr) (c : Command) (s : State) : (atHead h c s).tbu = s.tbu := rfl
@[simp] theorem atHead_ports (h : Hdr) (c : Command) (s : State) : (atHead h c s).ports = s.ports := rfl
@[simp] theorem atHead_pgc (h : Hdr) (c : Command) (s : State) : (atHead h c s).pgc = s.pgc := rfl
@[simp] theorem atHead_cde (h : Hdr) (c : Command) (s : State) : (atHead h c s).cde = s.cde := rfl
@[simp] theorem atHead_ral (h : Hdr) (c : Command) (s : State) : (atHead h c s).ral = s.ral := rfl
@[simp] theorem atHead_smx (h : Hdr) (c : Command) (s : State) : (atHead h c s).smx = s.smx := rfl
@[simp] theorem atHead_sdp (h : Hdr) (c : Command) (s : State) : (atHead h c s).sdp = s.sdp := rfl
@[simp] theorem atHead_clm (h : Hdr) (c : Command) (s : State) : (atHead h c s).clm = s.clm := rfl
@[simp] theorem atHead_pkp (h : Hdr) (c : Command) (s : State) : (atHead h c s).pkp = s.pkp := rfl
@[simp] theorem atHead_hsc (h : Hdr) (c : Command) (s : State) : (atHead h c s).hsc = s.hsc := rfl
@[simp] theorem atHead_lsu (h : Hdr) (c : Command) (s : State) : (atHead h c s).lsu = s.lsu := rfl
@[simp] theorem atHead_sri (h : Hdr) (c : Command) (s : State) : (atHead h c s).sri = s.sri := rfl

/-- R33 in numbers: the odd member of a formed pair stands for the even one. -/
theorem fold_eq (s : State) (p : Prog) : fold s p = (if p.val % 2 = 1 ∧ (prog s (p - 1)).pair = true then p - 1 else p) := by
  fin_cases p <;> simp [fold, isPairedOdd, isOdd, pairFormed, evenOf]

/-! ### Outcomes -/

/-- `takeCommand_done` for an owner that asks for no take attempt and leaves the queues alone. -/
theorem van_done {h : Hdr} {i : RingStream} {s u : State} (hr : VanReady h i s) {c : Command} {r : Reply}
    (hp : perform (headOf h c) c (atHead h c s) = (atHead h c u, r))
    (hl : listsFit c = true := by rfl) (hc : c ≠ .reset 2 := by simp)
    (ho : NoOwed u := by exact hr.1.1) (hv : u.cmu.van = [] := by exact hr.1.2.1) (hh : u.cmu.home = [] := by exact hr.1.2.2) :
    takeCommand h c s =
      { u with sri := ringReply u.sri h i (commandKind c) (byteOf r.status.code) r.results } :=
  takeCommand_done hr hl hc hp ho hv hh

theorem objectOf_none {k : Nat} {n : Option Nat} (h : n = none ∨ ∃ v, n = some v ∧ k ≤ v) : objectOf k n = none := by
  obtain rfl | ⟨v, rfl, hv⟩ := h
  · rfl
  · simp [objectOf, finOf]; omega

theorem objectOf_some {k : Nat} {n : Option Nat} {p : Fin k} (h : n = some p.val) : objectOf k n = some p := by
  subst h; simp [objectOf, finOf]

theorem active_true (t : ProgState) : t.active = true ↔ (t = .starting ∨ t = .running ∨ t = .stopping ∨ t = .freezing) := by
  cases t <;> simp [ProgState.active]
theorem active_false (t : ProgState) : t.active = false ↔ (t = .idle ∨ t = .ready ∨ t = .paired) := by
  cases t <;> simp [ProgState.active]

theorem retargetWhere_atHead (h : Hdr) (c : Command) (w : SoundStream → Bool) (s : State) :
    retargetWhere w (atHead h c s) = atHead h c (retargetWhere w s) := by
  have e : (retargetWhere w (atHead h c s)).sdp = (retargetWhere w s).sdp := by
    apply Table.ext_get
    intro k
    rw [retargetWhere_get, retargetWhere_get]
    rfl
  rw [retargetWhere_only, retargetWhere_only (s := s), e]
  rfl

theorem flushPictures_atHead (h : Hdr) (c : Command) (p : Prog) (s : State) :
    flushPictures p (atHead h c s) = atHead h c (flushPictures p s) := by
  simp only [flushPictures, endReservations]
  split <;> rename_i hc <;> (split <;> rename_i hd) <;> first | rfl | exact absurd hc hd | exact absurd hd hc

/-- Records alike under the marks differ at most in them. -/
theorem exceptMarks_of {s t : State} (h : s.pgc.progs.map Programme.unmarked = t.pgc.progs.map Programme.unmarked)
    (q : Prog) : ExceptMarks (prog s q) (prog t q) := by
  have := congrArg (fun x => x.get q) h
  simp only [Table.get_map, Programme.unmarked] at this
  simp only [ExceptMarks, prog]
  generalize s.pgc.progs.get q = a at this
  generalize t.pgc.progs.get q = b at this
  cases a; cases b
  simp_all

/-- A command that finds its way free: whatever its owner leaves but the pool, the links' traffic, the clip table, the flags
and the marks stands at its end, with the reply on the ring. -/
theorem takeCommand_serene {h : Hdr} {i : RingStream} {s u : State} (hr : VanReady h i s) {c : Command} {r : Reply}
    (hl : listsFit c = true) (hc : c ≠ .reset 2)
    (hp : (perform (headOf h c) c (atHead h c s)).2 = r)
    (hu : (perform (headOf h c) c (atHead h c s)).1.serene = (atHead h c u).serene) (hh : u.cmu.home = [])
    (hv : u.cmu.van = []) :
    (takeCommand h c s).serene =
      ({ u with sri := ringReply u.sri h i (commandKind c) (byteOf r.status.code) r.results } : State).serene := by
  have e := serene_eq hu
  have hb : r.bytes (headOf h c) = [commandKind c, byteOf r.status.code, byteOf i.val, 0] ++ records 1 r.results := by
    simp [Reply.bytes, headOf, srcStreamByte, hr.2.1]
  have e2 : (perform (headOf h c) c (atHead h c s)).1.cmu.held = u.cmu.held ∧
      (perform (headOf h c) c (atHead h c s)).1.cmu.noticesHome = u.cmu.noticesHome ∧
      (perform (headOf h c) c (atHead h c s)).1.cmu.overflow = u.cmu.overflow := by
    simp only [State.serene, Prod.mk.injEq] at hu
    exact ⟨hu.2.2.2.2.2.1, hu.2.2.2.2.2.2.2.1, hu.2.2.2.2.2.2.2.2⟩
  have hv2 : (perform (headOf h c) c (atHead h c s)).1.cmu.van.tail = u.cmu.van := by
    rw [e.2.2.2.2.2.2.2.2.2.2.2.1, hv]; rfl
  rw [takeCommand_van hr hl hc (by rw [e.2.2.2.2.2.2.2.2.2.2.2.2.1]; exact hh), settleTakes_serene, hp]
  generalize (perform (headOf h c) c (atHead h c s)).1 = w at *
  simp only [replyVan, State.serene, State.onSri, State.onCmu, hb, Prod.mk.injEq, atHead] at *
  refine ⟨⟨e.1, e.2.1, e.2.2.1, e.2.2.2.1, e.2.2.2.2.1, e.2.2.2.2.2.1, e.2.2.2.2.2.2.1⟩, ⟨e.2.2.2.2.2.2.2.1, ?_⟩,
    ⟨e.2.2.2.2.2.2.2.2.2.1, e.2.2.2.2.2.2.2.2.2.2.1⟩, hv2, e.2.2.2.2.2.2.2.2.2.2.2.2.1, e2.1,
    e.2.2.2.2.2.2.2.2.2.2.2.2.2, e2.2.1, e2.2.2⟩
  rw [e.2.2.2.2.2.2.2.2.1]
  rfl

end Sys2Proof.Machine
end

