-- ==== Sys2Proof/Laws/Takes.lean ====
section
/-! SUPPORT. Take attempts that find no link able to take: they change nothing but the marks of the attempts owed (R165). -/

namespace Sys2Proof.Machine

theorem attempt_cannot (fuel : Nat) {l : Link} {s : State} (h : canTake s l = false) : attempt fuel l s = s := by
  cases fuel with
  | zero => rfl
  | succ k => simp [attempt, h]

theorem candidate_empty {s : State} (h : QueuesEmpty s) (l : Link) : candidate s l = none := by
  simp [candidate, List.findSome?, Pool.queue, h.1, h.2.1, h.2.2.1, h.2.2.2, takeFirst]

theorem attempt_empty (fuel : Nat) {l : Link} {s : State} (h : QueuesEmpty s) : attempt fuel l s = s := by
  cases fuel with
  | zero => rfl
  | succ k =>
    simp only [attempt, candidate_empty h]
    split <;> rfl

/-- The marks of all attempts owed are cleared. -/
def State.noOwed (s : State) : State :=
  s.onHsc fun h => { h with links := h.links.map fun k => { k with owed := false } }

theorem noOwed_of {s : State} (h : NoOwed s) : s.noOwed = s := by
  have : (s.hsc.links.map fun k => { k with owed := false }) = s.hsc.links := by
    apply Table.ext_get
    intro l
    have := h l
    simp only [sched] at this
    simp only [Table.get_map, ← this]
  simp only [State.noOwed, State.onHsc, this]

/-- Every link that is owed an attempt cannot take, or finds the class queues empty. -/
def Blocked (s : State) : Prop := ∀ l, (sched s l).owed = true → canTake s l = false ∨ QueuesEmpty s

theorem attemptOwed_blocked {l : Link} {s : State} (h : Blocked s) :
    attemptOwed l s = s.onSched l fun h => { h with owed := false } := by
  simp only [attemptOwed]
  split
  · rename_i ho
    have e : canTake (s.onSched l fun h => { h with owed := false }) l = canTake s l := by
      simp only [canTake, sched, State.onSched, State.onHsc, Table.get_modify_self]
      rfl
    obtain h | h := h l ho
    · exact attempt_cannot _ (by rw [e]; exact h)
    · exact attempt_empty _ (by exact h)
  · rename_i ho
    have e : ({ s.hsc.links.get l with owed := false } : LinkSched) = s.hsc.links.get l := by
      simp only [sched, Bool.not_eq_true] at ho
      rw [← ho]
    simp [State.onSched, State.onHsc, Table.modify, e]

theorem blocked_step {l : Link} {s : State} (h : Blocked s) : Blocked (s.onSched l fun h => { h with owed := false }) := by
  intro k hk
  by_cases e : l = k
  · subst e; simp [sched, State.onSched, State.onHsc] at hk
  · have e1 : sched (s.onSched l fun h => { h with owed := false }) k = sched s k := by
      simp [sched, State.onSched, State.onHsc, Table.get_modify, e]
    rw [e1] at hk
    have e2 : canTake (s.onSched l fun h => { h with owed := false }) k = canTake s k := by
      simp only [canTake, e1]; rfl
    rw [e2]; exact h k hk

/-- Where every attempt owed finds nothing to take, the attempts are made and nothing is taken. -/
theorem settleTakes_blocked {s : State} (h : Blocked s) : settleTakes s = s.noOwed := by
  have fold : ∀ (l : List Link) (u : State), Blocked u → l.foldl (fun s l => attemptOwed l s) u =
      l.foldl (fun s l => s.onSched l fun h => { h with owed := false }) u := by
    intro l
    induction l with
    | nil => intro u _; rfl
    | cons a l ih =>
      intro u hu
      rw [List.foldl_cons, List.foldl_cons, attemptOwed_blocked hu]
      exact ih _ (blocked_step hu)
  have round : four.foldl (fun s l => attemptOwed l s) s = s.noOwed := by
    rw [fold _ _ h]
    have : ∀ t : Table 4 LinkSched, (((t.modify 0 fun k => { k with owed := false }).modify 1
        fun k => { k with owed := false }).modify 2 fun k => { k with owed := false }).modify 3
        (fun k => { k with owed := false }) = t.map fun k => { k with owed := false } := by
      intro t
      apply Table.ext_get
      intro i
      simp only [Table.get_map, Table.get_modify]
      fin_cases i <;> simp
    simp only [four, List.foldl, State.onSched, State.onHsc, State.noOwed, this]
  have clear : NoOwed s.noOwed := by
    intro l; simp [sched, State.noOwed, State.onHsc]
  rw [settleTakes, settle]
  split
  · rw [round, settle, noOwed_any clear]; rfl
  · rename_i hn
    rw [noOwed_of]
    intro l
    simp only [Bool.not_eq_true, List.any_eq_false] at hn
    have := hn l (mem_four l)
    simpa using this

/-- A link whose slot is occupied, whose list is full or that carries no packets cannot take (R165). -/
theorem canTake_not {s : State} (h : NoLinkTakes s) (l : Link) : canTake s l = false := by
  obtain h | h | h := h l
  · simp [canTake, h]
  · cases hs : (sched s l).slot <;> simp_all [canTake]
  · have : ¬ (sched s l).inFlight.length < 256 := by omega
    simp [canTake, Config.inFlightMax, this]

/-- With no link UP or DEGRADED, no link can take. -/
theorem noLinkTakes_of {s : State} (h : NoLinkCarries s) : NoLinkTakes s := fun l => .inl (h l)

/-- With no link able to take, the attempts owed are made and nothing is taken. -/
theorem settleTakes_cannot {s : State} (h : NoLinkTakes s) : settleTakes s = s.noOwed :=
  settleTakes_blocked fun l _ => .inl (canTake_not h l)

/-- With the class queues empty, the attempts owed are made and nothing is taken (R166). -/
theorem settleTakes_empty {s : State} (h : QueuesEmpty s) : settleTakes s = s.noOwed :=
  settleTakes_blocked fun _ _ => .inr h

/-- Packets appended where nothing was owed and no link can take leave the scheduler as it was. -/
theorem settleTakes_owed {s : State} (h : NoLinkTakes s) (ho : NoOwed s) : settleTakes (oweAll s) = s := by
  rw [settleTakes_cannot (fun l => by simpa [NoLinkTakes, sched, link, oweAll, State.onHsc] using h l)]
  have : ((s.hsc.links.map fun k => { k with owed := true }).map fun k => { k with owed := false }) = s.hsc.links := by
    apply Table.ext_get
    intro l
    have := ho l
    simp only [sched] at this
    simp only [Table.get_map, ← this]
  simp only [State.noOwed, oweAll, State.onHsc, this]

/-- Reservations that a removal of fragments from `s` ends, in a state `u` whose scheduler that removal left: where nothing was
owed and no link can take, they end and nothing is taken (R157, R168). -/
theorem settleTakes_ended {gone : List Packet} {s u : State} (h : NoLinkTakes s) (ho : NoOwed s)
    (h1 : u.hsc = (endReservations gone s).hsc) (h2 : u.lsu = s.lsu) :
    settleTakes u = { u with
      hsc := { s.hsc with
        links := s.hsc.links.map fun k => { k with reservation := k.reservation.filter fun r => !r.loses gone } } } := by
  have hl : ∀ l, (u.hsc.links.get l).slot = (s.hsc.links.get l).slot ∧
      (u.hsc.links.get l).inFlight = (s.hsc.links.get l).inFlight := by
    intro l
    rw [h1]
    simp only [endReservations]
    split <;> simp [oweAll, State.onHsc]
  have e : (u.hsc.links.map fun k => { k with owed := false }) =
      s.hsc.links.map fun k => { k with reservation := k.reservation.filter fun r => !r.loses gone } := by
    apply Table.ext_get
    intro l
    have := ho l
    simp only [sched] at this
    rw [h1]
    simp only [endReservations]
    split <;> simp [oweAll, State.onHsc, this]
  rw [settleTakes_cannot]
  · simp only [State.noOwed, State.onHsc, e]
    rw [h1]
    simp only [endReservations]
    split <;> rfl
  · intro l
    have := h l
    simp only [sched, link] at this
    simp only [sched, link, h2, hl l]
    exact this

end Sys2Proof.Machine
end

