-- ==== Sys2Proof/Laws/Code.lean ====
section
/-! SUPPORT. A code start at which one programme alone may code: the other programmes' work is none (R43, R44). -/

namespace Sys2Proof.Machine

/-- The entries and states of the programmes other than `p`. -/
def State.others (p : Prog) (s : State) : Table 4 (Option (Option Entry × ProgState)) :=
  Table.ofFn fun q => if q = p then none else some (entryOf s q, (prog s q).state)

theorem others_of {p : Prog} {s t : State}
    (h : ∀ q, q ≠ p → entryOf s q = entryOf t q ∧ (prog s q).state = (prog t q).state) : s.others p = t.others p := by
  apply Table.ext_get
  intro q
  simp only [State.others, Table.get_ofFn]
  split
  · rfl
  · rename_i hq; rw [(h q hq).1, (h q hq).2]

theorem of_others {p : Prog} {s t : State} (h : s.others p = t.others p) (q : Prog) (hq : q ≠ p) :
    entryOf s q = entryOf t q ∧ (prog s q).state = (prog t q).state := by
  have := congrArg (fun x => x.get q) h
  simpa [State.others, Table.get_ofFn, hq] using this

theorem others_of_serene (p : Prog) {s t : State} (h : s.serene = t.serene) : s.others p = t.others p := by
  apply others_of
  intro q _
  have e := serene_eq h
  refine ⟨by simp only [entryOf, e.2.2.2.1], ?_⟩
  have := exceptMarks_of e.2.2.2.2.2.2.2.2.2.2.1 q
  rw [this]

@[simp] theorem raiseFlag_others (p : Prog) (f : EventFlag) (s : State) : (raiseFlag f s).others p = s.others p :=
  others_of_serene p (by simp)
@[simp] theorem queueNotice_others (p : Prog) (b : NoticeBody) (a : Option OpenCommand) (s : State) :
    (queueNotice b a s).others p = s.others p := others_of_serene p (by simp)
@[simp] theorem refreshCause_others (p q : Prog) (s : State) : (refreshCause q s).others p = s.others p :=
  others_of_serene p (by simp)
@[simp] theorem appendPackets_others (p : Prog) (c : QueueClass) (ps : List Packet) (s : State) :
    (appendPackets c ps s).others p = s.others p := others_of_serene p (by simp)
@[simp] theorem request_others (p : Prog) (o : Owner) (n : Nat) (s : State) :
    (request o n s).2.others p = s.others p := others_of_serene p (by simp)
@[simp] theorem anchorStarted_others (p q : Prog) (c : Pic) (s : State) : (anchorStarted q c s).others p = s.others p :=
  others_of_serene p (by simp)
@[simp] theorem leavesRunning_others (p q : Prog) (s : State) : (leavesRunning q s).others p = s.others p :=
  others_of_serene p (by simp)

@[simp] theorem onProg_others (p : Prog) (f : Programme → Programme) (s : State) :
    (s.onProg p f).others p = s.others p := by
  apply others_of
  intro q hq
  refine ⟨rfl, ?_⟩
  simp only [prog, State.onProg, State.onPgc, Table.get_modify_ne _ _ (Ne.symm hq)]

@[simp] theorem setEntry_others (p : Prog) (e : Option Entry) (s : State) : (s.setEntry p e).others p = s.others p := by
  apply others_of
  intro q hq
  refine ⟨?_, rfl⟩
  simp only [entryOf, State.setEntry, State.onCde, Table.get_set_ne _ _ (Ne.symm hq)]

@[simp] theorem onLoop_others (p q : Prog) (f : CodingLoop → CodingLoop) (s : State) :
    (s.onLoop q f).others p = s.others p := rfl
@[simp] theorem onRate_others (p q : Prog) (f : RateProg → RateProg) (s : State) :
    (s.onRate q f).others p = s.others p := rfl
@[simp] theorem onPort_others (p q : Prog) (f : Port → Port) (s : State) : (s.onPort q f).others p = s.others p := rfl
@[simp] theorem markDiscard_others (p q : Prog) (s : State) : (markDiscard q s).others p = s.others p := rfl

@[simp] theorem endStop_others (p : Prog) (m : StopMode) (pic : Pic) (s : State) :
    (endStop p m pic s).others p = s.others p := by
  simp only [endStop]
  split <;> simp

@[simp] theorem pictureReported_others (p : Prog) (b : Nat) (s : State) :
    (pictureReported p b s).others p = s.others p := by
  simp only [pictureReported]
  split <;> simp

@[simp] theorem completePicture_others (p : Prog) (e : Entry) (s : State) :
    (completePicture p e s).others p = s.others p := by
  simp only [completePicture]
  split <;> simp

@[simp] theorem overrun_others (p : Prog) (s : State) : (overrun p s).others p = s.others p := by
  simp only [overrun]
  split <;> simp

@[simp] theorem emitHeader_others (p q : Prog) (pic : Pic) (tick : Tick) (band : Nat) (header : List Byte) (s : State) :
    (emitHeader q pic tick band header s).others p = s.others p := by
  have h := request_others p (.prog q) 1 s
  simp only [emitHeader]
  split <;> rename_i h2 <;> rw [h2] at h <;> simpa using h

@[simp] theorem emitSkip_others (p : Prog) (c : CodeStart) (s : State) : (emitSkip p c s).others p = s.others p := by
  simp [emitSkip, countGroup]

@[simp] theorem freezeHold_others (p : Prog) (c : CodeStart) (s : State) : (freezeHold c p s).others p = s.others p := by
  simp only [freezeHold]
  repeat' split
  all_goals simp

theorem takeFrom_others (p q : Prog) (b : Bool) (s : State) : (takeFrom b q s).others p = s.others p := by
  simp only [takeFrom]
  split <;> simp

@[simp] theorem takePicture_others (p : Prog) (b : Bool) (s : State) : (takePicture p b s).2.others p = s.others p := by
  have : ∀ (l : List Prog) (s : State), (l.foldl (fun s q => takeFrom b q s) s).others p = s.others p := by
    intro l
    induction l with
    | nil => intro s; rfl
    | cons a l ih => intro s; exact (ih _).trans (takeFrom_others p a b s)
  simp only [takePicture]
  split
  · exact this _ _
  · rfl

@[simp] theorem judgeInput_others (p : Prog) (b : Bool) (s : State) : (judgeInput p b s).others p = s.others p := by
  simp only [judgeInput]
  repeat' split
  all_goals simp

@[simp] theorem beginPicture_others (p : Prog) (type : PicType) (n : Nat) (c : CodeStart) (s : State) :
    (beginPicture p type n c s).others p = s.others p := by
  simp only [beginPicture]
  split <;> simp

@[simp] theorem decidePicture_others (p : Prog) (b : Bool) (c : CodeStart) (s : State) :
    (decidePicture p b c s).others p = s.others p := by
  simp only [decidePicture]
  repeat' split
  all_goals simp

@[simp] theorem becomeRunning_others (p : Prog) (s : State) : (becomeRunning p s).others p = s.others p := by
  simp [becomeRunning, rateRunning]

@[simp] theorem codeProgramme_others (p : Prog) (c : CodeStart) (s : State) :
    (codeProgramme c p s).others p = s.others p := by
  simp only [codeProgramme]
  repeat' split
  all_goals simp

/-! ### The other programmes do nothing -/

theorem Alone.of_others {p : Prog} {s t : State} (h : Alone p s) (e : t.others p = s.others p) : Alone p t := by
  intro q hq
  have := Machine.of_others e q hq
  rw [this.1, this.2]
  exact h q hq

theorem overrun_none {q : Prog} {s : State} (h : entryOf s q = none) : overrun q s = s := by
  simp [overrun, h]

theorem freezeHold_none {c : CodeStart} {q : Prog} {s : State} (h : (prog s q).state ≠ .freezing) :
    freezeHold c q s = s := by
  simp [freezeHold, h]

theorem codeProgramme_none {c : CodeStart} {q : Prog} {s : State} (h1 : (prog s q).state ≠ .starting)
    (h2 : (prog s q).state ≠ .running) : codeProgramme c q s = s := by
  simp [codeProgramme, runsNow, h1, h2]

/-- A fold over the programmes whose work is none but for `p` is the work of `p`. -/
theorem fold_alone {p : Prog} {f : Prog → State → State} (hp : ∀ s, (f p s).others p = s.others p)
    (hf : ∀ q s, q ≠ p → Alone p s → f q s = s) {s : State} (h : Alone p s) :
    four.foldl (fun s q => f q s) s = f p s := by
  have h2 := h.of_others (hp s)
  have a : ∀ q, q ≠ p → f q s = s := fun q hq => hf q s hq h
  have b : ∀ q, q ≠ p → f q (f p s) = f p s := fun q hq => hf q _ hq h2
  simp only [four, List.foldl]
  obtain rfl | rfl | rfl | rfl : p = 0 ∨ p = 1 ∨ p = 2 ∨ p = 3 := by fin_cases p <;> simp
  · rw [b 1 (by decide), b 2 (by decide), b 3 (by decide)]
  · rw [a 0 (by decide), b 2 (by decide), b 3 (by decide)]
  · rw [a 0 (by decide), a 1 (by decide), b 3 (by decide)]
  · rw [a 0 (by decide), a 1 (by decide), a 2 (by decide)]

/-- A code start at which `p` alone may code is its overrun, its hold, its take and decision, and a band if one can start. -/
theorem takeCodeStart_alone {c : CodeStart} {p : Prog} {s : State} (h : Alone p s) :
    takeCodeStart c s = startBand (codeProgramme c p (freezeHold c p (overrun p s))) := by
  have h1 := h.of_others (overrun_others p s)
  have h2 := h1.of_others (freezeHold_others p c (overrun p s))
  simp only [takeCodeStart]
  rw [fold_alone (f := overrun) (overrun_others p) (fun q s hq ha => overrun_none (ha q hq).1) h]
  rw [fold_alone (f := fun p s => freezeHold c p s) (freezeHold_others p c)
    (fun q s hq ha => freezeHold_none (by rcases (ha q hq).2 with e | e | e <;> simp [e])) h1]
  rw [fold_alone (f := fun p s => codeProgramme c p s) (codeProgramme_others p c)
    (fun q s hq ha => codeProgramme_none (by rcases (ha q hq).2 with e | e | e <;> simp [e])
      (by rcases (ha q hq).2 with e | e | e <;> simp [e])) h2]

theorem find_cyclic (p k : Prog) :
    (([k + 1, k + 2, k + 3, k] : List Prog).find? fun q => if q = p then true else false) = some p := by
  revert p k; decide

/-- A RUNNING programme's work at a code start: the take, the input status, the decision (R18, R19, R44). -/
theorem codeProgramme_running {c : CodeStart} {p : Prog} {s : State} (h : (prog s p).state = .running) :
    codeProgramme c p s = decidePicture p (takePicture p true s).1 c
      (judgeInput p (takePicture p true s).1 (takePicture p true s).2) := by
  have hr : runsNow s p c = false := by simp [runsNow, h]
  simp only [codeProgramme, hr, h]
  simp

/-- A STARTING programme leaves a code start that is not its first (R26). -/
theorem codeProgramme_waiting {c : CodeStart} {p : Prog} {s : State} (h : (prog s p).state = .starting)
    (h2 : (prog s p).awaiting = true ∨ (prog s p).firstPic ≠ some c.pic) : codeProgramme c p s = s := by
  have hr : runsNow s p c = false := by
    obtain h2 | h2 := h2 <;> simp [runsNow, h2]
  simp [codeProgramme, hr, h]

/-- The newest untaken picture of a store whose older ones were taken is its last. -/
theorem takeNewest_last {old : List StoredPicture} {v : StoredPicture} (h1 : v.taken = false)
    (h2 : ∀ w ∈ old, w.taken = true) :
    takeNewest (old ++ [v]) = (old ++ [{ v with taken := true }], 0, true) := by
  simp only [takeNewest, List.foldr_append, List.foldr_cons, List.foldr_nil, h1, Bool.false_eq_true, if_false]
  induction old with
  | nil => rfl
  | cons w ws ih =>
    rw [List.foldr_cons, ih (fun x hx => h2 x (List.mem_cons_of_mem _ hx))]
    simp [h2 w (List.mem_cons_self ..)]

/-- A programme of no pair takes the picture that its port offers last (R18). -/
theorem takePicture_last {p : Prog} {b : Bool} {s : State} {old : List StoredPicture} {v : StoredPicture}
    (hpair : (prog s p).pair = false) (hs : (s.ports.get p).store = old ++ [v]) (h1 : v.taken = false)
    (h2 : ∀ w ∈ old, w.taken = true) :
    takePicture p b s = (true, s.onPort p fun q => { q with store := old ++ [{ v with taken := true }] }) := by
  have h : offers s p = true := by simp [offers, hs, h1]
  simp only [takePicture, portsOf, hpair, Bool.false_eq_true, if_false, List.all_cons, List.all_nil, h, Bool.and_self,
    if_true, List.foldl, takeFrom, hs, takeNewest_last h1 h2]
  simp

/-- A programme of no pair whose port offers nothing takes nothing (R18). -/
theorem takePicture_none {p : Prog} {b : Bool} {s : State} (hpair : (prog s p).pair = false)
    (hs : ∀ w ∈ (s.ports.get p).store, w.taken = true) : takePicture p b s = (false, s) := by
  have h : offers s p = false := by
    simp only [offers, List.any_eq_false]
    intro w hw; simp [hs w hw]
  simp [takePicture, portsOf, hpair, h]

/-- With no clip waiting for the programme, "anchor started" changes nothing (R129). -/
theorem anchorStarted_none {p : Prog} {c : Pic} {s : State} (h : ∀ k ∈ s.clm.clips, k.pendingOn p = false) :
    anchorStarted p c s = s := by
  have : (s.clm.clips.filter fun c => c.pendingOn p) = [] := by
    rw [List.filter_eq_nil_iff]; intro c hc; simp [h c hc]
  simp [anchorStarted, this]

/-- With no clip waiting for the programme, its leaving RUNNING changes nothing (R130). -/
theorem leavesRunning_none {p : Prog} {s : State} (h : ∀ c ∈ s.clm.clips, c.pendingOn p = false) :
    leavesRunning p s = s := by
  have : (s.clm.clips.filter fun c => c.pendingOn p) = [] := by
    rw [List.filter_eq_nil_iff]; intro c hc; simp [h c hc]
  simp [leavesRunning, this]

/-- With no picture in progress of any programme but `p`, the band to start next is one of `p`. -/
theorem nextServed_alone {p : Prog} {s : State} (h : Alone p s) :
    nextServed s.cde = if ((entryOf s p).map fun e => decide (e.started < e.bands)).getD false then some p else none := by
  have a : ∀ q, q ≠ p → s.cde.entries.get q = none := fun q hq => (h q hq).1
  have key : ∀ k : Prog, ∀ P : Bool,
      (([k + 1, k + 2, k + 3, k] : List Prog).find? fun q => if q = p then P else false) = if P then some p else none := by
    intro k P
    cases P
    · simp
    · simpa using find_cyclic p k
  have e : ∀ q, ((s.cde.entries.get q).map fun e => decide (e.started < e.bands)).getD false =
      if q = p then ((entryOf s p).map fun e => decide (e.started < e.bands)).getD false else false := by
    intro q
    split
    · rename_i hq; subst hq; rfl
    · rename_i hq; rw [a q hq]; rfl
  simp only [nextServed]
  simp only [e]
  exact key _ _

/-- The idle engine starts the next band of the only programme with a picture in progress (R41). -/
theorem startBand_alone {p : Prog} {e : Entry} {s : State} (h : Alone p s) (hb : s.cde.band = none)
    (he : entryOf s p = some e) (hs : e.started < e.bands) :
    startBand s = { s with
      cde := { s.cde with
        entries := s.cde.entries.set p (some { e with started := e.started + 1 })
        band := some {
          prog := p, pic := e.pic, band := e.started + 1, quant := e.codingQ,
          tiles := bandTiles (formatOf s p).width e.method }
        lastServed := p } } := by
  have hn : nextServed s.cde = some p := by rw [nextServed_alone h, he]; simp [hs]
  simp only [startBand, hb, hn, he]
  rfl

/-- With no picture in progress the engine starts no band. -/
theorem startBand_none {p : Prog} {s : State} (h : Alone p s) (he : entryOf s p = none) : startBand s = s := by
  have hn : nextServed s.cde = none := by rw [nextServed_alone h, he]; rfl
  simp only [startBand, hn]
  split <;> rfl

end Sys2Proof.Machine
end

