-- ==== Sys2Proof/Laws/Outcomes.lean ====
section
/-! SUPPORT. What shared operations leave in the plain case: a notice with room for it and no home copy, the end of a stop,
a flush, a grant of one block, a skip picture, and a command's end with nothing waiting. -/

namespace Sys2Proof.Machine

/-- A command whose own work leaves the Home Scheduler and the Command Unit alone ends as that work left it. -/
theorem finish_kept {s : State} (q : Quiet s) {t : State} (h1 : t.hsc = s.hsc) (h2 : t.cmu = s.cmu) : finish t = t :=
  finish_quiet (quiet_of q h1 (by rw [h2]) (by rw [h2]))

/-- A notice with room in the queue and no home copy joins the notice queue, and nothing else happens (R209). -/
theorem queueNotice_plain {b : NoticeBody} {a : Option OpenCommand} {s : State} (h1 : s.cmu.noticesHome = false)
    (h2 : ∀ o, a = some o → o.origin = .van) (h3 : s.cmu.notices.length < 32) :
    queueNotice b a s = s.onCmu fun c =>
      { c with notices := c.notices ++ [{ body := b, answers := a, tick := s.tbu.tick, pic := s.tbu.pic }] } := by
  have h4 : ¬ (s.cmu.noticesHome = true ∨ a.map (·.origin) = some .home) := by
    rintro (h | h)
    · simp [h1] at h
    · cases a with
      | none => simp at h
      | some o => have := h2 o rfl; simp [this] at h
  have h5 : ¬ 32 ≤ s.cmu.notices.length := by omega
  simp only [queueNotice, queueNoticeWith, joinNotices, Config.noticeQueue, h4, h5, if_false, State.onCmu]

/-- A flag that is set already is counted, and nothing else happens (R208). -/
theorem raiseFlag_set {f : EventFlag} {s : State} (h : (flagRec s f).set = true) : raiseFlag f s = bumpFlag f s := by
  simp [raiseFlag, raiseWithin, h]

/-- A flag that is clear is set and counted, and its notice joins the notice queue where that has room and no home copy is
owed (R208). -/
theorem raiseFlag_plain {f : EventFlag} {s : State} (h : (flagRec s f).set = false) (h1 : s.cmu.noticesHome = false)
    (h3 : s.cmu.notices.length < 32) :
    raiseFlag f s = s.onCmu fun c =>
      { c with
        flags := c.flags.set f.idx { set := true, counter := satInc (flagRec s f).counter }
        notices := c.notices ++ [{
          body := .flag f (satInc (flagRec s f).counter), tick := s.tbu.tick, pic := s.tbu.pic }] } := by
  have h5 : ¬ 32 ≤ s.cmu.notices.length := by omega
  simp only [raiseFlag, raiseWithin, h, queueNoticeWith, bumpFlag, joinNotices, State.onCmu_cmu, Config.noticeQueue,
    h5, h1]
  simp [flagRec, State.onCmu, Table.modify]

/-- A raised flag whose notice, if it queues one, has room and no home copy, in full (R208). -/
theorem raiseFlag_raised {f : EventFlag} {s : State} (h1 : s.cmu.noticesHome = false) (h3 : s.cmu.notices.length < 32) :
    raiseFlag f s = { s with cmu := flagRaised f s } := by
  cases h : (flagRec s f).set with
  | true =>
    rw [raiseFlag_set h]
    simp only [flagRec] at h
    simp [bumpFlag, State.onCmu, flagRaised, h, Table.modify, satInc]
  | false =>
    rw [raiseFlag_plain h h1 h3]
    simp only [flagRec] at h
    simp [State.onCmu, flagRaised, h, flagRec, satInc]

/-- A raised flag whose notice, if it queues one, has room and no home copy changes the Command Unit alone, and none of its
waiting commands (R208). -/
theorem raiseFlag_local {f : EventFlag} {s : State} (h1 : s.cmu.noticesHome = false) (h3 : s.cmu.notices.length < 32) :
    ∃ c, raiseFlag f s = { s with cmu := c } ∧ c.van = s.cmu.van ∧ c.home = s.cmu.home ∧ c.noticesHome = false := by
  by_cases h : (flagRec s f).set = true
  · rw [raiseFlag_set h]; exact ⟨_, rfl, rfl, rfl, h1⟩
  · rw [raiseFlag_plain (Bool.eq_false_iff.mpr h) h1 h3]; exact ⟨_, rfl, rfl, rfl, h1⟩

theorem raiseWithin_cmu (k : Nat) (f : EventFlag) (s : State) (h : s.cmu.noticesHome = false) :
    ∃ c, raiseWithin k f s = { s with cmu := c } ∧ c.noticesHome = false := by
  induction k generalizing f s with
  | zero => exact ⟨_, rfl, h⟩
  | succ k ih =>
    simp only [raiseWithin]
    split
    · exact ⟨_, rfl, h⟩
    · have e : ∀ (n : Notice) (u : State), u.cmu.noticesHome = false → n.answers = none →
          queueNoticeWith (raiseWithin k) n u =
            if Config.noticeQueue ≤ u.cmu.notices.length then
              raiseWithin k .noticeOverrun { u with cmu := { u.cmu with notices := joinNotices u.cmu.notices n } }
            else { u with cmu := { u.cmu with notices := joinNotices u.cmu.notices n } } := by
        intro n u hu hn
        simp [queueNoticeWith, State.onCmu, hu, hn]
      rw [e _ (bumpFlag f s) h rfl]
      split
      · exact ih .noticeOverrun { bumpFlag f s with cmu := _ } h
      · exact ⟨_, rfl, h⟩

/-- Without home copies, a raised flag changes the Command Unit alone (R208, R209). -/
theorem raiseFlag_cmu (f : EventFlag) {s : State} (h : s.cmu.noticesHome = false) :
    ∃ c, raiseFlag f s = { s with cmu := c } ∧ c.noticesHome = false := raiseWithin_cmu 4 f s h

/-! ### What notices, flags and take attempts do to the programmes' records -/

theorem sendHomeNotice_pgc (raise : EventFlag → State → State) (h : ∀ f s, (raise f s).pgc = s.pgc) (s : State) :
    (sendHomeNotice raise s).2.pgc = s.pgc := by
  simp only [sendHomeNotice]
  split
  · rfl
  · split
    · rfl
    · rw [h]; rfl

theorem homeCopy_pgc (raise : EventFlag → State → State) (h : ∀ f s, (raise f s).pgc = s.pgc) (n : Notice) (s : State) :
    (homeCopy raise n s).pgc = s.pgc := by
  simp only [homeCopy]
  split <;> split <;> simp [h, sendHomeNotice_pgc raise h]

theorem queueNoticeWith_pgc (raise : EventFlag → State → State) (h : ∀ f s, (raise f s).pgc = s.pgc) (n : Notice)
    (s : State) : (queueNoticeWith raise n s).pgc = s.pgc := by
  simp only [queueNoticeWith]
  split <;> split <;> simp [h, homeCopy_pgc raise h]

theorem raiseWithin_pgc (k : Nat) (f : EventFlag) (s : State) : (raiseWithin k f s).pgc = s.pgc := by
  induction k generalizing f s with
  | zero => rfl
  | succ k ih =>
    simp only [raiseWithin]
    split
    · rfl
    · exact queueNoticeWith_pgc _ ih _ _

@[simp] theorem raiseFlag_pgc (f : EventFlag) (s : State) : (raiseFlag f s).pgc = s.pgc := raiseWithin_pgc 4 f s
@[simp] theorem queueNotice_pgc (b : NoticeBody) (a : Option OpenCommand) (s : State) :
    (queueNotice b a s).pgc = s.pgc := queueNoticeWith_pgc _ raiseFlag_pgc _ _

theorem refreshCause_owed {p q : Prog} {s : State} (h : (prog s p).refreshOwed = true) :
    (prog (refreshCause q s) p).refreshOwed = true := by
  simp only [prog, refreshCause, State.onProg_pgc, Table.get_modify]
  split
  · rfl
  · exact h

theorem dropLate_owed (l : Link) (c : QueueClass) (k : Packet) (rest : List Packet) {p : Prog} {s : State}
    (h : (prog s p).refreshOwed = true) : (prog (dropLate l c k rest s) p).refreshOwed = true := by
  have e : ∀ (r : Option Reservation) (u : State), (setReservation l r u).pgc = u.pgc := by
    intro r u; simp only [setReservation]; split <;> rfl
  have b : ∀ u : State, u.pgc = s.pgc → (prog u p).refreshOwed = true := by
    intro u hu; simp only [prog, hu]; exact h
  simp only [dropLate, prog, e]
  repeat' split
  all_goals first
    | exact refreshCause_owed (b _ (by simp))
    | exact b _ (by simp)

theorem attempt_owed (fuel : Nat) (l : Link) {p : Prog} {s : State} (h : (prog s p).refreshOwed = true) :
    (prog (attempt fuel l s) p).refreshOwed = true := by
  induction fuel generalizing s with
  | zero => exact h
  | succ k ih =>
    simp only [attempt]
    repeat' split
    all_goals first
      | exact h
      | exact ih (dropLate_owed _ _ _ _ h)
      | skip
    have e : ∀ (r : Option Reservation) (u : State), (setReservation l r u).pgc = u.pgc := by
      intro r u; simp only [setReservation]; split <;> rfl
    simp only [takePacket, prog, e]
    exact h

theorem attemptOwed_owed (l : Link) {p : Prog} {s : State} (h : (prog s p).refreshOwed = true) :
    (prog (attemptOwed l s) p).refreshOwed = true := by
  simp only [attemptOwed]
  split
  · exact attempt_owed _ _ h
  · exact h

theorem settle_owed (fuel : Nat) {p : Prog} {s : State} (h : (prog s p).refreshOwed = true) :
    (prog (settle fuel s) p).refreshOwed = true := by
  induction fuel generalizing s with
  | zero => exact h
  | succ k ih =>
    rw [settle]
    split
    · exact ih (attemptOwed_owed _ (attemptOwed_owed _ (attemptOwed_owed _ (attemptOwed_owed _ h))))
    · exact h

/-- Take attempts clear no refresh-owed mark (R167). -/
theorem settleTakes_marks {p : Prog} {s : State} (h : (prog s p).refreshOwed = true) :
    (prog (settleTakes s) p).refreshOwed = true := settle_owed 8 h

/-- The reservations that a removal ends are those of the scheduler's links alone (R157). -/
theorem endReservations_hsc {gone : List Packet} {s t : State} (h : t.hsc = s.hsc) :
    endReservations gone t = { t with hsc := (endReservations gone s).hsc } := by
  simp only [endReservations, h]
  split <;> simp [oweAll, State.onHsc, h]

/-- What a flush does: the packets leave the PICTURE queue, their blocks return, and reservations of theirs end (R28, R157). -/
theorem flushPictures_eq {p : Prog} {s t : State} (h1 : t.hsc = s.hsc) (h2 : t.pkp = s.pkp) :
    flushPictures p t = { t with
      pkp := { s.pkp.releasePackets (s.pkp.picture.filter fun k => k.subject == some p.val) with
        picture := s.pkp.picture.filter fun k => !(k.subject == some p.val) }
      hsc := (endReservations (s.pkp.picture.filter fun k => k.subject == some p.val) s).hsc } := by
  simp only [flushPictures, queuedPictures, h2]
  rw [endReservations_hsc (s := s) (t := t.onPool _) h1]
  simp [State.onPool, h2]

/-- The end of a stop whose notice, if one is owed, has room and goes to the ring alone (R27, R29, R30). -/
theorem endStop_plain (p : Prog) (m : StopMode) (pic : Pic) {s : State}
    (h : ∀ o, (prog s p).openStop = some o →
      o.origin = .van ∧ s.cmu.noticesHome = false ∧ s.cmu.notices.length < 32) :
    endStop p m pic s = { s with
      pgc := { s.pgc with progs := s.pgc.progs.modify p fun r => { r with state := .ready, openStop := none } }
      cmu := { s.cmu with
        notices := s.cmu.notices ++ ((prog s p).openStop.map fun o =>
          { body := .programme p .ready pic (some m)
            answers := some o
            tick := s.tbu.tick
            pic := s.tbu.pic : Notice }).toList } } := by
  simp only [endStop]
  cases ho : (prog s p).openStop with
  | none => simp [State.onProg, State.onPgc]
  | some o =>
    obtain ⟨a, b, c⟩ := h o ho
    simp only
    rw [queueNotice_plain]
    · rfl
    · exact b
    · intro o' h'; injection h' with h'; rw [← h']; exact a
    · exact c

/-- What a fold of numbers onto a pair reads is kept where the records differ at most in the marks. -/
theorem fold_congr {s t : State} (h : s.pgc.progs.map Programme.unmarked = t.pgc.progs.map Programme.unmarked)
    (p : Prog) : fold s p = fold t p := by
  have := exceptMarks_of h (evenOf p)
  simp only [ExceptMarks] at this
  have e : isPairedOdd s p = isPairedOdd t p := by
    simp only [isPairedOdd, pairFormed]; rw [this]
  simp only [fold, e]

/-- A grant of one block is the head of the free list (R146, R148). -/
theorem grant_one {k : Pool} {o : Owner} {b : Nat} {free : List Nat} (h : k.free = b :: free)
    (hc : (k.owners.get o.idx).count < (k.owners.get o.idx).cap) :
    k.grant o 1 = some ([b], { k with
      free := free
      owners := k.owners.modify o.idx fun r => { r with count := r.count + 1 } }) := by
  have : 1 ≤ k.free.length ∧ (k.owners.get o.idx).count + 1 ≤ (k.owners.get o.idx).cap := by
    rw [h]; simp; omega
  simp only [Pool.grant, this, h]
  rfl

/-- A grant of `n` blocks takes them from the head of the free list (R146, R148). -/
theorem grant_blocks {k : Pool} {o : Owner} {n : Nat} (h : n ≤ k.free.length)
    (hc : (k.owners.get o.idx).count + n ≤ (k.owners.get o.idx).cap) :
    k.grant o n = some (k.free.take n, { k with
      free := k.free.drop n
      owners := k.owners.modify o.idx fun r => { r with count := r.count + n } }) := by
  simp only [Pool.grant, h, hc]
  rfl

/-- A request beyond the free list or the cap is refused (R148). -/
theorem grant_refused {k : Pool} {o : Owner} {n : Nat}
    (h : k.free.length < n ∨ (k.owners.get o.idx).cap < (k.owners.get o.idx).count + n) : k.grant o n = none := by
  simp only [Pool.grant]
  rw [if_neg (by omega)]

/-- The blocks of an assembly, released one list after another (R150). -/
theorem releaseBlocks_all (o : Owner) (l : List (List Nat)) (s : State) :
    l.foldl (fun s bs => releaseBlocks o bs s) s = { s with
      pkp := { s.pkp with
        free := s.pkp.free ++ l.flatten
        owners := s.pkp.owners.modify o.idx fun r => { r with count := r.count - l.flatten.length } } } := by
  induction l generalizing s with
  | nil => simp
  | cons a l ih =>
    rw [List.foldl_cons, ih]
    simp [releaseBlocks, State.onPool, Pool.release, Nat.sub_sub]

/-- A cause of a refresh whose programme stands for itself (R33, R34). -/
theorem refreshCause_alone {p : Prog} {s : State} (h : fold s p = p) :
    refreshCause p s = s.onProg p fun r => { r with refreshOwed := true, causes := min (r.causes + 1) 65535 } := by
  simp only [refreshCause, h, satInc]

/-- What a number folds onto depends on the Programme Controller alone. -/
theorem fold_pgc {s t : State} (h : s.pgc = t.pgc) (p : Prog) : fold s p = fold t p := by
  have h2 : isPairedOdd s p = isPairedOdd t p := by simp only [isPairedOdd, pairFormed, prog, h]
  simp only [fold, h2]

/-! ### Lists of numbers as sets -/

theorem setOf_from (n : Nat) (l : List Nat) (h : ∀ v ∈ l, v < n) (t : Table n Bool) :
    ∃ u, l.foldl (fun acc v => acc.bind fun t => (finOf n v).map fun i => t.set i true) (some t) = some u ∧
      ∀ i : Fin n, u.get i = (t.get i || decide (i.val ∈ l)) := by
  induction l generalizing t with
  | nil => exact ⟨t, rfl, by simp⟩
  | cons v l ih =>
    have hv : v < n := h v (List.mem_cons_self ..)
    obtain ⟨u, hu, hg⟩ := ih (fun w hw => h w (List.mem_cons_of_mem _ hw)) (t.set ⟨v, hv⟩ true)
    refine ⟨u, by simpa [finOf, hv] using hu, fun i => ?_⟩
    rw [hg i]
    by_cases hi : i.val = v
    · have : i = ⟨v, hv⟩ := Fin.ext hi
      subst this; simp
    · rw [Table.get_set_ne _ _ (fun he => hi (by rw [← he]))]
      simp [hi]

/-- The set of numbers that are all of the range. -/
theorem setOf_some {n : Nat} {l : List Nat} (h : ∀ v ∈ l, v < n) :
    ∃ u, Machine.setOf n l = some u ∧ ∀ i : Fin n, u.get i = decide (i.val ∈ l) := by
  obtain ⟨u, hu, hg⟩ := setOf_from n l h (Table.replicate n false)
  exact ⟨u, hu, fun i => by rw [hg]; simp⟩

/-- A list with a number outside the range names no set. -/
theorem setOf_none {n : Nat} {l : List Nat} (h : ∃ v ∈ l, n ≤ v) : Machine.setOf n l = none := by
  have key : ∀ (l : List Nat) (acc : Option (Table n Bool)), (acc = none ∨ ∃ v ∈ l, n ≤ v) →
      l.foldl (fun acc v => acc.bind fun t => (finOf n v).map fun i => t.set i true) acc = none := by
    intro l
    induction l with
    | nil => intro acc h; simpa using h
    | cons w l ih =>
      intro acc h
      rw [List.foldl_cons]
      apply ih
      obtain rfl | ⟨v, hv, hn⟩ := h
      · exact .inl rfl
      · obtain rfl | hv := List.mem_cons.mp hv
        · left
          have : finOf n v = none := by simp [finOf]; omega
          simp [this]
        · exact .inr ⟨v, hv, hn⟩
  exact key l _ (.inr h)

/-- A report of no bits to a buffer within its limit changes nothing (R78). -/
theorem reported_zero {p : Prog} {s : State} (h : (rateOf s p).fullness ≤ (rateOf s p).limit) :
    pictureReported p 0 s = s := by
  have e : s.onRate p (fun r => { r with fullness := r.fullness + 0 }) = s := by
    simp [State.onRate, State.onRal]
  simp only [pictureReported, e]
  rw [if_neg (by omega)]

/-- A skip picture whose block is granted (R46). -/
theorem emitSkip_granted {p : Prog} {c : CodeStart} {b : Nat} {free : List Nat} {s : State}
    (h : s.pkp.free = b :: free)
    (hc : (s.pkp.owners.get (Owner.prog p).idx).count < (s.pkp.owners.get (Owner.prog p).idx).cap)
    (hf : (rateOf s p).fullness ≤ (rateOf s p).limit) :
    emitSkip p c s = oweAll { s with
      cde := { s.cde with
        loops := s.cde.loops.set p { loopOf s p with groupCount := min 255 ((loopOf s p).groupCount + 1) } }
      pkp := { s.pkp with
        free := free
        owners := s.pkp.owners.modify (Owner.prog p).idx fun r => { r with count := r.count + 1 }
        picture := s.pkp.picture ++ [{
          kind := .picture, owner := some (.prog p), subject := some p.val, number := c.pic, stamp := c.tick,
          deadline := some (c.tick + BitVec.ofNat 32 ((prog s p).cfg.delay * 48)), size := 24, blocks := [b],
          payload := sliceHeader 0 (formatOf s p).bands 3 (loopOf s p).method 0 3 8 }] } } := by
  have g := grant_one (k := (countGroup p s).pkp) (o := .prog p) h hc
  simp only [emitSkip, emitHeader, request, g]
  rw [reported_zero (by exact hf)]
  rfl

theorem emitHeader_calm (p : Prog) (pic : Pic) (tick : Tick) (band : Nat) (header : List Byte) (s : State) :
    (emitHeader p pic tick band header s).calm = s.calm := by
  have h := request_calm (.prog p) 1 s
  simp only [emitHeader]
  split <;> rename_i h2 <;> rw [h2] at h <;> simpa using h

theorem emitSkip_serene {p : Prog} {c : CodeStart} {s : State} (hf : (rateOf s p).fullness ≤ (rateOf s p).limit) :
    (emitSkip p c s).serene = (countGroup p s).serene := by
  have h := serene_of_calm (emitHeader_calm p c.pic c.tick 0
    (sliceHeader 0 (formatOf s p).bands 3 (loopOf s p).method 0 3 Config.sliceHeaderBytes) (countGroup p s))
  have e := serene_eq h
  simp only [emitSkip]
  rw [reported_zero]
  · exact h
  · simp only [rateOf] at *
    rw [e.2.2.2.2.1]; exact hf

theorem emitSkip_keeps {p : Prog} {c : CodeStart} {g : EventFlag} {s : State}
    (hf : (rateOf s p).fullness ≤ (rateOf s p).limit) (h : (flagRec s g).set = true) :
    (flagRec (emitSkip p c s) g).set = true := by
  have k := serene_of_calm (emitHeader_calm p c.pic c.tick 0
    (sliceHeader 0 (formatOf s p).bands 3 (loopOf s p).method 0 3 Config.sliceHeaderBytes) (countGroup p s))
  have e := serene_eq k
  simp only [emitSkip]
  rw [reported_zero]
  · simp only [emitHeader, request]
    split <;> rename_i h2 <;> split at h2 <;> simp at h2
    · obtain ⟨rfl, rfl⟩ := h2; exact h
    · subst h2; exact raiseFlag_keeps _ _ _ h
  · simp only [rateOf] at *
    rw [e.2.2.2.2.1]; exact hf

end Sys2Proof.Machine
end

