-- ==== Sys2Proof/Laws/Attempts.lean ====
section
/-! SUPPORT. What a take attempt of one link does (R165 to R168), where no other link can take. -/

namespace Sys2Proof.Machine

/-! ### The candidate (R166) -/

theorem takeFirst_some {f : Packet → Bool} {q skipped rest : List Packet} {p : Packet} (h : q = skipped ++ p :: rest)
    (hp : f p = true) (hs : ∀ x ∈ skipped, f x = false) : takeFirst f q = some (p, skipped ++ rest) := by
  subst h
  induction skipped with
  | nil => simp [takeFirst, hp]
  | cons a l ih =>
    have ha := hs a (List.mem_cons_self ..)
    simp [takeFirst, ha, ih fun x hx => hs x (List.mem_cons_of_mem _ hx)]

theorem takeFirst_split {f : Packet → Bool} {q left : List Packet} {p : Packet} (h : takeFirst f q = some (p, left)) :
    ∃ skipped rest, q = skipped ++ p :: rest ∧ left = skipped ++ rest ∧ f p = true ∧ ∀ x ∈ skipped, f x = false := by
  induction q generalizing left with
  | nil => simp [takeFirst] at h
  | cons a q ih =>
    simp only [takeFirst] at h
    split at h
    · rename_i ha
      injection h with h; injection h with h1 h2
      subst h1 h2
      exact ⟨[], q, rfl, rfl, ha, by simp⟩
    · rename_i ha
      cases hq : takeFirst f q with
      | none => simp [hq] at h
      | some r =>
        obtain ⟨x, y⟩ := r
        simp only [hq, Option.map_some, Option.some.injEq, Prod.mk.injEq] at h
        obtain ⟨rfl, rfl⟩ := h
        obtain ⟨skipped, rest, h1, h2, h3, h4⟩ := ih hq
        refine ⟨a :: skipped, rest, by rw [h1]; rfl, by rw [h2]; rfl, h3, fun z hz => ?_⟩
        obtain rfl | hz := List.mem_cons.mp hz
        · simpa using ha
        · exact h4 z hz

theorem reservedElsewhere_iff {s : State} {l : Link} {p : Packet} :
    reservedElsewhere s l p = true ↔ ∃ k r, k ≠ l ∧ (sched s k).reservation = some r ∧ r.covers p = true := by
  simp only [reservedElsewhere, List.any_eq_true, mem_four, true_and, Bool.and_eq_true, bne_iff_ne]
  constructor
  · rintro ⟨k, hk, h⟩
    cases hr : (sched s k).reservation with
    | none => simp [hr] at h
    | some r => exact ⟨k, r, hk, hr, by simpa [hr] using h⟩
  · rintro ⟨k, r, hk, hr, h⟩
    exact ⟨k, hk, by simpa [hr] using h⟩

/-- The candidate that R166 gives is the one the link finds. -/
theorem candidate_of {l : Link} {s : State} {c : QueueClass} {skipped rest : List Packet} {p : Packet}
    (h : Candidate l s c skipped p rest) : candidate s l = some (c, p, skipped ++ rest) := by
  have key : takeFirst (openTo s l c) (s.pkp.queue c) = some (p, skipped ++ rest) := by
    by_cases hc : c = .picture
    · subst hc
      cases hr : (sched s l).reservation with
      | some r =>
        obtain ⟨h1, h2⟩ := h.reserved r rfl hr
        exact takeFirst_some h.stands (by simpa [openTo, hr] using h1) fun x hx => by simpa [openTo, hr] using h2 x hx
      | none =>
        obtain ⟨h1, h2⟩ := h.free rfl hr
        refine takeFirst_some h.stands ?_ fun x hx => ?_
        · simp only [openTo, hr, Bool.not_eq_true', ← Bool.not_eq_true, reservedElsewhere_iff]
          rintro ⟨k, r, k1, k2, k3⟩
          rw [h1 k r k1 k2] at k3; cases k3
        · simp only [openTo, hr, Bool.not_eq_false']
          exact reservedElsewhere_iff.2 (h2 x hx)
    · have := h.first hc
      subst this
      exact takeFirst_some h.stands (by cases c <;> first | rfl | exact absurd rfl hc) (by simp)
  have e1 := h.noReply
  have e2 := h.noLabel
  have e3 := h.noSound
  have hp := h.permitted
  have blocked : ∀ d, (permits (link s l) d = true → s.pkp.queue d = []) →
      (if permits (link s l) d then (takeFirst (openTo s l d) (s.pkp.queue d)).map fun r => (d, r.1, r.2) else none) = none := by
    intro d hd
    split
    · rename_i hpd; rw [hd hpd]; rfl
    · rfl
  have own : (if permits (link s l) c then (takeFirst (openTo s l c) (s.pkp.queue c)).map fun r => (c, r.1, r.2) else none) =
      some (c, p, skipped ++ rest) := by simp [hp, key]
  simp only [candidate, List.findSome?]
  cases c with
  | reply => simp only [own]
  | label => rw [blocked .reply (e1 (by simp))]; simp only [own]
  | sound => rw [blocked .reply (e1 (by simp))]; simp only; rw [blocked .label (e2 (by simp))]; simp only [own]
  | picture =>
    rw [blocked .reply (e1 (by simp))]; simp only; rw [blocked .label (e2 (by simp))]; simp only
    rw [blocked .sound (e3 (by simp))]; simp only [own]

/-- Where R166 gives no candidate, the link finds none. -/
theorem candidate_none {l : Link} {s : State} (h : ∀ c skipped p rest, ¬ Candidate l s c skipped p rest) : candidate s l = none := by
  cases hc : candidate s l with
  | none => rfl
  | some r =>
    exfalso
    obtain ⟨c, p, left⟩ := r
    have hopen : ∀ {d : QueueClass} {x : Packet}, d ≠ .picture → openTo s l d x = true := by
      intro d x hd; cases d <;> first | rfl | exact absurd rfl hd
    have nothing : ∀ d, d ≠ .picture →
        (if permits (link s l) d then (takeFirst (openTo s l d) (s.pkp.queue d)).map fun r => (d, r.1, r.2) else none) = none →
        permits (link s l) d = true → s.pkp.queue d = [] := by
      intro d hd h hp
      simp only [hp, if_true, Option.map_eq_none_iff] at h
      cases hq : s.pkp.queue d with
      | nil => rfl
      | cons a q => simp [hq, takeFirst, hopen hd] at h
    have found : ∀ d, (if permits (link s l) d then (takeFirst (openTo s l d) (s.pkp.queue d)).map fun r => (d, r.1, r.2)
        else none) = some (c, p, left) → d = c ∧ permits (link s l) c = true ∧
        takeFirst (openTo s l c) (s.pkp.queue c) = some (p, left) := by
      intro d h
      split at h
      · rename_i hp
        cases ht : takeFirst (openTo s l d) (s.pkp.queue d) with
        | none => simp [ht] at h
        | some r =>
          simp only [ht, Option.map_some, Option.some.injEq, Prod.mk.injEq] at h
          obtain ⟨rfl, rfl, rfl⟩ := h
          exact ⟨rfl, hp, ht⟩
      · cases h
    have make : ∀ (hp : permits (link s l) c = true) (ht : takeFirst (openTo s l c) (s.pkp.queue c) = some (p, left))
        (h1 : c ≠ .reply → permits (link s l) .reply = true → s.pkp.reply = [])
        (h2 : c = .sound ∨ c = .picture → permits (link s l) .label = true → s.pkp.label = [])
        (h3 : c = .picture → permits (link s l) .sound = true → s.pkp.sound = []), False := by
      intro hp ht h1 h2 h3
      obtain ⟨skipped, rest, a1, -, a3, a4⟩ := takeFirst_split ht
      refine h c skipped p rest ⟨a1, hp, h1, h2, h3, fun hd => ?_, fun r hd hr => ?_, fun hd hr => ?_⟩
      · cases skipped with
        | nil => rfl
        | cons a l => have := a4 a (List.mem_cons_self ..); rw [hopen hd] at this; cases this
      · subst hd; simp only [openTo, hr] at a3 a4; exact ⟨a3, a4⟩
      · subst hd
        simp only [openTo, hr, Bool.not_eq_true', Bool.not_eq_false'] at a3 a4
        refine ⟨fun k r hk hkr => ?_, fun q hq => reservedElsewhere_iff.1 (a4 q hq)⟩
        rw [← Bool.not_eq_true]; intro hcov
        rw [reservedElsewhere_iff.2 ⟨k, r, hk, hkr, hcov⟩] at a3; cases a3
    simp only [candidate, List.findSome?] at hc
    split at hc
    · rename_i x hx
      injection hc with hc; subst hc
      obtain ⟨rfl, hp, ht⟩ := found _ hx
      exact make hp ht (by simp) (by simp) (by simp)
    · rename_i n1
      have n1 := nothing _ (by simp) n1
      split at hc
      · rename_i x hx
        injection hc with hc; subst hc
        obtain ⟨rfl, hp, ht⟩ := found _ hx
        exact make hp ht (fun _ => n1) (by simp) (by simp)
      · rename_i n2
        have n2 := nothing _ (by simp) n2
        split at hc
        · rename_i x hx
          injection hc with hc; subst hc
          obtain ⟨rfl, hp, ht⟩ := found _ hx
          exact make hp ht (fun _ => n1) (fun _ => n2) (by simp)
        · rename_i n3
          have n3 := nothing _ (by simp) n3
          split at hc
          · rename_i x hx
            injection hc with hc; subst hc
            obtain ⟨rfl, hp, ht⟩ := found _ hx
            exact make hp ht (fun _ => n1) (fun _ => n2) (fun _ => n3)
          · cases hc

/-! ### The attempt (R165 to R168) -/

theorem late_iff {s : State} {p : Packet} : isLate s p = true ↔ Late s p := by
  simp only [isLate, Late, after]
  cases hd : p.deadline with
  | none => simp
  | some d => simp

/-- A state whose owed marks are cleared tells everything that an attempt reads. -/
theorem attempt_reads {x u : State} (h : x.noOwed = u) : u.pkp = x.pkp ∧ u.lsu = x.lsu ∧ u.tbu = x.tbu ∧ u.cmu = x.cmu ∧
    u.pgc = x.pgc ∧ ∀ l, sched u l = { sched x l with owed := false } := by
  subst h
  exact ⟨rfl, rfl, rfl, rfl, rfl, fun l => by simp [sched, State.noOwed, State.onHsc]⟩

theorem canTake_noOwed {x u : State} (h : x.noOwed = u) (l : Link) : canTake x l = canTake u l := by
  obtain ⟨-, h2, -, -, -, h6⟩ := attempt_reads h
  simp only [canTake, link, h2, h6]

theorem candidate_noOwed {x u : State} (h : x.noOwed = u) (l : Link) : candidate x l = candidate u l := by
  obtain ⟨h1, h2, -, -, -, h6⟩ := attempt_reads h
  have : openTo x l = openTo u l := by
    funext c p
    simp only [openTo, reservedElsewhere, h6]
  simp only [candidate, this, link, h1, h2]

theorem canTake_iff {l : Link} {s : State} : canTake s l = true ↔ LinkTakes l s := by
  simp only [canTake, LinkTakes, Bool.and_eq_true, Option.isNone_iff_eq_none, decide_eq_true_eq, and_assoc]
  exact Iff.rfl

theorem noOwed_setReservation (l : Link) (r : Option Reservation) (s : State) :
    (setReservation l r s).noOwed = (s.onSched l fun h => { h with reservation := r }).noOwed := by
  simp only [setReservation]
  split
  · simp only [State.noOwed, oweAll, State.onSched, State.onHsc]
    congr 2
    apply Table.ext_get; intro k; simp
  · rfl

theorem noOwed_onSched (l : Link) (f : LinkSched → LinkSched) (hf : ∀ k, f { k with owed := false } = { f k with owed := false })
    {x u : State} (h : x.noOwed = u) : (x.onSched l f).noOwed = u.onSched l f := by
  subst h
  simp only [State.noOwed, State.onSched, State.onHsc]
  congr 2
  apply Table.ext_get; intro k
  by_cases hk : l = k
  · subst hk; simp [hf]
  · simp [Table.get_modify_ne _ _ hk]

theorem takePacket_noOwed {x u : State} (h : x.noOwed = u) (l : Link) (c : QueueClass) (p : Packet) (left : List Packet) :
    (takePacket l c p left x).noOwed = takenBy l c p left u := by
  obtain ⟨-, -, -, -, -, h6⟩ := attempt_reads h
  have h6 := h6 l
  subst h
  simp only [takePacket, noOwed_setReservation]
  simp only [takenBy, State.noOwed, State.onSched, State.onHsc, State.onPool]
  congr 2
  apply Table.ext_get; intro k
  by_cases hk : l = k
  · subst hk
    simp only [Table.get_map, Table.get_modify_self, satInc, sched, reservationAfter]
  · simp [Table.get_modify_ne _ _ hk]

/-- The mark that a late drop of `p` sets (R167). -/
def markDropped (p : Packet) (s : State) : State :=
  if p.kind = .picture then
    match p.subject.bind (finOf 4) with
    | some q => refreshCause q s
    | none => s
  else s

theorem dropLate_eq (l : Link) (c : QueueClass) (p : Packet) (left : List Packet) (s : State) : dropLate l c p left s =
    setReservation l (reservationDropped (sched s l).reservation p) (markDropped p (raiseFlag .lateDrop
      ((s.onPool fun k => (k.setQueue c left).releasePacket p).onSched l fun h => { h with lateDrops := satInc h.lateDrops }))) := by
  rfl

theorem markDropped_eq (p : Packet) (y : State) : markDropped p y =
    { y with pgc := { y.pgc with progs := Table.ofFn fun q =>
        if p.kind = .picture ∧ ∃ r : Prog, p.subject = some r.val ∧ fold y r = q then
          { prog y q with refreshOwed := true, causes := min ((prog y q).causes + 1) 65535 } else prog y q } } := by
  have hid : ∀ (f : Prog → Prop) [DecidablePred f], (∀ q, ¬ f q) → (Table.ofFn fun q => if f q then
      { prog y q with refreshOwed := true, causes := min ((prog y q).causes + 1) 65535 } else prog y q) = y.pgc.progs := by
    intro f _ hf; apply Table.ext_get; intro q; simp [hf q, prog]
  simp only [markDropped]
  by_cases hp : p.kind = .picture
  · simp only [hp, if_true, true_and]
    cases hs : p.subject with
    | none =>
      simp only [Option.bind_none]
      rw [hid _ (by rintro q ⟨r, h, -⟩; cases h)]
    | some n =>
      simp only [Option.bind_some]
      by_cases hn : n < 4
      · have : finOf 4 n = some ⟨n, hn⟩ := by simp [finOf, hn]
        have ht : y.pgc.progs.modify (fold y ⟨n, hn⟩) (fun r => { r with refreshOwed := true, causes := satInc r.causes }) =
            Table.ofFn fun q => if ∃ r : Prog, some n = some r.val ∧ fold y r = q then
              { prog y q with refreshOwed := true, causes := min ((prog y q).causes + 1) 65535 } else prog y q := by
          apply Table.ext_get; intro q
          have hex : (∃ r : Prog, some n = some r.val ∧ fold y r = q) ↔ fold y ⟨n, hn⟩ = q := by
            constructor
            · rintro ⟨r, hr, h⟩
              injection hr with hr
              have : r = ⟨n, hn⟩ := Fin.ext hr.symm
              rw [← this]; exact h
            · intro h; exact ⟨⟨n, hn⟩, rfl, h⟩
          simp only [Table.get_ofFn, hex]
          by_cases hq : fold y ⟨n, hn⟩ = q
          · subst hq; simp [satInc, prog]
          · rw [if_neg hq, Table.get_modify_ne _ _ hq]; rfl
        simp only [this, refreshCause, State.onProg, State.onPgc, ht]
      · have : finOf 4 n = none := by simp [finOf, hn]
        simp only [this]
        rw [hid _ (by rintro q ⟨r, h, -⟩; injection h with h; omega)]
  · simp only [hp, if_false]
    rw [hid _ (by rintro q ⟨h, -⟩; exact h)]

theorem dropLate_noOwed {x u : State} (h : x.noOwed = u) (l : Link) (c : QueueClass) (p : Packet) (left : List Packet)
    (h1 : u.cmu.noticesHome = false) (h2 : u.cmu.notices.length < 32) :
    (dropLate l c p left x).noOwed = droppedBy l c p left u := by
  obtain ⟨r1, r2, r3, r4, r5, r6⟩ := attempt_reads h
  have r6 := r6 l
  subst h
  have hr : reservationDropped (sched x l).reservation p = (sched x l).reservation.bind fun r =>
      if r.covers p then if p.fragIndex < p.fragCount then some { r with expects := p.fragIndex + 1 } else none
      else some r := by
    cases h : (sched x l).reservation <;> simp [reservationDropped]
  have hl : ((x.hsc.links.modify l fun h => { h with lateDrops := satInc h.lateDrops }).modify l fun h =>
      { h with reservation := reservationDropped (sched x l).reservation p }).map (fun k => { k with owed := false }) =
      (x.noOwed.hsc.links.modify l fun k => { k with
        lateDrops := min (k.lateDrops + 1) 65535
        reservation := k.reservation.bind fun r =>
          if r.covers p then if p.fragIndex < p.fragCount then some { r with expects := p.fragIndex + 1 } else none
          else some r }) := by
    apply Table.ext_get; intro k
    by_cases hk : l = k
    · subst hk
      simp only [sched] at hr
      simp only [Table.get_map, Table.get_modify_self, satInc, hr, State.noOwed, State.onHsc, sched]
    · simp [Table.get_modify_ne _ _ hk, State.noOwed, State.onHsc]
  rw [dropLate_eq, noOwed_setReservation, raiseFlag_raised (by exact r4 ▸ h1) (by exact r4 ▸ h2), markDropped_eq]
  exact congrArg (fun L => ({ droppedBy l c p left x.noOwed with hsc := { x.hsc with links := L } } : State)) hl

/-- What no attempt of link `l` changes: the links that can take, but for `l`. -/
theorem TakeAttempt.others {l : Link} {u w : State} (h : TakeAttempt l u w) :
    w.lsu = u.lsu ∧ ∀ k, k ≠ l → (sched w k).slot = (sched u k).slot ∧ (sched w k).inFlight = (sched u k).inFlight := by
  induction h with
  | noCandidate _ => exact ⟨rfl, fun _ _ => ⟨rfl, rfl⟩⟩
  | noCredit _ _ _ => exact ⟨rfl, fun _ _ => ⟨rfl, rfl⟩⟩
  | take _ _ _ =>
    refine ⟨rfl, fun k hk => ?_⟩
    simp [sched, takenBy, Table.get_modify_ne _ _ (Ne.symm hk)]
  | drop _ _ _ _ _ ih =>
    refine ⟨ih.1, fun k hk => ?_⟩
    rw [(ih.2 k hk).1, (ih.2 k hk).2]
    simp [sched, droppedBy, Table.get_modify_ne _ _ (Ne.symm hk)]

theorem queue_setQueue (k : Pool) (c : QueueClass) (q : List Packet) :
    (k.setQueue c q).reply.length + (k.setQueue c q).label.length + (k.setQueue c q).sound.length +
      (k.setQueue c q).picture.length + (k.queue c).length =
    k.reply.length + k.label.length + k.sound.length + k.picture.length + q.length := by
  cases c <;> simp [Pool.setQueue, Pool.queue] <;> omega

theorem releasePacket_queues (k : Pool) (p : Packet) : (k.releasePacket p).reply = k.reply ∧
    (k.releasePacket p).label = k.label ∧ (k.releasePacket p).sound = k.sound ∧ (k.releasePacket p).picture = k.picture := by
  simp only [Pool.releasePacket]; split <;> exact ⟨rfl, rfl, rfl, rfl⟩

/-- An attempt of a link that can take does what R166 to R168 say, whatever marks are owed. -/
theorem attempt_takes {l : Link} {u w : State} (h : TakeAttempt l u w) (hc : canTake u l = true) (fuel : Nat)
    (hf : queued u < fuel) {x : State} (hx : x.noOwed = u) : (attempt fuel l x).noOwed = w := by
  induction h generalizing fuel x with
  | noCandidate hn =>
    obtain ⟨n, rfl⟩ : ∃ n, fuel = n + 1 := ⟨fuel - 1, by omega⟩
    simp only [attempt, canTake_noOwed hx, hc, candidate_noOwed hx, candidate_none hn, if_true]
    exact hx
  | @noCredit s c skipped rest p hcan hlate hcr =>
    obtain ⟨n, rfl⟩ : ∃ n, fuel = n + 1 := ⟨fuel - 1, by omega⟩
    obtain ⟨r1, r2, r3, r4, r5, r6⟩ := attempt_reads hx
    have h1 : isLate x p = false := by
      rw [← Bool.not_eq_true, late_iff]; simpa only [Late, r3] using hlate
    have h2 : ¬ p.size ≤ (sched x l).credit := by have := r6 l; rw [this] at hcr; exact Nat.not_le.2 hcr
    simp only [attempt, canTake_noOwed hx, hc, candidate_noOwed hx, candidate_of hcan, if_true, h1, h2, Bool.false_eq_true, if_false]
    exact hx
  | @take s c skipped rest p hcan hlate hcr =>
    obtain ⟨n, rfl⟩ : ∃ n, fuel = n + 1 := ⟨fuel - 1, by omega⟩
    obtain ⟨r1, r2, r3, r4, r5, r6⟩ := attempt_reads hx
    have h1 : isLate x p = false := by
      rw [← Bool.not_eq_true, late_iff]; simpa only [Late, r3] using hlate
    have h2 : p.size ≤ (sched x l).credit := by have := r6 l; rw [this] at hcr; exact hcr
    simp only [attempt, canTake_noOwed hx, hc, candidate_noOwed hx, candidate_of hcan, if_true, h1, h2, Bool.false_eq_true, if_false]
    exact takePacket_noOwed hx _ _ _ _
  | @drop s t c skipped rest p hcan hlate h1 h2 _ ih =>
    obtain ⟨n, rfl⟩ : ∃ n, fuel = n + 1 := ⟨fuel - 1, by omega⟩
    obtain ⟨r1, r2, r3, r4, r5, r6⟩ := attempt_reads hx
    have hl : isLate x p = true := by rw [late_iff]; simpa only [Late, r3] using hlate
    simp only [attempt, canTake_noOwed hx, hc, candidate_noOwed hx, candidate_of hcan, if_true, hl]
    apply ih
    · simp only [canTake, link, sched, droppedBy, Table.get_modify_self] at hc ⊢; exact hc
    · have hq := queue_setQueue s.pkp c (skipped ++ rest)
      rw [hcan.stands] at hq
      obtain ⟨q1, q2, q3, q4⟩ := releasePacket_queues (s.pkp.setQueue c (skipped ++ rest)) p
      simp only [queued, droppedBy, q1, q2, q3, q4] at hf ⊢
      simp only [List.length_append, List.length_cons] at hq
      omega
    · exact dropLate_noOwed hx l c p _ h1 h2

/-- A link that has ended its attempt finds nothing more to do. -/
theorem TakeAttempt.rests {l : Link} {u w : State} (h : TakeAttempt l u w) (fuel : Nat) {x : State} (hx : x.noOwed = w) :
    attempt fuel l x = x := by
  cases fuel with
  | zero => rfl
  | succ n =>
    obtain ⟨r1, r2, r3, r4, r5, r6⟩ := attempt_reads hx
    have main : canTake w l = false ∨ candidate w l = none ∨ ∃ c p left, candidate w l = some (c, p, left) ∧
        ¬ Late w p ∧ (sched w l).credit < p.size := by
      clear hx r1 r2 r3 r4 r5 r6
      induction h with
      | noCandidate hn => exact .inr (.inl (candidate_none hn))
      | noCredit hcan hlate hcr => exact .inr (.inr ⟨_, _, _, candidate_of hcan, hlate, hcr⟩)
      | take _ _ _ => exact .inl (by simp [canTake, sched, takenBy])
      | drop _ _ _ _ _ ih => exact ih
    simp only [attempt, canTake_noOwed hx, candidate_noOwed hx]
    obtain h | h | ⟨c, p, left, h, h1, h2⟩ := main
    · simp [h]
    · simp [h]
    · have h3 : isLate x p = false := by rw [← Bool.not_eq_true, late_iff]; simpa only [Late, r3] using h1
      have h4 : ¬ p.size ≤ (sched x l).credit := by rw [r6 l] at h2; exact Nat.not_le.2 h2
      simp [h, h3, h4]

/-! ### The attempts owed -/

theorem noOwed_noOwed (s : State) : s.noOwed.noOwed = s.noOwed := by
  apply noOwed_of; intro l; simp [sched, State.noOwed, State.onHsc]

theorem noOwed_clear {x u : State} (l : Link) (h : x.noOwed = u) : (x.onSched l fun k => { k with owed := false }).noOwed = u := by
  subst h
  simp only [State.noOwed, State.onSched, State.onHsc]
  congr 2
  apply Table.ext_get; intro k
  by_cases hk : l = k
  · subst hk; simp
  · simp [Table.get_modify_ne _ _ hk]

/-- Attempts that find nothing to do, in a state whatever marks are owed. -/
def Still (w : State) : Prop := ∀ l fuel x, x.noOwed = w → attempt fuel l x = x

theorem settle_still {w x : State} (h : Still w) (hx : x.noOwed = w) (fuel : Nat) : settle (fuel + 2) x = w := by
  have one : ∀ (l : Link) (y : State), y.noOwed = w →
      attemptOwed l y = y.onSched l fun k => { k with owed := false } := by
    intro l y hy
    simp only [attemptOwed]
    split
    · exact h l _ _ (noOwed_clear l hy)
    · rename_i ho
      have e : ({ y.hsc.links.get l with owed := false } : LinkSched) = y.hsc.links.get l := by
        simp only [sched, Bool.not_eq_true] at ho
        rw [← ho]
      simp [State.onSched, State.onHsc, Table.modify, e]
  have fold : ∀ (ls : List Link) (y : State), y.noOwed = w → (ls.foldl (fun s l => attemptOwed l s) y).noOwed = w ∧
      ∀ l, (l ∈ ls ∨ (sched y l).owed = false) → (sched (ls.foldl (fun s l => attemptOwed l s) y) l).owed = false := by
    intro ls
    induction ls with
    | nil => intro y hy; exact ⟨hy, fun l hl => hl.resolve_left (by simp)⟩
    | cons a ls ih =>
      intro y hy
      rw [List.foldl_cons, one a y hy]
      obtain ⟨i1, i2⟩ := ih _ (noOwed_clear a hy)
      refine ⟨i1, fun l hl => i2 l ?_⟩
      by_cases hla : a = l
      · subst hla; right; simp [sched, State.onSched, State.onHsc]
      · have e : (sched (y.onSched a fun k => { k with owed := false }) l).owed = (sched y l).owed := by
          simp [sched, State.onSched, State.onHsc, Table.get_modify_ne _ _ hla]
        rw [e]
        obtain hl | hl := hl
        · exact .inl ((List.mem_cons.mp hl).resolve_left (Ne.symm hla))
        · exact .inr hl
  rw [settle]
  split
  · obtain ⟨f1, f2⟩ := fold four x hx
    have clear : NoOwed (four.foldl (fun s l => attemptOwed l s) x) := fun l => f2 l (.inl (mem_four l))
    rw [settle, noOwed_any clear]
    simp only [Bool.false_eq_true, if_false]
    rw [← noOwed_of clear, f1]
  · rename_i hn
    rw [← hx, noOwed_of]
    intro l
    simp only [Bool.not_eq_true, List.any_eq_false] at hn
    have := hn l (mem_four l)
    simpa using this

/-- Where link `l` alone can take and an attempt is owed it, whatever other marks are owed, that attempt settles (R165 to
R168). -/
theorem settleTakes_owes {l : Link} {u w x : State} (h : TakeAttempt l u w) (hc : LinkTakes l u) (hx : x.noOwed = u)
    (hl : (sched x l).owed = true) (others : ∀ k, k ≠ l → ¬ LinkTakes k u) : settleTakes x = w := by
  have cannot : ∀ k, k ≠ l → ∀ fuel x, (x.noOwed = u ∨ x.noOwed = w) → attempt fuel k x = x := by
    intro k hk fuel x hx
    apply attempt_cannot
    have hu : canTake u k = false := by rw [← Bool.not_eq_true, canTake_iff]; exact others k hk
    obtain hx | hx := hx
    · rw [canTake_noOwed hx, hu]
    · rw [canTake_noOwed hx, ← hu]
      obtain ⟨o1, o2⟩ := h.others
      simp only [canTake, link, o1, (o2 k hk).1, (o2 k hk).2]
  have still : Still w := by
    intro k fuel x hx
    by_cases hk : k = l
    · subst hk; exact h.rests fuel hx
    · exact cannot k hk fuel x (.inr hx)
  have tail : ∀ (ls : List Link) (y : State), y.noOwed = w → (ls.foldl (fun s l => attemptOwed l s) y).noOwed = w := by
    intro ls
    induction ls with
    | nil => intro y hy; exact hy
    | cons a ls ih =>
      intro y hy
      rw [List.foldl_cons]
      apply ih
      simp only [attemptOwed]
      split
      · rw [still a _ _ (noOwed_clear a hy)]; exact noOwed_clear a hy
      · exact hy
  have front : ∀ (ls : List Link), l ∉ ls → ∀ y : State, y.noOwed = u → (sched y l).owed = true →
      (ls.foldl (fun s l => attemptOwed l s) y).noOwed = u ∧
        (sched (ls.foldl (fun s l => attemptOwed l s) y) l).owed = true := by
    intro ls
    induction ls with
    | nil => intro _ y hy hl; exact ⟨hy, hl⟩
    | cons a ls ih =>
      intro hn y hy hl
      rw [List.mem_cons, not_or] at hn
      rw [List.foldl_cons]
      have : (attemptOwed a y).noOwed = u ∧ (sched (attemptOwed a y) l).owed = true := by
        simp only [attemptOwed]
        split
        · rw [cannot a (Ne.symm hn.1) _ _ (.inl (noOwed_clear a hy))]
          refine ⟨noOwed_clear a hy, ?_⟩
          simpa [sched, State.onSched, State.onHsc, Table.get_modify_ne _ _ (Ne.symm hn.1)] using hl
        · exact ⟨hy, hl⟩
      exact ih hn.2 _ this.1 this.2
  obtain ⟨l1, l2, hl4⟩ := List.append_of_mem (mem_four l)
  have hnd : l ∉ l1 := by
    have : (l1 ++ l :: l2).Nodup := by rw [← hl4]; decide
    rw [List.nodup_append] at this
    intro hm; exact this.2.2 l hm l (List.mem_cons_self ..) rfl
  have round : (four.foldl (fun s l => attemptOwed l s) x).noOwed = w := by
    rw [hl4, List.foldl_append, List.foldl_cons]
    obtain ⟨f1, f2⟩ := front l1 hnd x hx hl
    generalize l1.foldl (fun s l => attemptOwed l s) x = y at f1 f2 ⊢
    apply tail
    simp only [attemptOwed, f2, if_true]
    refine attempt_takes h (canTake_iff.2 hc) _ ?_ (noOwed_clear l f1)
    have hq : ∀ y z : State, y.noOwed = z → queued z = queued y := by intro y z h; subst h; rfl
    have := hq _ _ f1
    simp only [queued, State.onSched, State.onHsc] at this ⊢
    omega
  have any : (four.any fun k => (sched x k).owed) = true := List.any_eq_true.2 ⟨l, mem_four l, hl⟩
  rw [settleTakes, settle, if_pos any]
  exact settle_still still round 5

/-- The marks of attempts owed to one link alone, cleared again. -/
theorem oweTake_noOwed {l : Link} {u : State} (ho : NoOwed u) : (oweTake l u).noOwed = u := by
  have hu : u.noOwed = u := noOwed_of ho
  rw [oweTake]
  conv_rhs => rw [← hu]
  simp only [State.noOwed, State.onSched, State.onHsc]
  congr 2
  apply Table.ext_get; intro k
  by_cases hk : l = k
  · subst hk; simp
  · simp [Table.get_modify_ne _ _ hk]

/-- Where link `l` alone can take, the attempt it is owed is the one that settles (R165 to R168). -/
theorem settleTakes_attempt {l : Link} {u w : State} (h : TakeAttempt l u w) (hc : LinkTakes l u) (ho : NoOwed u)
    (others : ∀ k, k ≠ l → ¬ LinkTakes k u) : settleTakes (oweTake l u) = w :=
  settleTakes_owes h hc (oweTake_noOwed ho) (by simp [oweTake, sched, State.onSched, State.onHsc]) others

end Sys2Proof.Machine
end

