-- ==== Sys2Proof/Laws/Books.lean ====
section
/-! SUPPORT. The books of the Packet Pool (R146, R147): the free list, the owners' counts and what is held, as multisets, and
what a grant and a release do to them. -/

namespace Sys2Proof.Machine

/-- What is held, by owner. -/
abbrev Bag := Multiset (Option Owner × List Nat)

/-- Every block of the pool is free or in the bag, once, and each owner's count is what the bag holds for it. -/
structure Books (free : List Nat) (owners : Table 6 OwnerRecord) (m : Bag) : Prop where
  whole : (free : Multiset Nat) + (m.map fun h => (h.2 : Multiset Nat)).sum = (List.range Config.poolBlocks : Multiset Nat)
  counts : ∀ o : Owner, (owners.get o.idx).count = (m.map fun h => if h.1 = some o then h.2.length else 0).sum
  owned : ∀ h ∈ m, h.1 = none → h.2 = []

theorem Owner.idx_inj {o u : Owner} (h : o.idx = u.idx) : o = u := by
  cases o <;> cases u <;> simp_all [Owner.idx, Fin.ext_iff] <;> omega

/-- Counts alone matter of the owners' records. -/
theorem Books.owners {free : List Nat} {o o' : Table 6 OwnerRecord} {m : Bag} (b : Books free o m)
    (h : ∀ i, (o'.get i).count = (o.get i).count) : Books free o' m :=
  ⟨b.whole, fun i => (h _).trans (b.counts i), b.owned⟩

/-- Nothing held can join or leave the bag. -/
theorem Books.nothing {free : List Nat} {o : Table 6 OwnerRecord} {m : Bag} {a : Option Owner} :
    Books free o ({(a, [])} + m) ↔ Books free o m := by
  constructor
  · intro b
    refine ⟨by simpa using b.whole, fun u => by simpa using b.counts u, fun h hh => b.owned h (by simp [hh])⟩
  · intro b
    refine ⟨by simpa using b.whole, fun u => by simpa using b.counts u, fun h hh => ?_⟩
    simp only [Multiset.singleton_add, Multiset.mem_cons] at hh
    rcases hh with rfl | hh
    · intro _; rfl
    · exact b.owned h hh

/-- A grant moves blocks from the free list into the bag. -/
theorem Books.grant {k k' : Pool} {o : Owner} {n : Nat} {bs : List Nat} {m : Bag} (h : k.grant o n = some (bs, k'))
    (b : Books k.free k.owners m) : Books k'.free k'.owners ({(some o, bs)} + m) := by
  simp only [Pool.grant] at h
  split at h
  · rename_i hn
    simp only [Option.some.injEq, Prod.mk.injEq] at h
    obtain ⟨rfl, rfl⟩ := h
    refine ⟨?_, ?_, ?_⟩
    · have w := b.whole
      rw [← w]
      have e : (k.free : Multiset Nat) = (k.free.drop n : Multiset Nat) + (k.free.take n : Multiset Nat) := by
        rw [Multiset.coe_add, Multiset.coe_eq_coe]
        have := List.perm_append_comm (l₁ := k.free.take n) (l₂ := k.free.drop n)
        rwa [List.take_append_drop] at this
      simp only [Multiset.singleton_add, Multiset.map_cons, Multiset.sum_cons]
      rw [e]; abel
    · intro u
      simp only [Multiset.singleton_add, Multiset.map_cons, Multiset.sum_cons]
      by_cases hu : o = u
      · subst hu
        simp [b.counts o, hn.1, Nat.add_comm]
      · rw [Table.get_set_ne _ _ (fun h => hu (Owner.idx_inj h)), b.counts u]
        simp [hu]
    · intro h hh
      simp only [Multiset.singleton_add, Multiset.mem_cons] at hh
      rcases hh with rfl | hh
      · intro h; simp at h
      · exact b.owned h hh
  · simp at h

/-- A release moves blocks from the bag to the tail of the free list. -/
theorem Books.release {free : List Nat} {owners : Table 6 OwnerRecord} {o : Owner} {bs : List Nat} {m : Bag}
    (b : Books free owners ({(some o, bs)} + m)) :
    Books (free ++ bs) (owners.modify o.idx fun r => { r with count := r.count - bs.length }) m := by
  refine ⟨?_, ?_, fun h hh => b.owned h (by simp [hh])⟩
  · have w := b.whole
    simp only [Multiset.singleton_add, Multiset.map_cons, Multiset.sum_cons] at w
    rw [← w, ← Multiset.coe_add]; abel
  · intro u
    have c := b.counts u
    simp only [Multiset.singleton_add, Multiset.map_cons, Multiset.sum_cons] at c
    by_cases hu : o = u
    · subst hu
      simp only [if_true] at c
      simp [c]
    · rw [Table.get_modify_ne _ _ (fun h => hu (Owner.idx_inj h)), c]
      simp [hu]

/-- A packet is released with the blocks that it holds. -/
theorem Books.releasePacket {k : Pool} {p : Packet} {m : Bag} (b : Books k.free k.owners ({p.holding} + m)) :
    Books (k.releasePacket p).free (k.releasePacket p).owners m := by
  simp only [Pool.releasePacket]
  cases ho : p.owner with
  | none =>
    have e : p.holding = (none, []) := by
      have h1 : p.holding.1 = none := by simp [Packet.holding, ho]
      have := b.owned p.holding (by simp) h1
      exact Prod.ext h1 this
    rw [e] at b
    exact Books.nothing.mp b
  | some o =>
    by_cases hk : p.kind = .probe
    · have h1 : p.holding.1 = none := by simp [Packet.holding, hk]
      have h2 := b.owned p.holding (by simp) h1
      have e : p.holding = (none, []) := Prod.ext h1 h2
      rw [e] at b
      have hb : p.blocks = [] := h2
      rw [hb]
      exact Books.release (Books.nothing.mpr (Books.nothing.mp b))
    · have e : p.holding = (some o, p.blocks) := by simp [Packet.holding, hk, ho]
      rw [e] at b
      exact b.release

/-- The bag of a list of packets. -/
def bagOf (ps : List Packet) : Bag := (ps.map Packet.holding : List (Option Owner × List Nat))

@[simp] theorem bagOf_nil : bagOf [] = 0 := rfl
@[simp] theorem bagOf_cons (p : Packet) (ps : List Packet) : bagOf (p :: ps) = {p.holding} + bagOf ps := rfl
@[simp] theorem bagOf_append (ps qs : List Packet) : bagOf (ps ++ qs) = bagOf ps + bagOf qs := by
  simp [bagOf, ← Multiset.coe_add]

theorem bagOf_perm {ps qs : List Packet} (h : ps.Perm qs) : bagOf ps = bagOf qs :=
  Multiset.coe_eq_coe.mpr (h.map _)

theorem bagOf_filter (f : Packet → Bool) (ps : List Packet) :
    bagOf ps = bagOf (ps.filter f) + bagOf (ps.filter fun p => !f p) := by
  rw [← bagOf_append]
  exact bagOf_perm (List.filter_append_perm f ps).symm

theorem Books.releasePackets {ps : List Packet} {k : Pool} {m : Bag} (b : Books k.free k.owners (bagOf ps + m)) :
    Books (k.releasePackets ps).free (k.releasePackets ps).owners m := by
  induction ps generalizing k with
  | nil => simpa [Pool.releasePackets] using b
  | cons p ps ih =>
    rw [bagOf_cons, add_assoc] at b
    exact ih b.releasePacket

/-- The fragments of an assembly are released one after another. -/
theorem Books.releaseAll {fs : List (List Nat)} {free : List Nat} {owners : Table 6 OwnerRecord} {o : Owner} {m : Bag}
    (b : Books free owners (((fs.map fun f => (some o, f) : List (Option Owner × List Nat)) : Bag) + m)) :
    Books (free ++ fs.flatten) (owners.modify o.idx fun r => { r with count := r.count - fs.flatten.length }) m := by
  induction fs generalizing free owners with
  | nil => simpa using b
  | cons f fs ih =>
    simp only [List.map_cons, ← Multiset.cons_coe, ← Multiset.singleton_add, add_assoc] at b
    have := ih b.release
    simp only [Table.modify_modify, List.append_assoc] at this
    simpa [Nat.sub_sub] using this

end Sys2Proof.Machine
end

