-- ==== Sys2Proof/Laws/Clips.lean ====
section
/-! SUPPORT. The clip table (chapter 7): its records by number, the record that a command names, the change and the freeing of
one record, and the table in ascending number. -/

namespace Sys2Proof.Machine

/-- Records of one number are one record (R123). -/
theorem clip_unique {m : ClipMarker} (hm : ClipsOk m) {c d : Clip} (hc : c ∈ m.clips) (hd : d ∈ m.clips) (hn : c.number = d.number) : c = d := by
  have := hm.distinct
  exact List.inj_on_of_nodup_map this hc hd hn

/-- The record of a number that the table holds. -/
theorem clipOf_mem {s : State} (hm : ClipsOk s.clm) {c : Clip} (hc : c ∈ s.clm.clips) : clipOf s c.number = some c := by
  cases hf : clipOf s c.number with
  | none =>
    simp only [clipOf, List.find?_eq_none] at hf
    have := hf c hc; simp at this
  | some d =>
    have hd : d ∈ s.clm.clips := List.mem_of_find?_eq_some hf
    have hn : d.number = c.number := by have := List.find?_some hf; simpa using this
    rw [clip_unique hm hd hc hn]

theorem clipOf_none {s : State} {n : Nat} (h : ∀ c ∈ s.clm.clips, c.number ≠ n) : clipOf s n = none := by
  simp only [clipOf, List.find?_eq_none]
  intro c hc; simpa using h c hc

theorem clipOf_some {s : State} {n : Nat} {c : Clip} (h : clipOf s n = some c) : c ∈ s.clm.clips ∧ c.number = n :=
  ⟨List.mem_of_find?_eq_some h, by have := List.find?_some h; simpa using this⟩

/-- A change of one record of the table. -/
theorem onClip_put {s : State} (hm : ClipsOk s.clm) {c : Clip} (hc : c ∈ s.clm.clips) (g : Clip → Clip) :
    onClip c.number g s = { s with clm := { s.clm with clips := s.clm.clips.map fun k => if k.number = c.number then g c else k } } := by
  simp only [onClip, State.onClm]
  congr 2
  apply List.map_congr_left
  intro d hd
  by_cases hn : d.number = c.number
  · rw [clip_unique hm hd hc hn]
  · simp [hn]

/-- A record that is freed leaves the table and every reference to it (R122). -/
theorem freeClip_eq (n : Nat) (s : State) : freeClip n s = { s with clm := { s.clm with
            clips := s.clm.clips.filter fun k => k.number != n
            desks := s.clm.desks.map fun k => if k = some n then none else k
            tally := s.clm.tally.map fun k => if k = some n then none else k
            waiting := s.clm.waiting.filter fun k => k != n
            acked := s.clm.acked.filter fun k => k != n } } := by
  have : (fun d : Option Nat => d.filter (· != n)) = fun k => if k = some n then none else k := by
    funext k; cases k with
    | none => rfl
    | some k => by_cases hk : k = n <;> simp [Option.filter, hk]
  simp only [freeClip, State.onClm, this]

theorem live_iff (c : Clip) : c.live = true ↔ (c.state = .opened ∨ c.state = .postRoll ∨ c.state = .closing) := by
  simp [Clip.live, or_assoc]

/-- A MARK-OUT without a reply moves an OPEN record to POST-ROLL, and leaves every other (R131, R140, R141). -/
theorem silent_markOut (n : Nat) (s : State) (hm : ClipsOk s.clm) (hp : s.clm.postRoll ≠ 0) : silentMarkOut n s = { s with
    clm := { s.clm with
      clips := s.clm.clips.map fun c => if c.number = n ∧ c.state = .opened then { c with
                    state := .postRoll
                    count := s.clm.postRoll } else c } } := by
  have idm : ∀ (_ : ∀ c ∈ s.clm.clips, ¬(c.number = n ∧ c.state = .opened)), (s.clm.clips.map fun c => if c.number = n ∧ c.state = .opened then { c with
                    state := .postRoll
                    count := s.clm.postRoll } else c) = s.clm.clips := by
    intro h
    conv_rhs => rw [← List.map_id s.clm.clips]
    apply List.map_congr_left
    intro c hc; rw [if_neg (h c hc)]; rfl
  cases hc : clipOf s n with
  | none =>
    have : ∀ c ∈ s.clm.clips, c.number ≠ n := by
      intro c hc2 he
      simp only [clipOf, List.find?_eq_none] at hc
      have := hc c hc2; simp [he] at this
    rw [idm fun c hc2 h => this c hc2 h.1]
    simp [silentMarkOut, markOut, hc]
  | some c =>
    have hmem : c ∈ s.clm.clips := List.mem_of_find?_eq_some hc
    have hnum : c.number = n := by have := List.find?_some hc; simpa using this
    by_cases ho : c.state = .opened
    · have : silentMarkOut n s = startPostRoll n s := by simp [silentMarkOut, markOut, hc, ho]
      rw [this]
      simp only [startPostRoll, hp, if_false, onClip, State.onClm]
      congr 2
      apply List.map_congr_left
      intro d hd
      by_cases hdn : d.number = n
      · have : d = c := clip_unique hm hd hmem (hdn.trans hnum.symm)
        subst this; simp [hdn, ho]
      · simp [hdn]
    · rw [idm]
      · simp only [silentMarkOut, markOut, hc, Option.bind_some]
        split <;> simp_all
      · rintro d hd ⟨h1, h2⟩
        have : d = c := clip_unique hm hd hmem (h1.trans hnum.symm)
        subst this; exact ho h2

theorem printable_all {t : List Byte} (h : ∀ b ∈ t, 32 ≤ b.toNat ∧ b.toNat ≤ 126) : t.all printable = true := by
  rw [List.all_eq_true]; intro b hb; have := h b hb; simp [printable, this]

theorem printable_not {t : List Byte} (h : ∃ b ∈ t, b.toNat < 32 ∨ 126 < b.toNat) : t.all printable = false := by
  rw [List.all_eq_false]; obtain ⟨b, hb, h⟩ := h; exact ⟨b, hb, by simp only [printable, Bool.and_eq_true, decide_eq_true_eq]; omega⟩

/-- The record that a clip command of the control stream names (R125). -/
theorem recordOf_iff {src : Src} {i : RingStream} {ref : ClipRef} {s : State} (hs : src = .van i none) (n : Nat) : recordOf src ref s = some n ↔
    ((ref.desk = none ∨ ∃ d : Fin 8, ref.desk = some d.val) ∧
      (ref.clip = some n ∧ n ≠ 0 ∨ ref.clip = none ∧ ∃ d : Fin 8, ref.desk = some d.val ∧ s.clm.desks.get d = some n)) ∧ ∃ c, clipOf s n = some c := by
  subst hs
  have fo : ∀ d : Fin 8, finOf 8 d.val = some d := by intro d; simp [finOf]
  constructor
  · intro h
    simp only [recordOf, Option.bind_eq_some_iff, Option.map_eq_some_iff] at h
    obtain ⟨desk, hd, m, hm, c, hc, rfl⟩ := h
    refine ⟨?_, c, hc⟩
    have hd2 : (ref.desk = none ∧ desk = none) ∨ ∃ d : Fin 8, ref.desk = some d.val ∧ desk = some d := by
      cases hr : ref.desk with
      | none => simp [actingDesk, hr] at hd; exact .inl ⟨rfl, hd.symm⟩
      | some d =>
        simp only [actingDesk, hr, Option.map_eq_some_iff] at hd
        obtain ⟨e, he, rfl⟩ := hd
        simp only [finOf] at he
        split at he
        · injection he with he; subst he; exact .inr ⟨_, rfl, rfl⟩
        · simp at he
    refine ⟨?_, ?_⟩
    · obtain ⟨h, _⟩ | ⟨d, h, _⟩ := hd2
      · exact .inl h
      · exact .inr ⟨d, h⟩
    · cases hcl : ref.clip with
      | some k =>
        simp only [hcl] at hm
        split at hm
        · simp at hm
        · injection hm with hm; subst hm; exact .inl ⟨rfl, by assumption⟩
      | none =>
        simp only [hcl] at hm
        obtain ⟨_, h⟩ | ⟨d, h, h2⟩ := hd2
        · simp [h] at hm
        · rw [h2] at hm; exact .inr ⟨rfl, d, h, hm⟩
  · rintro ⟨⟨hd, hn⟩, c, hc⟩
    have : actingDesk (.van i none) ref = some (ref.desk.bind (finOf 8)) := by
      obtain h | ⟨d, h⟩ := hd
      · simp [actingDesk, h]
      · simp [actingDesk, h, fo]
    simp only [recordOf, this, Option.bind_some]
    obtain ⟨h, h0⟩ | ⟨h, d, h1, h2⟩ := hn
    · simp [h, h0, hc]
    · simp [h, h1, fo, h2, hc]

theorem record_some {src : Src} {i : RingStream} {ref : ClipRef} {s : State} (hm : ClipsOk s.clm) (hs : src = .van i none) {c : Clip} (hc : c ∈ s.clm.clips)
    (hn : (ref.desk = none ∨ ∃ d : Fin 8, ref.desk = some d.val) ∧
      (ref.clip = some c.number ∨ ref.clip = none ∧ ∃ d : Fin 8, ref.desk = some d.val ∧ s.clm.desks.get d = some c.number)) : recordOf src ref s = some c.number := by
  rw [recordOf_iff hs]
  refine ⟨⟨hn.1, ?_⟩, c, clipOf_mem hm hc⟩
  obtain h | h := hn.2
  · exact .inl ⟨h, by have := (hm.numbers c hc).1; omega⟩
  · exact .inr h

theorem record_none {src : Src} {i : RingStream} {ref : ClipRef} {s : State} (hs : src = .van i none) 
    (hn : ∀ c ∈ s.clm.clips, ¬ ((ref.desk = none ∨ ∃ d : Fin 8, ref.desk = some d.val) ∧
      (ref.clip = some c.number ∨ ref.clip = none ∧ ∃ d : Fin 8, ref.desk = some d.val ∧ s.clm.desks.get d = some c.number))) : recordOf src ref s = none := by
  cases hr : recordOf src ref s with
  | none => rfl
  | some n =>
    rw [recordOf_iff hs] at hr
    obtain ⟨⟨h1, h2⟩, c, hc⟩ := hr
    obtain ⟨hm, rfl⟩ := clipOf_some hc
    exact absurd ⟨h1, h2.imp (fun h => h.1) id⟩ (hn c hm)

theorem insert_perm (c : Clip) (l : List Clip) : (insertByNumber c l).Perm (c :: l) := by
  induction l with
  | nil => exact List.Perm.refl _
  | cons d l ih =>
    simp only [insertByNumber]
    split
    · exact List.Perm.refl _
    · exact (ih.cons d).trans (List.Perm.swap c d l)

theorem insert_sorted (c : Clip) (l : List Clip) (h : l.Pairwise fun a b => a.number ≤ b.number) : (insertByNumber c l).Pairwise fun a b => a.number ≤ b.number := by
  induction l with
  | nil => simp [insertByNumber]
  | cons d l ih =>
    rw [List.pairwise_cons] at h
    simp only [insertByNumber]
    split
    · rename_i hle
      rw [List.pairwise_cons, List.pairwise_cons]
      refine ⟨fun x hx => ?_, h⟩
      obtain rfl | hx := List.mem_cons.1 hx
      · exact hle
      · have := h.1 x hx; omega
    · rename_i hle
      rw [List.pairwise_cons]
      refine ⟨fun x hx => ?_, ih h.2⟩
      obtain rfl | hx := List.mem_cons.1 ((insert_perm c l).mem_iff.1 hx)
      · omega
      · exact h.1 x hx

theorem sort_perm (l : List Clip) : (l.foldr insertByNumber []).Perm l := by
  induction l with
  | nil => exact List.Perm.refl _
  | cons c l ih => exact (insert_perm c _).trans (ih.cons c)

theorem sort_sorted (l : List Clip) : (l.foldr insertByNumber []).Pairwise fun a b => a.number ≤ b.number := by
  induction l with
  | nil => simp
  | cons c l ih => exact insert_sorted c _ ih

/-- The table in ascending number (R138). -/
theorem sort_eq {l m : List Clip} (h : l.Perm m) (hs : (l.map (·.number)).Pairwise (· < ·)) (hd : (m.map (·.number)).Nodup) : m.foldr insertByNumber [] = l := by
  refine List.Perm.eq_of_pairwise (le := fun a b => a.number ≤ b.number) ?_ (sort_sorted m) ?_ ((sort_perm m).trans h.symm)
  · intro a b ha hb h1 h2
    have ha : a ∈ m := (sort_perm m).mem_iff.1 ha
    have hb : b ∈ m := h.mem_iff.1 hb
    exact List.inj_on_of_nodup_map hd ha hb (by omega)
  · rw [List.pairwise_map] at hs; exact hs.imp fun h => Nat.le_of_lt h

/-- An expiry that no in-point passes is the out-point (R134). -/
theorem later_e (l : List ClipCamera) (e : Pic) (h : ∀ k ∈ l, ∃ a, k.inPoint = some a ∧ (e - a.pic).toNat ≤ 2147483647) :
    (l.filterMap fun k => k.inPoint.map (·.pic)).foldl laterPic e = e := by
  induction l with
  | nil => rfl
  | cons k l ih =>
    obtain ⟨a, ha, hle⟩ := h k (List.mem_cons_self ..)
    simp only [List.filterMap_cons, ha, Option.map_some, List.foldl_cons]
    have : laterPic e a.pic = e := by
      have : after a.pic e = false := by
        rw [Bool.eq_false_iff]
        simp only [after, ne_eq, Bool.and_eq_true, decide_eq_true_eq]
        rintro ⟨h1, h2⟩
        bv_omega
      simp [laterPic, this]
    rw [this]; exact ih fun k hk => h k (List.mem_cons_of_mem _ hk)

/-- A command whose owner asks every link for a take attempt, where no link can take. -/
theorem van_owed {h : Hdr} {i : RingStream} {s u : State} (hr : VanReady h i s) {c : Command} {r : Reply}
    (hp : perform (headOf h c) c (atHead h c s) = (oweAll (atHead h c u), r))
    (hl : listsFit c = true) (hc : c ≠ .reset 2) (hn : NoLinkTakes u)
    (ho : NoOwed u := by exact hr.1.1) (hv : u.cmu.van = [] := by exact hr.1.2.1) (hh : u.cmu.home = [] := by exact hr.1.2.2) :
    takeCommand h c s =
      { u with sri := ringReply u.sri h i (commandKind c) (byteOf r.status.code) r.results } := by
  rw [takeCommand_van hr hl hc (by rw [hp]; exact hh), hp]
  have e0 : replyVan (headOf h c) r (oweAll (atHead h c u)) = oweAll (replyVan (headOf h c) r (atHead h c u)) := rfl
  rw [e0, settleTakes_owed (by exact hn) (by exact ho)]
  have e : ({ u.cmu with van := [] } : CommandUnit) = u.cmu := by rw [← hv]
  have hb : r.bytes (headOf h c) = [commandKind c, byteOf r.status.code, byteOf i.val, 0] ++ records 1 r.results := by
    simp [Reply.bytes, headOf, srcStreamByte, hr.2.1]
  simp [replyVan, atHead, State.onSri, State.onCmu, ringReply, hb, e]
  rfl

/-- A number folded is folded onto itself (R33). -/
theorem fold_fold (s : State) (p : Prog) : fold s (fold s p) = fold s p := by
  simp only [fold]
  split
  · have : isOdd (evenOf p) = false := by fin_cases p <;> rfl
    simp [isPairedOdd, this]
  · rename_i h; simp [h]

theorem fin_bad {k v : Nat} (h : k ≤ v) : finOf k v = none := by simp [finOf]; omega

/-- A camera's in-point as a reply carries it, byte by byte (R127, R138). -/
theorem inPointBytes_eq (k : ClipCamera) : inPointBytes k = match k.inPoint with
    | some a => beBytes 4 a.pic.toNat ++ [if a.short then 2 else 1]
    | none => [0, 0, 0, 0, 3] := by
  simp only [inPointBytes]
  cases k.inPoint with
  | none => simp [beBytes]
  | some a => simp only; cases a.short <;> rfl

end Sys2Proof.Machine
end

