-- ==== Sys2Proof/Laws/Judged.lean ====
section
/-! SUPPORT. The judgement of a message at the head of its queue (R204) and the one reply it receives (R205), for every
command: what `unauthorised` and `listsFit` say in the terms of Safety, the status an owner gives, and where the reply goes. -/

namespace Sys2Proof.Machine

/-! ### The judgement in the terms of Safety -/

theorem listsFit_iff (c : Command) : listsFit c = true ↔ ¬ ListOut c := by
  cases c <;> simp only [listsFit, ListOut, decide_eq_true_eq, not_lt, not_false_eq_true, iff_true]
  case inputSet f => cases f.groups <;> simp
  case mixSet l => cases l <;> simp
  case triggerSet f => cases f.cameras <;> simp
  case clipMark a f =>
    cases f.cameras with
    | none => simp
    | some l => cases l <;> simp
  case eventsClear l =>
    cases l with
    | all => simp
    | flags l => cases l <;> simp

theorem deskCommand_iff (c : Command) : deskCommand c = true ↔ DeskMay c := by
  cases c <;> simp [deskCommand, DeskMay]

theorem needsAuthority_iff (c : Command) : needsAuthority c = false ↔ NeedsNone c := by
  cases c <;> simp only [needsAuthority, queryForm, NeedsNone, Bool.not_false, Bool.not_eq_false', Bool.and_eq_true,
    beq_iff_eq, reduceCtorEq, Bool.true_eq_false]
  case rateSet f =>
    constructor
    · rintro ⟨h, e⟩
      obtain ⟨n, hn⟩ := Option.isSome_iff_exists.mp h
      exact ⟨n, by rw [e, hn]⟩
    · rintro ⟨n, rfl⟩; exact ⟨rfl, rfl⟩
  case inputMap f =>
    obtain ⟨l, o⟩ := f
    simp
  case inputSet f =>
    constructor
    · rintro ⟨h, e⟩
      obtain ⟨n, hn⟩ := Option.isSome_iff_exists.mp h
      exact ⟨n, by rw [e, hn]⟩
    · rintro ⟨n, rfl⟩; exact ⟨rfl, rfl⟩
  case soundStreamSet f =>
    constructor
    · rintro ⟨h, e⟩
      obtain ⟨n, hn⟩ := Option.isSome_iff_exists.mp h
      exact ⟨n, by rw [e, hn]⟩
    · rintro ⟨n, rfl⟩; exact ⟨rfl, rfl⟩
  case linkSet f =>
    constructor
    · rintro ⟨h, e⟩
      obtain ⟨n, hn⟩ := Option.isSome_iff_exists.mp h
      exact ⟨n, by rw [e, hn]⟩
    · rintro ⟨n, rfl⟩; exact ⟨rfl, rfl⟩

theorem unauthorised_iff (a : Authority) (src : Src) (c : Command) : unauthorised a src c = true ↔ ShutOut a src c := by
  have hn := needsAuthority_iff c
  have hd := deskCommand_iff c
  cases src with
  | van i d =>
    have : includes a (srcOrigin (.van i d)) = decide (a ≠ .home) := by cases a <;> rfl
    cases d with
    | none =>
      simp only [unauthorised, ShutOut, this, ← hn]
      cases a <;> simp
    | some d =>
      simp only [unauthorised, ShutOut, this, ← hn, ← hd]
      cases a <;> simp
  | home =>
    have : includes a (srcOrigin .home) = decide (a ≠ .van) := by cases a <;> rfl
    simp only [unauthorised, ShutOut, this, ← hn, Bool.false_or]
    cases c <;> cases a <;> simp

/-- A row that stands for a command message hands it to the Command Unit. -/
theorem exec_message {i : Instr} {h : Hdr} {c : Command} (hm : messageOf i = some (h, c)) (s : State) :
    exec i s = .next (takeCommand h c s) := by
  cases i <;> simp only [messageOf, reduceCtorEq, Option.some.injEq, Prod.mk.injEq] at hm <;> obtain ⟨rfl, rfl⟩ := hm <;> rfl

/-! ### The owner's answer -/

/-- The statuses that an owner gives (11.3). -/
def Status.owners (r : Status) : Prop :=
  r = .done ∨ r = .doneClamped ∨ r = .accepted ∨ r = .refusedState ∨ r = .refusedRange ∨ r = .refusedFull

theorem doneIf_owners (b : Bool) : (doneIf b).owners := by cases b <;> simp [doneIf, Status.owners]

theorem timebaseSet_owners (f : TimebaseFields) (s : State) : (timebaseSet f s).2.status.owners := by
  simp only [timebaseSet]
  repeat' split
  all_goals first
    | exact doneIf_owners _
    | simp [Status.owners]

theorem formatSet_owners (f : FormatFields) (s : State) : (formatSet f s).2.status.owners := by
  simp only [formatSet]
  repeat' split
  all_goals first
    | exact doneIf_owners _
    | simp [Status.owners]

theorem programmeSet_owners (f : ProgFields) (s : State) : (programmeSet f s).2.status.owners := by
  simp only [programmeSet]
  repeat' split
  all_goals first
    | exact doneIf_owners _
    | simp [Status.owners]

theorem programmeStart_owners (m : Hdr) (n : Option Nat) (s : State) : (programmeStart m n s).2.status.owners := by
  simp only [programmeStart]
  repeat' split
  all_goals first
    | exact doneIf_owners _
    | simp [Status.owners]

theorem programmeCut_owners (n : Option Nat) (flush : Bool) (s : State) : (programmeCut n flush s).2.status.owners := by
  simp only [programmeCut]
  repeat' split
  all_goals first
    | exact doneIf_owners _
    | simp [Status.owners]

theorem finishRunning_owners (m : Hdr) (p : Prog) (s : State) : (finishRunning m p s).2.status.owners := by
  simp only [finishRunning]
  repeat' split
  all_goals first
    | exact doneIf_owners _
    | simp [Status.owners]

theorem freezeRunning_owners (m : Hdr) (p : Prog) (s : State) : (freezeRunning m p s).2.status.owners := by
  simp only [freezeRunning]
  repeat' split
  all_goals first
    | exact doneIf_owners _
    | simp [Status.owners]

theorem refreshCommand_owners (n : Option Nat) (s : State) : (refreshCommand n s).2.status.owners := by
  simp only [refreshCommand]
  repeat' split
  all_goals first
    | exact doneIf_owners _
    | simp [Status.owners]

theorem rateSet_owners (f : RateFields) (s : State) : (rateSet f s).2.status.owners := by
  simp only [rateSet]
  repeat' split
  all_goals first
    | exact doneIf_owners _
    | simp [Status.owners]

theorem inputMap_owners (f : MapFields) (s : State) : (inputMap f s).2.status.owners := by
  simp only [inputMap]
  repeat' split
  all_goals first
    | exact doneIf_owners _
    | simp [Status.owners]

theorem inputSet_owners (f : InputFields) (s : State) : (inputSet f s).2.status.owners := by
  simp only [inputSet]
  repeat' split
  all_goals first
    | exact doneIf_owners _
    | simp [Status.owners]

theorem mixSet_owners (l : List MixEntry) (s : State) : (mixSet l s).2.status.owners := by
  simp only [mixSet]
  repeat' split
  all_goals first
    | exact doneIf_owners _
    | simp [Status.owners]

theorem busSet_owners (f : BusFields) (s : State) : (busSet f s).2.status.owners := by
  simp only [busSet]
  repeat' split
  all_goals first
    | exact doneIf_owners _
    | simp [Status.owners]

theorem triggerSet_owners (f : TriggerFields) (s : State) : (triggerSet f s).2.status.owners := by
  simp only [triggerSet]
  repeat' split
  all_goals first
    | exact doneIf_owners _
    | simp [Status.owners]

theorem soundStreamSet_owners (f : StreamFields) (s : State) : (soundStreamSet f s).2.status.owners := by
  simp only [soundStreamSet]
  repeat' split
  all_goals first
    | exact doneIf_owners _
    | simp [Status.owners]

theorem clipLabel_owners (src : Src) (ref : ClipRef) (text : Option (List Byte)) (s : State) : (clipLabel src ref text s).2.status.owners := by
  simp only [clipLabel]
  repeat' split
  all_goals first
    | exact doneIf_owners _
    | simp [Status.owners]

theorem clipQuery_owners (src : Src) (ref : ClipRef) (s : State) : (clipQuery src ref s).2.status.owners := by
  simp only [clipQuery]
  repeat' split
  all_goals first
    | exact doneIf_owners _
    | simp [Status.owners]

theorem clipSettings_owners (f : ClipSettingsFields) (s : State) : (clipSettings f s).2.status.owners := by
  simp only [clipSettings]
  repeat' split
  all_goals first
    | exact doneIf_owners _
    | simp [Status.owners]

theorem linkSet_owners (f : LinkFields) (s : State) : (linkSet f s).2.status.owners := by
  simp only [linkSet]
  repeat' split
  all_goals first
    | exact doneIf_owners _
    | simp [Status.owners]

theorem linkUp_owners (m : Hdr) (n : Option Nat) (s : State) : (linkUp m n s).2.status.owners := by
  simp only [linkUp]
  repeat' split
  all_goals first
    | exact doneIf_owners _
    | simp [Status.owners]

theorem linkDown_owners (n : Option Nat) (s : State) : (linkDown n s).2.status.owners := by
  simp only [linkDown]
  repeat' split
  all_goals first
    | exact doneIf_owners _
    | simp [Status.owners]

theorem linkClear_owners (m : Hdr) (n : Option Nat) (s : State) : (linkClear m n s).2.status.owners := by
  simp only [linkClear]
  repeat' split
  all_goals first
    | exact doneIf_owners _
    | simp [Status.owners]

theorem eventsClear_owners (l : ClearList) (s : State) : (eventsClear l s).2.status.owners := by
  simp only [eventsClear]
  repeat' split
  all_goals first
    | exact doneIf_owners _
    | simp [Status.owners]

theorem authoritySet_owners (f : AuthorityFields) (s : State) : (authoritySet f s).2.status.owners := by
  simp only [authoritySet]
  repeat' split
  all_goals first
    | exact doneIf_owners _
    | simp [Status.owners]

theorem gentleStop_owners (n : Option Nat) (flush : Bool) (run : Prog → State → State × Reply)
    (h : ∀ p s, (run p s).2.status.owners) (s : State) : (gentleStop n flush run s).2.status.owners := by
  simp only [gentleStop]
  repeat' split
  all_goals first
    | exact h _ _
    | simp [Status.owners]

theorem programmeStop_owners (m : Hdr) (n : Option Nat) (mode : Nat) (flush : Bool) (s : State) :
    (programmeStop m n mode flush s).2.status.owners := by
  simp only [programmeStop]
  split
  · exact programmeCut_owners ..
  · exact gentleStop_owners _ _ _ (finishRunning_owners m) _
  · exact gentleStop_owners _ _ _ (freezeRunning_owners m) _
  · repeat' split
    all_goals simp [Status.owners]

theorem markIn_owners {source : ClipSource} {cams : Table 4 Bool} {prio : Priority} {text : List Byte} {s u : State}
    {e : Status} (h : markIn source cams prio text s = (.error e, u)) : e.owners := by
  simp only [markIn] at h
  repeat' split at h
  all_goals simp at h
  all_goals obtain ⟨rfl, -⟩ := h
  all_goals simp [Status.owners]

theorem clipMarkIn_owners (src : Src) (f : MarkFields) (s : State) : (clipMarkIn src f s).2.status.owners := by
  simp only [clipMarkIn, markInFor]
  repeat' split
  all_goals first
    | exact doneIf_owners _
    | exact markIn_owners (by assumption)
    | simp [Status.owners]

theorem markRecord_owners {src : Src} {f : MarkFields} {act : Clip → Option (State × Reply)} {s : State}
    (h : ∀ c r, act c = some r → r.2.status.owners) : (markRecord src f act s).2.status.owners := by
  simp only [markRecord]
  repeat' split
  all_goals first
    | exact h _ _ (by assumption)
    | simp [Status.owners]

theorem clipMark_owners (src : Src) (action : Nat) (f : MarkFields) (s : State) :
    (clipMark src action f s).2.status.owners := by
  simp only [clipMark]
  split
  · exact clipMarkIn_owners ..
  · refine markRecord_owners fun c r h => ?_
    obtain ⟨s1, -, rfl⟩ := Option.map_eq_some_iff.mp h
    simp [Status.owners]
  · refine markRecord_owners fun c r h => ?_
    split at h <;> simp only [Option.some.injEq, reduceCtorEq] at h <;> subst h <;> simp [Status.owners]
  · refine markRecord_owners fun c r h => ?_
    split at h <;> simp only [Option.some.injEq, reduceCtorEq] at h <;> subst h <;> simp [Status.owners]
  · simp [Status.owners]

theorem answerObject_owners {n : Nat} (o : Option (Fin n)) (f : Fin n → State × Reply) (s : State)
    (h : ∀ i, (f i).2.status.owners) : (answerObject o f s).2.status.owners := by
  simp only [answerObject]
  split
  · exact h _
  · simp [Status.owners]

theorem answerWith_owners (r : Results) (s : State) : (answerWith r s).2.status.owners := by simp [answerWith, Status.owners]

theorem queryMixer_owners (object : Option (Nat × List Nat)) (s : State) : (queryMixer object s).2.status.owners := by
  simp only [queryMixer]
  split
  all_goals first
    | exact answerWith_owners _ _
    | exact answerObject_owners _ _ _ fun _ => answerWith_owners _ _
    | exact answerObject_owners _ _ _ fun _ => answerObject_owners _ _ _ fun _ => answerWith_owners _ _
    | simp [Status.owners]

theorem statusQuery_owners (f : QueryFields) (s : State) : (statusQuery f s).2.status.owners := by
  simp only [statusQuery]
  split
  · simp only [queryBlock]
    split
    all_goals first
      | exact queryMixer_owners _ _
      | exact answerWith_owners _ _
      | exact answerObject_owners _ _ _ fun _ => answerWith_owners _ _
      | simp [Status.owners]
  · simp [Status.owners]

theorem perform_reset (m : Msg) {n : Nat} (h : n ≠ 1) (s : State) : perform m (.reset n) s = (s, { status := .refusedRange }) := by
  unfold perform
  split <;> simp_all

/-- Every owner answers with one of the six statuses that are its own. -/
theorem perform_owners (m : Msg) (c : Command) (s : State) : (perform m c s).2.status.owners := by
  cases c
  case reset n =>
    by_cases h : n = 1
    · subst h; simp [perform, Status.owners]
    · rw [perform_reset m h s]; simp [Status.owners]
  all_goals simp only [perform]
  case timebaseSet => exact timebaseSet_owners ..
  case formatSet => exact formatSet_owners ..
  case programmeSet => exact programmeSet_owners ..
  case programmeStart => exact programmeStart_owners ..
  case refresh => exact refreshCommand_owners ..
  case rateSet => exact rateSet_owners ..
  case inputMap => exact inputMap_owners ..
  case inputSet => exact inputSet_owners ..
  case mixSet => exact mixSet_owners ..
  case busSet => exact busSet_owners ..
  case triggerSet => exact triggerSet_owners ..
  case soundStreamSet => exact soundStreamSet_owners ..
  case clipLabel => exact clipLabel_owners ..
  case clipQuery => exact clipQuery_owners ..
  case clipSettings => exact clipSettings_owners ..
  case linkSet => exact linkSet_owners ..
  case linkUp => exact linkUp_owners ..
  case linkDown => exact linkDown_owners ..
  case linkClear => exact linkClear_owners ..
  case eventsClear => exact eventsClear_owners ..
  case authoritySet => exact authoritySet_owners ..
  case programmeStop => exact programmeStop_owners ..
  case clipMark => exact clipMark_owners ..
  case statusQuery => exact statusQuery_owners ..


/-! ### One reply on the ring (R205) -/

/-- What `perform` leaves of the queues: all, but for RESET MEDIA, which keeps the command itself where it came from home. -/
theorem perform_waits (m : Msg) (c : Command) (s : State) (h : ∀ f, c ≠ .authoritySet f) (h2 : c ≠ .reset 1) :
    (perform m c s).1.waits = s.waits := by
  cases c
  case reset n => rw [perform_reset m (n := n) (fun e => h2 (by rw [e])) s]
  all_goals simp only [perform]
  all_goals first
    | exact absurd rfl (h _)
    | simp

/-- The ring output queue and the VAN queue stand while an owner works; so does the HOME queue, but that RESET MEDIA keeps of
it the command itself alone. -/
theorem perform_queues (m : Msg) (c : Command) (s : State) :
    (perform m c s).1.sri.queue = s.sri.queue ∧ (perform m c s).1.cmu.van = s.cmu.van ∧
      (perform m c s).1.cmu.home = if c = .reset 1 then (match m.hdr.src with
        | .home => [m]
        | .van _ _ => []) else s.cmu.home := by
  by_cases h : ∃ f, c = .authoritySet f
  · obtain ⟨f, rfl⟩ := h
    simp only [perform, authoritySet]
    split <;> simp
  · by_cases h2 : c = .reset 1
    · subst h2
      refine ⟨rfl, rfl, ?_⟩
      simp only [if_true]
      rfl
    · have w := perform_waits m c s (fun f e => h ⟨f, e⟩) h2
      simp only [State.waits, Prod.mk.injEq] at w
      exact ⟨w.2.2.2.1, w.1, by rw [if_neg h2]; exact w.2.1⟩

/-- The state in which the head of the VAN queue, the only message that waits, is judged. -/
def atVan (m : Msg) (s : State) : State := s.onCmu fun c => { c with van := [m] }

/-- The state in which the head of the HOME queue, the only message that waits, is judged. -/
def atHome (m : Msg) (s : State) : State := s.onCmu fun c => { c with home := [m] }

@[simp] theorem answer_home (m : Msg) (s : State) {i : RingStream} {d : Option (Fin 8)} (hs : m.hdr.src = .van i d)
    (h : s.cmu.home = []) : (answer m s).1.cmu.home = [] := by
  simp only [answer]
  split
  · have := raiseFlag_waits .malformed s
    simp only [State.waits, Prod.mk.injEq] at this
    rw [this.2.1]; exact h
  · exact h
  · split
    · exact h
    · have := (perform_queues m ‹_› s).2.2
      rw [this, hs]
      split
      · rfl
      · exact h

/-- A message from the ring that finds its way free: it is judged, its owner works, and one reply joins the ring output queue. -/
theorem van_served {m : Msg} {i : RingStream} {d : Option (Fin 8)} {s : State} (q : Quiet s) (hs : m.hdr.src = .van i d)
    (room : s.sri.queue.length + 8 ≤ 64) (hr : isResetAll m (atVan m s) = false) :
    finish (submit m s) =
      settleTakes (replyVan m (answer m (atVan m s)).2 (answer m (atVan m s)).1) := by
  have hsub : submit m s = atVan m s := by
    simp [submit, hs, joinVan, q.2.1, Config.commandQueue, atVan, State.onCmu]
  have h1 : serveVan (atVan m s).cmu.van.length (atVan m s) = dispatchVan m (atVan m s) := by
    simp [atVan, serveVan, Config.replyCells, Config.ringQueue, room]
  have h2 : dispatchVan m (atVan m s) = replyVan m (answer m (atVan m s)).2 (answer m (atVan m s)).1 := by
    simp [dispatchVan, hr]
  rw [hsub, finish, serve, h1, h2]
  have := answer_home m (atVan m s) hs q.2.2
  simp [replyVan, this, serveHome]

/-- A message from home that finds its way free: it is judged, its owner works, and its reply asks for its blocks. -/
theorem home_served {m : Msg} {s : State} (q : Quiet s) (hs : m.hdr.src = .home) (hd : s.cmu.held = none)
    (hr : isResetAll m (atHome m s) = false) :
    finish (submit m s) = settleTakes (offerHome m.hdr.tag ((answer m (atHome m s)).2.bytes m) (answer m (atHome m s)).1) := by
  have hsub : submit m s = atHome m s := by
    simp [submit, hs, joinHome, q.2.2, Config.commandQueue, atHome, State.onCmu]
  have h1 : serveVan (atHome m s).cmu.van.length (atHome m s) = atHome m s := by
    simp [atHome, q.2.1, serveVan]
  have h2 : serveHome (atHome m s).cmu.home.length (atHome m s) = dispatchHome m (atHome m s) := by
    simp [atHome, serveHome, hd]
  rw [hsub, finish, serve, h1, h2]
  simp [dispatchHome, hr]

/-- What `van_served` comes to where the answer asks for no take attempt and leaves the queues alone. -/
theorem van_answered {m : Msg} {i : RingStream} {d : Option (Fin 8)} {r : Reply} {s u : State} (q : Quiet s)
    (hs : m.hdr.src = .van i d) (room : s.sri.queue.length + 8 ≤ 64) (hr : isResetAll m (atVan m s) = false)
    (ha : answer m (atVan m s) = (atVan m u, r)) (ho : NoOwed u) (hv : u.cmu.van = []) :
    finish (submit m s) = { u with sri := ringReply u.sri m.hdr i m.kind (byteOf r.status.code) r.results } := by
  rw [van_served q hs room hr, ha]
  have hn : NoOwed (replyVan m r (atVan m u)) := ho
  rw [settleTakes_noOwed hn]
  have e : ({ u.cmu with van := [] } : CommandUnit) = u.cmu := by rw [← hv]
  have hb : r.bytes m = [m.kind, byteOf r.status.code, byteOf i.val, 0] ++ records 1 r.results := by
    simp [Reply.bytes, srcStreamByte, hs]
  simp [replyVan, atVan, State.onSri, State.onCmu, ringReply, hb, e]

/-! ### A reply on its way home (R205) -/

/-- A packet waits in the REPLY queue or stands in a slot. -/
def Kept (p : Packet) (s : State) : Prop := p ∈ s.pkp.reply ∨ ∃ l t, (sched s l).slot = some t ∧ t.packet = p

theorem kept_of {p : Packet} {s u : State} (h : Kept p s) (h1 : ∀ x, x ∈ s.pkp.reply → x ∈ u.pkp.reply)
    (h2 : ∀ l, (sched u l).slot = (sched s l).slot) : Kept p u := by
  obtain h | ⟨l, t, a, b⟩ := h
  · exact .inl (h1 p h)
  · exact .inr ⟨l, t, by rw [h2]; exact a, b⟩

theorem oweAll_slot (s : State) (l : Link) : (sched (oweAll s) l).slot = (sched s l).slot := by
  simp [sched, oweAll, State.onHsc]

theorem kept_append {p : Packet} {s : State} (c : QueueClass) (ps : List Packet) (h : Kept p s) : Kept p (appendPackets c ps s) :=
  kept_of h (fun x hx => by
    show x ∈ (s.pkp.setQueue c (s.pkp.queue c ++ ps)).reply
    cases c <;> simp [Pool.setQueue, Pool.queue, hx]) (fun l => oweAll_slot _ l)

theorem kept_same {p : Packet} {s u : State} (h : Kept p s) (h1 : u.pkp.reply = s.pkp.reply := by rfl)
    (h2 : u.hsc = s.hsc := by rfl) : Kept p u :=
  kept_of h (fun x hx => by rw [h1]; exact hx) (fun l => by simp only [sched, h2])

theorem kept_sendHomeNotice {p : Packet} (raise : EventFlag → State → State) (hr : ∀ f s, Kept p s → Kept p (raise f s))
    {s : State} (h : Kept p s) : Kept p (sendHomeNotice raise s).2 := by
  simp only [sendHomeNotice]
  split
  · exact h
  · split
    · rename_i bs k hg
      refine kept_append _ _ (kept_same h ?_)
      simp only [Pool.grant] at hg
      split at hg
      · simp only [Option.some.injEq, Prod.mk.injEq] at hg
        simp only [State.onCmu_pkp, ← hg.2]
      · cases hg
    · exact hr _ _ (kept_same h)

theorem kept_queueNotice {p : Packet} (raise : EventFlag → State → State) (hr : ∀ f s, Kept p s → Kept p (raise f s))
    (n : Notice) {s : State} (h : Kept p s) : Kept p (queueNoticeWith raise n s) := by
  have hc : ∀ u, Kept p u → Kept p (homeCopy raise n u) := by
    intro u hu
    have h1 : Kept p (u.onCmu fun c => { c with homeNotices := joinNotices u.cmu.homeNotices n }) := kept_same hu
    simp only [homeCopy]
    repeat' split
    all_goals first
      | exact hr _ _ (kept_sendHomeNotice raise hr h1)
      | exact kept_sendHomeNotice raise hr h1
      | exact hr _ _ h1
      | exact h1
  have h1 : Kept p (s.onCmu fun c => { c with notices := joinNotices s.cmu.notices n }) := kept_same h
  simp only [queueNoticeWith]
  repeat' split
  all_goals first
    | exact hr _ _ (hc _ h1)
    | exact hc _ h1
    | exact hr _ _ h1
    | exact h1

theorem kept_raise {p : Packet} (f : EventFlag) {s : State} (h : Kept p s) : Kept p (raiseFlag f s) := by
  have key : ∀ k f s, Kept p s → Kept p (raiseWithin k f s) := by
    intro k
    induction k with
    | zero => intro f s h; exact kept_same h
    | succ k ih =>
      intro f s h
      simp only [raiseWithin]
      split
      · exact kept_same h
      · exact kept_queueNotice _ ih _ (kept_same h)
  exact key 4 f s h

theorem takeFirst_mem {f : Packet → Bool} {l rest : List Packet} {a : Packet} (h : takeFirst f l = some (a, rest)) :
    a ∈ l ∧ ∀ x ∈ l, x = a ∨ x ∈ rest := by
  induction l generalizing rest with
  | nil => cases h
  | cons b l ih =>
    simp only [takeFirst] at h
    split at h
    · simp only [Option.some.injEq, Prod.mk.injEq] at h
      obtain ⟨rfl, rfl⟩ := h
      simp
    · simp only [Option.map_eq_some_iff, Prod.mk.injEq] at h
      obtain ⟨⟨a', rest'⟩, h1, rfl, rfl⟩ := h
      obtain ⟨h2, h3⟩ := ih h1
      refine ⟨List.mem_cons_of_mem _ h2, fun x hx => ?_⟩
      obtain rfl | hx := List.mem_cons.mp hx
      · exact .inr (List.mem_cons_self ..)
      · obtain h4 | h4 := h3 x hx
        · exact .inl h4
        · exact .inr (List.mem_cons_of_mem _ h4)

theorem candidate_split {s : State} {l : Link} {c : QueueClass} {a : Packet} {rest : List Packet}
    (h : candidate s l = some (c, a, rest)) :
    takeFirst (openTo s l c) (s.pkp.queue c) = some (a, rest) := by
  simp only [candidate] at h
  obtain ⟨d, -, hd⟩ := List.exists_of_findSome?_eq_some h
  split at hd
  · simp only [Option.map_eq_some_iff, Prod.mk.injEq] at hd
    obtain ⟨⟨a', rest'⟩, h1, rfl, rfl, rfl⟩ := hd
    exact h1
  · cases hd

theorem setReservation_slot (l : Link) (r : Option Reservation) (s : State) (k : Link) :
    (sched (setReservation l r s) k).slot = (sched s k).slot := by
  have : (sched (s.onSched l fun h => { h with reservation := r }) k).slot = (sched s k).slot := by
    simp only [sched, State.onSched, State.onHsc, Table.get_modify]
    split
    · rename_i h; subst h; rfl
    · rfl
  simp only [setReservation]
  split
  · rw [oweAll_slot]; exact this
  · exact this

theorem setReservation_pkp (l : Link) (r : Option Reservation) (s : State) : (setReservation l r s).pkp = s.pkp := by
  simp only [setReservation]
  split <;> rfl

theorem kept_setReservation {p : Packet} {s : State} (l : Link) (r : Option Reservation) (h : Kept p s) :
    Kept p (setReservation l r s) :=
  kept_of h (fun x hx => by rw [setReservation_pkp]; exact hx) (fun k => setReservation_slot l r s k)

theorem setQueue_reply (k : Pool) (c : QueueClass) (ps : List Packet) :
    (k.setQueue c ps).reply = if c = .reply then ps else k.reply := by
  cases c <;> rfl

theorem releasePacket_reply (k : Pool) (p : Packet) : (k.releasePacket p).reply = k.reply := by
  simp only [Pool.releasePacket]
  split <;> rfl

theorem kept_dropLate {p : Packet} {s : State} {l : Link} {c : QueueClass} {a : Packet} {rest : List Packet}
    (hc : candidate s l = some (c, a, rest)) (hne : p ≠ a) (h : Kept p s) : Kept p (dropLate l c a rest s) := by
  have hm := takeFirst_mem (candidate_split hc)
  simp only [dropLate]
  apply kept_setReservation
  have h1 : Kept p ((s.onPool fun k => (k.setQueue c rest).releasePacket a).onSched l fun h => { h with lateDrops := satInc h.lateDrops }) := by
    obtain h | ⟨k, t, h2, h3⟩ := h
    · left
      show p ∈ ((s.pkp.setQueue c rest).releasePacket a).reply
      rw [releasePacket_reply, setQueue_reply]
      split
      · rename_i e
        subst e
        obtain h4 | h4 := hm.2 p h
        · exact absurd h4 hne
        · exact h4
      · exact h
    · refine .inr ⟨k, t, ?_, h3⟩
      simp only [sched, State.onSched, State.onHsc, State.onPool, Table.get_modify]
      split
      · rename_i e; subst e; exact h2
      · exact h2
  have h2 := kept_raise .lateDrop h1
  repeat' split
  all_goals first
    | exact kept_same h2
    | exact h2

theorem kept_takePacket {p : Packet} {s : State} {l : Link} {c : QueueClass} {a : Packet} {rest : List Packet}
    (hc : candidate s l = some (c, a, rest)) (hf : (sched s l).slot = none) (h : Kept p s) :
    Kept p (takePacket l c a rest s) := by
  have hm := takeFirst_mem (candidate_split hc)
  simp only [takePacket]
  apply kept_setReservation
  obtain h | ⟨k, t, h2, h3⟩ := h
  · by_cases e : p = a ∧ c = .reply
    · right
      refine ⟨l, ⟨a, (sched s l).epoch, (sched s l).nextSeq, s.tbu.tick⟩, ?_, e.1.symm⟩
      simp only [sched, State.onSched, State.onHsc, Table.get_modify_self]
      rfl
    · left
      show p ∈ (s.pkp.setQueue c rest).reply
      rw [setQueue_reply]
      split
      · rename_i e2
        subst e2
        obtain h4 | h4 := hm.2 p h
        · exact absurd ⟨h4, rfl⟩ e
        · exact h4
      · exact h
  · refine .inr ⟨k, t, ?_, h3⟩
    have hkl : l ≠ k := by rintro rfl; rw [hf] at h2; cases h2
    simp only [sched, State.onSched, State.onHsc, State.onPool, Table.get_modify, hkl, if_false]
    exact h2

/-- A packet without a deadline that waits or stands in a slot does so after every take attempt. -/
theorem kept_settle {p : Packet} {s : State} (hd : p.deadline = none) (h : Kept p s) : Kept p (settleTakes s) := by
  have hat : ∀ k l s, Kept p s → Kept p (attempt k l s) := by
    intro k l
    induction k with
    | zero => intro s h; exact h
    | succ k ih =>
      intro s h
      simp only [attempt]
      split
      · rename_i hct
        split
        · exact h
        · rename_i c a rest hc
          split
          · rename_i hl
            refine ih _ (kept_dropLate hc ?_ h)
            rintro rfl
            simp [isLate, hd] at hl
          · split
            · refine kept_takePacket hc ?_ h
              simp only [canTake, Bool.and_eq_true] at hct
              exact Option.isNone_iff_eq_none.mp hct.1.2
            · exact h
      · exact h
  have how : ∀ l s, Kept p s → Kept p (attemptOwed l s) := by
    intro l s h
    simp only [attemptOwed]
    split
    · refine hat _ _ _ (kept_of h (fun _ hx => hx) (fun k => ?_))
      simp only [sched, State.onSched, State.onHsc, Table.get_modify]
      split
      · rename_i e; subst e; rfl
      · rfl
    · exact h
  have hfold : ∀ (ls : List Link) s, Kept p s → Kept p (ls.foldl (fun s l => attemptOwed l s) s) := by
    intro ls
    induction ls with
    | nil => intro s h; exact h
    | cons l ls ih => intro s h; exact ih _ (how l s h)
  have hst : ∀ k s, Kept p s → Kept p (settle k s) := by
    intro k
    induction k with
    | zero =>
      intro s h
      refine kept_of h (fun _ hx => hx) (fun l => ?_)
      simp [sched, settle, State.onHsc]
    | succ k ih =>
      intro s h
      simp only [settle]
      split
      · exact ih _ (hfold _ _ h)
      · exact h
  exact hst 8 s h

/-- The held reply stands while an owner works, but that RESET MEDIA empties it. -/
theorem perform_held (m : Msg) (c : Command) (s : State) (h : s.cmu.held = none) : (perform m c s).1.cmu.held = none := by
  by_cases h1 : ∃ f, c = .authoritySet f
  · obtain ⟨f, rfl⟩ := h1
    simp only [perform, authoritySet]
    split <;> exact h
  · by_cases h2 : c = .reset 1
    · subst h2; rfl
    · have w := perform_waits m c s (fun f e => h1 ⟨f, e⟩) h2
      simp only [State.waits, Prod.mk.injEq] at w
      rw [w.2.2.2.2]; exact h

/-- What the answer to a message from home leaves of the queues. -/
theorem answer_queues {m : Msg} {s : State} (hs : m.hdr.src = .home) (hd : s.cmu.held = none) (hh : s.cmu.home = [m]) :
    (answer m s).1.cmu.van = s.cmu.van ∧ (answer m s).1.cmu.home = [m] ∧ (answer m s).1.cmu.held = none ∧
      (answer m s).1.sri.queue = s.sri.queue := by
  simp only [answer]
  split
  · have w := raiseFlag_waits .malformed s
    simp only [State.waits, Prod.mk.injEq] at w
    exact ⟨w.1, w.2.1.trans hh, w.2.2.2.2.trans hd, w.2.2.2.1⟩
  · exact ⟨rfl, hh, hd, rfl⟩
  · split
    · exact ⟨rfl, hh, hd, rfl⟩
    · have w := perform_queues m ‹_› s
      refine ⟨w.2.1, ?_, perform_held _ _ _ hd, w.1⟩
      rw [w.2.2, hs, hh]
      split <;> rfl

/-- The reply to a message from home is queued, and its command leaves the HOME queue, or it is held, and the command stays. -/
theorem home_delivered {m : Msg} {s : State} (q : Quiet s) (hs : m.hdr.src = .home) (hd : s.cmu.held = none)
    (hr : isResetAll m (atHome m s) = false) :
    let t := finish (submit m s)
    let body := (answer m (atHome m s)).2.bytes m
    (t.cmu.home = [] ∧ t.cmu.held = none ∧ OnItsWay m.hdr.tag body t ∨
      t.cmu.home = [m] ∧ t.cmu.held = some { tag := m.hdr.tag, bytes := body }) ∧
    t.cmu.van = [] ∧ t.sri.queue = s.sri.queue := by
  intro t body
  have ht : t = settleTakes (offerHome m.hdr.tag body (answer m (atHome m s)).1) := home_served q hs hd hr
  obtain ⟨w1, w2, w3, w4⟩ := answer_queues (s := atHome m s) hs hd rfl
  have w1 : (answer m (atHome m s)).1.cmu.van = [] := w1.trans q.2.1
  have w4 : (answer m (atHome m s)).1.sri.queue = s.sri.queue := w4
  generalize (answer m (atHome m s)).1 = u at *
  have hw := settleTakes_waits (offerHome m.hdr.tag body u)
  have hf := congrArg (·.2.1) (settleTakes_fixed (offerHome m.hdr.tag body u))
  rw [← ht] at hw hf
  simp only [State.waits, State.fixed, Prod.mk.injEq] at hw hf
  rw [hw.1, hw.2.1, hw.2.2.2.1, hw.2.2.2.2]
  simp only [offerHome]
  have hq := request_waits .labelReply (blocksFor (Config.packetHeaderBytes + body.length))
    (u.onCmu fun c => { c with held := some { tag := m.hdr.tag, bytes := body } })
  have hx := congrArg (·.2.1) (request_fixed .labelReply (blocksFor (Config.packetHeaderBytes + body.length))
    (u.onCmu fun c => { c with held := some { tag := m.hdr.tag, bytes := body } }))
  split
  · rename_i bs s1 hg
    rw [hg] at hq hx
    have ha := appendPackets_waits .reply [replyPacket (some m.hdr.tag) body bs u.tbu.tick] s1
    simp only [State.waits, State.onCmu, Prod.mk.injEq] at hq ha
    simp only [State.fixed, State.onCmu] at hx
    refine ⟨.inl ⟨?_, rfl, ?_⟩, ?_, ?_⟩
    · simp only [leaveHome, State.onCmu]
      rw [ha.2.1, hq.2.1, w2]; rfl
    · refine ⟨replyPacket (some m.hdr.tag) body bs u.tbu.tick, ⟨rfl, rfl, rfl, rfl, ?_, rfl, rfl, ?_, rfl⟩, ?_⟩
      · rw [hf]
        simp only [offerHome, hg]
        exact congrArg Timebase.tick hx.symm
      · simp only [request] at hg
        split at hg
        · rename_i b2 k2 h3
          simp only [Prod.mk.injEq, Option.some.injEq] at hg
          obtain ⟨rfl, -⟩ := hg
          simp only [Pool.grant] at h3
          split at h3
          · rename_i h4
            simp only [Option.some.injEq, Prod.mk.injEq] at h3
            rw [replyPacket, ← h3.1, List.length_take]
            simp only [blocksFor, ceilDiv, Config.packetHeaderBytes, Config.blockBytes] at *
            omega
          · cases h3
        · simp at hg
      · have := kept_settle (s := offerHome m.hdr.tag body u) (p := replyPacket (some m.hdr.tag) body bs u.tbu.tick) rfl (by
          refine .inl ?_
          simp only [offerHome, hg, leaveHome, appendPackets]
          simp [oweAll, State.onPool, State.onHsc, State.onCmu, Pool.setQueue, Pool.queue])
        rw [← ht] at this
        exact this
    · simp only [leaveHome, State.onCmu]
      rw [ha.1, hq.1]; exact w1
    · simp only [leaveHome, State.onCmu]
      rw [ha.2.2.2.1, hq.2.2.2.1]; exact w4
  · rename_i s1 hg
    rw [hg] at hq
    simp only [State.waits, State.onCmu, Prod.mk.injEq] at hq
    exact ⟨.inr ⟨hq.2.1.trans w2, hq.2.2.2.2⟩, hq.1.trans w1, hq.2.2.2.1.trans w4⟩

/-! ### The fields of a message (12.1) -/

theorem parseRecords_fill {fuel : Nat} {l : List Byte} {rs : List (Nat × List Byte)} (h : parseRecords fuel l = some rs) :
    ∃ fields : List (Byte × List Byte), (∀ f ∈ fields, f.2.length < 256) ∧
      l = (fields.map fun f => f.1 :: byteOf f.2.length :: f.2).flatten ∧ rs = fields.map fun f => (f.1.toNat, f.2) := by
  induction fuel generalizing l rs with
  | zero =>
    cases l with
    | nil => simp only [parseRecords, Option.some.injEq] at h; subst h; exact ⟨[], by simp⟩
    | cons a l => simp [parseRecords] at h
  | succ k ih =>
    match l with
    | [] => simp only [parseRecords, Option.some.injEq] at h; subst h; exact ⟨[], by simp⟩
    | [a] => simp [parseRecords] at h
    | id :: len :: rest =>
      simp only [parseRecords] at h
      split at h
      · rename_i hl
        simp only [Option.map_eq_some_iff] at h
        obtain ⟨rs', h1, rfl⟩ := h
        obtain ⟨fs, h2, h3, rfl⟩ := ih h1
        have hlen : (rest.take len.toNat).length = len.toNat := by simp [hl]
        have hlt := len.isLt
        refine ⟨(id, rest.take len.toNat) :: fs, ?_, ?_, rfl⟩
        · intro f hf
          obtain rfl | hf := List.mem_cons.mp hf
          · simp only [hlen]; exact hlt
          · exact h2 f hf
        · simp only [List.map_cons, List.flatten_cons, ← h3, hlen]
          rw [show byteOf len.toNat = len from by simp [byteOf]]
          simp
      · cases h

theorem parseRecords_of {fields : List (Byte × List Byte)} (h : ∀ f ∈ fields, f.2.length < 256) (fuel : Nat)
    (hf : (fields.map fun f => f.1 :: byteOf f.2.length :: f.2).flatten.length ≤ fuel) :
    parseRecords fuel (fields.map fun f => f.1 :: byteOf f.2.length :: f.2).flatten =
      some (fields.map fun f => (f.1.toNat, f.2)) := by
  induction fields generalizing fuel with
  | nil => cases fuel <;> rfl
  | cons f fs ih =>
    cases fuel with
    | zero => simp at hf
    | succ k =>
      have hlt := h f (List.mem_cons_self ..)
      have hb : (byteOf f.2.length).toNat = f.2.length := by
        simp only [byteOf, BitVec.toNat_ofNat]; omega
      simp only [List.map_cons, List.flatten_cons, List.cons_append, List.length_cons, List.length_append] at hf
      simp only [List.map_cons, List.flatten_cons, List.cons_append, parseRecords, hb, List.length_append,
        Nat.le_add_right, if_true]
      rw [List.drop_left, List.take_left, ih (fun g hg => h g (List.mem_cons_of_mem _ hg)) k (by omega)]
      rfl

/-- A message's fields fill its length exactly where its bytes parse as field records. -/
theorem parse_fill (bytes : List Byte) : (parseRecords bytes.length bytes).isSome = true ↔ FieldsFill bytes := by
  constructor
  · intro h
    obtain ⟨rs, h⟩ := Option.isSome_iff_exists.mp h
    obtain ⟨fs, h1, h2, -⟩ := parseRecords_fill h
    exact ⟨fs, h1, h2⟩
  · rintro ⟨fs, h1, rfl⟩
    rw [parseRecords_of h1 _ (Nat.le_refl _)]
    rfl

/-- A kind byte of no command has no table of fields. -/
theorem fieldTable_none {k : Nat} (h : k = 0 ∨ 25 < k) : fieldTable k = none := by
  unfold fieldTable
  split <;> first | rfl | omega

end Sys2Proof.Machine
end

