-- ==== Sys2Proof/Laws/Periods.lean ====
section
/-! SUPPORT. What the deliveries of a period start do besides the allocation (R133, R142, R205, R210): the post-roll counts, the
labels that wait, the held reply and the home notices. -/

namespace Sys2Proof.Machine

/-! ### What an allocation never touches -/

/-- `t` is `s` but for the programmes, the engine, the allocator, the flags and the notice queue. -/
def Allotted (s t : State) : Prop :=
  t = { s with pgc := t.pgc, cde := t.cde, ral := t.ral, cmu := { s.cmu with flags := t.cmu.flags, notices := t.cmu.notices } }

theorem Allotted.refl (s : State) : Allotted s s := rfl

theorem Allotted.trans {s t u : State} (h1 : Allotted s t) (h2 : Allotted t u) : Allotted s u := by
  unfold Allotted at h1 h2 ⊢
  rw [h2, h1]

theorem Allotted.home {s t : State} (h : Allotted s t) (h1 : s.cmu.noticesHome = false) : t.cmu.noticesHome = false := by
  rw [Allotted] at h; rw [h]; exact h1

theorem raiseWithin_allotted (k : Nat) (f : EventFlag) (s : State) (h : s.cmu.noticesHome = false) :
    Allotted s (raiseWithin k f s) := by
  induction k generalizing f s with
  | zero => rfl
  | succ k ih =>
    simp only [raiseWithin]
    split
    · rfl
    · have e : ∀ (n : Notice) (u : State), Allotted s u → n.answers = none →
          Allotted s (queueNoticeWith (raiseWithin k) n u) := by
        intro n u hu hn
        have e : queueNoticeWith (raiseWithin k) n u =
            if Config.noticeQueue ≤ u.cmu.notices.length then
              raiseWithin k .noticeOverrun { u with cmu := { u.cmu with notices := joinNotices u.cmu.notices n } }
            else { u with cmu := { u.cmu with notices := joinNotices u.cmu.notices n } } := by
          simp [queueNoticeWith, State.onCmu, hu.home h, hn]
        have hv : Allotted u { u with cmu := { u.cmu with notices := joinNotices u.cmu.notices n } } := rfl
        rw [e]
        split
        · exact (hu.trans hv).trans (ih _ _ (hu.home h))
        · exact hu.trans hv
      exact e _ _ rfl rfl

/-- Without home copies, a raised flag changes the flags and the notice queue alone (R208, R209). -/
theorem raiseFlag_allotted (f : EventFlag) {s : State} (h : s.cmu.noticesHome = false) : Allotted s (raiseFlag f s) :=
  raiseWithin_allotted 4 f s h

theorem Allotted.raise {s t : State} (h : Allotted s t) (h1 : s.cmu.noticesHome = false) (f : EventFlag) :
    Allotted s (raiseFlag f t) := h.trans (raiseFlag_allotted f (h.home h1))

theorem allocateProg_allotted (fig : AllocFigures) (T : Nat) (p : Prog) {s : State} (h : s.cmu.noticesHome = false) :
    Allotted s (allocateProg fig T p s) := by
  have key : ∀ (b : Bool) (g : CodingLoop → CodingLoop) (v : State), Allotted s v → Allotted s (if b = true then v.onLoop p g else v) := by
    intro b g v hv
    split
    · exact hv.trans rfl
    · exact hv
  simp only [allocateProg]
  apply key
  split
  · exact Allotted.raise (by unfold Allotted; rfl) h _
  · rfl

/-- Without home copies, an allocation leaves all but the programmes, the engine, the allocator, the flags and the notices. -/
theorem allocation_allotted (T : Nat) {s : State} (h : s.cmu.noticesHome = false) : Allotted s (allocation T s) := by
  have fold : ∀ (fig : AllocFigures) (l : List Prog) (u : State), Allotted s u →
      Allotted s (l.foldl (fun s p => allocateProg fig T p s) u) := by
    intro fig l
    induction l with
    | nil => intro u hu; exact hu
    | cons a l ih => intro u hu; rw [List.foldl_cons]; exact ih _ (hu.trans (allocateProg_allotted fig T a (hu.home h)))
  simp only [allocation]
  apply fold
  split
  · exact Allotted.raise (by unfold Allotted; rfl) h _
  · rfl

theorem firstAllocated_allotted (s : State) : Allotted s (firstAllocated s) := rfl

/-! ### A request for one block that is refused -/

theorem request_refused {o : Owner} {n : Nat} {s : State} (h : s.pkp.free.length < n ∨
    (s.pkp.owners.get o.idx).cap < (s.pkp.owners.get o.idx).count + n) :
    request o n s = (none, raiseFlag .poolRefused (s.onPool fun k => k.refuse o)) := by
  have : s.pkp.grant o n = none := by
    simp only [Pool.grant]; rw [if_neg]; omega
  simp only [request, this]

theorem request_granted {o : Owner} {n : Nat} {s : State} (h1 : n ≤ s.pkp.free.length)
    (h2 : (s.pkp.owners.get o.idx).count + n ≤ (s.pkp.owners.get o.idx).cap) :
    request o n s = (some (s.pkp.free.take n), { s with pkp := { s.pkp with
      free := s.pkp.free.drop n
      owners := s.pkp.owners.set o.idx { s.pkp.owners.get o.idx with count := (s.pkp.owners.get o.idx).count + n } } }) := by
  have : s.pkp.grant o n = some (s.pkp.free.take n, { s.pkp with
      free := s.pkp.free.drop n
      owners := s.pkp.owners.set o.idx { s.pkp.owners.get o.idx with count := (s.pkp.owners.get o.idx).count + n } }) := by
    simp only [Pool.grant]; rw [if_pos ⟨h1, h2⟩]
  simp only [request, this]

/-! ### The labels of a period start (R133, R142) -/

/-- What the label delivery leaves: `s` is `b` but for the clip table, the LABEL queue, the free list, the label-and-reply
owner's figures, the flags, the notice queue and the take attempts owed. -/
structure Labelled (b s : State) (clips : List Clip) (waiting : List Nat) (label : List Packet) (free : List Nat) (n : Nat) : Prop where
  clm : s.clm = { b.clm with clips := clips, waiting := waiting }
  label : s.pkp.label = label
  free : s.pkp.free = free
  count : (s.pkp.owners.get 5).count = n
  cap : (s.pkp.owners.get 5).cap = (b.pkp.owners.get 5).cap
  rest : s.tbu = b.tbu ∧ s.lsu = b.lsu ∧ s.pkp.reply = b.pkp.reply ∧
    ∀ l, (sched s l).slot = (sched b l).slot ∧ (sched s l).inFlight = (sched b l).inFlight
  home : s.cmu.noticesHome = false ∧ s.cmu.home = b.cmu.home ∧ s.cmu.van = b.cmu.van ∧ s.cmu.held = b.cmu.held ∧
    s.cmu.homeNotices = b.cmu.homeNotices

theorem Labelled.raise {b s : State} {clips : List Clip} {waiting : List Nat} {label : List Packet} {free : List Nat} {n : Nat}
    (h : Labelled b s clips waiting label free n) (f : EventFlag) : Labelled b (raiseFlag f s) clips waiting label free n := by
  have e := raiseFlag_allotted f h.home.1
  rw [Allotted] at e
  rw [e]
  exact ⟨h.clm, h.label, h.free, h.count, h.cap, h.rest, h.home⟩

/-- A label that is refused its block waits on (R142). -/
theorem Labelled.refused {b s : State} {clips : List Clip} {waiting : List Nat} {label : List Packet} {free : List Nat} {n : Nat}
    (h : Labelled b s clips waiting label free n) (hr : free = [] ∨ (b.pkp.owners.get 5).cap ≤ n) :
    (requestLabel s).1 = false ∧ Labelled b (requestLabel s).2 clips waiting label free n := by
  have hq : request .labelReply 1 s = (none, raiseFlag .poolRefused (s.onPool fun k => k.refuse .labelReply)) := by
    apply request_refused
    rw [h.free]
    have h5 : Owner.labelReply.idx = (5 : Fin 6) := rfl
    rw [h5, h.cap, h.count]
    obtain hr | hr := hr
    · left; simp [hr]
    · right; omega
  simp only [requestLabel]
  split
  · exact ⟨rfl, h⟩
  · rename_i m rest _
    rw [hq]
    refine ⟨rfl, Labelled.raise (s := s.onPool fun k => k.refuse .labelReply) ?_ _⟩
    have h5 : Owner.labelReply.idx = (5 : Fin 6) := rfl
    refine ⟨h.clm, h.label, h.free, ?_, ?_, h.rest, h.home⟩
    · simp only [State.onPool, Pool.refuse, h5, Table.get_modify_self]; exact h.count
    · simp only [State.onPool, Pool.refuse, h5, Table.get_modify_self]; exact h.cap

/-- A label that is granted its block joins the LABEL queue (R142). -/
theorem Labelled.granted {b s : State} {clips : List Clip} {m : Nat} {waiting : List Nat} {label : List Packet} {x : Nat}
    {free : List Nat} {n : Nat} (h : Labelled b s clips (m :: waiting) label (x :: free) n) (hr : n < (b.pkp.owners.get 5).cap)
    {c : Clip} (hc : clipOf s m = some c) :
    (requestLabel s).1 = true ∧
      Labelled b (requestLabel s).2 clips waiting (label ++ [labelPacket b.tbu c [x]]) free (n + 1) := by
  have h5 : Owner.labelReply.idx = (5 : Fin 6) := rfl
  have hq := request_granted (o := .labelReply) (n := 1) (s := s) (by rw [h.free]; simp)
    (by rw [h5, h.cap, h.count]; omega)
  have hw : s.clm.waiting = m :: waiting := by rw [h.clm]
  simp only [requestLabel, hw, hq, hc]
  refine ⟨trivial, ⟨?_, ?_, ?_, ?_, ?_, ⟨h.rest.1, h.rest.2.1, h.rest.2.2.1, fun l => ?_⟩, h.home⟩⟩
  · simp only [appendPackets, oweAll, State.onPool, State.onHsc, State.onClm, h.clm]
  · simp only [appendPackets, oweAll, State.onPool, State.onHsc, State.onClm, Pool.setQueue, Pool.queue, h.label, h.free,
      h.rest.1]
    rfl
  · simp only [appendPackets, oweAll, State.onPool, State.onHsc, State.onClm, Pool.setQueue, h.free]
    rfl
  · simp only [appendPackets, oweAll, State.onPool, State.onHsc, State.onClm, Pool.setQueue, h5, Table.get_set_self, h.count]
  · simp only [appendPackets, oweAll, State.onPool, State.onHsc, State.onClm, Pool.setQueue, h5, Table.get_set_self, h.cap]
  · simpa [appendPackets, oweAll, State.onPool, State.onHsc, State.onClm, sched] using h.rest.2.2.2 l

/-- The packets of the records `order` of the table `clips`, one block each. -/
def labelsOf (t : Timebase) (clips : List Clip) (order free : List Nat) : List Packet :=
  (order.zip free).filterMap fun v => (clips.find? fun c => c.number == v.1).map fun c => labelPacket t c [v.2]

/-- At a period start the waiting labels are all refused, or all granted where the pool has their blocks (R142). -/
theorem Labelled.retry_refused {b s : State} {clips : List Clip} {waiting : List Nat} {label : List Packet} {free : List Nat}
    {n : Nat} (h : Labelled b s clips waiting label free n) (hr : free = [] ∨ (b.pkp.owners.get 5).cap ≤ n) (fuel : Nat) :
    Labelled b (retryLabels fuel s) clips waiting label free n := by
  cases fuel with
  | zero => exact h
  | succ fuel =>
    obtain ⟨h1, h2⟩ := h.refused hr
    simp only [retryLabels]
    split
    · exact h
    · split <;> rename_i heq <;> rw [heq] at h1 h2
      · cases h1
      · exact h2

theorem Labelled.retry_granted {b s : State} {clips : List Clip} {waiting : List Nat} {label : List Packet} {free : List Nat}
    {n : Nat} (h : Labelled b s clips waiting label free n) (h1 : waiting.length ≤ free.length)
    (h2 : n + waiting.length ≤ (b.pkp.owners.get 5).cap) (h3 : ∀ m ∈ waiting, ∃ c ∈ clips, c.number = m) (fuel : Nat)
    (hf : waiting.length ≤ fuel) :
    Labelled b (retryLabels fuel s) clips [] (label ++ labelsOf b.tbu clips waiting free) (free.drop waiting.length)
      (n + waiting.length) := by
  induction waiting generalizing s label free n fuel with
  | nil =>
    have : retryLabels fuel s = s := by
      cases fuel with
      | zero => rfl
      | succ k => simp [retryLabels, h.clm]
    rw [this]; simpa [labelsOf] using h
  | cons m waiting ih =>
    obtain ⟨k, rfl⟩ : ∃ k, fuel = k + 1 := ⟨fuel - 1, by simp at hf; omega⟩
    obtain ⟨x, free, rfl⟩ : ∃ x fr, free = x :: fr := by
      cases free with
      | nil => simp at h1
      | cons x fr => exact ⟨x, fr, rfl⟩
    have hcl : clipOf s m = clips.find? fun c => c.number == m := by simp only [clipOf, h.clm]
    obtain ⟨c, hc⟩ : ∃ c, clipOf s m = some c := by
      obtain ⟨c, hc, hn⟩ := h3 m (List.mem_cons_self ..)
      cases hx : clipOf s m with
      | some d => exact ⟨d, rfl⟩
      | none => rw [hcl, List.find?_eq_none] at hx; have := hx c hc; simp [hn] at this
    obtain ⟨g1, g2⟩ := h.granted (by simp at h2; omega) hc
    have hw : s.clm.waiting.isEmpty = false := by rw [h.clm]; rfl
    have hstep : retryLabels (k + 1) s = retryLabels k (requestLabel s).2 := by
      simp only [retryLabels, hw, Bool.false_eq_true, if_false]
      split <;> rename_i heq <;> rw [heq] at g1 ⊢
      cases g1
    rw [hstep]
    have := ih g2 (by simpa using h1) (by simp at h2; omega) (fun m hm => h3 m (List.mem_cons_of_mem _ hm)) k (by simp at hf; omega)
    rw [hcl] at hc
    have hz : labelsOf b.tbu clips (m :: waiting) (x :: free) = labelPacket b.tbu c [x] :: labelsOf b.tbu clips waiting free := by
      simp [labelsOf, hc]
    rw [hz, List.length_cons, List.drop_succ_cons, show n + (waiting.length + 1) = n + 1 + waiting.length by omega]
    simpa using this

/-! ### The post-roll counts of a period start (R133) -/

/-- What a period start does to one record (R133): `p` is the picture number before it. -/
def rolled (p : Pic) (c : Clip) : Clip :=
  if c.state ≠ .postRoll then c
  else if 1 < c.count then { c with count := c.count - 1 }
  else if c.resolved then { c with state := .closed, count := 0, expiry := none, outPoint := some p }
  else { c with state := .closing, count := 0, expiry := some p }

/-- The record's post-roll runs out at this period start with every in-point resolved (R133). -/
def closesNow (c : Clip) : Bool := c.state == .postRoll && decide (c.count ≤ 1) && c.resolved

theorem rolled_number (p : Pic) (c : Clip) : (rolled p c).number = c.number := by
  simp only [rolled]; split <;> [rfl; (split <;> [rfl; (split <;> rfl)])]

def rollStep (s : State) (c : Clip) : State :=
  if c.count ≤ 1 then runOut c.number s else onClip c.number (fun c => { c with count := c.count - 1 }) s

variable {b s : State} {clips : List Clip} {waiting : List Nat} {label : List Packet} {free : List Nat} {n : Nat}

theorem find_unique {clips : List Clip} {c : Clip} (hc : c ∈ clips) (hu : ∀ d ∈ clips, d.number = c.number → d = c) :
    (clips.find? fun d => d.number == c.number) = some c := by
  cases h : clips.find? fun d => d.number == c.number with
  | none => rw [List.find?_eq_none] at h; have := h c hc; simp at this
  | some d =>
    have h1 := List.mem_of_find?_eq_some h
    have h2 := List.find?_some h
    rw [hu d h1 (by simpa using h2)]

theorem map_unique {clips : List Clip} {c : Clip} (hu : ∀ d ∈ clips, d.number = c.number → d = c) (f : Clip → Clip) :
    (clips.map fun d => if d.number = c.number then f d else d) = clips.map fun d => if d.number = c.number then f c else d := by
  apply List.map_congr_left
  intro d hd
  split
  · rename_i h; rw [hu d hd h]
  · rfl

theorem onClip_lab (h : Labelled b s clips waiting label free n) (m : Nat) (f : Clip → Clip) :
    Labelled b (onClip m f s) (clips.map fun c => if c.number = m then f c else c) waiting label free n := by
  refine ⟨?_, h.label, h.free, h.count, h.cap, h.rest, h.home⟩
  simp only [onClip, State.onClm, h.clm]

/-- A record that closes joins the waiting order, and where another waits or it is refused its block it waits. -/
theorem close_waits (h : Labelled b s clips waiting label free n) {c : Clip} (hc : c ∈ clips)
    (hu : ∀ d ∈ clips, d.number = c.number → d = c) (hin : ∀ k ∈ c.cameras, ∃ a, k.inPoint = some a ∧ (p - a.pic).toNat ≤ 2147483647)
    (hr : waiting ≠ [] ∨ free = [] ∨ (b.pkp.owners.get 5).cap ≤ n) :
    Labelled b (closeClip c.number p s)
      (clips.map fun d => if d.number = c.number then
        { c with state := .closed, count := 0, expiry := none, outPoint := some p } else d)
      (waiting ++ [c.number]) label free n := by
  have h0 := onClip_lab h c.number (fun c => { c with state := .closed, count := 0, expiry := none, outPoint := some (c.inPoints.foldl laterPic p) })
  rw [map_unique hu] at h0
  have hl : c.inPoints.foldl laterPic p = p := later_e _ _ hin
  rw [hl] at h0
  have h2 : Labelled b ((onClip c.number (fun c => { c with state := .closed, count := 0, expiry := none, outPoint := some (c.inPoints.foldl laterPic p) }) s).onClm fun m => { m with waiting := m.waiting ++ [c.number] }) (clips.map fun d => if d.number = c.number then
        { c with state := .closed, count := 0, expiry := none, outPoint := some p } else d) (waiting ++ [c.number]) label free n :=
    ⟨by simp only [State.onClm, h0.clm], h0.label, h0.free, h0.count, h0.cap, h0.rest, h0.home⟩
  simp only [closeClip]
  split
  · rename_i he
    have hw : waiting = [] := by simpa [h.clm] using he
    obtain hr | hr := hr
    · exact absurd hw hr
    · exact (h2.refused hr).2
  · exact h2

theorem close_granted (h : Labelled b s clips [] label (x :: free) n) {c : Clip} (hc : c ∈ clips)
    (hu : ∀ d ∈ clips, d.number = c.number → d = c)
    (hin : ∀ k ∈ c.cameras, ∃ a, k.inPoint = some a ∧ (p - a.pic).toNat ≤ 2147483647)
    (hr : n < (b.pkp.owners.get 5).cap) :
    Labelled b (closeClip c.number p s)
      (clips.map fun d => if d.number = c.number then
        { c with state := .closed, count := 0, expiry := none, outPoint := some p } else d)
      [] (label ++ [labelPacket b.tbu { c with state := .closed, count := 0, expiry := none, outPoint := some p } [x]]) free (n + 1) := by
  have h0 := onClip_lab h c.number (fun c => { c with state := .closed, count := 0, expiry := none, outPoint := some (c.inPoints.foldl laterPic p) })
  rw [map_unique hu] at h0
  have hl : c.inPoints.foldl laterPic p = p := later_e _ _ hin
  rw [hl] at h0
  have h2 : Labelled b ((onClip c.number (fun c => { c with state := .closed, count := 0, expiry := none, outPoint := some (c.inPoints.foldl laterPic p) }) s).onClm fun m => { m with waiting := m.waiting ++ [c.number] }) (clips.map fun d => if d.number = c.number then
        { c with state := .closed, count := 0, expiry := none, outPoint := some p } else d) [c.number] label (x :: free) n :=
    ⟨by simp only [State.onClm, h0.clm]; rfl, h0.label, h0.free, h0.count, h0.cap, h0.rest, h0.home⟩
  simp only [closeClip]
  rw [if_pos (by simp [h.clm])]
  refine (h2.granted hr ?_).2
  simp only [clipOf, h2.clm]
  refine find_unique (c := { c with state := .closed, count := 0, expiry := none, outPoint := some p }) ?_ ?_
  · exact List.mem_map.mpr ⟨c, hc, by simp⟩
  · intro d hd hn
    obtain ⟨e, he, rfl⟩ := List.mem_map.mp hd
    split at hn
    · simp [*]
    · rename_i hne; split <;> [skip; exact absurd hn hne]; rfl


/-- What the in-points of a record in POST-ROLL must be for its out-point to be the last picture (R133). -/
def InPointsBy (p : Pic) (c : Clip) : Prop := ∀ k ∈ c.cameras, ∀ a, k.inPoint = some a → (p - a.pic).toNat ≤ 2147483647

theorem resolved_in {c : Clip} (h : c.resolved = true) (hi : InPointsBy p c) :
    ∀ k ∈ c.cameras, ∃ a, k.inPoint = some a ∧ (p - a.pic).toNat ≤ 2147483647 := by
  intro k hk
  simp only [Clip.resolved, List.all_eq_true] at h
  obtain ⟨a, ha⟩ := Option.isSome_iff_exists.mp (h k hk)
  exact ⟨a, ha, hi k hk a ha⟩

theorem clipOf_lab (h : Labelled b s clips waiting label free n) {c : Clip} (hc : c ∈ clips)
    (hu : ∀ d ∈ clips, d.number = c.number → d = c) : clipOf s c.number = some c := by
  simp only [clipOf, h.clm]; exact find_unique hc hu

/-- One record at a period start, where a label would wait (R133, R142). -/
theorem roll_waits (h : Labelled b s clips waiting label free n) {c : Clip} (hc : c ∈ clips)
    (hu : ∀ d ∈ clips, d.number = c.number → d = c) (hp : b.tbu.pic - 1 = p) (hs : c.state = .postRoll) (hin : InPointsBy p c)
    (hr : waiting ≠ [] ∨ free = [] ∨ (b.pkp.owners.get 5).cap ≤ n) :
    Labelled b (rollStep s c) (clips.map fun d => if d.number = c.number then rolled p d else d)
      (waiting ++ if closesNow c then [c.number] else []) label free n := by
  rw [map_unique hu]
  simp only [rollStep, rolled, hs, ne_eq, not_true_eq_false, if_false]
  by_cases h1 : c.count ≤ 1
  · have h1' : ¬ 1 < c.count := by omega
    simp only [h1, if_true, h1', if_false, runOut, clipOf_lab h hc hu, h.rest.1, hp]
    by_cases h2 : c.resolved = true
    · simp only [h2, if_true, closesNow, hs, h1, decide_true, beq_self_eq_true, Bool.and_self]
      exact close_waits h hc hu (resolved_in h2 hin) hr
    · simp only [h2, closesNow, Bool.and_false, Bool.false_eq_true, if_false, List.append_nil]
      have := onClip_lab h c.number (fun c => { c with state := .closing, count := 0, expiry := some p })
      rwa [map_unique hu] at this
  · have h1' : 1 < c.count := by omega
    simp only [h1, if_false, h1', if_true, closesNow, decide_false, Bool.and_false, Bool.false_and, Bool.false_eq_true, List.append_nil]
    have := onClip_lab h c.number (fun c => { c with count := c.count - 1 })
    rwa [map_unique hu, hs] at this

/-- One record at a period start, where its label would be granted its block (R133, R142). -/
theorem roll_granted (h : Labelled b s clips [] label free n) {c : Clip} (hc : c ∈ clips)
    (hu : ∀ d ∈ clips, d.number = c.number → d = c) (hp : b.tbu.pic - 1 = p) (hs : c.state = .postRoll) (hin : InPointsBy p c)
    (hr : closesNow c = true → 1 ≤ free.length ∧ n < (b.pkp.owners.get 5).cap) :
    ∃ ps : List Packet, Labelled b (rollStep s c) (clips.map fun d => if d.number = c.number then rolled p d else d) []
      (label ++ ps) (free.drop ps.length) (n + ps.length) ∧ (if closesNow c then
        ps = [labelPacket b.tbu (rolled p c) (free.take 1)] else ps = []) := by
  by_cases hcl : closesNow c = true
  · obtain ⟨hf, hn⟩ := hr hcl
    obtain ⟨x, fr, rfl⟩ : ∃ x fr, free = x :: fr := by
      cases free with
      | nil => simp at hf
      | cons x fr => exact ⟨x, fr, rfl⟩
    have hk := hcl
    simp only [closesNow, hs, beq_self_eq_true, Bool.true_and, Bool.and_eq_true, decide_eq_true_eq] at hk
    have e : rolled p c = { c with state := .closed, count := 0, expiry := none, outPoint := some p } := by
      simp [rolled, hs, hk.2, Nat.not_lt.mpr hk.1]
    refine ⟨[labelPacket b.tbu (rolled p c) [x]], ?_, by simp [hcl]⟩
    rw [map_unique hu, e]
    simp only [rollStep, hk.1, if_true, runOut, clipOf_lab h hc hu, hk.2, h.rest.1, hp]
    exact close_granted h hc hu (resolved_in hk.2 hin) hn
  · refine ⟨[], ?_, by simp [hcl]⟩
    rw [map_unique hu]
    simp only [List.append_nil, List.length_nil, List.drop_zero, Nat.add_zero]
    simp only [rollStep, rolled, hs, ne_eq, not_true_eq_false, if_false]
    by_cases h1 : c.count ≤ 1
    · have h1' : ¬ 1 < c.count := by omega
      have h2 : c.resolved = false := by
        simp only [closesNow, hs, beq_self_eq_true, Bool.true_and, Bool.and_eq_true, decide_eq_true_eq, not_and, Bool.not_eq_true] at hcl
        exact hcl h1
      simp only [h1, if_true, h1', if_false, runOut, clipOf_lab h hc hu, h.rest.1, hp, h2, Bool.false_eq_true]
      have := onClip_lab h c.number (fun c => { c with state := .closing, count := 0, expiry := some p })
      rwa [map_unique hu] at this
    · have h1' : 1 < c.count := by omega
      simp only [h1, if_false, h1', if_true]
      have := onClip_lab h c.number (fun c => { c with count := c.count - 1 })
      rwa [map_unique hu, hs] at this

/-- The record of `l` stand in the table, each alone under its number. -/
def InTable (l clips : List Clip) : Prop := (l.map (·.number)).Nodup ∧ ∀ c ∈ l, c ∈ clips ∧ ∀ d ∈ clips, d.number = c.number → d = c

theorem InTable.tail {c : Clip} {l clips : List Clip} (h : InTable (c :: l) clips) :
    InTable l (clips.map fun d => if d.number = c.number then rolled p d else d) := by
  have hn := h.1
  simp only [List.map_cons, List.nodup_cons] at hn
  refine ⟨hn.2, fun e he => ?_⟩
  have hne : e.number ≠ c.number := fun h => hn.1 (List.mem_map.mpr ⟨e, he, h⟩)
  obtain ⟨h1, h2⟩ := h.2 e (List.mem_cons_of_mem _ he)
  refine ⟨List.mem_map.mpr ⟨e, h1, by simp [hne]⟩, ?_⟩
  intro d hd hde
  obtain ⟨d0, hd0, rfl⟩ := List.mem_map.mp hd
  split at hde
  · rename_i heq; rw [rolled_number] at hde; exact absurd (hde.symm.trans heq) hne
  · rename_i heq; simp only [heq, if_false]; exact h2 d0 hd0 hde

theorem map_tail {c : Clip} {l clips : List Clip} (h : ((c :: l).map (·.number)).Nodup) :
    ((clips.map fun d => if d.number = c.number then rolled p d else d).map fun d =>
      if d.number ∈ l.map (·.number) then rolled p d else d) =
    clips.map fun d => if d.number ∈ (c :: l).map (·.number) then rolled p d else d := by
  rw [List.map_map]
  apply List.map_congr_left
  intro d _
  simp only [List.map_cons, List.nodup_cons] at h
  simp only [Function.comp, List.map_cons, List.mem_cons]
  by_cases e : d.number = c.number
  · simp only [e, if_true, true_or, rolled_number]
    rw [if_neg h.1]
  · simp only [e, if_false, false_or]

theorem rolls_waits (hp : b.tbu.pic - 1 = p) (l : List Clip) (hl : ∀ c ∈ l, c.state = .postRoll ∧ InPointsBy p c) :
    ∀ {s : State} {clips : List Clip} {waiting : List Nat}, InTable l clips →
    (waiting ≠ [] ∨ free = [] ∨ (b.pkp.owners.get 5).cap ≤ n) → Labelled b s clips waiting label free n →
    Labelled b (l.foldl rollStep s) (clips.map fun d => if d.number ∈ l.map (·.number) then rolled p d else d)
      (waiting ++ (l.filter closesNow).map (·.number)) label free n := by
  induction l with
  | nil => intro s clips waiting _ _ h; simpa using h
  | cons c l ih =>
    intro s clips waiting ht hr h
    obtain ⟨h1, h2⟩ := ht.2 c (List.mem_cons_self ..)
    have := roll_waits h h1 h2 hp (hl c (List.mem_cons_self ..)).1 (hl c (List.mem_cons_self ..)).2 hr
    have := ih (fun d hd => hl d (List.mem_cons_of_mem _ hd)) ht.tail (by
      obtain hr | hr := hr
      · left; simp [hr]
      · right; exact hr) this
    rw [map_tail ht.1] at this
    rw [List.foldl_cons, List.filter_cons]
    split
    · rename_i hc; simpa [hc] using this
    · rename_i hc; simpa [hc] using this

/-- `ps` are the labels of the records `l` once rolled, in their order, one block each from the front of `free`. -/
def LabelsFor (t : Timebase) (p : Pic) (l : List Clip) (free : List Nat) (ps : List Packet) : Prop :=
  ps = (l.zip free).map fun v => labelPacket t (rolled p v.1) [v.2]

theorem rolls_granted (hp : b.tbu.pic - 1 = p) (l : List Clip) (hl : ∀ c ∈ l, c.state = .postRoll ∧ InPointsBy p c) :
    ∀ {s : State} {clips : List Clip} {label : List Packet} {free : List Nat} {n : Nat}, InTable l clips →
    (l.filter closesNow).length ≤ free.length → n + (l.filter closesNow).length ≤ (b.pkp.owners.get 5).cap →
    Labelled b s clips [] label free n →
    Labelled b (l.foldl rollStep s) (clips.map fun d => if d.number ∈ l.map (·.number) then rolled p d else d) []
      (label ++ (((l.filter closesNow).zip free).map fun v => labelPacket b.tbu (rolled p v.1) [v.2]))
      (free.drop (l.filter closesNow).length) (n + (l.filter closesNow).length) := by
  induction l with
  | nil => intro s clips label free n _ _ _ h; simpa using h
  | cons c l ih =>
    intro s clips label free n ht hf hn h
    obtain ⟨h1, h2⟩ := ht.2 c (List.mem_cons_self ..)
    obtain ⟨ps, g1, g2⟩ := roll_granted h h1 h2 hp (hl c (List.mem_cons_self ..)).1 (hl c (List.mem_cons_self ..)).2 (by
      intro hc; rw [List.filter_cons, if_pos hc, List.length_cons] at hf hn; omega)
    rw [List.foldl_cons, List.filter_cons]
    rw [List.filter_cons] at hf hn
    by_cases hc : closesNow c = true
    · simp only [hc, if_true, List.length_cons] at g2 hf hn ⊢
      subst g2
      obtain ⟨x, fr, rfl⟩ : ∃ x fr, free = x :: fr := by
        cases free with
        | nil => simp at hf
        | cons x fr => exact ⟨x, fr, rfl⟩
      have := ih (fun d hd => hl d (List.mem_cons_of_mem _ hd)) ht.tail (by simpa using hf) (by simp; omega) g1
      rw [map_tail ht.1] at this
      simpa [Nat.add_assoc, Nat.add_comm 1] using this
    · simp only [hc] at g2 hf hn ⊢
      subst g2
      have := ih (fun d hd => hl d (List.mem_cons_of_mem _ hd)) ht.tail (by simpa using hf) (by simpa using hn) g1
      rw [map_tail ht.1] at this
      simpa using this

theorem rolled_all {clips : List Clip} :
    (clips.map fun d => if d.number ∈ (clips.filter fun c => c.state == .postRoll).map (·.number) then rolled p d else d) =
      clips.map (rolled p) := by
  apply List.map_congr_left
  intro d hd
  split
  · rfl
  · rename_i h
    have : d.state ≠ .postRoll := by
      intro e; exact h (List.mem_map.mpr ⟨d, List.mem_filter.mpr ⟨hd, by simp [e]⟩, rfl⟩)
    simp [rolled, this]

theorem inTable_post {m : ClipMarker} (h : ClipsOk m) : InTable (m.clips.filter fun c => c.state == .postRoll) m.clips :=
  ⟨(List.filter_sublist.map _).nodup h.distinct, fun c hc =>
    ⟨List.mem_of_mem_filter hc, fun d hd he => clip_unique h hd (List.mem_of_mem_filter hc) he⟩⟩

theorem labelsOf_spec (t : Timebase) (clips : List Clip) : ∀ (order free : List Nat), (∀ m ∈ order, ∃ c ∈ clips, c.number = m) →
    order.length ≤ free.length →
    (labelsOf t clips order free).map (·.subject) = order.map some ∧
    (labelsOf t clips order free).map (·.blocks) = (free.take order.length).map ([·]) ∧
    ∀ k ∈ labelsOf t clips order free, ∃ c ∈ clips, k = labelPacket t c k.blocks := by
  intro order
  induction order with
  | nil => intro free _ _; simp [labelsOf]
  | cons m order ih =>
    intro free h hl
    cases free with
    | nil => simp at hl
    | cons x free =>
      obtain ⟨c, hc, hn⟩ := h m (List.mem_cons_self ..)
      obtain ⟨d, hd⟩ : ∃ d, (clips.find? fun c => c.number == m) = some d := by
        cases hx : clips.find? fun c => c.number == m with
        | some d => exact ⟨d, rfl⟩
        | none => rw [List.find?_eq_none] at hx; have := hx c hc; simp [hn] at this
      have e : labelsOf t clips (m :: order) (x :: free) = labelPacket t d [x] :: labelsOf t clips order free := by
        simp [labelsOf, hd]
      obtain ⟨h1, h2, h3⟩ := ih free (fun m hm => h m (List.mem_cons_of_mem _ hm)) (by simpa using hl)
      have hdn : d.number = m := by simpa using List.find?_some hd
      rw [e]
      refine ⟨by simp [h1, labelPacket, hdn], by simp [h2, labelPacket], ?_⟩
      intro k hk
      obtain rfl | hk := List.mem_cons.mp hk
      · exact ⟨d, List.mem_of_find?_eq_some hd, rfl⟩
      · exact h3 k hk

theorem zip_snd {α β : Type} : ∀ (l : List α) (m : List β), l.length ≤ m.length → (l.zip m).map Prod.snd = m.take l.length := by
  intro l
  induction l with
  | nil => intro m _; simp
  | cons a l ih =>
    intro m h
    cases m with
    | nil => simp at h
    | cons b m => simp [ih m (by simpa using h)]

theorem labelled_refl {b : State} (h1 : b.cmu.noticesHome = false) :
    Labelled b b b.clm.clips b.clm.waiting b.pkp.label b.pkp.free (b.pkp.owners.get 5).count :=
  ⟨rfl, rfl, rfl, rfl, rfl, ⟨rfl, rfl, rfl, fun _ => ⟨rfl, rfl⟩⟩, ⟨h1, rfl, rfl, rfl, rfl⟩⟩

theorem filter_closes (clips : List Clip) :
    (clips.filter fun c => c.state == .postRoll).filter closesNow = clips.filter closesNow := by
  rw [List.filter_filter]
  congr 1
  funext c
  simp only [closesNow]
  cases (c.state == ClipState.postRoll) <;> simp

/-- A refusal among the waiting labels raises POOL-REFUSED (R142). -/
theorem retry_raises (h : Labelled b s clips waiting label free n) (hr : free = [] ∨ (b.pkp.owners.get 5).cap ≤ n)
    (hw : waiting ≠ []) : (flagRec (retryLabels s.clm.waiting.length s) .poolRefused).set = true := by
  have hq : request .labelReply 1 s = (none, raiseFlag .poolRefused (s.onPool fun k => k.refuse .labelReply)) := by
    apply request_refused
    have h5 : Owner.labelReply.idx = (5 : Fin 6) := rfl
    rw [h.free, h5, h.cap, h.count]
    obtain hr | hr := hr
    · left; simp [hr]
    · right; omega
  have hsw : s.clm.waiting = waiting := by rw [h.clm]
  cases waiting with
  | nil => exact absurd rfl hw
  | cons m rest =>
    simp only [hsw, List.length_cons, retryLabels, List.isEmpty_cons, Bool.false_eq_true, if_false, requestLabel, hq]
    exact raiseFlag_sets _ _

/-- The labels of a period start, refused (R133, R142). -/
theorem labels_refused {b : State} (h1 : b.cmu.noticesHome = false) (hm : ClipsOk b.clm) (hp : b.tbu.pic - 1 = p)
    (hin : ∀ c ∈ b.clm.clips, c.state = .postRoll → InPointsBy p c)
    (hr : b.pkp.free = [] ∨ (b.pkp.owners.get 5).cap ≤ (b.pkp.owners.get 5).count) (fuel : Nat) :
    Labelled b (retryLabels fuel (countPostRoll b)) (b.clm.clips.map (rolled p))
      (b.clm.waiting ++ (b.clm.clips.filter closesNow).map (·.number)) b.pkp.label b.pkp.free (b.pkp.owners.get 5).count := by
  have := rolls_waits hp (b.clm.clips.filter fun c => c.state == .postRoll)
    (fun c hc => ⟨by simpa using List.of_mem_filter hc, hin c (List.mem_of_mem_filter hc) (by simpa using List.of_mem_filter hc)⟩)
    (inTable_post hm) (.inr hr) (labelled_refl h1)
  rw [rolled_all, filter_closes] at this
  exact this.retry_refused hr fuel

/-- The labels of a period start, granted (R133, R142). -/
theorem labels_granted {b : State} (h1 : b.cmu.noticesHome = false) (hm : ClipsOk b.clm) (hp : b.tbu.pic - 1 = p)
    (hin : ∀ c ∈ b.clm.clips, c.state = .postRoll → InPointsBy p c) (hw : ∀ m ∈ b.clm.waiting, ∃ c ∈ b.clm.clips, c.number = m)
    {order : List Nat} (ho : order = b.clm.waiting ++ (b.clm.clips.filter closesNow).map (·.number))
    (hf : order.length ≤ b.pkp.free.length) (hn : (b.pkp.owners.get 5).count + order.length ≤ (b.pkp.owners.get 5).cap) :
    ∃ ps : List Packet, Labelled b (retryLabels (countPostRoll b).clm.waiting.length (countPostRoll b)) (b.clm.clips.map (rolled p)) []
      (b.pkp.label ++ ps) (b.pkp.free.drop order.length) ((b.pkp.owners.get 5).count + order.length) ∧
      ps.map (·.subject) = order.map some ∧ ps.map (·.blocks) = (b.pkp.free.take order.length).map ([·]) ∧
      ∀ k ∈ ps, ∃ c ∈ b.clm.clips, k = labelPacket b.tbu (rolled p c) k.blocks := by
  have hpost : ∀ c ∈ b.clm.clips.filter fun c => c.state == .postRoll, c.state = .postRoll ∧ InPointsBy p c :=
    fun c hc => ⟨by simpa using List.of_mem_filter hc, hin c (List.mem_of_mem_filter hc) (by simpa using List.of_mem_filter hc)⟩
  by_cases hwait : b.clm.waiting = []
  · have h0 := labelled_refl h1
    rw [hwait] at h0 ho
    simp only [List.nil_append] at ho
    have := rolls_granted hp _ hpost (inTable_post hm) (by rw [filter_closes]; simpa [ho] using hf)
      (by rw [filter_closes]; simpa [ho] using hn) h0
    rw [rolled_all, filter_closes] at this
    have hlen : (b.clm.clips.filter closesNow).length = order.length := by simp [ho]
    have hw0 : (countPostRoll b).clm.waiting = [] := by
      have := this.clm; show (List.foldl rollStep b _).clm.waiting = []; rw [this]
    refine ⟨((b.clm.clips.filter closesNow).zip b.pkp.free).map fun v => labelPacket b.tbu (rolled p v.1) [v.2], ?_, ?_, ?_, ?_⟩
    · rw [hw0, ← hlen]; exact this
    · rw [List.map_map, ho, List.map_map]
      have : ((fun k : Packet => k.subject) ∘ fun v : Clip × Nat => labelPacket b.tbu (rolled p v.1) [v.2]) =
          (fun c : Clip => some c.number) ∘ Prod.fst := by funext v; simp [labelPacket, rolled_number]
      rw [this, ← List.map_map, List.map_fst_zip (by omega)]; rfl
    · rw [List.map_map]
      have : ((fun k : Packet => k.blocks) ∘ fun v : Clip × Nat => labelPacket b.tbu (rolled p v.1) [v.2]) =
          (fun x : Nat => [x]) ∘ Prod.snd := by funext v; rfl
      rw [this, ← List.map_map, ← hlen]
      congr 1
      exact zip_snd _ _ (by omega)
    · intro k hk
      obtain ⟨v, hv, rfl⟩ := List.mem_map.mp hk
      exact ⟨v.1, List.mem_of_mem_filter (List.of_mem_zip hv).1, rfl⟩
  · have := rolls_waits hp _ hpost (inTable_post hm) (.inl hwait) (labelled_refl h1)
    rw [rolled_all, filter_closes, ← ho] at this
    have hw0 : (countPostRoll b).clm.waiting = order := by
      have := this.clm; show (List.foldl rollStep b _).clm.waiting = order; rw [this]
    have hmem : ∀ m ∈ order, ∃ c ∈ b.clm.clips.map (rolled p), c.number = m := by
      intro m hmo
      rw [ho] at hmo
      obtain hmo | hmo := List.mem_append.mp hmo
      · obtain ⟨c, hc, hn⟩ := hw m hmo
        exact ⟨rolled p c, List.mem_map_of_mem hc, by rw [rolled_number, hn]⟩
      · obtain ⟨c, hc, rfl⟩ := List.mem_map.mp hmo
        exact ⟨rolled p c, List.mem_map_of_mem (List.mem_of_mem_filter hc), rolled_number _ _⟩
    have h3 := this.retry_granted hf hn hmem order.length (Nat.le_refl _)
    obtain ⟨g1, g2, g3⟩ := labelsOf_spec b.tbu (b.clm.clips.map (rolled p)) order b.pkp.free hmem hf
    refine ⟨_, by rw [hw0]; exact h3, g1, g2, ?_⟩
    intro k hk
    obtain ⟨c, hc, e⟩ := g3 k hk
    obtain ⟨d, hd, rfl⟩ := List.mem_map.mp hc
    exact ⟨d, hd, e⟩

theorem pic_next (x : Pic) : x + 1 - 1 = x := by bv_omega

/-- What a period start leaves when its deliveries are done and no reply or notice waits to go home. -/
theorem period_end {s b : State} (hq : Quiet s) (hl : NoLinkTakes s) (hdue : periodDue s = true) (h1 : s.cmu.noticesHome = false)
    (h2 : s.cmu.held = none) (h3 : s.cmu.homeNotices = [])
    (hb : b = allocation (((s.onTbu Timebase.startPeriod).tbu.period.map (·.length)).getD 0) (firstAllocated (s.onTbu Timebase.startPeriod)))
    {u : State} (hu : u = retryLabels (countPostRoll b).clm.waiting.length (countPostRoll b))
    {clips : List Clip} {waiting : List Nat} {label : List Packet} {free : List Nat} {n : Nat}
    (hlab : Labelled b u clips waiting label free n) : exec .periodStart s = .next u.noOwed := by
  have hal : Allotted (s.onTbu Timebase.startPeriod) b := by
    rw [hb]; exact (firstAllocated_allotted _).trans (allocation_allotted _ h1)
  have hx : exec .periodStart s = .next (finish (startPeriod s)) := by
    show Host.Outcome.next (finish (periodIfDue s)) = _
    simp [periodIfDue, hdue]
  have e : startPeriod s = retryHome u := by simp only [startPeriod, deliverPeriod, ← hb, hu]
  obtain ⟨g1, g2, g3, g4, g5⟩ := hlab.home
  rw [Allotted] at hal
  have c1 : b.cmu.held = none := by rw [hal]; exact h2
  have c2 : b.cmu.homeNotices = [] := by rw [hal]; exact h3
  have c3 : b.cmu.van = [] := by rw [hal]; exact hq.2.1
  have c4 : b.cmu.home = [] := by rw [hal]; exact hq.2.2
  rw [c1] at g4; rw [c2] at g5; rw [c3] at g3; rw [c4] at g2
  have e2 : retryHome u = u := by simp [retryHome, retryHeld, g4, g5, sendHomeNotices]
  rw [hx, e, e2, finish_empty g3 g2, settleTakes_cannot]
  intro l
  obtain ⟨r1, r2, r3, r4⟩ := hlab.rest
  have k1 : link u l = link s l := by simp only [link, r2]; rw [hal]; rfl
  have k2 : (sched b l) = sched s l := by simp only [sched]; rw [hal]; rfl
  rw [k1, (r4 l).1, (r4 l).2, k2]
  exact hl l

/-! ### The held reply and the home notices of a period start (R205, R210) -/

theorem set_twice (t : Table 6 OwnerRecord) (p q : OwnerRecord) : (t.set 5 p).set 5 q = t.set 5 q := by
  apply Table.ext_get; intro o; by_cases e : (5 : Fin 6) = o
  · subst e; rw [Table.get_set_self, Table.get_set_self]
  · rw [Table.get_set_ne _ _ e, Table.get_set_ne _ _ e, Table.get_set_ne _ _ e]

/-- The packets of home notices, one block each (R210). -/
def homePackets (now : Tick) (l : List Notice) (free : List Nat) : List Packet :=
  (l.zip free).map fun x => {
    kind := .reply, owner := some .labelReply, subject := none, number := 0
    stamp := now, size := 16 + x.1.bytes.length, blocks := [x.2], payload := x.1.bytes }

theorem noOwed_oweAll (s : State) : (oweAll s).noOwed = s.noOwed := by
  simp only [State.noOwed, oweAll, State.onHsc]
  have : ((s.hsc.links.map fun k => { k with owed := true }).map fun k => { k with owed := false }) =
      s.hsc.links.map fun k => { k with owed := false } := by
    apply Table.ext_get; intro l; simp only [Table.get_map]
  rw [this]

/-- A held list of home notices all granted their blocks. -/
theorem homeNotices_granted (l : List Notice) : ∀ (u : State) (r : OwnerRecord), u.cmu.homeNotices = l → r = u.pkp.owners.get 5 →
    l.length ≤ u.pkp.free.length → r.count + l.length ≤ r.cap →
    (sendHomeNotices l.length u).noOwed = ({ u with
      cmu := { u.cmu with homeNotices := [] }
      pkp := { u.pkp with
        free := u.pkp.free.drop l.length
        owners := u.pkp.owners.set 5 { r with count := r.count + l.length }
        reply := u.pkp.reply ++ homePackets u.tbu.tick l u.pkp.free } } : State).noOwed := by
  induction l with
  | nil =>
    intro u r h1 h2 _ _
    subst h2
    have : u.pkp.owners.set 5 { u.pkp.owners.get 5 with count := (u.pkp.owners.get 5).count + 0 } = u.pkp.owners := by
      apply Table.ext_get; intro o; by_cases e : (5 : Fin 6) = o
      · subst e; simp
      · rw [Table.get_set_ne _ _ e]
    simp only [List.length_nil, sendHomeNotices, List.drop_zero, homePackets, List.zip_nil_left, List.map_nil, List.append_nil, this]
    rw [← h1]
  | cons a l ih =>
    intro u r h1 h2 hf hc
    obtain ⟨x, fr, hx⟩ : ∃ x fr, u.pkp.free = x :: fr := by
      cases h : u.pkp.free with
      | nil => rw [h] at hf; simp at hf
      | cons x fr => exact ⟨x, fr, rfl⟩
    have h5 : Owner.labelReply.idx = (5 : Fin 6) := rfl
    have hg : u.pkp.grant .labelReply 1 = some ([x], { u.pkp with free := fr, owners := u.pkp.owners.set 5 { r with count := r.count + 1 } }) := by
      simp only [Pool.grant, h5, ← h2, hx]
      rw [if_pos ⟨by simp, by simp at hc; omega⟩]
      rfl
    obtain ⟨v, hv⟩ : ∃ v : State, v = { u with
      cmu := { u.cmu with homeNotices := l }
      pkp := { u.pkp with
        free := fr
        owners := u.pkp.owners.set 5 { r with count := r.count + 1 }
        reply := u.pkp.reply ++ [replyPacket none a.bytes [x] u.tbu.tick] } } := ⟨_, rfl⟩
    have hs : sendHomeNotices (a :: l).length u = sendHomeNotices l.length (oweAll v) := by
      simp only [List.length_cons, sendHomeNotices, sendHomeNotice, h1, hg]
      rw [hv]; rfl
    rw [hs, ih (oweAll v) { r with count := r.count + 1 } (by rw [hv]; rfl) (by rw [hv]; simp [oweAll, State.onHsc])
      (by rw [hv]; rw [hx] at hf; simpa [oweAll, State.onHsc] using hf) (by simp at hc ⊢; omega), hv]
    have e : ∀ y z : State, y = oweAll z → y.noOwed = z.noOwed := by intro y z h; rw [h, noOwed_oweAll]
    apply e
    simp only [oweAll, State.onHsc, hx]
    simp only [set_twice, List.length_cons, List.drop_succ_cons, homePackets, List.zip_cons_cons, List.map_cons, List.append_assoc,
      List.cons_append, List.nil_append, Nat.add_assoc, Nat.add_comm 1]
    rfl

/-- A home notice refused its block stays, and POOL-REFUSED is raised (R210). -/
theorem homeNotices_refused {l : List Notice} {u : State} (h1 : u.cmu.homeNotices = l) (hl : l ≠ [])
    (hr : u.pkp.free = [] ∨ (u.pkp.owners.get 5).cap ≤ (u.pkp.owners.get 5).count) :
    sendHomeNotices l.length u = raiseFlag .poolRefused (u.onPool fun k => k.refuse .labelReply) := by
  cases l with
  | nil => exact absurd rfl hl
  | cons a l =>
    have h5 : Owner.labelReply.idx = (5 : Fin 6) := rfl
    have hg : u.pkp.grant .labelReply 1 = none := by
      simp only [Pool.grant, h5]; rw [if_neg]
      rintro ⟨g1, g2⟩
      obtain hr | hr := hr
      · simp [hr] at g1
      · omega
    simp only [List.length_cons, sendHomeNotices, sendHomeNotice, h1, hg]

theorem refuse_pkp (u : State) (o : Owner) : (u.onPool fun k => k.refuse o).pkp = { u.pkp with
    owners := u.pkp.owners.set o.idx { u.pkp.owners.get o.idx with refused := min ((u.pkp.owners.get o.idx).refused + 1) 65535 } } := rfl

/-- What a period start leaves of a state with no label to deliver: the Command Unit's part alone after the allocation. -/
theorem period_home {s : State} (hdue : periodDue s = true) (h1 : s.cmu.noticesHome = false) (hw : s.clm.waiting = [])
    (hc : ∀ c ∈ s.clm.clips, c.state ≠ .postRoll) :
    ∃ b, Allotted (s.onTbu Timebase.startPeriod) b ∧ exec .periodStart s = .next (finish (retryHome b)) := by
  obtain ⟨b, hb⟩ : ∃ b, b = allocation (((s.onTbu Timebase.startPeriod).tbu.period.map (·.length)).getD 0) (firstAllocated (s.onTbu Timebase.startPeriod)) := ⟨_, rfl⟩
  have hal : Allotted (s.onTbu Timebase.startPeriod) b := by
    rw [hb]; exact (firstAllocated_allotted _).trans (allocation_allotted _ h1)
  refine ⟨b, hal, ?_⟩
  have hx : exec .periodStart s = .next (finish (startPeriod s)) := by
    show Host.Outcome.next (finish (periodIfDue s)) = _
    simp [periodIfDue, hdue]
  have bclm : b.clm = s.clm := by rw [Allotted] at hal; rw [hal]; rfl
  have e1 : countPostRoll b = b := by
    have : (b.clm.clips.filter fun c => c.state == .postRoll) = [] := by
      rw [List.filter_eq_nil_iff]; intro c h; rw [bclm] at h; simpa using hc c h
    simp only [countPostRoll, this, List.foldl_nil]
  rw [hx]
  simp only [startPeriod, deliverPeriod, ← hb, e1, bclm, hw, List.length_nil, retryLabels]

theorem kept_links {s b u : State} (hal : Allotted (s.onTbu Timebase.startPeriod) b) (hl : NoLinkTakes s)
    (h1 : u.lsu = b.lsu) (h2 : u.noOwed.hsc = b.noOwed.hsc) : NoLinkTakes u := by
  intro l
  rw [Allotted] at hal
  have k1 : link u l = link s l := by simp only [link, h1]; rw [hal]; rfl
  have k2 : (sched u l).slot = (sched b l).slot ∧ (sched u l).inFlight = (sched b l).inFlight := by
    have : (sched u.noOwed l) = (sched b.noOwed l) := by simp only [sched, h2]
    simp only [sched, State.noOwed, State.onHsc, Table.get_map] at this ⊢
    constructor
    · have := congrArg LinkSched.slot this; exact this
    · have := congrArg LinkSched.inFlight this; exact this
  have k3 : (sched b l) = sched s l := by simp only [sched]; rw [hal]; rfl
  rw [k1, k2.1, k2.2, k3]
  exact hl l

end Sys2Proof.Machine
end

