-- ==== Sys2Proof/Laws/Leaves.lean ====
section
/-! SUPPORT. The Clip Marker when a programme leaves RUNNING (R130, R134): the fold over the records that wait for it, in closed form. -/

namespace Sys2Proof.Machine

/-- What a programme's leaving RUNNING does to one record that waits for it (R130). -/
def leaveStep (p : Prog) (s : State) (c : Clip) : State :=
    let left := c.cameras.filter fun k => !(k.prog == p && k.inPoint.isNone)
    if left.isEmpty then queueNotice (.camerasStopped c.number) none (freeClip c.number s)
    else closeIfResolved c.number (onClip c.number (fun c => { c with cameras := left }) s)

theorem leavesRunning_fold (p : Prog) (s : State) : leavesRunning p s = (s.clm.clips.filter fun c => c.pendingOn p).foldl (leaveStep p) s := rfl

/-- What the records `l` leave of state `s`, which holds them all, once `p` has left them. -/
def leftBy (p : Prog) (l : List Clip) (s : State) : State :=
  let gone := fun n => l.any fun c => c.number == n && (c.without p).isNone
  { s with
    clm := { s.clm with
      clips := s.clm.clips.filterMap fun d => if d.number ∈ l.map (·.number) then d.without p else some d
      desks := s.clm.desks.map fun d => d.filter fun n => !gone n
      tally := s.clm.tally.map fun d => d.filter fun n => !gone n
      waiting := (s.clm.waiting.filter fun n => !gone n) ++ (l.filter (Clip.closesWithout p)).map (·.number)
      acked := s.clm.acked.filter fun n => !gone n }
    cmu := { s.cmu with
      notices := s.cmu.notices ++ (l.filter fun c => (c.without p).isNone).map fun c =>
        { body := .camerasStopped c.number, tick := s.tbu.tick, pic := s.tbu.pic } } }

/-- The records `l` of the table of `s` wait for `p`, and their freeing and closing find room and another label waiting. -/
structure Leavers (p : Prog) (l : List Clip) (s : State) : Prop where
  nodup : (l.map (·.number)).Nodup
  mem : ∀ c ∈ l, c ∈ s.clm.clips ∧ ∀ d ∈ s.clm.clips, d.number = c.number → d = c
  pending : ∀ c ∈ l, c.pendingOn p = true
  noCopy : s.cmu.noticesHome = false
  room : s.cmu.notices.length + (l.filter fun c => (c.without p).isNone).length ≤ 32
  waits : (∀ c ∈ l, c.closesWithout p = false) ∨ ∃ n ∈ s.clm.waiting, ∀ c ∈ l, c.number = n → (c.without p).isSome = true
  inPoints : ∀ c ∈ l, c.closesWithout p = true → ∀ k ∈ c.keeps p, ∀ a, k.inPoint = some a →
    (c.expiry.getD 0 - a.pic).toNat ≤ 2147483647

theorem without_none {p : Prog} {c : Clip} (h : c.pendingOn p = true) : (c.without p).isNone = true ↔ c.keeps p = [] := by
  simp only [Clip.without, h, Bool.true_eq_false, if_false]
  by_cases hk : c.keeps p = []
  · simp [hk]
  · simp only [hk, if_false, iff_false]; split <;> simp

theorem leaveStep_freed {p : Prog} {c : Clip} {s : State} (h1 : c.keeps p = []) (h2 : s.cmu.noticesHome = false) (h3 : s.cmu.notices.length < 32) :
    leaveStep p s c = (freeClip c.number s).onCmu fun m => { m with
      notices := m.notices ++ [{ body := .camerasStopped c.number, tick := s.tbu.tick, pic := s.tbu.pic }] } := by
  have h1' : (c.cameras.filter fun k => !(k.prog == p && k.inPoint.isNone)) = [] := h1
  simp only [leaveStep, h1', List.isEmpty_nil, if_true]
  rw [queueNotice_plain (by exact h2) (by simp) (by exact h3)]
  rfl

theorem leaveStep_stays {p : Prog} {c : Clip} {s : State} (hp : c.pendingOn p = true) (h1 : c.keeps p ≠ []) (h2 : c.closesWithout p = false) (hc : c ∈ s.clm.clips)
    (hu : ∀ d ∈ s.clm.clips, d.number = c.number → d = c) :
    leaveStep p s c = onClip c.number (fun d => { d with cameras := c.keeps p }) s := by
  have h1' : (c.keeps p).isEmpty = false := by simpa using h1
  have e : leaveStep p s c = closeIfResolved c.number (onClip c.number (fun d => { d with cameras := c.keeps p }) s) := by
    simp only [leaveStep]
    rw [if_neg]
    · rfl
    · show ¬ ((c.keeps p).isEmpty = true); simp [h1]
  rw [e]
  have hf : clipOf (onClip c.number (fun d => { d with cameras := c.keeps p }) s) c.number = some { c with cameras := c.keeps p } := by
    simp only [clipOf, onClip, State.onClm]
    refine find_unique (c := { c with cameras := c.keeps p }) ?_ ?_
    · exact List.mem_map.mpr ⟨c, hc, by simp⟩
    · intro d hd hn
      obtain ⟨e, he, rfl⟩ := List.mem_map.mp hd
      split at hn
      · rename_i h; simp [hu e he h]
      · rename_i hne; exact absurd hn hne
  simp only [closeIfResolved, hf]
  rw [if_neg]
  rintro ⟨g1, g2⟩
  simp only [Clip.closesWithout, hp, Bool.true_and, h1', Bool.not_false, Bool.and_true] at h2
  simp only [Clip.resolved] at g2
  simp [g1, g2] at h2

theorem leaveStep_closes {p : Prog} {c : Clip} {s : State} (h2 : c.closesWithout p = true) (hc : c ∈ s.clm.clips)
    (hu : ∀ d ∈ s.clm.clips, d.number = c.number → d = c) (hw : s.clm.waiting ≠ [])
    (hin : ∀ k ∈ c.keeps p, ∀ a, k.inPoint = some a → (c.expiry.getD 0 - a.pic).toNat ≤ 2147483647) :
    leaveStep p s c = (onClip c.number (fun _ => { c with cameras := c.keeps p, state := .closed, count := 0, expiry := none, outPoint := some (c.expiry.getD 0) }) s).onClm fun m => { m with waiting := m.waiting ++ [c.number] } := by
  simp only [Clip.closesWithout, Bool.and_eq_true, beq_iff_eq, Bool.not_eq_true', List.isEmpty_eq_false_iff] at h2
  obtain ⟨⟨⟨h0, h3⟩, h1⟩, h4⟩ := h2
  have e : leaveStep p s c = closeIfResolved c.number (onClip c.number (fun d => { d with cameras := c.keeps p }) s) := by
    simp only [leaveStep]
    rw [if_neg]
    · rfl
    · show ¬ ((c.keeps p).isEmpty = true); simp [h1]
  rw [e]
  have hf : clipOf (onClip c.number (fun d => { d with cameras := c.keeps p }) s) c.number = some { c with cameras := c.keeps p } := by
    simp only [clipOf, onClip, State.onClm]
    refine find_unique (c := { c with cameras := c.keeps p }) ?_ ?_
    · exact List.mem_map.mpr ⟨c, hc, by simp⟩
    · intro d hd hn
      obtain ⟨e, he, rfl⟩ := List.mem_map.mp hd
      split at hn
      · rename_i h; simp [hu e he h]
      · rename_i hne; exact absurd hn hne
  simp only [closeIfResolved, hf]
  rw [if_pos ⟨h3, h4⟩]
  have hl : ((c.keeps p).filterMap fun k => k.inPoint.map (·.pic)).foldl laterPic (c.expiry.getD 0) = c.expiry.getD 0 := by
    refine later_e _ _ fun k hk => ?_
    have := List.all_eq_true.mp h4 k hk
    obtain ⟨a, ha⟩ := Option.isSome_iff_exists.mp this
    exact ⟨a, ha, hin k hk a ha⟩
  have hne : (onClip c.number (fun d => { d with cameras := c.keeps p }) s).clm.waiting.isEmpty = false := by
    show s.clm.waiting.isEmpty = false
    simpa using hw
  simp only [closeClip, hne, Bool.false_eq_true, if_false]
  simp only [onClip, State.onClm, List.map_map]
  have key : ∀ f g : Clip → Clip, (∀ d ∈ s.clm.clips, f d = g d) → s.clm.clips.map f = s.clm.clips.map g :=
    fun f g h => List.map_congr_left h
  rw [key]
  intro d hd
  simp only [Function.comp]
  by_cases e : d.number = c.number
  · have := hu d hd e
    subst this
    simp only [if_true, Clip.inPoints]
    rw [hl]
  · simp [e]

theorem without_closes {p : Prog} {c : Clip} (h : c.closesWithout p = true) : c.without p =
    some { c with cameras := c.keeps p, state := .closed, count := 0, expiry := none, outPoint := some (c.expiry.getD 0) } := by
  have h' := h
  simp only [Clip.closesWithout, Bool.and_eq_true, beq_iff_eq, Bool.not_eq_true', List.isEmpty_eq_false_iff] at h'
  simp [Clip.without, h, h'.1.1.1, h'.1.2]

theorem without_stays {p : Prog} {c : Clip} (h : c.pendingOn p = true) (h1 : c.keeps p ≠ []) (h2 : c.closesWithout p = false) :
    c.without p = some { c with cameras := c.keeps p } := by
  simp [Clip.without, h, h1, h2]

theorem Leavers.tail {p : Prog} {c : Clip} {l : List Clip} {s t : State} (h : Leavers p (c :: l) s)
    (h1 : ∀ d ∈ s.clm.clips, d.number ≠ c.number → d ∈ t.clm.clips)
    (h2 : ∀ d ∈ t.clm.clips, d.number ≠ c.number → d ∈ s.clm.clips) (h3 : t.cmu.noticesHome = false)
    (h4 : t.cmu.notices.length = s.cmu.notices.length + if (c.without p).isNone then 1 else 0)
    (h5 : ∀ n ∈ s.clm.waiting, (c.number = n → (c.without p).isSome = true) → n ∈ t.clm.waiting) : Leavers p l t := by
  have hn := h.nodup
  simp only [List.map_cons, List.nodup_cons] at hn
  have hne : ∀ e ∈ l, e.number ≠ c.number := fun e he h => hn.1 (List.mem_map.mpr ⟨e, he, h⟩)
  refine ⟨hn.2, fun e he => ?_, fun e he => h.pending e (List.mem_cons_of_mem _ he), h3, ?_, ?_, fun e he => h.inPoints e (List.mem_cons_of_mem _ he)⟩
  · obtain ⟨g1, g2⟩ := h.mem e (List.mem_cons_of_mem _ he)
    exact ⟨h1 e g1 (hne e he), fun d hd hde => g2 d (h2 d hd (by rw [hde]; exact hne e he)) hde⟩
  · have := h.room
    rw [List.filter_cons] at this
    rw [h4]
    split at this
    · rename_i hc; simp only [hc, if_true]; simp only [List.length_cons] at this; omega
    · rename_i hc; simp only [hc, Bool.false_eq_true, if_false]; omega
  · obtain hw | ⟨n, hn, hw⟩ := h.waits
    · left; exact fun d hd => hw d (List.mem_cons_of_mem _ hd)
    · right; exact ⟨n, h5 n hn (hw c (List.mem_cons_self ..)), fun d hd => hw d (List.mem_cons_of_mem _ hd)⟩

theorem notAny {p : Prog} {c : Clip} {l : List Clip} (h : (c.without p).isNone = false) (n : Nat) :
    (((c :: l).any fun c => c.number == n && (c.without p).isNone)) = l.any fun c => c.number == n && (c.without p).isNone := by
  simp [List.any_cons, h]

theorem leftBy_cons {p : Prog} {c : Clip} {l : List Clip} {s : State} (h : Leavers p (c :: l) s) :
    Leavers p l (leaveStep p s c) ∧ leftBy p l (leaveStep p s c) = leftBy p (c :: l) s := by
  have hn := h.nodup
  simp only [List.map_cons, List.nodup_cons] at hn
  have hp := h.pending c (List.mem_cons_self ..)
  obtain ⟨hc, hu⟩ := h.mem c (List.mem_cons_self ..)
  by_cases hk : c.keeps p = []
  · have hw : c.without p = none := by simp [Clip.without, hp, hk]
    have hcl : c.closesWithout p = false := by simp [Clip.closesWithout, hk]
    have hroom : s.cmu.notices.length < 32 := by
      have := h.room
      rw [List.filter_cons] at this
      simp only [hw, Option.isNone_none, if_true, List.length_cons] at this
      omega
    rw [leaveStep_freed hk h.noCopy hroom]
    refine ⟨h.tail ?_ ?_ h.noCopy ?_ ?_, ?_⟩
    · intro d hd hne; exact List.mem_filter.mpr ⟨hd, by simpa using hne⟩
    · intro d hd _; exact List.mem_of_mem_filter hd
    · show (s.cmu.notices ++ [_]).length = _; simp [hw]
    · intro n hn hs
      refine List.mem_filter.mpr ⟨hn, ?_⟩
      rw [hw] at hs
      simp only [Option.isSome_none, Bool.false_eq_true, imp_false] at hs
      simpa using Ne.symm hs
    · have hany : ∀ n, ((c :: l).any fun c => c.number == n && (c.without p).isNone) =
          ((c.number == n) || l.any fun c => c.number == n && (c.without p).isNone) := by
        intro n; simp [List.any_cons, hw]
      simp only [leftBy, freeClip, State.onClm, State.onCmu, hany, List.filter_cons, hcl, hw, Option.isNone_none, if_true,
        Bool.false_eq_true, if_false, List.map_cons, List.append_assoc, List.singleton_append, List.filterMap_filter, List.filter_filter]
      have ha : (fun m => !(c.number == m || l.any fun c => c.number == m && (c.without p).isNone)) =
          fun m => (!l.any fun c => c.number == m && (c.without p).isNone) && m != c.number := by
        funext m; simp only [Bool.not_or, bne, Bool.and_comm]; rw [Bool.beq_comm]
      have hopt : ∀ {k : Nat} (t : Table k (Option Nat)), ((t.map fun d => d.filter (· != c.number)).map fun d => d.filter fun n =>
          !l.any fun c => c.number == n && (c.without p).isNone) =
          t.map fun d => d.filter fun m => (!l.any fun c => c.number == m && (c.without p).isNone) && m != c.number := by
        intro k t
        refine Table.ext_get fun i => ?_
        simp only [Table.get_map]
        cases t.get i with
        | none => rfl
        | some n => by_cases h1 : n = c.number <;> by_cases h2 : (l.any fun c => c.number == n && (c.without p).isNone) = true <;> simp [Option.filter, h1, h2]
      rw [ha, hopt, hopt]
      congr 2
      apply List.filterMap_congr
      intro d hd
      by_cases e : d.number = c.number
      · simp [e, hu d hd e, hw]
      · simp [e]
  · by_cases hcl : c.closesWithout p = true
    · have hw := without_closes hcl
      have hne : s.clm.waiting ≠ [] := by
        obtain hw | ⟨n, hn, -⟩ := h.waits
        · rw [hw c (List.mem_cons_self ..)] at hcl; cases hcl
        · exact List.ne_nil_of_mem hn
      rw [leaveStep_closes hcl hc hu hne (h.inPoints c (List.mem_cons_self ..) hcl)]
      refine ⟨h.tail ?_ ?_ h.noCopy ?_ ?_, ?_⟩
      · intro d hd hne; exact List.mem_map.mpr ⟨d, hd, by simp [hne]⟩
      · intro d hd hne
        obtain ⟨d0, hd0, rfl⟩ := List.mem_map.mp hd
        split at hne
        · exact absurd rfl hne
        · rename_i g; simpa [g] using hd0
      · show s.cmu.notices.length = _; simp [hw]
      · intro n hn _; exact List.mem_append_left _ hn
      · have hs : (c.without p).isNone = false := by simp [hw]
        have hl : (l.any fun d => d.number == c.number && (d.without p).isNone) = false := by
          rw [List.any_eq_false]
          intro d hd
          have : d.number ≠ c.number := fun e => hn.1 (List.mem_map.mpr ⟨d, hd, e⟩)
          simp [this]
        simp only [leftBy, onClip, State.onClm, notAny hs, List.filter_cons, hs, hcl, if_true, Bool.false_eq_true, if_false,
          List.map_cons, List.filter_append, List.filter_nil, hl, Bool.not_false, List.append_assoc, List.singleton_append, List.filterMap_map]
        congr 2
        apply List.filterMap_congr
        intro d hd
        simp only [Function.comp]
        by_cases e : d.number = c.number
        · simp only [e, if_true, hn.1, if_false, List.mem_cons, true_or]; rw [hu d hd e, hw]
        · simp [e]
    · have hcl : c.closesWithout p = false := by simpa using hcl
      have hw := without_stays hp hk hcl
      rw [leaveStep_stays hp hk hcl hc hu]
      refine ⟨h.tail ?_ ?_ h.noCopy ?_ ?_, ?_⟩
      · intro d hd hne; exact List.mem_map.mpr ⟨d, hd, by simp [hne]⟩
      · intro d hd hne
        obtain ⟨d0, hd0, rfl⟩ := List.mem_map.mp hd
        split at hne
        · rename_i g; exact absurd g hne
        · rename_i g; simpa [g] using hd0
      · show s.cmu.notices.length = _; simp [hw]
      · intro n hn _; exact hn
      · have hs : (c.without p).isNone = false := by simp [hw]
        simp only [leftBy, onClip, State.onClm, notAny hs, List.filter_cons, hs, hcl, Bool.false_eq_true, if_false,
          List.map_cons, List.filterMap_map]
        congr 2
        apply List.filterMap_congr
        intro d hd
        simp only [Function.comp]
        by_cases e : d.number = c.number
        · simp only [e, if_true, hn.1, if_false, List.mem_cons, true_or]; rw [hu d hd e, hw]
        · simp [e]

theorem leftBy_nil (p : Prog) (s : State) : leftBy p [] s = s := by
  have e1 : ∀ l : List Nat, (l.filter fun _ => true) = l := fun l => List.filter_true l
  have e2 : ∀ {k : Nat} (t : Table k (Option Nat)), (t.map fun d => d.filter fun _ => true) = t := by
    intro k t
    refine Table.ext_get fun i => ?_
    simp only [Table.get_map]
    cases t.get i <;> rfl
  simp only [leftBy, List.any_nil, Bool.not_false, e1, e2, List.map_nil, List.not_mem_nil, if_false, List.filter_nil, List.append_nil, List.filterMap_some]

theorem leave_fold (p : Prog) (l : List Clip) : ∀ {s : State}, Leavers p l s → l.foldl (leaveStep p) s = leftBy p l s := by
  induction l with
  | nil => intro s _; exact (leftBy_nil p s).symm
  | cons c l ih =>
    intro s h
    obtain ⟨h1, h2⟩ := leftBy_cons h
    rw [List.foldl_cons, ih h1, h2]

theorem without_unpending {p : Prog} {c : Clip} (h : c.pendingOn p = false) : c.without p = some c := by simp [Clip.without, h]

theorem pending_of_gone {p : Prog} {c : Clip} (h : (c.without p).isNone = true) : c.pendingOn p = true := by
  cases hp : c.pendingOn p
  · rw [without_unpending hp] at h; cases h
  · rfl

theorem pending_of_closes {p : Prog} {c : Clip} (h : c.closesWithout p = true) : c.pendingOn p = true := by
  simp only [Clip.closesWithout, Bool.and_eq_true] at h; exact h.1.1.1

/-- R130, R134: what a programme's leaving RUNNING does. -/
theorem leavesRunning_eq {p : Prog} {s : State} (h : LeaveSettles p s) : leavesRunning p s = { s with
    clm := withoutCamera p s.clm
    cmu := { s.cmu with notices := s.cmu.notices ++ stoppedNotices p s } } := by
  have hg : (s.clm.clips.filter fun c => c.pendingOn p).filter (fun c => (c.without p).isNone) = s.clm.clips.filter fun c => (c.without p).isNone := by
    rw [List.filter_filter]
    congr 1; funext c
    cases hx : (c.without p).isNone with
    | false => rfl
    | true => simp [pending_of_gone hx]
  have hc : (s.clm.clips.filter fun c => c.pendingOn p).filter (Clip.closesWithout p) = s.clm.clips.filter (Clip.closesWithout p) := by
    rw [List.filter_filter]
    congr 1; funext c
    cases hx : c.closesWithout p with
    | false => simp
    | true => simp [pending_of_closes hx]
  have hany : ∀ n, ((s.clm.clips.filter fun c => c.pendingOn p).any fun c => c.number == n && (c.without p).isNone) = s.clm.frees p n := by
    intro n
    simp only [ClipMarker.frees, List.any_filter]
    congr 1; funext c
    cases hx : (c.without p).isNone with
    | false => simp
    | true => simp [pending_of_gone hx]
  have hl : Leavers p (s.clm.clips.filter fun c => c.pendingOn p) s := by
    refine ⟨(List.filter_sublist.map _).nodup h.table.distinct, fun c hc => ⟨List.mem_of_mem_filter hc, fun d hd he => clip_unique h.table hd (List.mem_of_mem_filter hc) he⟩,
      fun c hc => by simpa using List.of_mem_filter hc, h.noCopy, ?_, ?_, fun c hc => h.inPoints c (List.mem_of_mem_filter hc)⟩
    · rw [hg]; have := h.room; simp only [stoppedNotices, List.length_map] at this; omega
    · obtain hw | ⟨n, hn, hw⟩ := h.waits
      · left; exact fun c hc => hw c (List.mem_of_mem_filter hc)
      · right; refine ⟨n, hn, fun c hc he => ?_⟩
        simp only [ClipMarker.frees, List.any_eq_false] at hw
        have := hw c (List.mem_of_mem_filter hc)
        simpa [he, Option.isSome_iff_ne_none] using this
  rw [leavesRunning_fold, leave_fold p _ hl]
  simp only [leftBy, withoutCamera, hany, hc, hg, stoppedNotices]
  congr 2
  apply List.filterMap_congr
  intro d hd
  cases hx : d.pendingOn p with
  | true => rw [if_pos]; exact List.mem_map.mpr ⟨d, List.mem_filter.mpr ⟨hd, hx⟩, rfl⟩
  | false => rw [without_unpending hx]; split <;> rfl

end Sys2Proof.Machine
end

