-- ==== Sys2Proof/Laws/Ledger.lean ====
section
/-! SUPPORT. The books of the Packet Pool (R146, R147) and the links' in-flight lists (R171) as one invariant, and one lemma for
each operation of the pool, the notices, the queues and the Home Scheduler: it keeps the invariant. -/

namespace Sys2Proof.Machine

/-! ### The bags of the parts of the state -/

def Pool.bag (k : Pool) : Bag := bagOf (k.reply ++ k.label ++ k.sound ++ k.picture)
def LinkSched.bag (h : LinkSched) : Bag := bagOf (h.slot.toList.map (·.packet) ++ h.inFlight.map (·.packet))
def linksBag (t : Table 4 LinkSched) : Bag := (t.get 0).bag + ((t.get 1).bag + ((t.get 2).bag + (t.get 3).bag))
def bandBag : Option Band → Bag
  | none => 0
  | some b => (b.frags.map fun f => (some (.prog b.prog), f) : List (Option Owner × List Nat))
def SoundStream.bag (t : SoundStream) : Bag := bagOf (t.assembly.bind (·.packet)).toList
def streamsBag (t : Table 4 SoundStream) : Bag := (t.get 0).bag + ((t.get 1).bag + ((t.get 2).bag + (t.get 3).bag))

structure BandOk (b : Option Band) : Prop where
  lost : ∀ c, b = some c → c.lost = true → c.frags = []

structure StreamOk (t : SoundStream) : Prop where
  disabled : t.enable = false → t.assembly = none
  assembly : ∀ a p, t.assembly = some a → a.packet = some p → p.owner = some .sound ∧ p.kind = .sound

/-- The books stand, with `x` held outside the state, and every link's list is as R171 says. -/
def Ok (x : Bag) (s : State) : Prop :=
  Books s.pkp.free s.pkp.owners
    (x + (s.pkp.bag + (linksBag s.hsc.links + (bandBag s.cde.band + streamsBag s.sdp)))) ∧
  (∀ l, LaneOk (s.lsu.get l).state (s.hsc.links.get l)) ∧ BandOk s.cde.band ∧ ∀ i, StreamOk (s.sdp.get i)

variable {x : Bag} {s t : State}

theorem Ok.same (h : Ok x s) (h1 : t.pkp = s.pkp) (h2 : t.hsc = s.hsc) (h3 : t.cde.band = s.cde.band) (h4 : t.sdp = s.sdp)
    (h5 : t.lsu = s.lsu) : Ok x t := by
  simp only [Ok, h1, h2, h3, h4, h5]; exact h

/-- What R171 speaks of: the slot, the in-flight list, the next sequence, the last acknowledged one and the epoch. -/
def LinkSched.lane (k : LinkSched) : Option Slot × List InFlight × Seq × Seq × Epoch :=
  (k.slot, k.inFlight, k.nextSeq, k.lastAck, k.epoch)

theorem LinkSched.bag_lane {k k' : LinkSched} (h : k'.lane = k.lane) : k'.bag = k.bag := by
  simp only [LinkSched.lane, Prod.mk.injEq] at h
  simp [LinkSched.bag, h.1, h.2.1]

theorem LaneOk.lane {st : LinkState} {k k' : LinkSched} (h : k'.lane = k.lane) (a : LaneOk st k) : LaneOk st k' := by
  simp only [LinkSched.lane, Prod.mk.injEq] at h
  obtain ⟨h1, h2, h3, h4, h5⟩ := h
  constructor
  · rw [h1, h2]; exact a.idle
  · rw [h2]; exact a.size
  · rw [h2, h4]; exact a.entries
  · rw [h2, h3, h4]; exact a.next
  · rw [h1, h2, h3, h5]; exact a.slot

theorem linksBag_set (u : Table 4 LinkSched) (l : Link) (k : LinkSched) : linksBag (u.set l k) + (u.get l).bag = linksBag u + k.bag := by
  have h01 : (0 : Link) ≠ 1 := by decide
  have h02 : (0 : Link) ≠ 2 := by decide
  have h03 : (0 : Link) ≠ 3 := by decide
  have h12 : (1 : Link) ≠ 2 := by decide
  have h13 : (1 : Link) ≠ 3 := by decide
  have h23 : (2 : Link) ≠ 3 := by decide
  have key : ∀ i : Fin 4, i = 0 ∨ i = 1 ∨ i = 2 ∨ i = 3 := by decide
  rcases key l with rfl | rfl | rfl | rfl <;>
    simp [linksBag, Table.get_set_ne, h01, h02, h03, h12, h13, h23, h01.symm, h02.symm, h03.symm, h12.symm, h13.symm, h23.symm] <;> abel

theorem streamsBag_set (u : Table 4 SoundStream) (l : Fin 4) (k : SoundStream) : streamsBag (u.set l k) + (u.get l).bag = streamsBag u + k.bag := by
  have h01 : (0 : Fin 4) ≠ 1 := by decide
  have h02 : (0 : Fin 4) ≠ 2 := by decide
  have h03 : (0 : Fin 4) ≠ 3 := by decide
  have h12 : (1 : Fin 4) ≠ 2 := by decide
  have h13 : (1 : Fin 4) ≠ 3 := by decide
  have h23 : (2 : Fin 4) ≠ 3 := by decide
  have key : ∀ i : Fin 4, i = 0 ∨ i = 1 ∨ i = 2 ∨ i = 3 := by decide
  rcases key l with rfl | rfl | rfl | rfl <;>
    simp [streamsBag, Table.get_set_ne, h01, h02, h03, h12, h13, h23, h01.symm, h02.symm, h03.symm, h12.symm, h13.symm, h23.symm] <;> abel

/-- One link's scheduling changes: what it held and what is held outside, before and after, are the same. -/
theorem Ok.setSched {y : Bag} {l : Link} {f : LinkSched → LinkSched} (h : Ok x s)
    (hb : x + (s.hsc.links.get l).bag = y + (f (s.hsc.links.get l)).bag)
    (hl : LaneOk (s.lsu.get l).state (f (s.hsc.links.get l))) : Ok y (s.onSched l f) := by
  obtain ⟨a, b, c, d⟩ := h
  have e := linksBag_set s.hsc.links l (f (s.hsc.links.get l))
  refine ⟨?_, ?_, c, d⟩
  · have w : y + (s.pkp.bag + (linksBag (s.hsc.links.set l (f (s.hsc.links.get l))) + (bandBag s.cde.band + streamsBag s.sdp))) =
        x + (s.pkp.bag + (linksBag s.hsc.links + (bandBag s.cde.band + streamsBag s.sdp))) := by
      apply add_right_cancel (b := (s.hsc.links.get l).bag)
      calc _ = y + (s.pkp.bag + ((linksBag (s.hsc.links.set l (f (s.hsc.links.get l))) + (s.hsc.links.get l).bag) + (bandBag s.cde.band + streamsBag s.sdp))) := by abel
        _ = (y + (f (s.hsc.links.get l)).bag) + (s.pkp.bag + (linksBag s.hsc.links + (bandBag s.cde.band + streamsBag s.sdp))) := by rw [e]; abel
        _ = _ := by rw [← hb]; abel
    rw [← w] at a; exact a
  · intro k
    show LaneOk (s.lsu.get k).state ((s.hsc.links.set l (f (s.hsc.links.get l))).get k)
    by_cases hk : l = k
    · subst hk; simpa using hl
    · rw [Table.get_set_ne _ _ hk]; exact b k

theorem Ok.onSched (h : Ok x s) (l : Link) (f : LinkSched → LinkSched) (hf : (f (s.hsc.links.get l)).lane = (s.hsc.links.get l).lane) :
    Ok x (s.onSched l f) := by
  obtain ⟨a, b, c, d⟩ := h
  have hb := LinkSched.bag_lane hf
  have e := linksBag_set s.hsc.links l (f (s.hsc.links.get l))
  rw [hb] at e
  refine ⟨?_, ?_, c, d⟩
  · show Books s.pkp.free s.pkp.owners (x + (s.pkp.bag + (linksBag (s.hsc.links.set l (f (s.hsc.links.get l))) + _)))
    rw [add_right_cancel e]; exact a
  · intro k
    show LaneOk (s.lsu.get k).state ((s.hsc.links.set l (f (s.hsc.links.get l))).get k)
    by_cases hk : l = k
    · subst hk; simpa using (b l).lane hf
    · rw [Table.get_set_ne _ _ hk]; exact b k

theorem Ok.onHsc (h : Ok x s) (f : Scheduler → Scheduler) (hf : ∀ l, ((f s.hsc).links.get l).lane = (s.hsc.links.get l).lane) :
    Ok x (s.onHsc f) := by
  obtain ⟨a, b, c, d⟩ := h
  refine ⟨?_, fun k => (b k).lane (hf k), c, d⟩
  have : linksBag (f s.hsc).links = linksBag s.hsc.links := by
    simp only [linksBag, LinkSched.bag_lane (hf _)]
  show Books s.pkp.free s.pkp.owners (x + (s.pkp.bag + (linksBag (f s.hsc).links + _)))
  rw [this]; exact a

/-- A link's record changes and its list suits the state that it then has. -/
theorem Ok.setLink (h : Ok x s) (l : Link) (f : LinkRecord → LinkRecord)
    (hl : LaneOk (f (s.lsu.get l)).state (s.hsc.links.get l)) : Ok x (s.onLink l f) := by
  obtain ⟨a, b, c, d⟩ := h
  refine ⟨a, ?_, c, d⟩
  intro k
  show LaneOk ((s.lsu.modify l f).get k).state (s.hsc.links.get k)
  by_cases hk : l = k
  · subst hk; simpa using hl
  · rw [Table.get_modify_ne _ _ hk]; exact b k

theorem Ok.onLink (h : Ok x s) (l : Link) (f : LinkRecord → LinkRecord) (hf : (f (s.lsu.get l)).state = (s.lsu.get l).state) :
    Ok x (s.onLink l f) := h.setLink l f (by rw [hf]; exact h.2.1 l)

/-- One stream changes but for its switch and its assembly. -/
theorem Ok.onStream (h : Ok x s) (i : Fin 4) (f : SoundStream → SoundStream) (h1 : (f (s.sdp.get i)).enable = (s.sdp.get i).enable)
    (h2 : (f (s.sdp.get i)).assembly = (s.sdp.get i).assembly) : Ok x (s.onStream i f) := by
  obtain ⟨a, b, c, d⟩ := h
  have e := streamsBag_set s.sdp i (f (s.sdp.get i))
  have hb : (f (s.sdp.get i)).bag = (s.sdp.get i).bag := by simp [SoundStream.bag, h2]
  rw [hb] at e
  refine ⟨?_, b, c, ?_⟩
  · show Books s.pkp.free s.pkp.owners (x + (s.pkp.bag + (linksBag s.hsc.links + (bandBag s.cde.band + streamsBag (s.sdp.set i (f (s.sdp.get i)))))))
    rw [add_right_cancel e]; exact a
  · intro k
    show StreamOk ((s.sdp.set i (f (s.sdp.get i))).get k)
    by_cases hk : i = k
    · subst hk
      simp only [Table.get_set_self]
      exact ⟨by rw [h1, h2]; exact (d i).disabled, by rw [h2]; exact (d i).assembly⟩
    · rw [Table.get_set_ne _ _ hk]; exact d k

/-- One stream changes: what it held and what is held outside, before and after, are the same. -/
theorem Ok.setStream {y : Bag} {i : Fin 4} {f : SoundStream → SoundStream} (h : Ok x s)
    (hb : x + (s.sdp.get i).bag = y + (f (s.sdp.get i)).bag) (hs : StreamOk (f (s.sdp.get i))) : Ok y (s.onStream i f) := by
  obtain ⟨a, b, c, d⟩ := h
  have e := streamsBag_set s.sdp i (f (s.sdp.get i))
  refine ⟨?_, b, c, ?_⟩
  · have w : y + (s.pkp.bag + (linksBag s.hsc.links + (bandBag s.cde.band + streamsBag (s.sdp.set i (f (s.sdp.get i)))))) =
        x + (s.pkp.bag + (linksBag s.hsc.links + (bandBag s.cde.band + streamsBag s.sdp))) := by
      apply add_right_cancel (b := (s.sdp.get i).bag)
      calc _ = y + (s.pkp.bag + (linksBag s.hsc.links + (bandBag s.cde.band + (streamsBag (s.sdp.set i (f (s.sdp.get i))) + (s.sdp.get i).bag)))) := by abel
        _ = (y + (f (s.sdp.get i)).bag) + (s.pkp.bag + (linksBag s.hsc.links + (bandBag s.cde.band + streamsBag s.sdp))) := by rw [e]; abel
        _ = _ := by rw [← hb]; abel
    rw [← w] at a; exact a
  · intro k
    show StreamOk ((s.sdp.set i (f (s.sdp.get i))).get k)
    by_cases hk : i = k
    · subst hk; simpa using hs
    · rw [Table.get_set_ne _ _ hk]; exact d k

/-- The band in coding changes. -/
theorem Ok.setBand {y : Bag} {b : Option Band} (h : Ok x s) (hb : x + bandBag s.cde.band = y + bandBag b) (ho : BandOk b) :
    Ok y (s.setBand b) := by
  obtain ⟨a, l, c, d⟩ := h
  refine ⟨?_, l, ho, d⟩
  have w : y + (s.pkp.bag + (linksBag s.hsc.links + (bandBag b + streamsBag s.sdp))) =
      x + (s.pkp.bag + (linksBag s.hsc.links + (bandBag s.cde.band + streamsBag s.sdp))) := by
    calc _ = (y + bandBag b) + (s.pkp.bag + (linksBag s.hsc.links + streamsBag s.sdp)) := by abel
      _ = _ := by rw [← hb]; abel
  rw [← w] at a; exact a

theorem Ok.foldl {α : Type} {f : State → α → State} (hf : ∀ s a, Ok x s → Ok x (f s a)) (l : List α) (h : Ok x s) :
    Ok x (l.foldl f s) := by
  induction l generalizing s with
  | nil => exact h
  | cons a l ih => exact ih (hf s a h)

/-! ### The pool (R146 to R150) -/

theorem Ok.oweTake (h : Ok x s) (l : Link) : Ok x (oweTake l s) := h.onSched l _ rfl
theorem Ok.oweAll (h : Ok x s) : Ok x (oweAll s) := h.onHsc _ (by intro l; simp [LinkSched.lane])

theorem Pool.bag_append (k : Pool) (c : QueueClass) (ps : List Packet) : (k.setQueue c (k.queue c ++ ps)).bag = bagOf ps + k.bag := by
  cases c <;> simp [Pool.setQueue, Pool.queue, Pool.bag] <;> abel

/-- Packets that are held join a queue. -/
theorem Ok.appendPackets {ps : List Packet} (h : Ok (bagOf ps + x) s) (c : QueueClass) : Ok x (appendPackets c ps s) := by
  apply Ok.oweAll
  obtain ⟨a, b, c', d⟩ := h
  refine ⟨?_, b, c', d⟩
  have e := Pool.bag_append s.pkp c ps
  show Books (s.pkp.setQueue c (s.pkp.queue c ++ ps)).free (s.pkp.setQueue c (s.pkp.queue c ++ ps)).owners
    (x + ((s.pkp.setQueue c (s.pkp.queue c ++ ps)).bag + _))
  have e1 : (s.pkp.setQueue c (s.pkp.queue c ++ ps)).free = s.pkp.free := by cases c <;> rfl
  have e2 : (s.pkp.setQueue c (s.pkp.queue c ++ ps)).owners = s.pkp.owners := by cases c <;> rfl
  rw [e, e1, e2]
  convert a using 1; abel

theorem Ok.grant {o : Owner} {n : Nat} {bs : List Nat} {k : Pool} (h : Ok x s) (hg : s.pkp.grant o n = some (bs, k)) :
    Ok ({(some o, bs)} + x) { s with pkp := k } := by
  obtain ⟨a, b, c, d⟩ := h
  refine ⟨?_, b, c, d⟩
  have := Books.grant hg a
  have e : k.bag = s.pkp.bag := by
    simp only [Pool.grant] at hg
    split at hg
    · simp only [Option.some.injEq, Prod.mk.injEq] at hg
      rw [← hg.2]; rfl
    · simp at hg
  show Books k.free k.owners ({(some o, bs)} + x + (k.bag + _))
  rw [e]
  convert this using 1; abel

theorem Ok.refuse (h : Ok x s) (o : Owner) : Ok x (s.onPool fun k => k.refuse o) := by
  obtain ⟨a, b, c, d⟩ := h
  refine ⟨?_, b, c, d⟩
  refine Books.owners (o := s.pkp.owners) a ?_
  intro i
  simp only [State.onPool, Pool.refuse, Table.get_modify]
  split <;> simp_all

theorem Ok.release {o : Owner} {bs : List Nat} (h : Ok ({(some o, bs)} + x) s) : Ok x (releaseBlocks o bs s) := by
  obtain ⟨a, b, c, d⟩ := h
  refine ⟨?_, b, c, d⟩
  rw [add_assoc] at a
  exact a.release

theorem Ok.releasePacket {p : Packet} (h : Ok ({p.holding} + x) s) : Ok x (s.onPool fun k => k.releasePacket p) := by
  obtain ⟨a, b, c, d⟩ := h
  refine ⟨?_, b, c, d⟩
  rw [add_assoc] at a
  have e : (s.pkp.releasePacket p).bag = s.pkp.bag := by
    simp only [Pool.releasePacket]; split <;> rfl
  show Books (s.pkp.releasePacket p).free (s.pkp.releasePacket p).owners (x + ((s.pkp.releasePacket p).bag + _))
  rw [e]
  exact a.releasePacket

theorem Pool.releasePackets_bag (ps : List Packet) (k : Pool) : (k.releasePackets ps).reply = k.reply ∧ (k.releasePackets ps).label = k.label ∧
    (k.releasePackets ps).sound = k.sound ∧ (k.releasePackets ps).picture = k.picture := by
  have h := Pool.releasePackets_queue k ps
  exact ⟨h .reply, h .label, h .sound, h .picture⟩

theorem bagOf_one (p : Packet) : bagOf [p] = {p.holding} := by simp

/-! ### Flags and notices (R208 to R210) -/

theorem Ok.bumpFlag (h : Ok x s) (f : EventFlag) : Ok x (bumpFlag f s) := h

theorem Ok.sendHomeNotice {raise : EventFlag → State → State} (hr : ∀ x f s, Ok x s → Ok x (raise f s)) (h : Ok x s) :
    Ok x (sendHomeNotice raise s).2 := by
  simp only [Machine.sendHomeNotice]
  split
  · exact h
  · split
    · rename_i bs k hg
      apply Ok.appendPackets
      rw [bagOf_one]
      exact h.grant hg
    · exact hr _ _ _ (h.refuse .labelReply)

theorem Ok.homeCopy {raise : EventFlag → State → State} (hr : ∀ x f s, Ok x s → Ok x (raise f s)) (h : Ok x s) (n : Notice) :
    Ok x (homeCopy raise n s) := by
  simp only [Machine.homeCopy]
  have h1 : Ok x (s.onCmu fun c => { c with homeNotices := joinNotices s.cmu.homeNotices n }) := h
  have h2 := h1.sendHomeNotice hr
  repeat' split
  all_goals first | exact hr _ _ _ h2 | exact hr _ _ _ h1 | exact h2 | exact h1

theorem Ok.queueNoticeWith {raise : EventFlag → State → State} (hr : ∀ x f s, Ok x s → Ok x (raise f s)) (h : Ok x s) (n : Notice) :
    Ok x (queueNoticeWith raise n s) := by
  simp only [Machine.queueNoticeWith]
  have h1 : Ok x (s.onCmu fun c => { c with notices := joinNotices s.cmu.notices n }) := h
  have h2 := h1.homeCopy hr n
  repeat' split
  all_goals first | exact hr _ _ _ h2 | exact hr _ _ _ h1 | exact h2 | exact h1

theorem Ok.raiseWithin (k : Nat) : ∀ x f s, Ok x s → Ok x (raiseWithin k f s) := by
  induction k with
  | zero => intro x f s h; exact h
  | succ k ih =>
    intro x f s h
    simp only [Machine.raiseWithin]
    split
    · exact h
    · exact Ok.queueNoticeWith ih (h.bumpFlag f) _

theorem Ok.raiseFlag (h : Ok x s) (f : EventFlag) : Ok x (raiseFlag f s) := Ok.raiseWithin 4 _ _ _ h

theorem Ok.queueNotice (h : Ok x s) (b : NoticeBody) (a : Option OpenCommand) : Ok x (queueNotice b a s) :=
  Ok.queueNoticeWith (fun _ f _ h => Ok.raiseFlag h f) h _

theorem Ok.sendHomeNotices (n : Nat) (h : Ok x s) : Ok x (sendHomeNotices n s) := by
  induction n generalizing s with
  | zero => exact h
  | succ n ih =>
    have h1 := Ok.sendHomeNotice (raise := Machine.raiseFlag) (fun _ f _ h => Ok.raiseFlag h f) h
    simp only [Machine.sendHomeNotices]
    split <;> rename_i e <;> rw [e] at h1
    · exact ih h1
    · exact h1

theorem Ok.request_some {o : Owner} {n : Nat} {bs : List Nat} (h : Ok x s) (hr : request o n s = (some bs, t)) :
    Ok ({(some o, bs)} + x) t := by
  simp only [request] at hr
  split at hr
  · rename_i bs' k hg
    simp only [Prod.mk.injEq, Option.some.injEq] at hr
    obtain ⟨rfl, rfl⟩ := hr
    exact h.grant hg
  · simp at hr

theorem Ok.request_none {o : Owner} {n : Nat} (h : Ok x s) (hr : request o n s = (none, t)) : Ok x t := by
  simp only [request] at hr
  split at hr
  · simp at hr
  · simp only [Prod.mk.injEq, true_and] at hr
    rw [← hr]
    exact (h.refuse o).raiseFlag _

theorem Ok.refreshCause (h : Ok x s) (p : Prog) : Ok x (refreshCause p s) := h

theorem Ok.clearFlag (h : Ok x s) (f : Fin 19) : Ok x (clearFlag f s) := h

/-! ### Removal from the PICTURE queue, and the return of a lost link's packets (R28, R156, R157) -/

theorem Ok.endReservations (h : Ok x s) (gone : List Packet) : Ok x (endReservations gone s) := by
  simp only [Machine.endReservations]
  have h1 : Ok x (s.onHsc fun c => { c with links := c.links.map fun k =>
      { k with reservation := k.reservation.filter fun r => !r.loses gone } }) :=
    h.onHsc _ (by intro l; simp [LinkSched.lane])
  split
  · exact h1.oweAll
  · exact h1

theorem Ok.flushPictures (h : Ok x s) (p : Prog) : Ok x (flushPictures p s) := by
  apply Ok.endReservations
  obtain ⟨a, b, c, d⟩ := h
  refine ⟨?_, b, c, d⟩
  have e := Pool.releasePackets_bag (queuedPictures p s.pkp) s.pkp
  have hb : s.pkp.bag = bagOf (queuedPictures p s.pkp) + bagOf (s.pkp.reply ++ s.pkp.label ++ s.pkp.sound ++ s.pkp.picture.filter fun q => !(q.subject == some p.val)) := by
    have := bagOf_filter (fun q : Packet => q.subject == some p.val) s.pkp.picture
    simp only [Pool.bag, queuedPictures, bagOf_append, this]; abel
  rw [hb] at a
  have a2 : Books s.pkp.free s.pkp.owners (bagOf (queuedPictures p s.pkp) + (x + (bagOf (s.pkp.reply ++ s.pkp.label ++ s.pkp.sound ++ s.pkp.picture.filter fun q => !(q.subject == some p.val)) + (linksBag s.hsc.links + (bandBag s.cde.band + streamsBag s.sdp))))) := by
    convert a using 1; abel
  have a3 := a2.releasePackets
  show Books (s.pkp.releasePackets (queuedPictures p s.pkp)).free (s.pkp.releasePackets (queuedPictures p s.pkp)).owners
    (x + (bagOf ((s.pkp.releasePackets (queuedPictures p s.pkp)).reply ++ (s.pkp.releasePackets (queuedPictures p s.pkp)).label ++
      (s.pkp.releasePackets (queuedPictures p s.pkp)).sound ++ s.pkp.picture.filter fun q => !(q.subject == some p.val)) + _))
  rw [e.1, e.2.1, e.2.2.1]
  exact a3

theorem ofClass_bag (ps : List Packet) (h : ∀ p ∈ ps, p.kind ≠ .probe) :
    bagOf ps = bagOf (ofClass .reply ps) + (bagOf (ofClass .label ps) + (bagOf (ofClass .sound ps) + bagOf (ofClass .picture ps))) := by
  induction ps with
  | nil => simp [ofClass]
  | cons p ps ih =>
    have h1 := ih (fun q hq => h q (by simp [hq]))
    have h2 := h p (by simp)
    rw [bagOf_cons, h1]
    cases hk : p.kind <;> simp_all [ofClass, List.filter_cons, PacketKind.queue] <;> abel

theorem Ok.reroute {ps : List Packet} (h : Ok (bagOf ps + x) s) (hp : ∀ p ∈ ps, p.kind ≠ .probe) : Ok x (reroute ps s) := by
  apply Ok.oweAll
  obtain ⟨a, b, c, d⟩ := h
  refine ⟨?_, b, c, d⟩
  have hk := ofClass_bag (ps.filter fun p => !pairedOddPacket s p) (fun p hq => hp p (List.mem_filter.mp hq).1)
  have hb := bagOf_filter (fun p => pairedOddPacket s p) ps
  rw [hb, hk] at a
  have a2 : Books s.pkp.free s.pkp.owners (bagOf (ps.filter fun p => pairedOddPacket s p) + (x + (bagOf
      ((ofClass .reply (ps.filter fun p => !pairedOddPacket s p) ++ s.pkp.reply) ++
      (ofClass .label (ps.filter fun p => !pairedOddPacket s p) ++ s.pkp.label) ++
      (ofClass .sound (ps.filter fun p => !pairedOddPacket s p) ++ s.pkp.sound) ++
      (ofClass .picture (ps.filter fun p => !pairedOddPacket s p) ++ s.pkp.picture)) +
      (linksBag s.hsc.links + (bandBag s.cde.band + streamsBag s.sdp))))) := by
    convert a using 1
    simp only [bagOf_append, Pool.bag]; abel
  have a3 := a2.releasePackets
  exact a3

/-! ### Labels (R142) -/

theorem Ok.onClip (h : Ok x s) (n : Nat) (f : Clip → Clip) : Ok x (onClip n f s) := h
theorem Ok.freeClip (h : Ok x s) (n : Nat) : Ok x (freeClip n s) := h

theorem Ok.makeRoom (h : Ok x s) (e : makeRoom s = some t) : Ok x t := by
  simp only [Machine.makeRoom] at e
  repeat' split at e
  all_goals simp at e
  all_goals subst e; exact h

theorem Ok.requestLabel (h : Ok x s) : Ok x (requestLabel s).2 := by
  simp only [Machine.requestLabel]
  split
  · exact h
  · split <;> rename_i e
    · exact h.request_none e
    · have h1 := h.request_some e
      simp only
      split
      · apply Ok.appendPackets
        rw [bagOf_one]
        exact h1
      · exact Ok.release (o := .labelReply) (by exact h1)

theorem Ok.retryLabels (n : Nat) (h : Ok x s) : Ok x (retryLabels n s) := by
  induction n generalizing s with
  | zero => exact h
  | succ n ih =>
    have h1 := h.requestLabel
    simp only [Machine.retryLabels]
    split
    · exact h
    · split <;> rename_i e <;> rw [e] at h1
      · exact ih h1
      · exact h1

/-! ### Takes (R165 to R169) -/

theorem Ok.setReservation (h : Ok x s) (l : Link) (r : Option Reservation) : Ok x (setReservation l r s) := by
  have h1 : Ok x (s.onSched l fun h => { h with reservation := r }) := h.onSched l _ rfl
  simp only [Machine.setReservation]
  split
  · exact h1.oweAll
  · exact h1

theorem takeFirst_perm {f : Packet → Bool} {ps rest : List Packet} {p : Packet} (h : takeFirst f ps = some (p, rest)) :
    ps.Perm (p :: rest) := by
  induction ps generalizing rest with
  | nil => simp [takeFirst] at h
  | cons a ps ih =>
    simp only [takeFirst] at h
    split at h
    · simp only [Option.some.injEq, Prod.mk.injEq] at h
      rw [h.1, h.2]
    · simp only [Option.map_eq_some_iff, Prod.mk.injEq] at h
      obtain ⟨⟨q, r⟩, h1, h2, h3⟩ := h
      simp only at h2 h3
      subst h2 h3
      exact ((ih h1).cons a).trans (List.Perm.swap _ _ _)

theorem candidate_perm {l : Link} {c : QueueClass} {p : Packet} {rest : List Packet} (h : candidate s l = some (c, p, rest)) :
    (s.pkp.queue c).Perm (p :: rest) := by
  simp only [candidate] at h
  obtain ⟨d, -, hd⟩ := List.exists_of_findSome?_eq_some h
  split at hd
  · simp only [Option.map_eq_some_iff, Prod.mk.injEq] at hd
    obtain ⟨⟨q, r⟩, h1, h2, h3, h4⟩ := hd
    simp only at h3 h4
    subst h2 h3 h4
    exact takeFirst_perm h1
  · simp at hd

theorem Pool.bag_perm (k : Pool) (c : QueueClass) {p : Packet} {rest : List Packet} (h : (k.queue c).Perm (p :: rest)) :
    k.bag = {p.holding} + (k.setQueue c rest).bag := by
  have e := bagOf_perm h
  rw [bagOf_cons] at e
  cases c <;> simp only [Pool.queue] at e <;> simp only [Pool.bag, Pool.setQueue, bagOf_append, e] <;> abel

/-- A packet leaves its queue and is held outside. -/
theorem Ok.unqueue {c : QueueClass} {p : Packet} {rest : List Packet} (h : Ok x s) (hp : (s.pkp.queue c).Perm (p :: rest)) :
    Ok ({p.holding} + x) (s.onPool fun k => k.setQueue c rest) := by
  obtain ⟨a, b, c', d⟩ := h
  refine ⟨?_, b, c', d⟩
  rw [Pool.bag_perm _ _ hp] at a
  have e1 : (s.pkp.setQueue c rest).free = s.pkp.free := by cases c <;> rfl
  have e2 : (s.pkp.setQueue c rest).owners = s.pkp.owners := by cases c <;> rfl
  show Books (s.pkp.setQueue c rest).free (s.pkp.setQueue c rest).owners ({p.holding} + x + ((s.pkp.setQueue c rest).bag + _))
  rw [e1, e2]
  convert a using 1; abel

theorem Ok.dropLate {l : Link} {c : QueueClass} {p : Packet} {rest : List Packet} (h : Ok x s) (hp : (s.pkp.queue c).Perm (p :: rest)) :
    Ok x (dropLate l c p rest s) := by
  simp only [Machine.dropLate]
  apply Ok.setReservation
  have h1 : Ok x (s.onPool fun k => (k.setQueue c rest).releasePacket p) := (h.unqueue hp).releasePacket
  have h2 : Ok x (Machine.raiseFlag .lateDrop ((s.onPool fun k => (k.setQueue c rest).releasePacket p).onSched l fun h =>
      { h with lateDrops := satInc h.lateDrops })) := (h1.onSched l _ rfl).raiseFlag _
  split
  · split
    · exact h2.refreshCause _
    · exact h2
  · exact h2

theorem carries_working {st : LinkState} (h : st.carries = true) : st ≠ .down ∧ st ≠ .held := by
  cases st <;> simp_all [LinkState.carries]

theorem Ok.takePacket {l : Link} {c : QueueClass} {p : Packet} {rest : List Packet} (h : Ok x s) (hp : (s.pkp.queue c).Perm (p :: rest))
    (hc : canTake s l = true) : Ok x (takePacket l c p rest s) := by
  simp only [Machine.takePacket]
  apply Ok.setReservation
  have h1 := h.unqueue hp
  simp only [canTake, Bool.and_eq_true, Option.isNone_iff_eq_none, decide_eq_true_eq, link, sched, Config.inFlightMax] at hc
  obtain ⟨⟨hc1, hc2⟩, hc3⟩ := hc
  have hw := carries_working hc1
  have hl := h.2.1 l
  refine Ok.setSched h1 ?_ ?_
  · show {p.holding} + x + (s.hsc.links.get l).bag = _
    simp [LinkSched.bag, hc2]
  · constructor
    · intro h3; rcases h3 with h3 | h3
      · exact absurd h3 hw.1
      · exact absurd h3 hw.2
    · exact hl.size
    · exact hl.entries
    · exact hl.next
    · intro v hv
      simp only [Option.some.injEq] at hv
      subst hv
      exact ⟨rfl, rfl, of_decide_eq_true hc3⟩

theorem Ok.attempt (fuel : Nat) (l : Link) (h : Ok x s) : Ok x (attempt fuel l s) := by
  induction fuel generalizing s with
  | zero => exact h
  | succ k ih =>
    simp only [Machine.attempt]
    split
    · rename_i hc
      split
      · exact h
      · rename_i c p rest e
        have hp := candidate_perm e
        split
        · exact ih (h.dropLate hp)
        · split
          · exact h.takePacket hp hc
          · exact h
    · exact h

theorem Ok.attemptOwed (h : Ok x s) (l : Link) : Ok x (attemptOwed l s) := by
  simp only [Machine.attemptOwed]
  split
  · exact Ok.attempt _ _ (h.onSched l _ rfl)
  · exact h

theorem Ok.settle (fuel : Nat) (h : Ok x s) : Ok x (settle fuel s) := by
  induction fuel generalizing s with
  | zero => exact h.onHsc _ (by intro l; simp [LinkSched.lane])
  | succ k ih =>
    simp only [Machine.settle]
    split
    · exact ih (Ok.foldl (fun s l h => h.attemptOwed l) _ h)
    · exact h

theorem Ok.settleTakes (h : Ok x s) : Ok x (settleTakes s) := Ok.settle 8 h

theorem Ok.creditBlock (h : Ok x s) : Ok x (creditBlock s) := by
  apply Ok.oweAll
  refine h.onHsc _ ?_
  intro l
  simp only [Table.get_ofFn, gainCredit]
  split <;> rfl

/-! ### Probes, withdrawal and epochs (R172 to R174) -/

theorem Ok.nothing {a : Option Owner} : Ok ({(a, [])} + x) s ↔ Ok x s := by
  simp only [Ok, add_assoc, Books.nothing]

theorem Ok.offerProbe (h : Ok x s) (l : Link) (n : Nat) (hw : (link s l).state ≠ .down ∧ (link s l).state ≠ .held) :
    Ok x (offerProbe l n s) := by
  have hl := h.2.1 l
  simp only [link] at hw
  by_cases hc : ((s.hsc.links.get l).slot.isNone && decide ((s.hsc.links.get l).inFlight.length < Config.inFlightMax)) = true
  · refine Ok.setSched (Ok.nothing (a := none).mpr h) ?_ ?_
    · rw [if_pos hc]
      simp only [Bool.and_eq_true, Option.isNone_iff_eq_none] at hc
      simp [LinkSched.bag, hc.1, Packet.holding]
    · rw [if_pos hc]
      simp only [Bool.and_eq_true, Option.isNone_iff_eq_none] at hc
      constructor
      · intro h3; rcases h3 with h3 | h3
        · exact absurd h3 hw.1
        · exact absurd h3 hw.2
      · exact hl.size
      · exact hl.entries
      · exact hl.next
      · intro v hv
        simp only [Option.some.injEq] at hv
        subst hv
        exact ⟨rfl, rfl, of_decide_eq_true hc.2⟩
  · refine h.onSched l _ ?_
    rw [if_neg hc]

/-- A link's packets that are not probes hold all that the link holds. -/
theorem linkPackets_bag (k : LinkSched) (h : ∀ q ∈ k.bag, q.1 = none → q.2 = []) {y : Bag} (hy : Ok (k.bag + y) s) :
    Ok (bagOf (linkPackets k) + y) s := by
  have e1 : k.bag = bagOf (k.inFlight.map (·.packet) ++ (k.slot.map (·.packet)).toList) := by
    simp only [LinkSched.bag]
    cases k.slot <;> simp [add_comm]
  have e2 := bagOf_filter (fun p : Packet => p.kind != .probe) (k.inFlight.map (·.packet) ++ (k.slot.map (·.packet)).toList)
  rw [e1] at h hy
  rw [e2] at hy
  -- the probes hold nothing
  have key : ∀ (ps : List Packet) (z : Bag), (∀ p ∈ ps, p.kind = .probe ∧ p.blocks = []) → Ok (bagOf ps + z) s → Ok z s := by
    intro ps
    induction ps with
    | nil => intro z _ h; simpa using h
    | cons p ps ih =>
      intro z hp h
      have h1 := hp p (by simp)
      have e : p.holding = (none, []) := by simp [Packet.holding, h1.1, h1.2]
      rw [bagOf_cons, e, add_assoc] at h
      exact ih z (fun q hq => hp q (by simp [hq])) (Ok.nothing.mp h)
  refine key ((k.inFlight.map (·.packet) ++ (k.slot.map (·.packet)).toList).filter fun p => !(p.kind != .probe)) _ ?_ ?_
  · intro p hp
    rw [List.mem_filter] at hp
    have h1 : p.kind = .probe := by simpa using hp.2
    refine ⟨h1, ?_⟩
    have := h p.holding (by simp only [bagOf, Multiset.mem_coe]; exact List.mem_map.mpr ⟨p, hp.1, rfl⟩) (by simp [Packet.holding, h1])
    exact this
  · convert hy using 1
    simp only [linkPackets]; abel

theorem setReservation_hsc (l : Link) (r : Option Reservation) (s : State) (k : Link) :
    ((setReservation l r s).hsc.links.get k).lane = (s.hsc.links.get k).lane := by
  simp only [setReservation]
  have h1 : ((s.onSched l fun h => { h with reservation := r }).hsc.links.get k).lane = (s.hsc.links.get k).lane := by
    simp only [State.onSched_hsc, Table.get_modify]
    split
    · rename_i e; subst e; rfl
    · rfl
  split
  · rw [← h1]; simp [oweAll, LinkSched.lane, State.onHsc]
  · exact h1

theorem setReservation_lsu (l : Link) (r : Option Reservation) (s : State) : (setReservation l r s).lsu = s.lsu := by
  simp only [setReservation]
  split <;> rfl

theorem linkPackets_kinds (k : LinkSched) : ∀ p ∈ linkPackets k, p.kind ≠ .probe := by
  intro p hp
  simp only [linkPackets, List.mem_filter] at hp
  simpa using hp.2

theorem mem_links {q : Option Owner × List Nat} {u : Table 4 LinkSched} {l : Link} (h : q ∈ (u.get l).bag) : q ∈ linksBag u := by
  have key : ∀ i : Fin 4, i = 0 ∨ i = 1 ∨ i = 2 ∨ i = 3 := by decide
  rcases key l with rfl | rfl | rfl | rfl <;> simp [linksBag, h]

/-- A link's scheduling and its record change together. -/
theorem Ok.setBoth {y : Bag} {l : Link} {g : LinkSched → LinkSched} {f : LinkRecord → LinkRecord} (h : Ok x s)
    (hb : x + (s.hsc.links.get l).bag = y + (g (s.hsc.links.get l)).bag)
    (hl : LaneOk (f (s.lsu.get l)).state (g (s.hsc.links.get l))) : Ok y ((s.onSched l g).onLink l f) := by
  -- the lane of the idle record stands in while the record changes
  obtain ⟨a, b, c, d⟩ := h
  have e := linksBag_set s.hsc.links l (g (s.hsc.links.get l))
  refine ⟨?_, ?_, c, d⟩
  · have w : y + (s.pkp.bag + (linksBag (s.hsc.links.set l (g (s.hsc.links.get l))) + (bandBag s.cde.band + streamsBag s.sdp))) =
        x + (s.pkp.bag + (linksBag s.hsc.links + (bandBag s.cde.band + streamsBag s.sdp))) := by
      apply add_right_cancel (b := (s.hsc.links.get l).bag)
      calc _ = y + (s.pkp.bag + ((linksBag (s.hsc.links.set l (g (s.hsc.links.get l))) + (s.hsc.links.get l).bag) + (bandBag s.cde.band + streamsBag s.sdp))) := by abel
        _ = (y + (g (s.hsc.links.get l)).bag) + (s.pkp.bag + (linksBag s.hsc.links + (bandBag s.cde.band + streamsBag s.sdp))) := by rw [e]; abel
        _ = _ := by rw [← hb]; abel
    rw [← w] at a; exact a
  · intro k
    show LaneOk ((s.lsu.modify l f).get k).state ((s.hsc.links.set l (g (s.hsc.links.get l))).get k)
    by_cases hk : l = k
    · subst hk; simpa using hl
    · rw [Table.get_set_ne _ _ hk, Table.get_modify_ne _ _ hk]; exact b k

/-- The loss of a link: its record leaves the working states and its traffic is withdrawn. -/
theorem Ok.withdraw_to (h : Ok x s) (l : Link) (f : LinkRecord → LinkRecord)
    (hf : (f (link s l)).state = .down ∨ (f (link s l)).state = .held) : Ok x (withdraw l (s.onLink l f)) := by
  have h1 : Ok x (Machine.setReservation l none s) := h.setReservation l none
  have hlane := setReservation_hsc l none s l
  have hbag : ((Machine.setReservation l none s).hsc.links.get l).bag = (s.hsc.links.get l).bag := LinkSched.bag_lane hlane
  have hl := h.2.1 l
  have hown : ∀ q ∈ (s.hsc.links.get l).bag, q.1 = none → q.2 = [] := by
    intro q hq
    exact h.1.owned q (by simp [mem_links hq])
  have h2 : Ok ((s.hsc.links.get l).bag + x) (((Machine.setReservation l none s).onSched l fun h =>
      { h with slot := none, inFlight := [], credit := 0, carry := 0 }).onLink l f) := by
    refine Ok.setBoth h1 ?_ ?_
    · rw [hbag]; simp [LinkSched.bag]; abel
    · rw [setReservation_lsu]
      constructor
      · intro _; exact ⟨rfl, rfl⟩
      · simp
      · intro i e he; simp at he
      · intro a b
        rcases hf with hf | hf
        · exact absurd hf a
        · exact absurd hf b
      · intro v hv; simp at hv
  have h3 := linkPackets_bag _ hown h2
  have e : (Machine.setReservation l none (s.onLink l f)).onSched l (fun h => { h with slot := none, inFlight := [], credit := 0, carry := 0 }) =
      ((Machine.setReservation l none s).onSched l fun h => { h with slot := none, inFlight := [], credit := 0, carry := 0 }).onLink l f := by
    have e1 : Machine.setReservation l none (s.onLink l f) = (Machine.setReservation l none s).onLink l f := by
      have e0 : sched (s.onLink l f) l = sched s l := rfl
      simp only [Machine.setReservation, e0]
      split <;> rfl
    rw [e1]; rfl
  simp only [Machine.withdraw, e]
  split
  · rename_i he
    have : linkPackets (s.hsc.links.get l) = [] := by simpa [sched] using he
    rw [this] at h3
    simpa using h3
  · exact h3.reroute (linkPackets_kinds _)

/-- A new epoch of an idle link. -/
theorem Ok.newEpoch (h : Ok x s) (l : Link) (hi : (link s l).state = .down ∨ (link s l).state = .held) : Ok x (newEpoch l s) := by
  have hl := (h.2.1 l).idle hi
  refine Ok.setSched h ?_ ?_
  · rfl
  · constructor
    · intro _; exact hl
    · show (s.hsc.links.get l).inFlight.length ≤ 256
      rw [hl.2]; simp
    · intro i e he
      have : (s.hsc.links.get l).inFlight[i]? = some e := he
      rw [hl.2] at this; simp at this
    · intro a b
      rcases hi with hi | hi
      · exact absurd hi a
      · exact absurd hi b
    · intro v hv
      have : (s.hsc.links.get l).slot = some v := hv
      rw [hl.1] at this; simp at this

end Sys2Proof.Machine
end

