-- ==== Sys2Proof/Laws/LedgerLinks.lean ====
section
/-! SUPPORT. The Link Supervisor's work, handovers and acknowledgements keep the books of the pool and the links' in-flight
lists (Laws/Ledger): one lemma for each operation. -/

namespace Sys2Proof.Machine

variable {x : Bag} {s t : State}

/-! ### Updates of the parts that hold no blocks -/

theorem Ok.onPort (h : Ok x s) (p : Prog) (f : Port → Port) : Ok x (s.onPort p f) := h
theorem Ok.onPgc (h : Ok x s) (f : Controller → Controller) : Ok x (s.onPgc f) := h
theorem Ok.onProg (h : Ok x s) (p : Prog) (f : Programme → Programme) : Ok x (s.onProg p f) := h
theorem Ok.onLoop (h : Ok x s) (p : Prog) (f : CodingLoop → CodingLoop) : Ok x (s.onLoop p f) := h
theorem Ok.setEntry (h : Ok x s) (p : Prog) (e : Option Entry) : Ok x (s.setEntry p e) := h
theorem Ok.onRal (h : Ok x s) (f : Allocator → Allocator) : Ok x (s.onRal f) := h
theorem Ok.onRate (h : Ok x s) (p : Prog) (f : RateProg → RateProg) : Ok x (s.onRate p f) := h
theorem Ok.onSmx (h : Ok x s) (f : Mixer → Mixer) : Ok x (s.onSmx f) := h
theorem Ok.onTrigger (h : Ok x s) (i : Fin 4) (f : Trigger → Trigger) : Ok x (s.onTrigger i f) := h
theorem Ok.onInput (h : Ok x s) (k : Fin 32) (f : Input → Input) : Ok x (s.onInput k f) := h
theorem Ok.onCross (h : Ok x s) (k : Fin 32) (b : Fin 8) (f : CrossPoint → CrossPoint) : Ok x (s.onCross k b f) := h
theorem Ok.onBus (h : Ok x s) (b : Fin 8) (f : Bus → Bus) : Ok x (s.onBus b f) := h
theorem Ok.onClm (h : Ok x s) (f : ClipMarker → ClipMarker) : Ok x (s.onClm f) := h
theorem Ok.onTbu (h : Ok x s) (f : Timebase → Timebase) : Ok x (s.onTbu f) := h
theorem Ok.onSri (h : Ok x s) (f : Ring → Ring) : Ok x (s.onSri f) := h
theorem Ok.onCmu (h : Ok x s) (f : CommandUnit → CommandUnit) : Ok x (s.onCmu f) := h

/-! ### The Link Supervisor (R185 to R195) -/

theorem link_onLink (l : Link) (f : LinkRecord → LinkRecord) (s : State) : link (s.onLink l f) l = f (link s l) := by simp [link]
theorem link_raiseFlag (l : Link) (f : EventFlag) (s : State) : link (raiseFlag f s) l = link s l := by
  have := (calm_eq (raiseFlag_calm f s)).2.2.2.2.2.2.2.2.1
  simp [link, this]

theorem LaneOk.working {a b : LinkState} {k : LinkSched} (h : LaneOk a k) (ha : a ≠ .down ∧ a ≠ .held) (hb : b ≠ .down ∧ b ≠ .held) :
    LaneOk b k :=
  ⟨fun e => e.elim (fun e => absurd e hb.1) (fun e => absurd e hb.2), h.size, h.entries, fun _ _ => h.next ha.1 ha.2, h.slot⟩

/-- A link goes from one working state to another. -/
theorem Ok.works (h : Ok x s) (l : Link) (f : LinkRecord → LinkRecord) (ha : (link s l).state ≠ .down ∧ (link s l).state ≠ .held)
    (hb : (f (link s l)).state ≠ .down ∧ (f (link s l)).state ≠ .held) : Ok x (s.onLink l f) :=
  h.setLink l f ((h.2.1 l).working ha hb)

theorem Ok.holdLink (h : Ok x s) (l : Link) (c : FaultClass) (retry : Bool) : Ok x (holdLink l c retry s) := by
  simp only [Machine.holdLink]
  have h1 := h.withdraw_to l (fun r =>
    { r with
      state := .held
      retry := if retry then some (tickPlus s.tbu.tick r.settings.retryTime) else none
      proving := none
      degrading := Table.replicate 5 false
      recovery := none
      window := none }) (.inr rfl)
  split
  · exact h1.queueNotice _ _
  · exact h1

theorem Ok.degradeLink (h : Ok x s) (l : Link) (c : FaultClass) (hc : (link s l).state.carries = true) : Ok x (degradeLink l c s) := by
  simp only [Machine.degradeLink]
  have h1 := h.works l (fun r =>
    { r with
      state := .degraded
      degrading := (if r.state = .up then Table.replicate 5 false else r.degrading).set c.idx true
      recovery := some { tick := tickPlus s.tbu.tick Config.windowTicks } }) (carries_working hc) (by simp)
  split
  · exact h1.oweTake l
  · exact h1

theorem Ok.applyFault (h : Ok x s) (l : Link) (c : FaultClass) (code : Byte) : Ok x (applyFault l c code s) := by
  simp only [Machine.applyFault]
  have h1 : Ok x (s.onLink l (recordFault c s.tbu.tick code)) := h.onLink l _ rfl
  have h2 := h1.raiseFlag .linkFault
  have e : (link (Machine.raiseFlag .linkFault (s.onLink l (recordFault c s.tbu.tick code))) l).state = (link s l).state := by
    rw [link_raiseFlag, link_onLink]; rfl
  split
  · exact h1
  · split
    · exact h
    · split
      · exact h2.holdLink ..
      · exact h2.holdLink ..
      · split
        · rename_i hc
          exact h2.degradeLink l c (by rw [e]; exact hc)
        · exact h2
      · exact h2

theorem Ok.giveProbe (h : Ok x s) (l : Link) (hw : (link s l).state ≠ .down ∧ (link s l).state ≠ .held) : Ok x (giveProbe l s) := by
  simp only [Machine.giveProbe]
  split
  · exact h
  · refine Ok.offerProbe (h.onLink l _ rfl) l _ ?_
    rw [link_onLink]; exact hw

theorem Ok.enterProving (h : Ok x s) (l : Link) (cmd : Option OpenCommand) (hi : (link s l).state = .down ∨ (link s l).state = .held) :
    Ok x (enterProving l cmd s) := by
  simp only [Machine.enterProving, Machine.newEpoch]
  have hl := (h.2.1 l).idle hi
  refine Ok.giveProbe (Ok.setBoth h rfl ?_) l ?_
  · constructor
    · intro e; simp at e
    · show (s.hsc.links.get l).inFlight.length ≤ 256
      rw [hl.2]; simp
    · intro i e he
      have : (s.hsc.links.get l).inFlight[i]? = some e := he
      rw [hl.2] at this; simp at this
    · intro _ _
      show (0 : Seq) = 65535 + 1 + BitVec.ofNat 16 (s.hsc.links.get l).inFlight.length
      rw [hl.2]; rfl
    · intro v hv
      have : (s.hsc.links.get l).slot = some v := hv
      rw [hl.1] at this; simp at this
  · rw [link_onLink]; simp

theorem Ok.enterUp (h : Ok x s) (l : Link) (hp : (link s l).state = .proving) : Ok x (enterUp l s) := by
  simp only [Machine.enterUp]
  have h1 := h.works l (fun r => { r with state := .up, proving := none, window := some { start := s.tbu.tick }, timedOut := none })
    (by simp [hp]) (by simp)
  apply Ok.oweTake
  apply Ok.queueNotice
  refine Ok.onLink ?_ l _ rfl
  repeat' split
  all_goals first | exact h1 | exact h1.applyFault .. | exact (h1.applyFault ..).applyFault ..

theorem Ok.judgeProving (h : Ok x s) (l : Link) : Ok x (judgeProving l s) := by
  simp only [Machine.judgeProving]
  split
  · split
    · rename_i hc
      exact h.enterUp l hc.1
    · exact h
  · exact h

theorem Ok.probeRetired (h : Ok x s) (l : Link) : Ok x (probeRetired l s) := by
  simp only [Machine.probeRetired]
  split
  · exact Ok.judgeProving (h.onLink l _ rfl) l
  · exact h

theorem Ok.buildProbe (h : Ok x s) (l : Link) (hp : (link s l).state = .proving) : Ok x (buildProbe l s) := by
  simp only [Machine.buildProbe]
  refine Ok.giveProbe (h.onLink l _ rfl) l ?_
  rw [link_onLink]; simp [hp]

theorem Ok.failProving (h : Ok x s) (l : Link) : Ok x (failProving l s) := by
  simp only [Machine.failProving]
  have h1 := h.applyFault l .proveFail (link s l).code
  split
  · exact Ok.queueNotice (h1.onLink l _ rfl) _ _
  · exact h1

theorem Ok.returnToUp (h : Ok x s) (l : Link) (hp : (link s l).state = .degraded) : Ok x (returnToUp l s) := by
  simp only [Machine.returnToUp]
  exact (h.works l (fun r => { r with state := .up, degrading := Table.replicate 5 false, recovery := none }) (by simp [hp])
    (by simp)).oweTake l

theorem Ok.expireRecovery (h : Ok x s) (l : Link) (hp : (link s l).state = .degraded) : Ok x (expireRecovery l s) := by
  simp only [Machine.expireRecovery]
  split
  · exact h.onLink l _ rfl
  · exact h.returnToUp l hp

theorem Ok.endWindow (h : Ok x s) (l : Link) : Ok x (endWindow l s) := by
  simp only [Machine.endWindow]
  split
  · exact h
  · split
    · exact (h.applyFault ..).onLink l _ rfl
    · exact h.onLink l _ rfl

theorem Ok.timeOutOldest (h : Ok x s) (l : Link) : Ok x (timeOutOldest l s) := by
  simp only [Machine.timeOutOldest]
  split
  · exact h
  · exact (h.onLink l _ rfl).applyFault ..

theorem Ok.takeCapacity (h : Ok x s) (l : Link) (cap : Nat) : Ok x (takeCapacity l cap s) := by
  simp only [Machine.takeCapacity]
  split
  · exact (h.onLink l _ rfl).applyFault ..
  · exact h.onLink l _ rfl

theorem Ok.takeFaultReport (h : Ok x s) (l : Link) (code : Byte) : Ok x (takeFaultReport l code s) := by
  simp only [Machine.takeFaultReport]
  have h1 : Ok x (s.onLink l fun r => { r with code := code }) := h.onLink l _ rfl
  split
  · split
    · rename_i hc
      exact h1.returnToUp l hc.1
    · exact h1
  · split
    · exact h1.applyFault ..
    · exact h1

theorem Ok.setCaps (h : Ok x s) (caps : Table 6 (Option Nat)) : Ok x (setCaps caps s) := by
  obtain ⟨a, b, c, d⟩ := h
  exact ⟨Books.owners (o := s.pkp.owners) a (by intro i; simp [Machine.setCaps]), b, c, d⟩

theorem Ok.ite {c : Prop} [Decidable c] (hs : Ok x s) (ht : Ok x t) : Ok x (if c then s else t) := by
  split
  · exact hs
  · exact ht

theorem Ok.applySettings (h : Ok x s) (l : Link) (v : LinkSettings) : Ok x (applySettings l v s) := by
  have h2 : Ok x ((s.onLink l fun r => { r with settings := v, capacity := effectiveCapacity r.reported v.share }).onSched l fun h =>
      { h with credit := min v.burst h.credit }) := (h.onLink l _ rfl).onSched l _ rfl
  have h3 := Ok.ite (c := v.kindPicture = true) h2 (h2.setReservation l none)
  have h4 := Ok.ite (c := (storedKinds v != storedKinds (link s l).settings || decide ((link s l).settings.burst < v.burst)) = true)
    (h3.oweTake l) h3
  exact Ok.ite ((h4.judgeProving l).timeOutOldest l) (h4.judgeProving l)

theorem Ok.linkSet (h : Ok x s) (f : LinkFields) : Ok x (linkSet f s).1 := by
  simp only [Machine.linkSet]
  repeat' split
  all_goals first | exact h | exact h.setCaps _ | exact (h.setCaps _).applySettings _ _

theorem Ok.linkUp (h : Ok x s) (m : Hdr) (n : Option Nat) : Ok x (linkUp m n s).1 := by
  simp only [Machine.linkUp]
  split
  · exact h
  · split
    · rename_i hc
      exact h.enterProving _ _ (.inl hc)
    · exact h

theorem Ok.takeDown (h : Ok x s) (l : Link) : Ok x (takeDown l s) := by
  simp only [Machine.takeDown]
  have h2 : Ok x (if (link s l).state = .down ∨ (link s l).state = .held then (s.onLink l fun r =>
      { r with
        state := .down
        proving := none
        retry := none
        degrading := Table.replicate 5 false
        recovery := none
        window := none
        openCommand := none }) else Machine.withdraw l (s.onLink l fun r =>
      { r with
        state := .down
        proving := none
        retry := none
        degrading := Table.replicate 5 false
        recovery := none
        window := none
        openCommand := none })) := by
    split
    · rename_i hi
      have hl := h.2.1 l
      refine h.setLink l _ ⟨fun _ => hl.idle hi, hl.size, hl.entries, fun a _ => absurd rfl a, hl.slot⟩
    · exact h.withdraw_to l _ (.inl rfl)
  split
  · exact h2.queueNotice _ _
  · exact h2

theorem Ok.linkDown (h : Ok x s) (n : Option Nat) : Ok x (linkDown n s).1 := by
  simp only [Machine.linkDown]
  split
  · exact h
  · exact h.takeDown _

theorem Ok.linkClear (h : Ok x s) (m : Hdr) (n : Option Nat) : Ok x (linkClear m n s).1 := by
  simp only [Machine.linkClear]
  split
  · exact h
  · split
    · rename_i hc
      exact h.enterProving _ _ (.inr hc)
    · exact h
    · exact h.onLink _ _ rfl

/-! ### Handovers and acknowledgements (R170, R175, R176) -/

theorem Ok.labelTaken (h : Ok x s) (n : Nat) : Ok x (labelTaken n s) := h
theorem Ok.labelRetired (h : Ok x s) (n : Nat) : Ok x (labelRetired n s) := by
  simp only [Machine.labelRetired]
  split
  · exact h
  · exact h

theorem Ok.tellLabel {f : Nat → State → State} (hf : ∀ n s, Ok x s → Ok x (f n s)) (h : Ok x s) (p : Packet) : Ok x (tellLabel f p s) := by
  simp only [Machine.tellLabel]
  split
  · exact hf _ _ h
  · exact h

theorem Ok.handOver {v : Slot} (h : Ok x s) (l : Link) (hv : (sched s l).slot = some v) : Ok x (handOver l v s) := by
  simp only [Machine.handOver]
  have hl := h.2.1 l
  simp only [sched] at hv
  have hs := hl.slot v hv
  have h1 : Ok x (s.onSched l (·.handOver s.tbu.tick v)) := by
    refine Ok.setSched h ?_ ?_
    · simp only [LinkSched.bag, LinkSched.handOver, hv]
      simp only [Option.toList_none, Option.toList_some, List.map_nil, List.map_cons, List.nil_append, List.map_append, bagOf_append, bagOf_cons, bagOf_nil]; abel
    · constructor
      · intro e
        have := (hl.idle e).1
        rw [hv] at this; simp at this
      · simp only [LinkSched.handOver, List.length_append, List.length_singleton]
        exact hs.2.2
      · intro i e he
        simp only [LinkSched.handOver] at he ⊢
        rw [List.getElem?_append] at he
        split at he
        · exact hl.entries i e he
        · rename_i hi
          have hi2 : i - (s.hsc.links.get l).inFlight.length = 0 := by
            by_contra hne
            obtain ⟨m, hm⟩ := Nat.exists_eq_succ_of_ne_zero hne
            rw [hm] at he; simp at he
          rw [hi2] at he
          simp only [List.getElem?_cons_zero, Option.some.injEq] at he
          subst he
          have hi3 : i = (s.hsc.links.get l).inFlight.length := by omega
          subst hi3
          rw [hs.2.1]
          exact hl.next (fun e => by rw [(hl.idle (.inl e)).1] at hv; simp at hv) (fun e => by rw [(hl.idle (.inr e)).1] at hv; simp at hv)
      · intro a b
        simp only [LinkSched.handOver, List.length_append, List.length_singleton]
        rw [hl.next a b]
        simp [BitVec.ofNat_add, BitVec.add_assoc]
      · intro u hu
        simp [LinkSched.handOver] at hu
  apply Ok.oweTake
  refine Ok.tellLabel (fun n s h => h.labelTaken n) (Ok.onLink h1 l _ ?_) _
  simp only [windowHanded]; split <;> rfl

theorem Ok.takenReport (h : Ok x s) (l : Link) (epoch : Epoch) (seq : Seq) : Ok x (takenReport l epoch seq s) := by
  simp only [Machine.takenReport]
  split
  · rename_i v hv
    split
    · exact h.handOver l hv
    · exact h.onSched l _ rfl
  · exact h.onSched l _ rfl

theorem Ok.retireEntry {e : InFlight} (h : Ok ({e.packet.holding} + x) s) (l : Link) : Ok x (retireEntry l e s) := by
  simp only [Machine.retireEntry]
  have h2 : Ok x (Machine.tellLabel Machine.labelRetired e.packet (s.onPool fun k => k.releasePacket e.packet)) :=
    Ok.tellLabel (fun n s h => h.labelRetired n) h.releasePacket _
  have h3 := h2.onLink l (windowRetired e.packet) (by simp only [windowRetired]; split <;> rfl)
  split
  · exact h3.probeRetired l
  · exact h3

theorem Ok.retireEntries {es : List InFlight} (l : Link) (h : Ok (bagOf (es.map (·.packet)) + x) s) :
    Ok x (es.foldl (fun s e => Machine.retireEntry l e s) s) := by
  induction es generalizing s with
  | nil => simpa using h
  | cons e es ih =>
    simp only [List.map_cons, bagOf_cons, add_assoc] at h
    exact ih (h.retireEntry l)

theorem Ok.retire (h : Ok x s) (l : Link) (k : Nat) (a : Seq) (hw : (link s l).state ≠ .down ∧ (link s l).state ≠ .held)
    (hk : k = (a - (sched s l).lastAck).toNat) (hm : k ≤ ((sched s l).nextSeq - 1 - (sched s l).lastAck).toNat) :
    Ok x (retire l k a s) := by
  simp only [Machine.retire]
  have hl := h.2.1 l
  simp only [link, sched] at hw hk hm
  have hn := hl.next hw.1 hw.2
  have hsz := hl.size
  have hlen : k ≤ (s.hsc.links.get l).inFlight.length := by
    have e : (s.hsc.links.get l).nextSeq - 1 - (s.hsc.links.get l).lastAck = BitVec.ofNat 16 (s.hsc.links.get l).inFlight.length := by
      rw [hn]; ring
    rw [e, BitVec.toNat_ofNat, Nat.mod_eq_of_lt (by omega)] at hm
    exact hm
  have ha : a = (s.hsc.links.get l).lastAck + BitVec.ofNat 16 k := by
    rw [hk, BitVec.ofNat_toNat]; simp
  have h1 : Ok (bagOf (((sched s l).inFlight.take k).map (·.packet)) + x) (s.onSched l fun h => { h with inFlight := h.inFlight.drop k, lastAck := a }) := by
    refine Ok.setSched h ?_ ?_
    · have e : (s.hsc.links.get l).inFlight.map (·.packet) = ((s.hsc.links.get l).inFlight.take k).map (·.packet) ++ ((s.hsc.links.get l).inFlight.drop k).map (·.packet) := by
        rw [← List.map_append, List.take_append_drop]
      simp only [LinkSched.bag, sched]
      rw [e]
      simp only [bagOf_append]; abel
    · constructor
      · intro e
        rcases e with e | e
        · exact absurd e hw.1
        · exact absurd e hw.2
      · simp only [List.length_drop]; omega
      · intro i e he
        simp only [List.getElem?_drop] at he
        rw [hl.entries _ _ he, ha]
        simp only [BitVec.ofNat_add]; ring
      · intro _ _
        simp only [List.length_drop]
        rw [hn, ha]
        have : (s.hsc.links.get l).inFlight.length = k + ((s.hsc.links.get l).inFlight.length - k) := by omega
        conv_lhs => rw [this]
        simp only [BitVec.ofNat_add]; ring
      · intro v hv
        obtain ⟨e1, e2, e3⟩ := hl.slot v hv
        refine ⟨e1, e2, ?_⟩
        simp only [List.length_drop]; omega
  exact Ok.ite ((h1.retireEntries l).oweTake l) (h1.retireEntries l)

theorem Ok.ignoreHome (h : Ok x s) : Ok x (ignoreHome s) := h.onHsc _ fun _ => rfl

theorem Ok.ackLink (h : Ok x s) (l : Link) (epoch : Epoch) (a : Seq) : Ok x (ackLink l epoch a s) := by
  simp only [Machine.ackLink]
  split
  · exact h.onSched l _ rfl
  · rename_i hc
    simp only [not_or] at hc
    split
    · exact h.onSched l _ rfl
    · rename_i e
      refine h.retire l _ a ⟨hc.1, hc.2.1⟩ rfl ?_
      simp only [ackCase] at e
      split at e
      · simp at e
      · split at e
        · simp at e
        · split at e
          · assumption
          · simp at e
    · exact Ok.raiseFlag (h.onSched l _ rfl) _

theorem Ok.ackPacket (h : Ok x s) (n : Byte) (epoch : Epoch) (a : Seq) : Ok x (ackPacket n epoch a s) := by
  simp only [Machine.ackPacket]
  split
  · exact h.ackLink ..
  · exact h.ignoreHome

theorem Ok.homeRefresh (h : Ok x s) (p : Prog) : Ok x (homeRefresh p s) := Ok.ite (h.onProg _ _) (h.refreshCause _)

theorem Ok.refreshReturn (h : Ok x s) (n : Byte) : Ok x (refreshReturn n s) := by
  simp only [Machine.refreshReturn]
  split
  · exact h.homeRefresh _
  · exact h.ignoreHome

theorem Ok.modemReport (h : Ok x s) (l : Link) (r : ModemReport) : Ok x (modemReport l r s) := by
  simp only [Machine.modemReport]
  split
  · exact h.takeCapacity ..
  · exact h.takeFaultReport ..
  · exact h.takenReport ..
  · exact h.ignoreHome

end Sys2Proof.Machine
end

