-- ==== Sys2Proof/Laws/LedgerMedia.lean ====
section
/-! SUPPORT. The Coding Engine, the home sound streams and the resets keep the books of the pool and the links' in-flight
lists (Laws/Ledger): one lemma for each operation that holds, moves or frees blocks. -/

namespace Sys2Proof.Machine

variable {x : Bag} {s t : State}

/-! ### The Coding Engine (R41 to R59) -/

theorem bandBag_none : bandBag none = 0 := rfl
theorem bandBag_some (b : Band) :
    bandBag (some b) = (b.frags.map fun f => (some (.prog b.prog), f) : List (Option Owner × List Nat)) := rfl

/-- The fragments of a band that has left the coder are released. -/
theorem Ok.releaseFrags {p : Prog} {fs : List (List Nat)}
    (h : Ok (((fs.map fun f => (some (.prog p), f) : List (Option Owner × List Nat)) : Bag) + x) s) :
    Ok x (fs.foldl (fun s bs => releaseBlocks (.prog p) bs s) s) := by
  induction fs generalizing s with
  | nil => simpa using h
  | cons f fs ih =>
    simp only [List.map_cons, ← Multiset.cons_coe, ← Multiset.singleton_add, add_assoc] at h
    exact ih h.release

theorem releaseFrags_setBand (p : Prog) (fs : List (List Nat)) (b : Option Band) (s : State) :
    (fs.foldl (fun s bs => releaseBlocks (.prog p) bs s) s).setBand b =
    fs.foldl (fun s bs => releaseBlocks (.prog p) bs s) (s.setBand b) := by
  induction fs generalizing s with
  | nil => rfl
  | cons f fs ih => exact ih _

theorem releaseFrags_cde (p : Prog) (fs : List (List Nat)) (s : State) :
    (fs.foldl (fun s bs => releaseBlocks (.prog p) bs s) s).cde = s.cde := by
  induction fs generalizing s with
  | nil => rfl
  | cons f fs ih => exact ih _

theorem Ok.loseBand {b : Band} (h : Ok x s) (hb : s.cde.band = some b) : Ok x (loseBand b s) := by
  simp only [Machine.loseBand, releaseFrags_setBand]
  apply Ok.refreshCause
  apply Ok.releaseFrags
  refine h.setBand ?_ ⟨fun c hc _ => ?_⟩
  · rw [hb, bandBag_some, bandBag_some]
    simp; abel
  · simp only [Option.some.injEq] at hc
    rw [← hc]

theorem request_cde {o : Owner} {n : Nat} {r : Option (List Nat)} (hr : request o n s = (r, t)) : t.cde = s.cde := by
  have := request_calm o n s
  rw [hr] at this
  exact (calm_eq this).2.2.2.1

theorem request_sdp {o : Owner} {n : Nat} {r : Option (List Nat)} (hr : request o n s = (r, t)) : t.sdp = s.sdp := by
  have := request_calm o n s
  rw [hr] at this
  exact (calm_eq this).2.2.2.2.2.2.1

theorem Ok.closeFragment (h : Ok x s) (n : Nat) : Ok x (closeFragment n s) := by
  simp only [Machine.closeFragment]
  split
  · exact h
  · rename_i b hb
    split
    · exact h
    · rename_i hn
      simp only [Bool.or_eq_true, not_or, Bool.not_eq_true] at hn
      split
      · exact h.loseBand hb
      · split <;> rename_i e
        · have h1 := h.request_some e
          have hc := request_cde e
          refine Ok.setBand h1 ?_ ⟨fun c hc2 hl => ?_⟩
          · rw [hc, hb, bandBag_some, bandBag_some]
            simp only [List.map_append, List.map_cons, List.map_nil, ← Multiset.coe_add, Multiset.coe_singleton]
            abel
          · simp only [Option.some.injEq] at hc2
            rw [← hc2] at hl
            simp only at hl
            rw [hn.2] at hl; simp at hl
        · exact (h.request_none e).loseBand (by rw [request_cde e]; exact hb)

/-- What closing fragments leaves in the coder: the band is lost, or it has one fragment more for each. -/
structure Closed (b : Band) (n : Nat) (s : State) : Prop where
  still : ∃ c, s.cde.band = some c ∧ c.prog = b.prog ∧ c.discard = b.discard ∧ (c.lost = false → b.lost = false ∧ c.frags.length = b.frags.length + n)

theorem loseBand_band (b : Band) (s : State) : (loseBand b s).cde.band = some { b with frags := [], lost := true } := by
  simp only [loseBand]; rfl

theorem Closed.close {b : Band} {n : Nat} (h : Closed b n s) (hd : b.discard = false) (k : Nat) : Closed b (n + 1) (closeFragment k s) := by
  obtain ⟨c, hc, hp, hdc, hl⟩ := h.still
  simp only [closeFragment, hc]
  split
  · rename_i hx
    refine ⟨c, hc, hp, hdc, fun e => ?_⟩
    rw [hdc, hd, e] at hx; simp at hx
  · rename_i hx
    simp only [Bool.or_eq_true, not_or, Bool.not_eq_true] at hx
    split
    · exact ⟨_, loseBand_band c s, hp, hdc, fun e => by simp at e⟩
    · split
      · rename_i bs s1 e
        refine ⟨_, rfl, hp, hdc, fun _ => ⟨(hl hx.2).1, ?_⟩⟩
        simp [(hl hx.2).2]; omega
      · rename_i s1 e
        exact ⟨_, loseBand_band c s1, hp, hdc, fun e => by simp at e⟩

theorem Ok.closeAll (h : Ok x s) {b : Band} {n : Nat} (hb : Closed b n s) (hd : b.discard = false) (pieces : List (List Byte)) (g : List Byte → Nat) :
    Ok x (pieces.foldl (fun s f => Machine.closeFragment (g f) s) s) ∧ Closed b (n + pieces.length) (pieces.foldl (fun s f => Machine.closeFragment (g f) s) s) := by
  induction pieces generalizing s n with
  | nil => exact ⟨h, hb⟩
  | cons f fs ih =>
    have := ih (h.closeFragment (g f)) (hb.close hd (g f))
    refine ⟨this.1, ?_⟩
    have e : n + (f :: fs).length = n + 1 + fs.length := by simp; omega
    rw [e]; exact this.2

theorem Ok.endStop (h : Ok x s) (p : Prog) (mode : StopMode) (pic : Pic) : Ok x (endStop p mode pic s) := by
  simp only [Machine.endStop]
  split
  · exact Ok.queueNotice (h.onProg p _) _ _
  · exact h.onProg p _

theorem Ok.pictureReported (h : Ok x s) (p : Prog) (bits : Nat) : Ok x (pictureReported p bits s) :=
  Ok.ite (Ok.raiseFlag ((h.onRate p _).onProg p _) _) (h.onRate p _)

theorem Ok.completePicture (h : Ok x s) (p : Prog) (e : Entry) : Ok x (completePicture p e s) :=
  Ok.ite ((((h.setEntry p _).onLoop p _).pictureReported p _).endStop p _ _) (((h.setEntry p _).onLoop p _).pictureReported p _)

theorem Ok.emitHeader (h : Ok x s) (p : Prog) (pic : Pic) (tick : Tick) (band : Nat) (header : List Byte) :
    Ok x (emitHeader p pic tick band header s) := by
  simp only [Machine.emitHeader]
  split <;> rename_i e
  · apply Ok.appendPackets
    rw [bagOf_one]
    exact h.request_some e
  · exact (h.request_none e).refreshCause p

theorem Ok.countGroup (h : Ok x s) (p : Prog) : Ok x (countGroup p s) := h.onLoop p _

theorem Ok.emitSkip (h : Ok x s) (p : Prog) (c : CodeStart) : Ok x (emitSkip p c s) :=
  ((h.countGroup p).emitHeader ..).pictureReported ..

theorem Ok.startBand (h : Ok x s) : Ok x (startBand s) := by
  simp only [Machine.startBand]
  split
  · exact h
  · rename_i hn
    split
    · exact h
    · split
      · exact h
      · rename_i p _ _ e _
        have hn2 : s.cde.band = none := by simpa using hn
        have h1 : Ok x ((s.setEntry p (some { e with started := e.started + 1 })).setBand (some
          { prog := p, pic := e.pic, band := e.started + 1, quant := e.codingQ,
            tiles := bandTiles (formatOf s p).width e.method })) := by
          refine Ok.setBand (h.setEntry p _) ?_ ⟨fun c hc _ => ?_⟩
          · show x + bandBag s.cde.band = _
            rw [hn2]; rfl
          · simp only [Option.some.injEq] at hc
            rw [← hc]
        exact h1.same rfl rfl rfl rfl rfl

theorem Ok.shedPicture (h : Ok x s) (p : Prog) (e : Entry) : Ok x (shedPicture p e s) :=
  Ok.ite (((Ok.foldl (fun s k h => h.emitHeader ..) _ h).completePicture p e).refreshCause p)
    ((Ok.foldl (fun s k h => h.emitHeader ..) _ h).completePicture p e)

theorem Ok.discardBand {b : Band} (h : Ok x s) (hb : s.cde.band = some b) : Ok x (discardBand b s) := by
  simp only [Machine.discardBand, releaseFrags_setBand]
  apply Ok.startBand
  apply Ok.releaseFrags
  refine h.setBand ?_ ⟨fun c hc _ => by simp at hc⟩
  rw [hb, bandBag_some, bandBag_none]
  abel

theorem chunks_length (k n : Nat) (l : List Byte) (h : n = 0 ∨ k * (n - 1) < l.length) : (chunks k n l).length = n := by
  induction n generalizing l with
  | zero => rfl
  | succ n ih =>
    rcases h with h | h
    · simp at h
    · cases l with
      | nil => simp at h
      | cons a l =>
        simp only [chunks, List.length_cons, Nat.add_right_cancel_iff]
        apply ih
        rcases Nat.eq_zero_or_pos n with hn | hn
        · exact .inl hn
        · right
          rw [List.length_drop]
          obtain ⟨m, rfl⟩ := Nat.exists_eq_succ_of_ne_zero (Nat.pos_iff_ne_zero.mp hn)
          simp only [Nat.succ_eq_add_one, Nat.add_sub_cancel, Nat.mul_add] at h ⊢
          omega

theorem slicePackets_bag (s : State) (p : Prog) (e : Entry) (band : Nat) (frags : List (List Nat)) (pieces : List (List Byte))
    (h : frags.length = pieces.length) :
    bagOf (slicePackets s p e band frags pieces) = (frags.map fun f => (some (.prog p), f) : List (Option Owner × List Nat)) := by
  simp only [bagOf, slicePackets]
  congr 1
  apply List.ext_getElem
  · simp [h]
  · intro i h1 h2
    simp [Packet.holding, picturePacket]

theorem Ok.completeBand {b : Band} (h : Ok x s) (hb : s.cde.band = some b) (e : Entry) (coded : List Byte) (hd : b.discard = false)
    (hf : b.lost = true ∨ Config.fragmentBytes * b.frags.length ≤ Config.sliceHeaderBytes + coded.length) :
    Ok x (completeBand b e coded s) := by
  simp only [Machine.completeBand]
  generalize hpieces : chunks Config.fragmentBytes (ceilDiv (Config.sliceHeaderBytes + coded.length) Config.fragmentBytes)
    (sliceHeader b.band e.bands e.type.code e.method b.quant 1 (Config.sliceHeaderBytes + coded.length) ++ coded) = pieces
  have hlen : pieces.length = ceilDiv (Config.sliceHeaderBytes + coded.length) Config.fragmentBytes := by
    rw [← hpieces]
    apply chunks_length
    right
    simp only [List.length_append, sliceHeader, List.length_cons, List.length_nil, ceilDiv, beBytes, Config.fragmentBytes, Config.sliceHeaderBytes]
    omega
  have h0 : Closed b 0 s := ⟨b, hb, rfl, rfl, fun e => ⟨e, rfl⟩⟩
  obtain ⟨h1, hc⟩ := h.closeAll h0 hd (pieces.drop b.frags.length) (fun f => blocksFor (Config.packetHeaderBytes + f.length))
  generalize hs1 : (pieces.drop b.frags.length).foldl (fun s f => Machine.closeFragment (blocksFor (Config.packetHeaderBytes + f.length)) s) s = s1 at *
  obtain ⟨c, hcb, hcp, hcd, hcl⟩ := hc.still
  simp only [hcb, Option.map_some, Option.getD_some]
  apply Ok.startBand
  -- the band leaves the coder, and its fragments are held outside until they are queued
  have h2 : ∀ e2, Ok ((c.frags.map fun f => (some (.prog b.prog), f) : List (Option Owner × List Nat)) + x) ((s1.setEntry b.prog (some e2)).setBand none) := by
    intro e2
    refine Ok.setBand (h1.setEntry b.prog _) ?_ ⟨fun c hc _ => by simp at hc⟩
    show x + bandBag s1.cde.band = _
    rw [hcb, bandBag_some, bandBag_none, hcp]; abel
  have h3 : ∀ (e2 : Entry) (k : Bool), Ok ((c.frags.map fun f => (some (.prog b.prog), f) : List (Option Owner × List Nat)) + x)
      (if k then Machine.raiseFlag .bandLimited ((s1.setEntry b.prog (some e2)).setBand none) else (s1.setEntry b.prog (some e2)).setBand none) :=
    fun e2 k => Ok.ite ((h2 e2).raiseFlag _) (h2 e2)
  have h4 : ∀ (e2 : Entry) (u : State), Ok ((c.frags.map fun f => (some (.prog b.prog), f) : List (Option Owner × List Nat)) + x) u →
      Ok x (if c.lost then u else Machine.appendPackets .picture (slicePackets u b.prog e2 b.band c.frags pieces) u) := by
    intro e2 u hu
    split
    · rename_i hl
      have := h1.2.2.1.lost c hcb hl
      rw [this] at hu; simpa using hu
    · rename_i hl
      have hl2 := hcl (by simpa using hl)
      apply Ok.appendPackets
      rw [slicePackets_bag]
      · exact hu
      · rw [hl2.2, List.length_drop]
        rcases hf with hf | hf
        · rw [hl2.1] at hf; simp at hf
        · have : b.frags.length ≤ pieces.length := by
            rw [hlen]
            simp only [ceilDiv, Config.fragmentBytes, Config.sliceHeaderBytes] at hf ⊢
            omega
          omega
  have h5 := fun e2 k => h4 e2 _ (h3 e2 k)
  refine Ok.ite ?_ (Ok.ite ?_ ?_)
  · exact (h5 _ _).shedPicture _ _
  · exact (h5 _ _).completePicture _ _
  · exact h5 _ _

theorem Ok.bandEnds (h : Ok x s) (coded : List Byte) : Ok x (bandEnds coded s) := by
  simp only [Machine.bandEnds]
  split
  · exact h
  · rename_i b hb
    split
    · exact h.discardBand hb
    · rename_i hd
      split
      · exact h.discardBand hb
      · split
        · exact h
        · rename_i hn
          refine h.completeBand hb _ coded (by simpa using hd) ?_
          by_cases hl : b.lost = true
          · exact .inl hl
          · right; simp_all

theorem Ok.markDiscard (h : Ok x s) (p : Prog) : Ok x (markDiscard p s) := by
  have h1 : Ok x (s.setBand (s.cde.band.map fun b => if b.prog = p then { b with discard := true } else b)) := by
    refine h.setBand ?_ ⟨fun c hc hl => ?_⟩
    · cases hb : s.cde.band with
      | none => rfl
      | some b =>
        simp only [Option.map_some]
        split <;> rfl
    · cases hb : s.cde.band with
      | none => rw [hb] at hc; simp at hc
      | some b =>
        rw [hb] at hc
        simp only [Option.map_some, Option.some.injEq] at hc
        have := h.2.2.1.lost b hb
        subst hc
        split at hl <;> split <;> simp_all
  exact h1

theorem Ok.overrun (h : Ok x s) (p : Prog) : Ok x (overrun p s) := by
  simp only [Machine.overrun]
  split
  · exact h
  · exact Ok.completePicture (Ok.raiseFlag (Ok.refreshCause (Ok.markDiscard (h.setEntry p _) p) p) _) p _

theorem Ok.dropPicture (h : Ok x s) (p : Prog) : Ok x (dropPicture p s) := by
  simp only [Machine.dropPicture]
  split
  · exact h
  · exact Ok.markDiscard ((h.setEntry p _).onLoop p _) p

/-! ### Sound streams (R110 to R118) -/

theorem Ok.retarget (h : Ok x s) (i : Fin 4) : Ok x (retarget i s) := h.onStream i _ rfl rfl

theorem Ok.retargetWhere (h : Ok x s) (w : SoundStream → Bool) : Ok x (retargetWhere w s) :=
  Ok.foldl (fun s i h => h.retarget i) _ h

theorem onStream_get (i : Fin 4) (f : SoundStream → SoundStream) (s : State) : (s.onStream i f).sdp.get i = f (s.sdp.get i) := by
  simp [State.onStream]

theorem Ok.streamArrival (h : Ok x s) (i : Fin 4) (m : BlockNo) (left right : SoundBlock) (he : (s.sdp.get i).enable = true) :
    Ok x (streamArrival i m left right s) := by
  have hst := h.2.2.2 i
  simp only [Machine.streamArrival]
  have h1 : Ok x (s.onStream i fun t => { t with
      lineL := writeLine (s.sdp.get i).lineL left, lineR := writeLine (s.sdp.get i).lineR right, current := slewed (s.sdp.get i) }) :=
    h.onStream i _ rfl rfl
  generalize hs1 : (s.onStream i fun t => { t with
      lineL := writeLine (s.sdp.get i).lineL left, lineR := writeLine (s.sdp.get i).lineR right, current := slewed (s.sdp.get i) }) = s1 at *
  have e1 : (s1.sdp.get i).enable = true := by rw [← hs1, onStream_get]; exact he
  have e2 : (s1.sdp.get i).assembly = (s.sdp.get i).assembly := by rw [← hs1, onStream_get]
  split
  · rename_i hn
    rw [hn] at e2
    split <;> rename_i e
    · have h2 := h1.request_some e
      have hs := request_sdp e
      refine Ok.setStream h2 ?_ ⟨fun hd => ?_, fun a p ha hp => ?_⟩
      · rw [hs]
        simp only [SoundStream.bag, e2, Option.bind_none, Option.toList_none, bagOf_nil, Option.bind_some, Option.toList_some, bagOf_one]
        rw [add_zero, add_comm]; rfl
      · simp only [hs] at hd
        rw [e1] at hd; simp at hd
      · simp only [Option.some.injEq] at ha
        subst ha
        simp only [Option.some.injEq] at hp
        subst hp
        exact ⟨rfl, rfl⟩
    · have h2 := h1.request_none e
      have hs := request_sdp e
      refine Ok.setStream h2 ?_ ⟨fun hd => ?_, fun a p ha hp => ?_⟩
      · rw [hs]
        simp only [SoundStream.bag, e2]
        simp
      · simp only [hs] at hd
        rw [e1] at hd; simp at hd
      · simp only [Option.some.injEq] at ha
        subst ha
        simp at hp
  · rename_i a ha
    rw [ha] at e2
    have hasm := hst.assembly a
    split
    · refine Ok.setStream h1 ?_ ⟨fun hd => ?_, fun b p hb hp => ?_⟩
      · simp only [SoundStream.bag, e2]
        simp only [Option.bind_some]
        congr 1
        cases a.packet <;> rfl
      · simp only at hd
        rw [e1] at hd; simp at hd
      · simp only [Option.some.injEq] at hb
        subst hb
        simp only [Option.map_eq_some_iff] at hp
        obtain ⟨p0, hp0, rfl⟩ := hp
        exact hasm p0 ha hp0
    · have hnone : ∀ f : SoundStream → SoundStream, (∀ u, (f u).assembly = none) → Ok (bagOf a.packet.toList + x) (s1.onStream i f) := by
        intro f hf
        refine Ok.setStream h1 ?_ ⟨fun _ => hf _, fun b p hb _ => ?_⟩
        · simp only [SoundStream.bag, e2, hf]
          simp; abel
        · rw [hf] at hb; simp at hb
      split
      · rename_i hp
        simp only [Option.map_eq_none_iff] at hp
        have := hnone (fun u => { u with assembly := none }) fun _ => rfl
        rw [hp] at this
        simpa using this
      · rename_i p hp
        apply Ok.appendPackets
        have := hnone (fun u => { u with assembly := none, packets := satInc u.packets }) fun _ => rfl
        simp only [Option.map_eq_some_iff] at hp
        obtain ⟨p0, hp0, rfl⟩ := hp
        rw [hp0] at this
        exact this

theorem Ok.streamsArrival (h : Ok x s) (m : BlockNo) (blocks : Table 8 SoundBlock) : Ok x (streamsArrival m blocks s) := by
  refine Ok.foldl (fun s i h => ?_) _ h
  simp only
  split
  · rename_i he
    exact h.streamArrival _ _ _ _ he
  · exact h

theorem Ok.disableStream (h : Ok x s) (i : Fin 4) : Ok x (disableStream i s) := by
  simp only [Machine.disableStream]
  have hst := h.2.2.2 i
  apply Ok.release
  have hoff : ∀ y : Bag, x + (s.sdp.get i).bag = y → Ok y (s.onStream i fun t => { t with
      enable := false, assembly := none, lineL := [], lineR := [] }) := fun y hy =>
    Ok.setStream h (by simp [SoundStream.bag, ← hy]) ⟨fun _ => rfl, fun a p ha _ => by simp at ha⟩
  cases ha : (s.sdp.get i).assembly with
  | none => exact Ok.nothing.mpr (hoff _ (by simp [SoundStream.bag, ha]))
  | some a =>
    cases hp : a.packet with
    | none => 
      simp only [Option.bind_some, hp, Option.map_none, Option.getD_none]
      exact Ok.nothing.mpr (hoff _ (by simp [SoundStream.bag, ha, hp]))
    | some p =>
      have := hst.assembly a p ha hp
      simp only [Option.bind_some, hp, Option.map_some, Option.getD_some]
      refine hoff _ ?_
      simp only [SoundStream.bag, ha, Option.bind_some, hp, Option.toList_some, bagOf_one, Packet.holding, this.1, this.2]
      simp [add_comm]

theorem Ok.enableStream (h : Ok x s) (i : Fin 4) (he : (s.sdp.get i).enable = false) : Ok x (enableStream i s) := by
  simp only [Machine.enableStream]
  have hst := (h.2.2.2 i).disabled he
  refine Ok.setStream h ?_ ⟨fun _ => rfl, fun a p ha _ => by simp at ha⟩
  simp [SoundStream.bag, hst]

theorem retarget_enable (i j : Fin 4) (s : State) : ((retarget i s).sdp.get j).enable = (s.sdp.get j).enable := by
  simp only [retarget, State.onStream, Table.get_modify]
  split
  · rename_i e; subst e; rfl
  · rfl

theorem Ok.soundStreamSet (h : Ok x s) (f : StreamFields) : Ok x (soundStreamSet f s).1 := by
  simp only [Machine.soundStreamSet]
  split
  · exact h
  · rename_i i _
    split
    · exact h
    · split
      · exact h
      · rename_i en left right width linked _
        have h1 : Ok x (s.onStream i fun t =>
          { t with
            left := left, right := right, width := width, linked := linked
            fixedDelay := (f.fixedDelay.map fun v => clampNat 0 96000 v).getD t.fixedDelay
            trim := (f.trim.map fun v => clampInt (-4800) 4800 v).getD t.trim
            allowance := (f.allowance.map fun v => clampNat 100 2000 v).getD t.allowance }) := h.onStream i _ rfl rfl
        have h2 := Ok.ite (c := (f.linked.isSome || f.fixedDelay.isSome || f.trim.isSome) = true) (h1.retarget i) h1
        split
        · rename_i he
          refine Ok.enableStream h2 i ?_
          have : (s.sdp.get i).enable = false := by simp at he; exact he.2
          split
          · rw [retarget_enable, onStream_get]; exact this
          · rw [onStream_get]; exact this
        · exact Ok.ite (h2.disableStream i) h2

/-! ### Power-on reset and the two RESETs (R162, R181, R198, R211, R212) -/

theorem fresh_books (k : Pool) (h : k.free = List.range Config.poolBlocks) (hc : ∀ o, (k.owners.get o).count = 0) :
    Books k.free k.owners 0 :=
  ⟨by simp [h], fun o => by simp [hc], by simp⟩

theorem Ok.fresh (hb : s.pkp.free = List.range Config.poolBlocks) (hc : ∀ o, (s.pkp.owners.get o).count = 0)
    (hq : s.pkp.reply = [] ∧ s.pkp.label = [] ∧ s.pkp.sound = [] ∧ s.pkp.picture = [])
    (hl : ∀ l, (s.hsc.links.get l).slot = none ∧ (s.hsc.links.get l).inFlight = [] ∧ (s.lsu.get l).state = .down)
    (hd : s.cde.band = none) (hs : ∀ i, (s.sdp.get i).assembly = none) : Ok 0 s := by
  refine ⟨?_, fun l => ⟨fun _ => ⟨(hl l).1, (hl l).2.1⟩, by rw [(hl l).2.1]; simp, fun i e he => ?_, fun a => absurd (hl l).2.2 a,
    fun v hv => ?_⟩, ⟨fun c hc => by rw [hd] at hc; simp at hc⟩, fun i => ⟨fun _ => hs i, fun a p ha => by rw [hs i] at ha; simp at ha⟩⟩
  · have e1 : s.pkp.bag = 0 := by simp [Pool.bag, hq]
    have e2 : linksBag s.hsc.links = 0 := by simp [linksBag, LinkSched.bag, hl]
    have e3 : streamsBag s.sdp = 0 := by simp [streamsBag, SoundStream.bag, hs]
    rw [e1, e2, e3, hd]
    simpa [bandBag_none] using fresh_books s.pkp hb hc
  · rw [(hl l).2.1] at he; simp at he
  · rw [(hl l).1] at hv; simp at hv

theorem Ok.reset : Ok 0 State.reset := by
  refine Ok.fresh (by simp only [State.reset]) ?_ ⟨rfl, rfl, rfl, rfl⟩ ?_ rfl ?_
  · decide
  · intro l; simp [State.reset]
  · intro i; simp [State.reset]

theorem Ok.resetMediaBlocks (home : List Msg) (s : State) : Ok 0 (resetMediaBlocks home s) := by
  refine Ok.fresh (by simp only [Machine.resetMediaBlocks, Pool.resetMedia]) ?_ ⟨rfl, rfl, rfl, rfl⟩ ?_ rfl ?_
  · intro o; simp [Machine.resetMediaBlocks, Pool.resetMedia]
  · intro l; simp [Machine.resetMediaBlocks, LinkSched.resetMedia, LinkRecord.resetMedia]
  · intro i; simp [Machine.resetMediaBlocks, SoundStream.resetMedia]

theorem Ok.resetBlocks (s : State) : Ok 0 (resetBlocks s) := Ok.reset

end Sys2Proof.Machine
end

