-- ==== Sys2Proof/Laws/LedgerUnits.lean ====
section
/-! SUPPORT. The operations of the other blocks, which hold no block of the pool themselves, keep its books and the links'
in-flight lists (Laws/Ledger): one lemma for each. -/

namespace Sys2Proof.Machine

variable {x : Bag} {s t : State}

theorem Ok.closeClip (h : Ok x s) (n : Nat) (e : Pic) : Ok x (Machine.closeClip n e s) := by
  simp only [Machine.closeClip]
  repeat' first
    | with_reducible assumption | with_reducible apply Ok.ite
    | with_reducible apply Ok.onClip | with_reducible apply Ok.onClm | with_reducible apply Ok.requestLabel

theorem Ok.runOut (h : Ok x s) (n : Nat) : Ok x (Machine.runOut n s) := by
  simp only [Machine.runOut]
  repeat' first
    | with_reducible assumption | with_reducible apply Ok.ite | with_reducible apply Ok.closeClip
    | with_reducible apply Ok.onClip | split

theorem Ok.closeIfResolved (h : Ok x s) (n : Nat) : Ok x (Machine.closeIfResolved n s) := by
  simp only [Machine.closeIfResolved]
  repeat' first
    | with_reducible assumption | with_reducible apply Ok.ite | with_reducible apply Ok.closeClip | split

theorem Ok.countPostRoll (h : Ok x s) : Ok x (Machine.countPostRoll s) := by
  simp only [Machine.countPostRoll]
  repeat' first
    | with_reducible assumption | with_reducible apply Ok.ite | (with_reducible apply Ok.foldl; intro _ _ _)
    | with_reducible apply Ok.runOut | with_reducible apply Ok.onClip

theorem Ok.startPostRoll (h : Ok x s) (n : Nat) : Ok x (Machine.startPostRoll n s) := by
  simp only [Machine.startPostRoll]
  repeat' first
    | with_reducible assumption | with_reducible apply Ok.ite | with_reducible apply Ok.onClip | with_reducible apply Ok.runOut

theorem Ok.markIn (h : Ok x s) (source : ClipSource) (cams : Table 4 Bool) (prio : Priority) (text : List Byte) :
    Ok x (Machine.markIn source cams prio text s).2 := by
  simp only [Machine.markIn]
  split
  · exact h
  · split
    · exact h.raiseFlag _
    · rename_i u e
      exact Ok.foldl (fun s k h => h.refreshCause _) _ (Ok.onClm (h.makeRoom e) _)

theorem Ok.markOut (h : Ok x s) {n : Nat} (e : Machine.markOut n s = some t) : Ok x t := by
  simp only [Machine.markOut, Option.bind_eq_some_iff] at e
  obtain ⟨c, -, e⟩ := e
  split at e <;> simp only [Option.some.injEq, reduceCtorEq] at e <;> subst e
  · exact h.startPostRoll n
  · exact h

theorem Ok.silentMarkOut (h : Ok x s) (n : Nat) : Ok x (Machine.silentMarkOut n s) := by
  simp only [Machine.silentMarkOut]
  cases e : Machine.markOut n s with
  | none => exact h
  | some t => exact h.markOut e

theorem Ok.anchorStarted (h : Ok x s) (p : Prog) (q : Pic) : Ok x (Machine.anchorStarted p q s) := by
  simp only [Machine.anchorStarted]
  repeat' first
    | with_reducible assumption | with_reducible apply Ok.ite | (with_reducible apply Ok.foldl; intro _ _ _)
    | with_reducible apply Ok.closeIfResolved | with_reducible apply Ok.onClip

theorem Ok.leavesRunning (h : Ok x s) (p : Prog) : Ok x (Machine.leavesRunning p s) := by
  simp only [Machine.leavesRunning]
  repeat' first
    | with_reducible assumption | with_reducible apply Ok.ite | (with_reducible apply Ok.foldl; intro _ _ _)
    | with_reducible apply Ok.queueNotice | with_reducible apply Ok.freeClip | with_reducible apply Ok.closeIfResolved
    | with_reducible apply Ok.onClip

theorem Ok.leaveAir (h : Ok x s) (p : Prog) : Ok x (Machine.leaveAir p s) := by
  simp only [Machine.leaveAir]
  repeat' first
    | with_reducible assumption | with_reducible apply Ok.silentMarkOut | with_reducible apply Ok.onClm | split

theorem Ok.enterAir (h : Ok x s) (p : Prog) : Ok x (Machine.enterAir p s) := by
  simp only [Machine.enterAir]
  have h1 := h.markIn .tally ((Table.replicate 4 false).set p true) s.clm.tallyPriority []
  split <;> rename_i e <;> rw [e] at h1 <;> exact h1.onClm _

theorem Ok.judgeTally (h : Ok x s) (onAir : Table 4 Bool) : Ok x (Machine.judgeTally onAir s) := by
  simp only [Machine.judgeTally]
  repeat' first
    | with_reducible assumption | with_reducible apply Ok.ite | (with_reducible apply Ok.foldl; intro _ _ _)
    | with_reducible apply Ok.leaveAir | with_reducible apply Ok.enterAir | with_reducible apply Ok.onClm

theorem Ok.markInFor (h : Ok x s) (desk : Option (Fin 8)) (source : ClipSource) (cams : Table 4 Bool) (prio : Priority)
    (text : List Byte) : Ok x (Machine.markInFor desk source cams prio text s).1 := by
  simp only [Machine.markInFor]
  have h1 := h.markIn source cams prio text
  split <;> rename_i e <;> rw [e] at h1
  · exact h1
  · split
    · exact h1.onClm _
    · exact h1

theorem Ok.clipMarkIn (h : Ok x s) (src : Src) (f : MarkFields) : Ok x (Machine.clipMarkIn src f s).1 := by
  simp only [Machine.clipMarkIn]
  repeat' first
    | with_reducible assumption | with_reducible apply Ok.ite | with_reducible apply Ok.markInFor | split

theorem Ok.markRecord (h : Ok x s) {src : Src} {f : MarkFields} {act : Clip → Option (State × Reply)}
    (ha : ∀ c r, act c = some r → Ok x r.1) : Ok x (Machine.markRecord src f act s).1 := by
  simp only [Machine.markRecord]
  split
  · split
    · exact h
    · rename_i e
      split
      · exact ha _ _ e
      · exact h
  · exact h

theorem Ok.clipMarkOut (h : Ok x s) (src : Src) (f : MarkFields) : Ok x (Machine.clipMarkOut src f s).1 := by
  refine h.markRecord fun c r e => ?_
  obtain ⟨s1, h1, rfl⟩ := Option.map_eq_some_iff.mp e
  exact h.markOut h1

theorem Ok.clipMarkExtend (h : Ok x s) (src : Src) (f : MarkFields) : Ok x (Machine.clipMarkExtend src f s).1 := by
  refine h.markRecord fun c r e => ?_
  split at e <;> simp only [Option.some.injEq, reduceCtorEq] at e <;> subst e
  · exact h.startPostRoll _
  · exact h

theorem Ok.clipMarkCancel (h : Ok x s) (src : Src) (f : MarkFields) : Ok x (Machine.clipMarkCancel src f s).1 := by
  refine h.markRecord fun c r e => ?_
  split at e <;> simp only [Option.some.injEq, reduceCtorEq] at e <;> subst e
  exact h.freeClip _

theorem Ok.clipMark (h : Ok x s) (src : Src) (action : Nat) (f : MarkFields) : Ok x (Machine.clipMark src action f s).1 := by
  simp only [Machine.clipMark]
  repeat' first
    | with_reducible assumption | with_reducible apply Ok.clipMarkIn | with_reducible apply Ok.clipMarkOut
    | with_reducible apply Ok.clipMarkExtend | with_reducible apply Ok.clipMarkCancel | split

theorem Ok.clipLabel (h : Ok x s) (src : Src) (ref : ClipRef) (text : Option (List Byte)) :
    Ok x (Machine.clipLabel src ref text s).1 := by
  simp only [Machine.clipLabel]
  repeat' first
    | with_reducible assumption | with_reducible apply Ok.ite | with_reducible apply Ok.onClip | split

theorem Ok.clipQuery (h : Ok x s) (src : Src) (ref : ClipRef) : Ok x (Machine.clipQuery src ref s).1 := by
  simp only [Machine.clipQuery]
  repeat' first
    | with_reducible assumption | with_reducible apply Ok.ite | split

theorem Ok.clipSettings (h : Ok x s) (f : ClipSettingsFields) : Ok x (Machine.clipSettings f s).1 := by
  simp only [Machine.clipSettings]
  repeat' first
    | with_reducible assumption | with_reducible apply Ok.ite | with_reducible apply Ok.onClm | split

theorem Ok.copyRecords (h : Ok x s) : Ok x (Machine.copyRecords s) := by
  simp only [Machine.copyRecords]
  repeat' first
    | with_reducible assumption | with_reducible apply Ok.onRal

theorem Ok.decideMethod (h : Ok x s) (p : Prog) (m : Method) : Ok x (Machine.decideMethod p m s) := by
  simp only [Machine.decideMethod]
  repeat' first
    | with_reducible assumption | with_reducible apply Ok.ite | with_reducible apply Ok.onRate | with_reducible apply Ok.onLoop
    | with_reducible apply Ok.raiseFlag | with_reducible apply Ok.refreshCause

theorem Ok.allocateProg (h : Ok x s) (figures : AllocFigures) (ticks : Nat) (p : Prog) :
    Ok x (Machine.allocateProg figures ticks p s) := by
  simp only [Machine.allocateProg]
  repeat' first
    | with_reducible assumption | with_reducible apply Ok.ite | with_reducible apply Ok.onRate
    | with_reducible apply Ok.decideMethod | with_reducible apply Ok.onLoop | split

theorem Ok.allocation (h : Ok x s) (ticks : Nat) : Ok x (Machine.allocation ticks s) := by
  simp only [Machine.allocation]
  repeat' first
    | with_reducible assumption | with_reducible apply Ok.ite | (with_reducible apply Ok.foldl; intro _ _ _)
    | with_reducible apply Ok.copyRecords | with_reducible apply Ok.onRal | with_reducible apply Ok.raiseFlag
    | with_reducible apply Ok.allocateProg

theorem Ok.rateRunning (h : Ok x s) (p : Prog) : Ok x (Machine.rateRunning p s) := by
  simp only [Machine.rateRunning]
  repeat' first
    | with_reducible assumption | with_reducible apply Ok.onRate

theorem Ok.setPoolFields (h : Ok x s) (f : RateFields) : Ok x (Machine.setPoolFields f s) := by
  simp only [Machine.setPoolFields]
  repeat' first
    | with_reducible assumption | with_reducible apply Ok.onRal

theorem Ok.rateSet (h : Ok x s) (f : RateFields) : Ok x (Machine.rateSet f s).1 := by
  simp only [Machine.rateSet]
  repeat' first
    | with_reducible assumption | with_reducible apply Ok.ite | with_reducible apply Ok.setPoolFields
    | with_reducible apply Ok.onRate | split

theorem Ok.takeFrom (h : Ok x s) (counts : Bool) (p : Prog) : Ok x (Machine.takeFrom counts p s) := by
  simp only [Machine.takeFrom]
  repeat' first
    | with_reducible assumption | with_reducible apply Ok.ite | with_reducible apply Ok.onPort
    | with_reducible apply Ok.raiseFlag

theorem Ok.takePicture (h : Ok x s) (p : Prog) (wasRunning : Bool) : Ok x (Machine.takePicture p wasRunning s).2 := by
  simp only [Machine.takePicture]
  repeat' first
    | with_reducible assumption | with_reducible apply Ok.ite | (with_reducible apply Ok.foldl; intro _ _ _)
    | with_reducible apply Ok.takeFrom | split

theorem Ok.judgeInput (h : Ok x s) (p : Prog) (taken : Bool) : Ok x (Machine.judgeInput p taken s) := by
  simp only [Machine.judgeInput]
  repeat' first
    | with_reducible assumption | with_reducible apply Ok.ite | with_reducible apply Ok.onProg
    | with_reducible apply Ok.raiseFlag

theorem Ok.beginPicture (h : Ok x s) (p : Prog) (type : PicType) (target : Nat) (c : CodeStart) :
    Ok x (Machine.beginPicture p type target c s) := by
  simp only [Machine.beginPicture]
  repeat' first
    | with_reducible assumption | with_reducible apply Ok.setEntry | with_reducible apply Ok.onLoop
    | with_reducible apply Ok.anchorStarted | with_reducible apply Ok.onProg | split

theorem Ok.decidePicture (h : Ok x s) (p : Prog) (taken : Bool) (c : CodeStart) : Ok x (Machine.decidePicture p taken c s) := by
  simp only [Machine.decidePicture]
  repeat' first
    | with_reducible assumption | with_reducible apply Ok.ite | with_reducible apply Ok.emitSkip
    | with_reducible apply Ok.onProg | with_reducible apply Ok.beginPicture

theorem Ok.becomeRunning (h : Ok x s) (p : Prog) : Ok x (Machine.becomeRunning p s) := by
  simp only [Machine.becomeRunning]
  repeat' first
    | with_reducible assumption | with_reducible apply Ok.rateRunning | with_reducible apply Ok.onProg
    | with_reducible apply Ok.onLoop

theorem Ok.codeProgramme (h : Ok x s) (c : CodeStart) (p : Prog) : Ok x (Machine.codeProgramme c p s) := by
  simp only [Machine.codeProgramme]
  repeat' first
    | with_reducible assumption | with_reducible apply Ok.ite | with_reducible apply Ok.becomeRunning
    | with_reducible apply Ok.takePicture | with_reducible apply Ok.decidePicture | with_reducible apply Ok.judgeInput
    | with_reducible apply Ok.onProg | with_reducible apply Ok.queueNotice | split

theorem Ok.freezeHold (h : Ok x s) (c : CodeStart) (p : Prog) : Ok x (Machine.freezeHold c p s) := by
  simp only [Machine.freezeHold]
  repeat' first
    | with_reducible assumption | with_reducible apply Ok.ite | with_reducible apply Ok.emitSkip
    | with_reducible apply Ok.onProg | with_reducible apply Ok.endStop

theorem Ok.takeCodeStart (h : Ok x s) (c : CodeStart) : Ok x (Machine.takeCodeStart c s) := by
  simp only [Machine.takeCodeStart]
  repeat' first
    | with_reducible assumption | (with_reducible apply Ok.foldl; intro _ _ _) | with_reducible apply Ok.overrun
    | with_reducible apply Ok.freezeHold | with_reducible apply Ok.startBand | with_reducible apply Ok.codeProgramme

theorem Ok.pictureStarts (h : Ok x s) (p : Prog) : Ok x (Machine.pictureStarts p s) := by
  simp only [Machine.pictureStarts]
  repeat' first
    | with_reducible assumption | with_reducible apply Ok.onPort

theorem Ok.pictureBreaks (h : Ok x s) (p : Prog) : Ok x (Machine.pictureBreaks p s) := by
  simp only [Machine.pictureBreaks]
  repeat' first
    | with_reducible assumption | with_reducible apply Ok.onPort

theorem Ok.returnInput (h : Ok x s) (p : Prog) : Ok x (Machine.returnInput p s) := by
  simp only [Machine.returnInput]
  repeat' first
    | with_reducible assumption | with_reducible apply Ok.ite | with_reducible apply Ok.refreshCause
    | with_reducible apply Ok.onProg

theorem Ok.pictureCompletes (h : Ok x s) (p : Prog) : Ok x (Machine.pictureCompletes p s) := by
  simp only [Machine.pictureCompletes]
  repeat' first
    | with_reducible assumption | with_reducible apply Ok.ite | with_reducible apply Ok.onPort
    | with_reducible apply Ok.raiseFlag | with_reducible apply Ok.returnInput

theorem Ok.firstAllocated (h : Ok x s) : Ok x (Machine.firstAllocated s) := by
  simp only [Machine.firstAllocated]
  repeat' first
    | with_reducible assumption | with_reducible apply Ok.ite | with_reducible apply Ok.onPgc

theorem Ok.formatSet (h : Ok x s) (f : FormatFields) : Ok x (Machine.formatSet f s).1 := by
  simp only [Machine.formatSet]
  repeat' first
    | with_reducible assumption | with_reducible apply Ok.ite | with_reducible apply Ok.onPgc | split

theorem Ok.storeConfig (h : Ok x s) (p : Prog) (g : ProgConfig) : Ok x (Machine.storeConfig p g s) := by
  simp only [Machine.storeConfig]
  repeat' first
    | with_reducible assumption | with_reducible apply Ok.ite | with_reducible apply Ok.onProg | with_reducible apply Ok.onLoop
    | with_reducible apply Ok.retargetWhere

theorem Ok.formPair (h : Ok x s) (p : Prog) : Ok x (Machine.formPair p s) := by
  simp only [Machine.formPair]
  repeat' first
    | with_reducible assumption | with_reducible apply Ok.onProg | with_reducible apply Ok.retargetWhere
    | with_reducible apply Ok.flushPictures

theorem Ok.dissolvePair (h : Ok x s) (p : Prog) : Ok x (Machine.dissolvePair p s) := by
  simp only [Machine.dissolvePair]
  repeat' first
    | with_reducible assumption | with_reducible apply Ok.onProg | with_reducible apply Ok.retargetWhere

theorem Ok.programmeSet (h : Ok x s) (f : ProgFields) : Ok x (Machine.programmeSet f s).1 := by
  simp only [Machine.programmeSet]
  repeat' first
    | with_reducible assumption | with_reducible apply Ok.ite | with_reducible apply Ok.storeConfig
    | with_reducible apply Ok.formPair | with_reducible apply Ok.dissolvePair | split

theorem Ok.startProgramme (h : Ok x s) (m : Hdr) (p : Prog) : Ok x (Machine.startProgramme m p s) := by
  simp only [Machine.startProgramme]
  repeat' first
    | with_reducible assumption | with_reducible apply Ok.refreshCause | with_reducible apply Ok.onProg

theorem Ok.programmeStart (h : Ok x s) (m : Hdr) (n : Option Nat) : Ok x (Machine.programmeStart m n s).1 := by
  simp only [Machine.programmeStart]
  repeat' first
    | with_reducible assumption | with_reducible apply Ok.ite | with_reducible apply Ok.startProgramme | split

theorem Ok.tellLeaves (h : Ok x s) (was : ProgState) (p : Prog) : Ok x (Machine.tellLeaves was p s) := by
  simp only [Machine.tellLeaves]
  repeat' first
    | with_reducible assumption | with_reducible apply Ok.ite | with_reducible apply Ok.leavesRunning

theorem Ok.cutProgramme (h : Ok x s) (p : Prog) (flush : Bool) : Ok x (Machine.cutProgramme p flush s) := by
  simp only [Machine.cutProgramme]
  repeat' first
    | with_reducible assumption | with_reducible apply Ok.ite | with_reducible apply Ok.dropPicture
    | with_reducible apply Ok.flushPictures | with_reducible apply Ok.tellLeaves | with_reducible apply Ok.endStop

theorem Ok.programmeCut (h : Ok x s) (n : Option Nat) (flush : Bool) : Ok x (Machine.programmeCut n flush s).1 := by
  simp only [Machine.programmeCut]
  repeat' first
    | with_reducible assumption | with_reducible apply Ok.ite | with_reducible apply Ok.cutProgramme | split

theorem Ok.finishRunning (h : Ok x s) (m : Hdr) (p : Prog) : Ok x (Machine.finishRunning m p s).1 := by
  simp only [Machine.finishRunning]
  repeat' first
    | with_reducible assumption | with_reducible apply Ok.ite | with_reducible apply Ok.leavesRunning
    | with_reducible apply Ok.onProg | split

theorem Ok.gentleStop (h : Ok x s) (n : Option Nat) (flush : Bool) {run : Prog → State → State × Reply}
    (hr : ∀ p, Ok x (run p s).1) : Ok x (Machine.gentleStop n flush run s).1 := by
  simp only [Machine.gentleStop]
  repeat' split
  all_goals first | exact h | exact h.cutProgramme _ _ | exact hr _

theorem Ok.programmeFinish (h : Ok x s) (m : Hdr) (n : Option Nat) (flush : Bool) : Ok x (Machine.programmeFinish m n flush s).1 :=
  h.gentleStop n flush fun p => h.finishRunning m p

theorem Ok.freezeRunning (h : Ok x s) (m : Hdr) (p : Prog) : Ok x (Machine.freezeRunning m p s).1 := by
  simp only [Machine.freezeRunning]
  repeat' first
    | with_reducible assumption | with_reducible apply Ok.leavesRunning | with_reducible apply Ok.onProg

theorem Ok.programmeFreeze (h : Ok x s) (m : Hdr) (n : Option Nat) (flush : Bool) : Ok x (Machine.programmeFreeze m n flush s).1 :=
  h.gentleStop n flush fun p => h.freezeRunning m p

theorem Ok.programmeStop (h : Ok x s) (m : Hdr) (n : Option Nat) (mode : Nat) (flush : Bool) :
    Ok x (Machine.programmeStop m n mode flush s).1 := by
  simp only [Machine.programmeStop]
  repeat' first
    | with_reducible assumption | with_reducible apply Ok.ite | with_reducible apply Ok.programmeCut
    | with_reducible apply Ok.programmeFinish | with_reducible apply Ok.programmeFreeze | split

theorem Ok.refreshCommand (h : Ok x s) (n : Option Nat) : Ok x (Machine.refreshCommand n s).1 := by
  simp only [Machine.refreshCommand]
  repeat' first
    | with_reducible assumption | with_reducible apply Ok.refreshCause | split

theorem Ok.soundArrival (h : Ok x s) (k : Fin 32) (c : BlockNo) (samples : SoundBlock) :
    Ok x (Machine.soundArrival k c samples s) := by
  simp only [Machine.soundArrival]
  repeat' first
    | with_reducible assumption | with_reducible apply Ok.ite | with_reducible apply Ok.onInput
    | with_reducible apply Ok.raiseFlag | split

theorem Ok.recompute (h : Ok x s) (k : Fin 32) : Ok x (Machine.recompute k s) := by
  simp only [Machine.recompute]
  repeat' first
    | with_reducible assumption | with_reducible apply Ok.onSmx

theorem Ok.triggerMarkIn (h : Ok x s) (i : Fin 4) : Ok x (Machine.triggerMarkIn i s) := by
  simp only [Machine.triggerMarkIn]
  repeat' first
    | with_reducible assumption | with_reducible apply Ok.ite | with_reducible apply Ok.markIn
    | with_reducible apply Ok.onTrigger | with_reducible apply Ok.onSmx

theorem Ok.triggerMarkOut (h : Ok x s) (i : Fin 4) : Ok x (Machine.triggerMarkOut i s) := by
  simp only [Machine.triggerMarkOut]
  repeat' first
    | with_reducible assumption | with_reducible apply Ok.silentMarkOut | with_reducible apply Ok.onTrigger | split

theorem Ok.triggerOpens (h : Ok x s) (i : Fin 4) : Ok x (Machine.triggerOpens i s) := by
  simp only [Machine.triggerOpens]
  repeat' first
    | with_reducible assumption | with_reducible apply Ok.triggerMarkIn | with_reducible apply Ok.onTrigger

theorem Ok.triggerReleases (h : Ok x s) (i : Fin 4) : Ok x (Machine.triggerReleases i s) := by
  simp only [Machine.triggerReleases]
  repeat' first
    | with_reducible assumption | with_reducible apply Ok.triggerMarkOut | with_reducible apply Ok.onTrigger

theorem Ok.armTrigger (h : Ok x s) (i : Fin 4) (run : Nat) : Ok x (Machine.armTrigger i run s) := by
  simp only [Machine.armTrigger]
  repeat' first
    | with_reducible assumption | with_reducible apply Ok.ite | with_reducible apply Ok.onTrigger
    | with_reducible apply Ok.triggerOpens

theorem Ok.releaseTrigger (h : Ok x s) (i : Fin 4) (run : Nat) : Ok x (Machine.releaseTrigger i run s) := by
  simp only [Machine.releaseTrigger]
  repeat' first
    | with_reducible assumption | with_reducible apply Ok.ite | with_reducible apply Ok.onTrigger
    | with_reducible apply Ok.triggerReleases

theorem Ok.stepTrigger (h : Ok x s) (i : Fin 4) : Ok x (Machine.stepTrigger i s) := by
  simp only [Machine.stepTrigger]
  repeat' first
    | with_reducible assumption | with_reducible apply Ok.ite | with_reducible apply Ok.armTrigger
    | with_reducible apply Ok.onTrigger | with_reducible apply Ok.releaseTrigger | split

theorem Ok.takeAnswer (h : Ok x s) (i : Fin 4) (clip : Option Nat) : Ok x (Machine.takeAnswer i clip s) := by
  simp only [Machine.takeAnswer]
  repeat' first
    | with_reducible assumption | with_reducible apply Ok.ite | with_reducible apply Ok.onTrigger
    | with_reducible apply Ok.silentMarkOut | split

theorem Ok.answerTrigger (h : Ok x s) (i : Fin 4) : Ok x (Machine.answerTrigger i s) := by
  simp only [Machine.answerTrigger]
  repeat' first
    | with_reducible assumption | with_reducible apply Ok.takeAnswer | with_reducible apply Ok.onSmx | split

theorem Ok.mixBlock (h : Ok x s) (n : BlockNo) : Ok x (Machine.mixBlock n s).2 := by
  simp only [Machine.mixBlock]
  repeat' first
    | with_reducible assumption | (with_reducible apply Ok.foldl; intro _ _ _) | with_reducible apply Ok.onSmx
    | with_reducible apply Ok.raiseFlag | with_reducible apply Ok.stepTrigger

theorem Ok.skipTo (h : Ok x s) (n : BlockNo) : Ok x (Machine.skipTo n s) := by
  simp only [Machine.skipTo]
  repeat' first
    | with_reducible assumption | with_reducible apply Ok.onSmx

theorem Ok.mixEvent (h : Ok x s) (m : BlockNo) : Ok x (Machine.mixEvent m s).2 := by
  simp only [Machine.mixEvent]
  repeat' first
    | with_reducible assumption | with_reducible apply Ok.ite | with_reducible apply Ok.mixBlock
    | with_reducible apply Ok.skipTo | with_reducible apply Ok.onSmx | split

theorem Ok.blockWork (h : Ok x s) (m : BlockNo) : Ok x (Machine.blockWork m s) := by
  simp only [Machine.blockWork]
  repeat' first
    | with_reducible assumption | with_reducible apply Ok.mixEvent | with_reducible apply Ok.creditBlock
    | with_reducible apply Ok.streamsArrival

theorem Ok.inputSet (h : Ok x s) (f : InputFields) : Ok x (Machine.inputSet f s).1 := by
  simp only [Machine.inputSet]
  repeat' first
    | with_reducible assumption | with_reducible apply Ok.ite | with_reducible apply Ok.recompute
    | with_reducible apply Ok.onInput | split

theorem Ok.setCross (h : Ok x s) (k : Fin 32) (b : Fin 8) (cross : Nat) : Ok x (Machine.setCross k b cross s) := by
  simp only [Machine.setCross]
  repeat' first
    | with_reducible assumption | with_reducible apply Ok.onCross

theorem Ok.mixSet (h : Ok x s) (entries : List MixEntry) : Ok x (Machine.mixSet entries s).1 := by
  simp only [Machine.mixSet]
  repeat' first
    | with_reducible assumption | (with_reducible apply Ok.foldl; intro _ _ _) | with_reducible apply Ok.setCross | split

theorem Ok.storeGroups (h : Ok x s) (groups : Table 8 Bool) : Ok x (Machine.storeGroups groups s) := by
  simp only [Machine.storeGroups]
  repeat' first
    | with_reducible assumption | (with_reducible apply Ok.foldl; intro _ _ _) | with_reducible apply Ok.onSmx
    | with_reducible apply Ok.recompute

theorem Ok.storeBus (h : Ok x s) (f : BusFields) (b : Option (Fin 8)) : Ok x (Machine.storeBus f b s) := by
  simp only [Machine.storeBus]
  repeat' first
    | with_reducible assumption | with_reducible apply Ok.onBus | split

theorem Ok.busSet (h : Ok x s) (f : BusFields) : Ok x (Machine.busSet f s).1 := by
  simp only [Machine.busSet]
  repeat' first
    | with_reducible assumption | with_reducible apply Ok.ite | with_reducible apply Ok.storeGroups
    | with_reducible apply Ok.storeBus | with_reducible apply Ok.onSmx | split

theorem Ok.storeTrigger (h : Ok x s) (i : Fin 4) (new : Trigger) : Ok x (Machine.storeTrigger i new s) := by
  simp only [Machine.storeTrigger]
  repeat' first
    | with_reducible assumption | with_reducible apply Ok.ite | with_reducible apply Ok.triggerMarkOut
    | with_reducible apply Ok.onTrigger

theorem Ok.triggerSet (h : Ok x s) (f : TriggerFields) : Ok x (Machine.triggerSet f s).1 := by
  simp only [Machine.triggerSet]
  repeat' first
    | with_reducible assumption | with_reducible apply Ok.ite | with_reducible apply Ok.storeTrigger | split

theorem Ok.timebaseSet (h : Ok x s) (f : TimebaseFields) : Ok x (Machine.timebaseSet f s).1 := by
  simp only [Machine.timebaseSet]
  repeat' first
    | with_reducible assumption | with_reducible apply Ok.ite | with_reducible apply Ok.retargetWhere
    | with_reducible apply Ok.onTbu | split

theorem Ok.inputMap (h : Ok x s) (f : MapFields) : Ok x (Machine.inputMap f s).1 := by
  simp only [Machine.inputMap]
  repeat' first
    | with_reducible assumption | with_reducible apply Ok.ite | with_reducible apply Ok.onSri | split

theorem Ok.clearRefused (h : Ok x s) : Ok x (Machine.clearRefused s) := by
  obtain ⟨a, b, c, d⟩ := h
  exact ⟨Books.owners (o := s.pkp.owners) a (by intro i; simp [Machine.clearRefused]), b, c, d⟩

theorem Ok.clearIf (h : Ok x s) (clear : Bool) {f : State → State} (hf : Ok x (f s)) : Ok x (Machine.clearIf clear f s) :=
  Ok.ite hf h

theorem Ok.answerObject (h : Ok x s) {n : Nat} (o : Option (Fin n)) {f : Fin n → State × Reply} (hf : ∀ i, Ok x (f i).1) :
    Ok x (Machine.answerObject o f s).1 := by
  simp only [Machine.answerObject]
  split
  · exact hf _
  · exact h

theorem Ok.answerWith (h : Ok x s) (r : Results) : Ok x (Machine.answerWith r s).1 := by
  simp only [Machine.answerWith]
  repeat' first
    | with_reducible assumption

theorem Ok.queryMixer (h : Ok x s) (object : Option (Nat × List Nat)) : Ok x (Machine.queryMixer object s).1 := by
  simp only [Machine.queryMixer]
  split
  · exact h
  · exact h.answerObject _ fun _ => h
  · exact h.answerObject _ fun _ => h
  · exact h.answerObject _ fun _ => h.answerObject _ fun _ => h
  · exact h.answerObject _ fun _ => h
  · exact h

theorem Ok.clearLinks (h : Ok x s) : Ok x { s with lsu := s.lsu.map LinkRecord.clearFaults } := by
  obtain ⟨a, b, c, d⟩ := h
  refine ⟨a, fun k => ?_, c, d⟩
  have e : ((s.lsu.map LinkRecord.clearFaults).get k).state = (s.lsu.get k).state := by rw [Table.get_map]; rfl
  show LaneOk ((s.lsu.map LinkRecord.clearFaults).get k).state _
  rw [e]; exact b k

theorem Ok.queryBlock (h : Ok x s) (b : Nat) (object : Option (Nat × List Nat)) (clear : Bool) :
    Ok x (Machine.queryBlock b object clear s).1 := by
  have h1 : Ok x (Machine.clearIf clear Machine.clearRefused s) := h.clearIf clear h.clearRefused
  have h2 : Ok x (Machine.clearIf clear (·.onHsc fun h => { h with ignoredHome := 0 }) s) :=
    h.clearIf clear (h.onHsc _ fun _ => rfl)
  have h3 : ∀ l, Ok x (Machine.clearIf clear (·.onSched l LinkSched.clearCounts) s) :=
    fun l => h.clearIf clear (h.onSched l _ rfl)
  have h4 : Ok x (Machine.clearIf clear (fun s => { s with lsu := s.lsu.map (·.clearFaults) }) s) :=
    h.clearIf clear h.clearLinks
  have h5 : ∀ l, Ok x (Machine.clearIf clear (·.onLink l LinkRecord.clearFaults) s) :=
    fun l => h.clearIf clear (h.onLink l _ rfl)
  simp only [Machine.queryBlock]
  split
  · exact h
  · exact h.answerObject _ fun _ => h
  · exact h
  · exact h.answerObject _ fun _ => h
  · exact h.answerObject _ fun _ => h
  · exact h.answerObject _ fun _ => h
  · exact h
  · exact h.answerObject _ fun _ => h
  · exact h
  · exact h.answerObject _ fun _ => h
  · exact h.queryMixer _
  · exact h
  · exact h.answerObject _ fun _ => h
  · exact h
  · exact h1
  · exact h.answerObject _ fun _ => h1
  · exact h2
  · exact h.answerObject _ h3
  · exact h4
  · exact h.answerObject _ h5
  · exact h
  · exact h

theorem Ok.statusQuery (h : Ok x s) (f : QueryFields) : Ok x (Machine.statusQuery f s).1 := by
  simp only [Machine.statusQuery]
  repeat' first
    | with_reducible assumption | with_reducible apply Ok.queryBlock | split

theorem Ok.eventsClear (h : Ok x s) (l : ClearList) : Ok x (Machine.eventsClear l s).1 := by
  simp only [Machine.eventsClear]
  repeat' first
    | with_reducible assumption | with_reducible apply Ok.ite | (with_reducible apply Ok.foldl; intro _ _ _)
    | with_reducible apply Ok.onCmu | with_reducible apply Ok.clearFlag | split

theorem Ok.countUnrouted (h : Ok x s) : Ok x (Machine.countUnrouted s) := by
  simp only [Machine.countUnrouted]
  repeat' first
    | with_reducible assumption | with_reducible apply Ok.onSri

theorem Ok.countWrongKind (h : Ok x s) : Ok x (Machine.countWrongKind s) := by
  simp only [Machine.countWrongKind]
  repeat' first
    | with_reducible assumption | with_reducible apply Ok.onSri

theorem Ok.route (h : Ok x s) (i : RingStream) {use : Dest → Option (State → State)}
    (hu : ∀ d f, use d = some f → Ok x (f s)) : Ok x (Machine.route i use s) := by
  simp only [Machine.route]
  split
  · exact h.countUnrouted
  · split
    · rename_i f e
      exact hu _ f e
    · exact h.countWrongKind

theorem Ok.setPartial (h : Ok x s) (i : RingStream) (p : Option Assembling) : Ok x (Machine.setPartial i p s) := by
  simp only [Machine.setPartial]
  repeat' first
    | with_reducible assumption | with_reducible apply Ok.onSri

theorem Ok.discardAssembly (h : Ok x s) : Ok x (Machine.discardAssembly s) := by
  simp only [Machine.discardAssembly]
  repeat' first
    | with_reducible assumption | with_reducible apply Ok.raiseFlag | with_reducible apply Ok.onSri

theorem Ok.takeTally (h : Ok x s) (t : Table 4 Bool) : Ok x (Machine.takeTally t s) := by
  simp only [Machine.takeTally]
  repeat' first
    | with_reducible assumption | with_reducible apply Ok.judgeTally | with_reducible apply Ok.onSri

theorem Ok.soundCell (h : Ok x s) (i : RingStream) (c : BlockNo) (samples : SoundBlock) : Ok x (Machine.soundCell i c samples s) := by
  refine h.route i fun d f e => ?_
  split at e <;> simp only [Option.some.injEq, reduceCtorEq] at e
  subst e
  exact h.soundArrival ..

theorem Ok.tallyCell (h : Ok x s) (i : RingStream) (count : Byte) (body : List Byte) : Ok x (Machine.tallyCell i count body s) := by
  simp only [Machine.tallyCell]
  split
  · exact h
  · refine h.route i fun d f e => ?_
    split at e <;> simp only [Option.some.injEq, reduceCtorEq] at e
    subst e
    exact h.takeTally _

theorem Ok.otherCell (h : Ok x s) (i : RingStream) (kind : Byte) : Ok x (Machine.otherCell i kind s) :=
  Ok.ite (h.route i fun d f e => by simp at e) h.countWrongKind

theorem Ok.codeStartIfDue (h : Ok x s) : Ok x (Machine.codeStartIfDue s) := by
  simp only [Machine.codeStartIfDue]
  repeat' first
    | with_reducible assumption | with_reducible apply Ok.takeCodeStart | with_reducible apply Ok.onTbu | split

theorem Ok.blockIfDue (h : Ok x s) : Ok x (Machine.blockIfDue s) := by
  simp only [Machine.blockIfDue]
  repeat' first
    | with_reducible assumption | with_reducible apply Ok.ite | with_reducible apply Ok.blockWork
    | with_reducible apply Ok.onTbu

theorem Ok.deadlineIfDue (h : Ok x s) (l : Link) : Ok x (Machine.deadlineIfDue l s) := by
  simp only [Machine.deadlineIfDue]
  repeat' first
    | with_reducible assumption | with_reducible apply Ok.ite | with_reducible apply Ok.failProving

theorem Ok.retryIfDue (h : Ok x s) (l : Link) : Ok x (Machine.retryIfDue l s) := by
  simp only [Machine.retryIfDue]
  split
  · rename_i e
    simp only [retryDue, Bool.and_eq_true, beq_iff_eq] at e
    exact h.enterProving l none (.inr e.1)
  · exact h

theorem Ok.probeIfDue (h : Ok x s) (l : Link) : Ok x (Machine.probeIfDue l s) := by
  simp only [Machine.probeIfDue]
  split
  · rename_i e
    simp only [probeDue, Bool.and_eq_true, beq_iff_eq] at e
    exact h.buildProbe l e.1
  · exact h

theorem Ok.recoveryIfDue (h : Ok x s) (l : Link) : Ok x (Machine.recoveryIfDue l s) := by
  simp only [Machine.recoveryIfDue]
  split
  · rename_i e
    simp only [recoveryDue, Bool.and_eq_true, beq_iff_eq] at e
    exact h.expireRecovery l e.1
  · exact h

theorem Ok.windowIfDue (h : Ok x s) (l : Link) : Ok x (Machine.windowIfDue l s) := by
  simp only [Machine.windowIfDue]
  repeat' first
    | with_reducible assumption | with_reducible apply Ok.ite | with_reducible apply Ok.endWindow

theorem Ok.timeoutIfDue (h : Ok x s) (l : Link) : Ok x (Machine.timeoutIfDue l s) := by
  simp only [Machine.timeoutIfDue]
  repeat' first
    | with_reducible assumption | with_reducible apply Ok.ite | with_reducible apply Ok.timeOutOldest

theorem Ok.timersIfDue (h : Ok x s) (l : Link) : Ok x (Machine.timersIfDue l s) := by
  simp only [Machine.timersIfDue]
  repeat' first
    | with_reducible assumption | with_reducible apply Ok.timeoutIfDue | with_reducible apply Ok.windowIfDue
    | with_reducible apply Ok.recoveryIfDue | with_reducible apply Ok.probeIfDue | with_reducible apply Ok.retryIfDue
    | with_reducible apply Ok.deadlineIfDue

end Sys2Proof.Machine
end

