-- ==== Sys2Proof/Laws/LedgerCommands.lean ====
section
/-! SUPPORT. Messages, periods, ticks and every command keep the books of the pool and the links' in-flight lists
(Laws/Ledger), and the invariant in the terms of the statements. -/

namespace Sys2Proof.Machine

variable {x : Bag} {s t : State}

/-! ### The Command Unit (R203 to R212) -/

theorem Ok.authoritySet (h : Ok x s) (f : AuthorityFields) : Ok x (authoritySet f s).1 := by
  simp only [Machine.authoritySet]
  split
  · exact h
  · exact h

theorem Ok.perform (h : Ok 0 s) (m : Msg) (c : Command) : Ok 0 (perform m c s).1 := by
  simp only [Machine.perform]
  split
  all_goals first
    | with_reducible exact h.timebaseSet _ | with_reducible exact h.formatSet _ | with_reducible exact h.programmeSet _
    | with_reducible exact h.programmeStart _ _ | with_reducible exact h.programmeStop _ _ _ _
    | with_reducible exact h.refreshCommand _ | with_reducible exact h.rateSet _ | with_reducible exact h.inputMap _
    | with_reducible exact h.inputSet _ | with_reducible exact h.mixSet _ | with_reducible exact h.busSet _
    | with_reducible exact h.triggerSet _ | with_reducible exact h.soundStreamSet _ | with_reducible exact h.clipMark _ _ _
    | with_reducible exact h.clipLabel _ _ _ | with_reducible exact h.clipQuery _ _ | with_reducible exact h.clipSettings _
    | with_reducible exact h.linkSet _ | with_reducible exact h.linkUp _ _ | with_reducible exact h.linkDown _
    | with_reducible exact h.linkClear _ _ | with_reducible exact h.statusQuery _ | with_reducible exact h.eventsClear _
    | with_reducible exact h.authoritySet _ | with_reducible exact Ok.resetMediaBlocks _ _ | with_reducible exact h

theorem Ok.answer (h : Ok 0 s) (m : Msg) : Ok 0 (answer m s).1 := by
  simp only [Machine.answer]
  split
  · exact h.raiseFlag _
  · exact h
  · split
    · exact h
    · exact h.perform _ _

theorem Ok.resetAll (m : Msg) (s : State) : Ok 0 (resetAll m s) := (Ok.resetBlocks s).onSri _

theorem Ok.replyVan (h : Ok x s) (m : Msg) (r : Reply) : Ok x (replyVan m r s) := (h.onSri _).onCmu _

theorem Ok.offerHome (h : Ok x s) (tag : Byte) (body : List Byte) : Ok x (offerHome tag body s) := by
  simp only [Machine.offerHome]
  have h0 : Ok x (s.onCmu fun c => { c with held := some { tag := tag, bytes := body } }) := h
  split <;> rename_i e
  · refine Ok.onCmu (Ok.appendPackets ?_ .reply) _
    rw [bagOf_one]
    exact h0.request_some e
  · exact h0.request_none e

theorem Ok.dispatchVan (h : Ok 0 s) (m : Msg) : Ok 0 (dispatchVan m s) := Ok.ite (Ok.resetAll m s) ((h.answer m).replyVan m _)

theorem Ok.dispatchHome (h : Ok 0 s) (m : Msg) : Ok 0 (dispatchHome m s) :=
  Ok.ite (Ok.resetAll m s) ((h.answer m).offerHome _ _)

theorem Ok.serveVan (n : Nat) (h : Ok 0 s) : Ok 0 (serveVan n s) := by
  induction n generalizing s with
  | zero => exact h
  | succ n ih =>
    simp only [Machine.serveVan]
    split
    · exact h
    · exact Ok.ite (ih (h.dispatchVan _)) h

theorem Ok.serveHome (n : Nat) (h : Ok 0 s) : Ok 0 (serveHome n s) := by
  induction n generalizing s with
  | zero => exact h
  | succ n ih =>
    simp only [Machine.serveHome]
    split
    · exact ih (h.dispatchHome _)
    · exact h

theorem Ok.serve (h : Ok 0 s) : Ok 0 (serve s) := (h.serveVan _).serveHome _

theorem Ok.finish (h : Ok 0 s) : Ok 0 (finish s) := h.serve.settleTakes

theorem Ok.joinVan (h : Ok x s) (m : Msg) : Ok x (joinVan m s) :=
  Ok.ite (h.onCmu _) (Ok.ite (Ok.raiseFlag (h.onSri _) _) (Ok.raiseFlag (h.onCmu _) _))

theorem Ok.joinHome (h : Ok x s) (m : Msg) : Ok x (joinHome m s) := by
  simp only [Machine.joinHome]
  split
  · exact h.onCmu _
  · split <;> rename_i e
    · refine Ok.raiseFlag (Ok.appendPackets ?_ .reply) _
      rw [bagOf_one]
      exact h.request_some e
    · exact Ok.raiseFlag ((h.request_none e).onCmu _) _

theorem Ok.submit (h : Ok x s) (m : Msg) : Ok x (submit m s) := by
  simp only [Machine.submit]
  split
  · exact h.joinVan m
  · exact h.joinHome m

theorem Ok.retryHeld (h : Ok 0 s) : Ok 0 (retryHeld s) := by
  simp only [Machine.retryHeld]
  split
  · exact h
  · exact (h.offerHome _ _).serveHome _

theorem Ok.retryHome (h : Ok 0 s) : Ok 0 (retryHome s) := Ok.ite (h.retryHeld.sendHomeNotices _) h.retryHeld

/-! ### Messages on the ring and from home -/

theorem Ok.assemble (h : Ok x s) (src : Src) (i : RingStream) (a : Assembling) : Ok x (assemble src i a s) :=
  Ok.ite ((h.setPartial _ _).submit _) (h.setPartial _ _)

theorem Ok.firstCell (h : Ok x s) (src : Src) (i : RingStream) (kind tag : Byte) (count length : Nat) (body : List Byte) :
    Ok x (firstCell src i kind tag count length body s) :=
  (Ok.ite (h.setPartial _ _).discardAssembly h).assemble ..

theorem Ok.continuationCell (h : Ok x s) (src : Src) (i : RingStream) (index : Nat) (body : List Byte) :
    Ok x (continuationCell src i index body s) := by
  simp only [Machine.continuationCell]
  split
  · exact h.discardAssembly
  · exact Ok.ite (h.assemble ..) (h.setPartial _ _).discardAssembly

theorem Ok.controlFirst (h : Ok x s) (i : RingStream) (kind tag : Byte) (count length : Nat) (body : List Byte) :
    Ok x (controlFirst i kind tag count length body s) := by
  refine Ok.ite (h.setPartial _ _).discardAssembly (h.route i fun d f e => ?_)
  obtain ⟨src, -, rfl⟩ := Option.map_eq_some_iff.mp e
  exact h.firstCell ..

theorem Ok.controlContinuation (h : Ok x s) (i : RingStream) (index : Nat) (body : List Byte) :
    Ok x (controlContinuation i index body s) := by
  refine h.route i fun d f e => ?_
  obtain ⟨src, -, rfl⟩ := Option.map_eq_some_iff.mp e
  exact h.continuationCell ..

theorem Ok.ringCell (h : Ok x s) (c : RingCell) : Ok x (ringCell c s) := by
  simp only [Machine.ringCell]
  split
  · exact h.soundCell ..
  · exact h.tallyCell ..
  · exact h.controlFirst ..
  · exact h.controlContinuation ..
  · exact h.otherCell ..

theorem Ok.controlReturn (h : Ok x s) (kind tag : Byte) (length : Nat) (message : List Byte) :
    Ok x (controlReturn kind tag length message s) := h.submit _

theorem Ok.returnPacket (h : Ok x s) (p : ReturnPacket) : Ok x (returnPacket p s) := by
  simp only [Machine.returnPacket]
  split
  · exact h.ackPacket ..
  · exact h.refreshReturn _
  · exact h.controlReturn ..
  · exact h.ignoreHome

theorem Ok.fillSlot (h : Ok x s) : Ok x (fillSlot s) := by
  simp only [Machine.fillSlot]
  split
  · exact h.onSri _
  · exact (h.onSri _).onCmu _
  · exact h.onSri _

/-! ### Periods, ticks and what is due -/

theorem Ok.deliverPeriod (h : Ok 0 s) : Ok 0 (deliverPeriod s) :=
  ((h.firstAllocated.allocation _).countPostRoll.retryLabels _).retryHome

theorem Ok.startPeriod (h : Ok 0 s) : Ok 0 (startPeriod s) := (h.onTbu _).deliverPeriod

theorem Ok.periodIfDue (h : Ok 0 s) : Ok 0 (periodIfDue s) := Ok.ite h.startPeriod h

theorem Ok.codeStartsDue (n : Nat) (h : Ok x s) : Ok x (codeStartsDue n s) := by
  induction n generalizing s with
  | zero => exact h
  | succ n ih =>
    simp only [Machine.codeStartsDue]
    exact Ok.ite (ih h.codeStartIfDue) h

theorem Ok.catchUp (h : Ok 0 s) : Ok 0 (catchUp s) :=
  Ok.foldl (fun s l h => h.timersIfDue l) _ (h.periodIfDue.codeStartsDue _).blockIfDue

theorem Ok.caughtUp (h : Ok 0 s) : Ok 0 (caughtUp s) := h.catchUp.finish

theorem Ok.ringFrame (h : Ok 0 s) (elapsed : Nat) : Ok 0 (ringFrame elapsed s) := by
  simp only [Machine.ringFrame]
  have h1 := h.caughtUp.fillSlot.onTbu fun _ => ((Machine.fillSlot (Machine.caughtUp s)).tbu.frameStart elapsed).1
  with_reducible exact Ok.ite h1.startPeriod h1

theorem Ok.missFrame (h : Ok 0 s) : Ok 0 (missFrame s) := by
  simp only [Machine.missFrame]
  have h1 := h.caughtUp.onTbu fun _ => ((Machine.caughtUp s).tbu.frameMissed).1
  with_reducible exact Ok.ite (h1.raiseFlag _) h1

theorem Ok.localTick (h : Ok 0 s) : Ok 0 (localTick s) := h.caughtUp.onTbu _

theorem Ok.takeCommand (h : Ok 0 s) (m : Hdr) (c : Command) : Ok 0 (takeCommand m c s) := (h.submit _).finish

/-- Every command keeps the books of the pool and the in-flight lists. -/
theorem Ok.exec (h : Ok 0 s) (c : Instr) (e : exec c s = .next t) : Ok 0 t := by
  cases c <;> simp only [Machine.exec] at e <;> injection e with e <;> subst e
  case powerOnReset => exact Ok.resetBlocks s
  case ringFrameStart => exact (h.ringFrame _).finish
  case missedFrame => exact h.missFrame.finish
  case localTick => exact h.localTick.finish
  case periodStart => exact h.periodIfDue.finish
  case codeStart => exact h.codeStartIfDue.finish
  case fragmentClose => exact (h.closeFragment _).finish
  case bandCompletion => exact (h.bandEnds _).finish
  case blockEvent => exact h.blockIfDue.finish
  case pictureStartSignal => exact (h.pictureStarts _).finish
  case pictureEndComplete => exact (h.pictureCompletes _).finish
  case pictureEndBroken => exact (h.pictureBreaks _).finish
  case soundCell => exact (h.soundCell ..).finish
  case tallyCell => exact (h.tallyCell ..).finish
  case controlFirstCell => exact (h.controlFirst ..).finish
  case controlContinuationCell => exact (h.controlContinuation ..).finish
  case unroutedCell => exact (h.ringCell _).finish
  case unknownCommand => exact (h.submit _).finish
  case ack => exact (h.ackPacket ..).finish
  case refreshPacket => exact (h.refreshReturn _).finish
  case controlPacket => exact (h.controlReturn ..).finish
  case capacityReport => exact (h.takeCapacity ..).finish
  case faultReport => exact (h.takeFaultReport ..).finish
  case takenReport => exact (h.takenReport ..).finish
  case probeBuild => exact (h.probeIfDue _).finish
  case provingDeadline => exact (h.deadlineIfDue _).finish
  case retryExpiry => exact (h.retryIfDue _).finish
  case recoveryExpiry => exact (h.recoveryIfDue _).finish
  case windowEnd => exact (h.windowIfDue _).finish
  case ackTimeout => exact (h.timeoutIfDue _).finish
  case triggerAnswer => exact (h.answerTrigger _).finish
  case ignoredReturnPacket => exact (h.returnPacket _).finish
  case ignoredModemReport => exact (h.modemReport _ _).finish
  all_goals exact h.takeCommand _ _

/-! ### The invariant that is stated of steps -/

theorem held_blocks (l : List (Option Owner × List Nat)) :
    ((l : Bag).map fun h => (h.2 : Multiset Nat)).sum = (l.flatMap (·.2) : List Nat) := by
  induction l with
  | nil => rfl
  | cons a l ih => simpa [← Multiset.coe_add] using ih

theorem held_count (o : Owner) (l : List (Option Owner × List Nat)) :
    ((l : Bag).map fun h => if h.1 = some o then h.2.length else 0).sum = ((l.filter fun h => h.1 == some o).flatMap (·.2)).length := by
  induction l with
  | nil => rfl
  | cons a l ih =>
    simp only [Multiset.map_coe, Multiset.sum_coe, List.map_cons, List.sum_cons] at ih ⊢
    rw [ih]
    by_cases h : a.1 = some o <;> simp [h]

theorem holdings_bag (s : State) :
    ((holdings s : List (Option Owner × List Nat)) : Bag) =
      0 + (s.pkp.bag + (linksBag s.hsc.links + (bandBag s.cde.band + streamsBag s.sdp))) := by
  cases hb : s.cde.band <;>
  simp only [holdings, hb, ← Multiset.coe_add, List.flatMap_cons, List.flatMap_nil, List.append_nil, Pool.bag, linksBag, LinkSched.bag,
    streamsBag, SoundStream.bag, bagOf, sched, Option.toList_none, Option.toList_some, bandBag, List.map_append, zero_add] <;>
  abel

theorem books_iff : Books s.pkp.free s.pkp.owners ((holdings s : List (Option Owner × List Nat)) : Bag) ↔
    (s.pkp.free ++ (holdings s).flatMap (·.2)).Perm (List.range 16384) ∧
    (∀ o : Owner, (s.pkp.owners.get o.idx).count = (((holdings s).filter fun h => h.1 == some o).flatMap (·.2)).length) ∧
    ∀ h ∈ holdings s, h.1 = none → h.2 = [] := by
  constructor
  · intro b
    refine ⟨?_, fun o => by rw [b.counts o, held_count], fun h hh => b.owned h (by simpa using hh)⟩
    have w := b.whole
    rw [held_blocks, Multiset.coe_add, Multiset.coe_eq_coe] at w
    exact w
  · rintro ⟨w, c, d⟩
    refine ⟨?_, fun o => by rw [held_count]; exact c o, fun h hh => d h (by simpa using hh)⟩
    rw [held_blocks, Multiset.coe_add, Multiset.coe_eq_coe]
    exact w

/-- The invariant in the terms of the statements. -/
theorem ok_iff : Ok 0 s ↔ PoolOk s ∧ ∀ l, LaneOk (link s l).state (sched s l) := by
  simp only [Ok, ← holdings_bag, books_iff]
  constructor
  · rintro ⟨⟨w, c, o⟩, l, b, d⟩
    exact ⟨⟨w, c, o, b.lost, fun i => (d i).disabled, fun i a p ha hp => (d i).assembly a p ha hp⟩, l⟩
  · rintro ⟨h, l⟩
    exact ⟨⟨h.whole, h.counts, h.owned⟩, l, ⟨h.band⟩, fun i => ⟨h.disabled i, h.assembly i⟩⟩

end Sys2Proof.Machine
end

