-- ==== Sys2Proof/Laws/Marks.lean ====
section
/-! SUPPORT. What a MARK-IN does, for every source of marks: the number it takes, the in-points it places and the record it
adds (R123, R124, R127, R128). -/

namespace Sys2Proof.Machine

/-! ### The first free number (R123) -/

/-- The number `j` places after the next clip number. -/
def numAt (next j : Nat) : Nat := (next - 1 + j) % 65535 + 1

theorem nextNumber_numAt (next j : Nat) : nextNumber (numAt next j) = numAt next (j + 1) := by
  have key : ∀ x, nextNumber (x % 65535 + 1) = (x + 1) % 65535 + 1 := by
    intro x; rw [nextNumber]; split <;> omega
  exact key _

theorem pickNumber_steps (held : List Nat) (next fuel j : Nat) :
    (∃ a, pickNumber held fuel (numAt next j) = numAt next (j + a) ∧ numAt next (j + a) ∉ held ∧
      ∀ k < a, numAt next (j + k) ∈ held) ∨ (∀ k < fuel, numAt next (j + k) ∈ held) := by
  induction fuel generalizing j with
  | zero => right; intro k hk; omega
  | succ fuel ih =>
    by_cases hm : numAt next j ∈ held
    · have e : pickNumber held (fuel + 1) (numAt next j) = pickNumber held fuel (numAt next (j + 1)) := by
        simp only [pickNumber, hm, or_true, if_true, nextNumber_numAt]
      obtain ⟨a, h1, h2, h3⟩ | h := ih (j + 1)
      · left; refine ⟨a + 1, ?_, ?_, fun k hk => ?_⟩
        · rw [e, h1]; congr 1; omega
        · rw [show j + (a + 1) = j + 1 + a by omega]; exact h2
        · cases k with
          | zero => exact hm
          | succ k => rw [show j + (k + 1) = j + 1 + k by omega]; exact h3 k (by omega)
      · right; intro k hk
        cases k with
        | zero => exact hm
        | succ k => rw [show j + (k + 1) = j + 1 + k by omega]; exact h k (by omega)
    · left; refine ⟨0, ?_, hm, by omega⟩
      have : numAt next j ≠ 0 := by simp [numAt]
      simp [pickNumber, hm, this]

/-- A free number is found: the first that no record holds, counting from the next clip number. -/
theorem pickNumber_found (held : List Nat) (next : Nat) (h : held.length ≤ 64) (h1 : 1 ≤ next) (h2 : next ≤ 65535) :
    ∃ a, pickNumber held 65 next = numAt next a ∧ numAt next a ∉ held ∧ ∀ k < a, numAt next k ∈ held := by
  have e : numAt next 0 = next := by simp only [numAt]; omega
  have := pickNumber_steps held next 65 0
  rw [e] at this
  obtain ⟨a, a1, a2, a3⟩ | h3 := this
  · simp only [Nat.zero_add] at a1 a2 a3; exact ⟨a, a1, a2, a3⟩
  · exfalso
    have hn : ((List.range 65).map (numAt next)).Nodup := by
      apply List.Nodup.map_on _ List.nodup_range
      intro x hx y hy hxy
      simp only [List.mem_range] at hx hy
      simp only [numAt] at hxy; omega
    have hs : ((List.range 65).map (numAt next)) ⊆ held := by
      intro x hx
      obtain ⟨k, hk, rfl⟩ := List.mem_map.1 hx
      have := h3 k (List.mem_range.1 hk); simpa using this
    have := (hn.subperm hs).length_le
    simp at this; omega

/-! ### In-points (R128) -/

theorem placeInPoint_placed (history : List Pic) (mark : Pic) (preRoll : Nat) :
    InPointPlaced history mark preRoll (placeInPoint history mark preRoll) := by
  refine ⟨fun h => ?_, fun h target ht => ⟨fun newer a older hH ha hb => ?_, fun hb => ?_⟩⟩
  · simp [placeInPoint, h]
  · subst ht
    have : history.find? (fun a => atOrBefore a (mark - BitVec.ofNat 32 preRoll)) = some a := by
      rw [hH, List.find?_append]
      have : newer.find? (fun a => atOrBefore a (mark - BitVec.ofNat 32 preRoll)) = none := by
        rw [List.find?_eq_none]; intro b hb2; have := hb b hb2; simp only [atOrBefore, decide_eq_true_eq]; omega
      rw [this, Option.none_or, List.find?_cons_of_pos (by simpa [atOrBefore] using ha)]
    simp only [placeInPoint, h, if_false, this]
  · subst ht
    have : history.find? (fun a => atOrBefore a (mark - BitVec.ofNat 32 preRoll)) = none := by
      rw [List.find?_eq_none]; intro b hb2; have := hb b hb2; simp only [atOrBefore, decide_eq_true_eq]; omega
    simp only [placeInPoint, h, if_false, this]

/-! ### The marks it sets (R34) -/

/-- A refresh cause for each of several programmes that stand for themselves. -/
theorem refreshCauses_of (l : List Prog) (u : State) (hn : l.Nodup) (hf : ∀ p ∈ l, fold u p = p) :
    (∀ p, prog (l.foldl (fun s p => refreshCause p s) u) p = if p ∈ l then
      { prog u p with refreshOwed := true, causes := min ((prog u p).causes + 1) 65535 } else prog u p) ∧
    (l.foldl (fun s p => refreshCause p s) u).pgc.formats = u.pgc.formats ∧
    l.foldl (fun s p => refreshCause p s) u = { u with pgc := (l.foldl (fun s p => refreshCause p s) u).pgc } := by
  induction l generalizing u with
  | nil => simp
  | cons a l ih =>
    rw [List.nodup_cons] at hn
    have ha := hf a (List.mem_cons_self ..)
    have hfold : ∀ p, fold (refreshCause a u) p = fold u p := fun p => fold_congr (by
      have := refreshCause_calm a u
      exact (calm_eq this).2.2.2.2.2.2.2.2.2.2.2.1) p
    obtain ⟨h1, h2, h3⟩ := ih (refreshCause a u) hn.2 fun p hp => by rw [hfold]; exact hf p (List.mem_cons_of_mem _ hp)
    have e := refreshCause_alone ha
    rw [List.foldl_cons]
    refine ⟨fun p => ?_, ?_, ?_⟩
    · rw [h1]
      by_cases hpa : p = a
      · subst hpa
        simp only [hn.1, if_false, List.mem_cons_self, if_true]
        rw [e]; simp [prog, State.onProg, State.onPgc]
      · have : prog (refreshCause a u) p = prog u p := by
          rw [e]; simp only [prog, State.onProg, State.onPgc]; exact Table.get_modify_ne _ _ (Ne.symm hpa)
        simp [hpa, this]
    · rw [h2, e]; rfl
    · rw [h3, e]; rfl

/-! ### The MARK-IN (R127) -/

theorem markIn_none {source : ClipSource} {cams : Table 4 Bool} {prio : Priority} {text : List Byte} {s : State}
    (h : keptCameras cams s = []) : markIn source cams prio text s = (.error .refusedState, s) := by
  simp only [markIn, h, List.isEmpty_nil, if_true]

theorem markIn_full {source : ClipSource} {cams : Table 4 Bool} {prio : Priority} {text : List Byte} {s : State}
    (h : keptCameras cams s ≠ []) (h1 : s.clm.clips.length = 64) (h2 : s.clm.acked = []) :
    markIn source cams prio text s = (.error .refusedFull, raiseFlag .clipFull s) := by
  have he : (keptCameras cams s).isEmpty = false := by simpa using h
  have hr : makeRoom s = none := by simp [makeRoom, h1, h2, Config.clipRecords]
  simp only [markIn, he, hr, Bool.false_eq_true, if_false]

theorem keptCameras_sorted (cams : Table 4 Bool) (s : State) : (keptCameras cams s).Pairwise (· < ·) :=
  ((List.sortedLT_finRange 4).pairwise.filter _).filter _

theorem keptCameras_mem (cams : Table 4 Bool) (s : State) (p : Prog) :
    p ∈ keptCameras cams s ↔ (∃ q, cams.get q = true ∧ fold s q = p) ∧ (prog s p).state = .running := by
  simp only [keptCameras, List.mem_filter, members, List.mem_finRange, true_and, foldSet, Table.get_ofFn, List.any_eq_true,
    beq_iff_eq]

/-- The cameras kept are the one rising list of the folded cameras that are RUNNING. -/
theorem keptCameras_eq {cams : Table 4 Bool} {s : State} {kept : List Prog} (h1 : kept.Pairwise (· < ·))
    (h2 : ∀ p, p ∈ kept ↔ (∃ q, cams.get q = true ∧ fold s q = p) ∧ (prog s p).state = .running) :
    keptCameras cams s = kept := by
  have h3 := keptCameras_sorted cams s
  refine List.Perm.eq_of_pairwise (le := (· < ·)) (fun a b _ _ hab hba => absurd hba (lt_asymm hab)) h3 h1 ?_
  rw [List.perm_ext_iff_of_nodup (h3.imp fun h => ne_of_lt h) (h1.imp fun h => ne_of_lt h)]
  intro p; rw [keptCameras_mem, h2]

theorem keptCameras_fold {cams : Table 4 Bool} {s : State} {p : Prog} (h : p ∈ keptCameras cams s) : fold s p = p := by
  obtain ⟨⟨q, _, rfl⟩, _⟩ := (keptCameras_mem cams s p).1 h
  exact fold_fold s q

/-- A MARK-IN with empty text that keeps a camera and finds a free place adds one record. -/
theorem markIn_makes (source : ClipSource) (cams : Table 4 Bool) (prio : Priority) {s : State} (hm : ClipsOk s.clm)
    (hk : keptCameras cams s ≠ []) (hlen : s.clm.clips.length < 64) :
    ∃ (c : Clip) (u : State), markIn source cams prio [] s = (.ok c.number, u) ∧
      MarkedIn source prio (keptCameras cams s) s u c ∧ u = { s with pgc := u.pgc, clm := withRecord c s.clm } := by
  have he : (keptCameras cams s).isEmpty = false := by simpa using hk
  have hr : makeRoom s = some s := by simp [makeRoom, hlen, Config.clipRecords]
  obtain ⟨ahead, a1, a2, a3⟩ := pickNumber_found (s.clm.clips.map (·.number)) s.clm.next (by simpa using by omega)
    hm.next.1 hm.next.2
  generalize hkept : keptCameras cams s = kept at *
  generalize hcs : (kept.map fun p => (⟨p, placeInPoint (s.cde.loops.get p).history s.tbu.pic s.clm.preRoll⟩ : ClipCamera)) =
    cameras
  have hpend : (cameras.filter fun k => k.inPoint.isNone).map (·.prog) =
      kept.filter fun p => (placeInPoint (s.cde.loops.get p).history s.tbu.pic s.clm.preRoll).isNone := by
    rw [← hcs, List.filter_map, List.map_map]
    exact List.map_id _
  generalize hpn : (kept.filter fun p => (placeInPoint (s.cde.loops.get p).history s.tbu.pic s.clm.preRoll).isNone) = pend
    at hpend
  have hpk : ∀ p ∈ pend, p ∈ kept := by intro p hp; rw [← hpn] at hp; exact List.mem_of_mem_filter hp
  have hpm : ∀ p, p ∈ pend ↔ ({ prog := p, inPoint := none } : ClipCamera) ∈ cameras := by
    intro p
    rw [← hpn, ← hcs]
    simp only [List.mem_filter, List.mem_map, Option.isNone_iff_eq_none, ClipCamera.mk.injEq]
    constructor
    · rintro ⟨x, y⟩; exact ⟨p, x, rfl, y⟩
    · rintro ⟨q, x, rfl, y⟩; exact ⟨x, y⟩
  generalize hn : numAt s.clm.next ahead = n at *
  have hnn : nextNumber n = if n = 65535 then 1 else n + 1 := by
    have : n ≤ 65535 := by rw [← hn, numAt]; omega
    simp only [nextNumber]
    by_cases h6 : n = 65535
    · simp [h6]
    · rw [if_neg (by omega), if_neg h6]
  let c : Clip := { number := n, state := .opened, source := source, priority := prio, mark := s.tbu.pic, cameras := cameras }
  have hmi : markIn source cams prio [] s =
      (.ok n, pend.foldl (fun s p => refreshCause p s) { s with clm := withRecord c s.clm }) := by
    simp only [markIn, hkept, he, hr, Bool.false_eq_true, if_false, a1, hcs]
    rw [← hpend, List.foldl_map]
    simp only [hnn, List.take_nil]
    rfl
  obtain ⟨q1, q2, q3⟩ := refreshCauses_of pend { s with clm := withRecord c s.clm }
    (by rw [← hpn]; rw [← hkept]; exact ((keptCameras_sorted cams s).imp fun h => ne_of_lt h).filter _)
    (fun p hp => by
      rw [fold_pgc (s := { s with clm := withRecord c s.clm }) (t := s) rfl]
      exact keptCameras_fold (by rw [hkept]; exact hpk p hp))
  refine ⟨c, _, hmi, ⟨rfl, ⟨ahead, hn.symm, fun k hk2 hh => a2 (List.mem_map.2 ⟨k, hk2, hh⟩), fun j hj => ?_⟩, ?_, ?_, ?_, q2⟩, q3⟩
  · obtain ⟨k, hk2, hh⟩ := List.mem_map.1 (a3 j hj); exact ⟨k, hk2, hh⟩
  · show cameras.map (·.prog) = kept
    rw [← hcs, List.map_map]; exact List.map_id _
  · intro k hk2
    have hk2 : k ∈ cameras := hk2
    rw [← hcs] at hk2
    obtain ⟨p, _, rfl⟩ := List.mem_map.1 hk2
    exact placeInPoint_placed _ _ _
  · intro p
    have := q1 p
    simp only [hpm] at this
    exact this

/-! ### Cameras that leave the air (R140) -/

/-- A change of records that keeps their numbers keeps the table well formed. -/
theorem ClipsOk.map {m : ClipMarker} (h : ClipsOk m) (g : Clip → Clip) (hg : ∀ c, (g c).number = c.number)
    (tally : Table 4 (Option Nat)) : ClipsOk { m with clips := m.clips.map g, tally := tally } := by
  have hn : (m.clips.map g).map (·.number) = m.clips.map (·.number) := by
    rw [List.map_map]; exact List.map_congr_left fun c _ => hg c
  refine ⟨by simpa using h.size, by rw [hn]; exact h.distinct, fun c hc => ?_, h.next, by rw [hn]; exact h.acked⟩
  obtain ⟨d, hd, rfl⟩ := List.mem_map.1 hc
  rw [hg]; exact h.numbers d hd

/-- Cameras that leave the air have their OPEN tally clips enter POST-ROLL, where the setting is not 0, and have none after. -/
theorem leaveAirs_eq (l : List Prog) (s : State) (hl : l.Nodup) (hm : ClipsOk s.clm) (hp : s.clm.postRoll ≠ 0) :
    l.foldl (fun s p => leaveAir p s) s = { s with
      clm := { s.clm with
        tally := Table.ofFn fun p => if p ∈ l then none else s.clm.tally.get p
        clips := s.clm.clips.map fun c =>
          if c.state = .opened ∧ ∃ p ∈ l, s.clm.tally.get p = some c.number then
            { c with state := .postRoll, count := s.clm.postRoll }
          else c } } := by
  induction l generalizing s with
  | nil =>
    have h1 : (Table.ofFn fun p => s.clm.tally.get p) = s.clm.tally := by apply Table.ext_get; intro p; simp
    simp [h1]
  | cons a l ih =>
    rw [List.nodup_cons] at hl
    rw [List.foldl_cons]
    cases ha : s.clm.tally.get a with
    | none =>
      have : leaveAir a s = s := by simp only [leaveAir, ha]
      rw [this, ih s hl.2 hm hp]
      refine congrArg (fun m => { s with clm := m }) ?_
      simp only [ClipMarker.mk.injEq, true_and, and_true]
      refine ⟨List.map_congr_left fun c _ => by simp [ha], Table.ext_get fun p => ?_⟩
      simp only [Table.get_ofFn, List.mem_cons]
      by_cases hpa : p = a
      · subst hpa; simp [ha]
      · simp [hpa]
    | some n =>
      have : leaveAir a s = { s with
          clm := { s.clm with
            tally := s.clm.tally.set a none
            clips := s.clm.clips.map fun c => if c.number = n ∧ c.state = .opened then
              { c with state := .postRoll, count := s.clm.postRoll } else c } } := by
        simp only [leaveAir, ha, silent_markOut n s hm hp, State.onClm]
      have hm2 := hm.map (fun c => if c.number = n ∧ c.state = .opened then
        { c with state := .postRoll, count := s.clm.postRoll } else c) (fun c => by split <;> rfl) (s.clm.tally.set a none)
      rw [this]
      refine (ih { s with clm := _ } hl.2 hm2 hp).trans ?_
      refine congrArg (fun m => { s with clm := m }) ?_
      simp only [ClipMarker.mk.injEq, true_and, and_true]
      refine ⟨?_, Table.ext_get fun p => ?_⟩
      rotate_left
      · simp only [Table.get_ofFn, List.mem_cons]
        by_cases hpa : p = a
        · subst hpa; simp
        · simp [hpa, Table.get_set_ne _ _ (Ne.symm hpa)]
      · rw [List.map_map]
        apply List.map_congr_left; intro c _
        have hx : (∃ p ∈ l, (s.clm.tally.set a none).get p = some c.number) ↔ ∃ p ∈ l, s.clm.tally.get p = some c.number := by
          constructor
          all_goals
            rintro ⟨p, hp1, hp2⟩
            refine ⟨p, hp1, ?_⟩
            have hne : a ≠ p := by rintro rfl; exact hl.1 hp1
            simpa [Table.get_set_ne _ _ hne] using hp2
        by_cases hc : c.number = n ∧ c.state = .opened
        · obtain ⟨rfl, hc2⟩ := hc
          simp [hc2, ha]
        · simp only [Function.comp, hc, if_false, hx]
          by_cases ho : c.state = .opened
          · have hne : ¬ n = c.number := fun h => hc ⟨h.symm, ho⟩
            simp [ho, ha, hne]
          · simp [ho]

end Sys2Proof.Machine
end

