-- ==== Sys2Proof/Laws/Triggers.lean ====
section
/-! SUPPORT. What a sound trigger's step does, by R101's table, and the marks that it sends (R102, R103). -/

namespace Sys2Proof.Machine

/-- The block peak that trigger `i` steps on. -/
def peakOf (s : State) (i : Fin 4) : Nat := (busOf s (triggerOf s i).bus).blockPeak

theorem stepped_disabled {v : Trigger} {peak : Nat} (h : v.hi ≤ v.lo) : v.stepped peak = v := by simp [Trigger.stepped, h]

theorem onTrigger_same {i : Fin 4} {s : State} {f : Trigger → Trigger} (h : f (triggerOf s i) = triggerOf s i) :
    s.onTrigger i f = s := by
  have : s.smx.triggers.modify i f = s.smx.triggers := by
    simp only [triggerOf] at h
    simp [Table.modify, h]
  simp only [State.onTrigger, State.onSmx, this]

theorem onTrigger_onTrigger (i : Fin 4) (s : State) (f g : Trigger → Trigger) :
    (s.onTrigger i f).onTrigger i g = s.onTrigger i fun v => g (f v) := by
  simp only [State.onTrigger, State.onSmx, Table.modify_modify]

theorem onTrigger_congr {i : Fin 4} {s : State} {f g : Trigger → Trigger} (h : f (triggerOf s i) = g (triggerOf s i)) :
    s.onTrigger i f = s.onTrigger i g := by
  simp only [triggerOf] at h
  simp only [State.onTrigger, State.onSmx, Table.modify, h]

@[simp] theorem triggerOf_onTrigger (i : Fin 4) (s : State) (f : Trigger → Trigger) :
    triggerOf (s.onTrigger i f) i = f (triggerOf s i) := by
  simp [triggerOf, State.onTrigger, State.onSmx]

/-- What an opening trigger sends: its MARK-IN, whose answer is on its way. -/
def sentMarkIn (i : Fin 4) (v : Trigger) (s : State) : State :=
  let r := markIn (.trigger i) v.cameras v.priority [] s
  r.2.onSmx fun m => { m with answers := m.answers ++ [⟨i, match r.1 with | .ok n => some n | .error _ => none⟩] }

theorem triggerMarkIn_eq (i : Fin 4) (s : State) : triggerMarkIn i s =
    if (triggerOf s i).clip = .awaited then s
    else sentMarkIn i (triggerOf s i) (s.onTrigger i fun t => { t with clip := .awaited }) := by
  rfl

theorem armTrigger_open {i : Fin 4} {run : Nat} {s : State} (h : (triggerOf s i).nOpen ≤ run) :
    armTrigger i run s = if (triggerOf s i).clip = .awaited then s.onTrigger i (·.opened run)
      else sentMarkIn i (triggerOf s i) (s.onTrigger i (·.opened run)) := by
  simp only [armTrigger, if_pos h, triggerOpens, onTrigger_onTrigger, triggerMarkIn_eq, triggerOf_onTrigger]
  by_cases hc : (triggerOf s i).clip = .awaited
  · rw [if_pos hc, if_pos hc]
    apply onTrigger_congr
    simp only [Trigger.opened, satInc, ← hc]
  · rw [if_neg hc, if_neg hc]
    rfl

theorem releaseTrigger_close {i : Fin 4} {run : Nat} {s : State} (h : (triggerOf s i).nClose ≤ run) :
    releaseTrigger i run s = match (triggerOf s i).clip with
      | .number n => silentMarkOut n (s.onTrigger i (·.released run))
      | _ => s.onTrigger i (·.released run) := by
  simp only [releaseTrigger, if_pos h, triggerReleases, onTrigger_onTrigger, triggerMarkOut, triggerOf_onTrigger]
  cases hc : (triggerOf s i).clip with
  | number n =>
    simp only
    congr 1
    apply onTrigger_congr
    simp only [Trigger.released, hc]
  | awaited => simp only; apply onTrigger_congr; simp only [Trigger.released, hc]
  | absent => simp only; apply onTrigger_congr; simp only [Trigger.released, hc]

/-- A trigger's step: its record steps by R101's table, and a mark is sent where the step opens or releases it. -/
theorem stepTrigger_cases (i : Fin 4) (s : State) :
    ((triggerOf s i).MarksIn (peakOf s i) ∧
      stepTrigger i s = sentMarkIn i (triggerOf s i) (s.onTrigger i (·.stepped (peakOf s i)))) ∨
    (∃ n, (triggerOf s i).MarksOut (peakOf s i) n ∧
      stepTrigger i s = silentMarkOut n (s.onTrigger i (·.stepped (peakOf s i)))) ∨
    (¬ (triggerOf s i).MarksIn (peakOf s i) ∧ (∀ n, ¬ (triggerOf s i).MarksOut (peakOf s i) n) ∧
      stepTrigger i s = s.onTrigger i (·.stepped (peakOf s i))) := by
  have hpk : (busOf s (triggerOf s i).bus).blockPeak = peakOf s i := rfl
  generalize hv : triggerOf s i = v at *
  by_cases he : v.hi ≤ v.lo
  · right; right
    have hs : ∀ x, v.stepped x = v := fun x => stepped_disabled he
    refine ⟨fun h => ?_, fun n h => ?_, ?_⟩
    · obtain ⟨h1 | h1, h2, _⟩ := h <;> simp [hs, h1] at h2
    · obtain ⟨h1 | h1, h2, _⟩ := h <;> simp [hs, h1] at h2
    · rw [onTrigger_same (by simp only [hv]; exact hs _)]
      have : v.enabled = false := by simp [Trigger.enabled]; omega
      simp [stepTrigger, hv, this]
  · have hen : v.enabled = true := by simp [Trigger.enabled]; omega
    have hst : ∀ f : Trigger → Trigger, f v = v.stepped (peakOf s i) →
        s.onTrigger i f = s.onTrigger i (·.stepped (peakOf s i)) := fun f hf => onTrigger_congr (by simp only [hv]; exact hf)
    cases hstate : v.state with
    | idle =>
      by_cases hp : v.hi ≤ peakOf s i
      · by_cases ho : v.nOpen ≤ 1
        · have hstep : v.stepped (peakOf s i) = v.opened 1 := by simp [Trigger.stepped, he, hstate, hp, ho]
          have e : stepTrigger i s = armTrigger i 1 s := by simp [stepTrigger, hv, hen, hstate, hpk, hp]
          rw [e, armTrigger_open (by rw [hv]; exact ho), hv, hst (·.opened 1) hstep.symm]
          by_cases hc : v.clip = .awaited
          · right; right
            rw [if_pos hc]
            exact ⟨fun h => h.2.2 hc, fun n h => by simp [h.2.2] at hc, rfl⟩
          · left; rw [if_neg hc]
            exact ⟨⟨.inl hstate, by rw [hstep]; rfl, hc⟩, rfl⟩
        · right; right
          have hstep : v.stepped (peakOf s i) = { v with state := .arming, run := 1 } := by
            simp [Trigger.stepped, he, hstate, hp, ho]
          refine ⟨fun h => ?_, fun n h => ?_, ?_⟩
          · have := h.2.1; rw [hstep] at this; simp at this
          · have := h.2.1; rw [hstep] at this; simp at this
          · rw [← hst (fun t => { t with state := .arming, run := 1 }) hstep.symm]
            simp [stepTrigger, hv, hen, hstate, hpk, hp, armTrigger, ho]
      · right; right
        have hstep : v.stepped (peakOf s i) = v := by simp [Trigger.stepped, he, hstate, hp]
        refine ⟨fun h => ?_, fun n h => ?_, ?_⟩
        · have := h.2.1; rw [hstep, hstate] at this; simp at this
        · have := h.1; simp [hstate] at this
        · rw [onTrigger_same (by simp only [hv]; exact hstep)]
          simp [stepTrigger, hv, hen, hstate, hpk, hp]
    | arming =>
      by_cases hp : v.hi ≤ peakOf s i
      · have e : stepTrigger i s = armTrigger i (v.run + 1) s := by simp [stepTrigger, hv, hen, hstate, hpk, hp]
        by_cases ho : v.nOpen ≤ v.run + 1
        · have hstep : v.stepped (peakOf s i) = v.opened (v.run + 1) := by simp [Trigger.stepped, he, hstate, hp, ho]
          rw [e, armTrigger_open (by rw [hv]; exact ho), hv, hst (·.opened (v.run + 1)) hstep.symm]
          by_cases hc : v.clip = .awaited
          · right; right
            rw [if_pos hc]
            exact ⟨fun h => h.2.2 hc, fun n h => by simp [h.2.2] at hc, rfl⟩
          · left; rw [if_neg hc]
            exact ⟨⟨.inr hstate, by rw [hstep]; rfl, hc⟩, rfl⟩
        · right; right
          have hstep : v.stepped (peakOf s i) = { v with run := v.run + 1 } := by simp [Trigger.stepped, he, hstate, hp, ho]
          refine ⟨fun h => ?_, fun n h => ?_, ?_⟩
          · have := h.2.1; rw [hstep] at this; simp [hstate] at this
          · have := h.2.1; rw [hstep] at this; simp [hstate] at this
          · rw [← hst (fun t => { t with state := .arming, run := v.run + 1 }) (by rw [hstep, ← hstate]), e]
            simp [armTrigger, hv, ho]
      · right; right
        have hstep : v.stepped (peakOf s i) = { v with state := .idle, run := 0 } := by simp [Trigger.stepped, he, hstate, hp]
        refine ⟨fun h => ?_, fun n h => ?_, ?_⟩
        · have := h.2.1; rw [hstep] at this; simp at this
        · have := h.1; simp [hstate] at this
        · rw [← hst (fun t => { t with state := .idle, run := 0 }) hstep.symm]
          simp [stepTrigger, hv, hen, hstate, hpk, hp]
    | active =>
      by_cases hp : peakOf s i < v.lo
      · have e : stepTrigger i s = releaseTrigger i 1 s := by simp [stepTrigger, hv, hen, hstate, hpk, hp]
        by_cases ho : v.nClose ≤ 1
        · have hstep : v.stepped (peakOf s i) = v.released 1 := by simp [Trigger.stepped, he, hstate, hp, ho]
          rw [e, releaseTrigger_close (by rw [hv]; exact ho), hv, hst (·.released 1) hstep.symm]
          cases hc : v.clip with
          | number n => right; left; exact ⟨n, ⟨.inl hstate, by rw [hstep]; rfl, hc⟩, rfl⟩
          | absent =>
            right; right
            exact ⟨fun h => by have := h.1; simp [hstate] at this, fun n h => by simp [h.2.2] at hc, rfl⟩
          | awaited =>
            right; right
            exact ⟨fun h => by have := h.1; simp [hstate] at this, fun n h => by simp [h.2.2] at hc, rfl⟩
        · right; right
          have hstep : v.stepped (peakOf s i) = { v with state := .releasing, run := 1 } := by
            simp [Trigger.stepped, he, hstate, hp, ho]
          refine ⟨fun h => ?_, fun n h => ?_, ?_⟩
          · have := h.1; simp [hstate] at this
          · have := h.2.1; rw [hstep] at this; simp at this
          · rw [← hst (fun t => { t with state := .releasing, run := 1 }) hstep.symm, e]
            simp [releaseTrigger, hv, ho]
      · right; right
        have hstep : v.stepped (peakOf s i) = v := by simp [Trigger.stepped, he, hstate, hp]
        refine ⟨fun h => ?_, fun n h => ?_, ?_⟩
        · have := h.1; simp [hstate] at this
        · have := h.2.1; rw [hstep, hstate] at this; simp at this
        · rw [onTrigger_same (by simp only [hv]; exact hstep)]
          simp [stepTrigger, hv, hen, hstate, hpk, hp]
    | releasing =>
      by_cases hp : peakOf s i < v.lo
      · have e : stepTrigger i s = releaseTrigger i (v.run + 1) s := by simp [stepTrigger, hv, hen, hstate, hpk, hp]
        by_cases ho : v.nClose ≤ v.run + 1
        · have hstep : v.stepped (peakOf s i) = v.released (v.run + 1) := by simp [Trigger.stepped, he, hstate, hp, ho]
          rw [e, releaseTrigger_close (by rw [hv]; exact ho), hv, hst (·.released (v.run + 1)) hstep.symm]
          cases hc : v.clip with
          | number n => right; left; exact ⟨n, ⟨.inr hstate, by rw [hstep]; rfl, hc⟩, rfl⟩
          | absent =>
            right; right
            exact ⟨fun h => by have := h.1; simp [hstate] at this, fun n h => by simp [h.2.2] at hc, rfl⟩
          | awaited =>
            right; right
            exact ⟨fun h => by have := h.1; simp [hstate] at this, fun n h => by simp [h.2.2] at hc, rfl⟩
        · right; right
          have hstep : v.stepped (peakOf s i) = { v with run := v.run + 1 } := by simp [Trigger.stepped, he, hstate, hp, ho]
          refine ⟨fun h => ?_, fun n h => ?_, ?_⟩
          · have := h.1; simp [hstate] at this
          · have := h.2.1; rw [hstep] at this; simp [hstate] at this
          · rw [← hst (fun t => { t with state := .releasing, run := v.run + 1 }) (by rw [hstep, ← hstate]), e]
            simp [releaseTrigger, hv, ho]
      · right; right
        have hstep : v.stepped (peakOf s i) = { v with state := .active, run := 0 } := by simp [Trigger.stepped, he, hstate, hp]
        refine ⟨fun h => ?_, fun n h => ?_, ?_⟩
        · have := h.1; simp [hstate] at this
        · have := h.2.1; rw [hstep] at this; simp at this
        · rw [← hst (fun t => { t with state := .active, run := 0 }) hstep.symm]
          simp [stepTrigger, hv, hen, hstate, hpk, hp]

/-- A trigger's step leaves the mixer but for its own record and the answers on their way. -/
theorem stepTrigger_smx (i : Fin 4) (s : State) : ∃ sent, (stepTrigger i s).smx = { s.smx with
    triggers := s.smx.triggers.modify i (·.stepped (peakOf s i)), answers := s.smx.answers ++ sent } := by
  obtain ⟨_, h⟩ | ⟨n, _, h⟩ | ⟨_, _, h⟩ := stepTrigger_cases i s
  · rw [h]
    have := (serene_eq (markIn_serene (.trigger i) (triggerOf s i).cameras (triggerOf s i).priority []
      (s.onTrigger i (·.stepped (peakOf s i))))).2.2.2.2.2.1
    simp only [sentMarkIn, State.onSmx]
    rw [this]
    exact ⟨_, rfl⟩
  · rw [h]
    have := (serene_eq (silentMarkOut_serene n (s.onTrigger i (·.stepped (peakOf s i))))).2.2.2.2.2.1
    exact ⟨[], by rw [this]; simp [State.onTrigger, State.onSmx]⟩
  · rw [h]; exact ⟨[], by simp [State.onTrigger, State.onSmx]⟩

/-! ### Flags, and what else a step leaves -/

theorem request_keeps (o : Owner) (n : Nat) (g : EventFlag) (s : State) (h : (flagRec s g).set = true) :
    (flagRec (request o n s).2 g).set = true := by
  simp only [request]
  split
  · exact h
  · exact raiseFlag_keeps _ _ _ h

theorem requestLabel_keeps (g : EventFlag) (s : State) (h : (flagRec s g).set = true) :
    (flagRec (requestLabel s).2 g).set = true := by
  have hr := request_keeps .labelReply 1 g s h
  simp only [requestLabel]
  split
  · exact h
  · rename_i n rest _
    cases hq : request .labelReply 1 s with
    | mk bs s1 =>
      rw [hq] at hr
      cases bs with
      | none => exact hr
      | some bs =>
        simp only
        split
        · exact hr
        · exact hr

theorem silentMarkOut_keeps (n : Nat) (g : EventFlag) (s : State) (h : (flagRec s g).set = true) :
    (flagRec (silentMarkOut n s) g).set = true := by
  have hclose : ∀ (e : Pic) (s : State), (flagRec s g).set = true → (flagRec (closeClip n e s) g).set = true := by
    intro e s h
    simp only [closeClip]
    split
    · exact requestLabel_keeps _ _ h
    · exact h
  simp only [silentMarkOut, markOut]
  cases clipOf s n with
  | none => exact h
  | some c =>
    simp only [Option.bind_some]
    split
    · simp only [Option.getD_some, startPostRoll, runOut]
      split
      · split
        · exact h
        · split
          · exact hclose _ _ h
          · exact h
      · exact h
    · exact h
    · exact h

theorem markIn_keeps (source : ClipSource) (cams : Table 4 Bool) (prio : Priority) (text : List Byte) (g : EventFlag) (s : State)
    (h : (flagRec s g).set = true) : (flagRec (markIn source cams prio text s).2 g).set = true := by
  have hcmu : ∀ (l : List ClipCamera) (u : State), (l.foldl (fun s k => refreshCause k.prog s) u).cmu = u.cmu := by
    intro l
    induction l with
    | nil => intro u; rfl
    | cons a l ih => intro u; rw [List.foldl_cons, ih]; rfl
  simp only [markIn]
  split
  · exact h
  · cases hr : makeRoom s with
    | none => exact raiseFlag_keeps _ _ _ h
    | some s1 =>
      have h1 : s1.cmu = s.cmu := by
        simp only [makeRoom] at hr
        split at hr
        · injection hr with hr; rw [← hr]
        · split at hr
          · cases hr
          · injection hr with hr; rw [← hr]; rfl
      simp only [flagRec, hcmu] at h ⊢
      show (s1.cmu.flags.get _).set = true
      rw [h1]; exact h

theorem stepTrigger_keeps (i : Fin 4) (g : EventFlag) (s : State) (h : (flagRec s g).set = true) :
    (flagRec (stepTrigger i s) g).set = true := by
  obtain ⟨_, e⟩ | ⟨n, _, e⟩ | ⟨_, _, e⟩ := stepTrigger_cases i s
  · rw [e]; exact markIn_keeps _ _ _ _ _ _ h
  · rw [e]; exact silentMarkOut_keeps _ _ _ h
  · rw [e]; exact h

/-- What a trigger's step never touches. -/
theorem stepTrigger_leaves (i : Fin 4) (s : State) :
    (stepTrigger i s).pending = s.pending ∧ (stepTrigger i s).tbu = s.tbu ∧ (stepTrigger i s).ports = s.ports ∧
    (stepTrigger i s).cde = s.cde ∧ (stepTrigger i s).ral = s.ral ∧ (stepTrigger i s).sdp = s.sdp ∧
    (stepTrigger i s).lsu = s.lsu ∧ (stepTrigger i s).sri = s.sri ∧ (stepTrigger i s).cmu.van = s.cmu.van ∧
    (stepTrigger i s).cmu.home = s.cmu.home := by
  obtain ⟨_, e⟩ | ⟨n, _, e⟩ | ⟨_, _, e⟩ := stepTrigger_cases i s
  · rw [e]
    obtain ⟨h1, h2, h3, h4, h5, -, h7, h8, h9, -, -, h12, h13, -⟩ := serene_eq (markIn_serene (.trigger i)
      (triggerOf s i).cameras (triggerOf s i).priority [] (s.onTrigger i (·.stepped (peakOf s i))))
    exact ⟨h1, h2, h3, h4, h5, h7, h8, h9, h12, h13⟩
  · rw [e]
    obtain ⟨h1, h2, h3, h4, h5, -, h7, h8, h9, -, -, h12, h13, -⟩ := serene_eq (silentMarkOut_serene n
      (s.onTrigger i (·.stepped (peakOf s i))))
    exact ⟨h1, h2, h3, h4, h5, h7, h8, h9, h12, h13⟩
  · rw [e]; exact ⟨rfl, rfl, rfl, rfl, rfl, rfl, rfl, rfl, rfl, rfl⟩

/-! ### The four triggers at one mix -/

/-- The four triggers step, each on its own record and the block peak of its bus. -/
theorem stepTriggers_smx (s : State) : ∃ sent, (four.foldl (fun s i => stepTrigger i s) s).smx = { s.smx with
    triggers := Table.ofFn fun i => (triggerOf s i).stepped (peakOf s i), answers := s.smx.answers ++ sent } := by
  have key : ∀ (l done : List (Fin 4)) (u : State), (done ++ l).Nodup →
      (∃ sent, u.smx = { s.smx with
        triggers := Table.ofFn fun i => if i ∈ done then (triggerOf s i).stepped (peakOf s i) else triggerOf s i
        answers := s.smx.answers ++ sent }) →
      ∃ sent, (l.foldl (fun s i => stepTrigger i s) u).smx = { s.smx with
        triggers := Table.ofFn fun i => if i ∈ done ++ l then (triggerOf s i).stepped (peakOf s i) else triggerOf s i
        answers := s.smx.answers ++ sent } := by
    intro l
    induction l with
    | nil => intro done u _ h; simpa using h
    | cons a l ih =>
      rintro done u hn ⟨sent, h⟩
      rw [List.foldl_cons, show done ++ a :: l = (done ++ [a]) ++ l by simp]
      apply ih
      · simpa using hn
      · have ha : a ∉ done := by
          rw [List.nodup_append] at hn
          intro hd; exact hn.2.2 a hd a (List.mem_cons_self ..) rfl
        have ht : triggerOf u a = triggerOf s a := by simp [triggerOf, h, ha]
        have hp : peakOf u a = peakOf s a := by
          simp only [peakOf, ht, busOf, h]
        obtain ⟨more, hm⟩ := stepTrigger_smx a u
        refine ⟨sent ++ more, ?_⟩
        rw [hm, hp]
        have htab : u.smx.triggers.modify a (·.stepped (peakOf s a)) = Table.ofFn fun i =>
            if i ∈ done ++ [a] then (triggerOf s i).stepped (peakOf s i) else triggerOf s i := by
          apply Table.ext_get; intro i
          by_cases hi : a = i
          · subst hi
            have : u.smx.triggers.get a = triggerOf s a := ht
            simp [this]
          · rw [Table.get_modify_ne _ _ hi, h]
            simp [Ne.symm hi]
        rw [htab, h]
        simp
  have ht : (Table.ofFn fun i => s.smx.triggers.get i) = s.smx.triggers := Table.ext_get fun i => by simp
  have := key four [] s (by decide) ⟨[], by simp [triggerOf, ht]⟩
  have hall : ∀ i : Fin 4, i ∈ ([] ++ four : List (Fin 4)) := by decide
  simpa only [hall, if_true] using this

/-- What the triggers' steps never touch, and the flags they keep set. -/
theorem stepTriggers_leaves (l : List (Fin 4)) (s : State) : ∀ u, u = l.foldl (fun s i => stepTrigger i s) s →
    u.pending = s.pending ∧ u.tbu = s.tbu ∧ u.ports = s.ports ∧ u.cde = s.cde ∧ u.ral = s.ral ∧ u.sdp = s.sdp ∧
    u.lsu = s.lsu ∧ u.sri = s.sri ∧ u.cmu.van = s.cmu.van ∧ u.cmu.home = s.cmu.home ∧
    ∀ g, (flagRec s g).set = true → (flagRec u g).set = true := by
  rintro u rfl
  induction l generalizing s with
  | nil => exact ⟨rfl, rfl, rfl, rfl, rfl, rfl, rfl, rfl, rfl, rfl, fun _ h => h⟩
  | cons a l ih =>
    obtain ⟨h1, h2, h3, h4, h5, h6, h7, h8, h9, h10, h11⟩ := ih (stepTrigger a s)
    obtain ⟨g1, g2, g3, g4, g5, g6, g7, g8, g9, g10⟩ := stepTrigger_leaves a s
    rw [List.foldl_cons]
    exact ⟨h1.trans g1, h2.trans g2, h3.trans g3, h4.trans g4, h5.trans g5, h6.trans g6, h7.trans g7, h8.trans g8,
      h9.trans g9, h10.trans g10, fun g h => h11 g (stepTrigger_keeps a g s h)⟩

/-- The trigger's step sends no mark. -/
def Unmarked (s : State) (i : Fin 4) : Prop :=
  ¬ (triggerOf s i).MarksIn (peakOf s i) ∧ ∀ n, ¬ (triggerOf s i).MarksOut (peakOf s i) n

/-- Triggers that send no mark change their own records alone. -/
theorem stepTriggers_unmarked (l : List (Fin 4)) (s : State) (hn : l.Nodup) (h : ∀ i ∈ l, Unmarked s i) :
    ∃ T : Table 4 Trigger, l.foldl (fun s i => stepTrigger i s) s = { s with smx := { s.smx with triggers := T } } ∧
      ∀ k, k ∉ l → T.get k = s.smx.triggers.get k := by
  induction l generalizing s with
  | nil => exact ⟨s.smx.triggers, rfl, fun _ _ => rfl⟩
  | cons a l ih =>
    rw [List.nodup_cons] at hn
    have ha := h a (List.mem_cons_self ..)
    have e : stepTrigger a s = s.onTrigger a (·.stepped (peakOf s a)) := by
      obtain ⟨h1, -⟩ | ⟨n, h1, -⟩ | ⟨-, -, e⟩ := stepTrigger_cases a s
      · exact absurd h1 ha.1
      · exact absurd h1 (ha.2 n)
      · exact e
    have hk : ∀ k, k ≠ a → triggerOf (stepTrigger a s) k = triggerOf s k := by
      intro k hk; rw [e]; exact Table.get_modify_ne _ _ (Ne.symm hk)
    have hp : ∀ k, k ≠ a → peakOf (stepTrigger a s) k = peakOf s k := by
      intro k hk2; simp only [peakOf, hk k hk2, busOf]; rw [e]; rfl
    obtain ⟨T, h1, h2⟩ := ih (stepTrigger a s) hn.2 fun i hi => by
      have hia : i ≠ a := by rintro rfl; exact hn.1 hi
      simp only [Unmarked, hk i hia, hp i hia]; exact h i (List.mem_cons_of_mem _ hi)
    refine ⟨T, by rw [List.foldl_cons, h1, e]; rfl, fun k hk2 => ?_⟩
    rw [List.mem_cons, not_or] at hk2
    rw [h2 k hk2.2]; exact hk k hk2.1

/-- Where one trigger alone sends a mark, the four steps come to its own, but for the other triggers' records. -/
theorem stepTriggers_one (i : Fin 4) (s : State) (h : ∀ k, k ≠ i → Unmarked s k) : ∃ T U : Table 4 Trigger,
    T.get i = s.smx.triggers.get i ∧
    four.foldl (fun s i => stepTrigger i s) s =
      let r := stepTrigger i { s with smx := { s.smx with triggers := T } }
      { r with smx := { r.smx with triggers := U } } := by
  obtain ⟨l1, l2, hl⟩ := List.append_of_mem ((by decide : ∀ i : Fin 4, i ∈ (four : List (Fin 4))) i)
  have hnd : (l1 ++ i :: l2).Nodup := by rw [← hl]; decide
  rw [List.nodup_append, List.nodup_cons] at hnd
  obtain ⟨n1, ⟨n2, n3⟩, n4⟩ := hnd
  have i1 : i ∉ l1 := fun hi => n4 i hi i (List.mem_cons_self ..) rfl
  obtain ⟨T, t1, t2⟩ := stepTriggers_unmarked l1 s n1 fun k hk => h k (by rintro rfl; exact i1 hk)
  have hT : ∀ k, k ∉ l1 → triggerOf ({ s with smx := { s.smx with triggers := T } } : State) k = triggerOf s k := t2
  generalize hr : stepTrigger i ({ s with smx := { s.smx with triggers := T } } : State) = r
  obtain ⟨sent, hsmx⟩ := stepTrigger_smx i ({ s with smx := { s.smx with triggers := T } } : State)
  rw [hr] at hsmx
  have hk : ∀ k, k ∉ l1 → k ≠ i → triggerOf r k = triggerOf s k ∧ peakOf r k = peakOf s k := by
    intro k k1 k2
    have e1 : triggerOf r k = triggerOf s k := by
      simp only [triggerOf, hsmx]
      rw [Table.get_modify_ne _ _ (Ne.symm k2)]; exact t2 k k1
    exact ⟨e1, by simp only [peakOf, e1, busOf, hsmx]⟩
  obtain ⟨U, u1, -⟩ := stepTriggers_unmarked l2 r n3 fun k hk2 => by
    have k1 : k ∉ l1 := fun hx => n4 k hx k (List.mem_cons_of_mem _ hk2) rfl
    have k2 : k ≠ i := by rintro rfl; exact n2 hk2
    obtain ⟨e1, e2⟩ := hk k k1 k2
    simp only [Unmarked, e1, e2]; exact h k k2
  refine ⟨T, U, t2 i i1, ?_⟩
  rw [hl, List.foldl_append, List.foldl_cons, t1, hr, u1]

end Sys2Proof.Machine
end

