-- ==== Sys2Proof/WellFormed.lean ====
section
/-! DEFINITION. Well-formed commands: operands that the wire of chapter 12 can carry. A number fits its field's bytes, a
list or text fits its record's length byte, a message fits its 448 bytes, a cell has its 64. What an owner refuses or clamps
is not judged here. -/

namespace Sys2Proof

/-- An absent number, or one of so many bytes (12.1). -/
def fits (bytes : Nat) (v : Option Nat) : Bool := v.all fun n => decide (n < 256 ^ bytes)

/-- An absent list of one-byte numbers, or one that a record's length byte can count (12.1). -/
def listFits (l : Option (List Nat)) : Bool := l.all fun l => decide (l.length ≤ 255) && l.all fun n => decide (n < 256)

/-- An absent text, or one that a record's length byte can count (12.1). -/
def textFits (t : Option (List Byte)) : Bool := t.all fun t => decide (t.length ≤ 255)

def TimebaseFields.wf (f : TimebaseFields) : Bool :=
  fits 2 f.base && fits 1 f.num && fits 1 f.den && fits 1 f.rate && fits 4 f.origin

def FormatFields.wf (f : FormatFields) : Bool := fits 1 f.entry && fits 1 f.width && fits 1 f.bands

def ProgFields.wf (f : ProgFields) : Bool :=
  fits 1 f.prog && fits 1 f.enable && fits 1 f.format && fits 1 f.group && fits 1 f.factor && fits 1 f.qMin &&
  fits 1 f.qMax && fits 1 f.offset && fits 2 f.bandLimit && fits 1 f.action && fits 1 f.latency && fits 2 f.delay &&
  fits 1 f.hold && fits 1 f.guard && fits 1 f.pair

def RateFields.wf (f : RateFields) : Bool :=
  fits 1 f.prog && fits 1 f.weight && fits 1 f.boost && fits 4 f.minRate && fits 4 f.maxRate && fits 4 f.rDown &&
  fits 4 f.rUp && fits 1 f.collapse && fits 1 f.step && fits 1 f.headroom && fits 2 f.labelReserve

def MapFields.wf (f : MapFields) : Bool :=
  decide (f.entries.length ≤ 85) && fits 1 f.output &&
  f.entries.all fun e => fits 1 (some e.stream) && fits 1 (some e.dest) && fits 1 (some e.index)

def InputFields.wf (f : InputFields) : Bool :=
  fits 1 f.input && fits 2 f.trim && fits 1 f.mute && listFits f.groups && fits 1 f.policy

/-- The entries of a MIX-SET, 4 bytes each (12.1). -/
def mixWf (l : List MixEntry) : Bool :=
  decide (l.length ≤ 63) && l.all fun e => fits 1 (some e.input) && fits 1 (some e.bus) && fits 2 (some e.cross)

def BusFields.wf (f : BusFields) : Bool :=
  fits 1 f.bus && fits 2 f.master && fits 2 f.decay && fits 1 f.lag && f.groups.vals.all (fits 1)

def TriggerFields.wf (f : TriggerFields) : Bool :=
  fits 1 f.trigger && fits 1 f.bus && fits 4 f.hi && fits 4 f.lo && fits 1 f.nOpen && fits 1 f.nClose &&
  listFits f.cameras && fits 1 f.priority

def StreamFields.wf (f : StreamFields) : Bool :=
  fits 1 f.stream && fits 1 f.enable && fits 1 f.left && fits 1 f.right && fits 1 f.width && f.linked.all (fits 1) &&
  fits 4 f.fixedDelay && (f.trim.all fun t => decide (-32768 ≤ t ∧ t ≤ 32767)) && fits 2 f.allowance

/-- A clip number in two bytes, a desk in one (R125). -/
def ClipRef.wf (r : ClipRef) : Bool := fits 2 r.clip && fits 1 r.desk

def MarkFields.wf (f : MarkFields) : Bool := f.ref.wf && listFits f.cameras && fits 1 f.priority && textFits f.text

def ClipSettingsFields.wf (f : ClipSettingsFields) : Bool :=
  fits 1 f.preRoll && fits 1 f.postRoll && fits 1 f.autoMark && fits 1 f.tallyPriority

def LinkFields.wf (f : LinkFields) : Bool :=
  fits 1 f.link && fits 1 f.share && listFits f.kinds && fits 2 f.burst && fits 4 f.floor && fits 4 f.ackTimeout &&
  fits 1 f.minFraction && fits 1 f.count && fits 4 f.proveTimeout && fits 4 f.retryTime &&
  (f.actions.all fun l => decide (l.length ≤ 127) && l.all fun p => fits 1 (some p.1) && fits 1 (some p.2)) &&
  f.caps.vals.all (fits 2)

/-- The object of a STATUS-QUERY: its kind and its numbers, one byte each (12.1). -/
def QueryFields.wf (f : QueryFields) : Bool :=
  fits 1 f.block && f.object.all fun o => fits 1 (some o.1) && decide (o.2.length ≤ 254) && o.2.all fun n => fits 1 (some n)

def ClearList.wf : ClearList → Bool
  | .flags l => listFits (some l)
  | .all => true

def AuthorityFields.wf (f : AuthorityFields) : Bool := fits 1 f.authority && fits 1 f.noticesHome

/-- A command whose operands the wire can carry. -/
def Instr.wf : Instr → Bool
  | .powerOnReset | .ringFrameStart _ | .missedFrame | .localTick | .periodStart | .codeStart | .fragmentClose => true
  | .bandCompletion coded => decide (coded.length ≤ 65527)
  | .blockEvent | .pictureStartSignal _ | .pictureEndComplete _ | .pictureEndBroken _ | .soundCell _ _ _ => true
  | .tallyCell _ _ body => decide (body.length = 56)
  | .controlFirstCell _ _ _ _ _ body => decide (body.length = 56)
  | .controlContinuationCell _ _ body => decide (body.length = 56)
  | .timebaseSet _ f => f.wf
  | .formatSet _ f => f.wf
  | .programmeSet _ f => f.wf
  | .programmeStart _ p => fits 1 p
  | .programmeStopCut _ p _ => fits 1 p
  | .programmeStopFinish _ p _ => fits 1 p
  | .programmeStopFreeze _ p _ => fits 1 p
  | .refresh _ p => fits 1 p
  | .rateSet _ f => f.wf
  | .inputMap _ f => f.wf
  | .inputSet _ f => f.wf
  | .mixSet _ l => mixWf l
  | .busSet _ f => f.wf
  | .triggerSet _ f => f.wf
  | .soundStreamSet _ f => f.wf
  | .clipMarkIn _ f => f.wf
  | .clipMarkOut _ f => f.wf
  | .clipMarkExtend _ f => f.wf
  | .clipMarkCancel _ f => f.wf
  | .clipLabel _ r t => r.wf && textFits t
  | .clipQuery _ r => r.wf
  | .clipSettings _ f => f.wf
  | .linkSet _ f => f.wf
  | .linkUp _ l => fits 1 l
  | .linkDown _ l => fits 1 l
  | .linkClear _ l => fits 1 l
  | .statusQuery _ f => f.wf
  | .eventsClear _ l => l.wf
  | .resetMedia _ | .resetAll _ => true
  | .authoritySet _ f => f.wf
  | .unknownCommand _ _ message => decide (message.length ≤ 448)
  | .ack _ _ _ | .refreshPacket _ => true
  | .controlPacket _ _ _ message => decide (message.length ≤ 65535)
  | .capacityReport _ _ | .faultReport _ _ | .takenReport _ _ _ | .probeBuild _ | .provingDeadline _ | .retryExpiry _ => true
  | .recoveryExpiry _ | .windowEnd _ | .ackTimeout _ | .triggerAnswer _ => true
  | .unroutedCell cell => decide (cell.length = 64)
  | .ignoredReturnPacket bytes => !bytes.isEmpty
  | .ignoredModemReport _ bytes => !bytes.isEmpty

end Sys2Proof
end

