-- ==== Sys2Proof/Tests/Slice0.lean ====
section
/-! SUPPORT. Tests: ill-formed commands that `Instr.wf` refuses, message bytes written out by chapter 12, the manual's worked
figures, and, for each statement of Certificates/Slice0, concrete states and operands that meet its hypotheses. -/

namespace Sys2Proof.Machine.Tests

set_option Elab.async false

/-! ### Small states -/

/-- A message from the control stream with tag 7, and one from home. -/
def van : Hdr := ⟨.van 255 none, 7⟩
def home : Hdr := ⟨.home, 7⟩

/-- The part after reset with a short free list, each owner's cap 64 and the block event of tick 0 not due. -/
def small : State :=
  { State.reset with pkp := { free := [0, 1, 2, 3, 4, 5, 6, 7, 8, 9, 10, 11], owners := Table.replicate 6 { cap := 64 } } }

def withTbu (t : Timebase) : State := { small with tbu := t }

/-- `small` with the record of one programme. -/
def withProg (p : Prog) (r : Programme) : State := small.onProg p fun _ => r

/-- `small` with the record of one link. -/
def withLink (l : Link) (r : LinkRecord) : State := small.onLink l fun _ => r

/-- `small` with the Clip Marker's state. -/
def withClips (m : ClipMarker) : State := { small with clm := m }

/-- A locked Timebase Unit at tick 100 in the middle of a period. -/
def locked : Timebase := { lock := .locked, tick := 100, run := 48, period := some ⟨960, 500⟩ }

/-- A clip of P0 whose in-point is picture 5. -/
def clip (n : Nat) (st : ClipState) : Clip :=
  { number := n, state := st, source := .home, priority := .normal, mark := 5, cameras := [⟨0, some ⟨5, false⟩⟩] }

/-- The state that a command leaves; every command answers a next state. -/
def after (c : Instr) (s : State) : State :=
  match exec c s with
  | .next t => t
  | _ => s

/-- The status of the last reply in the ring output queue, by its number of 11.3, where the reply fits one cell. -/
def status (s : State) : Option Byte := s.sri.queue.getLast?.map fun c => byteAt c 9


/-! ### Witnesses: chapters 1 and 2 -/

theorem test_witness_step : ({ small with pending := [.missedFrame] } : State).pending = [.missedFrame] ∧
    (∃ t, exec .powerOnReset small = .next t) := ⟨rfl, _, rfl⟩

theorem test_witness_reset : VanReady van 255 small := by unfold VanReady Quiet NoOwed; decide +kernel

/-- R3 at the last run count and the last consecutive interval that do not complete the lock. -/
theorem test_witness_unlocked (s : State) (hs : s = withTbu { run := 46 }) :
    Quiet s ∧ NothingDue s ∧ s.tbu.lock = .unlocked ∧ s.sri.queue = [] ∧ s.cmu.notices = [] ∧ s.tbu.run < 47 := by
  subst hs; unfold Quiet NoOwed NothingDue; decide +kernel

/-- R4 at the last miss that keeps the lock, and at the one that ends it. -/
theorem test_witness_locked (m : Nat) (hm : m = 6 ∨ m = 7) (s : State) (hs : s = withTbu { locked with miss := m }) :
    Quiet s ∧ NothingDue s ∧ s.tbu.lock = .locked ∧ s.sri.queue = [] ∧ s.cmu.notices = [] ∧
    (s.tbu.miss < 7 ∨ s.tbu.miss = 7) := by
  subst hs; rcases hm with rfl | rfl <;> (unfold Quiet NoOwed NothingDue; decide +kernel)

/-- R5: a holdover one consecutive frame start before the return, and at it. -/
theorem test_witness_holdover (r : Nat) (hr : r = 46 ∨ r = 47) (s : State)
    (hs : s = withTbu { locked with lock := .holdover, miss := 8, run := r }) :
    Quiet s ∧ NothingDue s ∧ s.tbu.lock = .holdover ∧ s.sri.queue = [] ∧ s.cmu.notices = [] ∧
    (¬(24 ≤ 24 ∧ 47 ≤ s.tbu.run) ∨ 24 ≤ 24 ∧ s.tbu.run = 47) := by
  subst hs; rcases hr with rfl | rfl <;> (unfold Quiet NoOwed NothingDue; decide +kernel)

/-- A notice of no command. -/
def notice : Notice := { body := .linkDown 0, tick := 0, pic := 0 }

theorem test_witness_slot (q : List (List Byte)) (n : List Notice)
    (hq : (q, n) = ([[1]], [notice]) ∨ (q, n) = ([], [notice]) ∨ (q, n) = ([], [])) (s : State)
    (hs : s = { withTbu locked with sri := { queue := q }, cmu := { notices := n } }) :
    Quiet s ∧ NothingDue s ∧ s.tbu.lock = .locked ∧ s.sri.queue = q ∧ s.cmu.notices = n := by
  subst hs
  rcases hq with h | h | h <;> (cases h; unfold Quiet NoOwed NothingDue; decide +kernel)

/-- R6: the last accumulator that gives B ticks and the first that gives B + 1. -/
theorem test_witness_periodStart (a : Nat) (ha : a = 2 ∨ a = 3) (s : State)
    (hs : s = withTbu { locked with num := 2, den := 5, acc := a, period := some ⟨800, 0⟩ }) :
    Quiet s ∧ periodDue s = true ∧ (s.tbu.acc + s.tbu.num < s.tbu.den ∨ s.tbu.den ≤ s.tbu.acc + s.tbu.num) := by
  subst hs; rcases ha with rfl | rfl <;> (unfold Quiet NoOwed; decide +kernel)

theorem test_witness_firstPeriod (s : State) (hs : s = withTbu { run := 47 }) :
    Quiet s ∧ NothingDue s ∧ s.tbu.lock = .unlocked ∧ 24 ≤ 24 ∧ s.tbu.run = 47 := by
  subst hs; unfold Quiet NoOwed NothingDue; decide +kernel

theorem test_witness_cadence : step State.reset = .next State.reset ∧ CadenceOk State.reset.tbu :=
  ⟨rfl, ⟨by decide, by decide, by decide, by decide, by decide, by decide⟩⟩

theorem test_witness_ringMap : step State.reset = .next State.reset ∧ MapOk State.reset.sri :=
  ⟨rfl, ⟨⟨255, by decide +kernel⟩, by decide +kernel⟩⟩

theorem test_witness_timebaseSet (s : State) (hs : s = withProg 3 { state := .freezing }) :
    VanReady van 255 s ∧ (prog s 3).state = .freezing ∧
    CadenceOk small.tbu ∧ (∀ p, (prog small p).state = .idle) := by
  subst hs
  refine ⟨by unfold VanReady Quiet NoOwed; decide +kernel, by decide, ?_, by decide⟩
  exact ⟨by decide, by decide, by decide, by decide, by decide, by decide⟩

/-- R22 at the last entry and the first number past it; entry 7 of an active programme and of an idle one. -/
theorem test_witness_formatSet (s : State) (hs : s = withProg 1 { state := .running, cfg := { format := 7 } }) :
    VanReady van 255 s ∧ VanReady van 255 small ∧ (∃ n, (some 8 : Option Nat) = some n ∧ 7 < n) ∧
    (prog s 1).cfg.format = 7 ∧ (prog s 1).state = .running ∧
    (∀ p, (prog small p).cfg.format = 0 → (prog small p).state = .idle) := by
  subst hs
  exact ⟨by unfold VanReady Quiet NoOwed; decide +kernel, by unfold VanReady Quiet NoOwed; decide +kernel,
    ⟨8, rfl, by decide⟩, by decide, by decide, by decide⟩

/-- R23, R24, R32: a number past the programmes, a RUNNING programme, a pair field of P3, an enable of 3, and a command that
stores. -/
theorem test_witness_programmeSet (s : State) (hs : s = withProg 3 { state := .running }) :
    VanReady van 255 s ∧ (∃ n, (some 4 : Option Nat) = some n ∧ 3 < n) ∧
    ((prog s 3).state ≠ .idle ∧ (prog s 3).state ≠ .ready) ∧
    VanReady van 255 small ∧ (prog small 3).state = .idle ∧ (3 : Prog).val % 2 = 1 ∧ (some 1 : Option Nat) ≠ none ∧
    (∀ v, (some 3 : Option Nat) = some v → v ≠ 1 ∧ v ≠ 2) ∧
    (some 1 : Option Nat).getD (onOff (prog small 3).cfg.enable) = (if true then 1 else 2) ∧
    (none : Option Nat).getD (prog small 3).cfg.action.code = LimitAction.report.code := by
  subst hs
  refine ⟨by unfold VanReady Quiet NoOwed; decide +kernel, ⟨4, rfl, by decide⟩, by decide,
    by unfold VanReady Quiet NoOwed; decide +kernel, by decide, by decide, by decide, ?_, by decide, by decide⟩
  intro v h; cases h; decide

/-- R32: a pair to be formed, one refused by its odd member, and one to be dissolved. -/
theorem test_witness_pairs (s : State) (hs : s = withProg 3 { state := .running })
    (u : State) (hu : u = withProg 2 { pair := true }) :
    VanReady van 255 small ∧ (2 : Prog).val % 2 = 0 ∧ (prog small 2).state = .idle ∧
    (prog small 2).cfg.qMin ≤ (prog small 2).cfg.qMax ∧ (prog small 2).pair = false ∧ (prog small (2 + 1)).state = .idle ∧
    (∀ l, (sched small l).reservation = none) ∧
    VanReady van 255 s ∧ (prog s 2).state = .idle ∧ (prog s 2).pair = false ∧ (prog s (2 + 1)).state ≠ .idle ∧
    (prog s (2 + 1)).state ≠ .ready ∧
    VanReady van 255 u ∧ (prog u 2).state = .idle ∧ (prog u 2).cfg.qMin ≤ (prog u 2).cfg.qMax ∧ (prog u 2).pair = true := by
  subst hs hu; unfold VanReady Quiet NoOwed; decide +kernel

/-- R25: a READY programme with a usable entry, and one without. -/
theorem test_witness_programmeStart (s : State)
    (hs : s = (withProg 0 { state := .ready }).onPgc fun c => { c with formats := c.formats.set 0 ⟨1, 1⟩ }) :
    VanReady van 255 s ∧ (prog s 0).state = .ready ∧ (formatOf s 0).width ≠ 0 ∧ (formatOf s 0).bands ≠ 0 ∧
    isPairedOdd s 0 = false ∧ VanReady van 255 small ∧ (prog small 0).state ≠ .ready := by
  subst hs; unfold VanReady Quiet NoOwed; decide +kernel

/-- R36, from the ring and from home. -/
theorem test_witness_refresh :
    VanReady van 255 small ∧ Quiet small ∧ home.src = .home ∧ small.cmu.authority ≠ .van ∧ NoLinkCarries small ∧
    small.cmu.held = none ∧ small.pkp.free = 0 :: [1, 2, 3, 4, 5, 6, 7, 8, 9, 10, 11] ∧
    (small.pkp.owners.get 5).count + 1 ≤ (small.pkp.owners.get 5).cap := by
  unfold VanReady NoLinkCarries Quiet NoOwed; decide +kernel

/-- R35: the newest anchor one picture inside the guard, and at it. -/
theorem test_witness_refreshPacket (g : Nat) (hg : g = 10 ∨ g = 9) (s : State)
    (hs : s = ({ withProg 3 { cfg := { guard := g } } with tbu := { locked with pic := 109 } } : State).onLoop 3
      fun c => { c with history := [100] }) :
    Quiet s ∧ (3 : Byte).toNat = (3 : Prog).val ∧ 4 ≤ (4 : Byte).toNat ∧ (loopOf s 3).history = 100 :: [] ∧
    (prog s (3 - 1)).pair = false ∧ (s.tbu.pic - 100).toNat ≤ 2147483647 ∧
    ((s.tbu.pic - 100).toNat < (prog s 3).cfg.guard ∨ (prog s 3).cfg.guard ≤ (s.tbu.pic - 100).toNat) := by
  subst hs; rcases hg with rfl | rfl <;> (unfold Quiet NoOwed; decide +kernel)

/-- R27 to R31: an IDLE programme refuses; a RUNNING one with a stop open, and a STARTING one, stop. -/
theorem test_witness_programmeStop (st : ProgState) (hst : st = .idle ∨ st = .starting ∨ st = .running) (s : State)
    (hs : s = withProg 0 { state := st, openStop := some ⟨1, .van⟩ }) :
    VanReady van 255 s ∧ (prog s 0).state = st ∧ (prog s 0).openStop = some ⟨1, .van⟩ ∧ entryOf s 0 = none ∧
    (∀ c ∈ s.clm.clips, c.pendingOn 0 = false) ∧ s.cmu.noticesHome = false ∧ s.cmu.notices.length < 32 ∧
    (∀ l, (sched s l).reservation = none) := by
  subst hs; rcases hst with rfl | rfl | rfl <;> (unfold VanReady Quiet NoOwed; decide +kernel)

/-- R17, R20, R21: a store with room, one of two pictures, and a LOST input. -/
theorem test_witness_pictures (s : State)
    (hs : s = (withProg 2 { state := .running }).onPort 2 fun _ => { store := [⟨1, false⟩, ⟨2, false⟩] })
    (u : State) (hu : u = (withProg 2 { input := .lost }).onPort 2 fun _ => { store := [⟨1, true⟩] }) :
    Quiet small ∧ (prog small (fold small 2)).input ≠ .lost ∧ (small.ports.get 2).store.length ≤ 1 ∧
    Quiet s ∧ (prog s (fold s 2)).input ≠ .lost ∧ (s.ports.get 2).store = [⟨1, false⟩, ⟨2, false⟩] ∧
    (prog s (fold s 2)).state = .running ∧
    Quiet u ∧ (2 : Prog) = fold u 2 ∧ (prog u 2).input = .lost ∧ (u.ports.get 2).store.length ≤ 1 := by
  subst hs hu; unfold Quiet NoOwed; decide +kernel


/-! ### Witnesses: chapters 2 to 6 -/

/-- A Timebase Unit whose code start of picture 9 is due. -/
def atCodeStart : Timebase := { locked with pic := 9, codeStarts := [⟨9, 100⟩] }

/-- `small` at that code start, with the record of P0 and a usable format entry. -/
def starting (r : Programme) : State :=
  ({ withProg 0 r with tbu := atCodeStart } : State).onPgc fun c => { c with formats := c.formats.set 0 ⟨45, 30⟩ }

/-- A code start that begins a picture: P0 RUNNING, one picture offered, the engine idle, a target of 1 bit. -/
theorem test_witness_begin (s : State)
    (hs : s = ((starting { state := .running }).onPort 0 fun _ => { store := [⟨1, true⟩, ⟨2, false⟩] }).onRate 0
      fun r => { r with anchorTarget := 1, followTarget := 1 }) :
    Quiet s ∧ codeStartDue s = some ⟨9, 100⟩ ∧ Alone 0 s ∧ (prog s 0).state = .running ∧ (prog s 0).pair = false ∧
    entryOf s 0 = none ∧ (prog s 0).skipNext = false ∧ s.cde.band = none ∧ (formatOf s 0).bands ≠ 0 ∧
    (s.ports.get 0).store = [⟨1, true⟩] ++ [⟨2, false⟩] ∧ (∀ k ∈ s.clm.clips, k.pendingOn 0 = false) ∧
    (rateOf s 0).followTarget ≠ 0 := by
  subst hs; unfold Quiet NoOwed Alone; decide +kernel

/-- A code start without a picture, at the gap counts on both sides of LOST. -/
theorem test_witness_skip (g : Nat) (hg : g = 23 ∨ g = 24) (s : State) (hs : s = starting { state := .running, gapCount := g }) :
    Quiet s ∧ NoLinkCarries s ∧ codeStartDue s = some ⟨9, 100⟩ ∧ Alone 0 s ∧ (prog s 0).state = .running ∧
    (prog s 0).pair = false ∧ entryOf s 0 = none ∧ (prog s 0).skipNext = false ∧ (s.ports.get 0).store = [] ∧
    (rateOf s 0).fullness ≤ (rateOf s 0).limit ∧ s.pkp.free = 0 :: [1, 2, 3, 4, 5, 6, 7, 8, 9, 10, 11] ∧
    (s.pkp.owners.get (Owner.prog 0).idx).count < (s.pkp.owners.get (Owner.prog 0).idx).cap ∧
    (prog s 0).input ≠ .lost ∧ ((prog s 0).gapCount < 24 ∨ (prog s 0).gapCount = 24) := by
  subst hs; rcases hg with rfl | rfl <;> (unfold Quiet NoOwed NoLinkCarries Alone; decide +kernel)

/-- R26 before the first allocated picture and at it. -/
theorem test_witness_running (f : Pic) (hf : f = 10 ∨ f = 9) (s : State)
    (hs : s = ((starting { state := .starting, firstPic := some f, refreshOwed := true, openStop := some ⟨1, .van⟩ }).onPort 0
      fun _ => { store := [⟨2, false⟩] }).onRate 0 fun r => { r with anchorTarget := 1 }) :
    Quiet s ∧ codeStartDue s = some ⟨9, 100⟩ ∧ Alone 0 s ∧ (prog s 0).state = .starting ∧ (prog s 0).pair = false ∧
    entryOf s 0 = none ∧ ((prog s 0).firstPic ≠ some 9 ∨ (prog s 0).firstPic = some 9) ∧ (prog s 0).awaiting = false ∧
    (prog s 0).refreshOwed = true ∧ (prog s 0).skipNext = false ∧ (prog s 0).openStop = some ⟨1, .van⟩ ∧
    s.cmu.noticesHome = false ∧ s.cmu.notices.length < 32 ∧ (rateOf s 0).anchorTarget ≠ 0 ∧ (formatOf s 0).bands ≠ 0 ∧
    (s.ports.get 0).store = [⟨2, false⟩] ∧ (∀ k ∈ s.clm.clips, k.pendingOn 0 = false) := by
  subst hs; rcases hf with rfl | rfl <;> (unfold Quiet NoOwed Alone; decide +kernel)

/-- A picture of P0 with two of its three bands done, and its last band in coding. -/
def inProgress : Entry :=
  { pic := 8, type := .follow, method := .full, bands := 3, started := 3, done := 2, produced := 300, target := 600,
    limit := 1200, loopQ := 20, codingQ := 20, tick := 84 }
def lastBand : Band := { prog := 0, pic := 8, band := 3, quant := 20, tiles := 45 }

def coding (e : Option Entry) (b : Band) (r : Programme) : State :=
  ((starting r).setEntry 0 e).setBand (some b)

theorem test_witness_overrun (s : State) (hs : s = coding (some inProgress) lastBand { state := .stopping }) :
    Quiet s ∧ codeStartDue s = some ⟨9, 100⟩ ∧ Alone 0 s ∧ (prog s 0).state = .stopping ∧ isPairedOdd s 0 = false ∧
    entryOf s 0 = some inProgress ∧ s.cde.band = some lastBand ∧ lastBand.prog = 0 := by
  subst hs; unfold Quiet NoOwed Alone; decide +kernel

/-- R30 at the end of the hold and at the shortest hold that goes on. -/
theorem test_witness_hold (n : Nat) (hn : n = 0 ∨ n = 2) (s : State)
    (hs : s = starting { state := .freezing, remHold := n, openStop := some ⟨1, .van⟩ }) :
    Quiet s ∧ codeStartDue s = some ⟨9, 100⟩ ∧ Alone 0 s ∧ (prog s 0).state = .freezing ∧ entryOf s 0 = none ∧
    (prog s 0).openStop = some ⟨1, .van⟩ ∧ s.cmu.noticesHome = false ∧ s.cmu.notices.length < 32 ∧
    ((prog s 0).remHold = 0 ∨ 1 < (prog s 0).remHold) ∧ NoLinkCarries s ∧
    s.pkp.free = 0 :: [1, 2, 3, 4, 5, 6, 7, 8, 9, 10, 11] ∧
    (s.pkp.owners.get (Owner.prog 0).idx).count < (s.pkp.owners.get (Owner.prog 0).idx).cap ∧
    (rateOf s 0).fullness ≤ (rateOf s 0).limit := by
  subst hs; rcases hn with rfl | rfl <;> (unfold Quiet NoOwed Alone NoLinkCarries; decide +kernel)

/-- R55: the sixth fragment granted, a seventh, and one refused with five blocks free. -/
theorem test_witness_fragment (k free : Nat) (hk : (k, free) = (5, 6) ∨ (k, free) = (6, 6) ∨ (k, free) = (0, 5)) (b : Band)
    (hb : b = { lastBand with frags := List.replicate k [20] }) (s : State)
    (hs : s = (coding (some inProgress) b { state := .running }).onPool fun p => { p with free := p.free.take free }) :
    Quiet s ∧ s.cde.band = some b ∧ b.discard = false ∧ b.lost = false ∧ fold s b.prog = b.prog ∧
    s.cmu.noticesHome = false ∧ s.cmu.notices.length < 32 ∧
    (s.pkp.owners.get (Owner.prog b.prog).idx).count + 6 ≤ (s.pkp.owners.get (Owner.prog b.prog).idx).cap ∧
    (b.frags.length < 6 ∧ 6 ≤ s.pkp.free.length ∨ 6 ≤ b.frags.length ∨ b.frags.length < 6 ∧ s.pkp.free.length < 6) := by
  subst hs hb; rcases hk with h | h | h <;> (cases h; unfold Quiet NoOwed; decide +kernel)

/-- R42, R50: the last band of a RUNNING programme, of 62 coded bytes (796 bits against a line of 600, so d is above 2 u), and
the last but one; a band marked for discard. -/
theorem test_witness_band (d : Nat) (hd : d = 1 ∨ d = 2) (e : Entry) (he : e = { inProgress with done := d, started := d + 1 })
    (s : State) (hs : s = (coding (some e) lastBand { state := .running }).onRate 0 fun r => { r with limit := 796 }) :
    Quiet s ∧ s.cde.band = some lastBand ∧ lastBand.discard = false ∧ lastBand.lost = false ∧ lastBand.frags = [] ∧
    NoLinkCarries s ∧ Alone 0 s ∧ entryOf s 0 = some e ∧ e.struck = false ∧ 0 < e.bands ∧ 8 + 62 ≤ 1312 ∧
    (24 + 62 + 255) / 256 ≤ s.pkp.free.length ∧
    (s.pkp.owners.get (Owner.prog 0).idx).count + (24 + 62 + 255) / 256 ≤ (s.pkp.owners.get (Owner.prog 0).idx).cap ∧
    e.produced + 8 * 62 = 796 ∧ 796 ≤ e.limit ∧
    (e.done + 1 < e.bands ∧ e.started < e.bands ∨
      e.done + 1 = e.bands ∧ (prog s 0).state = .running ∧ (rateOf s 0).fullness + 796 ≤ (rateOf s 0).limit) := by
  subst hs he; rcases hd with rfl | rfl <;> (unfold Quiet NoOwed Alone NoLinkCarries; decide +kernel)

theorem test_witness_discard (b : Band) (hb : b = { lastBand with discard := true }) (s : State)
    (hs : s = coding none b { state := .ready }) :
    Quiet s ∧ s.cde.band = some b ∧ b.discard = true ∧ (∀ q, entryOf s q = none) := by
  subst hs hb; unfold Quiet NoOwed; decide +kernel

/-- R63: a period start due with P0 RUNNING and on air, and P1 STARTING. -/
theorem test_witness_allocation (s : State)
    (hs : s = ({ withProg 0 { state := .running } with
      tbu := { locked with period := some ⟨960, 0⟩ }
      sri := { onAir := (Table.replicate 4 false).set 0 true } } : State).onProg 1 fun r => { r with state := .starting }) :
    Quiet s ∧ s.cmu.held = none ∧ periodDue s = true ∧ fold s 0 = 0 ∧ s.sri.onAir.get 0 = true ∧ s.clm.clips = [] := by
  subst hs; unfold Quiet NoOwed; decide +kernel

/-- A Timebase Unit whose block event ends block 9. -/
def atBlock : Timebase := { locked with tick := 160, blockDue := true }

/-- R87: an unaligned mixer, and a gap one below the lag. -/
theorem test_witness_blockEvent (a : Bool) (s : State)
    (hs : s = { withTbu atBlock with smx := { State.reset.smx with aligned := a, next := 8 } }) :
    Quiet s ∧ s.tbu.blockDue = true ∧ (∀ i, (s.sdp.get i).enable = false) ∧ QueuesEmpty s ∧
    (9 : BlockNo) = BitVec.ofNat 16 (s.tbu.tick.toNat / 16) - 1 ∧ ((9 : BlockNo) - s.smx.next).toNat < s.smx.lag ∧
    small.tbu.blockDue = false := by
  subst hs; cases a <;> (unfold Quiet NoOwed QueuesEmpty; decide +kernel)

/-- R89: the gap at the lag, with one input's block stored. -/
theorem test_witness_mix (s : State)
    (hs : s = { withTbu atBlock with
      smx := { State.reset.smx with
        aligned := true, next := 7
        inputs := (Table.replicate 32 {}).set 5 { store := [⟨7, silentBlock⟩, ⟨10, silentBlock⟩] } } }) :
    Quiet s ∧ s.tbu.blockDue = true ∧ s.smx.aligned = true ∧ (∀ i, (s.sdp.get i).enable = false) ∧
    (∀ i, (triggerOf s i).hi ≤ (triggerOf s i).lo) ∧ (9 : BlockNo) = BitVec.ofNat 16 (s.tbu.tick.toNat / 16) - 1 ∧
    ((9 : BlockNo) - s.smx.next).toNat = s.smx.lag ∧ s.smx.lag < 32768 ∧
    (∀ k, ∀ b ∈ (inputOf s k).store, (b.block - s.smx.next).toNat < 32768) := by
  subst hs; unfold Quiet NoOwed; decide +kernel

/-- R116: an enabled stream without an assembly and the two blocks it needs, and one whose packet lacks one block. -/
theorem test_witness_sound (asm : Option Assembly) (pk : Packet)
    (hpk : pk = { kind := .sound, owner := some .sound, subject := some 2, number := 6, stamp := 80, size := 400 })
    (ha : asm = none ∨ asm = some ⟨3, .bits24, some pk⟩) (s : State)
    (hs : s = ({ withTbu atBlock with smx := { State.reset.smx with aligned := true, next := 8 } } : State).onStream 2
      fun t => { t with enable := true, current := 8, target := 9, assembly := asm }) :
    Quiet s ∧ NoLinkCarries s ∧ s.tbu.blockDue = true ∧ (9 : BlockNo) = BitVec.ofNat 16 (s.tbu.tick.toNat / 16) - 1 ∧
    s.smx.aligned = true ∧ ((9 : BlockNo) - s.smx.next).toNat < s.smx.lag ∧ (s.sdp.get 2).enable = true ∧
    (∀ k, k ≠ 2 → (s.sdp.get k).enable = false) ∧ (s.sdp.get 2).assembly = asm ∧ 2 ≤ s.pkp.free.length ∧
    (s.pkp.owners.get Owner.sound.idx).count + 2 ≤ (s.pkp.owners.get Owner.sound.idx).cap := by
  subst hs hpk; rcases ha with rfl | rfl <;> (unfold Quiet NoOwed NoLinkCarries; decide +kernel)


/-! ### Witnesses: the cells of the ring, and the settings of chapters 4 to 6 -/

/-- `small` with one more entry of the acceptance table. -/
def mapped (i : RingStream) (d : Dest) : State := small.onSri fun r => { r with table := r.table.set i d }

/-- R86 at both ends of the store's window, of the early range and of the late range, and at a duplicate. -/
theorem test_witness_soundCell (c : BlockNo) (hc : c = 65535 ∨ c = 2 ∨ c = 3 ∨ c = 32766 ∨ c = 32767 ∨ c = 65534) (s : State)
    (hs : s = { mapped 3 (.soundInput 31) with smx := { State.reset.smx with aligned := true, next := 65535 } }) :
    Quiet s ∧ s.sri.table.get 3 = .soundInput 31 ∧ s.smx.aligned = true ∧ s.cmu.noticesHome = false ∧
    s.cmu.notices.length < 32 ∧ (∀ b ∈ (inputOf s 31).store, b.block ≠ c) ∧
    ((c - s.smx.next).toNat < 4 ∨ 4 ≤ (c - s.smx.next).toNat) ∧
    small.sri.table.get 3 = .none ∧ small.sri.table.get 255 = .control ∧ (mapped 3 (.soundInput 31)).smx.aligned = false := by
  subst hs; rcases hc with rfl | rfl | rfl | rfl | rfl | rfl <;> (unfold Quiet NoOwed; decide +kernel)

theorem test_witness_soundDuplicate (s : State)
    (hs : s = { mapped 3 (.soundInput 31) with
      smx := { State.reset.smx with aligned := true, inputs := (Table.replicate 32 {}).set 31 { store := [⟨2, silentBlock⟩] } } }) :
    Quiet s ∧ s.smx.aligned = true ∧ (∃ b ∈ (inputOf s 31).store, b.block = 2) := by
  subst hs; unfold Quiet NoOwed; decide +kernel

/-- R201, R213: four names, and the forms that are refused: five, one twice, and programme 4. -/
theorem test_witness_tally :
    Quiet (mapped 12 .tally) ∧ (mapped 12 .tally).sri.table.get 12 = .tally ∧ (mapped 12 .tally).clm.autoMark = false ∧
    (∀ p, (mapped 12 .tally).clm.tally.get p = none) ∧ (4 : Byte).toNat ≤ 4 ∧
    ((([3, 2, 1, 0] : List Byte).take (4 : Byte).toNat).map (·.toNat)).Nodup ∧
    (∀ v ∈ (([3, 2, 1, 0] : List Byte).take (4 : Byte).toNat).map (·.toNat), v < 4) ∧
    4 < (5 : Byte).toNat ∧ ¬ ((([3, 3] : List Byte).take (2 : Byte).toNat).map (·.toNat)).Nodup ∧
    (∃ v ∈ (([4] : List Byte).take (1 : Byte).toNat).map (·.toNat), 4 ≤ v) ∧ small.sri.table.get 12 = .none := by
  unfold Quiet NoOwed; decide +kernel

/-- A partial message of 8 cells of which 7 have come, and one of 2 of which 1 has. -/
def partial8 : Assembling := { kind := 4, tag := 1, cells := 8, length := 448, received := 7, bytes := [] }
def partial3 : Assembling := { kind := 4, tag := 1, cells := 3, length := 113, received := 1, bytes := [] }

/-- R202, R213: on a control and on a desk stream, the first cells at their bounds, and partial messages that a cell completes,
extends, or ends by a wrong index. -/
theorem test_witness_control (a : Option Assembling) (ha : a = none ∨ a = some partial8 ∨ a = some partial3) (s : State)
    (hs : s = (mapped 20 (.desk 3)).onSri fun r => { r with partials := r.partials.set 255 a }) :
    Quiet s ∧ (s.sri.table.get 255 = .control ∧ van.src = .van 255 none) ∧ s.sri.table.get 20 = .desk 3 ∧
    s.sri.partials.get 255 = a ∧ (448 : BitVec 16).toNat ≤ 448 ∧ (56 : BitVec 16).toNat ≤ 56 ∧ (8 : Byte).toNat ≤ 8 ∧
    partial8.received = (7 : Byte).toNat ∧ partial8.received + 1 = partial8.cells ∧
    (partial8.cells - 1) * 56 < partial8.length ∧ partial8.length ≤ partial8.cells * 56 ∧
    partial3.received = (1 : Byte).toNat ∧ partial3.received + 1 < partial3.cells ∧ partial3.received ≠ (2 : Byte).toNat ∧
    8 < (9 : Byte).toNat ∧ 448 < (449 : BitVec 16).toNat ∧ s.cmu.noticesHome = false ∧ s.cmu.notices.length < 32 := by
  subst hs; rcases ha with rfl | rfl | rfl <;> (unfold Quiet NoOwed; decide +kernel)

/-- R199, R213 to R215: kinds past the six, cells of kinds 4 and 6 on NONE and CONTROL streams, and lengths off by one. -/
theorem test_witness_unusable :
    Quiet small ∧ 6 < (7 : Byte).toNat ∧ small.sri.table.get (3 : Byte).toFin = .none ∧
    small.sri.table.get (255 : Byte).toFin ≠ .none ∧
    ¬((1 : Byte) = 1 ∧ [0, 0, 0].length = 4 ∨ (1 : Byte) = 2 ∧ [0, 0, 0].length = 1 ∨ (1 : Byte) = 3 ∧ 5 ≤ [0, 0, 0].length) ∧
    ¬((3 : Byte) = 1 ∧ [0, 0, 0, 0].length = 4 ∨ (3 : Byte) = 2 ∧ [0, 0, 0, 0].length = 1 ∨
      (3 : Byte) = 3 ∧ 5 ≤ [0, 0, 0, 0].length) ∧
    ¬((3 : Byte) = 1 ∧ [0, 0].length = 4 ∨ (3 : Byte) = 2 ∧ [0, 0].length = 1 ∨ (3 : Byte) = 3 ∧ [0, 0].length = 3) := by
  unfold Quiet NoOwed; decide +kernel

/-- R67, R68: thresholds one apart and equal, a field without a programme, a number past the programmes, a paired odd member. -/
theorem test_witness_rateSet (s : State) (hs : s = withProg 2 { pair := true }) :
    VanReady van 255 small ∧ (some 1 : Option Nat) ≠ none ∧ (3 : Nat) < 4 ∧ VanReady van 255 s ∧ (3 : Prog).val % 2 = 1 ∧
    (prog s (3 - 1)).pair = true ∧ (prog small (3 - 1)).pair = false ∧
    loaded 0 100000 (rateOf small 3).pending.rDown (some 99999) < loaded 0 100000 (rateOf small 3).pending.rUp none ∧
    loaded 0 100000 (rateOf small 3).pending.rUp none ≤ loaded 0 100000 (rateOf small 3).pending.rDown (some 100000) ∧
    ({ prog := some 3, rDown := some 99999 } : RateFields) ≠ { prog := some 3 } := by
  subst hs; unfold VanReady Quiet NoOwed; decide +kernel

/-- R200: entries at the last input and desk and past them; a table without CONTROL, and one that stands. -/
theorem test_witness_inputMap (f : MapFields) (hf : f = ⟨[⟨255, 1, 0⟩], none⟩ ∨ f = ⟨[⟨0, 2, 31⟩, ⟨1, 4, 7⟩], some 253⟩) :
    VanReady van 255 small ∧ f.entries.length ≤ 32 ∧ f ≠ {} ∧
    (∀ e ∈ f.entries, e.stream ≤ 255 ∧ 1 ≤ e.dest ∧ e.dest ≤ 5 ∧ (e.dest = 2 → e.index ≤ 31) ∧ (e.dest = 4 → e.index ≤ 7)) ∧
    (∃ e ∈ ([⟨0, 2, 32⟩] : List MapEntry), e.dest = 2 ∧ 31 < e.index) ∧
    (∃ e ∈ ([⟨0, 4, 8⟩] : List MapEntry), e.dest = 4 ∧ 7 < e.index) := by
  rcases hf with rfl | rfl <;> (unfold VanReady Quiet NoOwed; decide +kernel)

/-- The table of the first INPUT-MAP above keeps no CONTROL entry; that of the second keeps one and an unread output. -/
theorem test_witness_inputMap_stands :
    (∀ k, (small.sri.table.set 255 .none).get k ≠ .control) ∧
    (((small.sri.table.set 0 (.soundInput 31)).set 1 (.desk 7)).get 255 = .control ∧
      ((small.sri.table.set 0 (.soundInput 31)).set 1 (.desk 7)).get 253 = .none) := by decide +kernel

/-- R97: the last input and group and the numbers past them. -/
theorem test_witness_inputSet (f : InputFields) (hf : f = { input := some 31, mute := some 1, groups := some [7] }) :
    VanReady van 255 small ∧ f.input = some (31 : Fin 32).val ∧ f ≠ { input := some 31 } ∧
    (∃ l, f.groups = some l ∧ l.length ≤ 8) ∧ f.mute = some (if true then 1 else 2) ∧
    (f.policy = none ∧ LossPolicy.silence = (inputOf small 31).policy) ∧ (∀ l, f.groups = some l → ∀ g ∈ l, g ≤ 7) ∧
    31 < 32 ∧ 7 < 8 ∧ 3 < 4 := by
  subst hf
  refine ⟨by unfold VanReady Quiet NoOwed; decide +kernel, by decide, by decide, ⟨[7], rfl, by decide⟩, by decide,
    ⟨rfl, by decide +kernel⟩, ?_, by decide⟩
  intro l h; cases h; decide

/-- R98, R99: the last cross-point and the numbers past it; a bus field with and without its bus; a group muted. -/
theorem test_witness_mixAndBus (f : BusFields)
    (hf : f = { bus := some 7, master := some 8192, groups := (Table.replicate 8 none).set 7 (some 1) })
    (g : Table 8 Bool) (hg : g = (Table.replicate 8 false).set 7 true) :
    VanReady van 255 small ∧ (∀ e ∈ ([⟨31, 7, 8192⟩] : List MixEntry), e.input ≤ 31 ∧ e.bus ≤ 7) ∧
    (∃ e ∈ ([⟨32, 0, 0⟩] : List MixEntry), 31 < e.input ∨ 7 < e.bus) ∧
    (∃ e ∈ ([⟨0, 8, 0⟩] : List MixEntry), 31 < e.input ∨ 7 < e.bus) ∧
    ((none : Option Nat) = none ∧ ((some 8 : Option Nat) ≠ none ∨ (none : Option Nat) ≠ none)) ∧
    f.bus = some (7 : Fin 8).val ∧ (∀ j, f.groups.get j = none ∧ g.get j = small.smx.groups.get j ∨
      f.groups.get j = some (if g.get j then 1 else 2)) := by
  subst hf hg; unfold VanReady Quiet NoOwed; decide +kernel

/-- R100, R104: thresholds one apart, equal, and both 0; a trigger with a clip recorded and one with none. -/
theorem test_witness_triggerSet (c : TriggerClip) (hc : c = .absent ∨ c = .number 9) (s : State)
    (hs : s = (withClips { clips := [clip 9 .opened], next := 10, postRoll := 1 }).onTrigger 3 fun t =>
      { t with hi := 5, lo := 4, clip := c }) :
    VanReady van 255 s ∧ ClipsOk s.clm ∧ s.clm.postRoll ≠ 0 ∧ (triggerOf s 3).clip = c ∧ (triggerOf s 3).hi = 5 ∧
    loaded 0 8388607 4 none < loaded 0 8388607 5 none ∧ loaded 0 8388607 5 (some 4) ≤ loaded 0 8388607 4 none ∧
    loaded 0 8388607 5 (some 0) = 0 ∧ loaded 0 8388607 4 (some 0) = 0 := by
  subst hs
  rcases hc with rfl | rfl <;>
    exact ⟨by unfold VanReady Quiet NoOwed; decide +kernel,
      ⟨by decide, by decide, by decide, by decide, by decide⟩, by decide, by decide +kernel, by decide +kernel, by decide⟩

/-- R102: an answer for a trigger that waits in each of its states, a refusal, and an answer for another trigger. -/
theorem test_witness_triggerAnswer (st : TriggerState) (hst : st = .idle ∨ st = .arming ∨ st = .active ∨ st = .releasing)
    (s : State)
    (hs : s = (({ withClips { clips := [clip 9 .opened], next := 10, postRoll := 1 } with
      smx := { State.reset.smx with answers := [⟨1, none⟩, ⟨3, some 9⟩] } } : State).onTrigger 3 fun t =>
        { t with state := st, clip := .awaited }).onTrigger 1 fun t => { t with clip := .awaited }) :
    Quiet s ∧ ClipsOk s.clm ∧ s.clm.postRoll ≠ 0 ∧ s.smx.answers = [⟨1, none⟩] ++ ⟨3, some 9⟩ :: [] ∧
    s.smx.answers = [] ++ ⟨1, none⟩ :: [⟨3, some 9⟩] ∧ (∀ b ∈ [(⟨1, none⟩ : TriggerReply)], b.trigger ≠ 3) ∧
    (triggerOf s 3).clip = .awaited ∧ (triggerOf s 3).state = st ∧ (triggerOf s 1).clip = .awaited ∧
    (∀ a ∈ s.smx.answers, a.trigger ≠ 2) ∧ (triggerOf small 3).clip ≠ .awaited := by
  subst hs
  rcases hst with rfl | rfl | rfl | rfl <;>
    exact ⟨by unfold Quiet NoOwed; decide +kernel, ⟨by decide, by decide, by decide, by decide, by decide⟩,
      by decide +kernel⟩

/-- R108, R113: the last stream and the number past it; a stream turned on, and one turned off with its blocks. -/
theorem test_witness_soundStreamSet (a : Assembly)
    (ha : a = ⟨1, .bits24, some {
      kind := .sound, owner := some .sound, subject := some 3, number := 0, stamp := 0, size := 400
      blocks := [20, 21] }⟩) (s : State)
    (hs : s = small.onStream 3 fun t => { t with enable := true, assembly := some a }) :
    VanReady van 255 small ∧ VanReady van 255 s ∧ (∃ n, (some 4 : Option Nat) = some n ∧ 3 < n) ∧
    (small.sdp.get 3).enable = false ∧ (s.sdp.get 3).enable = true ∧ (s.sdp.get 3).assembly = some a ∧
    (some 1 : Option Nat) = some (if true then 1 else 2) ∧ (some 2 : Option Nat) = some (if false then 1 else 2) ∧
    ({ stream := some 3, enable := some 1 } : StreamFields) ≠ { stream := some 3 } ∧
    ({ stream := some 3, enable := some 2 } : StreamFields) ≠ { stream := some 3 } := by
  subst hs ha
  refine ⟨?_, ?_, ⟨4, rfl, by decide⟩, ?_⟩ <;> (try unfold VanReady Quiet NoOwed) <;> decide +kernel


/-! ### Witnesses: the clip commands -/

/-- R125 to R128: P3 RUNNING, in a table with room, a full one with an acknowledged record, and a full one with none. -/
def clipTable (k : Nat) (acked : List Nat) : ClipMarker :=
  { clips := (List.range k).map fun n => clip (n + 1) (if n = 0 then .acked else .opened), acked := acked, next := 65 }

theorem test_witness_clipTable (m : ClipMarker)
    (hm : m = clipTable 63 [1] ∨ m = clipTable 64 [1] ∨ m = clipTable 64 []) : ClipsOk m := by
  rcases hm with rfl | rfl | rfl <;>
    exact ⟨by decide +kernel, by decide +kernel, by decide +kernel, by decide +kernel, by decide +kernel⟩

theorem test_witness_clipMarkIn (m : ClipMarker)
    (hm : m = clipTable 63 [1] ∨ m = clipTable 64 [1] ∨ m = clipTable 64 []) (f : MarkFields)
    (hf : f = { ref := { desk := some 7 }, cameras := some [3], text := some [32, 126] }) (s : State)
    (hs : s = { withProg 3 { state := .running } with clm := m }) :
    VanReady van 255 s ∧ s.clm = m ∧ f.ref.desk = some (7 : Fin 8).val ∧ f.cameras = some [3] ∧ 1 ≤ [3].length ∧
    (∀ c ∈ [3], c ≤ 3) ∧ (f.priority = none ∧ Priority.normal = .normal) ∧ [32, 126] = f.text.getD [] ∧
    (∀ c ∈ ([32, 126] : List Byte), 32 ≤ c.toNat ∧ c.toNat ≤ 126) ∧ (prog s 3).state = .running ∧
    (prog small 3).state ≠ .running ∧ s.cmu.noticesHome = false ∧ s.cmu.notices.length < 32 ∧
    (s.clm.clips.length < 64 ∨ s.clm.clips.length = 64 ∧ s.clm.acked = [1] ∨
      s.clm.clips.length = 64 ∧ s.clm.acked = []) := by
  subst hs hf; rcases hm with rfl | rfl | rfl <;> (unfold VanReady Quiet NoOwed; decide +kernel)

/-- R131, R132, R135: a record in each of its states, named by its number and by desk 7's pointer; post-roll 0 and 1. -/
theorem test_witness_clipMarks (st : ClipState) (roll : Nat) (hr : roll = 0 ∨ roll = 1)
    (hst : st = .opened ∨ st = .postRoll ∨ st = .closing ∨ st = .closed ∨ st = .sent ∨ st = .acked) (s : State)
    (hs : s = withClips { clips := [clip 9 st], next := 10, postRoll := roll, desks := (Table.replicate 8 none).set 7 (some 9) }) :
    VanReady van 255 s ∧ clip 9 st ∈ s.clm.clips ∧ s.clm.desks.get 7 = some 9 ∧ s.clm.postRoll = roll ∧
    (∀ c ∈ s.clm.clips, c.number ≠ 10) ∧ (clip 9 st).state = st ∧
    (∀ k ∈ (clip 9 st).cameras, ∃ a ∈ k.inPoint, ((6 : Pic) - 1 - a.pic).toNat ≤ 2147483647) ∧
    NoLinkCarries s ∧ s.pkp.free = 0 :: [1, 2, 3, 4, 5, 6, 7, 8, 9, 10, 11] ∧
    (s.pkp.owners.get Owner.labelReply.idx).count < (s.pkp.owners.get Owner.labelReply.idx).cap := by
  subst hs
  rcases hr with rfl | rfl <;> rcases hst with rfl | rfl | rfl | rfl | rfl | rfl <;>
    (unfold VanReady Quiet NoOwed NoLinkCarries; decide +kernel)

theorem test_witness_clipMarks_ok (st : ClipState) (m : ClipMarker) (hm : m = { clips := [clip 9 st], next := 10 }) :
    ClipsOk m := by subst hm; exact ⟨by simp, by simp [clip], by simp [clip], by simp, by simp⟩

/-- R136 to R138: texts at the bounds of what is printable, and settings that are choices and that are none. -/
theorem test_witness_clipLabel :
    (∀ b ∈ ([32, 126] : List Byte), 32 ≤ b.toNat ∧ b.toNat ≤ 126) ∧ (∃ b ∈ ([127] : List Byte), b.toNat < 32 ∨ 126 < b.toNat) ∧
    (∃ b ∈ ([31] : List Byte), b.toNat < 32 ∨ 126 < b.toNat) ∧ ([clip 8 .opened, clip 9 .sent].map (·.number)).Pairwise (· < ·) ∧
    ({ autoMark := some 2 } : ClipSettingsFields) ≠ {} ∧ (some 2 : Option Nat) = some (if false then 1 else 2) ∧
    (∀ v, (some 3 : Option Nat) = some v → v ≠ 1 ∧ v ≠ 2) := by
  refine ⟨by decide, by decide, by decide, by decide, by decide, by decide, ?_⟩
  intro v h; cases h; decide

/-! ### Witnesses: the links -/

/-- R184, R195, R196: a link in each state with an empty slot, and a retry expiry one tick off and due. -/
theorem test_witness_proving (st : LinkState) (t : Tick) (ht : t = 101 ∨ t = 100)
    (hst : st = .down ∨ st = .held ∨ st = .proving ∨ st = .up ∨ st = .degraded) (s : State)
    (hs : s = { withLink 3 { state := st, retry := some t } with tbu := locked }) :
    VanReady van 255 s ∧ Quiet s ∧ (link s 3).state = st ∧ (link s 3).retry = some t ∧ (sched s 3).slot = none ∧
    (sched s 3).inFlight = [] ∧ (2147483647 < (s.tbu.tick - t).toNat ∨ (s.tbu.tick - t).toNat ≤ 2147483647) ∧
    (link small 3).retry = none := by
  subst hs
  rcases ht with rfl | rfl <;> rcases hst with rfl | rfl | rfl | rfl | rfl <;>
    (unfold VanReady Quiet NoOwed; decide +kernel)

/-- R188: a link in each state whose open command came from the ring, alone in carrying. -/
theorem test_witness_linkDown (st : LinkState)
    (hst : st = .down ∨ st = .held ∨ st = .proving ∨ st = .up ∨ st = .degraded) (s : State)
    (hs : s = withLink 3 { state := st, openCommand := some ⟨1, .van⟩ }) :
    VanReady van 255 s ∧ s.cmu.noticesHome = false ∧ s.cmu.notices.length < 32 ∧ (link s 3).state = st ∧
    (link s 3).openCommand = some ⟨1, .van⟩ ∧ (∀ k, k ≠ 3 → (link s k).state.carries = false) ∧
    (∀ p, (prog s p).pair = false) := by
  subst hs; rcases hst with rfl | rfl | rfl | rfl | rfl <;> (unfold VanReady Quiet NoOwed; decide +kernel)

/-- R192, R193: reports at the floor and one below it; a fault that settles, in each state and under each action. -/
theorem test_witness_reports (st : LinkState) (a : FaultAction) (passed : Bool)
    (hst : st = .up ∨ st = .degraded ∨ st = .held ∨ st = .proving)
    (ha : a = .ignore ∨ a = .report ∨ a = .degrade ∨ a = .holdRetry ∨ a = .holdLatched) (s : State)
    (hs : s = withLink 3 { state := st, recovery := some { tick := 0, passed := passed }
                           settings := { floor := 5000, actions := Table.replicate 5 a } }) :
    Quiet s ∧ (link s 3).state = st ∧ (link s 3).settings.actions.get 2 = a ∧
    (link s 3).settings.floor ≤ min (5000 : BitVec 32).toNat 250000 * (link s 3).settings.share / 100 ∧
    min (4999 : BitVec 32).toNat 250000 * (link s 3).settings.share / 100 < (link s 3).settings.floor ∧
    (link s 3).recovery = some { tick := 0, passed := passed } ∧ QueuesEmpty s := by
  subst hs
  cases passed <;> rcases hst with rfl | rfl | rfl | rfl <;> rcases ha with rfl | rfl | rfl | rfl | rfl <;>
    (unfold Quiet NoOwed QueuesEmpty; decide +kernel)

theorem test_witness_settles (st : LinkState) (hst : st = .up ∨ st = .degraded ∨ st = .held ∨ st = .proving) (s : State)
    (hs : s = withLink 3 { state := st }) : FaultSettles 3 s := by
  subst hs
  rcases hst with rfl | rfl | rfl | rfl <;>
    exact ⟨by decide +kernel, by decide +kernel, by decide +kernel, by decide +kernel, .inr (by unfold QueuesEmpty; decide +kernel)⟩

/-- A probe, and a LABEL packet of clip 9. -/
def probe : Packet := { kind := .probe, owner := none, subject := none, number := 0, stamp := 0, size := 24 }
def label : Packet :=
  { kind := .label, owner := some .labelReply, subject := some 9, number := 0, stamp := 0, size := 52, blocks := [30] }

/-- Fragment `i` of a slice of P1's picture 8, of two fragments. -/
def sliceOfP1 (i size : Nat) : Packet :=
  { kind := .picture, owner := some (.prog 1), subject := some 1, number := 8, band := 3, fragIndex := i, fragCount := 2, stamp := 0
    size := size, blocks := [23] }

/-- A link with the packet in its slot and, in flight, two entries after an acknowledged sequence 65,535. -/
def carrying (st : LinkState) (k : Packet) : State :=
  ((withLink 3 { state := st, window := some { start := 0 }, proving := some { retired := 2, deadline := 200, nextProbe := 200 } }).onSched 3
    fun h => { h with
      slot := some ⟨k, 0, 2, 0⟩, inFlight := [⟨0, k, 40⟩, ⟨1, k, 50⟩], nextSeq := 2 }).onClm
    fun m => { m with clips := [clip 9 .sent] }

/-- R175 at every bound: advance 0, 1, m, m + 1, 32,767 and 32,768, in carrying, proving and unusable states. -/
theorem test_witness_ack (st : LinkState) (k : Packet) (hst : st = .up ∨ st = .degraded ∨ st = .proving ∨ st = .held)
    (hk : k = label ∨ k = probe) (a : Seq) (ha : a = 65535 ∨ a = 0 ∨ a = 1 ∨ a = 2 ∨ a = 32766 ∨ a = 32767) (n m : Nat)
    (hn : n = (a - 65535 : Seq).toNat) (hm : m = 2) (s : State) (hs : s = carrying st k) :
    Quiet s ∧ (3 : Byte).toNat = (3 : Link).val ∧ n = (a - (sched s 3).lastAck).toNat ∧
    m = ((sched s 3).nextSeq - 1 - (sched s 3).lastAck).toNat ∧ (sched s 3).epoch = 0 ∧ (link s 3).state = st ∧
    (n = 0 ∨ 32768 ≤ n ∨ m < n ∧ n < 32768 ∨ 1 ≤ n ∧ n ≤ m) ∧ (sched s 3).inFlight.length < 256 ∧ QueuesEmpty s ∧
    (sched s 3).slot = some ⟨k, 0, 2, 0⟩ ∧ s.cmu.noticesHome = false ∧ s.cmu.notices.length < 32 ∧
    (link s 3).proving = some { retired := 2, deadline := 200, nextProbe := 200 } ∧ 2 < (link s 3).settings.count ∧
    (link s 3).settings.count ≤ 2 + 1 ∧ (link s 3).settings.floor ≤ (link s 3).capacity ∧ (link s 3).code = 0 ∧
    3 < (4 : Byte).toNat := by
  subst hs hn hm
  rcases hst with rfl | rfl | rfl | rfl <;> rcases hk with rfl | rfl <;> rcases ha with rfl | rfl | rfl | rfl | rfl | rfl <;>
    (unfold Quiet NoOwed QueuesEmpty; decide +kernel)

/-- R185, R187: a probe and a deadline one tick off and due. -/
theorem test_witness_provingTimers (t : Tick) (ht : t = 101 ∨ t = 100) (p : Proving)
    (hp : p = { retired := 2, deadline := t, nextProbe := t }) (s : State)
    (hs : s = { withLink 3 { state := .proving, proving := some p, openCommand := some ⟨1, .van⟩ } with tbu := locked }) :
    Quiet s ∧ (link s 3).state = .proving ∧ (link s 3).proving = some p ∧
    (¬ (s.tbu.tick - p.deadline).toNat ≤ 2147483647 ∨ (s.tbu.tick - p.deadline).toNat ≤ 2147483647) ∧
    (link s 3).openCommand = some ⟨1, .van⟩ ∧ (link small 3).state ≠ .proving := by
  subst hs hp; rcases ht with rfl | rfl <;> (unfold Quiet NoOwed; decide +kernel)

/-- R190, R191, R194: a recovery, a window and an oldest entry one tick off and due; a window at its minimum and one below. -/
theorem test_witness_carryingTimers (now : Tick) (hnow : now = 48040 ∨ now = 48041) (got : Nat) (hg : got = 4 ∨ got = 5)
    (w : Window) (hw : w = { start := 41, handed := 10, retired := got }) (s : State)
    (hs : s = ({ withLink 3 { state := .degraded, recovery := some { tick := 48041 }, window := some w
                              settings := { minFraction := 50, ackTimeout := 48040 } } with
      tbu := { locked with tick := now } } : State).onSched 3 fun h => { h with inFlight := [⟨0, probe, 0⟩] }) :
    Quiet s ∧ (link s 3).state = .degraded ∧ (link s 3).state.carries = true ∧ (link s 3).window = some w ∧
    (link s 3).recovery = some { tick := 48041 } ∧ (sched s 3).inFlight = ⟨0, probe, 0⟩ :: [] ∧
    (¬ (s.tbu.tick - (w.start + 48000)).toNat ≤ 2147483647 ∧ (s.tbu.tick - 0).toNat ≤ (link s 3).settings.ackTimeout ∨
      (s.tbu.tick - (w.start + 48000)).toNat ≤ 2147483647 ∧ (link s 3).settings.ackTimeout < (s.tbu.tick - 0).toNat) ∧
    (link s 3).timedOut ≠ some 0 ∧
    (1 ≤ w.handed ∧ w.retired < w.handed * (link s 3).settings.minFraction / 100 ∨
      ¬ w.retired < w.handed * (link s 3).settings.minFraction / 100) ∧ QueuesEmpty s := by
  subst hs hw
  rcases hnow with rfl | rfl <;> rcases hg with rfl | rfl <;> (unfold Quiet NoOwed QueuesEmpty; decide +kernel)

/-! ### Witnesses: chapter 11 and the invariants -/

/-- R206 to R208: the last block, choices and flag, and the numbers past them; the plain query that a clear is compared with. -/
theorem test_witness_queries :
    VanReady van 255 small ∧ ({ block := some 13 } : QueryFields).clear = false ∧ (∃ b, (some 14 : Option Nat) = some b ∧ (b = 0 ∨ 13 < b)) ∧
    (∃ a, (some 4 : Option Nat) = some a ∧ (a = 0 ∨ 3 < a)) ∧ (some 2 : Option Nat) = some (if false then 1 else 2) ∧
    1 ≤ [19].length ∧ (∀ v ∈ [19], 1 ≤ v ∧ v ≤ 19) ∧ (∃ v ∈ [20], v = 0 ∨ 19 < v) :=
  ⟨by unfold VanReady Quiet NoOwed; decide +kernel, rfl, ⟨14, rfl, by decide⟩, ⟨4, rfl, by decide⟩, rfl, by decide,
    by decide, by decide⟩

/-- R203 to R205: a kind past the 25, a full VAN queue with one free ring place and with none, and a home reply granted and
refused. -/
theorem test_witness_messages (q free : Nat) (hq : q = 63 ∨ q = 64) (hf : free = 0 ∨ free = 1) (s : State)
    (hs : s = { small with
      cmu := { van := List.replicate 8 ⟨van, 0, .unknown⟩ }, sri := { queue := List.replicate q [] } })
    (u : State) (hu : u = small.onPool fun p => { p with free := p.free.take free }) :
    NoOwed s ∧ s.cmu.van.length = 8 ∧ s.cmu.home = [] ∧ van.src = .van 255 none ∧ 56 < s.sri.queue.length ∧
    (s.sri.queue.length < 64 ∨ 64 ≤ s.sri.queue.length) ∧ Quiet u ∧ NoLinkCarries u ∧ u.cmu.held = none ∧
    (1 ≤ u.pkp.free.length ∨ u.pkp.free = []) ∧ (u.pkp.owners.get 5).count + 1 ≤ (u.pkp.owners.get 5).cap ∧
    25 < (26 : Byte).toNat ∧ (0 : BitVec 16).toNat = ([] : List Byte).length ∧
    (1 : BitVec 16).toNat ≠ ([] : List Byte).length ∧ Quiet small ∧ small.sri.queue.length + 8 ≤ 64 ∧
    small.cmu.noticesHome = false ∧ small.cmu.notices.length < 32 := by
  subst hs hu
  rcases hq with rfl | rfl <;> rcases hf with rfl | rfl <;> (unfold Quiet NoOwed NoLinkCarries; decide +kernel)

theorem test_witness_authority (s : State) (hs : s = { small with cmu := { authority := .home } }) :
    Quiet s ∧ s.cmu.authority = .home ∧ s.sri.queue.length + 8 ≤ 64 := by
  subst hs; unfold Quiet NoOwed; decide +kernel

theorem test_witness_invariants : step State.reset = .next State.reset ∧ ClipsOk State.reset.clm ∧ NoOwed State.reset ∧
    CommandQueuesOk State.reset.cmu :=
  ⟨rfl, ⟨by decide, by decide, by decide, by decide, by decide⟩, by unfold NoOwed; decide +kernel, ⟨by decide, by decide⟩⟩


/-! ### Witnesses: the further clauses of the statements -/

/-- R165: no link can take where each is DOWN, or carries with its slot occupied, or with 256 packets in flight. -/
theorem test_witness_noLinkTakes (s : State)
    (hs : s = ((withLink 0 { state := .up }).onLink 1 fun r => { r with state := .degraded }).onSched 0 fun h =>
      { h with slot := some ⟨probe, 0, 0, 0⟩ }) :
    NoLinkTakes (s.onSched 1 fun h => { h with inFlight := List.replicate 256 ⟨0, probe, 0⟩ }) ∧ ¬ NoLinkTakes s := by
  subst hs; unfold NoLinkTakes; decide +kernel

/-- A period start due in `small`, with the Clip Marker's state. -/
def atPeriod (m : ClipMarker) : State := { withClips m with tbu := { locked with pic := 9, period := some ⟨960, 0⟩ } }

/-- R133, R142: a record that closes, one that waits for its in-point, and one that counts on; blocks for the label, and none. -/
theorem test_witness_closing (free : List Nat) (hf : free = [] ∨ free = [7, 8]) (m : ClipMarker)
    (hm : m = {
      clips := [{ clip 1 .postRoll with count := 1 }, { clip 2 .postRoll with count := 1, cameras := [⟨0, none⟩] },
        { clip 3 .postRoll with count := 2 }, clip 4 .closed]
      next := 5
      waiting := [4] })
    (s : State) (hs : s = (atPeriod m).onPool fun p => { p with free := free }) :
    ClipsOk m ∧ Quiet s ∧ NoLinkTakes s ∧ periodDue s = true ∧ s.cmu.noticesHome = false ∧ s.cmu.held = none ∧
    s.cmu.homeNotices = [] ∧ s.clm = m ∧ (∀ n ∈ s.clm.waiting, ∃ c ∈ s.clm.clips, c.number = n) ∧
    (∀ c ∈ s.clm.clips, c.state = .postRoll → ∀ k ∈ c.cameras, ∀ a ∈ k.inPoint, (s.tbu.pic - a.pic).toNat ≤ 2147483647) ∧
    ((s.clm.clips.filter fun c => decide (c.state = .postRoll ∧ c.count ≤ 1 ∧ ∀ k ∈ c.cameras, k.inPoint ≠ none)).map
      (·.number)) = [1] ∧
    (s.pkp.free = [] ∨ 2 ≤ s.pkp.free.length ∧ (s.pkp.owners.get 5).count + 2 ≤ (s.pkp.owners.get 5).cap) := by
  subst hs hm
  refine ⟨⟨by decide, by decide, by decide, by decide, by decide⟩, ?_⟩
  rcases hf with rfl | rfl <;> (unfold Quiet NoOwed NoLinkTakes; decide +kernel)

/-- R205, R210: a held reply of one block and one home notice, with as many blocks as they need, and with none. -/
theorem test_witness_heldReply (free : List Nat) (hf : free = [] ∨ free = [7, 8]) (w : Msg) (hw : w = ⟨home, 6, .unknown⟩)
    (s : State)
    (hs : s = { (atPeriod {}).onPool (fun p => { p with free := free }) with
      cmu := { home := [w], held := some ⟨7, [6, 1, 0, 0]⟩, homeNotices := [notice] } })
    (u : State) (hu : u = { s with cmu := { homeNotices := [notice, notice] } }) :
    NoOwed s ∧ s.cmu.van = [] ∧ NoLinkTakes s ∧ periodDue s = true ∧ s.cmu.noticesHome = false ∧ s.clm.waiting = [] ∧
    s.clm.clips = [] ∧ s.cmu.held = some ⟨7, [6, 1, 0, 0]⟩ ∧ s.cmu.home = [w] ∧ (16 + 4 + 255) / 256 = 1 ∧
    s.cmu.homeNotices.length = 1 ∧
    (1 + 1 ≤ s.pkp.free.length ∧ (s.pkp.owners.get 5).count + 1 + 1 ≤ (s.pkp.owners.get 5).cap ∨ s.pkp.free.length < 1) ∧
    NoOwed u ∧ periodDue u = true ∧ u.cmu.held = none ∧ u.cmu.home = [] ∧ u.cmu.homeNotices ≠ [] ∧
    (u.cmu.homeNotices.length ≤ u.pkp.free.length ∨ u.pkp.free = []) := by
  subst hu hs hw; rcases hf with rfl | rfl <;> (unfold NoOwed NoLinkTakes; decide +kernel)

/-- A fragment of a PICTURE packet of P3, and one of P1. -/
def sliceOfP3 : Packet :=
  { kind := .picture, owner := some (.prog 3), subject := some 3, number := 8, band := 3, fragIndex := 2, fragCount := 3
    stamp := 0, size := 274, blocks := [40, 41] }

/-- R32, R110, R157, R168: a pair to be formed of members whose odd one has a packet in the queue, of a slice that link 1 has
reserved; the streams linked to the members, and one with no link. -/
theorem test_witness_pairForming (s : State)
    (hs : s = ((small.onPool fun k => { k with picture := [sliceOfP1 1 1328, sliceOfP3] }).onSched 1 fun h =>
      { h with reservation := some ⟨3, 8, 3, 2⟩ }).onStream 0 fun t => { t with linked := some 3 }) :
    VanReady van 255 s ∧ (prog s 2).state = .idle ∧ (prog s (2 + 1)).state = .idle ∧ (prog s 2).pair = false ∧
    (prog s 2).cfg.qMin ≤ (prog s 2).cfg.qMax ∧ NoLinkTakes s ∧
    (s.pkp.picture.filter fun k => k.subject == some 3) = [sliceOfP3] ∧ sliceOfP3.owner = some (.prog (2 + 1)) ∧
    (sched s 1).reservation.all (fun r => r.loses [sliceOfP3]) = true ∧ (s.sdp.get 0).linked = some (2 + 1) := by
  subst hs; unfold VanReady Quiet NoOwed NoLinkTakes; decide +kernel

/-- R27, R28: a RUNNING programme with a picture in progress, its band in coding, a packet in the queue, and a slice that a link
has reserved. -/
theorem test_witness_cut (s : State)
    (hs : s = ((((withProg 1 { state := .running, openStop := some ⟨1, .van⟩ }).setEntry 1 (some inProgress)).setBand
      (some { lastBand with prog := 1 })).onPool fun k => { k with picture := [sliceOfP3, sliceOfP1 2 274] }).onSched 0 fun h =>
        { h with reservation := some ⟨1, 8, 3, 2⟩ }) :
    VanReady van 255 s ∧ (prog s 1).state = .running ∧ entryOf s 1 = some inProgress ∧ s.clm.clips = [] ∧
    s.cmu.noticesHome = false ∧ s.cmu.notices.length < 32 ∧ NoLinkTakes s ∧
    (s.pkp.picture.filter fun k => k.subject == some 1) = [sliceOfP1 2 274] ∧
    (sched s 0).reservation.all (fun r => r.loses [sliceOfP1 2 274]) = true := by
  subst hs; unfold VanReady Quiet NoOwed NoLinkTakes; decide +kernel

/-- R17, R208 to R210: an untaken picture evicted, with the flag set and clear, 31 and 32 notices, the overrun flag set and
clear, and the home list empty, of one, and of 32. -/
theorem test_witness_overrunOfNotices (set overrun toHome : Bool) (k m : Nat) (hk : k = 31 ∨ k = 32) (hm : m = 0 ∨ m = 1 ∨ m = 32)
    (free : List Nat) (hf : free = [] ∨ free = [7]) (s : State)
    (hs : s = { ((withProg 2 { state := .stopping }).onPort 2 fun _ => { store := [⟨1, false⟩, ⟨2, false⟩] }).onPool
      (fun p => { p with free := free }) with
      cmu := {
        notices := List.replicate k notice, noticesHome := toHome, homeNotices := List.replicate m notice
        flags := ((Table.replicate 19 {}).set 0 ⟨set, 1⟩).set 16 ⟨overrun, 65535⟩ } }) :
    Quiet s ∧ NoLinkTakes s ∧ (s.ports.get 2).store = [⟨1, false⟩, ⟨2, false⟩] ∧ (prog s (fold s 2)).state = .stopping ∧
    (prog s (fold s 2)).input ≠ .lost ∧ (flagRec s .pictureSkipped).set = set ∧ (flagRec s .noticeOverrun).set = overrun ∧
    s.cmu.notices.length = k ∧ s.cmu.noticesHome = toHome ∧ s.cmu.homeNotices.length = m ∧ s.cmu.held = none ∧
    (s.pkp.free = [] ∨ s.pkp.free = 7 :: [] ∧ (s.pkp.owners.get 5).count < (s.pkp.owners.get 5).cap) := by
  subst hs
  cases set <;> cases overrun <;> cases toHome <;> rcases hk with rfl | rfl <;> rcases hm with rfl | rfl | rfl <;>
    rcases hf with rfl | rfl <;> (unfold Quiet NoOwed NoLinkTakes; decide +kernel)

/-- R17: the same with POOL-REFUSED already set. -/
theorem test_witness_homeNoticeRefused (s : State)
    (hs : s = { ((withProg 2 { state := .running }).onPort 2 fun _ => { store := [⟨1, false⟩, ⟨2, false⟩] }).onPool
      (fun p => { p with free := [] }) with
      cmu := { noticesHome := true, flags := (Table.replicate 19 {}).set 11 ⟨true, 1⟩ } }) :
    Quiet s ∧ NoLinkTakes s ∧ (prog s (fold s 2)).state = .running ∧ (flagRec s .pictureSkipped).set = false ∧
    (flagRec s .poolRefused).set = true ∧ s.cmu.homeNotices = [] ∧ s.cmu.held = none ∧ s.pkp.free = [] := by
  subst hs; unfold Quiet NoOwed NoLinkTakes; decide +kernel

/-- R18, R21, R129: an older picture never taken; a formed pair of which both ports offer one, with a record that waits for its
in-point. -/
theorem test_witness_beginFurther (n : Nat) (hn : n = 0 ∨ n = 9) (s : State)
    (hs : s = ({ (((starting { state := .running, cfg := { group := 1 } }).onPort 0 fun _ =>
      { store := [⟨1, false⟩, ⟨2, false⟩] }).onRate 0 fun r => { r with anchorTarget := n, followTarget := 1 }).onLoop 0
        fun c => { c with groupCount := 1 } with
      clm := { clips := [{ clip 9 .opened with cameras := [⟨0, none⟩] }], next := 10 } }))
    (u : State)
    (hu : u = (s.onProg 0 fun r => { r with pair := true }).onPort 0 fun _ => { store := [⟨1, true⟩, ⟨2, false⟩] })
    (v : State) (hv : v = (u.onProg 1 fun r => { r with state := .paired }).onPort 1 fun _ => { store := [⟨2, false⟩] }) :
    Quiet s ∧ codeStartDue s = some ⟨9, 100⟩ ∧ Alone 0 s ∧ (prog s 0).state = .running ∧ (prog s 0).pair = false ∧
    entryOf s 0 = none ∧ (prog s 0).skipNext = false ∧ s.cde.band = none ∧ (formatOf s 0).bands ≠ 0 ∧
    (s.ports.get 0).store = [⟨1, false⟩] ++ [⟨2, false⟩] ∧ (prog s 0).cfg.group ≤ (loopOf s 0).groupCount ∧
    (∃ k ∈ s.clm.clips, k.pendingOn 0 = true) ∧ (∀ k ∈ s.clm.clips, k.state ≠ .closing) ∧ s.cmu.noticesHome = false ∧
    s.cmu.notices.length < 32 ∧ ((rateOf s 0).anchorTarget = 0 ∨ (rateOf s 0).anchorTarget ≠ 0) ∧
    Quiet v ∧ codeStartDue v = some ⟨9, 100⟩ ∧ Alone 0 v ∧ (prog v 0).state = .running ∧ (prog v 0).pair = true ∧
    entryOf v 0 = none ∧ (prog v 0).skipNext = false ∧ v.cde.band = none ∧ (formatOf v 0).bands ≠ 0 ∧
    (v.ports.get 0).store = [⟨1, true⟩] ++ [⟨2, false⟩] ∧ (v.ports.get (0 + 1)).store = [] ++ [⟨2, false⟩] ∧
    (rateOf v 0).anchorTarget = n := by
  subst hv hu hs; rcases hn with rfl | rfl <;> (unfold Quiet NoOwed Alone; decide +kernel)

theorem test_witness_beginFurther_clips :
    ClipsOk { clips := [{ clip 9 .opened with cameras := [⟨0, none⟩] }], next := 10 } :=
  ⟨by decide, by decide, by decide, by decide, by decide⟩

/-- R19, R44, R45: no picture offered, in each input status. -/
theorem test_witness_skipStatus (i : InputStatus) (hi : i = .present ∨ i = .gap ∨ i = .lost) (s : State)
    (hs : s = starting { state := .running, input := i, gapCount := 23 }) :
    Quiet s ∧ NoLinkTakes s ∧ codeStartDue s = some ⟨9, 100⟩ ∧ Alone 0 s ∧ (prog s 0).state = .running ∧ entryOf s 0 = none ∧
    (rateOf s 0).fullness ≤ (rateOf s 0).limit ∧ s.pkp.free = 0 :: [1, 2, 3, 4, 5, 6, 7, 8, 9, 10, 11] ∧
    (s.pkp.owners.get (Owner.prog 0).idx).count < (s.pkp.owners.get (Owner.prog 0).idx).cap ∧ (s.ports.get 0).store = [] ∧
    ((prog s 0).input = .lost ∨ (prog s 0).input ≠ .lost ∧ (prog s 0).gapCount < 24) := by
  subst hs; rcases hi with rfl | rfl | rfl <;> (unfold Quiet NoOwed Alone NoLinkTakes; decide +kernel)

/-- R21, R44, R46: a picture offered with skip-next set, and with a target of 0; a formed pair whose odd port offers none. -/
theorem test_witness_skipFurther (skip : Bool) (s : State)
    (hs : s = ((starting { state := .running, skipNext := skip }).onPort 0 fun _ => { store := [⟨2, false⟩] }).onRate 0
      fun r => { r with followTarget := if skip then 1 else 0 })
    (u : State) (hu : u = (s.onProg 0 fun r => { r with pair := true }).onProg 1 fun r => { r with state := .paired }) :
    Quiet s ∧ NoLinkTakes s ∧ codeStartDue s = some ⟨9, 100⟩ ∧ Alone 0 s ∧ (prog s 0).pair = false ∧ entryOf s 0 = none ∧
    (s.ports.get 0).store = [] ++ [⟨2, false⟩] ∧ (prog s 0).refreshOwed = false ∧
    (loopOf s 0).groupCount < (prog s 0).cfg.group ∧ ((prog s 0).skipNext = true ∨ (rateOf s 0).followTarget = 0) ∧
    Quiet u ∧ NoLinkTakes u ∧ codeStartDue u = some ⟨9, 100⟩ ∧ Alone 0 u ∧ (prog u 0).pair = true ∧
    (u.ports.get (0 + 1)).store = [] := by
  subst hu hs; cases skip <;> (unfold Quiet NoOwed Alone NoLinkTakes; decide +kernel)

/-- R29, R30, R43: an overrun in STOPPING, in FREEZING at and above the end of its hold, and in RUNNING with a picture offered. -/
theorem test_witness_overrunFurther (st : ProgState) (hst : st = .stopping ∨ st = .freezing ∨ st = .running) (n : Nat)
    (hn : n = 1 ∨ n = 2) (s : State)
    (hs : s = ((coding (some inProgress) lastBand { state := st, remHold := n }).onPort 0 fun _ => { store := [⟨2, false⟩] }).onRate 0
      fun r => { r with anchorTarget := 1, limit := 300 }) :
    Quiet s ∧ codeStartDue s = some ⟨9, 100⟩ ∧ Alone 0 s ∧ isPairedOdd s 0 = false ∧ entryOf s 0 = some inProgress ∧
    (prog s 0).state = st ∧ (prog s 0).remHold = n ∧ s.cde.band = some lastBand ∧ lastBand.prog = 0 ∧
    (rateOf s 0).fullness + inProgress.produced ≤ (rateOf s 0).limit ∧ (prog s 0).pair = false ∧
    (prog s 0).skipNext = false ∧ (rateOf s 0).anchorTarget ≠ 0 ∧ (s.ports.get 0).store = [] ++ [⟨2, false⟩] ∧
    s.clm.clips = [] ∧ s.cmu.noticesHome = false ∧ s.cmu.notices.length < 32 := by
  subst hs; rcases hst with rfl | rfl | rfl <;> rcases hn with rfl | rfl <;> (unfold Quiet NoOwed Alone; decide +kernel)

/-- R30: a hold of exactly 1, with its command still to be answered. -/
theorem test_witness_holdOfOne (s : State) (hs : s = starting { state := .freezing, remHold := 1, openStop := some ⟨1, .van⟩ }) :
    Quiet s ∧ codeStartDue s = some ⟨9, 100⟩ ∧ Alone 0 s ∧ (prog s 0).state = .freezing ∧ entryOf s 0 = none ∧
    (prog s 0).remHold = 1 ∧ (prog s 0).openStop = some ⟨1, .van⟩ ∧ NoLinkTakes s ∧
    s.pkp.free = 0 :: [1, 2, 3, 4, 5, 6, 7, 8, 9, 10, 11] ∧ (rateOf s 0).fullness ≤ (rateOf s 0).limit ∧
    (s.pkp.owners.get (Owner.prog 0).idx).count < (s.pkp.owners.get (Owner.prog 0).idx).cap ∧ s.cmu.noticesHome = false ∧
    s.cmu.notices.length < 32 := by
  subst hs; unfold Quiet NoOwed Alone NoLinkTakes; decide +kernel

/-- R79, R80: a period start due with P0 RUNNING at a rate that falls below r_down and has collapsed, and P1 above r_up with the
method that is pending. -/
theorem test_witness_methods (s : State)
    (hs : s = (((({ (withProg 0 { state := .running }) with tbu := { locked with period := some ⟨960, 0⟩ } } : State).onProg 1
      fun r => { r with state := .running }).onLink 0 fun r => { r with state := .up, capacity := 1000 }).onRate 0
      fun r => { r with prevRate := 1000, pending := { maxRate := 400, rDown := 500, rUp := 9000, collapse := 50 } }).onRate 1
      fun r => { r with decided := .half, pending := { maxRate := 900, rUp := 100 } }) (boosted : Prog → Bool)
    (hb : boosted = fun _ => false) :
    Quiet s ∧ s.cmu.held = none ∧ periodDue s = true ∧ s.clm.clips = [] ∧ (∀ p, s.sri.onAir.get p = false) ∧
    (∀ p, boosted p = false) ∧ (prog s 0).state = .running ∧ (rateOf s 0).decided = .full ∧
    min 400 (1000 * 1 / 2) < (rateOf s 0).pending.rDown ∧ 400 * 100 < 1000 * (100 - 50) ∧
    (rateOf s 1).decided = .half ∧ (rateOf s 1).pending.rUp < min 900 (1000 * 1 / 2) ∧ (loopOf s 1).method = .full := by
  subst hs hb; unfold Quiet NoOwed; decide +kernel

/-- A block event at which the mixer mixes block 7, or, one block behind the lag, block 7 after skipping block 6: input 0 gives
1,000,000 to bus 0. -/
def mixing (next : BlockNo) : State :=
  ({ withProg 0 { state := .running } with
    tbu := atBlock
    smx := { State.reset.smx with
      aligned := true, next := next
      inputs := (Table.replicate 32 {}).set 0 { store := [⟨6, silentBlock⟩, ⟨7, Table.replicate 16 1000000⟩] } } } : State).onCross
    0 0 fun _ => ⟨4096, 4096, 4096⟩

/-- `mixing` with trigger 2 about to open on camera `p`, in a table of `k` records. -/
def opening (next : BlockNo) (p : Prog) (k : Nat) : State :=
  { (mixing next).onTrigger 2 fun t => { t with
    hi := 1000000, nOpen := 1, cameras := (Table.replicate 4 false).set p true } with clm := clipTable k [] }

/-- R88: the gap at the lag and one above it. -/
theorem test_witness_lagSkip (next : BlockNo) (hn : next = 7 ∨ next = 6) (s : State) (hs : s = mixing next) :
    Quiet s ∧ s.tbu.blockDue = true ∧ s.smx.aligned = true ∧ (∀ i, (s.sdp.get i).enable = false) ∧
    (9 : BlockNo) = BitVec.ofNat 16 (s.tbu.tick.toNat / 16) - 1 ∧ s.smx.lag ≤ ((9 : BlockNo) - s.smx.next).toNat ∧
    ((9 : BlockNo) - s.smx.next).toNat < 32768 ∧ (7 : BlockNo) = 9 - BitVec.ofNat 16 s.smx.lag := by
  subst hs; rcases hn with rfl | rfl <;> (unfold Quiet NoOwed; decide +kernel)

/-- R101, R102: a trigger that opens on a camera that is RUNNING and on one that is not, in a table with room and a full one. -/
theorem test_witness_triggerOpens (p : Prog) (hp : p = 0 ∨ p = 1) (k : Nat) (hk : k = 63 ∨ k = 64) (s : State)
    (hs : s = opening 7 p k) (kept : List Prog) (hkept : kept = if p = 0 then [0] else []) :
    (triggerOf s 2).MarksIn 1000000 ∧ (∀ i, i ≠ 2 → (triggerOf s i).hi ≤ (triggerOf s i).lo ∧ (triggerOf s i).state = .idle) ∧
    kept.Pairwise (· < ·) ∧
    (∀ q, q ∈ kept ↔ (∃ r, (triggerOf s 2).cameras.get r = true ∧ fold s r = q) ∧ (prog s q).state = .running) ∧
    s.clm.clips.length = k ∧ s.clm.acked = [] ∧ NoLinkTakes s ∧ s.cmu.noticesHome = false := by
  subst hkept hs
  rcases hp with rfl | rfl <;> rcases hk with rfl | rfl <;> (unfold NoLinkTakes Trigger.MarksIn; decide +kernel)

theorem test_witness_triggerPeak : (busOf (after .blockEvent (opening 7 0 63)) 0).blockPeak = 1000000 := by decide +kernel

/-- R103: a trigger that releases its recorded clip, below its threshold. -/
theorem test_witness_triggerReleases (s : State)
    (hs : s = { (mixing 7).onTrigger 2 fun t => { t with
      hi := 1000002, lo := 1000001, nClose := 1, state := .active, clip := .number 9 } with
      clm := { clips := [clip 9 .opened], next := 10, postRoll := 1 } }) :
    (busOf (after .blockEvent s) 0).blockPeak = 1000000 ∧ (triggerOf s 2).MarksOut 1000000 9 ∧ s.clm.postRoll ≠ 0 ∧
    ClipsOk s.clm := by
  subst hs
  exact ⟨by decide +kernel, by unfold Trigger.MarksOut; decide +kernel, by decide,
    ⟨by decide, by decide, by decide, by decide, by decide⟩⟩

/-- R131, R140: a tally cell with P1 entering and P0 leaving; P1 RUNNING and not, in a table with room and a full one. -/
theorem test_witness_tallyFurther (auto : Bool) (st : ProgState) (hst : st = .running ∨ st = .ready) (k : Nat)
    (hk : k = 63 ∨ k = 64) (t : Option Nat) (ht : t = if auto then none else some 2) (s : State)
    (hs : s = { withProg 1 { state := st } with
      clm := { clipTable k [] with
        autoMark := auto, postRoll := 3, tally := (Table.replicate 4 none).set 0 t, view := (Table.replicate 4 false).set 0 true }
      sri := (mapped 12 .tally).sri })
    (view : Table 4 Bool) (hv : view = (Table.replicate 4 false).set 1 true) :
    Quiet s ∧ s.sri.table.get 12 = .tally ∧ (2 : Byte).toNat ≤ 4 ∧ s.clm.autoMark = auto ∧ s.clm.postRoll ≠ 0 ∧
    (s.clm.view.get 0 = true ∧ view.get 0 = false) ∧ (auto = true → s.clm.tally.get 0 = none) ∧
    (auto = false → ∃ c ∈ s.clm.clips, c.state = .opened ∧ s.clm.tally.get 0 = some c.number) ∧
    (∀ q, view.get q = true ∧ s.clm.view.get q = false ↔ q = 1) ∧ ((prog s 1).state = .running ∨ (prog s 1).state ≠ .running) ∧
    s.clm.clips.length = k ∧ s.clm.acked = [] ∧ s.cmu.noticesHome = false ∧ s.cmu.notices.length < 32 := by
  subst hv hs ht
  cases auto <;> rcases hst with rfl | rfl <;> rcases hk with rfl | rfl <;> (unfold Quiet NoOwed; decide +kernel)

/-- R202: a first cell of one cell, and of 2 and 8, over a partial message. -/
theorem test_witness_controlOver (n : Byte) (hn : n = 1 ∨ n = 2 ∨ n = 8) (s : State)
    (hs : s = small.onSri fun r => { r with partials := r.partials.set 255 (some partial3) }) :
    Quiet s ∧ s.sri.table.get 255 = .control ∧ van.src = .van 255 none ∧ s.sri.partials.get 255 = some partial3 ∧
    (56 : BitVec 16).toNat ≤ 56 ∧ (n = 1 ∨ 2 ≤ n.toNat ∧ n.toNat ≤ 8) ∧ s.cmu.noticesHome = false ∧ s.cmu.notices.length < 32 := by
  subst hs; rcases hn with rfl | rfl | rfl <;> (unfold Quiet NoOwed; decide +kernel)

/-- R131 to R133: an OPEN record, marked out with post-roll 0, with an in-point pending and with labels waiting. -/
theorem test_witness_markOutAtOnce (s : State)
    (hs : s = withClips { clips := [{ clip 9 .opened with cameras := [⟨0, none⟩] }, clip 10 .opened, clip 11 .closed], next := 12
                          waiting := [11] }) :
    VanReady van 255 s ∧ s.clm.postRoll = 0 ∧ (∃ c ∈ s.clm.clips, c.state = .opened ∧ ∃ k ∈ c.cameras, k.inPoint = none) ∧
    clip 10 .opened ∈ s.clm.clips ∧ s.clm.waiting ≠ [] := by
  subst hs; unfold VanReady Quiet NoOwed; decide +kernel

/-- R125, R135, R137: a record in each state, and a number that no record has. -/
theorem test_witness_labelStates (st : ClipState)
    (hst : st = .opened ∨ st = .postRoll ∨ st = .closing ∨ st = .closed ∨ st = .sent ∨ st = .acked) (s : State)
    (hs : s = withClips { clips := [clip 9 st], next := 10 }) :
    VanReady van 255 s ∧ clip 9 st ∈ s.clm.clips ∧ (clip 9 st).state = st ∧ ClipsOk s.clm ∧
    (∀ c ∈ s.clm.clips, c.number ≠ 10) := by
  subst hs
  rcases hst with rfl | rfl | rfl | rfl | rfl | rfl <;>
    exact ⟨by unfold VanReady Quiet NoOwed; decide +kernel, by decide, rfl,
      ⟨by decide, by decide, by decide, by decide, by decide⟩, by decide⟩

/-! ### Witnesses: takes, link settings, queries and messages -/

/-- `small` with link 3 UP and of that credit, and the packets in the PICTURE queue. -/
def upWith (credit : Nat) (q : List Packet) : State :=
  { ((withLink 3 { state := .up, capacity := 240 }).onSched 3 fun h => { h with credit := credit }).onPool
    (fun k => { k with picture := q }) with tbu := locked }

/-- R166: the head of a PICTURE queue that alone holds packets is the candidate of a link without reservation. -/
theorem candidate_of_picture {l : Link} {s : State} {p : Packet} {rest : List Packet} (hq : s.pkp.picture = p :: rest)
    (hk : permits (link s l) .picture = true) (hr : s.pkp.reply = [] ∧ s.pkp.label = [] ∧ s.pkp.sound = [])
    (hn : ∀ k, (sched s k).reservation = none) : Candidate l s .picture [] p rest where
  stands := hq
  permitted := hk
  noReply _ _ := hr.1
  noLabel _ _ := hr.2.1
  noSound _ _ := hr.2.2
  first _ := rfl
  reserved r _ h := by simp [hn] at h
  free _ _ := ⟨fun k r _ h => by simp [hn] at h, fun _ h => by simp at h⟩

/-- R166: no link has a candidate where the class queues are empty. -/
theorem no_candidate_of_empty {l : Link} {s : State} (h : QueuesEmpty s) (c : QueueClass) (skipped : List Packet) (p : Packet)
    (rest : List Packet) : ¬ Candidate l s c skipped p rest := by
  intro hc
  have hs := hc.stands
  obtain ⟨h1, h2, h3, h4⟩ := h
  cases c <;> simp [Pool.queue, h1, h2, h3, h4] at hs

/-- R166 to R168: an attempt without a candidate; one a byte short of credit, and one with just enough. -/
theorem test_witness_attempts :
    LinkTakes 3 (upWith 1328 []) ∧ TakeAttempt 3 (upWith 1328 []) (upWith 1328 []) ∧
    TakeAttempt 3 (upWith 1327 [sliceOfP1 1 1328]) (upWith 1327 [sliceOfP1 1 1328]) ∧
    TakeAttempt 3 (upWith 1328 [sliceOfP1 1 1328])
      (takenBy 3 .picture (sliceOfP1 1 1328) [] (upWith 1328 [sliceOfP1 1 1328])) := by
  refine ⟨by unfold LinkTakes; decide +kernel, .noCandidate (no_candidate_of_empty (by unfold QueuesEmpty; decide)),
    .noCredit (candidate_of_picture rfl (by decide) (by decide) (by decide +kernel)) ?_ (by decide +kernel),
    .take (candidate_of_picture rfl (by decide) (by decide) (by decide +kernel)) ?_ (by decide +kernel)⟩ <;>
    (rintro ⟨d, hd, -⟩; simp [sliceOfP1] at hd)

/-- R152, R167: a packet one tick past its deadline is dropped, and the link attempts again. -/
theorem test_witness_lateDrop (p : Packet) (hp : p = { sliceOfP1 1 1328 with deadline := some 99 }) :
    TakeAttempt 3 (upWith 1328 [p]) (droppedBy 3 .picture p [] (upWith 1328 [p])) := by
  subst hp
  exact .drop (candidate_of_picture rfl (by decide) (by decide) (by decide +kernel)) ⟨99, rfl, by decide, by decide⟩ (by decide)
    (by decide) (.noCandidate (no_candidate_of_empty (by unfold QueuesEmpty; decide +kernel)))

/-- R170, R176: a link that can take once its slot is empty, and one whose list falls to 255; no other link can. -/
theorem test_witness_takesAfter (s : State)
    (hs : s = (upWith 1328 [sliceOfP1 1 1328]).onSched 3 fun h => { h with slot := some ⟨label, 0, 0, 0⟩ })
    (u : State) (hu : u = (upWith 1328 [sliceOfP1 1 1328]).onSched 3 fun h => { h with
      inFlight := (List.range 256).map fun n => ⟨BitVec.ofNat 16 n, probe, 0⟩, nextSeq := 256 }) :
    (sched s 3).slot = some ⟨label, 0, 0, 0⟩ ∧ (link s 3).state.carries = true ∧ (sched s 3).inFlight.length + 1 < 256 ∧
    (∀ k, k ≠ 3 → ¬ ((link s k).state.carries = true)) ∧ (link u 3).state ≠ .proving ∧ (sched u 3).slot = none ∧
    ((sched u 3).inFlight.drop 1).length < 256 ∧ (0 - (sched u 3).lastAck : Seq).toNat = 1 ∧
    1 ≤ ((sched u 3).nextSeq - 1 - (sched u 3).lastAck).toNat ∧ (sched u 3).epoch = 0 := by
  subst hs hu; decide +kernel

/-- R164, R183, R186, R190: LINK-SET of a link in each state: a count above the probes retired and at them, a burst limit raised,
and an ack timeout that the oldest entry exceeds and just meets. -/
theorem test_witness_linkSet (st : LinkState) (hst : st = .down ∨ st = .held ∨ st = .proving ∨ st = .up ∨ st = .degraded)
    (timeout : Nat) (ht : timeout = 4800 ∨ timeout = 4801) (s : State)
    (hs : s = ({ withLink 3 { state := st, proving := some { sent := 3, retired := 2, deadline := 9000, nextProbe := 9000 }
                              openCommand := some ⟨1, .van⟩ } with tbu := { locked with tick := 4801 } } : State).onSched 3
      fun h => { h with inFlight := [⟨0, probe, 0⟩] }) :
    VanReady van 255 s ∧ (link s 3).state = st ∧ (2 < 3 ∧ 2 ≤ 2) ∧ QueuesEmpty s ∧
    ({ link := some 3, count := some 2 } : LinkFields) ≠ { link := some 3 } ∧
    (link s 3).settings.floor ≤ (link s 3).reported * (link s 3).settings.share / 100 ∧ (link s 3).code = 0 ∧
    s.cmu.noticesHome = false ∧ s.cmu.notices.length + 2 ≤ 32 ∧ (link s 3).openCommand = some ⟨1, .van⟩ ∧
    timeout ≠ (link s 3).settings.ackTimeout ∧
    (timeout < (s.tbu.tick - 0).toNat ∨ (s.tbu.tick - 0).toNat ≤ timeout) ∧ (link s 3).timedOut ≠ some 0 ∧
    (link s 3).settings.burst < 2657 ∧ (sched s 3).reservation = none ∧
    (∀ p, (prog s p).pair = false) ∧ (∀ k, k ≠ 3 → (link s k).state.carries = false) := by
  subst hs
  rcases hst with rfl | rfl | rfl | rfl | rfl <;> rcases ht with rfl | rfl <;>
    (unfold VanReady Quiet NoOwed QueuesEmpty; decide +kernel)

/-- R183: fields past their ranges, and pairs that are barred. -/
theorem test_witness_linkFields :
    3 < 4 ∧ (∀ k ∈ [1, 4], 1 ≤ k ∧ k ≤ 4) ∧ (∃ k ∈ [5], k = 0 ∨ 4 < k) ∧
    (∀ p ∈ [(5, 2), (4, 5)], 1 ≤ p.1 ∧ p.1 ≤ 5 ∧ 1 ≤ p.2 ∧ p.2 ≤ 5 ∧ (p.1 = 5 → p.2 ≤ 2)) ∧
    (∃ p ∈ [(5, 3)], p.1 = 0 ∨ 5 < p.1 ∨ p.2 = 0 ∨ 5 < p.2 ∨ p.1 = 5 ∧ 3 ≤ p.2) := by decide

/-- `small` while a STATUS-QUERY is at the head of its queue. -/
def asked (f : QueryFields) : State := { small with cmu := { van := [⟨van, 22, .command (.statusQuery f)⟩] } }

/-- R207: the figures of a block, of its last object, and of the blocks that a clear option clears; objects that no block has. -/
theorem test_witness_figures (f : QueryFields) :
    (∃ r, Figures (asked f) 1 (some (9, [(255 : RingStream).val])) r) ∧ (∃ r, Figures (asked f) 2 none r) ∧
    (∃ r, Figures (asked f) 7 (some (6, [(31 : Fin 32).val, (7 : Fin 8).val])) r) ∧ (∃ r, Figures (asked f) 10 none r) ∧
    (∃ r, Figures (asked f) 11 none r) ∧ (∃ r, Figures (asked f) 11 (some (11, [(3 : Link).val])) r) ∧
    (∃ r, Figures (asked f) 12 none r) ∧ (∃ r, Figures (asked f) 12 (some (11, [(3 : Link).val])) r) ∧
    (∀ r, ¬ Figures (asked f) 2 (some (3, [0])) r) ∧ (∀ r, ¬ Figures (asked f) 11 (some (11, [4])) r) := by
  refine ⟨⟨_, .stream 255 .ring⟩, ⟨_, .timebase _ rfl⟩, ⟨_, .cross 31 7 _ .mixer rfl⟩, ⟨_, .pool _ rfl⟩, ⟨_, .scheduler⟩,
    ⟨_, .linkSched 3 _ rfl⟩, ⟨_, .supervisor⟩,
    ⟨_, .link 3 _ _ none _ rfl rfl (fun p => ⟨nofun, fun h => nomatch (show LinkState.down = .proving from h.1)⟩) fun _ => rfl⟩, ?_, ?_⟩
  · intro r h
    generalize ho : (some (3, [0]) : Option (Nat × List Nat)) = o at h
    cases h <;> simp at ho <;> omega
  · intro r h
    generalize ho : (some (11, [4]) : Option (Nat × List Nat)) = o at h
    cases h <;> simp at ho <;> omega

/-- R204: lists that are out of range, commands that a desk, HOME authority, VAN authority and the home origin shut out, and
commands that they let pass. -/
theorem test_witness_judgement :
    ListOut (.mixSet []) ∧ ListOut (.eventsClear (.flags (List.replicate 20 1))) ∧ ¬ ListOut (.mixSet [⟨0, 0, 0⟩]) ∧
    ¬ ListOut (.refresh none) ∧ ShutOut .both (.van 20 (some 3)) (.refresh none) ∧
    ShutOut .home (.van 255 none) (.refresh none) ∧ ShutOut .van .home (.refresh none) ∧ ShutOut .both .home (.authoritySet {}) ∧
    ¬ ShutOut .both (.van 255 none) (.refresh none) ∧ ¬ ShutOut .both .home (.refresh none) ∧
    ¬ ShutOut .home (.van 20 (some 3)) (.clipQuery {}) ∧ Command.refresh none ≠ .reset 2 := by
  simp [ListOut, ShutOut, DeskMay, NeedsNone]

/-- R204, 12.1: no bytes, and one empty field, fill their length; a lone identifier does not, and identifier 17 is no field's. -/
theorem test_witness_fields :
    FieldsFill [] ∧ FieldsFill [0, 0] ∧ ¬ FieldsFill [0] ∧
    (∃ fields : List (Byte × List Byte), (∀ f ∈ fields, f.2.length < 256) ∧ (∃ f ∈ fields, 16 < f.1.toNat) ∧
      [17, 0] = (fields.map fun f => f.1 :: byteOf f.2.length :: f.2).flatten) ∧
    (0 : Byte).toNat = 0 ∧ 25 < (26 : Byte).toNat ∧ (1 ≤ (25 : Byte).toNat ∧ (25 : Byte).toNat ≤ 25) := by
  refine ⟨⟨[], by simp, rfl⟩, ⟨[(0, [])], by simp, rfl⟩, ?_, ⟨[(17, [])], by simp, by decide, rfl⟩, by decide⟩
  rintro ⟨fields, -, h⟩
  rcases fields with _ | ⟨f, _⟩ <;> simp at h

/-- R203 to R205: a home message under each authority, with a block for its reply and with none. -/
theorem test_witness_homeMessages (a : Authority) (ha : a = .van ∨ a = .home ∨ a = .both) (free : List Nat)
    (hf : free = [] ∨ free = [7]) (s : State)
    (hs : s = { small.onPool (fun p => { p with free := free }) with cmu := { authority := a } }) :
    Quiet s ∧ NoLinkTakes s ∧ s.cmu.held = none ∧ s.cmu.noticesHome = false ∧ s.cmu.notices.length < 31 ∧ home.src = .home ∧
    (1 ≤ s.pkp.free.length ∧ (s.pkp.owners.get 5).count + 1 ≤ (s.pkp.owners.get 5).cap ∨ s.pkp.free = []) ∧
    (ShutOut s.cmu.authority home.src (.refresh none) ↔ a = .van) ∧ ¬ ListOut (.refresh none) ∧ ListOut (.mixSet []) := by
  subst hs
  rcases ha with rfl | rfl | rfl <;> rcases hf with rfl | rfl <;>
    exact ⟨by unfold Quiet NoOwed; decide +kernel, by unfold NoLinkTakes; decide +kernel, rfl, rfl, by decide, rfl, by decide +kernel,
      by simp [ShutOut, NeedsNone, home], by simp [ListOut], by simp [ListOut]⟩

/-- R203: a full HOME queue, whose head's reply is held, with a block for the reply QUEUE-FULL and with none. -/
theorem test_witness_homeQueueFull (free : List Nat) (hf : free = [] ∨ free = [7]) (s : State)
    (hs : s = { small.onPool (fun p => { p with free := free }) with
      cmu := { home := List.replicate 8 ⟨home, 6, .unknown⟩, held := some ⟨7, [6, 1, 0, 0]⟩ } }) :
    NoOwed s ∧ s.cmu.home.length = 8 ∧ s.cmu.held ≠ none ∧ s.cmu.van = [] ∧ NoLinkTakes s ∧ s.cmu.noticesHome = false ∧
    s.cmu.notices.length < 31 ∧ messageOf (.refresh home none) = some (home, .refresh none) ∧
    (1 ≤ s.pkp.free.length ∧ (s.pkp.owners.get 5).count + 1 ≤ (s.pkp.owners.get 5).cap ∨ s.pkp.free = []) := by
  subst hs
  rcases hf with rfl | rfl <;> exact ⟨by unfold NoOwed; decide +kernel, by decide, by decide, rfl,
    by unfold NoLinkTakes; decide +kernel, rfl, by decide, rfl, by decide +kernel⟩


/-- R130, R134: P1 leaves RUNNING with a record that waits for it alone, one of two cameras that closes without it, and a label
that waits already. -/
def stopping : State :=
  { (withProg 1 { state := .running, openStop := some ⟨1, .van⟩ }) with
    clm := {
      clips := [{ clip 7 .opened with cameras := [⟨1, none⟩] },
        { clip 8 .closing with cameras := [⟨0, some ⟨5, false⟩⟩, ⟨1, none⟩], expiry := some 8 }, clip 9 .closed]
      next := 10, waiting := [9] } }

theorem test_witness_camerasStop : LeaveSettles 1 stopping :=
  ⟨⟨by decide, by decide, by decide, by decide, by decide⟩, rfl, by decide, .inr ⟨9, by decide, by decide⟩, by decide⟩

theorem test_witness_camerasStop_close :
    VanReady van 255 stopping ∧ (prog stopping 1).state = .running ∧ NoLinkTakes stopping ∧
    stopping.clm.clips.map (fun c => (c.closesWithout 1, stopping.clm.frees 1 c.number)) =
      [(false, true), (true, false), (false, false)] := by
  unfold VanReady Quiet NoOwed NoLinkTakes; decide +kernel

/-- A band of P0's picture, one of three or the last, at the end of its coding. -/
def ending (d : Nat) (e : Entry) (b : Band) (r : Programme) : State :=
  coding (some { e with done := d, started := d + 1 }) b r

/-- R54: two fragments granted, the second refused, a seventh, and a band lost before. -/
theorem test_witness_bandQueued (coded : List Byte) (hc : coded.length = 1400) (s : State) (hs : s = ending 1 inProgress lastBand { state := .running }) :
    ∃ base, BandCloses coded lastBand inProgress s base (8 * coded.length) := by
  subst hs
  exact ⟨_, .queued (new := [[0, 1, 2, 3, 4, 5], [6]]) (rest := [7, 8, 9, 10, 11]) rfl ⟨rfl, by rw [hc]; rfl, by decide⟩
    (by rw [hc]; rfl) (by rw [hc]; decide)⟩

theorem test_witness_bandRefused (coded : List Byte) (hc : coded.length = 1400) (s : State)
    (hs : s = (ending 1 inProgress lastBand { state := .running }).onPool fun k => { k with free := [0, 1, 2, 3, 4, 5] }) :
    ∃ base, BandCloses coded lastBand inProgress s base 0 := by
  subst hs
  exact ⟨_, .refused (new := [[0, 1, 2, 3, 4, 5]]) (rest := []) (k := 1) rfl ⟨rfl, by rw [hc]; rfl, by decide⟩
    (by rw [hc]; decide) (by decide) (by rw [hc]; rfl) (by decide)⟩

theorem test_witness_bandSeventh (coded : List Byte) (hc : coded.length = 8000) (b : Band) (hb : b = { lastBand with frags := List.replicate 6 [20] }) (s : State)
    (hs : s = ending 1 inProgress b { state := .running }) :
    ∃ base, BandCloses coded b inProgress s base 0 := by
  subst hs hb
  exact ⟨_, .seventh (new := []) rfl ⟨rfl, rfl, by decide⟩ rfl (by rw [hc]; decide)⟩

theorem test_witness_bandLost (b : Band) (hb : b = { lastBand with lost := true }) (s : State)
    (hs : s = ending 1 inProgress b { state := .running }) : BandCloses [] b inProgress s s 0 := by
  subst hs hb; exact .lost rfl

/-- R52, R58, R78: the limit strikes under each action or has struck, and a last band with and without an overflow, RUNNING and
STOPPING; 300 + 8 × 1 bits are produced. -/
theorem test_witness_bandEnds (d : Nat) (hd : d = 1 ∨ d = 2) (struck : Bool) (a : LimitAction)
    (ha : a = .coarsen ∨ a = .shed ∨ a = .report ∨ a = .off) (st : ProgState) (hst : st = .running ∨ st = .stopping)
    (n : Nat) (hn : n = 307 ∨ n = 308) (e : Entry)
    (he : e = { inProgress with done := d, started := d + 1, struck := struck, limit := 307, codingQ := 30 }) (s : State)
    (hs : s = (coding (some e) lastBand { state := st, openStop := some ⟨1, .van⟩, cfg := { action := a } }).onRate 0
      fun r => { r with limit := n }) :
    Quiet s ∧ NoLinkTakes s ∧ Alone 0 s ∧ fold s 0 = 0 ∧ s.cde.band = some lastBand ∧ entryOf s 0 = some e ∧ 0 < e.bands ∧
    s.cmu.noticesHome = false ∧ s.cmu.notices.length + 5 ≤ 32 ∧ (prog s 0).openStop = some ⟨1, .van⟩ ∧
    (prog s 0).cfg.action = a ∧ (prog s 0).state = st ∧ (rateOf s 0).limit = n ∧ e.limit < e.produced + 8 * 1 ∧
    (prog s 0).cfg.qMin ≤ 20 ∧ 20 ≤ (prog s 0).cfg.qMax := by
  subst hs he
  rcases hd with rfl | rfl <;> rcases ha with rfl | rfl | rfl | rfl <;> rcases hst with rfl | rfl <;>
    rcases hn with rfl | rfl <;> cases struck <;> (unfold Quiet NoOwed NoLinkTakes Alone; decide +kernel)

/-- R53: two skip-band slices, of which one is granted and one refused. -/
theorem test_witness_sheds (s : State) (hs : s = small.onPool fun k => { k with free := [4] }) :
    ∃ t, Sheds 0 inProgress 1 s t := by
  subst hs; exact ⟨_, 1, by decide, by decide, by decide, by decide, rfl⟩

/-! ### Witness: the pool's books and a link's list (R146, R147, R171) -/

/-- A queued packet, one in a slot and one in flight, each of one block; the sequences pass from 65,535 to 0. -/
def holding (n : Nat) : Packet :=
  { kind := .reply, owner := some .labelReply, subject := none, number := 0, stamp := 0, size := 20, blocks := [n] }

def lending (free : List Nat) : State :=
  ({ State.reset with
    pkp := { free := free, owners := (Table.replicate 6 {}).set 5 { count := 3, cap := 64 }, reply := [holding 0] }
    tbu := locked } : State).onLink 1 (fun r => { r with state := .up, window := some { start := 100 } })
    |>.onSched 1 fun h => { h with
      nextSeq := 0, lastAck := 65534, slot := some ⟨holding 1, 0, 0, 99⟩, inFlight := [⟨65535, holding 2, 98⟩] }

theorem test_witness_pool (free : List Nat) (hf : free = (List.range 16384).drop 3) : PoolOk (lending free) := by
  have hh : holdings (lending free) = [(some .labelReply, [0]), (some .labelReply, [1]), (some .labelReply, [2])] := rfl
  have hs : ∀ i, (State.reset.sdp.get i).enable = false ∧ (State.reset.sdp.get i).assembly = none := by decide +kernel
  have ho : ∀ i, ((lending free).pkp.owners.get i).count = if i = 5 then 3 else 0 := by
    show ∀ i, (((Table.replicate 6 {}).set 5 { count := 3, cap := 64 } : Table 6 OwnerRecord).get i).count = _
    decide
  refine ⟨?_, ?_, by rw [hh]; decide, fun b hb => ?_, fun i _ => (hs i).2, fun i a p ha => ?_⟩
  · rw [hh]
    have ht : [0, 1, 2] = (List.range 16384).take 3 := by rw [List.take_range]; rfl
    have hp : (free ++ [0, 1, 2]).Perm (List.range 16384) := by
      rw [hf, ht]
      exact List.perm_append_comm.trans (by rw [List.take_append_drop])
    exact hp
  · rw [hh]
    intro o
    rw [ho]
    cases o with
    | prog p => revert p; decide
    | _ => decide
  · exact absurd (show (none : Option Band) = some b from hb) (by simp)
  · have h2 : (State.reset.sdp.get i).assembly = some a := ha
    rw [(hs i).2] at h2; simp at h2

theorem test_witness_lanes (free : List Nat) (l : Link) :
    LaneOk (link (lending free) l).state (sched (lending free) l) := by
  have key : ∀ l, (l = 1 ∧ (link (lending []) l).state = .up ∧ sched (lending []) l = { ({} : LinkSched) with
      nextSeq := 0, lastAck := 65534, slot := some ⟨holding 1, 0, 0, 99⟩, inFlight := [⟨65535, holding 2, 98⟩] }) ∨
      ((link (lending []) l).state = .down ∧ sched (lending []) l = {}) := by decide +kernel
  have h : LaneOk (link (lending []) l).state (sched (lending []) l) := by
    rcases key l with ⟨-, h1, h2⟩ | ⟨h1, h2⟩ <;> rw [h1, h2]
    · refine ⟨by decide, by decide, fun i e he => ?_, fun _ _ => by decide, fun v hv => ?_⟩
      · cases i with
        | zero => simp at he; subst he; decide
        | succ i => simp at he
      · simp only [Option.some.injEq] at hv
        subst hv; decide
    · exact ⟨fun _ => ⟨rfl, rfl⟩, by decide, by simp, fun h => absurd rfl h, by simp⟩
  exact h

/-- An acknowledgement of the entry in flight is a step of that state. -/
theorem test_witness_poolStep : ∃ t, step { lending [3] with pending := [.ack 1 0 65535] } = .next t ∧ (sched t 1).inFlight = [] :=
  ⟨_, rfl, by decide +kernel⟩

/-! ### Ill-formed commands, one for each check of `Instr.wf` -/

theorem test_wf_fields :
    [TimebaseFields.wf { base := some 65536 }, TimebaseFields.wf { num := some 256 }, TimebaseFields.wf { den := some 256 },
      TimebaseFields.wf { rate := some 256 }, TimebaseFields.wf { origin := some 4294967296 },
      FormatFields.wf { entry := some 256 }, FormatFields.wf { width := some 256 }, FormatFields.wf { bands := some 256 },
      ProgFields.wf { prog := some 256 }, ProgFields.wf { enable := some 256 }, ProgFields.wf { format := some 256 },
      ProgFields.wf { group := some 256 }, ProgFields.wf { factor := some 256 }, ProgFields.wf { qMin := some 256 },
      ProgFields.wf { qMax := some 256 }, ProgFields.wf { offset := some 256 }, ProgFields.wf { bandLimit := some 65536 },
      ProgFields.wf { action := some 256 }, ProgFields.wf { latency := some 256 }, ProgFields.wf { delay := some 65536 },
      ProgFields.wf { hold := some 256 }, ProgFields.wf { guard := some 256 }, ProgFields.wf { pair := some 256 },
      RateFields.wf { prog := some 256 }, RateFields.wf { weight := some 256 }, RateFields.wf { boost := some 256 },
      RateFields.wf { minRate := some 4294967296 }, RateFields.wf { maxRate := some 4294967296 },
      RateFields.wf { rDown := some 4294967296 }, RateFields.wf { rUp := some 4294967296 },
      RateFields.wf { collapse := some 256 }, RateFields.wf { step := some 256 }, RateFields.wf { headroom := some 256 },
      RateFields.wf { labelReserve := some 65536 }, MapFields.wf { entries := List.replicate 86 ⟨0, 1, 0⟩ },
      MapFields.wf { output := some 256 }, MapFields.wf { entries := [⟨256, 1, 0⟩] }, MapFields.wf { entries := [⟨0, 256, 0⟩] },
      MapFields.wf { entries := [⟨0, 1, 256⟩] }].all (!·) = true := by decide +kernel

theorem test_wf_sound_fields :
    [InputFields.wf { input := some 256 }, InputFields.wf { trim := some 65536 }, InputFields.wf { mute := some 256 },
      InputFields.wf { groups := some [256] }, InputFields.wf { groups := some (List.replicate 256 0) },
      InputFields.wf { policy := some 256 }, mixWf (List.replicate 64 ⟨0, 0, 0⟩), mixWf [⟨256, 0, 0⟩], mixWf [⟨0, 256, 0⟩],
      mixWf [⟨0, 0, 65536⟩], BusFields.wf { bus := some 256 }, BusFields.wf { master := some 65536 },
      BusFields.wf { decay := some 65536 }, BusFields.wf { lag := some 256 },
      BusFields.wf { groups := Table.replicate 8 (some 256) }, TriggerFields.wf { trigger := some 256 },
      TriggerFields.wf { bus := some 256 }, TriggerFields.wf { hi := some 4294967296 }, TriggerFields.wf { lo := some 4294967296 },
      TriggerFields.wf { nOpen := some 256 }, TriggerFields.wf { nClose := some 256 }, TriggerFields.wf { cameras := some [256] },
      TriggerFields.wf { priority := some 256 }, StreamFields.wf { stream := some 256 }, StreamFields.wf { enable := some 256 },
      StreamFields.wf { left := some 256 }, StreamFields.wf { right := some 256 }, StreamFields.wf { width := some 256 },
      StreamFields.wf { linked := some (some 256) }, StreamFields.wf { fixedDelay := some 4294967296 },
      StreamFields.wf { trim := some 32768 }, StreamFields.wf { trim := some (-32769) },
      StreamFields.wf { allowance := some 65536 }].all (!·) = true := by decide +kernel

theorem test_wf_other_fields :
    [ClipRef.wf { clip := some 65536 }, ClipRef.wf { desk := some 256 }, MarkFields.wf { ref := { clip := some 65536 } },
      MarkFields.wf { cameras := some [256] }, MarkFields.wf { priority := some 256 },
      MarkFields.wf { text := some (List.replicate 256 0) }, ClipSettingsFields.wf { preRoll := some 256 },
      ClipSettingsFields.wf { postRoll := some 256 }, ClipSettingsFields.wf { autoMark := some 256 },
      ClipSettingsFields.wf { tallyPriority := some 256 }, LinkFields.wf { link := some 256 }, LinkFields.wf { share := some 256 },
      LinkFields.wf { kinds := some [256] }, LinkFields.wf { burst := some 65536 }, LinkFields.wf { floor := some 4294967296 },
      LinkFields.wf { ackTimeout := some 4294967296 }, LinkFields.wf { minFraction := some 256 },
      LinkFields.wf { count := some 256 }, LinkFields.wf { proveTimeout := some 4294967296 },
      LinkFields.wf { retryTime := some 4294967296 }, LinkFields.wf { actions := some (List.replicate 128 (1, 1)) },
      LinkFields.wf { actions := some [(256, 1)] }, LinkFields.wf { actions := some [(1, 256)] },
      LinkFields.wf { caps := Table.replicate 6 (some 65536) }, QueryFields.wf { block := some 256 },
      QueryFields.wf { object := some (256, []) }, QueryFields.wf { object := some (1, List.replicate 255 0) },
      QueryFields.wf { object := some (1, [256]) }, ClearList.wf (.flags [256]), AuthorityFields.wf { authority := some 256 },
      AuthorityFields.wf { noticesHome := some 256 }].all (!·) = true := by decide +kernel

theorem test_wf_commands :
    ([.bandCompletion (List.replicate 65528 0), .tallyCell 0 0 [], .controlFirstCell 0 0 0 0 0 [], .controlContinuationCell 0 0 [],
      .timebaseSet van { num := some 256 }, .formatSet van { entry := some 256 }, .programmeSet van { prog := some 256 },
      .programmeStart van (some 256), .programmeStopCut van (some 256) false, .programmeStopFinish van (some 256) false,
      .programmeStopFreeze van (some 256) false, .refresh van (some 256), .rateSet van { prog := some 256 },
      .inputMap van { output := some 256 }, .inputSet van { input := some 256 }, .mixSet van [⟨256, 0, 0⟩],
      .busSet van { bus := some 256 }, .triggerSet van { bus := some 256 }, .soundStreamSet van { left := some 256 },
      .clipMarkIn van { priority := some 256 }, .clipMarkOut van { priority := some 256 },
      .clipMarkExtend van { priority := some 256 }, .clipMarkCancel van { priority := some 256 },
      .clipLabel van { desk := some 256 } none, .clipLabel van {} (some (List.replicate 256 0)), .clipQuery van { desk := some 256 },
      .clipSettings van { preRoll := some 256 }, .linkSet van { share := some 256 }, .linkUp van (some 256),
      .linkDown van (some 256), .linkClear van (some 256), .statusQuery van { block := some 256 },
      .eventsClear van (.flags [256]), .authoritySet van { authority := some 256 },
      .unknownCommand van 0 (List.replicate 449 0), .controlPacket 0 0 0 (List.replicate 65536 0), .unroutedCell [],
      .ignoredReturnPacket [], .ignoredModemReport 0 []] : List Instr).all (fun i => !i.wf) = true := by decide +kernel

/-- The same checks pass the last operands that fit. -/
theorem test_wf_passes :
    ([.timebaseSet van { base := some 65535, num := some 255, den := some 255, rate := some 255, origin := some 4294967295 },
      .mixSet van (List.replicate 63 ⟨255, 255, 65535⟩), .soundStreamSet van { trim := some (-32768), linked := some none },
      .unknownCommand van 0 (List.replicate 448 0), .unroutedCell (List.replicate 64 0), .blockEvent] : List Instr).all
      (·.wf) = true := by decide +kernel

/-! ### Bytes, written out from chapter 12 -/

/-- One message of each family of commands, by its kind and its field records (12.1). -/
theorem test_parse_messages :
    (parseMessage 1 [1, 2, 3, 32, 2, 1, 5, 3, 1, 4, 4, 1, 60, 5, 4, 0, 3, 75, 191] =
      .command (.timebaseSet { base := some 800, num := some 4, den := some 5, rate := some 60, origin := some 215999 })) ∧
    (parseMessage 3 [0, 1, 2, 3, 1, 100, 11, 2, 1, 244] =
      .command (.programmeSet { prog := some 2, group := some 100, delay := some 500 })) ∧
    (parseMessage 5 [0, 1, 1, 1, 1, 1, 2, 0] = .command (.programmeStop (some 1) 1 true)) ∧
    (parseMessage 7 [0, 1, 0, 4, 4, 0, 0, 31, 64] = .command (.rateSet { prog := some 0, maxRate := some 8000 })) ∧
    (parseMessage 8 [1, 6, 255, 5, 0, 20, 4, 3, 2, 1, 254] =
      .command (.inputMap { entries := [⟨255, 5, 0⟩, ⟨20, 4, 3⟩], output := some 254 })) ∧
    (parseMessage 10 [1, 4, 3, 1, 3, 232] = .command (.mixSet [⟨3, 1, 1000⟩])) ∧
    (parseMessage 13 [0, 1, 0, 7, 2, 254, 12] = .command (.soundStreamSet { stream := some 0, trim := some (-500) })) ∧
    (parseMessage 14 [1, 1, 1, 2, 2, 0, 2, 3, 1, 2] =
      .command (.clipMark 1 { cameras := some [0, 2], priority := some 2 })) ∧
    (parseMessage 18 [0, 1, 0, 10, 4, 1, 2, 4, 3] =
      .command (.linkSet { link := some 0, actions := some [(1, 2), (4, 3)] })) ∧
    (parseMessage 22 [0, 1, 12, 1, 2, 11, 3, 2, 0] =
      .command (.statusQuery { block := some 12, object := some (11, [3]), clear := true })) ∧
    (parseMessage 25 [1, 1, 2] = .command (.reset 2)) := by decide +kernel

/-- R204, step 1: records that do not fill the length, EVENTS-CLEAR with both fields and with 20 flags; step 2: kind 26. -/
theorem test_parse_malformed :
    parseMessage 6 [0, 2, 1] = .malformed ∧ parseMessage 23 [1, 1, 1, 2, 0] = .malformed ∧
    parseMessage 23 (1 :: 20 :: List.replicate 20 1) = .malformed ∧ parseMessage 26 [] = .unknown ∧
    parseMessage 23 [2, 0] = .command (.eventsClear .all) := by decide +kernel

/-- 12.3: an ACK of L0, epoch 3, sequence 503; a TAKEN report of epoch 3, sequence 500; a CAPACITY report of 20,000. -/
theorem test_parse_home :
    parseReturn [1, 0, 3, 1, 247] = .ack 0 3 503 ∧ parseReport [3, 3, 1, 244] = .taken 3 500 ∧
    parseReport [1, 0, 0, 78, 32] = .capacity 20000 ∧ parseReturn [1, 0, 3, 1] = .bad := by decide +kernel

/-- 12.1: a TALLY cell of stream 12 for P1 and P3, and a SOUND cell whose first sample is −2. -/
theorem test_parse_cells :
    parseCell ([12, 2, 2, 0, 0, 0, 0, 0, 1, 3] ++ List.replicate 54 0) = .tally 12 2 (1 :: 3 :: List.replicate 54 0) ∧
    (match parseCell ([7, 1, 3, 232, 0, 0, 0, 0, 255, 255, 254] ++ List.replicate 53 0) with
      | .sound i b x => decide (i = 7 ∧ b = 1000 ∧ (x.get 0).toInt = -2 ∧ x.get 1 = 0)
      | _ => false) = true := by decide +kernel

/-- 12.1: the REPLY cell of a DONE to EVENTS-CLEAR, tag 7, from stream 255, on stream 254. -/
theorem test_reply_cell : replyCells 254 7 (({ status := .done } : Reply).bytes ⟨van, 23, .unknown⟩) =
    [[254, 5, 7, 1, 1, 0, 0, 4, 23, 1, 255, 0] ++ List.replicate 52 0] := by decide +kernel

/-- 12.1: the notice of row 6 in chapter 10's worked sequence: L0, ACK-TIMEOUT, HELD, at tick 1,156,001. -/
theorem test_notice_bytes : ({ body := .linkHeld 0 .ackTimeout, tick := 1156001, pic := 5 } : Notice).bytes =
    [0, 0, 0, 0, 0, 17, 163, 161, 0, 0, 0, 5, 1, 1, 0, 2, 1, 1, 3, 1, 4] := by decide +kernel

/-- 12.2: the header of the label of clip 118 that L0 takes under epoch 3 and sequence 100 (chapter 9, row 1). -/
theorem test_packet_header :
    ({ kind := .label, owner := some .labelReply, subject := some 118, number := 12015, stamp := 256, size := 81 } : Packet).header
      0 3 100 = [3, 0, 3, 17, 0, 100, 0, 118, 0, 0, 46, 239, 0, 0, 1, 0] := by decide +kernel

/-- R115: 16-bit samples are rounded and saturate; 24-bit samples are kept. -/
theorem test_pack_sample :
    packSample .bits16 (BitVec.ofInt 24 8388607) = [127, 255] ∧ packSample .bits16 (BitVec.ofInt 24 (-129)) = [255, 255] ∧
    packSample .bits16 (BitVec.ofInt 24 (-128)) = [0, 0] ∧ packSample .bits24 (BitVec.ofInt 24 (-2)) = [255, 255, 254] := by
  decide +kernel


/-! ### Worked figures of the manual, one command at a time -/

/-- Chapter 1, first sequence, row 1. -/
def row1 : State := withTbu { lock := .locked, tick := 119500, run := 48, pic := 2999, period := some ⟨960, 500⟩ }

theorem test_timebaseSet :
    let t := after (.timebaseSet van { base := some 800, num := some 4, den := some 5, rate := some 60, origin := some 215999 }) row1
    t.tbu = { row1.tbu with base := 800, num := 4, den := 5, rate := 60, origin := 215999 } ∧ status t = some 1 := by
  decide +kernel

/-- Chapter 1, first sequence, rows 3, 5 and 8: the accumulator, the period and the timecode. -/
theorem test_periodStart (acc next len : Nat) (pic : Pic) (tc : List Byte)
    (h : (acc, next, len, pic, tc) = (0, 4, 800, 3000, [1, 0, 49, 59]) ∨
      (acc, next, len, pic, tc) = (4, 3, 801, 3001, [1, 0, 50, 0]) ∨
      (acc, next, len, pic, tc) = (1, 0, 801, 3004, [1, 0, 50, 3])) :
    let t := after .periodStart (withTbu {
      lock := .locked, tick := 120000, run := 48, pic := pic - 1, acc := acc, base := 800, num := 4, den := 5, rate := 60
      origin := 215999, period := some ⟨960, 0⟩ })
    t.tbu.pic = pic ∧ t.tbu.acc = next ∧ t.tbu.period = some ⟨len, len⟩ ∧ t.tbu.codeStarts = [⟨pic, 120016⟩] ∧
      timecodeBytes t.tbu pic = tc := by
  rcases h with h | h | h <;> (cases h; decide +kernel)

/-- Chapter 1, second sequence, rows 1, 4, 5 and 7. -/
theorem test_ring_loss :
    (after (.ringFrameStart 16) (withTbu { locked with tick := 499999, miss := 3 })).tbu.miss = 0 ∧
    (after (.ringFrameStart 16) (withTbu { locked with tick := 499999 })).tbu.blockDue = true ∧
    endedBlock (withTbu { locked with tick := 500000 }) = 31249 ∧
    (let t := after .missedFrame (withTbu { locked with tick := 500007, miss := 7 })
     t.tbu.lock = .holdover ∧ t.tbu.run = 0 ∧ (flagRec t .holdover).counter = 1 ∧ t.cmu.notices.length = 1) ∧
    (after .localTick (withTbu { locked with lock := .holdover, tick := 500008 })).tbu.tick = 500009 ∧
    (after (.ringFrameStart 16) (withTbu { locked with lock := .holdover, miss := 8, run := 47 })).tbu.lock = .locked := by
  decide +kernel

/-- Chapter 2, first sequence, rows 2 and 6. -/
def p2 (pic : Pic) : State :=
  ({ withProg 2 { state := .running, cfg := { group := 100, guard := 50 } } with tbu := { locked with pic := pic } } : State).onLoop 2
    fun c => { c with history := [10000] }

theorem test_refreshPacket :
    ((prog (after (.refreshPacket 2) (p2 10030)) 2).ignored = 1 ∧
      (prog (after (.refreshPacket 2) (p2 10030)) 2).refreshOwed = false) ∧
    (prog (after (.refreshPacket 2) (p2 10060)) 2).causes = 1 := by decide +kernel

/-- Chapter 2, first sequence, rows 5 and 8. -/
theorem test_lost_and_back :
    (let t := after .codeStart (starting { state := .running, gapCount := 24 })
     (prog t 0).input = .lost ∧ (flagRec t .inputLost).set = true ∧ t.pkp.picture.length = 1) ∧
    (let t := after (.pictureEndComplete 2) (withProg 2 { input := .lost, gapCount := 25, refreshOwed := true, causes := 1 })
     (prog t 2).input = .present ∧ (prog t 2).gapCount = 0 ∧ (prog t 2).causes = 2) := by decide +kernel

/-- R17: a broken end leaves nothing in delivery or in the store. -/
theorem test_picture_broken :
    (after (.pictureEndBroken 1) (after (.pictureStartSignal 1) small)).ports.get 1 = {} := by decide +kernel

/-- Chapter 2, second sequence, row 3: a CUT with FLUSH of a STOPPING programme. -/
theorem test_cut :
    let t := after (.programmeStopCut van (some 0) true)
      (coding (some inProgress) lastBand { state := .stopping, openStop := some ⟨17, .van⟩ })
    (prog t 0).state = .ready ∧ t.cmu.notices.map (·.answers) = [some ⟨17, .van⟩] ∧
      t.cmu.notices.map (·.body) = [.programme 0 .ready 9 (some .cut)] ∧ t.cde.band.map (·.discard) = some true ∧
      status t = some 1 := by decide +kernel

theorem test_finish_and_freeze :
    (let t := after (.programmeStopFinish van (some 0) false) (coding (some inProgress) lastBand { state := .running })
     (prog t 0).state = .stopping ∧ status t = some 3) ∧
    (let t := after (.programmeStopFreeze van (some 0) false)
      (withProg 0 { state := .running, cfg := { hold := 250 } })
     (prog t 0).state = .freezing ∧ (prog t 0).remHold = 250 ∧ status t = some 3) := by decide +kernel

/-- R22, R24, R25: an entry clamped, an enable that makes READY, a start that is ACCEPTED and one without a usable entry. -/
theorem test_programme_commands :
    ((after (.formatSet van { entry := some 7, bands := some 200 }) small).pgc.formats.get 7 = ⟨0, 135⟩ ∧
      status (after (.formatSet van { entry := some 7, bands := some 200 }) small) = some 2) ∧
    (prog (after (.programmeSet van { prog := some 1, enable := some 1 }) small) 1).state = .ready ∧
    (prog (after (.programmeStart van (some 0)) (starting { state := .ready })) 0).state = .starting ∧
    status (after (.programmeStart van (some 1)) (withProg 1 { state := .ready })) = some 4 ∧
    (prog (after (.refresh van (some 3)) small) 3).refreshOwed = true := by decide +kernel

/-- Chapter 3, first sequence, rows 3, 5 and 8: the loop quantiser after bands 2, 4 and 7. -/
theorem test_loop (i coded produced q q' : Nat)
    (h : (i, coded, produced, q, q') = (1, 250, 1280, 20, 22) ∨ (i, coded, produced, q, q') = (3, 120, 4480, 24, 25) ∨
      (i, coded, produced, q, q') = (6, 60, 7040, 25, 23)) :
    let e : Entry := { pic := 8, type := .follow, method := .full, bands := 68, started := i + 1, done := i, produced := produced
                       target := 82257, limit := 164514, loopQ := q, codingQ := q, tick := 84 }
    let t := after (.bandCompletion (List.replicate coded 0))
      (coding (some e) { lastBand with band := i + 1 } { state := .running, cfg := { qMin := 4, qMax := 40 } })
    (entryOf t 0).map (fun e => (e.produced, e.loopQ, e.done)) = some (produced + 8 * coded, q', i + 1) ∧
      t.pkp.picture.map (fun k => (k.size, k.blocks.length)) = [(coded + 24, (coded + 24 + 255) / 256)] ∧
      t.cde.band.map (fun b => (b.band, b.quant)) = some (i + 2, q') := by
  rcases h with h | h | h <;> (cases h; decide +kernel)

/-- Chapter 3, second sequence, row 4: SHED ends an anchor at its second band of four. -/
theorem test_shed :
    let e : Entry := { pic := 8000, type := .anchor, method := .full, bands := 4, started := 2, done := 1, produced := 64992
                       target := 40000, limit := 60000, loopQ := 24, codingQ := 24, tick := 84 }
    let t := after (.bandCompletion [0])
      (coding (some e) { lastBand with band := 2 } { state := .running, cfg := { action := .shed } })
    entryOf t 0 = none ∧ (loopOf t 0).carried = 26 ∧ (flagRec t .bandLimited).set = true ∧ (prog t 0).refreshOwed = true ∧
      t.pkp.picture.map (fun k => (k.band, k.size)) = [(2, 25), (3, 24), (4, 24)] ∧ (rateOf t 0).fullness = 65000 := by
  decide +kernel

/-- R55: a full fragment takes six blocks. -/
theorem test_fragment :
    (after .fragmentClose (coding (some inProgress) lastBand { state := .running })).cde.band.map (·.frags) =
      some [[0, 1, 2, 3, 4, 5]] := by decide +kernel

/-- Chapter 4, worked allocation: the figures and P1's record. -/
def allocated : State :=
  { small with
    tbu := { locked with base := 801, period := some ⟨801, 0⟩ }
    lsu := ⟨[{ state := .up, capacity := 20000 }, { state := .degraded, capacity := 6000 }, { state := .up, capacity := 8000 }, {}], rfl⟩
    sdp := ⟨[{ enable := true }, { enable := true }, {}, {}], rfl⟩
    sri := { onAir := ⟨[true, false, false, false], rfl⟩ }
    pgc := { progs := ⟨[{ state := .running }, { state := .running }, { state := .running }, {}], rfl⟩ }
    ral := {
      headroom := 10, labelReserve := 200
      progs := ⟨[{ pending := { weight := 100, boost := 2, maxRate := 12000 } },
        { pending := { weight := 100, minRate := 2000, maxRate := 10000 }, fullness := 1900000 },
        { pending := { weight := 50, minRate := 4000, maxRate := 20000 } }, {}], rfl⟩ } }

theorem test_allocation :
    let t := after .periodStart allocated
    t.ral.figures = ⟨31000, 4800, 200, 23400, 350, 6000⟩ ∧ (rateOf t 0).budget = 200250 ∧ (rateOf t 1).rate = 6685 ∧
      (rateOf t 1).budget = 111555 ∧ (rateOf t 1).carry = 45 ∧ (rateOf t 1).fullness = 1788445 ∧
      (rateOf t 1).limit = 3342500 ∧ (rateOf t 1).followTarget = 82257 ∧ (rateOf t 1).anchorTarget = 416922 ∧
      (rateOf t 2).rate = 4000 ∧ (flagRec t .poolShort).set = false := by decide +kernel

/-- Chapter 4, second sequence, row 2: the method decision, the collapse step and P1's figures. -/
theorem test_collapse :
    let s := ({ allocated with
      tbu := { locked with base := 800, period := some ⟨801, 0⟩ } } : State).onLink 0 fun r => { r with state := .degraded }
    let u := s.onRate 1 fun r => { r with
      pending := { r.pending with rDown := 5000, rUp := 8000, collapse := 30, step := 4 }
      carry := 42, fullness := 1700000, prevRate := 6685, rate := 6685 }
    let t := after .periodStart u
    t.ral.figures.videoPool = 14400 ∧ (rateOf t 1).rate = 4114 ∧ (rateOf t 1).decided = .half ∧
      (loopOf t 1).pending = some .half ∧ (loopOf t 1).collapse = some 4 ∧ (rateOf t 1).budget = 68567 ∧
      (rateOf t 1).carry = 26 ∧ (rateOf t 1).fullness = 1631433 ∧ (rateOf t 1).followTarget = 17141 ∧
      (rateOf t 1).anchorTarget = 123535 ∧ (prog t 1).refreshOwed = true ∧ (flagRec t .methodChanged).set = true := by
  decide +kernel

/-- R67, R68: a maximum raised to the minimum, and a query by its length. -/
theorem test_rateSet :
    (rateOf (after (.rateSet van { prog := some 0, minRate := some 9000, maxRate := some 8000 }) small) 0).active.maxRate = 9000 ∧
    status (after (.rateSet van { prog := some 0, minRate := some 9000, maxRate := some 8000 }) small) = some 2 := by
  decide +kernel

/-- Chapter 5, worked mix. -/
theorem test_mix :
    let s : State := { withTbu atBlock with
      smx := { State.reset.smx with
        aligned := true, next := 7
        inputs := (Table.replicate 32 {}).set 0 { store := [⟨7, Table.replicate 16 1000000⟩] }
        buses := (Table.replicate 8 {}).set 0 { master := 6144, applied := 6144 } } }
    let t := after .blockEvent (((s.onCross 0 0 fun _ => ⟨4096, 4096, 4096⟩).onCross 1 0 fun _ => ⟨2048, 2048, 2048⟩).onInput 1
      fun v => { v with store := [⟨7, Table.replicate 16 (BitVec.ofInt 24 (-500000))⟩] })
    (busOf t 0).blockPeak = 1125000 ∧ (busOf t 0).clips = 0 ∧ t.smx.next = 8 := by decide +kernel

/-- Chapter 5, worked ramp, rows 2 and 5. -/
theorem test_ramp :
    (List.range 16).map (rampGain 0 1000) =
      [62, 125, 187, 250, 312, 375, 437, 500, 562, 625, 687, 750, 812, 875, 937, 1000] ∧
    (List.range 16).map (rampGain 1000 0) =
      [938, 875, 813, 750, 688, 625, 563, 500, 438, 375, 313, 250, 188, 125, 63, 0] := by decide +kernel

/-- Chapter 5, worked ramp, rows 1 and 4, and an unaligned mixer that a block event aligns. -/
theorem test_mixSet :
    (crossOf (after (.mixSet van [⟨3, 1, 1000⟩]) small) 3 1) = ⟨1000, 1000, 0⟩ ∧
    (crossOf (after (.inputSet van { input := some 3, trim := some 8192 })
      ({ small with smx := { State.reset.smx with groups := (Table.replicate 8 false).set 2 true } }.onInput 3
        fun v => { v with groups := (Table.replicate 8 false).set 2 true })) 3 1).target = 0 ∧
    (after .blockEvent (withTbu atBlock)).smx.next = 10 := by decide +kernel

/-- Chapter 5, third sequence, rows 3 and 9, and a trigger that a TRIGGER-SET disables. -/
theorem test_trigger :
    let s := ({ withClips { clips := [clip 37 .opened], next := 38, postRoll := 3 } with
      smx := { State.reset.smx with answers := [⟨0, some 37⟩] } } : State).onTrigger 0 fun t =>
        { t with state := .active, clip := .awaited, hi := 4000000, lo := 1000000 }
    (triggerOf (after (.triggerAnswer 0) s) 0).clip = .number 37 ∧
    (let t := after (.triggerSet van { trigger := some 0, hi := some 0, lo := some 0 })
      (s.onTrigger 0 fun t => { t with clip := .number 37 })
     (triggerOf t 0).state = .idle ∧ (triggerOf t 0).clip = .absent ∧ t.clm.clips.map (·.state) = [.postRoll]) := by
  decide +kernel

/-- Chapter 5, fourth sequence, rows 1, 2, 4 and 8. -/
theorem test_jitter :
    let s (n : BlockNo) (held : List BlockNo) : State := { mapped 40 (.soundInput 5) with
      smx := { State.reset.smx with
        aligned := true, next := n
        inputs := (Table.replicate 32 {}).set 5 { store := held.map fun b => ⟨b, silentBlock⟩ } } }
    (inputOf (after (.soundCell 40 1002 silentBlock) (s 1000 [1000, 1001])) 5).store.map (·.block) = [1000, 1001, 1002] ∧
    (inputOf (after (.soundCell 40 1001 silentBlock) (s 1000 [1000, 1001])) 5).duplicate = 1 ∧
    (inputOf (after (.soundCell 40 1005 silentBlock) (s 1001 [])) 5).early = 1 ∧
    (inputOf (after (.soundCell 40 1003 silentBlock) (s 1004 [])) 5).late = 1 := by decide +kernel

/-- R99: a bus with its lag clamped, and a muted group. -/
theorem test_busSet :
    let t := after (.busSet van { lag := some 9, groups := (Table.replicate 8 none).set 2 (some 1) }) small
    t.smx.lag = 4 ∧ t.smx.groups.get 2 = true ∧ status t = some 2 := by decide +kernel

/-- Chapter 6, first sequence, row 1, and the target of the second sequence's row 5. -/
theorem test_sound_streams :
    (let s := ({ withTbu { locked with tick := 320016, blockDue := true } with
      smx := { State.reset.smx with aligned := true, next := 20000 } } : State).onStream 1 fun t =>
        { t with enable := true, width := .bits16, left := 4, right := 5, fixedDelay := 960, target := 960, current := 960 }
     let t := after .blockEvent s
     ((t.sdp.get 1).assembly.bind (·.packet)).map (fun k => (k.stamp, k.deadline, k.size, k.number, k.blocks.length)) =
      some (319040, some 343040, 272, 20000, 2)) ∧
    (let s := ({ withProg 1 { cfg := { latency := 5 } } with
      tbu := { locked with base := 800, num := 4, den := 5 } } : State).onStream 0 fun t => { t with linked := some 1 }
     ((after (.soundStreamSet van { stream := some 0, trim := some (-500) }) s).sdp.get 0).target = 3504) := by
  decide +kernel


/-- Chapter 7, first sequence, row 1: P0's in-point is the anchor at the target, P2's is pending. -/
theorem test_clipMarkIn :
    let s := ((({ withProg 0 { state := .running } with
      tbu := { locked with pic := 12000 }, clm := { next := 118, preRoll := 50, postRoll := 3 } } : State).onProg 2
        fun r => { r with state := .running }).onLoop 0 fun c => { c with history := [11975, 11950, 11925] }).onSri
        fun r => { r with table := r.table.set 20 (.desk 3) }
    let t := after (.clipMarkIn ⟨.van 20 (some 3), 7⟩ { cameras := some [0, 2], priority := some 2 }) s
    t.clm.clips.map (fun c => (c.number, c.state, c.source, c.mark)) = [(118, .opened, .vanDesk 3, 12000)] ∧
      t.clm.clips.map (·.cameras) = [[⟨0, some ⟨11950, false⟩⟩, ⟨2, none⟩]] ∧ t.clm.next = 119 ∧
      t.clm.desks.get 3 = some 118 ∧ (prog t 2).refreshOwed = true ∧ (prog t 0).refreshOwed = false ∧ status t = some 1 := by
  decide +kernel

/-- Chapter 7, first sequence, row 6 (the count reaches 0 with P2 pending) and row 8 (P2's anchor closes the clip, whose
label of 81 bytes is queued). -/
def clip118 (st : ClipState) : Clip :=
  { number := 118, state := st, source := .vanDesk 3, priority := .hot, mark := 12000
    cameras := [⟨0, some ⟨11950, false⟩⟩, ⟨2, none⟩], count := 1, text := List.replicate 17 65 }

theorem test_clip_closes :
    (let t := after .periodStart { withTbu { locked with pic := 12012, period := some ⟨960, 0⟩ } with
      clm := { clips := [clip118 .postRoll], next := 119 } }
     t.clm.clips.map (fun c => (c.state, c.expiry)) = [(.closing, some 12012)]) ∧
    (let s := (({ withProg 2 { state := .running, refreshOwed := true } with
      tbu := { locked with pic := 12015, codeStarts := [⟨12015, 100⟩] }
      clm := { clips := [{ clip118 .closing with expiry := some 12012 }], next := 119 } } : State).onPort 2
        fun _ => { store := [⟨90, false⟩] }).onPgc fun c => { c with formats := c.formats.set 0 ⟨45, 30⟩ }
     let t := after .codeStart (s.onRate 2 fun r => { r with anchorTarget := 1000 })
     t.clm.clips.map (fun c => (c.state, c.outPoint)) = [(.closed, some 12015)] ∧
       t.pkp.label.map (fun k => (k.subject, k.number, k.size, k.blocks.length)) = [(some 118, 12015, 81, 1)]) := by
  decide +kernel

/-- R131, R132, R135, R136, R137: one record marked out, extended, cancelled and labelled. -/
theorem test_clip_commands :
    let s (st : ClipState) := withClips { clips := [clip 9 st], next := 10, postRoll := 250 }
    let ref : ClipRef := { clip := some 9 }
    (after (.clipMarkOut van { ref := ref }) (s .opened)).clm.clips.map (fun c => (c.state, c.count)) = [(.postRoll, 250)] ∧
    (after (.clipMarkExtend van { ref := ref }) (s .postRoll)).clm.clips.map (·.count) = [250] ∧
    (after (.clipMarkCancel van { ref := ref }) (s .closing)).clm.clips = [] ∧
    status (after (.clipMarkCancel van { ref := ref }) (s .sent)) = some 4 ∧
    (after (.clipLabel van ref (some (List.replicate 49 65))) (s .opened)).clm.clips.map (·.text.length) = [48] ∧
    status (after (.clipQuery van { clip := some 10 }) (s .opened)) = some 5 ∧
    (after (.clipSettings van { preRoll := some 255 }) (s .opened)).clm.preRoll = 250 := by decide +kernel

/-- Chapter 7, second sequence, row 1: P0 leaves the air, P1 enters it, P2 is refused. -/
theorem test_tally :
    let s := ({ withProg 0 { state := .running } with
      clm := { clips := [{ clip 900 .opened with cameras := [⟨0, some ⟨5, false⟩⟩] }], next := 901, autoMark := true
               tally := ⟨[some 900, none, none, none], rfl⟩, view := ⟨[true, false, false, false], rfl⟩ }
      tbu := { locked with pic := 9 } } : State).onProg 1 fun r => { r with state := .running }
    let t := after (.tallyCell 12 2 (1 :: 2 :: List.replicate 54 0)) (s.onSri fun r => { r with table := r.table.set 12 .tally })
    t.clm.clips.map (fun c => (c.number, c.state)) = [(900, .closed), (901, .opened)] ∧
      t.clm.tally.vals = [none, some 901, none, none] ∧ t.sri.onAir.vals = [false, true, true, false] ∧
      t.pkp.label.map (·.subject) = [some 900] := by decide +kernel

/-- Chapter 9, rows 1 to 3 and 8 to 11. -/
def labelOf118 : Packet :=
  { kind := .label, owner := some .labelReply, subject := some 118, number := 0, stamp := 0, size := 81, blocks := [20] }
def soundOfS0 : Packet :=
  { kind := .sound, owner := some .sound, subject := some 0, number := 0, stamp := 0, size := 400, blocks := [21, 22] }

/-- L0 and L2 as the sequence's conditions give them. -/
def twoLinks : State :=
  { withTbu atBlock with
    lsu := ⟨[{ state := .up, capacity := 20000, settings := { burst := 4000 } }, {},
      { state := .up, capacity := 8000, settings := { burst := 2000, kindLabel := false, kindReply := false } }, {}], rfl⟩
    hsc := { links := ⟨[{ epoch := 3, nextSeq := 100, lastAck := 99 }, {},
      { credit := 1500, epoch := 7, nextSeq := 40, lastAck := 39 }, {}], rfl⟩ } }

theorem test_block_takes :
    let t := after .blockEvent (twoLinks.onPool fun k => { k with
      label := [labelOf118], sound := [soundOfS0], picture := [sliceOfP1 1 1328, sliceOfP1 2 274] })
    ((sched t 0).credit, (sched t 0).carry, (sched t 0).slot.map fun v => (v.packet.kind, v.epoch, v.seq)) =
      (752, 8, some (.label, 3, 100)) ∧
    ((sched t 2).credit, (sched t 2).carry, (sched t 2).slot.map fun v => (v.packet.kind, v.epoch, v.seq)) =
      (1433, 8, some (.sound, 7, 40)) ∧ t.pkp.picture.length = 2 := by decide +kernel

theorem test_taken :
    let s := ((twoLinks.onPool fun k => { k with picture := [sliceOfP1 1 1328, sliceOfP1 2 274] }).onSched 2
      fun h => { h with credit := 1433, slot := some ⟨soundOfS0, 7, 40, 160⟩ }).onLink 0 fun r => { r with state := .down }
    let t := after (.takenReport 2 7 40) s
    (sched t 2).inFlight.map (fun e => (e.seq, e.tick)) = [(40, 160)] ∧ (sched t 2).nextSeq = 41 ∧
      (sched t 2).credit = 105 ∧ (sched t 2).reservation = some ⟨1, 8, 3, 2⟩ ∧
      (sched t 2).slot.map (·.seq) = some 41 ∧ t.pkp.picture.map (·.fragIndex) = [2] ∧
      (sched (after (.takenReport 2 7 41) s) 2).ignoredTaken = 1 := by decide +kernel

theorem test_ack :
    let s := (twoLinks.onSched 2 fun h => { h with
      nextSeq := 43, inFlight := [⟨40, soundOfS0, 1⟩, ⟨41, sliceOfP1 1 1328, 2⟩, ⟨42, sliceOfP1 2 274, 3⟩] }).onPool
        fun k => { k with free := [], owners := Table.replicate 6 { count := 9, cap := 64 } }
    let t := after (.ack 2 7 41) s
    (sched t 2).inFlight.map (·.seq) = [42] ∧ (sched t 2).lastAck = 41 ∧ t.pkp.free = [21, 22, 23] ∧
      (t.pkp.owners.get 4).count = 7 ∧ (t.pkp.owners.get 1).count = 8 ∧
      (sched (after (.ack 0 2 5) s) 0).stale = 1 ∧ (sched (after (.ack 2 7 50) s) 2).invalid = 1 ∧
      (flagRec (after (.ack 2 7 50) s) .ackInvalid).set = true := by decide +kernel

/-- Chapter 10, the worked sequence: L0's settings, and rows 1, 2, 4, 6, 8 and 9. -/
def l0 (st : LinkState) : LinkRecord :=
  { state := st, reported := 20000, capacity := 20000, window := some { start := 999000 }
    settings := {
      floor := 5000, retryTime := 96000
      actions := ⟨[.holdRetry, .holdRetry, .report, .degrade, .holdRetry], rfl⟩ } }

def atTick (n : Tick) (r : LinkRecord) : State := { withLink 0 r with tbu := { locked with tick := n } }

theorem test_degrade :
    (let r := link (after (.faultReport 0 17) (atTick 1000000 (l0 .up))) 0
     r.state = .degraded ∧ r.recovery.map (·.tick) = some 1048000 ∧ r.degrading.get 3 = true ∧
       r.firstFault = some ⟨.modemFault, 1000000, 17, 0⟩ ∧ r.code = 17) ∧
    (let t := after (.capacityReport 0 4000) (atTick 1020000 { l0 .degraded with firstFault := some ⟨.modemFault, 1000000, 17, 0⟩ })
     (link t 0).capacity = 4000 ∧ (link t 0).firstFault.map (·.later) = some 1 ∧ (flagRec t .linkFault).counter = 1) ∧
    (let r := { l0 .degraded with code := 17, degrading := ⟨[false, false, false, true, false], rfl⟩, recovery := some { tick := 1048000 } }
     (link (after (.recoveryExpiry 0) (atTick 1048000 r)) 0).recovery = some ⟨1048000, true⟩ ∧
       (link (after (.faultReport 0 0) (atTick 1050000 { r with recovery := some ⟨1048000, true⟩ })) 0).state = .up) := by
  decide +kernel

theorem test_ackTimeout :
    let s (n : Tick) := (atTick n (l0 .up)).onSched 0 fun h => { h with inFlight := [⟨500, soundOfS0, 1060000⟩], credit := 9 }
    (link (after (.ackTimeout 0) (s 1156000)) 0).state = .up ∧
    (let t := after (.ackTimeout 0) (s 1156001)
     (link t 0).state = .held ∧ (link t 0).retry = some 1252001 ∧ (link t 0).window = none ∧ (sched t 0).inFlight = [] ∧
       t.pkp.sound = [soundOfS0] ∧ (sched t 0).credit = 0 ∧
       t.cmu.notices.map (·.body) = [.flag .linkFault 1, .linkHeld 0 .ackTimeout]) := by decide +kernel

theorem test_held_counts :
    let t := after (.faultReport 0 9) (atTick 1200000 { l0 .held with retry := some 1252001 })
    (link t 0).state = .held ∧ (link t 0).faults.get 3 = 1 ∧ (link t 0).retry = some 1252001 ∧
      (flagRec t .linkFault).set = false := by decide +kernel

theorem test_retry :
    let t := after (.retryExpiry 0) ((atTick 1252001 { l0 .held with retry := some 1252001 }).onSched 0 fun h =>
      { h with epoch := 3, nextSeq := 504 })
    (link t 0).state = .proving ∧ (link t 0).proving.map (fun p => (p.sent, p.deadline)) = some (1, 1300001) ∧
      (sched t 0).epoch = 4 ∧ (sched t 0).slot.map (fun v => (v.packet.kind, v.seq)) = some (.probe, 0) := by decide +kernel

/-- Row 11: the third probe takes L0 UP, and its standing condition degrades it at once. -/
theorem test_standing :
    let s := ((atTick 1258000 { l0 .proving with
      capacity := 4000, code := 9, proving := some { sent := 3, retired := 0, deadline := 1300001, nextProbe := 1259201 } }).onSched 0
        fun h => { h with epoch := 4, nextSeq := 3, inFlight := [⟨0, probe, 1⟩, ⟨1, probe, 2⟩, ⟨2, probe, 3⟩] })
    let t := after (.ack 0 4 2) s
    (link t 0).state = .degraded ∧ (link t 0).recovery.map (·.tick) = some 1306000 ∧ (flagRec t .linkFault).counter = 2 ∧
      t.cmu.notices.map (·.body) = [.flag .linkFault 1, .linkUp 0 4] := by decide +kernel

/-- R185, R187, R191: a further probe, the deadline, and a window with its shortfall. -/
theorem test_link_timers :
    (let r := { l0 .proving with proving := some { sent := 1, deadline := 300, nextProbe := 100 } }
     (link (after (.probeBuild 0) (atTick 100 r)) 0).proving.map (fun p => (p.sent, p.nextProbe)) = some (2, 2500) ∧
       (link (after (.provingDeadline 0) (atTick 300 r)) 0).state = .held) ∧
    (let r := { l0 .up with window := some ⟨0, 10, 4⟩, settings := { minFraction := 50, actions := Table.replicate 5 .report } }
     (link (after (.windowEnd 0) (atTick 48000 r)) 0).window = some ⟨48000, 0, 0⟩ ∧
       (link (after (.windowEnd 0) (atTick 48000 r)) 0).faults.vals = [0, 1, 0, 0, 0]) := by decide +kernel

/-- R183, R184, R188, R196: LINK-SET with a share, LINK-UP from reset, LINK-DOWN and LINK-CLEAR. -/
theorem test_link_commands :
    (link (after (.linkSet van { link := some 0, share := some 50 }) (withLink 0 (l0 .down))) 0).capacity = 10000 ∧
    (link (after (.linkUp van (some 3)) small) 3).state = .proving ∧
    (link (after (.linkDown van (some 0)) (withLink 0 (l0 .degraded))) 0).state = .down ∧
    (link (after (.linkClear van (some 0)) (withLink 0 (l0 .held))) 0).state = .proving ∧
    status (after (.linkClear van (some 0)) (withLink 0 (l0 .proving))) = some 4 := by decide +kernel

/-- Chapter 11, the worked sequence, rows 3 and 5: HOME lacks authority; a refused reply is held. -/
theorem test_home_authority :
    let s : State := { small with cmu := { authority := .van, noticesHome := true } }
    let full := s.onPool fun k => { k with owners := Table.replicate 6 { count := 64, cap := 64 } }
    (after (.rateSet home { prog := some 0, maxRate := some 8000 }) s).pkp.reply.map (·.payload) = [[7, 6, 0, 0]] ∧
    (let t := after (.refresh home (some 0)) full
     t.cmu.held = some ⟨7, [6, 6, 0, 0]⟩ ∧ (flagRec t .poolRefused).counter = 1 ∧ t.cmu.homeNotices.length = 1 ∧
       (t.pkp.owners.get 5).refused = 1) := by decide +kernel

/-- R200, R202: an INPUT-MAP that would leave no control stream; a message of two cells. -/
theorem test_ring_commands :
    status (after (.inputMap van { entries := [⟨255, 1, 0⟩] }) small) = some 4 ∧
    (after (.inputMap van { entries := [⟨12, 3, 0⟩] }) small).sri.table.get 12 = .tally ∧
    (after (.controlFirstCell 255 6 1 2 57 (List.replicate 56 0)) small).sri.partials.get 255 =
      some ⟨6, 1, 2, 57, 1, List.replicate 56 0⟩ ∧
    (after (.controlContinuationCell 255 1 []) small).sri.discarded = 1 ∧
    status (after (.controlFirstCell 255 6 1 1 3 (0 :: 1 :: 2 :: List.replicate 53 0)) small) = some 1 := by decide +kernel

/-- R199, R203, R214, R215: raw cells, packets and reports, and a home CONTROL packet. -/
theorem test_raw_inputs :
    (after (.unroutedCell (3 :: 5 :: List.replicate 62 0)) small).sri.unrouted = 1 ∧
    (after (.ignoredReturnPacket [9]) small).hsc.ignoredHome = 1 ∧
    (after (.ignoredModemReport 0 [2]) small).hsc.ignoredHome = 1 ∧
    (after (.controlPacket 6 9 3 [0, 1, 2]) small).pkp.reply.map (fun k => (k.subject, k.payload)) = [(some 9, [6, 1, 0, 0])] ∧
    status (after (.unknownCommand van 26 []) small) = some 9 := by decide +kernel

/-- R206 to R208: a query of no block, an authority stored, a flag cleared. -/
theorem test_unit_commands :
    status (after (.statusQuery van { block := some 14 }) small) = some 5 ∧
    (after (.authoritySet van { authority := some 2, noticesHome := some 1 }) small).cmu.authority = .home ∧
    (after (.eventsClear van (.flags [19])) { small with cmu := { flags := Table.replicate 19 ⟨true, 3⟩ } }).cmu.flags.get 18 = {} := by
  decide +kernel

/-- R211, R212: what the two resets leave of an acceptance table and a link's settings. -/
theorem test_resets :
    let s := (mapped 12 .tally).onLink 0 fun _ => l0 .up
    ((after (.resetMedia van) s).sri.table.get 12 = .tally ∧ (link (after (.resetMedia van) s) 0).state = .down ∧
      (link (after (.resetMedia van) s) 0).settings.floor = 5000) ∧
    ((after (.resetAll van) s).sri.table.get 12 = .none ∧ status (after (.resetAll van) s) = some 1 ∧
      (link (after (.resetAll van) s) 0).settings.floor = 0) ∧
    (after .powerOnReset s).sri.queue = [] := by decide +kernel

/-- An empty queue idles; a command in front of it is taken. -/
theorem test_step : step small = .next small ∧
    step { small with pending := [.missedFrame] } = exec .missedFrame small := ⟨rfl, rfl⟩

/-- The table gives no bits, so no word spells a command. -/
theorem test_decode : decodeTableWord 8 3 = none ∧ small.withFetchWord 8 3 = small := ⟨rfl, rfl⟩


end Sys2Proof.Machine.Tests
end

