-- ==== Sys2Proof/Proofs/Cadence.lean ====
section
/-! PROOF. The Timebase Unit's figures stay in their ranges at every step (R6, R12). -/

namespace Sys2Proof.Machine

/-! ### The cadence figures (R6, R12) -/

section
variable {t : Timebase}

/-- A Timebase Unit that keeps another's figures of the cadence keeps their ranges. -/
theorem CadenceOk.of_figures {u : Timebase} (h : CadenceOk t) (hbase : u.base = t.base := by rfl) (hnum : u.num = t.num := by rfl)
    (hden : u.den = t.den := by rfl) (hacc : u.acc = t.acc := by rfl) (hrate : u.rate = t.rate := by rfl)
    (horigin : u.origin = t.origin := by rfl) : CadenceOk u := by
  obtain ⟨g1, g2, g3, g4, g5, g6⟩ := h
  exact ⟨by rwa [hbase], by rwa [hden], by rwa [hnum, hden], by rwa [hacc, hden], by rwa [hrate], by rwa [horigin]⟩

theorem CadenceOk.frameStart (h : CadenceOk t) (e : Nat) : CadenceOk (t.frameStart e).1 := by
  simp only [Timebase.frameStart]
  split
  · split <;> exact h.of_figures
  · exact h.of_figures
  · split <;> exact h.of_figures

theorem CadenceOk.frameMissed (h : CadenceOk t) : CadenceOk t.frameMissed.1 := by
  simp only [Timebase.frameMissed]
  split
  · exact h.of_figures
  · split <;> exact h.of_figures
  · exact h.of_figures

theorem CadenceOk.localTick (h : CadenceOk t) : CadenceOk t.localTick := by
  simp only [Timebase.localTick]
  split
  · exact h.of_figures
  · exact h

/-- R6: from an accumulator and a numerator below the denominator, the accumulator stays below it. -/
theorem cadenceStep_acc_lt {base num den acc : Nat} (hnum : num < den) (hacc : acc < den) :
    (cadenceStep base num den acc).1 < den := by
  simp only [cadenceStep]
  split <;> simp only <;> omega

theorem CadenceOk.startPeriod (h : CadenceOk t) : CadenceOk t.startPeriod :=
  ⟨h.base, h.den, h.num, cadenceStep_acc_lt h.num h.acc, h.rate, h.origin⟩

/-- A field that is loaded with clamping stays in its range (R12). -/
theorem loaded_range {lo hi stored : Nat} (hr : lo ≤ hi) (hs : lo ≤ stored ∧ stored ≤ hi) (v : Option Nat) :
    lo ≤ loaded lo hi stored v ∧ loaded lo hi stored v ≤ hi := by
  cases v with
  | none => exact hs
  | some v => simp only [loaded]; split_ifs <;> omega

/-- The fields of a TIMEBASE-SET, each clamped to its range (R12). -/
theorem setFields_eq (f : TimebaseFields) (t : Timebase) : t.setFields f = { t with
    base := loaded 1 65535 t.base f.base
    den := loaded 1 255 t.den f.den
    num := min (f.num.getD t.num) (loaded 1 255 t.den f.den - 1)
    acc := if f.base = none ∧ f.num = none ∧ f.den = none then t.acc else 0
    rate := loaded 24 60 t.rate f.rate
    origin := loaded 0 5183999 t.origin f.origin } := by
  have hacc : (if f.base.isSome || f.num.isSome || f.den.isSome then 0 else t.acc) =
      if f.base = none ∧ f.num = none ∧ f.den = none then t.acc else 0 := by
    cases f.base <;> cases f.num <;> cases f.den <;> rfl
  simp only [Timebase.setFields, denAfter, getD_clamp _ _ _ _ (by decide : 1 ≤ 65535), getD_clamp _ _ _ _ (by decide : 1 ≤ 255),
    getD_clamp _ _ _ _ (by decide : 24 ≤ 60), getD_clamp _ _ _ _ (by decide : 0 ≤ 5183999), hacc]

theorem CadenceOk.setFields (h : CadenceOk t) (f : TimebaseFields) : CadenceOk (t.setFields f) := by
  have hden := loaded_range (by decide) h.den f.den
  rw [setFields_eq]
  refine ⟨loaded_range (by decide) h.base f.base, hden, ?_, ?_, loaded_range (by decide) h.rate f.rate,
    (loaded_range (by decide) ⟨Nat.zero_le _, h.origin⟩ f.origin).2⟩
  · show min (f.num.getD t.num) (loaded 1 255 t.den f.den - 1) < loaded 1 255 t.den f.den
    omega
  · show (if _ then _ else _) < _
    split
    · rename_i habsent
      rw [habsent.2.2]
      exact h.acc
    · exact hden.1

end

/-- INPUT-MAP is no business of the Timebase Unit (R200). -/
theorem inputMap_tbu (f : MapFields) (s : State) : (inputMap f s).1.tbu = s.tbu := by
  simp only [inputMap]
  split
  · rfl
  · split
    · split <;> rfl
    · rfl

theorem cadenceOk_reset : CadenceOk ({} : Timebase) := by
  constructor <;> decide

/-- The ranges of the cadence's figures as a property that every command keeps. -/
theorem cadence_keeper : Keeper fun s => CadenceOk s.tbu where
  only s t h hs := by rw [← (fixed_eq h).2.1]; exact hs
  period _ h := h.startPeriod
  code _ h := h.of_figures
  block _ h := h.of_figures
  frame e _ h := h.frameStart e
  missed _ h := h.frameMissed
  tick _ h := h.localTick
  timebase f _ h := h.setFields f
  map f s h := by rw [inputMap_tbu]; exact h
  reset _ _ := cadenceOk_reset

/-- A step takes the command at the front, or idles: a property of `State.fixed` that every command keeps, and that the queue
of waiting commands does not touch, is kept by every step. -/
theorem Keeper.step {P : State → Prop} (K : Keeper P) (hq : ∀ s l, P s → P { s with pending := l }) {s t : State}
    (h : Machine.step s = .next t) (hp : P s) : P t := by
  simp only [Machine.step] at h
  split at h
  · injection h with h; exact h ▸ hp
  · exact K.exec _ h (hq _ _ hp)

/-- Settles O9: every command keeps the figures' ranges, since only the period start and TIMEBASE-SET move the figures. -/
theorem step_keepsCadence : Obligations.Step_KeepsCadence := fun _ _ h hc =>
  cadence_keeper.step (fun _ _ hs => hs) h hc

end Sys2Proof.Machine
end

