-- ==== Sys2Proof/Proofs/Resets.lean ====
section
/-! PROOF. Power-on reset, RESET ALL and RESET MEDIA (R211, R212): what each block holds after them, and that the state after
reset meets every invariant. -/

namespace Sys2Proof.Machine

/-! ### The state after reset (R15, R144, R146, R180, R197, R212) -/

section
variable (l : Link) (p : Prog)

@[simp] theorem prog_reset : prog State.reset p = {} := Table.get_replicate ..
@[simp] theorem loopOf_reset : loopOf State.reset p = {} := Table.get_replicate ..
@[simp] theorem entryOf_reset : entryOf State.reset p = none := Table.get_replicate ..
@[simp] theorem rateOf_reset : rateOf State.reset p = {} := Table.get_replicate ..
@[simp] theorem inputOf_reset (k : Fin 32) : inputOf State.reset k = {} := Table.get_replicate ..
@[simp] theorem crossOf_reset (k : Fin 32) (b : Fin 8) : crossOf State.reset k b = {} := by
  simp only [crossOf, State.reset, Table.get_replicate]
@[simp] theorem busOf_reset (b : Fin 8) : busOf State.reset b = {} := Table.get_replicate ..
@[simp] theorem triggerOf_reset (i : Fin 4) : triggerOf State.reset i = {} := Table.get_replicate ..
@[simp] theorem sched_reset : sched State.reset l = {} := Table.get_replicate ..
@[simp] theorem link_reset : link State.reset l = {} := Table.get_replicate ..

end

/-- After reset the acceptance table routes stream 255 alone, as the control stream (R197, R200). -/
theorem table_reset (i : RingStream) : State.reset.sri.table.get i = if i = 255 then .control else .none := by
  split
  · rename_i h; subst h; exact Table.get_set_self ..
  · rename_i h; exact (Table.get_set_ne _ _ fun e => h e.symm).trans (Table.get_replicate ..)

/-- After reset every owner of blocks holds none, and the label-and-reply owner alone may hold some (R161). -/
theorem owners_reset (o : Fin 6) : State.reset.pkp.owners.get o = { count := 0, cap := if o = 5 then 64 else 0, refused := 0 } := by
  by_cases h : (5 : Fin 6) = o
  · subst h; exact Table.get_set_self ..
  · rw [if_neg fun e => h e.symm]
    exact (Table.get_set_ne _ _ h).trans (Table.get_replicate ..)

theorem free_reset : State.reset.pkp.free = List.range 16384 := by
  simp only [State.reset, Config.poolBlocks]

theorem soundReserve_reset : soundReserve State.reset = 0 := by decide

theorem mapOk_reset : MapOk State.reset.sri where
  control := ⟨255, table_reset 255⟩
  output := table_reset 254

theorem clipsOk_reset : ClipsOk State.reset.clm := by
  constructor <;> decide

theorem quiet_reset : Quiet State.reset := ⟨fun l => by rw [sched_reset], rfl, rfl⟩

theorem nothingDue_reset : NothingDue State.reset := by
  refine ⟨rfl, rfl, rfl, fun l => ?_⟩
  simp [provingDeadlineDue, retryDue, probeDue, recoveryDue, windowDue, ackTimeoutDue, LinkState.carries]

/-- Settles O60: no command, packet, clip or link is there at reset, and every block of the pool is free. -/
theorem reset_meetsTheInvariants : Obligations.Reset_MeetsTheInvariants :=
  ⟨cadenceOk_reset, mapOk_reset, ⟨by decide, by decide⟩, clipsOk_reset, quiet_reset, nothingDue_reset,
    fun l => by rw [link_reset]; rfl, ⟨rfl, rfl, rfl, rfl⟩, ok_iff.mp Ok.reset⟩

/-! ### RESET ALL and RESET MEDIA (R211, R212) -/

section
variable {h : Hdr} {i : RingStream} {s : State}

/-- RESET ALL leaves every block as power-on reset does, and its reply alone in the ring output queue (R212). -/
theorem takeCommand_resetAll (hr : VanReady h i s) : takeCommand h (.reset 2) s = { State.reset with
    pending := s.pending
    sri := { State.reset.sri with queue := replyCells 254 h.tag [25, 1, byteOf i.val, 0] } } := by
  obtain ⟨⟨-, hvan, -⟩, hsrc, hauth, hroom⟩ := hr
  have hsub : submit { hdr := h, kind := commandKind (.reset 2), body := bodyOf (.reset 2) } s = atHead h (.reset 2) s := by
    simp [submit, hsrc, joinVan, hvan, Config.commandQueue, atHead, headOf, bodyOf, listsFit, State.onCmu]
  have hpass : isResetAll (headOf h (.reset 2)) (atHead h (.reset 2) s) = true := by
    have := unauthorised_van (a := (atHead h (.reset 2) s).cmu.authority) hauth i (.reset 2)
    simp [isResetAll, headOf, hsrc, this]
  have hserve : serveVan (atHead h (.reset 2) s).cmu.van.length (atHead h (.reset 2) s) =
      resetAll (headOf h (.reset 2)) (atHead h (.reset 2) s) := by
    have hone : serveVan (atHead h (.reset 2) s).cmu.van.length (atHead h (.reset 2) s) =
        dispatchVan (headOf h (.reset 2)) (atHead h (.reset 2) s) := by
      simp [atHead, serveVan, Config.replyCells, Config.ringQueue, hroom]
    rw [hone, dispatchVan, if_pos hpass]
  have hdone : serve (atHead h (.reset 2) s) = resetAll (headOf h (.reset 2)) (atHead h (.reset 2) s) := by
    rw [serve, hserve]; rfl
  have howed : NoOwed (resetAll (headOf h (.reset 2)) (atHead h (.reset 2) s)) := quiet_reset.1
  rw [takeCommand, hsub, finish, hdone, settleTakes_noOwed howed]
  simp only [resetAll, headOf, Reply.bytes, srcStreamByte, hsrc]
  rfl

/-- The target delay of a stream is that of the settings, which RESET MEDIA keeps (R110, R121). -/
theorem targetDelay_resetMedia {u : State} (hp : u.pgc.progs = s.pgc.progs.map Programme.resetMedia) (ht : u.tbu = s.tbu)
    (t : SoundStream) : targetDelay u t = targetDelay s t := by
  have hprog : ∀ p, prog u p = (prog s p).resetMedia := fun p => by simp only [prog, hp, Table.get_map]
  have hfold : fold u = fold s := by
    funext p
    simp only [fold, isPairedOdd, pairFormed, hprog, Programme.resetMedia]
    rfl
  simp only [targetDelay, linkedProg, hfold, hprog, ht, Programme.resetMedia]

theorem exec_resetAll (hr : VanReady h i s) : exec (.resetAll h) s = .next { State.reset with
    pending := s.pending
    sri := { State.reset.sri with queue := replyCells 254 h.tag [25, 1, byteOf i.val, 0] } } :=
  (exec_message rfl s).trans (congrArg _ (takeCommand_resetAll hr))

/-- RESET MEDIA reads nothing of the VAN queue and leaves it (R211). -/
theorem resetMediaBlocks_atHead (c : Command) (s : State) :
    resetMediaBlocks [] (atHead h c s) = atHead h c (resetMediaBlocks [] s) := by
  simp only [resetMediaBlocks, atHead, State.onCmu, CommandUnit.resetMedia]
  congr 1

/-- RESET MEDIA leaves what the blocks' own rules say, and its reply in the ring output queue (R211). -/
theorem takeCommand_resetMedia (hr : VanReady h i s) : takeCommand h (.reset 1) s =
    { resetMediaBlocks [] s with sri := ringReply s.sri h i 25 1 [] } := by
  have hp : perform (headOf h (.reset 1)) (.reset 1) (atHead h (.reset 1) s) =
      (atHead h (.reset 1) (resetMediaBlocks [] s), { status := .done }) := by
    simp only [perform, headOf, hr.2.1, resetMediaBlocks_atHead]
  have howed : NoOwed (resetMediaBlocks [] s) := fun l => by simp [sched, resetMediaBlocks, LinkSched.resetMedia]
  have hkind : commandKind (.reset 1) = 25 := rfl
  have hsri : (resetMediaBlocks [] s).sri = s.sri := rfl
  rw [takeCommand_done hr rfl (by simp) hp howed hr.1.2.1 rfl, hkind, hsri]
  rfl

theorem exec_resetMedia (hr : VanReady h i s) :
    exec (.resetMedia h) s = .next { resetMediaBlocks [] s with sri := ringReply s.sri h i 25 1 [] } :=
  (exec_message rfl s).trans (congrArg _ (takeCommand_resetMedia hr))

end

section
variable (home : List Msg) (s : State)

theorem prog_resetMediaBlocks (p : Prog) : prog (resetMediaBlocks home s) p = (prog s p).resetMedia := Table.get_map ..

theorem rateOf_resetMediaBlocks (p : Prog) :
    rateOf (resetMediaBlocks home s) p = { pending := (rateOf s p).pending, active := (rateOf s p).pending } := Table.get_map ..

theorem inputOf_resetMediaBlocks (k : Fin 32) : inputOf (resetMediaBlocks home s) k =
    { trim := (inputOf s k).trim, mute := (inputOf s k).mute, groups := (inputOf s k).groups, policy := (inputOf s k).policy } :=
  Table.get_map ..

theorem crossOf_resetMediaBlocks (k : Fin 32) (b : Fin 8) :
    crossOf (resetMediaBlocks home s) k b = { crossOf s k b with applied := (crossOf s k b).target } := by
  simp only [crossOf, resetMediaBlocks, Mixer.resetMedia, Table.get_map]

theorem busOf_resetMediaBlocks (b : Fin 8) : busOf (resetMediaBlocks home s) b =
    { master := (busOf s b).master, applied := (busOf s b).master, decay := (busOf s b).decay } := Table.get_map ..

theorem triggerOf_resetMediaBlocks (k : Fin 4) : triggerOf (resetMediaBlocks home s) k = (triggerOf s k).resetMedia :=
  Table.get_map ..

theorem sdp_resetMediaBlocks (k : Fin 4) : (resetMediaBlocks home s).sdp.get k =
    { s.sdp.get k with target := targetDelay s (s.sdp.get k) }.resetMedia := by
  refine (Table.get_map ..).trans ?_
  exact congrArg (fun d => SoundStream.resetMedia { s.sdp.get k with target := d }) (targetDelay_resetMedia (by rfl) (by rfl) _)

theorem free_resetMediaBlocks : (resetMediaBlocks home s).pkp.free = List.range 16384 := by
  simp only [resetMediaBlocks, Pool.resetMedia, Config.poolBlocks]

theorem owners_resetMediaBlocks (o : Fin 6) :
    (resetMediaBlocks home s).pkp.owners.get o = { cap := (s.pkp.owners.get o).cap } := Table.get_map ..

theorem sched_resetMediaBlocks (l : Link) : sched (resetMediaBlocks home s) l = (sched s l).resetMedia := Table.get_map ..

theorem link_resetMediaBlocks (l : Link) : link (resetMediaBlocks home s) l = (link s l).resetMedia := Table.get_map ..

end

/-- Settles O56: RESET ALL by `exec_resetAll`, and RESET MEDIA block by block. -/
theorem resets_leaveTheirState : Obligations.Resets_LeaveTheirState := by
  intro h i s hr
  have hcmu : s.cmu.resetMedia [] = {
      authority := s.cmu.authority, noticesHome := s.cmu.noticesHome, notices := s.cmu.notices, van := [], home := []
      held := none, flags := Table.replicate 19 { set := false, counter := 0 }, homeNotices := [], overflow := 0 } := by
    rw [CommandUnit.resetMedia, hr.1.2.1]
  refine ⟨exec_resetAll hr, _, exec_resetMedia hr, rfl, rfl, rfl, hcmu, fun p => Table.get_replicate .., rfl,
    fun p => prog_resetMediaBlocks [] s p, rfl, rfl, rfl, rfl, fun p => ?_, rfl, rfl, rfl, rfl, fun k => ?_,
    fun k b => crossOf_resetMediaBlocks [] s k b, fun b => ?_, fun k => triggerOf_resetMediaBlocks [] s k, ?_, rfl,
    free_resetMediaBlocks [] s, ⟨rfl, rfl, rfl, rfl⟩, fun o => owners_resetMediaBlocks [] s o, rfl, fun l => ?_, fun l => ?_⟩
  · rw [rateOf_reset]; exact rateOf_resetMediaBlocks [] s p
  · rw [inputOf_reset]; exact inputOf_resetMediaBlocks [] s k
  · rw [busOf_reset]; exact busOf_resetMediaBlocks [] s b
  · rintro k target rfl; exact sdp_resetMediaBlocks [] s k
  · rw [sched_reset]; exact sched_resetMediaBlocks [] s l
  · rw [link_reset]; exact link_resetMediaBlocks [] s l

/-- Settles O3: power-on reset builds the state after reset anew, and RESET ALL the same with its reply. -/
theorem powerOnReset_leavesResetValues : Obligations.PowerOnReset_LeavesResetValues := by
  intro s
  refine ⟨resetBlocks s, rfl, fun h i hr => exec_resetAll hr, rfl,
    fun p => ⟨prog_reset p, Table.get_replicate .., entryOf_reset p, loopOf_reset p, _, rfl, rateOf_reset p⟩,
    fun e => Table.get_replicate .., rfl, rfl, rfl, rfl, rfl, rfl, rfl, fun g => Table.get_replicate .., fun k => ?_,
    crossOf_reset, busOf_reset, fun i => ?_, fun i => Table.get_replicate .., soundReserve_reset, rfl, rfl,
    fun d => Table.get_replicate .., fun p => ⟨Table.get_replicate .., Table.get_replicate ..⟩, rfl, rfl, rfl, rfl, rfl, rfl,
    free_reset, ⟨rfl, rfl, rfl, rfl⟩, owners_reset, sched_reset, rfl, link_reset, (table_reset 255).trans (if_pos rfl),
    fun i hi => (table_reset i).trans (if_neg hi), rfl, fun i => Table.get_replicate .., fun p => Table.get_replicate ..,
    rfl, rfl, rfl, rfl, rfl, rfl, rfl, rfl, rfl, rfl, rfl, rfl, fun f => Table.get_replicate .., rfl⟩
  · have hk : inputOf (resetBlocks s) k = {} := inputOf_reset k
    rw [hk]
    exact ⟨rfl, rfl, fun g => Table.get_replicate .., rfl, rfl, fun j => Table.get_replicate .., rfl, rfl, rfl, rfl⟩
  · have hi : triggerOf (resetBlocks s) i = {} := triggerOf_reset i
    rw [hi]
    exact ⟨rfl, rfl, rfl, rfl, rfl, rfl, fun p => Table.get_replicate .., rfl, rfl, rfl, rfl⟩

end Sys2Proof.Machine
end

