-- ==== Sys2Proof/Proofs/Frames.lean ====
section
/-! PROOF. Frame starts, missed frames and the local reference's ticks in the three lock states (R2 to R5), where nothing else
is due. -/

namespace Sys2Proof.Machine

/-! ### Ticks (R1, R6, R9) -/

section
variable {t : Timebase}

/-- In UNLOCKED a tick advances the count alone. -/
theorem takeTick_unlocked (h : t.lock = .unlocked) : t.takeTick = { t with tick := t.tick + 1, blockDue := false } := by
  simp [Timebase.takeTick, h, LockState.produces]

/-- In LOCKED and HOLDOVER a tick lowers the ticks remaining and, at a multiple of 16, makes a block event due (R6, R9). -/
theorem takeTick_produces (h : t.lock.produces = true) : t.takeTick = { t with
    tick := t.tick + 1
    period := t.period.map fun p => { p with remaining := p.remaining - 1 }
    blockDue := (t.tick + 1).toNat % 16 == 0 } := by
  simp [Timebase.takeTick, h]

/-! ### Frame starts and missed frames (R2 to R5) -/

/-- The run count after a frame start that leaves it below 48 (R2, R3). -/
theorem runAfter_short {e run : Nat} (h : e ≤ 24 → run < 47) : runAfter e run = if e ≤ 24 then run + 1 else 1 := by
  simp only [runAfter, consecutive, decide_eq_true_eq, Config.qualifyRun]
  split
  · rename_i he; have := h he; omega
  · rfl

theorem run_short {e run : Nat} (h : e ≤ 24 → run < 47) : ¬ Config.qualifyRun ≤ if e ≤ 24 then run + 1 else 1 := by
  simp only [Config.qualifyRun]
  split
  · rename_i he; have := h he; omega
  · omega

/-- The consecutive frame start that completes the run of 48 (R3, R5). -/
theorem runAfter_full {e run : Nat} (he : e ≤ 24) (hr : run = 47) : runAfter e run = 48 := by
  simp [runAfter, consecutive, he, hr, Config.qualifyRun]

theorem frameStart_unlocked {e : Nat} (h : t.lock = .unlocked) (hr : e ≤ 24 → t.run < 47) :
    t.frameStart e =
      ({ t with tick := t.tick + 1, run := if e ≤ 24 then t.run + 1 else 1, blockDue := false }, false) := by
  simp only [Timebase.frameStart, h, runAfter_short hr, run_short hr, if_false, takeTick_unlocked h]

/-- The frame start that completes the lock answers that its tick is the first period start (R3). -/
theorem frameStart_locks {e : Nat} (h : t.lock = .unlocked) (he : e ≤ 24) (hr : t.run = 47) :
    t.frameStart e = ({ t with
      lock := .locked, tick := t.tick + 1, run := 48, miss := 0, blockDue := (t.tick + 1).toNat % 16 == 0 }, true) := by
  simp [Timebase.frameStart, h, runAfter_full he hr, takeTick_unlocked h, Config.qualifyRun]

theorem frameStart_locked (e : Nat) (h : t.lock = .locked) : t.frameStart e = ({ t.takeTick with miss := 0 }, false) := by
  simp only [Timebase.frameStart, h]

theorem frameStart_holdover {e : Nat} (h : t.lock = .holdover) (hr : ¬(e ≤ 24 ∧ 47 ≤ t.run)) :
    t.frameStart e = ({ t with run := if e ≤ 24 then t.run + 1 else 1 }, false) := by
  have hr' : e ≤ 24 → t.run < 47 := fun he => Nat.lt_of_not_le fun h47 => hr ⟨he, h47⟩
  simp only [Timebase.frameStart, h, runAfter_short hr', run_short hr', if_false]

/-- The frame start that ends HOLDOVER (R5). -/
theorem frameStart_returns {e : Nat} (h : t.lock = .holdover) (he : e ≤ 24) (hr : t.run = 47) :
    t.frameStart e = ({ t.takeTick with run := 48, lock := .locked, miss := 0 }, false) := by
  simp [Timebase.frameStart, h, runAfter_full he hr, Config.qualifyRun]

theorem frameMissed_unlocked (h : t.lock = .unlocked) : t.frameMissed = ({ t with run := 0 }, false) := by
  simp only [Timebase.frameMissed, h]

theorem frameMissed_holdover (h : t.lock = .holdover) : t.frameMissed = ({ t with run := 0 }, false) := by
  simp only [Timebase.frameMissed, h]

/-- A missed frame that LOCKED bears (R4). -/
theorem frameMissed_locked (h : t.lock = .locked) (hm : t.miss < 7) :
    t.frameMissed = ({ t.takeTick with miss := t.miss + 1 }, false) := by
  have : ¬ 8 ≤ t.miss + 1 := by omega
  simp only [Timebase.frameMissed, h, Config.holdoverMisses, this, if_false]

/-- The eighth missed frame (R4). -/
theorem frameMissed_eighth (h : t.lock = .locked) (hm : t.miss = 7) :
    t.frameMissed = ({ t.takeTick with miss := 8, lock := .holdover, run := 0 }, true) := by
  simp [Timebase.frameMissed, h, hm, Config.holdoverMisses]

end

/-! ### The three rows, where nothing waits and nothing is due -/

section
variable {s : State} {e : Nat} {u : Timebase}

/-- With both queues empty a ring frame carries no cell of the part (R199). -/
theorem fillSlot_empty (hq : s.sri.queue = []) (hn : s.cmu.notices = []) :
    fillSlot s = { s with sri := { s.sri with slot := none } } := by
  simp [fillSlot, hq, hn, State.onSri]

theorem fillSlot_hsc (s : State) : (fillSlot s).hsc = s.hsc := by
  simp only [fillSlot]
  split <;> rfl

/-- A frame start in a state with nothing due: the output slot, then the judgement, then the period start if the lock is
complete. -/
theorem ringFrame_nothing (hq : Quiet s) (hd : NothingDue s) (e : Nat) : ringFrame e s =
    if (s.tbu.frameStart e).2 then startPeriod ((fillSlot s).onTbu fun _ => (s.tbu.frameStart e).1)
    else (fillSlot s).onTbu fun _ => (s.tbu.frameStart e).1 := by
  simp only [ringFrame, caughtUp_nothing hd hq, (fixed_eq (fillSlot_fixed s)).2.1]

/-- A frame start that starts no period: what the Timebase Unit makes of it, and the frame's output slot. -/
theorem exec_ringFrameStart (hq : Quiet s) (hd : NothingDue s) (hempty : s.sri.queue = []) (hn : s.cmu.notices = [])
    (hu : s.tbu.frameStart e = (u, false)) :
    exec (.ringFrameStart e) s = .next { s with tbu := u, sri := { s.sri with slot := none } } := by
  have hframe : ringFrame e s = { s with tbu := u, sri := { s.sri with slot := none } } := by
    rw [ringFrame_nothing hq hd, hu, fillSlot_empty hempty hn]
    rfl
  show Host.Outcome.next (finish (ringFrame e s)) = _
  rw [hframe]
  exact congrArg _ (finish_quiet (quiet_of hq rfl rfl rfl))

/-- A missed frame that enters no HOLDOVER: what the Timebase Unit makes of it. -/
theorem exec_missedFrame (hq : Quiet s) (hd : NothingDue s) (hu : s.tbu.frameMissed = (u, false)) :
    exec .missedFrame s = .next { s with tbu := u } := by
  have hframe : missFrame s = { s with tbu := u } := by
    simp [missFrame, caughtUp_nothing hd hq, hu, State.onTbu]
  show Host.Outcome.next (finish (missFrame s)) = _
  rw [hframe]
  exact congrArg _ (finish_quiet (quiet_of hq rfl rfl rfl))

/-- A missed frame that enters HOLDOVER raises the flag, and leaves the Timebase Unit as it judges (R4, R208). -/
theorem exec_missedFrame_raises (hq : Quiet s) (hd : NothingDue s) (hu : s.tbu.frameMissed = (u, true)) :
    ∃ t, exec .missedFrame s = .next t ∧ t.tbu = u ∧ (flagRec t .holdover).set = true := by
  have hframe : missFrame s = raiseFlag .holdover { s with tbu := u } := by
    simp [missFrame, caughtUp_nothing hd hq, hu, State.onTbu]
  have hwaits := raiseFlag_waits .holdover { s with tbu := u }
  have hfinish : finish (missFrame s) = settleTakes (raiseFlag .holdover { s with tbu := u }) := by
    rw [hframe, finish_empty ((vanOf hwaits).trans hq.2.1) ((homeOf hwaits).trans hq.2.2)]
  have hexec : exec .missedFrame s = .next (finish (missFrame s)) := rfl
  rw [hfinish] at hexec
  refine ⟨_, hexec, ?_, settleTakes_keeps _ _ (raiseFlag_sets _ _)⟩
  have hfixed := (settleTakes_fixed (raiseFlag .holdover { s with tbu := u })).trans (raiseFlag_fixed ..)
  exact (fixed_eq hfixed).2.1

theorem exec_localTick (hq : Quiet s) (hd : NothingDue s) :
    exec .localTick s = .next { s with tbu := s.tbu.localTick } := by
  show Host.Outcome.next (finish ((caughtUp s).onTbu Timebase.localTick)) = _
  rw [caughtUp_nothing hd hq]
  exact congrArg _ (finish_quiet (quiet_of hq rfl rfl rfl))

end

/-! ### The lock states (R2 to R5) -/

/-- Settles O4: in UNLOCKED each frame start is judged by `frameStart_unlocked`, each missed frame by `frameMissed_unlocked`. -/
theorem unlocked_qualifiesTheRing : Obligations.Unlocked_QualifiesTheRing := by
  intro e s hq hd hlock
  have hblock : s.tbu.blockDue = false := hd.2.2.1
  refine ⟨fun hempty hn hrun => ?_, exec_missedFrame hq hd (frameMissed_unlocked hlock)⟩
  rw [exec_ringFrameStart hq hd hempty hn (frameStart_unlocked hlock hrun), ← hblock]

/-- Settles O5: in LOCKED each frame is a tick, and the eighth miss in a row enters HOLDOVER. -/
theorem locked_ticksAndMisses : Obligations.Locked_TicksAndMisses := by
  intro e s hq hd hlock
  have htick := takeTick_produces (t := s.tbu) (by rw [hlock]; rfl)
  refine ⟨fun hempty hn => ?_, fun hmiss => ?_, fun hmiss => ?_⟩
  · rw [exec_ringFrameStart hq hd hempty hn (frameStart_locked e hlock), htick]
  · rw [exec_missedFrame hq hd (frameMissed_locked hlock hmiss), htick]
  · obtain ⟨t, ht, htbu, hflag⟩ := exec_missedFrame_raises hq hd (frameMissed_eighth hlock hmiss)
    rw [htick] at htbu
    exact ⟨t, ht, by rw [htbu], by rw [htbu], by rw [htbu], by rw [htbu], by rw [htbu], by rw [htbu], by rw [htbu], by rw [htbu],
      by rw [htbu], hflag⟩

/-- Settles O6: in HOLDOVER the ticks are the local reference's, until a run of 48 frame starts returns to LOCKED. -/
theorem holdover_ticksAndReturn : Obligations.Holdover_TicksAndReturn := by
  intro e s hq hd
  refine ⟨fun hlock => ?_, fun hlock => ?_⟩
  · rw [exec_localTick hq hd, Timebase.localTick, if_neg hlock]
  · have htick := takeTick_produces (t := s.tbu) (by rw [hlock]; rfl)
    refine ⟨?_, exec_missedFrame hq hd (frameMissed_holdover hlock), fun hempty hn => ⟨fun hrun => ?_, fun he hrun => ?_⟩⟩
    · rw [exec_localTick hq hd, Timebase.localTick, if_pos hlock, htick]
    · exact exec_ringFrameStart hq hd hempty hn (frameStart_holdover hlock hrun)
    · rw [exec_ringFrameStart hq hd hempty hn (frameStart_returns hlock he hrun), htick]

end Sys2Proof.Machine
end

