-- ==== Sys2Proof/Proofs/Period.lean ====
section
/-! PROOF. The period start (R6, R7, R133, R142, R205, R210), and the frame start that makes the first one (R3). -/

namespace Sys2Proof.Machine

/-! ### The cadence of a period start (R6, R7) -/

theorem cadenceStep_stays {base num den acc : Nat} (h : acc + num < den) : cadenceStep base num den acc = (acc + num, base) := by
  rw [cadenceStep, if_neg (Nat.not_le.mpr h)]

/-- The accumulator wraps, and the period is one tick longer (R6). -/
theorem cadenceStep_wraps {base num den acc : Nat} (h : den ≤ acc + num) :
    cadenceStep base num den acc = (acc + num - den, base + 1) := by
  rw [cadenceStep, if_pos h]

section
variable {s : State} {e : Nat}

theorem exec_periodStart (hdue : periodDue s = true) : exec .periodStart s = .next (finish (startPeriod s)) := by
  show Host.Outcome.next (finish (periodIfDue s)) = _
  rw [periodIfDue, if_pos hdue]

/-- A period start moves the Timebase Unit as R6 and R7 say, and keeps the acceptance table and the output stream. -/
theorem periodStart_cadence (hq : Quiet s) (hdue : periodDue s = true) :
    ∃ t, exec .periodStart s = .next t ∧ t.tbu = s.tbu.startPeriod ∧ t.sri.table = s.sri.table ∧
      t.sri.output = s.sri.output := by
  have hfixed := fixed_eq (startPeriod_after (s := s) hq.2.1 hq.2.2)
  exact ⟨_, exec_periodStart hdue, hfixed.2.1, hfixed.2.2.1, hfixed.2.2.2⟩

/-- The frame start that completes the lock is a tick and starts the first period (R3). -/
theorem frameStart_starts (hq : Quiet s) (hd : NothingDue s) (hlock : s.tbu.lock = .unlocked) (he : e ≤ 24)
    (hr : s.tbu.run = 47) :
    ∃ t, exec (.ringFrameStart e) s = .next t ∧ t.pending = s.pending ∧ t.sri.table = s.sri.table ∧
      t.sri.output = s.sri.output ∧ t.tbu = ({ s.tbu with
        lock := .locked, tick := s.tbu.tick + 1, run := 48, miss := 0,
        blockDue := (s.tbu.tick + 1).toNat % 16 == 0 } : Timebase).startPeriod := by
  obtain ⟨u, hu⟩ : ∃ u : State, u = (fillSlot s).onTbu fun _ => (s.tbu.frameStart e).1 := ⟨_, rfl⟩
  have hfill := fixed_eq (fillSlot_fixed s)
  have hlocks := frameStart_locks hlock he hr
  have hframe : ringFrame e s = startPeriod u := by
    rw [ringFrame_nothing hq hd, hlocks, if_pos rfl, hu, hlocks]
  have hexec : exec (.ringFrameStart e) s = .next (finish (ringFrame e s)) := rfl
  rw [hframe] at hexec
  have hfixed := fixed_eq (startPeriod_after (s := u) (by rw [hu]; exact (fillSlot_van s).trans hq.2.1)
    (by rw [hu]; exact (fillSlot_home s).trans hq.2.2))
  refine ⟨_, hexec, hfixed.1.trans ?_, hfixed.2.2.1.trans ?_, hfixed.2.2.2.trans ?_, hfixed.2.1.trans ?_⟩
  · rw [hu]; exact hfill.1
  · rw [hu]; exact hfill.2.2.1
  · rw [hu]; exact hfill.2.2.2
  · rw [hu, hlocks]; rfl

end

/-! ### The labels of a period start (R133, R142) -/

@[simp] theorem State.noOwed_tbu (s : State) : s.noOwed.tbu = s.tbu := rfl
@[simp] theorem State.noOwed_clm (s : State) : s.noOwed.clm = s.clm := rfl
@[simp] theorem State.noOwed_pkp (s : State) : s.noOwed.pkp = s.pkp := rfl
@[simp] theorem State.noOwed_cmu (s : State) : s.noOwed.cmu = s.cmu := rfl
@[simp] theorem flagRec_noOwed (s : State) (f : EventFlag) : flagRec s.noOwed f = flagRec s f := rfl

/-- A record's post-roll ends at a period start as R133 says, in the words of the statement. -/
theorem closes_eq {closes : Clip → Bool}
    (h : ∀ c, closes c = true ↔ c.state = .postRoll ∧ c.count ≤ 1 ∧ ∀ k ∈ c.cameras, k.inPoint ≠ none) :
    closes = closesNow := by
  funext c
  rw [Bool.eq_iff_iff, h]
  simp only [closesNow, Clip.resolved, Bool.and_eq_true, beq_iff_eq, decide_eq_true_eq, List.all_eq_true,
    Option.isSome_iff_ne_none, and_assoc]

/-- What a period start makes of a record is `rolled`, in the words of the statement (R133). -/
theorem rolled_eq {p : Pic} {after : Clip → Clip}
    (h : ∀ c, after c = if c.state ≠ .postRoll then c else if 1 < c.count then { c with count := c.count - 1 }
      else if closesNow c then { c with state := .closed, count := 0, expiry := none, outPoint := some p }
      else { c with state := .closing, count := 0, expiry := some p }) : after = rolled p := by
  funext c
  rw [h, rolled]
  by_cases hs : c.state = .postRoll
  · by_cases hc : 1 < c.count
    · simp only [hc, if_true]
    · have hcl : closesNow c = c.resolved := by simp [closesNow, hs, Nat.le_of_not_lt hc]
      simp only [hcl]
  · simp only [hs, ne_eq, not_false_eq_true, if_true]

/-- The period start made, the programmes and the rates allotted: the state that the label delivery finds. -/
def allotted (s : State) : State :=
  allocation (((s.onTbu Timebase.startPeriod).tbu.period.map (·.length)).getD 0) (firstAllocated (s.onTbu Timebase.startPeriod))

/-- The labels of the period start delivered. -/
def labelled (s : State) : State :=
  retryLabels (countPostRoll (allotted s)).clm.waiting.length (countPostRoll (allotted s))

section
variable {s : State}

theorem allotted_eq (h : s.cmu.noticesHome = false) :
    (allotted s).tbu = s.tbu.startPeriod ∧ (allotted s).clm = s.clm ∧ (allotted s).pkp = s.pkp ∧
      (allotted s).cmu.noticesHome = false := by
  have hal : Allotted (s.onTbu Timebase.startPeriod) (allotted s) :=
    (firstAllocated_allotted _).trans (allocation_allotted _ h)
  refine ⟨?_, ?_, ?_, hal.home h⟩ <;> (rw [Allotted] at hal; rw [hal]; rfl)

/-- The records that close at this period start join the waiting order last, in the order in which they stand (R142). -/
def labelOrder (m : ClipMarker) : List Nat := m.waiting ++ (m.clips.filter closesNow).map (·.number)

/-- No in-point of a record in POST-ROLL lies after the picture that ends (R133). -/
def PostRollsBy (s : State) : Prop := ∀ c ∈ s.clm.clips, c.state = .postRoll → InPointsBy s.tbu.pic c

theorem labelled_refused (h : s.cmu.noticesHome = false) (hm : ClipsOk s.clm) (hin : PostRollsBy s)
    (hr : s.pkp.free = [] ∨ (s.pkp.owners.get 5).cap ≤ (s.pkp.owners.get 5).count) :
    Labelled (allotted s) (labelled s) (s.clm.clips.map (rolled s.tbu.pic)) (labelOrder s.clm) s.pkp.label s.pkp.free
      (s.pkp.owners.get 5).count ∧ (labelOrder s.clm ≠ [] → (flagRec (labelled s) .poolRefused).set = true) := by
  obtain ⟨htbu, hclm, hpkp, hhome⟩ := allotted_eq h
  have hp : (allotted s).tbu.pic - 1 = s.tbu.pic := by rw [htbu]; exact pic_next _
  rw [← hclm] at hm
  rw [PostRollsBy, ← hclm] at hin
  rw [← hpkp] at hr
  have hrefused := labels_refused hhome hm hp hin hr
  have hcounted := hrefused 0
  have hdone := hrefused (countPostRoll (allotted s)).clm.waiting.length
  rw [hclm, hpkp] at hdone
  exact ⟨hdone, fun hne => retry_raises hcounted hr (by rw [hclm]; exact hne)⟩

theorem labelled_granted (h : s.cmu.noticesHome = false) (hm : ClipsOk s.clm) (hin : PostRollsBy s)
    (hw : ∀ n ∈ s.clm.waiting, ∃ c ∈ s.clm.clips, c.number = n) (hf : (labelOrder s.clm).length ≤ s.pkp.free.length)
    (hc : (s.pkp.owners.get 5).count + (labelOrder s.clm).length ≤ (s.pkp.owners.get 5).cap) :
    ∃ ps : List Packet, Labelled (allotted s) (labelled s) (s.clm.clips.map (rolled s.tbu.pic)) [] (s.pkp.label ++ ps)
        (s.pkp.free.drop (labelOrder s.clm).length) ((s.pkp.owners.get 5).count + (labelOrder s.clm).length) ∧
      ps.map (·.subject) = (labelOrder s.clm).map some ∧
      ps.map (·.blocks) = (s.pkp.free.take (labelOrder s.clm).length).map ([·]) ∧
      ∀ k ∈ ps, ∃ c ∈ s.clm.clips, k = labelPacket (allotted s).tbu (rolled s.tbu.pic c) k.blocks := by
  obtain ⟨htbu, hclm, hpkp, hhome⟩ := allotted_eq h
  have hp : (allotted s).tbu.pic - 1 = s.tbu.pic := by rw [htbu]; exact pic_next _
  have hgranted := labels_granted (b := allotted s) (p := s.tbu.pic) (order := labelOrder s.clm) hhome (by rwa [hclm]) hp
    (by rwa [hclm]) (by rwa [hclm]) (by rw [hclm]; rfl) (by rwa [hpkp]) (by rwa [hpkp])
  rwa [hclm, hpkp] at hgranted

end

/-- R133, R142: the period start whose labels are all refused a block, or all granted one. -/
theorem periodStart_labels (s : State) (hq : Quiet s) (hl : NoLinkTakes s) (hdue : periodDue s = true)
    (h1 : s.cmu.noticesHome = false) (h2 : s.cmu.held = none) (h3 : s.cmu.homeNotices = []) (hm : ClipsOk s.clm)
    (hw : ∀ n ∈ s.clm.waiting, ∃ c ∈ s.clm.clips, c.number = n) (hin : PostRollsBy s) :
    ∃ t, exec .periodStart s = .next t ∧
      (s.pkp.free = [] ∨ (s.pkp.owners.get 5).cap ≤ (s.pkp.owners.get 5).count →
        t.clm = { s.clm with clips := s.clm.clips.map (rolled s.tbu.pic), waiting := labelOrder s.clm } ∧
          t.pkp.label = s.pkp.label ∧ (labelOrder s.clm ≠ [] → (flagRec t .poolRefused).set = true)) ∧
      ((labelOrder s.clm).length ≤ s.pkp.free.length →
        (s.pkp.owners.get 5).count + (labelOrder s.clm).length ≤ (s.pkp.owners.get 5).cap →
        t.clm = { s.clm with clips := s.clm.clips.map (rolled s.tbu.pic), waiting := [] } ∧
        ∃ ps : List Packet, t.pkp.label = s.pkp.label ++ ps ∧ ps.map (·.subject) = (labelOrder s.clm).map some ∧
          ps.map (·.blocks) = (s.pkp.free.take (labelOrder s.clm).length).map ([·]) ∧
          ∀ p ∈ ps, ∃ c ∈ s.clm.clips, p = {
            kind := .label, owner := some .labelReply, subject := some c.number,
            number := (rolled s.tbu.pic c).outPoint.getD 0
            stamp := s.tbu.tick, size := 16 + (labelPayload t.tbu (rolled s.tbu.pic c)).length, blocks := p.blocks
            payload := labelPayload t.tbu (rolled s.tbu.pic c) }) := by
  obtain ⟨htbu, hclm, -, -⟩ := allotted_eq h1
  have hexec : ∀ {clips waiting label free n}, Labelled (allotted s) (labelled s) clips waiting label free n →
      exec .periodStart s = .next (labelled s).noOwed := fun hlab => period_end hq hl hdue h1 h2 h3 rfl rfl hlab
  by_cases hfate : (s.pkp.free = [] ∨ (s.pkp.owners.get 5).cap ≤ (s.pkp.owners.get 5).count) ∨
      (labelOrder s.clm).length ≤ s.pkp.free.length ∧
        (s.pkp.owners.get 5).count + (labelOrder s.clm).length ≤ (s.pkp.owners.get 5).cap
  · have hdone : exec .periodStart s = .next (labelled s).noOwed := by
      obtain hr | ⟨hf, hc⟩ := hfate
      · exact hexec (labelled_refused h1 hm hin hr).1
      · obtain ⟨ps, hlab, -⟩ := labelled_granted h1 hm hin hw hf hc
        exact hexec hlab
    refine ⟨_, hdone, fun hr => ?_, fun hf hc => ?_⟩
    · obtain ⟨hlab, hflag⟩ := labelled_refused h1 hm hin hr
      rw [State.noOwed_clm, hlab.clm, hclm, State.noOwed_pkp, hlab.label, flagRec_noOwed]
      exact ⟨rfl, rfl, hflag⟩
    · obtain ⟨ps, hlab, hsubject, hblocks, hps⟩ := labelled_granted h1 hm hin hw hf hc
      rw [State.noOwed_clm, hlab.clm, hclm, State.noOwed_pkp, hlab.label, State.noOwed_tbu, hlab.rest.1]
      refine ⟨rfl, ps, rfl, hsubject, hblocks, fun k hk => ?_⟩
      obtain ⟨c, hcm, hkc⟩ := hps k hk
      have htick : (allotted s).tbu.tick = s.tbu.tick := by rw [htbu]; rfl
      refine ⟨c, hcm, ?_⟩
      rw [← htick, ← rolled_number s.tbu.pic c]
      exact hkc
  · exact ⟨_, rfl, fun hr => absurd (.inl hr) hfate, fun hf hc => absurd (.inr ⟨hf, hc⟩) hfate⟩

/-! ### The held reply and the home notices of a period start (R205, R210) -/

section
variable {s b : State}

@[simp] theorem oweAll_tbu (s : State) : (oweAll s).tbu = s.tbu := rfl
@[simp] theorem oweAll_pkp (s : State) : (oweAll s).pkp = s.pkp := rfl
@[simp] theorem oweAll_cmu (s : State) : (oweAll s).cmu = s.cmu := rfl

theorem serveVan_nil (n : Nat) (h : s.cmu.van = []) : serveVan n s = s := by
  cases n <;> simp [serveVan, h]

/-- While a reply is held the HOME queue does no work (R203, R205). -/
theorem serveHome_held (n : Nat) {r : HeldReply} (h : s.cmu.held = some r) : serveHome n s = s := by
  cases n with
  | zero => rfl
  | succ n => cases hh : s.cmu.home <;> simp [serveHome, h, hh]

theorem finish_held {r : HeldReply} (hv : s.cmu.van = []) (h : s.cmu.held = some r) : finish s = settleTakes s := by
  simp only [finish, serve, serveVan_nil _ hv, serveHome_held _ h]

/-- A reply that is granted its blocks is queued, and its command leaves the HOME queue (R205). -/
theorem offerHome_granted {tag : Byte} {body : List Byte} {n : Nat} {r : OwnerRecord} (hn : n = (16 + body.length + 255) / 256)
    (hr : r = s.pkp.owners.get 5) (hf : n ≤ s.pkp.free.length) (hc : r.count + n ≤ r.cap) :
    offerHome tag body s = oweAll { s with
      cmu := { s.cmu with home := s.cmu.home.tail, held := none }
      pkp := { s.pkp with
        free := s.pkp.free.drop n
        owners := s.pkp.owners.set 5 { r with count := r.count + n }
        reply := s.pkp.reply ++ [replyPacket (some tag) body (s.pkp.free.take n) s.tbu.tick] } } := by
  have hblocks : blocksFor (Config.packetHeaderBytes + body.length) = n := hn.symm
  subst hr
  simp only [offerHome, hblocks]
  rw [request_granted (o := .labelReply) (s := s.onCmu _) hf hc]
  rfl

/-- A reply that is refused its blocks is held, and POOL-REFUSED is raised (R148, R205). -/
theorem offerHome_refused {tag : Byte} {body : List Byte} {n : Nat} {r : OwnerRecord} (hn : n = (16 + body.length + 255) / 256)
    (hr : r = s.pkp.owners.get 5) (hrefused : s.pkp.free.length < n ∨ r.cap < r.count + n) :
    offerHome tag body s = raiseFlag .poolRefused ({ s with
      cmu := { s.cmu with held := some { tag := tag, bytes := body } } }.onPool fun k => k.refuse .labelReply) := by
  have hblocks : blocksFor (Config.packetHeaderBytes + body.length) = n := hn.symm
  subst hr
  simp only [offerHome, hblocks]
  rw [request_refused (o := .labelReply) (s := s.onCmu _) hrefused]
  rfl

/-- What a refusal of the label-and-reply owner leaves, without home copies: its count of refusals and POOL-REFUSED, and of the
Command Unit the flags and the notice queue (R148, R208). -/
theorem refused_raises (h : s.cmu.noticesHome = false) : ∃ t, t = raiseFlag .poolRefused (s.onPool fun k => k.refuse .labelReply) ∧
    t.pkp = { s.pkp with owners := s.pkp.owners.set 5 { s.pkp.owners.get 5 with
      refused := min ((s.pkp.owners.get 5).refused + 1) 65535 } } ∧
    t.hsc = s.hsc ∧ t.lsu = s.lsu ∧ t.cmu.van = s.cmu.van ∧ t.cmu.home = s.cmu.home ∧ t.cmu.held = s.cmu.held ∧
    t.cmu.homeNotices = s.cmu.homeNotices ∧ (flagRec t .poolRefused).set = true := by
  refine ⟨_, rfl, ?_, ?_, ?_, ?_, ?_, ?_, ?_, raiseFlag_sets _ _⟩
  all_goals
    have hal := raiseFlag_allotted .poolRefused (s := s.onPool fun k => k.refuse .labelReply) h
    rw [Allotted] at hal
    rw [hal]
    rfl

/-- A period start ends without a take where no link can take: what the Command Unit's part left stands (R165). -/
theorem settleTakes_kept {u v : State} (hal : Allotted (s.onTbu Timebase.startPeriod) b) (hl : NoLinkTakes s)
    (he : v.noOwed = u.noOwed) (h1 : u.lsu = b.lsu) (h2 : u.noOwed.hsc = b.noOwed.hsc) : settleTakes v = u.noOwed := by
  have hlsu : v.lsu = b.lsu := (congrArg State.lsu he).trans h1
  rw [settleTakes_cannot (kept_links hal hl hlsu ((congrArg State.hsc he).trans h2)), he]

/-- What a period start of no label to deliver finds once the rates are allotted: of `s`, all that the Command Unit's part of
it reads. -/
structure Awaits (s b : State) : Prop where
  allot : Allotted (s.onTbu Timebase.startPeriod) b
  exec : exec .periodStart s = .next (finish (retryHome b))
  pkp : b.pkp = s.pkp
  tick : b.tbu.tick = s.tbu.tick
  van : b.cmu.van = s.cmu.van
  home : b.cmu.home = s.cmu.home
  held : b.cmu.held = s.cmu.held
  notices : b.cmu.homeNotices = s.cmu.homeNotices
  calm : b.cmu.noticesHome = false

theorem awaits_of (hdue : periodDue s = true) (h1 : s.cmu.noticesHome = false) (hw : s.clm.waiting = [])
    (hc : ∀ c ∈ s.clm.clips, c.state ≠ .postRoll) : ∃ b, Awaits s b := by
  obtain ⟨b, hal, hexec⟩ := period_home hdue h1 hw hc
  refine ⟨b, hal, hexec, ?_, ?_, ?_, ?_, ?_, ?_, hal.home h1⟩ <;> (rw [Allotted] at hal; rw [hal]; rfl)

/-- A period start whose home notices are all granted a block (R210). -/
theorem retryHome_granted {r : OwnerRecord} (hb : Awaits s b) (hl : NoLinkTakes s)
    {u : State} (hu : retryHeld b = u) (hlsu : u.lsu = b.lsu) (hhsc : u.noOwed.hsc = b.noOwed.hsc)
    (hvan : u.cmu.van = []) (hhome : u.cmu.home = []) (hheld : u.cmu.held = none) (hr : r = u.pkp.owners.get 5)
    (hf : u.cmu.homeNotices.length ≤ u.pkp.free.length) (hc : r.count + u.cmu.homeNotices.length ≤ r.cap) :
    exec .periodStart s = .next ({ u with
      cmu := { u.cmu with homeNotices := [] }
      pkp := { u.pkp with
        free := u.pkp.free.drop u.cmu.homeNotices.length
        owners := u.pkp.owners.set 5 { r with count := r.count + u.cmu.homeNotices.length }
        reply := u.pkp.reply ++ homePackets u.tbu.tick u.cmu.homeNotices u.pkp.free } } : State).noOwed := by
  have hsent := homeNotices_granted _ u r rfl hr hf hc
  have hretry : retryHome b = sendHomeNotices u.cmu.homeNotices.length u := by
    simp only [retryHome, hu, hheld, Option.isNone_none, if_true]
  have hcmu := congrArg State.cmu hsent
  simp only [State.noOwed_cmu] at hcmu
  rw [hb.exec, hretry, finish_empty (by rw [hcmu]; exact hvan) (by rw [hcmu]; exact hhome),
    settleTakes_kept hb.allot hl hsent hlsu hhsc]

theorem retryHeld_none (h : s.cmu.held = none) : retryHeld s = s := by
  simp only [retryHeld, h]

theorem noOwed_oweAll_hsc (u : State) : (oweAll u).noOwed.hsc = u.noOwed.hsc := congrArg State.hsc (noOwed_oweAll u)

/-- R205, R210: the period start at which the held reply and every home notice are granted their blocks. -/
theorem held_granted {r : OwnerRecord} {held : HeldReply} {w : Msg} {n k : Nat} (hb : Awaits s b) (hl : NoLinkTakes s)
    (hv : s.cmu.van = []) (hheld : s.cmu.held = some held) (hw : s.cmu.home = [w])
    (hn : n = (16 + held.bytes.length + 255) / 256) (hk : k = s.cmu.homeNotices.length) (hr : r = s.pkp.owners.get 5)
    (hf : n + k ≤ s.pkp.free.length) (hc : r.count + n + k ≤ r.cap) :
    ∃ t, exec .periodStart s = .next t ∧ t.cmu.held = none ∧ t.cmu.home = [] ∧ t.cmu.homeNotices = [] ∧
      t.pkp = { s.pkp with
        free := s.pkp.free.drop (n + k)
        owners := s.pkp.owners.set 5 { r with count := r.count + n + k }
        reply := s.pkp.reply ++ [replyPacket (some held.tag) held.bytes (s.pkp.free.take n) s.tbu.tick] ++
          homePackets s.tbu.tick s.cmu.homeNotices (s.pkp.free.drop n) } := by
  have hoffer := offerHome_granted (s := b) (r := r) (tag := held.tag) hn (by rw [hb.pkp]; exact hr) (by rw [hb.pkp]; omega)
    (Nat.le_trans (Nat.le_add_right _ k) hc)
  have hhome : (offerHome held.tag held.bytes b).cmu.home = [] := by
    rw [hoffer]; simp [hb.home, hw]
  have hretry : retryHeld b = offerHome held.tag held.bytes b := by
    simp only [retryHeld, hb.held, hheld, serveHome_nil _ hhome]
  rw [hoffer] at hretry
  have hdone := retryHome_granted (r := { r with count := r.count + n }) hb hl hretry rfl (noOwed_oweAll_hsc _)
    (hb.van.trans hv) (by simp [hb.home, hw]) rfl (by simp)
    (by simp [hb.pkp, hb.notices]; omega) (by simp [hb.notices]; omega)
  refine ⟨_, hdone, rfl, ?_, rfl, ?_⟩
  · simp [hb.home, hw]
  · simp [hb.pkp, hb.notices, hb.tick, hk]

/-- R205, R210: the period start at which the held reply is refused its blocks; the home notices wait with it. -/
theorem held_refused {r : OwnerRecord} {held : HeldReply} {w : Msg} {n : Nat} (hb : Awaits s b) (hl : NoLinkTakes s)
    (hv : s.cmu.van = []) (hheld : s.cmu.held = some held) (hw : s.cmu.home = [w])
    (hn : n = (16 + held.bytes.length + 255) / 256) (hr : r = s.pkp.owners.get 5)
    (hrefused : s.pkp.free.length < n ∨ r.cap < r.count + n) :
    ∃ t, exec .periodStart s = .next t ∧ t.cmu.held = some held ∧ t.cmu.home = [w] ∧
      t.cmu.homeNotices = s.cmu.homeNotices ∧ (flagRec t .poolRefused).set = true ∧
      t.pkp = { s.pkp with owners := s.pkp.owners.set 5 { r with refused := min (r.refused + 1) 65535 } } := by
  have hoffer := offerHome_refused (s := b) (r := r) (tag := held.tag) hn (by rw [hb.pkp]; exact hr) (by rw [hb.pkp]; exact hrefused)
  obtain ⟨u, hu, hpkp, hhsc, hlsu, hvan, hhome, hstill, hnotices, hflag⟩ :=
    refused_raises (s := { b with cmu := { b.cmu with held := some { tag := held.tag, bytes := held.bytes } } }) hb.calm
  rw [← hu] at hoffer
  have hretry : retryHome b = u := by
    simp only [retryHome, retryHeld, hb.held, hheld, hoffer, serveHome_held _ hstill, hstill, Option.isNone_some,
      Bool.false_eq_true, if_false]
  have hfinish : finish u = u.noOwed := by
    rw [finish_held (hvan.trans (hb.van.trans hv)) hstill, settleTakes_kept hb.allot hl rfl hlsu]
    simp only [State.noOwed, State.onHsc, hhsc]
  refine ⟨u.noOwed, by rw [hb.exec, hretry, hfinish], ?_, ?_, ?_, hflag, ?_⟩
  · rw [State.noOwed_cmu, hstill]
  · rw [State.noOwed_cmu, hhome]; exact hb.home.trans hw
  · rw [State.noOwed_cmu, hnotices]; exact hb.notices
  · rw [State.noOwed_pkp, hpkp, hr]
    simp only [hb.pkp]

/-- R210: the period start at which no reply is held and every home notice is granted its block. -/
theorem homes_granted {r : OwnerRecord} (hb : Awaits s b) (hl : NoLinkTakes s) (hv : s.cmu.van = []) (hheld : s.cmu.held = none)
    (hw : s.cmu.home = []) (hr : r = s.pkp.owners.get 5) (hf : s.cmu.homeNotices.length ≤ s.pkp.free.length)
    (hc : r.count + s.cmu.homeNotices.length ≤ r.cap) :
    ∃ t, exec .periodStart s = .next t ∧ t.cmu.homeNotices = [] ∧
      t.pkp.reply = s.pkp.reply ++ homePackets s.tbu.tick s.cmu.homeNotices s.pkp.free := by
  have hnone : b.cmu.held = none := hb.held.trans hheld
  have hdone := retryHome_granted (r := r) hb hl (retryHeld_none hnone) rfl rfl (hb.van.trans hv) (hb.home.trans hw) hnone
    (by rw [hb.pkp]; exact hr) (by rw [hb.pkp, hb.notices]; exact hf) (by rw [hb.notices]; exact hc)
  exact ⟨_, hdone, rfl, by simp [hb.pkp, hb.tick, hb.notices]⟩

/-- R210: the period start at which no reply is held and the first home notice is refused its block. -/
theorem homes_refused {r : OwnerRecord} (hb : Awaits s b) (hl : NoLinkTakes s) (hv : s.cmu.van = []) (hheld : s.cmu.held = none)
    (hw : s.cmu.home = []) (hr : r = s.pkp.owners.get 5) (hne : s.cmu.homeNotices ≠ [])
    (hrefused : s.pkp.free = [] ∨ r.cap ≤ r.count) :
    ∃ t, exec .periodStart s = .next t ∧ t.cmu.homeNotices = s.cmu.homeNotices ∧ (flagRec t .poolRefused).set = true ∧
      t.pkp = { s.pkp with owners := s.pkp.owners.set 5 { r with refused := min (r.refused + 1) 65535 } } := by
  have hnone : b.cmu.held = none := hb.held.trans hheld
  obtain ⟨u, hu, hpkp, hhsc, hlsu, hvan, hhome, -, hnotices, hflag⟩ := refused_raises hb.calm
  have hretry : retryHome b = u := by
    rw [retryHome, retryHeld_none hnone, hnone, hu]
    exact homeNotices_refused rfl (by rwa [hb.notices]) (by rw [hb.pkp, ← hr]; exact hrefused)
  have hfinish : finish u = u.noOwed := by
    rw [finish_empty (hvan.trans (hb.van.trans hv)) (hhome.trans (hb.home.trans hw)), settleTakes_kept hb.allot hl rfl hlsu]
    simp only [State.noOwed, State.onHsc, hhsc]
  refine ⟨u.noOwed, by rw [hb.exec, hretry, hfinish], ?_, hflag, ?_⟩
  · rw [State.noOwed_cmu, hnotices, hb.notices]
  · rw [State.noOwed_pkp, hpkp, hr, hb.pkp]

end

/-! ### The period start -/

/-- Settles O8, clause by clause: the cadence, the first period start, the labels, and the held reply with the home notices. -/
theorem periodStart_fixesPeriodAndCodeStart : Obligations.PeriodStart_FixesPeriodAndCodeStart := by
  refine ⟨fun s hq hdue => ?_, fun e s hq hd hlock he hr => ?_, ?_, ?_⟩
  · obtain ⟨t, ht, htbu, htable, houtput⟩ := periodStart_cadence hq hdue
    refine ⟨t, ht, ?_⟩
    rw [htbu]
    refine ⟨rfl, fun hstay => ?_, fun hwrap => ?_, rfl, rfl, rfl, rfl, rfl, rfl, rfl, htable, houtput⟩
    · simp only [Timebase.startPeriod, cadenceStep_stays hstay, and_self]
    · simp only [Timebase.startPeriod, cadenceStep_wraps hwrap, and_self]
  · obtain ⟨t, ht, hpending, htable, houtput, htbu⟩ := frameStart_starts hq hd hlock he hr
    refine ⟨t, ht, ?_⟩
    rw [htbu]
    refine ⟨rfl, rfl, rfl, rfl, rfl, ?_, ⟨_, rfl, ?_⟩, rfl, hpending, htable, houtput⟩
    all_goals
      simp only [Timebase.startPeriod, cadenceStep]
      split <;> rfl
  · rintro after closes order s hq hl hdue h1 h2 h3 hm hw hin hcloses hafter rfl
    have hclosed := closes_eq hcloses
    subst hclosed
    have hrolled := rolled_eq hafter
    subst hrolled
    exact periodStart_labels s hq hl hdue h1 h2 h3 hm hw hin
  · intro r s hq hv hl hdue h1 hw hc hr
    obtain ⟨b, hb⟩ := awaits_of hdue h1 hw hc
    refine ⟨fun held w n k hheld hhome hn hk => ?_, fun hheld hhome => ?_⟩
    · by_cases hgrant : n + k ≤ s.pkp.free.length ∧ r.count + n + k ≤ r.cap
      · obtain ⟨t, ht, g1, g2, g3, g4⟩ := held_granted hb hl hv hheld hhome hn hk hr hgrant.1 hgrant.2
        exact ⟨t, ht, fun _ _ => ⟨g1, g2, g3, g4⟩, fun hrefused => by omega⟩
      · by_cases hrefused : s.pkp.free.length < n ∨ r.cap < r.count + n
        · obtain ⟨t, ht, g⟩ := held_refused hb hl hv hheld hhome hn hr hrefused
          exact ⟨t, ht, fun hf hc => absurd ⟨hf, hc⟩ hgrant, fun _ => g⟩
        · exact ⟨_, rfl, fun hf hc => absurd ⟨hf, hc⟩ hgrant, fun h => absurd h hrefused⟩
    · by_cases hgrant : s.cmu.homeNotices.length ≤ s.pkp.free.length ∧ r.count + s.cmu.homeNotices.length ≤ r.cap
      · obtain ⟨t, ht, g1, g2⟩ := homes_granted hb hl hv hheld hhome hr hgrant.1 hgrant.2
        refine ⟨t, ht, fun _ _ => ⟨g1, g2⟩, fun hne hrefused => ?_⟩
        have hpos : 0 < s.cmu.homeNotices.length := List.length_pos_iff.mpr hne
        obtain hfree | hcap := hrefused
        · have hlen := hgrant.1
          rw [hfree, List.length_nil] at hlen
          omega
        · omega
      · by_cases hrefused : s.cmu.homeNotices ≠ [] ∧ (s.pkp.free = [] ∨ r.cap ≤ r.count)
        · obtain ⟨t, ht, g⟩ := homes_refused hb hl hv hheld hhome hr hrefused.1 hrefused.2
          exact ⟨t, ht, fun hf hc => absurd ⟨hf, hc⟩ hgrant, fun _ _ => g⟩
        · exact ⟨_, rfl, fun hf hc => absurd ⟨hf, hc⟩ hgrant, fun hne h => absurd ⟨hne, h⟩ hrefused⟩

end Sys2Proof.Machine
end

