-- ==== Sys2Proof/Proofs/TimebaseSet.lean ====
section
/-! PROOF. TIMEBASE-SET (R12, R13, R110). -/

namespace Sys2Proof.Machine

/-- A command of the ring's control stream that finds its way free, and whose owner asks for no take attempt: the owner's state,
with the reply on the ring (R203 to R205). -/
theorem exec_van {row : Instr} {h : Hdr} {c : Command} {i : RingStream} {s u : State} {r : Reply} (hrow : messageOf row = some (h, c))
    (hr : VanReady h i s) (hp : perform (headOf h c) c (atHead h c s) = (atHead h c u, r)) (hl : listsFit c = true)
    (hc : c ≠ .reset 2) (ho : NoOwed u) (hv : u.cmu.van = []) (hh : u.cmu.home = []) :
    exec row s = .next { u with sri := ringReply u.sri h i (commandKind c) (byteOf r.status.code) r.results } := by
  rw [exec_message hrow, takeCommand_done hr hl hc hp ho hv hh]

section
variable {h : Hdr} {i : RingStream} {f : TimebaseFields} {s : State}

/-- The value clamped of a TIMEBASE-SET, field by field; a numerator at or above the denominator is one (R12). -/
theorem timebaseClamped_eq {t : Timebase} (hd : 1 ≤ t.den ∧ t.den ≤ 255) : timebaseClamped f t =
    (outside 1 65535 f.base || outside 1 255 f.den || decide (loaded 1 255 t.den f.den ≤ f.num.getD t.num) ||
      outside 24 60 f.rate || outside 0 5183999 f.origin) := by
  have hden := loaded_range (by decide) hd f.den
  have hnum : decide (loaded 1 255 t.den f.den - 1 < f.num.getD t.num) =
      decide (loaded 1 255 t.den f.den ≤ f.num.getD t.num) := by
    rw [decide_eq_decide]; omega
  simp only [timebaseClamped, denAfter, getD_clamp _ _ _ _ (by decide : 1 ≤ 255), hnum,
    clampedBy_outside _ _ _ (by decide : 1 ≤ 65535), clampedBy_outside _ _ _ (by decide : 1 ≤ 255),
    clampedBy_outside _ _ _ (by decide : 24 ≤ 60), clampedBy_outside _ _ _ (by decide : 0 ≤ 5183999)]

/-- A linked stream's target delay, by the programme that its link is read as (R109, R110). -/
theorem targetDelay_linked {t : SoundStream} {q : Prog} (hq : t.linked = some q) :
    targetDelay s t = linkedDelay s.tbu (prog s (fold s q)).cfg.latency t := by
  simp only [targetDelay, linkedProg, hq, Option.map_some, linkedDelay, clampInt, Config.maxDelay]
  rfl

theorem four_any_active : (four.any fun p => (prog s p).state.active) = true ↔ ∃ p, (prog s p).state.active = true := by
  simp only [List.any_eq_true, mem_four, true_and]

/-- TIMEBASE-SET while a programme is active (R13). -/
theorem exec_timebaseSet_refused (hr : VanReady h i s) (hp : ∃ p, (prog s p).state.active = true) :
    exec (.timebaseSet h f) s = .next { s with sri := ringReply s.sri h i 1 4 [] } := by
  have hperform : perform (headOf h (.timebaseSet f)) (.timebaseSet f) (atHead h (.timebaseSet f) s) =
      (atHead h (.timebaseSet f) s, { status := .refusedState }) := by
    simp only [perform, timebaseSet, atHead_prog, four_any_active.mpr hp, if_true]
  rw [exec_van rfl hr hperform rfl (by simp) hr.1.1 hr.1.2.1 hr.1.2.2]
  rfl

/-- TIMEBASE-SET while no programme is active: the fields stored, and the linked streams retargeted (R12, R110). -/
theorem exec_timebaseSet (hr : VanReady h i s) (hp : ∀ p, (prog s p).state.active = false) :
    exec (.timebaseSet h f) s = .next { s with
      tbu := s.tbu.setFields f
      sdp := (retargetWhere (fun t => t.linked.isSome) (s.onTbu (·.setFields f))).sdp
      sri := ringReply s.sri h i 1 (doneCode (timebaseClamped f s.tbu)) [] } := by
  obtain ⟨u, hu⟩ : ∃ u, u = retargetWhere (fun t => t.linked.isSome) (s.onTbu (·.setFields f)) := ⟨_, rfl⟩
  have hnone : (four.any fun p => (prog s p).state.active) = false := by
    rw [← Bool.not_eq_true, four_any_active]
    rintro ⟨p, ha⟩
    rw [hp p] at ha
    exact absurd ha Bool.false_ne_true
  have hperform : perform (headOf h (.timebaseSet f)) (.timebaseSet f) (atHead h (.timebaseSet f) s) =
      (atHead h (.timebaseSet f) u, { status := doneIf (timebaseClamped f s.tbu) }) := by
    have hstored : (atHead h (.timebaseSet f) s).onTbu (·.setFields f) = atHead h (.timebaseSet f) (s.onTbu (·.setFields f)) := rfl
    simp only [perform, timebaseSet, atHead_prog, hnone, Bool.false_eq_true, if_false, hstored, retargetWhere_atHead, hu]
    rfl
  rw [retargetWhere_only] at hu
  rw [exec_van rfl hr hperform rfl (by simp) (by rw [hu]; exact hr.1.1) (by rw [hu]; exact hr.1.2.1) (by rw [hu]; exact hr.1.2.2),
    doneIf_code, hu]
  rfl

end

/-- Settles O11: TIMEBASE-SET is refused while a programme is active, and otherwise stores its fields and retargets the linked
streams. -/
theorem timebaseSet_loadsTheCadence : Obligations.TimebaseSet_LoadsTheCadence := by
  intro h i f s hr
  refine ⟨fun ⟨p, hp⟩ => exec_timebaseSet_refused hr ⟨p, (active_true _).mpr hp⟩, fun hc hp => ?_⟩
  have hexec := exec_timebaseSet (f := f) hr fun p => (active_false _).mpr (hp p)
  have hstream := fun k => retargetWhere_get (fun t => t.linked.isSome) (s.onTbu (·.setFields f)) k
  rw [timebaseClamped_eq hc.den] at hexec
  refine ⟨_, _, hexec, rfl, setFields_eq f s.tbu, fun k hk => ?_, fun k q hq => ?_, rfl⟩
  · exact (hstream k).trans (if_neg (by simp [hk]))
  · refine ((hstream k).trans (if_pos (by simp [hq]))).trans ?_
    exact congrArg (fun d => { s.sdp.get k with target := d }) (targetDelay_linked hq)

end Sys2Proof.Machine
end

