-- ==== Sys2Proof/Proofs/BlockEvent.lean ====
section
/-! PROOF. The block event where no home sound stream is enabled and no packet waits: the mixer's alignment and the links'
credit (R9, R87, R88, R163). -/

namespace Sys2Proof.Machine

/-- The links' scheduling once each that is UP or DEGRADED has gained its credit (R163). -/
def creditedLinks (s : State) : Table 4 LinkSched := Table.ofFn fun l => gainCredit (link s l) (sched s l)

section
variable {s : State} {m : BlockNo}

theorem gainCredit_owed (r : LinkRecord) (h : LinkSched) : (gainCredit r h).owed = h.owed := by
  simp only [gainCredit]
  split <;> rfl

/-- R163, by the state of the link: what it gains at, and what it leaves where it gains nothing. -/
theorem gainCredit_eq (r : LinkRecord) (h : LinkSched) : ∀ c : Option Nat, c = (match r.state with
      | .up => some r.capacity
      | .degraded => some (r.capacity / 2)
      | _ => none) → gainCredit r h = match c with
    | some c => { h with credit := min r.settings.burst (h.credit + (c + h.carry) / 24), carry := (c + h.carry) % 24 }
    | none => h := by
  rintro c rfl
  cases hs : r.state <;> simp only [gainCredit, workingCapacity, hs, LinkState.carries] <;> rfl

/-- The credit of a block event after which no attempt finds a packet (R163, R165). -/
theorem finish_creditBlock (hq : Quiet s) (he : QueuesEmpty s) :
    finish (creditBlock s) = { s with hsc := { s.hsc with links := creditedLinks s } } := by
  obtain ⟨u, hu⟩ : ∃ u : State, u = { s with hsc := { s.hsc with links := creditedLinks s } } := ⟨_, rfl⟩
  have hcredit : creditBlock s = oweAll u := by rw [hu]; rfl
  have howed : NoOwed u := by
    intro l
    rw [hu]
    simpa only [sched, creditedLinks, Table.get_ofFn, gainCredit_owed] using hq.1 l
  have hempty : QueuesEmpty (oweAll u) := by rw [hu]; exact he
  rw [hcredit, finish_empty (by rw [hu]; exact hq.2.1) (by rw [hu]; exact hq.2.2), settleTakes_empty hempty, noOwed_oweAll,
    noOwed_of howed, hu]

theorem streamsArrival_disabled {u : State} (h : ∀ i, (u.sdp.get i).enable = false) (blocks : Table 8 SoundBlock) :
    streamsArrival m blocks u = u := by
  simp [streamsArrival, four, h]

theorem blockWork_disabled {u v : State} (hv : (mixEvent m u).2 = v) (hs : ∀ i, (v.sdp.get i).enable = false) :
    blockWork m u = creditBlock v := by
  subst hv
  simp only [blockWork]
  rw [streamsArrival_disabled hs]

/-- A block event that is due, by what the mixer leaves. -/
theorem exec_blockEvent (hq : Quiet s) (hdue : s.tbu.blockDue = true) (hs : ∀ i, (s.sdp.get i).enable = false)
    (he : QueuesEmpty s) {x : Mixer} (hx : (mixEvent (endedBlock s) (s.onTbu fun t => { t with blockDue := false })).2 =
      { s with tbu := { s.tbu with blockDue := false }, smx := x }) :
    exec .blockEvent s = .next { s with
      tbu := { s.tbu with blockDue := false }
      smx := x
      hsc := { s.hsc with links := creditedLinks s } } := by
  have hfinish := finish_creditBlock (s := { s with tbu := { s.tbu with blockDue := false }, smx := x })
    (quiet_of hq rfl rfl rfl) he
  rw [← blockWork_disabled hx hs] at hfinish
  show Host.Outcome.next (finish (blockIfDue s)) = _
  rw [blockIfDue, if_pos hdue, hfinish]
  rfl

/-- An unaligned mixer aligns on the block after the ended one (R87). -/
theorem mixEvent_aligns (h : s.smx.aligned = false) :
    (mixEvent m s).2 = { s with smx := { s.smx with aligned := true, next := m + 1 } } := by
  simp only [mixEvent, h, Bool.false_eq_true, if_false]
  rfl

/-- A block event below the mix lag is silent (R88). -/
theorem mixEvent_silent (h : s.smx.aligned = true) (hgap : (m - s.smx.next).toNat < s.smx.lag ∨ 32768 ≤ (m - s.smx.next).toNat) :
    (mixEvent m s).2 = s := by
  simp only [mixEvent, h, hgap, if_true]

end

/-- Settles O32: the mixer by `mixEvent_aligns` and `mixEvent_silent`, the credit by `gainCredit_eq`. -/
theorem blockEvent_alignsAndCredits : Obligations.BlockEvent_AlignsAndCredits := by
  intro m s hq
  refine ⟨fun hdue => ?_, fun hdue hs he hm => ⟨creditedLinks s, fun l c hc => ?_, fun halign => ?_, fun halign hgap => ?_⟩⟩
  · show Host.Outcome.next (finish (blockIfDue s)) = _
    rw [blockIfDue, hdue, if_neg Bool.false_ne_true, finish_quiet hq]
  · exact (Table.get_ofFn ..).trans (gainCredit_eq _ _ c hc)
  · subst hm
    exact exec_blockEvent hq hdue hs he (mixEvent_aligns halign)
  · subst hm
    exact exec_blockEvent hq hdue hs he (mixEvent_silent halign hgap)

end Sys2Proof.Machine
end

