-- ==== Sys2Proof/Proofs/Queries.lean ====
section
/-! PROOF. STATUS-QUERY of every block, AUTHORITY-SET and EVENTS-CLEAR (R206 to R208). -/

namespace Sys2Proof.Machine

/-! ### Bytes, numbers and tables as the figures write them -/

theorem beBytes_one (v : Nat) : beBytes 1 v = [byteOf v] := by simp [beBytes, byteOf]

theorem beBytes_byte (v : Byte) : beBytes 1 v.toNat = [v] := by simp [beBytes_one, byteOf]

theorem byteOf_onOff (b : Bool) : byteOf (onOff b) = if b then 1 else 2 := by cases b <;> rfl

/-- The answer to a "whether" (12.1). -/
theorem beBytes_onOff (b : Bool) : beBytes 1 (onOff b) = [if b then 1 else 2] := by rw [beBytes_one, byteOf_onOff]

theorem whether_eq (b : Bool) : whether b = some [if b then 1 else 2] := congrArg some (beBytes_onOff b)

theorem bind_whether {α : Type} (o : Option α) (f : α → Bool) :
    (o.bind fun a => whether (f a)) = o.map fun a => [if f a then 1 else 2] := by
  cases o with
  | none => rfl
  | some a => exact whether_eq _

theorem vals_four {α : Type} (t : Table 4 α) : t.vals = [t.get 0, t.get 1, t.get 2, t.get 3] := by
  obtain ⟨l, hl⟩ := t
  match l, hl with
  | [a, b, c, d], _ => rfl

theorem finOf_val {n : Nat} (i : Fin n) : finOf n i.val = some i := by simp [finOf]

theorem finOf_some {n v : Nat} {i : Fin n} (h : finOf n v = some i) : v = i.val := by
  simp only [finOf] at h
  split at h
  · injection h with h; rw [← h]
  · cases h

theorem objectNumber_val {n : Nat} (kind : Nat) (i : Fin n) : objectNumber n kind (kind, [i.val]) = some i := by
  simp [objectNumber, finOf_val]

theorem objectNumber_some {n kind : Nat} {o : Nat × List Nat} {i : Fin n} (h : objectNumber n kind o = some i) :
    o = (kind, [i.val]) := by
  obtain ⟨k, l⟩ := o
  simp only [objectNumber] at h
  split at h
  · split at h
    · rename_i hk
      rw [finOf_some h, hk]
    · cases h
  · cases h

/-! ### What a query answers, and what its clear option clears -/

/-- What the clear option of a query of block `b` and `object` sets to 0 (R160, R179, R196). -/
def clearedBy : Nat → Option (Nat × List Nat) → State → State
  | 10, _ => clearRefused
  | 11, none => fun s => s.onHsc fun h => { h with ignoredHome := 0 }
  | 11, some o => fun s => match objectNumber 4 11 o with
    | some l => s.onSched l LinkSched.clearCounts
    | none => s
  | 12, none => fun s => { s with lsu := s.lsu.map (·.clearFaults) }
  | 12, some o => fun s => match objectNumber 4 11 o with
    | some l => s.onLink l LinkRecord.clearFaults
    | none => s
  | _, _ => id

/-- The clear option of the other blocks changes nothing. -/
theorem clearedBy_other {b : Nat} {o : Option (Nat × List Nat)} (h : b ≠ 10 ∧ b ≠ 11 ∧ b ≠ 12) : clearedBy b o = id := by
  unfold clearedBy
  split
  case h_6 => rfl
  all_goals omega

theorem clearedBy_sched (l : Link) :
    clearedBy 11 (some (11, [l.val])) = fun s => s.onSched l LinkSched.clearCounts := by
  funext s
  simp only [clearedBy, objectNumber_val]

theorem clearedBy_link (l : Link) :
    clearedBy 12 (some (11, [l.val])) = fun s => s.onLink l LinkRecord.clearFaults := by
  funext s
  simp only [clearedBy, objectNumber_val]

theorem clearIf_id (clear : Bool) (s : State) : clearIf clear id s = s := by cases clear <;> rfl

section
variable {s : State} {b : Nat} {o : Option (Nat × List Nat)} {r : List (Option (List Byte))}

theorem figures_ring (h : Figures s 1 none r) : r = ringResults s.sri := by
  cases h; rfl

theorem figures_mixer (h : Figures s 7 none r) : r = mixerResults s := by
  cases h
  simp only [mixerResults, whether_eq, num, byteOf_onOff]

theorem figures_sound (h : Figures s 8 none r) : r = [num 2 (soundReserve s)] := by
  cases h
  simp only [num, soundReserve, vals_four]
  rfl

theorem ticksLeft_eq (t : Tick) :
    ticksLeft s t = if (s.tbu.tick - t).toNat ≤ 2147483647 then 0 else (t - s.tbu.tick).toNat := by
  simp only [ticksLeft, reached, atOrBefore, decide_eq_true_eq]

theorem openBytes_eq : openBytes = fun o => [o.tag, byteOf o.origin.code] := rfl

theorem bandBytes_eq : bandBytes =
    fun b => byteOf b.prog.val :: beBytes 4 b.pic.toNat ++ beBytes 1 b.band ++ [if b.discard then 1 else 2] := by
  funext b
  rw [bandBytes, beBytes_one, beBytes_onOff]
  rfl

/-- The figure of the even member alone (R37). -/
theorem ite_isOdd {α : Type} (p : Prog) (x : Option α) :
    (if isOdd p then none else x) = if p.val % 2 = 0 then x else none := by
  rcases Nat.mod_two_eq_zero_or_one p.val with h | h <;> simp [isOdd, h]

theorem countP_entries (s : State) :
    s.cde.entries.vals.countP (·.isSome) = ([0, 1, 2, 3] : List Prog).countP fun p => (entryOf s p).isSome := by
  rw [vals_four]
  rfl

/-- The number of clips of each state, by the states' numbers of 12.1. -/
theorem countP_states (l : List Clip) : [1, 2, 3, 4, 5, 6].map (fun k => byteOf (l.countP fun c => c.state.code == k)) =
    [.opened, .postRoll, .closing, .closed, .sent, .acked].map fun v : ClipState => byteOf (l.countP fun c => c.state = v) := by
  have hcode : ∀ v : ClipState, (fun c : Clip => c.state.code == v.code) = fun c => decide (c.state = v) := by
    intro v
    funext c
    cases c.state <;> cases v <;> rfl
  rw [show [1, 2, 3, 4, 5, 6] = [ClipState.opened, .postRoll, .closing, .closed, .sent, .acked].map ClipState.code from rfl,
    List.map_map]
  exact List.map_congr_left fun v _ => congrArg (fun f => byteOf (l.countP f)) (hcode v)

theorem isMapped_eq (s : State) (k : Fin 32) : isMapped s k = decide (∃ i, s.sri.table.get i = .soundInput k) := by
  rw [Bool.eq_iff_iff, decide_eq_true_eq, isMapped, List.any_eq_true]
  constructor
  · rintro ⟨d, hd, he⟩
    obtain ⟨n, hn, rfl⟩ := List.getElem_of_mem hd
    exact ⟨⟨n, by rw [← s.sri.table.len]; exact hn⟩, beq_iff_eq.mp he⟩
  · rintro ⟨i, hi⟩
    exact ⟨s.sri.table.get i, List.get_mem .., beq_iff_eq.mpr hi⟩

/-- R207: a query that block `b` answers, answers with its figures. -/
theorem queryBlock_figures (h : Figures s b o r) (clear : Bool) :
    queryBlock b o clear s = answerWith r (clearIf clear (clearedBy b o) s) := by
  cases h with
  | ring => simp only [queryBlock, clearedBy, clearIf_id, ringResults, num]
  | stream i hb =>
    rw [figures_ring hb]
    simp only [queryBlock, clearedBy, clearIf_id, objectNumber_val, answerObject]
    cases hd : s.sri.table.get i <;> simp [streamEntryResults, hd, Dest.codes, num, byteOf]
  | timebase c hc =>
    subst hc
    simp only [queryBlock, clearedBy, clearIf_id, timebaseResults, num, blockOf, BitVec.toNat_ofNat, timecodeBytes, timecode]
  | programme _ kind p g hg hk =>
    subst hg
    obtain ⟨rfl, rfl⟩ | ⟨rfl, rfl⟩ := hk <;>
      simp only [queryBlock, clearedBy, clearIf_id, objectNumber_val, answerObject, programmeResults, num, whether_eq,
        ite_isOdd, openBytes_eq]
  | format e => simp only [queryBlock, clearedBy, clearIf_id, objectNumber_val, answerObject, formatResults, num]
  | engine => simp only [queryBlock, clearedBy, clearIf_id, engineResults, num, countP_entries, bandBytes_eq]
  | loop p c e v hc he hv =>
    have hfilter : s.cde.band.filter (fun b => b.prog == p) = v := by
      ext x
      simp only [hv, Option.filter_eq_some_iff, beq_iff_eq]
    subst hc he
    simp only [queryBlock, clearedBy, clearIf_id, objectNumber_val, answerObject, loopResults, num, bind_whether, hfilter]
    rw [whether_eq]
  | allocator f hf =>
    subst hf
    simp only [queryBlock, clearedBy, clearIf_id, allocatorResults, num]
  | rate p v record hv hr =>
    subst hv
    simp only [queryBlock, clearedBy, clearIf_id, objectNumber_val, answerObject, rateResults, num, whether_eq,
      rateRecordBytes, hr]
  | mixer =>
    rw [figures_mixer .mixer]
    simp only [queryBlock, clearedBy, clearIf_id, queryMixer]
  | input k v hb hv =>
    subst hv
    rw [figures_mixer hb]
    simp only [queryBlock, clearedBy, clearIf_id, queryMixer, finOf_val, answerObject, inputResults, beBytes_onOff,
      isMapped_eq, decide_eq_true_eq]
  | bus k v hb hv =>
    subst hv
    rw [figures_mixer hb]
    simp only [queryBlock, clearedBy, clearIf_id, queryMixer, finOf_val, answerObject, busResults, num]
  | cross k j x hb hx =>
    subst hx
    rw [figures_mixer hb]
    simp only [queryBlock, clearedBy, clearIf_id, queryMixer, finOf_val, answerObject, crossResults, num]
  | trigger k t hb ht =>
    subst ht
    rw [figures_mixer hb]
    simp only [queryBlock, clearedBy, clearIf_id, queryMixer, finOf_val, answerObject, triggerResults, num]
    rfl
  | sound =>
    rw [figures_sound .sound]
    simp only [queryBlock, clearedBy, clearIf_id]
  | soundStream k t hb ht =>
    subst ht
    rw [figures_sound hb]
    simp only [queryBlock, clearedBy, clearIf_id, objectNumber_val, answerObject, streamResults, beBytes_onOff, linkedProg,
      Option.map_map]
    rfl
  | clips m states hm hst =>
    subst hm hst
    simp only [queryBlock, clearedBy, clearIf_id, clipMarkerResults, clipSettingsResults, num, beBytes_onOff, countP_states]
    rfl
  | pool queues hq =>
    subst hq
    simp only [queryBlock, clearedBy, poolResults, num]
    rfl
  | owner i v hv =>
    subst hv
    simp only [queryBlock, clearedBy, objectNumber_val, answerObject, num]
  | scheduler => simp only [queryBlock, clearedBy, schedulerResults, num, byteOf_onOff]
  | linkSched l k hk =>
    subst hk
    simp only [queryBlock, clearedBy, objectNumber_val, answerObject, schedResults, num, beBytes_byte]
  | supervisor => simp only [queryBlock, clearedBy, supervisorResults]
  | link l v t p left hv ht hp hl =>
    have hproving : (if v.state = .proving then v.proving else none) = p := by
      ext x
      by_cases hs : v.state = .proving <;> simp only [hp, hs, if_true, if_false, true_and, false_and, reduceCtorEq]
    have hleft : ticksLeft s = left := funext fun n => (ticksLeft_eq n).trans (hl n).symm
    subst hv ht
    simp only [queryBlock, clearedBy, objectNumber_val, answerObject, linkResults, settingsResults, num, beBytes_byte,
      hproving, hleft, openBytes_eq, List.map_append, apply_ite (List.map byteOf)]
    rfl
  | commandUnit c queue hc hn hq =>
    have hqueue : commandQueueBytes = queue := by
      funext l
      cases l with
      | nil => rw [hn]; rfl
      | cons m rest => rw [hq]; rfl
    subst hc
    simp only [queryBlock, clearedBy, clearIf_id, commandUnitResults, num, whether_eq, hqueue, byteOf_onOff]

/-- A query of an object is refused, or the object is one of the block's. -/
theorem answerObject_refuses {n : Nat} (x : Option (Fin n)) (f : Fin n → State × Reply) {P : Prop} (h : ∀ i, x = some i → P) :
    answerObject x f s = (s, { status := .refusedRange }) ∨ P := by
  cases x with
  | none => exact .inl rfl
  | some i => exact .inr (h i rfl)

theorem objectNumber_refuses {n kind : Nat} (v : Nat × List Nat) (f : Fin n → State × Reply)
    (h : ∀ i : Fin n, ∃ r, Figures s b (some (kind, [i.val])) r) :
    answerObject (objectNumber n kind v) f s = (s, { status := .refusedRange }) ∨ ∃ r, Figures s b (some v) r :=
  answerObject_refuses _ f fun i hi => objectNumber_some hi ▸ h i

/-- R105: a query of the Sound Mixer is refused, or it has the figures that it asks for. -/
theorem queryMixer_refuses (o : Option (Nat × List Nat)) (s : State) :
    queryMixer o s = (s, { status := .refusedRange }) ∨ ∃ r, Figures s 7 o r := by
  unfold queryMixer
  split
  · exact .inr ⟨_, .mixer⟩
  · exact answerObject_refuses _ _ fun k hk => finOf_some hk ▸ ⟨_, .input k _ .mixer rfl⟩
  · exact answerObject_refuses _ _ fun k hk => finOf_some hk ▸ ⟨_, .bus k _ .mixer rfl⟩
  · rename_i v w
    cases hk : finOf 32 v with
    | none => exact .inl rfl
    | some k =>
      rw [finOf_some hk]
      show answerObject (finOf 8 w) _ s = _ ∨ _
      exact answerObject_refuses _ _ fun j hj => finOf_some hj ▸ ⟨_, .cross k j _ .mixer rfl⟩
  · exact answerObject_refuses _ _ fun k hk => finOf_some hk ▸ ⟨_, .trigger k _ .mixer rfl⟩
  · exact .inl rfl

/-- R207: a query is refused, or its block has the figures that it asks for. -/
theorem queryBlock_refuses (b : Nat) (o : Option (Nat × List Nat)) (clear : Bool) (s : State) :
    queryBlock b o clear s = (s, { status := .refusedRange }) ∨ ∃ r, Figures s b o r := by
  unfold queryBlock
  split
  · exact .inr ⟨_, .ring⟩
  · exact objectNumber_refuses _ _ fun i => ⟨_, .stream i .ring⟩
  · exact .inr ⟨_, .timebase _ rfl⟩
  · exact objectNumber_refuses _ _ fun p => ⟨_, .programme 3 3 p _ rfl (.inl ⟨rfl, rfl⟩)⟩
  · exact objectNumber_refuses _ _ fun e => ⟨_, .format e⟩
  · exact objectNumber_refuses _ _ fun p => ⟨_, .programme 4 1 p _ rfl (.inr ⟨rfl, rfl⟩)⟩
  · exact .inr ⟨_, .engine⟩
  · exact objectNumber_refuses _ _ fun p => ⟨_, .loop p _ _ (s.cde.band.filter fun b => b.prog == p) rfl rfl fun v => by
      simp only [Option.filter_eq_some_iff, beq_iff_eq]⟩
  · exact .inr ⟨_, .allocator _ rfl⟩
  · exact objectNumber_refuses _ _ fun p => ⟨_, .rate p _ rateRecordBytes rfl fun _ => rfl⟩
  · exact queryMixer_refuses _ _
  · exact .inr ⟨_, .sound⟩
  · exact objectNumber_refuses _ _ fun k => ⟨_, .soundStream k _ .sound rfl⟩
  · exact .inr ⟨_, .clips _ _ rfl rfl⟩
  · exact .inr ⟨_, .pool _ rfl⟩
  · exact objectNumber_refuses _ _ fun i => ⟨_, .owner i _ rfl⟩
  · exact .inr ⟨_, .scheduler⟩
  · exact objectNumber_refuses _ _ fun l => ⟨_, .linkSched l _ rfl⟩
  · exact .inr ⟨_, .supervisor⟩
  · exact objectNumber_refuses _ _ fun l => ⟨_, .link l _ _ (if (link s l).state = .proving then (link s l).proving else none)
      (ticksLeft s) rfl rfl (fun p => by split <;> simp [*]) ticksLeft_eq⟩
  · exact .inr ⟨_, .commandUnit _ commandQueueBytes rfl rfl fun _ _ => rfl⟩
  · exact .inl rfl

/-- The thirteen blocks are numbered from 1 (12.1). -/
theorem figures_block (h : Figures s b o r) : 1 ≤ b ∧ b ≤ 13 := by
  cases h with
  | programme _ _ _ _ _ hk => omega
  | _ => decide

end

/-! ### STATUS-QUERY (R207) -/

section
variable {h : Hdr} {i : RingStream} {f : QueryFields} {s : State} {b : Nat} {r : List (Option (List Byte))}

theorem exec_statusQuery_refused (hr : VanReady h i s)
    (hq : statusQuery f (atHead h (.statusQuery f) s) = (atHead h (.statusQuery f) s, { status := .refusedRange })) :
    exec (.statusQuery h f) s = .next { s with sri := ringReply s.sri h i 22 5 [] } := by
  rw [exec_van rfl hr (c := .statusQuery f) hq rfl (by simp) hr.1.1 hr.1.2.1 hr.1.2.2]
  rfl

/-- A query of no block (log entry 42). -/
theorem exec_statusQuery_none (hr : VanReady h i s) (hb : f.block = none) :
    exec (.statusQuery h f) s = .next { s with sri := ringReply s.sri h i 22 5 [] } :=
  exec_statusQuery_refused hr (by simp only [statusQuery, hb])

/-- A query whose block has no such figures. -/
theorem exec_statusQuery_noFigures (hr : VanReady h i s) (hb : f.block = some b)
    (hno : ∀ r, ¬ Figures (atHead h (.statusQuery f) s) b f.object r) :
    exec (.statusQuery h f) s = .next { s with sri := ringReply s.sri h i 22 5 [] } := by
  apply exec_statusQuery_refused hr
  simp only [statusQuery, hb]
  exact (queryBlock_refuses ..).resolve_right fun ⟨r, hf⟩ => hno r hf

theorem clearedBy_atHead (c : Command) (o : Option (Nat × List Nat)) (clear : Bool) :
    clearIf clear (clearedBy b o) (atHead h c s) = atHead h c (clearIf clear (clearedBy b o) s) := by
  cases clear
  · rfl
  · show clearedBy b o (atHead h c s) = atHead h c (clearedBy b o s)
    unfold clearedBy
    split
    · rfl
    · rfl
    · split <;> rfl
    · rfl
    · split <;> rfl
    · rfl

/-- The clear option asks for no take attempt and leaves the messages and the ring as they are. -/
theorem clearedBy_quiet (hq : Quiet s) (o : Option (Nat × List Nat)) (clear : Bool) :
    Quiet (clearIf clear (clearedBy b o) s) ∧ (clearIf clear (clearedBy b o) s).sri = s.sri := by
  cases clear
  · exact ⟨hq, rfl⟩
  · show Quiet (clearedBy b o s) ∧ (clearedBy b o s).sri = s.sri
    unfold clearedBy
    split
    · exact ⟨hq, rfl⟩
    · exact ⟨hq, rfl⟩
    · split
      · rename_i l _
        refine ⟨⟨fun k => ?_, hq.2⟩, rfl⟩
        have hk := hq.1 k
        simp only [sched] at hk
        simp only [sched, State.onSched, State.onHsc, Table.get_modify]
        split <;> exact hk
      · exact ⟨hq, rfl⟩
    · exact ⟨hq, rfl⟩
    · split <;> exact ⟨hq, rfl⟩
    · exact ⟨hq, rfl⟩

/-- A query with figures is answered with them, and its clear option clears what the block's rule says. -/
theorem exec_statusQuery_figures (hr : VanReady h i s) (hb : f.block = some b)
    (hf : Figures (atHead h (.statusQuery f) s) b f.object r) :
    exec (.statusQuery h f) s = .next { clearIf f.clear (clearedBy b f.object) s with sri := ringReply s.sri h i 22 1 r } := by
  obtain ⟨hq, hsri⟩ := clearedBy_quiet (b := b) hr.1 f.object f.clear
  have hp : perform (headOf h (.statusQuery f)) (.statusQuery f) (atHead h (.statusQuery f) s) =
      (atHead h (.statusQuery f) (clearIf f.clear (clearedBy b f.object) s), { status := .done, results := r }) := by
    simp only [perform, statusQuery, hb, queryBlock_figures hf, answerWith, clearedBy_atHead]
  rw [exec_van rfl hr hp rfl (by simp) hq.1 hq.2.1 hq.2.2, hsri]
  rfl

end

/-! ### AUTHORITY-SET (R206) -/

theorem authority_ofCode_none {a : Nat} (h : a = 0 ∨ 3 < a) : Authority.ofCode a = none := by
  unfold Authority.ofCode
  split
  case h_4 => rfl
  all_goals omega

theorem authority_ofCode_code (a : Authority) : Authority.ofCode a.code = some a := by cases a <;> rfl

theorem onOffOfCode_none {n : Nat} (h : n = 0 ∨ 2 < n) : onOffOfCode n = none := by
  unfold onOffOfCode
  split
  case h_3 => rfl
  all_goals omega

theorem onOffOfCode_onOff (b : Bool) : onOffOfCode (onOff b) = some b := by cases b <;> rfl

section
variable {h : Hdr} {i : RingStream} {f : AuthorityFields} {s : State}

/-- AUTHORITY-SET with a choice outside its list is refused (R206). -/
theorem exec_authoritySet_refused (hr : VanReady h i s)
    (hf : (∃ a, f.authority = some a ∧ (a = 0 ∨ 3 < a)) ∨ ∃ n, f.noticesHome = some n ∧ (n = 0 ∨ 2 < n)) :
    exec (.authoritySet h f) s = .next { s with sri := ringReply s.sri h i 24 5 [] } := by
  have hp : perform (headOf h (.authoritySet f)) (.authoritySet f) (atHead h (.authoritySet f) s) =
      (atHead h (.authoritySet f) s, { status := .refusedRange }) := by
    simp only [perform, authoritySet]
    obtain ⟨a, ha, hrange⟩ | ⟨n, hn, hrange⟩ := hf
    · simp only [ha, Option.getD_some, authority_ofCode_none hrange]
    · simp only [hn, Option.getD_some, onOffOfCode_none hrange]
      split
      · rename_i hnone; cases hnone
      · rfl
  rw [exec_van rfl hr hp rfl (by simp) hr.1.1 hr.1.2.1 hr.1.2.2]
  rfl

/-- AUTHORITY-SET stores its choices, an absent one leaving the stored one (R206). -/
theorem exec_authoritySet (hr : VanReady h i s) {a : Authority} {n : Bool}
    (ha : f.authority.getD s.cmu.authority.code = a.code) (hn : f.noticesHome.getD (onOff s.cmu.noticesHome) = onOff n) :
    exec (.authoritySet h f) s = .next { s with
      cmu := { s.cmu with authority := a, noticesHome := n }
      sri := ringReply s.sri h i 24 1 [] } := by
  have hauth : (atHead h (.authoritySet f) s).cmu.authority = s.cmu.authority := rfl
  have hnotices : (atHead h (.authoritySet f) s).cmu.noticesHome = s.cmu.noticesHome := rfl
  have hp : perform (headOf h (.authoritySet f)) (.authoritySet f) (atHead h (.authoritySet f) s) =
      (atHead h (.authoritySet f) { s with cmu := { s.cmu with authority := a, noticesHome := n } }, { status := .done }) := by
    simp only [perform, authoritySet, hauth, hnotices, ha, hn, authority_ofCode_code, onOffOfCode_onOff]
    rfl
  rw [exec_van rfl hr hp rfl (by simp) hr.1.1 hr.1.2.1 hr.1.2.2]
  rfl

end

/-! ### EVENTS-CLEAR (R208) -/

/-- The flag that a number of EVENTS-CLEAR names. -/
def flagNumbered (v : Nat) : Option (Fin 19) := finOf 19 (if v = 0 then 19 else v - 1)

theorem flagNumbered_none {v : Nat} (h : v = 0 ∨ 19 < v) : flagNumbered v = none := by
  rw [flagNumbered, finOf, dif_neg]
  split <;> omega

theorem flagNumbered_some {v : Nat} (h : 1 ≤ v ∧ v ≤ 19) : ∃ f : Fin 19, flagNumbered v = some f ∧ f.val + 1 = v := by
  refine ⟨⟨v - 1, by omega⟩, ?_, by simp only; omega⟩
  rw [flagNumbered, if_neg (by omega), finOf, dif_pos (by omega)]

theorem flags_refused {l : List Nat} (h : ∃ v ∈ l, v = 0 ∨ 19 < v) : l.mapM flagNumbered = none := by
  induction l with
  | nil => simp at h
  | cons a l ih =>
    obtain ⟨v, hv, hrange⟩ := h
    rw [List.mapM_cons]
    cases ha : flagNumbered a with
    | none => rfl
    | some f =>
      obtain rfl | hv := List.mem_cons.mp hv
      · rw [flagNumbered_none hrange] at ha; cases ha
      · rw [ih ⟨v, hv, hrange⟩]; rfl

theorem flags_named {l : List Nat} (h : ∀ v ∈ l, 1 ≤ v ∧ v ≤ 19) :
    ∃ fs : List (Fin 19), l.mapM flagNumbered = some fs ∧ ∀ f, f ∈ fs ↔ f.val + 1 ∈ l := by
  induction l with
  | nil => exact ⟨[], rfl, by simp⟩
  | cons a l ih =>
    obtain ⟨fs, hfs, hmem⟩ := ih fun v hv => h v (List.mem_cons_of_mem _ hv)
    obtain ⟨g, hg, rfl⟩ := flagNumbered_some (h a (List.mem_cons_self ..))
    refine ⟨g :: fs, by rw [List.mapM_cons, hg, hfs]; rfl, fun f => ?_⟩
    rw [List.mem_cons, List.mem_cons, hmem, Fin.ext_iff, Nat.add_right_cancel_iff]

/-- Flags cleared one after another are each cleared, and the others stand. -/
theorem foldl_clearFlag (fs : List (Fin 19)) (s : State) : ∃ flags : Table 19 FlagRecord,
    (∀ f, flags.get f = if f ∈ fs then { set := false, counter := 0 } else s.cmu.flags.get f) ∧
    fs.foldl (fun s f => clearFlag f s) s = { s with cmu := { s.cmu with flags := flags } } := by
  induction fs generalizing s with
  | nil => exact ⟨s.cmu.flags, by simp, rfl⟩
  | cons g fs ih =>
    obtain ⟨flags, hget, heq⟩ := ih (clearFlag g s)
    refine ⟨flags, fun f => ?_, heq⟩
    rw [hget]
    by_cases hfs : f ∈ fs
    · simp only [hfs, if_true, List.mem_cons, or_true]
    · by_cases hfg : g = f
      · subst hfg
        simp only [hfs, if_false, List.mem_cons, true_or, if_true]
        exact Table.get_set_self ..
      · have hne : f ≠ g := fun e => hfg e.symm
        simp only [hfs, hne, List.mem_cons, or_self, if_false]
        exact Table.get_set_ne _ _ hfg

section
variable {h : Hdr} {i : RingStream} {s : State} {l : List Nat}

theorem exec_eventsClear_all (hr : VanReady h i s) : exec (.eventsClear h .all) s = .next { s with
    cmu := { s.cmu with flags := Table.replicate 19 { set := false, counter := 0 } }
    sri := ringReply s.sri h i 23 1 [] } := by
  have hp : perform (headOf h (.eventsClear .all)) (.eventsClear .all) (atHead h (.eventsClear .all) s) =
      (atHead h (.eventsClear .all) { s with cmu := { s.cmu with flags := Table.replicate 19 { set := false, counter := 0 } } },
        { status := .done }) := rfl
  rw [exec_van rfl hr hp rfl (by simp) hr.1.1 hr.1.2.1 hr.1.2.2]
  rfl

theorem listsFit_flags (hl : 1 ≤ l.length ∧ l.length ≤ 19) : listsFit (.eventsClear (.flags l)) = true := decide_eq_true hl

theorem exec_eventsClear_refused (hr : VanReady h i s) (hl : 1 ≤ l.length ∧ l.length ≤ 19) (hv : ∃ v ∈ l, v = 0 ∨ 19 < v) :
    exec (.eventsClear h (.flags l)) s = .next { s with sri := ringReply s.sri h i 23 5 [] } := by
  have hp : perform (headOf h (.eventsClear (.flags l))) (.eventsClear (.flags l)) (atHead h (.eventsClear (.flags l)) s) =
      (atHead h (.eventsClear (.flags l)) s, { status := .refusedRange }) := by
    have hnone : (l.mapM fun v => finOf 19 (if v = 0 then 19 else v - 1)) = none := flags_refused hv
    simp only [perform, eventsClear, hnone]
  rw [exec_van rfl hr hp (listsFit_flags hl) (by simp) hr.1.1 hr.1.2.1 hr.1.2.2]
  rfl

theorem exec_eventsClear_named (hr : VanReady h i s) (hl : 1 ≤ l.length ∧ l.length ≤ 19) (hv : ∀ v ∈ l, 1 ≤ v ∧ v ≤ 19) :
    ∃ flags : Table 19 FlagRecord,
      (∀ f, flags.get f = if f.val + 1 ∈ l then { set := false, counter := 0 } else s.cmu.flags.get f) ∧
      exec (.eventsClear h (.flags l)) s = .next { s with
        cmu := { s.cmu with flags := flags }
        sri := ringReply s.sri h i 23 1 [] } := by
  obtain ⟨fs, hfs, hmem⟩ := flags_named hv
  obtain ⟨flags, hget, heq⟩ := foldl_clearFlag fs (atHead h (.eventsClear (.flags l)) s)
  have hp : perform (headOf h (.eventsClear (.flags l))) (.eventsClear (.flags l)) (atHead h (.eventsClear (.flags l)) s) =
      (atHead h (.eventsClear (.flags l)) { s with cmu := { s.cmu with flags := flags } }, { status := .done }) := by
    have hsome : (l.mapM fun v => finOf 19 (if v = 0 then 19 else v - 1)) = some fs := hfs
    simp only [perform, eventsClear, hsome, heq]
    rfl
  refine ⟨flags, fun f => ?_, ?_⟩
  · simp only [hget f, hmem f]
    rfl
  · rw [exec_van rfl hr hp (listsFit_flags hl) (by simp) hr.1.1 hr.1.2.1 hr.1.2.2]
    rfl

end

/-! ### The queries, the authority and the flags -/

/-- Settles O55: a query by whether its block has the figures, AUTHORITY-SET and EVENTS-CLEAR by their fields. -/
theorem queriesAuthorityAndFlags : Obligations.QueriesAuthorityAndFlags := by
  intro h i s hr
  refine ⟨fun f hclear => ?_, fun f hb => ?_, ?_, fun f => ⟨exec_authoritySet_refused hr, fun a n ha hn => ?_⟩,
    exec_eventsClear_all hr,
    fun l h1 h2 => ⟨exec_eventsClear_refused hr ⟨h1, h2⟩, exec_eventsClear_named hr ⟨h1, h2⟩⟩⟩
  · cases hb : f.block with
    | none => exact ⟨5, [], .inr ⟨rfl, rfl⟩, exec_statusQuery_none hr hb⟩
    | some b =>
      by_cases hf : ∃ r, Figures (atHead h (.statusQuery f) s) b f.object r
      · obtain ⟨r, hf⟩ := hf
        have hexec := exec_statusQuery_figures hr hb hf
        rw [hclear] at hexec
        exact ⟨1, r, .inl rfl, hexec⟩
      · exact ⟨5, [], .inr ⟨rfl, rfl⟩, exec_statusQuery_noFigures hr hb fun r hr => hf ⟨r, hr⟩⟩
  · obtain hb | ⟨b, hb, hrange⟩ := hb
    · exact exec_statusQuery_none hr hb
    · exact exec_statusQuery_noFigures hr hb fun r hf => by
        have := figures_block hf
        omega
  · rintro f w b waits hb rfl rfl
    refine ⟨exec_statusQuery_noFigures hr hb, ?_⟩
    rintro results reply hf rfl
    have hexec := exec_statusQuery_figures hr hb hf
    refine ⟨fun hkeeps => ?_, fun hclear => ?_⟩
    · obtain hclear | hother := hkeeps
      · rw [hclear] at hexec
        exact hexec
      · rw [clearedBy_other hother, clearIf_id] at hexec
        exact hexec
    · rw [hclear] at hexec
      refine ⟨?_, ?_, fun l => ?_, ?_, fun l => ?_⟩
      · rintro rfl
        exact hexec
      · rintro rfl ho
        rw [ho] at hexec
        exact hexec
      · rintro rfl ho
        rw [ho, clearedBy_sched] at hexec
        exact hexec
      · rintro rfl ho
        rw [ho] at hexec
        exact hexec
      · rintro rfl ho
        rw [ho, clearedBy_link] at hexec
        exact hexec
  · apply exec_authoritySet hr
    · obtain ⟨hnone, rfl⟩ | hsome := ha
      · rw [hnone]; rfl
      · rw [hsome]; cases a <;> rfl
    · obtain ⟨hnone, rfl⟩ | hsome := hn
      · rw [hnone]; rfl
      · rw [hsome]; cases n <;> rfl

end Sys2Proof.Machine
end

section
/-! PROOF. FORMAT-SET, PROGRAMME-START and REFRESH (R22, R25, R35, R36). -/

namespace Sys2Proof.Machine

/-- A setting command that its owner refuses: its reply on the ring, and nothing else (R204, R205). -/
theorem exec_refused {row : Instr} {h : Hdr} {c : Command} {i : RingStream} {s : State} {r : Status}
    (hrow : messageOf row = some (h, c)) (hr : VanReady h i s)
    (hp : perform (headOf h c) c (atHead h c s) = (atHead h c s, { status := r })) (hl : listsFit c = true)
    (hc : c ≠ .reset 2) :
    exec row s = .next { s with sri := ringReply s.sri h i (commandKind c) (byteOf r.code) [] } :=
  exec_van (u := s) (r := { status := r }) hrow hr hp hl hc hr.1.1 hr.1.2.1 hr.1.2.2

/-! ### FORMAT-SET (R22) -/

theorem formatInUse_iff {s : State} {e : Fin 8} :
    formatInUse s e = true ↔ ∃ p, (prog s p).cfg.format = e ∧ (prog s p).state.active = true := by
  simp [formatInUse, and_comm]

section
variable {h : Hdr} {i : RingStream} {f : FormatFields} {s : State}

theorem exec_formatSet_noEntry (hr : VanReady h i s) (hf : f.entry = none ∨ ∃ n, f.entry = some n ∧ 7 < n) :
    exec (.formatSet h f) s = .next { s with sri := ringReply s.sri h i 2 5 [] } :=
  exec_refused (c := .formatSet f) (r := .refusedRange) rfl hr
    (by simp only [perform, formatSet, objectOf_none hf]) rfl (by simp)

theorem exec_formatSet_inUse (hr : VanReady h i s) {e : Fin 8} (he : f.entry = some e.val) (hu : formatInUse s e = true) :
    exec (.formatSet h f) s = .next { s with sri := ringReply s.sri h i 2 4 [] } :=
  exec_refused (c := .formatSet f) (r := .refusedState) rfl hr
    (by simp only [perform, formatSet, objectOf_some he, atHead_formatInUse, hu, if_true]) rfl (by simp)

theorem exec_formatSet_stores (hr : VanReady h i s) {e : Fin 8} (he : f.entry = some e.val) (hu : formatInUse s e = false) :
    exec (.formatSet h f) s = .next { s with
      pgc := { s.pgc with
        formats := s.pgc.formats.set e
          { width := loaded 1 255 (s.pgc.formats.get e).width f.width
            bands := loaded 1 135 (s.pgc.formats.get e).bands f.bands } }
      sri := ringReply s.sri h i 2 (doneCode (outside 1 255 f.width || outside 1 135 f.bands)) [] } := by
  have hperform : perform (headOf h (.formatSet f)) (.formatSet f) (atHead h (.formatSet f) s) =
      (atHead h (.formatSet f) { s with pgc := { s.pgc with
        formats := s.pgc.formats.set e
          { width := loaded 1 255 (s.pgc.formats.get e).width f.width
            bands := loaded 1 135 (s.pgc.formats.get e).bands f.bands } } },
        { status := doneIf (outside 1 255 f.width || outside 1 135 f.bands) }) := by
    simp only [perform, formatSet, objectOf_some he, atHead_formatInUse, hu, Bool.false_eq_true, if_false,
      getD_clamp 1 255 _ _ (by decide), getD_clamp 1 135 _ _ (by decide),
      clampedBy_outside 1 255 _ (by decide), clampedBy_outside 1 135 _ (by decide)]
    rfl
  rw [exec_van rfl hr hperform rfl (by simp) hr.1.1 hr.1.2.1 hr.1.2.2, doneIf_code]
  rfl

end

/-- Settles O12: FORMAT-SET by its entry: none, that of an active programme, or free. -/
theorem formatSet_loadsAnEntry : Obligations.FormatSet_LoadsAnEntry := by
  intro h i f s hr
  refine ⟨exec_formatSet_noEntry hr, fun e he => ⟨fun ⟨p, hp, hs⟩ => ?_, fun hp => ?_⟩⟩
  · exact exec_formatSet_inUse hr he (formatInUse_iff.mpr ⟨p, hp, (active_true _).mpr hs⟩)
  · refine exec_formatSet_stores hr he (Bool.eq_false_iff.mpr fun hu => ?_)
    obtain ⟨p, hf, ha⟩ := formatInUse_iff.mp hu
    rw [(active_false _).mpr (hp p hf)] at ha
    cases ha

/-! ### PROGRAMME-START and REFRESH (R25, R34 to R36) -/

section
variable {h : Hdr} {i : RingStream} {n : Option Nat} {s : State} {p : Prog}

theorem usable_iff {t : Format} : t.usable = true ↔ t.width ≠ 0 ∧ t.bands ≠ 0 := by simp [Format.usable]

theorem fold_unpaired (hp : isPairedOdd s p = false) : fold s p = p := by simp only [fold, hp, Bool.false_eq_true, if_false]

/-- What a number folds onto reads the pair marks alone (R33). -/
theorem fold_pair {t : State} (hp : ∀ q, (prog t q).pair = (prog s q).pair) (q : Prog) : fold t q = fold s q := by
  have hpaired : isPairedOdd t q = isPairedOdd s q := by simp only [isPairedOdd, pairFormed, hp]
  simp only [fold, hpaired]

theorem prog_onProg (p q : Prog) (f : Programme → Programme) (s : State) :
    prog (s.onProg p f) q = if p = q then f (prog s q) else prog s q := Table.get_modify ..

@[simp] theorem prog_onProg_self (p : Prog) (f : Programme → Programme) (s : State) :
    prog (s.onProg p f) p = f (prog s p) := by rw [prog_onProg, if_pos rfl]

theorem fold_onProg {f : Programme → Programme} (hf : ∀ r, (f r).pair = r.pair) (p q : Prog) :
    fold (s.onProg p f) q = fold s q :=
  fold_pair (fun q => by rw [prog_onProg]; split <;> simp [hf]) q

theorem onProg_onProg (f g : Programme → Programme) : (s.onProg p f).onProg p g = s.onProg p fun r => g (f r) := by
  simp [State.onProg, State.onPgc]

theorem exec_programmeStart_noObject (hr : VanReady h i s) (hn : n = none ∨ ∃ v, n = some v ∧ 3 < v) :
    exec (.programmeStart h n) s = .next { s with sri := ringReply s.sri h i 4 5 [] } :=
  exec_refused (c := .programmeStart n) (r := .refusedRange) rfl hr
    (by simp only [perform, programmeStart, objectOf_none hn]) rfl (by simp)

theorem exec_programmeStart_refused (hr : VanReady h i s) (hn : n = some p.val)
    (hp : ¬ ((prog s p).state = .ready ∧ (formatOf s p).usable = true)) :
    exec (.programmeStart h n) s = .next { s with sri := ringReply s.sri h i 4 4 [] } :=
  exec_refused (c := .programmeStart n) (r := .refusedState) rfl hr
    (by
      simp only [perform, programmeStart, objectOf_some hn, atHead_prog, atHead_formatOf]
      exact if_neg hp) rfl (by simp)

theorem startProgramme_eq (m : Hdr) (hp : isPairedOdd s p = false) : startProgramme m p s = s.onProg p fun r => { r with
    state := .starting
    openStop := some { tag := m.tag, origin := srcOrigin m.src }
    skipNext := false
    input := .present
    gapCount := 0
    awaiting := true
    firstPic := none
    refreshOwed := true
    causes := min (r.causes + 1) 65535 } := by
  rw [startProgramme, refreshCause_alone, onProg_onProg]
  refine (fold_onProg (fun r => ?_) p p).trans (fold_unpaired hp)
  rfl

theorem exec_programmeStart_starts (hr : VanReady h i s) (hn : n = some p.val) (hready : (prog s p).state = .ready)
    (hu : (formatOf s p).usable = true) (hp : isPairedOdd s p = false) :
    exec (.programmeStart h n) s = .next { startProgramme h p s with sri := ringReply s.sri h i 4 3 [] } := by
  have hperform : perform (headOf h (.programmeStart n)) (.programmeStart n) (atHead h (.programmeStart n) s) =
      (atHead h (.programmeStart n) (startProgramme h p s), { status := .accepted }) := by
    simp only [perform, programmeStart, objectOf_some hn, atHead_prog, atHead_formatOf, hready, hu, and_self, if_true,
      startProgramme_eq (s := s) _ hp, startProgramme_eq _ ((atHead_isPairedOdd h (.programmeStart n) s p).trans hp)]
    rfl
  rw [startProgramme_eq _ hp] at hperform ⊢
  rw [exec_van rfl hr hperform rfl (by simp) hr.1.1 hr.1.2.1 hr.1.2.2]
  rfl

theorem exec_refresh_noObject (hr : VanReady h i s) (hn : n = none ∨ ∃ v, n = some v ∧ 3 < v) :
    exec (.refresh h n) s = .next { s with sri := ringReply s.sri h i 6 5 [] } :=
  exec_refused (c := .refresh n) (r := .refusedRange) rfl hr
    (by simp only [perform, refreshCommand, objectOf_none hn]) rfl (by simp)

theorem exec_refresh (hr : VanReady h i s) (hn : n = some p.val) :
    exec (.refresh h n) s = .next { refreshCause p s with sri := ringReply s.sri h i 6 1 [] } := by
  have hperform : perform (headOf h (.refresh n)) (.refresh n) (atHead h (.refresh n) s) =
      (atHead h (.refresh n) (refreshCause p s), { status := .done }) := by
    simp only [perform, refreshCommand, objectOf_some hn, refreshCause, atHead_fold]
    rfl
  rw [exec_van rfl hr hperform rfl (by simp) hr.1.1 hr.1.2.1 hr.1.2.2]
  rfl

end

/-- Settles O15: PROGRAMME-START by its object, the programme's state and its format entry. -/
theorem programmeStart_makesStarting : Obligations.ProgrammeStart_MakesStarting := by
  intro h i n s hr
  refine ⟨exec_programmeStart_noObject hr, fun p hn => ⟨fun hp => ?_, fun hready hwidth hbands hp => ?_⟩,
    exec_refresh_noObject hr (.inl rfl)⟩
  · refine exec_programmeStart_refused hr hn fun ⟨hready, hu⟩ => ?_
    obtain ⟨hwidth, hbands⟩ := usable_iff.mp hu
    exact hp.elim (absurd hready) (·.elim hwidth hbands)
  · rw [exec_programmeStart_starts hr hn hready (usable_iff.mpr ⟨hwidth, hbands⟩) hp, startProgramme_eq _ hp, hr.2.1]
    rfl

/-- Settles O16: REFRESH of no programme, and of one, folded onto the even member of a formed pair. -/
theorem refresh_setsTheMark : Obligations.Refresh_SetsTheMark := by
  intro h i n s hr
  refine ⟨fun hn => exec_refresh_noObject hr (.inr ⟨n, rfl, hn⟩), fun p q hn hq => ?_⟩
  rw [← fold_eq] at hq
  rw [exec_refresh hr (congrArg some hn), refreshCause, ← hq]
  rfl

/-! ### The home REFRESH packet (R35) -/

section
variable {n : Byte} {s : State} {p : Prog}

theorem exec_refreshPacket_ignored (hq : Quiet s) (hn : 4 ≤ n.toNat) :
    exec (.refreshPacket n) s = .next { s with
      hsc := { s.hsc with ignoredHome := min (s.hsc.ignoredHome + 1) 65535 } } := by
  have hwork : refreshReturn n s = ignoreHome s := by rw [refreshReturn, fin_bad hn]
  exact congrArg Host.Outcome.next ((congrArg finish hwork).trans (finish_quiet ⟨hq.1, hq.2⟩))

theorem exec_refreshPacket (hq : Quiet s) (hn : n.toNat = p.val) :
    exec (.refreshPacket n) s = .next (homeRefresh p s) := by
  have hwork : refreshReturn n s = homeRefresh p s := by rw [refreshReturn, hn, finOf_val]
  refine congrArg Host.Outcome.next ((congrArg finish hwork).trans (finish_kept hq ?_ ?_)) <;>
    · simp only [homeRefresh, refreshCause]
      split <;> rfl

/-- The guard of R35: the newest anchor stands at or before the current picture, and less than the guard before it. -/
theorem guarded_iff : guarded s p = true ↔ ∃ a rest, (loopOf s p).history = a :: rest ∧
    (s.tbu.pic - a).toNat ≤ 2147483647 ∧ (s.tbu.pic - a).toNat < (prog s p).cfg.guard := by
  simp only [guarded, atOrBefore]
  cases (loopOf s p).history <;> simp

end

/-- Settles O17: a home REFRESH packet by its programme and the guard. -/
theorem refreshPacket_appliesTheGuard : Obligations.RefreshPacket_AppliesTheGuard := by
  intro n s hq
  refine ⟨exec_refreshPacket_ignored hq, fun p q hn hqp => ?_⟩
  rw [← fold_eq] at hqp
  subst hqp
  rw [exec_refreshPacket hq hn, homeRefresh]
  refine ⟨fun hg => ?_, fun hg => ?_⟩
  · simp only [guarded_iff.mpr hg, if_true]
    rfl
  · have hguard : guarded s (fold s p) = false := by
      refine Bool.eq_false_iff.mpr fun hyes => ?_
      obtain ⟨a, rest, hh, hle, hlt⟩ := guarded_iff.mp hyes
      obtain hgt | hge := hg a rest hh <;> omega
    simp only [hguard, Bool.false_eq_true, if_false, refreshCause_alone (fold_fold s p)]

end Sys2Proof.Machine
end

section
/-! PROOF. The camera ports: pictures delivered, evicted and returning an input (R17, R20, R21). -/

namespace Sys2Proof.Machine

/-! ### What a command of chapter 2 never changes -/

section
variable {s t u : State}

theorem SteadyFrom.trans (h1 : SteadyFrom s t) (h2 : SteadyFrom t u) : SteadyFrom s u := by
  obtain ⟨a1, a2, a3, a4, a5, a6, a7⟩ := h1
  obtain ⟨b1, b2, b3, b4, b5, b6, b7⟩ := h2
  exact ⟨b1.trans a1, b2.trans a2, b3.trans a3, b4.trans a4, b5.trans a5, b6.trans a6, b7.trans a7⟩

/-- Flags, notices, take attempts and the Clip Marker leave what `SteadyFrom` names. -/
theorem SteadyFrom.of_serene (h : t.serene = s.serene) : SteadyFrom s t := by
  obtain ⟨hpending, htbu, -, -, hral, hsmx, hsdp, hlsu, -, hformats, -⟩ := serene_eq h
  exact ⟨hpending, htbu, hral, hsmx, hsdp, hlsu, hformats⟩

theorem ports_of_serene (h : t.serene = s.serene) : t.ports = s.ports := by
  obtain ⟨-, -, hports, -⟩ := serene_eq h
  exact hports

theorem cde_of_serene (h : t.serene = s.serene) : t.cde = s.cde := by
  obtain ⟨-, -, -, hcde, -⟩ := serene_eq h
  exact hcde

end

/-! ### The end of a picture at a camera port (R17, R20, R21) -/

section
variable {s : State} {p : Prog}

/-- The port of a camera with a picture just stored behind `left`, of which it dropped `n` in all (R17). -/
def storedPort (s : State) (left : List StoredPicture) (n : Nat) : Port :=
  { store := left ++ [{ arrival := s.tbu.tick, taken := false }], delivering := false, dropped := n }

theorem returnInput_present (h : (prog s (fold s p)).input ≠ .lost) : returnInput p s = s := by
  simp only [returnInput, if_neg h]

theorem returnInput_lost (h : (prog s (fold s p)).input = .lost) : returnInput p s = s.onProg (fold s p) fun r =>
    { r with input := .present, gapCount := 0, refreshOwed := true, causes := min (r.causes + 1) 65535 } := by
  simp only [returnInput, if_pos h]
  rw [refreshCause_alone, onProg_onProg]
  refine (fold_onProg (fun r => ?_) _ _).trans (fold_fold s p)
  rfl

/-- A returning input changes the programmes' records alone, and no format. -/
theorem returnInput_only (p : Prog) (s : State) :
    returnInput p s = { s with pgc := { s.pgc with progs := (returnInput p s).pgc.progs } } := by
  by_cases h : (prog s (fold s p)).input = .lost
  · rw [returnInput_lost h]; rfl
  · rw [returnInput_present h]

theorem pictureCompletes_room (h : (s.ports.get p).store.length ≤ 1) : pictureCompletes p s = returnInput p { s with
    ports := s.ports.set p (storedPort s (s.ports.get p).store (s.ports.get p).dropped) } := by
  have hleft : evictOlder (s.ports.get p).store = ((s.ports.get p).store, false) := by
    match hs : (s.ports.get p).store with
    | [] => rfl
    | [v] => rfl
    | v :: w :: rest => simp [hs] at h
  simp only [pictureCompletes, hleft]
  rfl

/-- An evicted picture that was taken, or is of a programme neither RUNNING nor STOPPING, is not counted. -/
theorem pictureCompletes_evicts {v w : StoredPicture} (h : (s.ports.get p).store = [v, w])
    (hv : v.taken = true ∨ ((prog s (fold s p)).state ≠ .running ∧ (prog s (fold s p)).state ≠ .stopping)) :
    pictureCompletes p s = returnInput p { s with
      ports := s.ports.set p (storedPort s [w] (s.ports.get p).dropped) } := by
  have hcounts : (!v.taken && ((prog s (fold s p)).state == .running || (prog s (fold s p)).state == .stopping)) = false := by
    obtain hv | ⟨hrun, hstop⟩ := hv
    · simp [hv]
    · simp [hrun, hstop]
  simp only [pictureCompletes, h, evictOlder, List.length_cons, List.length_nil, Nat.reduceAdd, Nat.le_refl, if_true, hcounts]
  rfl

theorem pictureCompletes_counts {v w : StoredPicture} (h : (s.ports.get p).store = [v, w]) (hv : v.taken = false)
    (hs : (prog s (fold s p)).state = .running ∨ (prog s (fold s p)).state = .stopping) :
    pictureCompletes p s = returnInput p (raiseFlag .pictureSkipped { s with
      ports := s.ports.set p (storedPort s [w] (min ((s.ports.get p).dropped + 1) 65535)) }) := by
  have hcounts : (!v.taken && ((prog s (fold s p)).state == .running || (prog s (fold s p)).state == .stopping)) = true := by
    obtain hs | hs := hs <;> simp [hv, hs]
  simp only [pictureCompletes, h, evictOlder, List.length_cons, List.length_nil, Nat.reduceAdd, Nat.le_refl, if_true, hcounts]
  rfl

/-- A port's work that leaves the Home Scheduler and the Command Unit alone is all that the signal does. -/
theorem exec_pictureEndComplete {u : State} (hq : Quiet s) (hw : pictureCompletes p s = u) (hhsc : u.hsc = s.hsc)
    (hcmu : u.cmu = s.cmu) : exec (.pictureEndComplete p) s = .next u :=
  congrArg Host.Outcome.next ((congrArg finish hw).trans (finish_kept hq hhsc hcmu))

end

/-- Settles O21: the three signals of a picture's delivery, its complete end by the room in the store. -/
theorem pictureDelivery_entersTheStore : Obligations.PictureDelivery_EntersTheStore := by
  intro p s hq
  refine ⟨congrArg Host.Outcome.next (finish_kept hq rfl rfl), congrArg Host.Outcome.next (finish_kept hq rfl rfl),
    fun hin => ⟨fun hroom => ?_, fun v w hs hv => ?_⟩⟩
  · refine exec_pictureEndComplete hq ?_ rfl rfl
    rw [pictureCompletes_room hroom]
    exact returnInput_present hin
  · refine exec_pictureEndComplete hq ?_ rfl rfl
    rw [pictureCompletes_evicts hs hv]
    exact returnInput_present hin

/-- Settles O23: a stored picture returns a LOST input. -/
theorem pictureArrival_returnsFromLost : Obligations.PictureArrival_ReturnsFromLost := by
  rintro p q s hq rfl hlost hroom
  refine exec_pictureEndComplete hq ?_ rfl rfl
  rw [pictureCompletes_room hroom, returnInput_lost (by exact hlost)]
  rfl

/-! ### A flag raised where its notice overruns a queue or goes home (R208 to R210) -/

section
variable {s : State} {f : EventFlag} {n : Notice} {k : Nat}

theorem raiseWithin_set (k : Nat) (h : (flagRec s f).set = true) : raiseWithin k f s = bumpFlag f s := by
  cases k with
  | zero => rfl
  | succ k => simp only [raiseWithin, h, if_true]

theorem raiseWithin_clear (h : (flagRec s f).set = false) : raiseWithin (k + 1) f s = queueNoticeWith (raiseWithin k)
    { body := .flag f (min ((flagRec s f).counter + 1) 65535), tick := s.tbu.tick, pic := s.tbu.pic } (bumpFlag f s) := by
  have hcounter : (flagRec (bumpFlag f s) f).counter = min ((flagRec s f).counter + 1) 65535 := by
    simp [flagRec, bumpFlag, State.onCmu, satInc]
  simp only [raiseWithin, h, Bool.false_eq_true, if_false, hcounter]

/-- Another flag's record stands when a flag is raised at once (R208). -/
theorem flagRec_bumpFlag_ne {g : EventFlag} (h : f ≠ g) : flagRec (bumpFlag f s) g = flagRec s g := by
  simp only [flagRec, bumpFlag, State.onCmu]
  exact Table.get_modify_ne _ _ fun he => h (EventFlag.idx_inj he)

/-- A notice that no copy goes home of, by the room in the notice queue (R209). -/
theorem queueNoticeWith_van (raise : EventFlag → State → State) (h : s.cmu.noticesHome = false) (hn : n.answers = none) :
    queueNoticeWith raise n s =
      if 32 ≤ s.cmu.notices.length then
        raise .noticeOverrun { s with cmu := { s.cmu with notices := s.cmu.notices.drop 1 ++ [n] } }
      else { s with cmu := { s.cmu with notices := s.cmu.notices ++ [n] } } := by
  have hcopy : ¬ (s.cmu.noticesHome = true ∨ n.answers.map (·.origin) = some .home) := by simp [h, hn]
  by_cases hfull : 32 ≤ s.cmu.notices.length <;>
    simp only [queueNoticeWith, joinNotices, Config.noticeQueue, if_neg hcopy, hfull, if_true, if_false, List.drop_one] <;> rfl

/-- A notice for which the queue has room and of which a copy goes home (R209, R210). -/
theorem queueNoticeWith_home (raise : EventFlag → State → State) (h : s.cmu.noticesHome = true)
    (hroom : s.cmu.notices.length < 32) : queueNoticeWith raise n s =
      homeCopy raise n { s with cmu := { s.cmu with notices := s.cmu.notices ++ [n] } } := by
  have hcopy : s.cmu.noticesHome = true ∨ n.answers.map (·.origin) = some .home := .inl h
  have hnot : ¬ 32 ≤ s.cmu.notices.length := by omega
  simp only [queueNoticeWith, joinNotices, Config.noticeQueue, if_pos hcopy, hnot, if_false]
  rfl

/-- The home copy that finds another notice or a held reply waiting stays in the list (R210). -/
theorem homeCopy_joins (raise : EventFlag → State → State) (h : s.cmu.homeNotices ≠ [] ∨ s.cmu.held ≠ none) :
    homeCopy raise n s =
      if 32 ≤ s.cmu.homeNotices.length then
        raise .noticeOverrun { s with cmu := { s.cmu with homeNotices := s.cmu.homeNotices.drop 1 ++ [n] } }
      else { s with cmu := { s.cmu with homeNotices := s.cmu.homeNotices ++ [n] } } := by
  have hwaits : ¬ (s.cmu.homeNotices.isEmpty = true ∧ s.cmu.held = none) := by
    rintro ⟨hempty, hheld⟩
    obtain h | h := h
    · exact h (List.isEmpty_iff.mp hempty)
    · exact h hheld
  by_cases hfull : 32 ≤ s.cmu.homeNotices.length <;>
    simp only [homeCopy, joinNotices, Config.noticeQueue, if_neg hwaits, hfull, if_true, if_false, List.drop_one] <;> rfl

/-- The home copy alone in its list asks for its block at once (R210). -/
theorem homeCopy_alone (raise : EventFlag → State → State) (h : s.cmu.homeNotices = []) (hheld : s.cmu.held = none) :
    homeCopy raise n s = (sendHomeNotice raise { s with cmu := { s.cmu with homeNotices := [n] } }).2 := by
  have halone : s.cmu.homeNotices.isEmpty = true ∧ s.cmu.held = none := ⟨List.isEmpty_iff.mpr h, hheld⟩
  have hnot : ¬ 32 ≤ s.cmu.homeNotices.length := by rw [h]; decide
  have hjoin : joinNotices s.cmu.homeNotices n = [n] := by rw [h]; rfl
  simp only [homeCopy, Config.noticeQueue, if_pos halone, if_neg hnot, hjoin]
  rfl

theorem homeCopy_granted (raise : EventFlag → State → State) (h : s.cmu.homeNotices = []) (hheld : s.cmu.held = none)
    {b : Nat} {free : List Nat} (hb : s.pkp.free = b :: free)
    (hc : (s.pkp.owners.get 5).count < (s.pkp.owners.get 5).cap) :
    homeCopy raise n s = oweAll { s with
      pkp := { s.pkp with
        free := free
        owners := s.pkp.owners.set 5 { s.pkp.owners.get 5 with count := (s.pkp.owners.get 5).count + 1 }
        reply := s.pkp.reply ++ [replyPacket none n.bytes [b] s.tbu.tick] } } := by
  have hgrant := grant_one (k := s.pkp) (o := .labelReply) hb hc
  rw [homeCopy_alone raise h hheld]
  simp only [sendHomeNotice, hgrant, appendPackets, ← h]
  rfl

theorem homeCopy_refused (raise : EventFlag → State → State) (h : s.cmu.homeNotices = []) (hheld : s.cmu.held = none)
    (hr : s.pkp.free = [] ∨ (s.pkp.owners.get 5).cap ≤ (s.pkp.owners.get 5).count) :
    homeCopy raise n s = raise .poolRefused { s with
      cmu := { s.cmu with homeNotices := [n] }
      pkp := { s.pkp with owners := s.pkp.owners.set 5 { s.pkp.owners.get 5 with
        refused := min ((s.pkp.owners.get 5).refused + 1) 65535 } } } := by
  have hgrant : s.pkp.grant .labelReply 1 = none := by
    refine grant_refused (hr.imp (fun hfree => ?_) fun hcap => ?_)
    · rw [hfree]; decide
    · exact Nat.lt_succ_of_le hcap
  rw [homeCopy_alone raise h hheld]
  simp only [sendHomeNotice, hgrant]
  rfl

/-- A flag set already gains one in its count (R208). -/
theorem bumpFlag_eq (f : EventFlag) (s : State) : bumpFlag f s = { s with cmu := { s.cmu with
    flags := s.cmu.flags.set f.idx { set := true, counter := min ((flagRec s f).counter + 1) 65535 } } } := rfl

/-- A notice for a full queue where NOTICE-OVERRUN is set already (R209). -/
theorem overruns_set (k : Nat) (h : s.cmu.noticesHome = false) (hn : n.answers = none) (hfull : s.cmu.notices.length = 32)
    (hset : (flagRec s .noticeOverrun).set = true) : queueNoticeWith (raiseWithin k) n s = { s with cmu := { s.cmu with
      notices := s.cmu.notices.drop 1 ++ [n]
      flags := s.cmu.flags.set EventFlag.noticeOverrun.idx
        { set := true, counter := min ((flagRec s .noticeOverrun).counter + 1) 65535 } } } := by
  rw [queueNoticeWith_van _ h hn, if_pos hfull.ge, raiseWithin_set k (by exact hset)]
  rfl

/-- A notice for a full queue where NOTICE-OVERRUN was clear: its own notice removes the next oldest (R209). -/
theorem overruns_clear (k : Nat) (h : s.cmu.noticesHome = false) (hn : n.answers = none) (hfull : s.cmu.notices.length = 32)
    (hset : (flagRec s .noticeOverrun).set = false) :
    queueNoticeWith (raiseWithin (k + 1)) n s = { s with cmu := { s.cmu with
      notices := s.cmu.notices.drop 2 ++ [n, {
        body := .flag .noticeOverrun (min ((flagRec s .noticeOverrun).counter + 1) 65535), tick := s.tbu.tick, pic := s.tbu.pic }]
      flags := s.cmu.flags.set EventFlag.noticeOverrun.idx
        { set := true, counter := min ((flagRec s .noticeOverrun).counter + 2) 65535 } } } := by
  have hfull' : (s.cmu.notices.drop 1 ++ [n]).length = 32 := by simp [hfull]
  have hdrop : (s.cmu.notices.drop 1 ++ [n]).drop 1 = s.cmu.notices.drop 2 ++ [n] := by
    rw [List.drop_append_of_le_length (by simp [hfull]), List.drop_drop]
  rw [queueNoticeWith_van _ h hn, if_pos hfull.ge, raiseWithin_clear (by exact hset),
    overruns_set k (by exact h) rfl (by exact hfull') (bumpFlag_sets _ _), bumpFlag_eq]
  simp only [flagRec, Table.get_set_self, Table.set_set, hdrop, List.append_assoc, List.cons_append, List.nil_append]
  rw [show min (min ((s.cmu.flags.get EventFlag.noticeOverrun.idx).counter + 1) 65535 + 1) 65535 =
    min ((s.cmu.flags.get EventFlag.noticeOverrun.idx).counter + 2) 65535 by omega]

/-- A home copy for a full home notice list where NOTICE-OVERRUN is set already (R210). -/
theorem homeCopy_overruns (k : Nat) (hfull : s.cmu.homeNotices.length = 32) (hset : (flagRec s .noticeOverrun).set = true) :
    homeCopy (raiseWithin k) n s = { s with cmu := { s.cmu with
      homeNotices := s.cmu.homeNotices.drop 1 ++ [n]
      flags := s.cmu.flags.set EventFlag.noticeOverrun.idx
        { set := true, counter := min ((flagRec s .noticeOverrun).counter + 1) 65535 } } } := by
  have hne : s.cmu.homeNotices ≠ [] := fun he => by simp [he] at hfull
  rw [homeCopy_joins _ (.inl hne), if_pos hfull.ge, raiseWithin_set k (by exact hset)]
  rfl

end

/-! ### An untaken picture evicted (R17, R208 to R210) -/

section
variable {s u x y : State} {p : Prog} {v w : StoredPicture}

/-- The step of an eviction that counts, from the port that R17 leaves. -/
theorem exec_eviction (hu : u = { s with ports := s.ports.set p (storedPort s [w] (min ((s.ports.get p).dropped + 1) 65535)) })
    (hs : (s.ports.get p).store = [v, w]) (hv : v.taken = false)
    (hp : (prog s (fold s p)).state = .running ∨ (prog s (fold s p)).state = .stopping)
    (hin : (prog s (fold s p)).input ≠ .lost) (hraise : raiseFlag .pictureSkipped u = x) (hfinish : finish x = y) :
    exec (.pictureEndComplete p) s = .next y := by
  have hpgc : x.pgc = s.pgc := by rw [← hraise, raiseFlag_pgc, hu]
  have hin' : (prog x (fold x p)).input ≠ .lost := by
    rw [fold_pgc hpgc, prog, hpgc]; exact hin
  refine congrArg Host.Outcome.next ?_
  rw [pictureCompletes_counts hs hv hp, ← hu, hraise, returnInput_present hin', hfinish]

/-- What the count of an evicted picture leaves, whatever its flag brings about (the first part of O22). -/
theorem eviction_counts (hq : Quiet s) (hs : (s.ports.get p).store = [v, w]) (hv : v.taken = false)
    (hp : (prog s (fold s p)).state = .running ∨ (prog s (fold s p)).state = .stopping) :
    ∃ t, exec (.pictureEndComplete p) s = .next t ∧
      t.ports = s.ports.set p (storedPort s [w] (min ((s.ports.get p).dropped + 1) 65535)) ∧
      (flagRec t .pictureSkipped).set = true ∧ t.cde = s.cde ∧ SteadyFrom s t := by
  obtain ⟨u, hu⟩ : ∃ u, u = { s with ports := s.ports.set p (storedPort s [w] (min ((s.ports.get p).dropped + 1) 65535)) } := ⟨_, rfl⟩
  obtain ⟨x, hx⟩ : ∃ x, x = raiseFlag .pictureSkipped u := ⟨_, rfl⟩
  have hwork : pictureCompletes p s = returnInput p x := by rw [pictureCompletes_counts hs hv hp, hx, hu]
  have hwaits : (returnInput p x).waits = s.waits := by
    rw [returnInput_waits, hx, raiseFlag_waits, hu]; rfl
  have hfinish : finish (returnInput p x) = settleTakes (returnInput p x) :=
    finish_empty ((vanOf hwaits).trans hq.2.1) ((homeOf hwaits).trans hq.2.2)
  refine ⟨settleTakes (returnInput p x), congrArg Host.Outcome.next ((congrArg finish hwork).trans hfinish), ?_⟩
  have hflag : (flagRec (settleTakes (returnInput p x)) .pictureSkipped).set = true := by
    refine settleTakes_keeps _ _ ?_
    rw [returnInput_only, hx]
    exact raiseFlag_sets _ _
  have hsettled : (settleTakes (returnInput p x)).serene = (returnInput p x).serene := settleTakes_serene _
  have hraised : x.serene = u.serene := hx ▸ raiseFlag_serene _ _
  have hsteady : SteadyFrom s u := by rw [hu]; exact ⟨rfl, rfl, rfl, rfl, rfl, rfl, rfl⟩
  have hreturn : SteadyFrom x (returnInput p x) := by rw [returnInput_only]; exact ⟨rfl, rfl, rfl, rfl, rfl, rfl, rfl⟩
  refine ⟨?_, hflag, ?_, hsteady.trans (.trans (.of_serene hraised) (hreturn.trans (.of_serene hsettled)))⟩
  · rw [ports_of_serene hsettled, returnInput_only]
    exact (ports_of_serene hraised).trans (by rw [hu])
  · rw [cde_of_serene hsettled, returnInput_only]
    exact (cde_of_serene hraised).trans (by rw [hu])

end

/-- Settles O22: an evicted untaken picture, by its flag, the notice queue and the home notice list. -/
theorem pictureEviction_countsUntaken : Obligations.PictureEviction_CountsUntaken := by
  intro p s v w hq hs hv hp
  refine ⟨eviction_counts hq hs hv hp, ?_⟩
  rintro u n k m notice told cmu r hin hl hu rfl rfl rfl hnotice rfl hcmu rfl
  have hexec := fun {x y : State} => exec_eviction (x := x) (y := y) hu hs hv hp hin
  have hquiet : ∀ {x : State}, x.hsc = s.hsc → x.cmu.van = s.cmu.van → x.cmu.home = s.cmu.home → finish x = x :=
    fun h1 h2 h3 => finish_quiet (quiet_of hq h1 h2 h3)
  have hbump : bumpFlag .pictureSkipped u = { u with cmu := cmu } := by rw [hu, hcmu]; rfl
  have hother : ∀ g, .pictureSkipped ≠ g → flagRec { u with cmu := cmu } g = flagRec s g := fun g hg => by
    rw [← hbump, flagRec_bumpFlag_ne hg, hu]; rfl
  have hoverrun := hother .noticeOverrun (by decide)
  have hclear : (flagRec s .pictureSkipped).set = false → raiseFlag .pictureSkipped u =
      queueNoticeWith (raiseWithin 3) (notice .pictureSkipped ((flagRec s .pictureSkipped).counter + 1)) { u with cmu := cmu } := by
    intro hc
    rw [raiseFlag, raiseWithin_clear (by rw [hu]; exact hc), hbump, hnotice, hu]
    rfl
  have hplain : (notice .pictureSkipped ((flagRec s .pictureSkipped).counter + 1)).answers = none := by rw [hnotice]
  refine ⟨fun hset => ?_, fun hc hhome => ?_, fun hc hhome hroom => ?_⟩
  · refine hexec ((raiseFlag_set (by rw [hu]; exact hset)).trans hbump) (hquiet ?_ ?_ ?_) <;> simp only [hu, hcmu]
  · have hhome' : cmu.noticesHome = false := by rw [hcmu]; exact hhome
    have hnotices : cmu.notices = s.cmu.notices := by rw [hcmu]
    refine ⟨fun hroom => ?_, fun hfull hset => ?_, fun hfull hset => ?_⟩
    · rw [queueNoticeWith_van _ hhome' hplain, if_neg (by rw [hnotices]; exact not_le.mpr hroom)] at hclear
      rw [hexec (hclear hc) (hquiet (by rw [hu]) (by rw [hcmu]) (by rw [hcmu])), hnotices]
    · rw [overruns_set 3 hhome' hplain (by rw [hnotices]; exact hfull) (by rw [hoverrun]; exact hset), hoverrun] at hclear
      rw [hexec (hclear hc) (hquiet (by rw [hu]) (by rw [hcmu]) (by rw [hcmu])), hnotices]
    · rw [overruns_clear 2 hhome' hplain (by rw [hnotices]; exact hfull) (by rw [hoverrun]; exact hset), hoverrun] at hclear
      rw [hexec (hclear hc) (hquiet (by rw [hu]) (by rw [hcmu]) (by rw [hcmu])), hnotices, hnotice .noticeOverrun, hu]
  · have hhome' : cmu.noticesHome = true := by rw [hcmu]; exact hhome
    have hnotices : cmu.notices = s.cmu.notices := by rw [hcmu]
    rw [queueNoticeWith_home _ hhome' (by rw [hnotices]; exact hroom), hnotices] at hclear
    have hlist : cmu.homeNotices = s.cmu.homeNotices := by rw [hcmu]
    have hheld' : cmu.held = s.cmu.held := by rw [hcmu]
    refine ⟨fun hwaits hlist' => ?_, fun hfull hset => ?_, fun b free hnone hheld hfree hcap => ?_, fun hnone hheld hno hset => ?_⟩
    · rw [homeCopy_joins _ (by rw [hlist, hheld']; exact hwaits), if_neg (by rw [hlist]; exact not_le.mpr hlist')] at hclear
      rw [hexec (hclear hc) (hquiet (by rw [hu]) (by rw [hcmu]) (by rw [hcmu])), hlist]
    · have hcount := congrArg FlagRecord.counter hoverrun
      rw [homeCopy_overruns 3 (by rw [hlist]; exact hfull) (by exact (congrArg _ hoverrun).trans hset)] at hclear
      rw [hexec (hclear hc) (hquiet (by rw [hu]) (by rw [hcmu]) (by rw [hcmu])), hlist, ← hcount]
      rfl
    · have hpkp : u.pkp = s.pkp := by rw [hu]
      rw [homeCopy_granted _ (by rw [hlist]; exact hnone) (by rw [hheld']; exact hheld) (by rw [hpkp]; exact hfree)
        (by rw [hpkp]; exact hcap)] at hclear
      refine hexec (hclear hc) ?_
      rw [finish_empty (by rw [oweAll_cmu, hcmu]; exact hq.2.1) (by rw [oweAll_cmu, hcmu]; exact hq.2.2),
        settleTakes_owed (by rw [hu]; exact hl) (by rw [hu]; exact hq.1), hpkp, hu]
      rfl
    · have hpkp : u.pkp = s.pkp := by rw [hu]
      have hpool := hother .poolRefused (by decide)
      have hcount := congrArg FlagRecord.counter hpool
      rw [homeCopy_refused _ (by rw [hlist]; exact hnone) (by rw [hheld']; exact hheld) (by rw [hpkp]; exact hno),
        raiseWithin_set 3 (by exact (congrArg _ hpool).trans hset), bumpFlag_eq] at hclear
      rw [hexec (hclear hc) (hquiet (by rw [hu]) (by rw [hcmu]) (by rw [hcmu])), ← hcount, hpkp]
      rfl

end Sys2Proof.Machine
end

section
/-! PROOF. PROGRAMME-SET: fields, enable and pair (R23, R24, R32). -/

namespace Sys2Proof.Machine

/-! ### Even and odd members (R32, R33) -/

section
variable {p : Prog}

theorem evenOf_even (h : p.val % 2 = 0) : evenOf p = p := by revert h; revert p; decide
theorem oddOf_even (h : p.val % 2 = 0) : oddOf p = p + 1 := by revert h; revert p; decide
theorem isOdd_even (h : p.val % 2 = 0) : isOdd p = false := by revert h; revert p; decide
theorem evenOf_odd (h : p.val % 2 = 0) : evenOf (p + 1) = p := by revert h; revert p; decide
theorem isOdd_odd (h : p.val % 2 = 0) : isOdd (p + 1) = true := by revert h; revert p; decide
theorem val_odd (h : p.val % 2 = 0) : (p + 1).val = p.val + 1 := by revert h; revert p; decide
theorem odd_ne_even (h : p.val % 2 = 0) : p + 1 ≠ p := by revert h; revert p; decide

theorem fold_even {s : State} (h : p.val % 2 = 0) : fold s p = p := by simp [fold, isPairedOdd, isOdd_even h]

/-- The odd member stands for the even one where the pair is formed (R33). -/
theorem fold_odd {s : State} (h : p.val % 2 = 0) : fold s (p + 1) = if (prog s p).pair then p else p + 1 := by
  simp only [fold, isPairedOdd, isOdd_odd h, pairFormed, evenOf_odd h, Bool.true_and]

end

/-! ### The fields of PROGRAMME-SET (R23) -/

section
variable {f : ProgFields} {p : Prog} {g : ProgConfig} {pair : Bool}

theorem settable_iff (t : ProgState) : t.settable = true ↔ t = .idle ∨ t = .ready := by simp [ProgState.settable]

theorem limitAction_ofCode_code (a : LimitAction) : LimitAction.ofCode a.code = some a := by cases a <;> rfl

theorem limitAction_ofCode_none {v : Nat} (h : v = 0 ∨ 4 < v) : LimitAction.ofCode v = none := by
  unfold LimitAction.ofCode
  split <;> first | omega | rfl

theorem programmeChoices_odd (h : p.val % 2 = 1) (hf : f.pair ≠ none) : programmeChoices f p g pair = none := by
  have hodd : f.pair.isSome = true ∧ isOdd p = true := ⟨Option.isSome_iff_ne_none.mpr hf, by simp [isOdd, h]⟩
  simp only [programmeChoices, if_pos hodd]
  cases onOffOfCode (f.enable.getD (onOff g.enable)) <;> cases LimitAction.ofCode (f.action.getD g.action.code) <;> rfl

/-- An enable, a limit action or a pair field outside its choices is refused (R23). -/
theorem programmeChoices_bad (h : (∃ v, f.enable = some v ∧ v ≠ 1 ∧ v ≠ 2) ∨ (∃ v, f.action = some v ∧ (v = 0 ∨ 4 < v)) ∨
    ∃ v, f.pair = some v ∧ v ≠ 1 ∧ v ≠ 2) : programmeChoices f p g pair = none := by
  obtain ⟨v, hv, h1, h2⟩ | ⟨v, hv, hbad⟩ | ⟨v, hv, h1, h2⟩ := h
  · have hbad : onOffOfCode v = none := onOffOfCode_none (by omega)
    simp only [programmeChoices, hv, Option.getD_some, hbad, Option.bind_none]
  · simp only [programmeChoices, hv, Option.getD_some, limitAction_ofCode_none hbad, Option.bind_none, Option.bind_fun_none]
  · have hbad : onOffOfCode v = none := onOffOfCode_none (by omega)
    simp only [programmeChoices, hv, Option.getD_some, hbad, Option.map_none, ite_self, Option.bind_fun_none]

/-- The choices of a command that names a pair only on an even member. -/
theorem programmeChoices_some {enable formed : Bool} {action : LimitAction} (he : f.enable.getD (onOff g.enable) = onOff enable)
    (ha : f.action.getD g.action.code = action.code) (hf : f.pair.getD (onOff pair) = onOff formed)
    (hp : f.pair = none ∨ p.val % 2 = 0) : programmeChoices f p g pair = some (enable, action, formed) := by
  have hodd : ¬ (f.pair.isSome = true ∧ isOdd p = true) := by
    rintro ⟨hsome, hodd⟩
    obtain hp | hp := hp
    · simp [hp] at hsome
    · rw [isOdd_even hp] at hodd; cases hodd
  simp only [programmeChoices, he, ha, hf, onOffOfCode_onOff, limitAction_ofCode_code, if_neg hodd, Option.bind_some,
    Option.map_some]

theorem format_clamped (v : Option Nat) (e : Fin 8) :
    (v.map clampFormat).getD e = ⟨loaded 0 7 e.val v % 8, by omega⟩ := by
  cases v with
  | none => exact Fin.ext (Nat.mod_eq_of_lt e.isLt).symm
  | some v =>
    apply Fin.ext
    simp only [Option.map_some, Option.getD_some, clampFormat, loaded]
    split_ifs <;> omega

/-- The stored configuration in the words of R23. -/
theorem formConfig_eq (f : ProgFields) (enable : Bool) (action : LimitAction) (old : ProgConfig) :
    formConfig f enable action old = {
      enable := enable
      format := ⟨loaded 0 7 old.format.val f.format % 8, by omega⟩
      group := loaded 1 255 old.group f.group
      factor := loaded 1 8 old.factor f.factor
      qMin := loaded 1 63 old.qMin f.qMin
      qMax := max (loaded 1 63 old.qMin f.qMin) (loaded 1 63 old.qMax f.qMax)
      offset := loaded 0 15 old.offset f.offset
      bandLimit := loaded 100 400 old.bandLimit f.bandLimit
      action := action
      latency := loaded 0 100 old.latency f.latency
      delay := loaded 100 2000 old.delay f.delay
      hold := loaded 0 250 old.hold f.hold
      guard := loaded 0 250 old.guard f.guard } := by
  simp only [formConfig, format_clamped, getD_clamp 1 255 _ _ (by decide), getD_clamp 1 8 _ _ (by decide),
    getD_clamp 1 63 _ _ (by decide), getD_clamp 0 15 _ _ (by decide), getD_clamp 100 400 _ _ (by decide),
    getD_clamp 0 100 _ _ (by decide), getD_clamp 100 2000 _ _ (by decide), getD_clamp 0 250 _ _ (by decide)]

theorem programmeClamped_eq (f : ProgFields) (old : ProgConfig) : programmeClamped f old =
    (outside 0 7 f.format || outside 1 255 f.group || outside 1 8 f.factor || outside 1 63 f.qMin || outside 1 63 f.qMax ||
      outside 0 15 f.offset || outside 100 400 f.bandLimit || outside 0 100 f.latency || outside 100 2000 f.delay ||
      outside 0 250 f.hold || outside 0 250 f.guard ||
      decide (loaded 1 63 old.qMax f.qMax < loaded 1 63 old.qMin f.qMin)) := by
  simp only [programmeClamped, getD_clamp 1 63 _ _ (by decide), clampedBy_outside 0 7 _ (by decide),
    clampedBy_outside 1 255 _ (by decide), clampedBy_outside 1 8 _ (by decide), clampedBy_outside 1 63 _ (by decide),
    clampedBy_outside 0 15 _ (by decide), clampedBy_outside 100 400 _ (by decide), clampedBy_outside 0 100 _ (by decide),
    clampedBy_outside 100 2000 _ (by decide), clampedBy_outside 0 250 _ (by decide)]

end

/-! ### What a taken PROGRAMME-SET stores (R24) -/

section
variable {s : State} {p : Prog} {g : ProgConfig}

/-- The programme's record and its carried quantiser once a configuration is stored, before any stream is retargeted. -/
def configured (p : Prog) (g : ProgConfig) (s : State) : State :=
  { s with
    pgc := { s.pgc with
      progs := s.pgc.progs.set p { prog s p with cfg := g, state := if g.enable then .ready else .idle } }
    cde := { s.cde with
      loops :=
        if g.qMin = (prog s p).cfg.qMin ∧ g.qMax = (prog s p).cfg.qMax then s.cde.loops
        else s.cde.loops.set p { loopOf s p with carried := min g.qMax (max g.qMin (loopOf s p).carried) } } }

theorem prog_configured (q : Prog) : prog (configured p g s) q =
    if p = q then { prog s p with cfg := g, state := if g.enable then .ready else .idle } else prog s q := by
  by_cases h : p = q
  · subst h; rw [if_pos rfl]; exact Table.get_set_self ..
  · rw [if_neg h]; exact Table.get_set_ne _ _ h

theorem storeConfig_eq : storeConfig p g s =
    if g.latency ≠ (prog s p).cfg.latency then retargetWhere (readsProg (configured p g s) p) (configured p g s)
    else configured p g s := by
  have hstored : (if g.qMin != (prog s p).cfg.qMin || g.qMax != (prog s p).cfg.qMax then
      (s.onProg p fun r => { r with cfg := g, state := stateOfEnable g.enable }).onLoop p
        fun c => { c with carried := clampNat g.qMin g.qMax c.carried }
      else s.onProg p fun r => { r with cfg := g, state := stateOfEnable g.enable }) = configured p g s := by
    by_cases hq : g.qMin = (prog s p).cfg.qMin ∧ g.qMax = (prog s p).cfg.qMax
    · have hsame : (g.qMin != (prog s p).cfg.qMin || g.qMax != (prog s p).cfg.qMax) = false := by simp [hq]
      simp only [hsame, configured, if_pos hq]
      rfl
    · have hchanged : (g.qMin != (prog s p).cfg.qMin || g.qMax != (prog s p).cfg.qMax) = true := by
        rw [not_and_or] at hq
        simpa using hq
      simp only [hchanged, configured, if_neg hq]
      rfl
  simp only [storeConfig, hstored, bne_iff_ne]

theorem storeConfig_only : storeConfig p g s = { configured p g s with sdp := (storeConfig p g s).sdp } := by
  rw [storeConfig_eq]
  split
  · exact retargetWhere_only _ _
  · rfl

theorem fold_configured (q : Prog) : fold (configured p g s) q = fold s q :=
  fold_pair (fun q => by rw [prog_configured]; split <;> simp_all) q

/-- A stream's target is computed again where it reads the programme and the camera latency has changed (R110). -/
theorem storeConfig_sdp (k : Fin 4) : (storeConfig p g s).sdp.get k =
    if g.latency ≠ (prog s p).cfg.latency ∧ ∃ q, (s.sdp.get k).linked = some q ∧ fold s q = p then
      { s.sdp.get k with target := linkedDelay s.tbu g.latency (s.sdp.get k) }
    else s.sdp.get k := by
  have hreads : readsProg (configured p g s) p (s.sdp.get k) = true ↔ ∃ q, (s.sdp.get k).linked = some q ∧ fold s q = p := by
    simp [readsProg, linkedProg, fold_configured]
  by_cases hlat : g.latency ≠ (prog s p).cfg.latency
  · rw [storeConfig_eq, if_pos hlat, retargetWhere_get]
    simp only [hlat, true_and, ne_eq, not_false_eq_true]
    by_cases hq : ∃ q, (s.sdp.get k).linked = some q ∧ fold s q = p
    · rw [if_pos (by exact hreads.mpr hq), if_pos hq]
      obtain ⟨q, hlinked, hfold⟩ := hq
      have htarget : targetDelay (configured p g s) (s.sdp.get k) = linkedDelay s.tbu g.latency (s.sdp.get k) := by
        rw [targetDelay_linked hlinked, fold_configured, hfold, prog_configured, if_pos rfl]
        rfl
      exact congrArg (fun d => { s.sdp.get k with target := d }) htarget
    · rw [if_neg (by exact fun h => hq (hreads.mp h)), if_neg hq]
      rfl
  · rw [storeConfig_eq, if_neg hlat, if_neg (fun h => hlat h.1)]
    rfl

theorem storeConfig_atHead (h : Hdr) (c : Command) : storeConfig p g (atHead h c s) = atHead h c (storeConfig p g s) := by
  have hstored : configured p g (atHead h c s) = atHead h c (configured p g s) := rfl
  have hreads : readsProg (atHead h c (configured p g s)) p = readsProg (configured p g s) p := by
    funext t
    simp only [readsProg, linkedProg]
    exact congrArg (fun f => Option.map f t.linked == some p) (funext fun q => atHead_fold ..)
  rw [storeConfig_eq, storeConfig_eq, hstored, hreads, retargetWhere_atHead, atHead_prog]
  split <;> rfl

end

/-! ### PROGRAMME-SET (R23, R24) -/

section
variable {h : Hdr} {i : RingStream} {f : ProgFields} {s : State} {p : Prog}

/-- The programme's state, or that of the odd member which would join it, refuses the command (R23, R32). -/
def SetShut (f : ProgFields) (p : Prog) (s : State) : Prop :=
  (prog s p).state.settable = false ∨
    isOdd p = false ∧ (prog s p).pair = false ∧ f.pair = some 1 ∧ (prog s (oddOf p)).state.settable = false

theorem setShut_iff : (!(prog s p).state.settable || (!isOdd p && !(prog s p).pair && f.pair == some 1 &&
    !(prog s (oddOf p)).state.settable)) = true ↔ SetShut f p s := by
  simp [SetShut, and_assoc]

theorem exec_programmeSet_noObject (hr : VanReady h i s) (hp : f.prog = none ∨ ∃ n, f.prog = some n ∧ 3 < n) :
    exec (.programmeSet h f) s = .next { s with sri := ringReply s.sri h i 3 5 [] } :=
  exec_refused (c := .programmeSet f) (r := .refusedRange) rfl hr
    (by simp only [perform, programmeSet, objectOf_none hp]) rfl (by simp)

theorem exec_programmeSet_shut (hr : VanReady h i s) (hp : f.prog = some p.val) (hshut : SetShut f p s) :
    exec (.programmeSet h f) s = .next { s with sri := ringReply s.sri h i 3 4 [] } :=
  exec_refused (c := .programmeSet f) (r := .refusedState) rfl hr
    (by
      simp only [perform, programmeSet, objectOf_some hp, atHead_prog]
      exact if_pos (setShut_iff.mpr hshut)) rfl (by simp)

theorem exec_programmeSet_noChoice (hr : VanReady h i s) (hp : f.prog = some p.val) (hopen : ¬ SetShut f p s)
    (hc : programmeChoices f p (prog s p).cfg (prog s p).pair = none) :
    exec (.programmeSet h f) s = .next { s with sri := ringReply s.sri h i 3 5 [] } :=
  exec_refused (c := .programmeSet f) (r := .refusedRange) rfl hr
    (by
      simp only [perform, programmeSet, objectOf_some hp, atHead_prog, hc]
      exact if_neg fun hs => hopen (setShut_iff.mp hs)) rfl (by simp)

/-- What the owner of a taken PROGRAMME-SET does. -/
theorem programmeSet_taken (hp : f.prog = some p.val) (hopen : ¬ SetShut f p s) {enable formed : Bool} {action : LimitAction}
    (hc : programmeChoices f p (prog s p).cfg (prog s p).pair = some (enable, action, formed)) :
    programmeSet f s =
      (if formed && !(prog s p).pair then formPair p (storeConfig p (formConfig f enable action (prog s p).cfg) s)
        else if !formed && (prog s p).pair then dissolvePair p (storeConfig p (formConfig f enable action (prog s p).cfg) s)
        else storeConfig p (formConfig f enable action (prog s p).cfg) s,
        { status := doneIf (programmeClamped f (prog s p).cfg) }) := by
  simp only [programmeSet, objectOf_some hp, hc]
  exact if_neg fun hs => hopen (setShut_iff.mp hs)

/-- PROGRAMME-SET without a change of pair. -/
theorem exec_programmeSet_stores (hr : VanReady h i s) (hp : f.prog = some p.val) (hopen : ¬ SetShut f p s) {enable : Bool}
    {action : LimitAction}
    (hc : programmeChoices f p (prog s p).cfg (prog s p).pair = some (enable, action, (prog s p).pair)) :
    exec (.programmeSet h f) s = .next { storeConfig p (formConfig f enable action (prog s p).cfg) s with
      sri := ringReply s.sri h i 3 (doneCode (programmeClamped f (prog s p).cfg)) [] } := by
  obtain ⟨u, hu⟩ : ∃ u, u = storeConfig p (formConfig f enable action (prog s p).cfg) s := ⟨_, rfl⟩
  have hperform : perform (headOf h (.programmeSet f)) (.programmeSet f) (atHead h (.programmeSet f) s) =
      (atHead h (.programmeSet f) u, { status := doneIf (programmeClamped f (prog s p).cfg) }) := by
    rw [perform, programmeSet_taken (s := atHead h (.programmeSet f) s) hp hopen hc]
    simp only [atHead_prog, Bool.and_not_self, Bool.not_and_self, Bool.false_eq_true, if_false, storeConfig_atHead, hu]
  rw [← hu]
  rw [storeConfig_only] at hu
  rw [exec_van rfl hr hperform rfl (by simp) (by rw [hu]; exact hr.1.1) (by rw [hu]; exact hr.1.2.1) (by rw [hu]; exact hr.1.2.2),
    doneIf_code, hu]
  rfl

end

/-- Settles O13: PROGRAMME-SET without a change of pair: its refusals, and what it stores. -/
theorem programmeSet_storesAndFollowsEnable : Obligations.ProgrammeSet_StoresAndFollowsEnable := by
  intro h i f s hr
  refine ⟨exec_programmeSet_noObject hr, fun p hp => ⟨fun h1 h2 => ?_, fun hs hodd hpair => ?_, fun hs hforms hbad => ?_,
    fun enable action hs hpair he ha => ?_⟩⟩
  · refine exec_programmeSet_shut hr hp (.inl (Bool.eq_false_iff.mpr fun hset => ?_))
    exact ((settable_iff _).mp hset).elim h1 h2
  · refine exec_programmeSet_noChoice hr hp ?_ (programmeChoices_odd hodd hpair)
    rintro (hno | ⟨heven, -⟩)
    · rw [(settable_iff _).mpr hs] at hno; cases hno
    · simp [isOdd, hodd] at heven
  · refine exec_programmeSet_noChoice hr hp ?_ (programmeChoices_bad hbad)
    rintro (hno | ⟨heven, hpair, hone, hno⟩)
    · rw [(settable_iff _).mpr hs] at hno; cases hno
    · have heven : p.val % 2 = 0 := by simp [isOdd] at heven; omega
      rw [oddOf_even heven] at hno
      obtain hp | hs := hforms heven hone
      · rw [hp] at hpair; cases hpair
      · rw [(settable_iff _).mpr hs] at hno; cases hno
  · have hopen : ¬ SetShut f p s := by
      rintro (hno | ⟨-, hnone, hone, -⟩)
      · rw [(settable_iff _).mpr hs] at hno; cases hno
      · obtain hpair | ⟨-, hpair⟩ := hpair <;> simp [hpair, hnone] at hone
    have hformed : f.pair.getD (onOff (prog s p).pair) = onOff (prog s p).pair := by
      obtain hpair | ⟨-, hpair⟩ := hpair <;> rw [hpair] <;> rfl
    have hexec := exec_programmeSet_stores hr hp hopen
      (programmeChoices_some he ha hformed (hpair.imp_right fun ⟨heven, _⟩ => heven))
    rw [formConfig_eq, programmeClamped_eq] at hexec
    refine ⟨_, _, _, hexec, rfl, rfl, ?_, ?_, fun k hk => ?_, fun k q hlat hq hfold => ?_, ?_⟩
    · rw [storeConfig_only]; rfl
    · rw [storeConfig_only]; rfl
    · refine (storeConfig_sdp k).trans (if_neg ?_)
      rintro ⟨hlat, q, hq, hfold⟩
      exact hk.elim hlat fun hno => hno q hq hfold
    · exact (storeConfig_sdp k).trans (if_pos ⟨hlat, q, hq, hfold⟩)
    · rw [storeConfig_only]; rfl

/-! ### Forming and dissolving a pair (R32, R110, R159) -/

section
variable {s : State} {p : Prog}

/-- A command that changes nothing but the pair stores the configuration that stood (R23). -/
theorem formConfig_same {f : ProgFields} (hq : (prog s p).cfg.qMin ≤ (prog s p).cfg.qMax) {v : Nat}
    (hf : f = { prog := some p.val, pair := some v }) :
    formConfig f (prog s p).cfg.enable (prog s p).cfg.action (prog s p).cfg = (prog s p).cfg := by
  subst hf
  simp only [formConfig, Option.map_none, Option.getD_none, Nat.max_eq_right hq]

theorem storeConfig_same : storeConfig p (prog s p).cfg s =
    s.onProg p fun r => { r with state := if r.cfg.enable then .ready else .idle } := by
  have hsame : (prog s p).cfg.qMin = (prog s p).cfg.qMin ∧ (prog s p).cfg.qMax = (prog s p).cfg.qMax := ⟨rfl, rfl⟩
  rw [storeConfig_eq, if_neg (not_not.mpr rfl), configured, if_pos hsame]
  rfl

/-- The PICTURE packets that a forming pair removes: those of the odd member (R159). -/
def oddPictures (p : Prog) (s : State) : List Packet := s.pkp.picture.filter fun k => k.subject == some (p.val + 1)

/-- The programmes' records once the pair of the even member `p` is formed (R32). -/
def pairedProgs (p : Prog) (s : State) : Table 4 Programme :=
  (s.pgc.progs.modify p fun r => { r with pair := true }).modify (p + 1) fun r => { r with state := .paired }

/-- The programmes' records once the pair of the even member `p` is dissolved (R32). -/
def partedProgs (p : Prog) (s : State) : Table 4 Programme :=
  (s.pgc.progs.modify p fun r => { r with pair := false }).modify (p + 1) fun r =>
    { r with
      state := if r.cfg.enable then .ready else .idle, input := .present, gapCount := 0, refreshOwed := false, skipNext := false }

theorem linksPair_iff (h : p.val % 2 = 0) (t : SoundStream) :
    linksPair p t = true ↔ t.linked = some p ∨ t.linked = some (p + 1) := by
  simp [linksPair, evenOf_even h, oddOf_even h]

theorem formPair_eq {t : State} (h : p.val % 2 = 0) (h1 : t.hsc = s.hsc) (h2 : t.pkp = s.pkp) : formPair p t = { t with
    pgc := { t.pgc with progs := pairedProgs p t }
    pkp := { s.pkp.releasePackets (oddPictures p s) with
      picture := s.pkp.picture.filter fun k => !(k.subject == some (p.val + 1)) }
    hsc := (endReservations (oddPictures p s) s).hsc
    sdp := (formPair p t).sdp } := by
  obtain ⟨y, hy⟩ : ∃ y, y = flushPictures (p + 1) { t with pgc := { t.pgc with progs := pairedProgs p t } } := ⟨_, rfl⟩
  have hpair : formPair p t = retargetWhere (linksPair p) y := by rw [hy, formPair, oddOf_even h]; rfl
  rw [flushPictures_eq (s := s) (by exact h1) (by exact h2), val_odd h] at hy
  have honly := retargetWhere_only (linksPair p) y
  rw [← hpair] at honly
  rw [hy] at honly
  exact honly

theorem dissolvePair_eq (h : p.val % 2 = 0) : dissolvePair p s = { s with
    pgc := { s.pgc with progs := partedProgs p s }
    sdp := (dissolvePair p s).sdp } := by
  have hpair : dissolvePair p s = retargetWhere (linksPair p) { s with pgc := { s.pgc with progs := partedProgs p s } } := by
    rw [dissolvePair, oddOf_even h]; rfl
  have honly := retargetWhere_only (linksPair p) { s with pgc := { s.pgc with progs := partedProgs p s } }
  rw [← hpair] at honly
  exact honly

/-- Two records of a table changed one after the other. -/
theorem get_modify_two {α : Type} (t : Table 4 α) {a b : Prog} (hab : b ≠ a) (f g : α → α) (q : Prog) :
    ((t.modify a f).modify b g).get q = if q = a then f (t.get a) else if q = b then g (t.get b) else t.get q := by
  by_cases ha : q = a
  · subst ha
    rw [if_pos rfl, Table.get_modify_ne _ _ hab, Table.get_modify_self]
  · by_cases hb : q = b
    · subst hb
      rw [if_neg ha, if_pos rfl, Table.get_modify_self, Table.get_modify_ne _ _ hab.symm]
    · rw [if_neg ha, if_neg hb, Table.get_modify_ne _ _ (Ne.symm hb), Table.get_modify_ne _ _ (Ne.symm ha)]

theorem pairedProgs_get (h : p.val % 2 = 0) (q : Prog) : (pairedProgs p s).get q =
    if q = p then { prog s p with pair := true } else if q = p + 1 then { prog s (p + 1) with state := .paired } else prog s q :=
  get_modify_two _ (odd_ne_even h) _ _ q

theorem partedProgs_get (h : p.val % 2 = 0) (q : Prog) : (partedProgs p s).get q =
    if q = p then { prog s p with pair := false }
    else if q = p + 1 then { prog s (p + 1) with
      state := if (prog s (p + 1)).cfg.enable then .ready else .idle
      input := .present, gapCount := 0, refreshOwed := false, skipNext := false }
    else prog s q :=
  get_modify_two _ (odd_ne_even h) _ _ q

/-- The streams linked to a member read the even member of the formed pair (R33, R110). -/
theorem formPair_sdp (h : p.val % 2 = 0) (k : Fin 4) : (formPair p s).sdp.get k =
    if (s.sdp.get k).linked = some p ∨ (s.sdp.get k).linked = some (p + 1) then
      { s.sdp.get k with target := linkedDelay s.tbu (prog s p).cfg.latency (s.sdp.get k) }
    else s.sdp.get k := by
  obtain ⟨y, hy⟩ : ∃ y, y = flushPictures (p + 1)
      ((s.onProg p fun r => { r with pair := true }).onProg (p + 1) fun r => { r with state := .paired }) := ⟨_, rfl⟩
  have hpair : formPair p s = retargetWhere (linksPair p) y := by rw [hy, formPair, oddOf_even h]
  rw [flushPictures_eq (s := s) (by exact rfl) (by exact rfl)] at hy
  have hsdp : y.sdp = s.sdp := by rw [hy]; rfl
  have hprog : ∀ q, prog y q = (pairedProgs p s).get q := fun q => by rw [hy]; rfl
  have heven : prog y p = { prog s p with pair := true } := by rw [hprog, pairedProgs_get h, if_pos rfl]
  rw [hpair, retargetWhere_get, hsdp]
  by_cases hlinks : (s.sdp.get k).linked = some p ∨ (s.sdp.get k).linked = some (p + 1)
  · rw [if_pos ((linksPair_iff h _).mpr hlinks), if_pos hlinks]
    refine congrArg (fun d => { s.sdp.get k with target := d }) ?_
    obtain hlinks | hlinks := hlinks
    · rw [targetDelay_linked hlinks, fold_even h, heven, hy]; rfl
    · rw [targetDelay_linked hlinks, fold_odd h, heven, if_pos rfl, heven, hy]; rfl
  · rw [if_neg (fun hl => hlinks ((linksPair_iff h _).mp hl)), if_neg hlinks]

/-- The streams linked to a member read that member alone once the pair is dissolved (R33, R110). -/
theorem dissolvePair_sdp (h : p.val % 2 = 0) (k : Fin 4) : (dissolvePair p s).sdp.get k =
    if (s.sdp.get k).linked = some p then
      { s.sdp.get k with target := linkedDelay s.tbu (prog s p).cfg.latency (s.sdp.get k) }
    else if (s.sdp.get k).linked = some (p + 1) then
      { s.sdp.get k with target := linkedDelay s.tbu (prog s (p + 1)).cfg.latency (s.sdp.get k) }
    else s.sdp.get k := by
  obtain ⟨y, hy⟩ : ∃ y, y = { s with pgc := { s.pgc with progs := partedProgs p s } } := ⟨_, rfl⟩
  have hpair : dissolvePair p s = retargetWhere (linksPair p) y := by rw [hy, dissolvePair, oddOf_even h]; rfl
  have hsdp : y.sdp = s.sdp := by rw [hy]
  have hprog : ∀ q, prog y q = (partedProgs p s).get q := fun q => by rw [hy]; rfl
  have heven : prog y p = { prog s p with pair := false } := by rw [hprog, partedProgs_get h, if_pos rfl]
  have hodd := (hprog (p + 1)).trans (partedProgs_get h _)
  rw [if_neg (odd_ne_even h), if_pos rfl] at hodd
  rw [hpair, retargetWhere_get, hsdp]
  by_cases hp : (s.sdp.get k).linked = some p
  · rw [if_pos ((linksPair_iff h _).mpr (.inl hp)), if_pos hp, targetDelay_linked hp, fold_even h, heven, hy]
  · rw [if_neg hp]
    by_cases hp1 : (s.sdp.get k).linked = some (p + 1)
    · rw [if_pos ((linksPair_iff h _).mpr (.inr hp1)), if_pos hp1, targetDelay_linked hp1, fold_odd h, heven,
        if_neg Bool.false_ne_true, hodd, hy]
    · rw [if_neg (fun hl => ((linksPair_iff h _).mp hl).elim hp hp1), if_neg hp1]

theorem formPair_atHead (h : Hdr) (c : Command) : formPair p (atHead h c s) = atHead h c (formPair p s) := by
  rw [formPair, formPair, ← retargetWhere_atHead, ← flushPictures_atHead]
  rfl

theorem dissolvePair_atHead (h : Hdr) (c : Command) : dissolvePair p (atHead h c s) = atHead h c (dissolvePair p s) := by
  rw [dissolvePair, dissolvePair, ← retargetWhere_atHead]
  rfl

end

section
variable {h : Hdr} {i : RingStream} {f : ProgFields} {s : State} {p : Prog}

/-- The programme's record follows its enable, whatever its configuration; no other record changes. -/
def enabled (p : Prog) (s : State) : State := s.onProg p fun r => { r with state := if r.cfg.enable then .ready else .idle }

theorem setShut_pair (hs : (prog s p).state = .idle ∨ (prog s p).state = .ready) (heven : p.val % 2 = 0) :
    SetShut f p s ↔ (prog s p).pair = false ∧ f.pair = some 1 ∧ (prog s (p + 1)).state.settable = false := by
  simp [SetShut, (settable_iff _).mpr hs, isOdd_even heven, oddOf_even heven]

/-- PROGRAMME-SET with the pair field alone, where it is taken: what its owner does. -/
theorem programmeSet_pair {formed : Bool} (hf : f = { prog := some p.val, pair := some (onOff formed) }) (hopen : ¬ SetShut f p s)
    (heven : p.val % 2 = 0) (hq : (prog s p).cfg.qMin ≤ (prog s p).cfg.qMax) (hpair : (prog s p).pair = !formed) :
    programmeSet f s = (if formed then formPair p (enabled p s) else dissolvePair p (enabled p s), { status := .done }) := by
  have hc : programmeChoices f p (prog s p).cfg (prog s p).pair =
      some ((prog s p).cfg.enable, (prog s p).cfg.action, formed) :=
    programmeChoices_some (by rw [hf]; rfl) (by rw [hf]; rfl) (by rw [hf]; rfl) (.inr heven)
  have hclamped : programmeClamped f (prog s p).cfg = false := by
    rw [programmeClamped_eq, hf]
    exact decide_eq_false (not_lt.mpr hq)
  rw [programmeSet_taken (by rw [hf]) hopen hc, formConfig_same hq hf, storeConfig_same, hclamped, hpair]
  cases formed <;> rfl

theorem exec_programmeSet_forms (hr : VanReady h i s) (heven : p.val % 2 = 0)
    (hs : (prog s p).state = .idle ∨ (prog s p).state = .ready) (hq : (prog s p).cfg.qMin ≤ (prog s p).cfg.qMax)
    (hpair : (prog s p).pair = false) (hodd : (prog s (p + 1)).state = .idle ∨ (prog s (p + 1)).state = .ready)
    (hl : NoLinkTakes s) :
    exec (.programmeSet h { prog := some p.val, pair := some 1 }) s = .next { formPair p (enabled p s) with
      hsc := { s.hsc with links := s.hsc.links.map fun k => { k with
        reservation := k.reservation.filter fun r => !r.loses (oddPictures p s) } }
      sri := ringReply s.sri h i 3 1 [] } := by
  obtain ⟨f, hf⟩ : ∃ f : ProgFields, f = { prog := some p.val, pair := some 1 } := ⟨_, rfl⟩
  obtain ⟨u, hu⟩ : ∃ u, u = formPair p (enabled p s) := ⟨_, rfl⟩
  have hopen : ¬ SetShut f p (atHead h (.programmeSet f) s) := fun hno => by
    obtain ⟨-, -, hno⟩ := (setShut_pair hs heven).mp hno
    have hset := (settable_iff _).mpr hodd
    rw [show (prog s (p + 1)).state.settable = false from hno] at hset
    cases hset
  have hperform : perform (headOf h (.programmeSet f)) (.programmeSet f) (atHead h (.programmeSet f) s) =
      (atHead h (.programmeSet f) u, { status := .done }) := by
    rw [perform, programmeSet_pair (formed := true) hf hopen heven hq hpair, if_pos rfl, hu, ← formPair_atHead]
    rfl
  rw [← hf, ← hu]
  rw [formPair_eq (s := s) (t := enabled p s) heven rfl rfl] at hu
  rw [exec_message rfl, takeCommand_settles hr rfl (by simp) hperform (by rw [hu]; exact hr.1.2.1) (by rw [hu]; exact hr.1.2.2),
    settleTakes_ended (s := s) (gone := oddPictures p s) hl hr.1.1 (by rw [hu]) (by rw [hu]; rfl), hu]
  rfl

theorem exec_programmeSet_dissolves (hr : VanReady h i s) (heven : p.val % 2 = 0)
    (hs : (prog s p).state = .idle ∨ (prog s p).state = .ready) (hq : (prog s p).cfg.qMin ≤ (prog s p).cfg.qMax)
    (hpair : (prog s p).pair = true) :
    exec (.programmeSet h { prog := some p.val, pair := some 2 }) s = .next { dissolvePair p (enabled p s) with
      sri := ringReply s.sri h i 3 1 [] } := by
  obtain ⟨f, hf⟩ : ∃ f : ProgFields, f = { prog := some p.val, pair := some 2 } := ⟨_, rfl⟩
  obtain ⟨u, hu⟩ : ∃ u, u = dissolvePair p (enabled p s) := ⟨_, rfl⟩
  have hopen : ¬ SetShut f p (atHead h (.programmeSet f) s) := fun hno => by
    obtain ⟨hno, -⟩ := (setShut_pair hs heven).mp hno
    rw [show (prog s p).pair = false from hno] at hpair
    cases hpair
  have hperform : perform (headOf h (.programmeSet f)) (.programmeSet f) (atHead h (.programmeSet f) s) =
      (atHead h (.programmeSet f) u, { status := .done }) := by
    rw [perform, programmeSet_pair (formed := false) hf hopen heven hq hpair, if_neg Bool.false_ne_true, hu, ← dissolvePair_atHead]
    rfl
  rw [← hf, ← hu]
  rw [dissolvePair_eq heven] at hu
  rw [exec_van rfl hr hperform rfl (by simp) (by rw [hu]; exact hr.1.1) (by rw [hu]; exact hr.1.2.1) (by rw [hu]; exact hr.1.2.2),
    hu]
  rfl

theorem prog_enabled (q : Prog) : prog (enabled p s) q =
    if p = q then { prog s q with state := if (prog s q).cfg.enable then .ready else .idle } else prog s q := prog_onProg ..

end

/-- Settles O14: the pair field alone forms a pair, refuses to, or dissolves one. -/
theorem programmeSet_formsAndDissolvesPairs : Obligations.ProgrammeSet_FormsAndDissolvesPairs := by
  intro h i p s hr heven hs hq
  have hne := odd_ne_even heven
  have hself : prog (enabled p s) p = { prog s p with state := if (prog s p).cfg.enable then .ready else .idle } := by
    rw [prog_enabled, if_pos rfl]
  have hother : ∀ q, q ≠ p → prog (enabled p s) q = prog s q := fun q hqp => by rw [prog_enabled, if_neg (Ne.symm hqp)]
  refine ⟨fun hpair => ⟨fun h1 h2 => ?_, fun hodd hl => ?_⟩, fun hpair => ?_⟩
  · refine exec_programmeSet_shut hr rfl ((setShut_pair hs heven).mpr ⟨hpair, rfl, Bool.eq_false_iff.mpr fun hset => ?_⟩)
    exact ((settable_iff _).mp hset).elim h1 h2
  · have hprog : ∀ q, (formPair p (enabled p s)).pgc.progs.get q = (pairedProgs p (enabled p s)).get q := fun q => by
      rw [formPair_eq (s := s) (t := enabled p s) heven rfl rfl]
    simp only [pairedProgs_get heven, hself, hother _ hne] at hprog
    refine ⟨_, oddPictures p s, exec_programmeSet_forms hr heven hs hq hpair hodd hl, rfl, ?_, ?_, fun q h1 h2 => ?_, ?_,
      fun howned => ?_, ?_, ?_, ?_, ?_, fun l => Table.get_map .., fun k => ?_, ?_⟩
    · exact (hprog p).trans (if_pos rfl)
    · exact (hprog (p + 1)).trans ((if_neg hne).trans (if_pos rfl))
    · exact ((hprog q).trans ((if_neg h1).trans (if_neg h2))).trans (hother q h1)
    · rw [formPair_eq (s := s) (t := enabled p s) heven rfl rfl]; rfl
    · rw [formPair_eq (s := s) (t := enabled p s) heven rfl rfl]
      exact congrArg (fun k => { k with picture := s.pkp.picture.filter fun k => !(k.subject == some (p.val + 1)) : Pool })
        (Pool.releasePackets_owned _ howned s.pkp)
    · rw [formPair_eq (s := s) (t := enabled p s) heven rfl rfl]
    · rw [formPair_eq (s := s) (t := enabled p s) heven rfl rfl]; exact Pool.releasePackets_queue s.pkp _ .reply
    · rw [formPair_eq (s := s) (t := enabled p s) heven rfl rfl]; exact Pool.releasePackets_queue s.pkp _ .label
    · rw [formPair_eq (s := s) (t := enabled p s) heven rfl rfl]; exact Pool.releasePackets_queue s.pkp _ .sound
    · refine (formPair_sdp heven k).trans ?_
      rw [hself]
      rfl
    · rw [formPair_eq (s := s) (t := enabled p s) heven rfl rfl]; rfl
  · have hprog : ∀ q, (dissolvePair p (enabled p s)).pgc.progs.get q = (partedProgs p (enabled p s)).get q := fun q => by
      rw [dissolvePair_eq heven]
    simp only [partedProgs_get heven, hself, hother _ hne] at hprog
    refine ⟨_, exec_programmeSet_dissolves hr heven hs hq hpair, ?_, ?_, fun q h1 h2 => ?_, ?_, fun k => ?_, ?_⟩
    · exact (hprog p).trans (if_pos rfl)
    · exact (hprog (p + 1)).trans ((if_neg hne).trans (if_pos rfl))
    · exact ((hprog q).trans ((if_neg h1).trans (if_neg h2))).trans (hother q h1)
    · rw [dissolvePair_eq heven]; rfl
    · refine (dissolvePair_sdp heven k).trans ?_
      rw [hself, hother _ hne]
      rfl
    · rw [dissolvePair_eq heven]; rfl

end Sys2Proof.Machine
end

section
/-! PROOF. PROGRAMME-STOP: CUT, FINISH and FREEZE (R27 to R31). -/

namespace Sys2Proof.Machine

/-! ### What a PROGRAMME-STOP of an active programme does (R27 to R31, R130) -/

section
variable {s t u : State} {p : Prog} {flush : Bool}

/-- The engine once a CUT has dropped the picture in progress of `p`, if it has one (R27, R51, R59). -/
def droppedCde (p : Prog) (s : State) : Engine :=
  match entryOf s p with
  | none => s.cde
  | some e => { s.cde with
      entries := s.cde.entries.set p none
      loops := s.cde.loops.set p { loopOf s p with carried := e.loopQ }
      band := s.cde.band.map fun b => if b.prog = p then { b with discard := true } else b }

theorem dropPicture_eq : dropPicture p s = { s with cde := droppedCde p s } := by
  simp only [dropPicture, droppedCde]
  cases entryOf s p <;> rfl

/-- The record of a programme whose stop is complete (R27, R29, R30). -/
def Programme.stopped (r : Programme) : Programme := { r with state := .ready, openStop := none }

theorem endStop_serene (p : Prog) (m : StopMode) (pic : Pic) (s : State) :
    (endStop p m pic s).serene = (s.onProg p Programme.stopped).serene := by
  simp only [endStop]
  split
  · exact queueNotice_serene ..
  · rfl

theorem tellLeaves_serene (was : ProgState) (p : Prog) (s : State) : (tellLeaves was p s).serene = s.serene := by
  simp only [tellLeaves]
  split
  · exact leavesRunning_serene ..
  · rfl

theorem cutProgramme_serene : (cutProgramme p flush s).serene =
    ({ s.onProg p Programme.stopped with cde := droppedCde p s } : State).serene := by
  rw [cutProgramme, tellLeaves_serene, endStop_serene, dropPicture_eq]
  cases flush with
  | false => rfl
  | true =>
    simp only [if_true]
    rw [flushPictures_eq (s := { s with cde := droppedCde p s }) rfl rfl]
    rfl

/-- What a programme's leaving RUNNING needs stands where the clip table does and the notices have room. -/
theorem LeaveSettles.of_clm (h : LeaveSettles p s) (hclm : t.clm = s.clm) (htbu : t.tbu = s.tbu)
    (hcopy : t.cmu.noticesHome = false) (hroom : t.cmu.notices.length + (stoppedNotices p s).length ≤ 32) :
    LeaveSettles p t := by
  have hnotices : stoppedNotices p t = stoppedNotices p s := by simp only [stoppedNotices, hclm, htbu]
  refine ⟨?_, hcopy, ?_, ?_, ?_⟩
  · rw [hclm]; exact h.table
  · rw [hnotices]; exact hroom
  · rw [hclm]; exact h.waits
  · rw [hclm]; exact h.inPoints

/-- The notice that a CUT owes to the command of an open stop (R27). -/
def cutNotice (p : Prog) (s : State) : List Notice :=
  ((prog s p).openStop.map fun o =>
    { body := .programme p .ready s.tbu.pic (some .cut), answers := some o, tick := s.tbu.tick, pic := s.tbu.pic : Notice }).toList

/-- The Packet Pool once a FLUSH has removed the PICTURE packets of `p` (R28). -/
def flushedPool (p : Prog) (s : State) : Pool :=
  { s.pkp.releasePackets (s.pkp.picture.filter fun k => k.subject == some p.val) with
    picture := s.pkp.picture.filter fun k => !(k.subject == some p.val) }

/-- The room that a CUT needs for its notices: none goes home, and the queue takes them all. -/
def CutSettles (p : Prog) (s : State) : Prop :=
  ((prog s p).state = .running → LeaveSettles p s) ∧
  ∀ o, (prog s p).openStop = some o →
    o.origin = .van ∧ s.cmu.noticesHome = false ∧ s.cmu.notices.length < 32 ∧
      ((prog s p).state = .running → s.cmu.notices.length + (stoppedNotices p s).length < 32)

theorem cutProgramme_eq (h : CutSettles p s) : cutProgramme p flush s = { s.onProg p Programme.stopped with
    cde := droppedCde p s
    clm := if (prog s p).state = .running then withoutCamera p s.clm else s.clm
    pkp := if flush then flushedPool p s else s.pkp
    hsc := if flush then (endReservations (s.pkp.picture.filter fun k => k.subject == some p.val) s).hsc else s.hsc
    cmu := { s.cmu with
      notices := s.cmu.notices ++ cutNotice p s ++ if (prog s p).state = .running then stoppedNotices p s else [] } } := by
  obtain ⟨hleave, hstop⟩ := h
  obtain ⟨x, hx⟩ : ∃ x, x = (if flush then flushPictures p (dropPicture p s) else dropPicture p s) := ⟨_, rfl⟩
  have hxs : x = { s with
      cde := droppedCde p s
      pkp := if flush then flushedPool p s else s.pkp
      hsc := if flush then (endReservations (s.pkp.picture.filter fun k => k.subject == some p.val) s).hsc else s.hsc } := by
    rw [hx, dropPicture_eq]
    cases flush with
    | false => rfl
    | true => exact flushPictures_eq (s := s) rfl rfl
  have hend : endStop p .cut s.tbu.pic x = { x.onProg p Programme.stopped with
      cmu := { s.cmu with notices := s.cmu.notices ++ cutNotice p s } } := by
    rw [hxs, endStop_plain]
    · rfl
    · intro o ho
      obtain ⟨hvan, hcopy, hroom, -⟩ := hstop o ho
      exact ⟨hvan, hcopy, hroom⟩
  have hcut : cutProgramme p flush s = tellLeaves (prog s p).state p (endStop p .cut s.tbu.pic x) := by
    rw [hx]; rfl
  rw [hcut, hend, hxs, tellLeaves]
  by_cases hrun : (prog s p).state = .running
  · simp only [hrun, if_true]
    rw [leavesRunning_eq]
    · rfl
    · refine (hleave hrun).of_clm rfl rfl (hleave hrun).noCopy ?_
      have hroom := (hleave hrun).room
      cases ho : (prog s p).openStop with
      | none => simpa [cutNotice, ho] using hroom
      | some o =>
        obtain ⟨-, -, -, hmore⟩ := hstop o ho
        have hmore := hmore hrun
        simp only [cutNotice, ho, Option.map_some, Option.toList_some, List.length_append, List.length_singleton]
        omega
  · simp only [hrun, if_false, List.append_nil]
    rfl

end

/-! ### PROGRAMME-STOP as a message (R203 to R205) -/

section
variable {row : Instr} {h : Hdr} {i : RingStream} {n : Option Nat} {mode : Nat} {fl flush : Bool} {s : State} {p : Prog}
  {t u : State} {r : Status}

/-- The programme's record as a PROGRAMME-STOP leaves it, the others, and what it leaves alone. -/
theorem stop_outcome (f : Programme → Programme) {cde : Engine} {sri : Ring}
    (h : t.serene = ({ s.onProg p f with cde := cde, sri := sri } : State).serene) :
    ExceptMarks (prog t p) (f (prog s p)) ∧ (∀ q, q ≠ p → ExceptMarks (prog t q) (prog s q)) ∧ t.cde = cde ∧
      t.ports = s.ports ∧ SteadyFrom s t ∧ t.sri = sri := by
  obtain ⟨-, -, -, -, -, -, -, -, hsri, -, hprogs, -⟩ := serene_eq h
  have hmarks := exceptMarks_of hprogs
  have hprog : ∀ q, prog ({ s.onProg p f with cde := cde, sri := sri } : State) q = if p = q then f (prog s q) else prog s q :=
    fun q => prog_onProg p q f s
  have hsteady := SteadyFrom.of_serene h
  refine ⟨?_, fun q hq => ?_, cde_of_serene h, (ports_of_serene h).trans rfl, hsteady, hsri⟩
  · have := hmarks p
    rwa [hprog, if_pos rfl] at this
  · have := hmarks q
    rwa [hprog, if_neg (Ne.symm hq)] at this

theorem programmeStop_noObject (m : Hdr) (hn : n = none ∨ ∃ v, n = some v ∧ 3 < v) :
    programmeStop m n mode fl s = (s, { status := .refusedRange }) := by
  have hnone : objectOf 4 n = none := objectOf_none hn
  unfold programmeStop
  split <;> simp only [programmeCut, programmeFinish, programmeFreeze, gentleStop, hnone]

/-- A PROGRAMME-STOP that its owner refuses. -/
theorem exec_stop_refused (hrow : messageOf row = some (h, .programmeStop n mode fl)) (hr : VanReady h i s)
    (hp : programmeStop h n mode fl (atHead h (.programmeStop n mode fl) s) =
      (atHead h (.programmeStop n mode fl) s, { status := r })) :
    exec row s = .next { s with sri := ringReply s.sri h i 5 (byteOf r.code) [] } :=
  exec_refused hrow hr hp rfl (by simp)

/-- A PROGRAMME-STOP whose owner leaves a state that differs from one known by what flags, notices and clips concern. -/
theorem exec_stop_serene (hrow : messageOf row = some (h, .programmeStop n mode fl)) (hr : VanReady h i s)
    (hp : programmeStop h n mode fl (atHead h (.programmeStop n mode fl) s) = (t, { status := r }))
    (hu : t.serene = (atHead h (.programmeStop n mode fl) u).serene) (hcmu : u.cmu = s.cmu) :
    ∃ w, exec row s = .next w ∧ w.serene = ({ u with sri := ringReply u.sri h i 5 (byteOf r.code) [] } : State).serene := by
  refine ⟨_, exec_message hrow s, ?_⟩
  have hp' : perform (headOf h (.programmeStop n mode fl)) (.programmeStop n mode fl) (atHead h (.programmeStop n mode fl) s) =
    (t, { status := r }) := hp
  rw [takeCommand_serene hr (u := u) (r := { status := r }) rfl (by simp) (by rw [hp']) (by rw [hp']; exact hu)
    (by rw [hcmu]; exact hr.1.2.2) (by rw [hcmu]; exact hr.1.2.1)]
  rfl

/-- A PROGRAMME-STOP that is taken as a CUT. -/
theorem exec_cut (hrow : messageOf row = some (h, .programmeStop n mode fl)) (hr : VanReady h i s)
    (hp : ∀ x, prog x p = prog s p → programmeStop h n mode fl x = (cutProgramme p flush x, { status := .done })) :
    ∃ t, exec row s = .next t ∧
      t.serene = ({ s.onProg p Programme.stopped with
        cde := droppedCde p s, sri := ringReply s.sri h i 5 1 [] } : State).serene ∧
      (CutSettles p s → (flush = true → NoLinkTakes s) → t = { s.onProg p Programme.stopped with
        cde := droppedCde p s
        clm := if (prog s p).state = .running then withoutCamera p s.clm else s.clm
        pkp := if flush then flushedPool p s else s.pkp
        hsc := if flush then
            { s.hsc with links := s.hsc.links.map fun k => { k with
              reservation := k.reservation.filter fun r =>
                !r.loses (s.pkp.picture.filter fun q => q.subject == some p.val) } }
          else s.hsc
        cmu := { s.cmu with
          notices := s.cmu.notices ++ cutNotice p s ++ if (prog s p).state = .running then stoppedNotices p s else [] }
        sri := ringReply s.sri h i 5 1 [] }) := by
  have hperform := hp (atHead h (.programmeStop n mode fl) s) rfl
  obtain ⟨t, ht, hserene⟩ := exec_stop_serene (u := { s.onProg p Programme.stopped with cde := droppedCde p s }) hrow hr hperform
    cutProgramme_serene rfl
  refine ⟨t, ht, hserene, fun hsettles hlinks => ?_⟩
  have hcut : cutProgramme p flush (atHead h (.programmeStop n mode fl) s) =
      atHead h (.programmeStop n mode fl) (cutProgramme p flush s) := by
    have hends := endReservations_hsc (gone := s.pkp.picture.filter fun k => k.subject == some p.val) (s := s)
      (t := atHead h (.programmeStop n mode fl) s) rfl
    have hhead : CutSettles p (atHead h (.programmeStop n mode fl) s) := by
      obtain ⟨hleave, hstop⟩ := hsettles
      exact ⟨fun hrun => (hleave hrun).of_clm rfl rfl (hleave hrun).noCopy (hleave hrun).room, hstop⟩
    rw [cutProgramme_eq hsettles, cutProgramme_eq hhead]
    cases flush with
    | false => rfl
    | true =>
      simp only [if_true]
      rw [show (endReservations ((atHead h (.programmeStop n mode fl) s).pkp.picture.filter fun k => k.subject == some p.val)
        (atHead h (.programmeStop n mode fl) s)).hsc = _ from congrArg State.hsc hends]
      rfl
  rw [hcut] at hperform
  obtain ⟨u, hu⟩ : ∃ u, u = cutProgramme p flush s := ⟨_, rfl⟩
  rw [← hu] at hperform
  rw [cutProgramme_eq hsettles] at hu
  have hexec : exec row s = .next (settleTakes { u with sri := ringReply u.sri h i 5 1 [] }) := by
    rw [exec_message hrow, takeCommand_settles (c := .programmeStop n mode fl) hr rfl (by simp) hperform
      (by rw [hu]; exact hr.1.2.1) (by rw [hu]; exact hr.1.2.2)]
    rfl
  have hsettled := Host.Outcome.next.inj (ht.symm.trans hexec)
  cases flush with
  | false =>
    rw [hsettled, settleTakes_noOwed (by rw [hu]; exact hr.1.1), hu]
    rfl
  | true =>
    rw [hsettled, settleTakes_ended (s := s) (hlinks rfl) hr.1.1 (by rw [hu]; rfl) (by rw [hu]; rfl), hu]
    rfl

/-- A PROGRAMME-STOP by which a RUNNING programme leaves that state in its own time. -/
theorem exec_leaves (f : Programme → Programme) (hrow : messageOf row = some (h, .programmeStop n mode fl)) (hr : VanReady h i s)
    (hp : ∀ x, prog x p = prog s p → entryOf x p = entryOf s p →
      programmeStop h n mode fl x = (leavesRunning p (x.onProg p f), { status := r })) :
    ∃ t, exec row s = .next t ∧
      t.serene = ({ s.onProg p f with cde := s.cde, sri := ringReply s.sri h i 5 (byteOf r.code) [] } : State).serene ∧
      (LeaveSettles p s → t = { s.onProg p f with
        clm := withoutCamera p s.clm
        cmu := { s.cmu with notices := s.cmu.notices ++ stoppedNotices p s }
        sri := ringReply s.sri h i 5 (byteOf r.code) [] }) := by
  have hperform := hp (atHead h (.programmeStop n mode fl) s) rfl rfl
  obtain ⟨t, ht, hserene⟩ := exec_stop_serene (u := s.onProg p f) hrow hr hperform (leavesRunning_serene ..) rfl
  refine ⟨t, ht, hserene, fun hsettles => ?_⟩
  obtain ⟨u, hu⟩ : ∃ u, u = { s.onProg p f with
      clm := withoutCamera p s.clm
      cmu := { s.cmu with notices := s.cmu.notices ++ stoppedNotices p s } } := ⟨_, rfl⟩
  have hleaves : leavesRunning p ((atHead h (.programmeStop n mode fl) s).onProg p f) = atHead h (.programmeStop n mode fl) u := by
    have hhead : LeaveSettles p ((atHead h (.programmeStop n mode fl) s).onProg p f) :=
      hsettles.of_clm rfl rfl hsettles.noCopy hsettles.room
    rw [leavesRunning_eq hhead, hu]
    rfl
  rw [hleaves] at hperform
  have hexec := exec_van hrow hr hperform rfl (by simp) (by rw [hu]; exact hr.1.1) (by rw [hu]; exact hr.1.2.1)
    (by rw [hu]; exact hr.1.2.2)
  rw [Host.Outcome.next.inj (ht.symm.trans hexec), hu]
  rfl

end

/-! ### CUT, FINISH and FREEZE by the state of the programme (R27 to R31) -/

section
variable {h : Hdr} {n : Option Nat} {flush : Bool} {s : State} {p : Prog}

theorem programmeCut_refused (hn : n = some p.val) (hs : (prog s p).state.active = false) :
    programmeStop h n 1 flush s = (s, { status := .refusedState }) := by
  simp only [programmeStop, programmeCut, objectOf_some hn, ProgState.unstoppable, hs, Bool.not_false, if_true]

theorem programmeCut_taken (hn : n = some p.val) (hs : (prog s p).state.active = true) :
    programmeStop h n 1 flush s = (cutProgramme p flush s, { status := .done }) := by
  simp only [programmeStop, programmeCut, objectOf_some hn, ProgState.unstoppable, hs, Bool.not_true, Bool.false_eq_true, if_false]

variable {run : Prog → State → State × Reply}

theorem gentleStop_refused (hn : n = some p.val) (h1 : (prog s p).state ≠ .starting) (h2 : (prog s p).state ≠ .running) :
    gentleStop n flush run s = (s, { status := .refusedState }) := by
  simp only [gentleStop, objectOf_some hn]

theorem gentleStop_starting (hn : n = some p.val) (hs : (prog s p).state = .starting) :
    gentleStop n false run s = (cutProgramme p false s, { status := .done }) := by
  simp only [gentleStop, objectOf_some hn, hs, Bool.false_eq_true, if_false]

theorem gentleStop_running (hn : n = some p.val) (hs : (prog s p).state = .running) :
    gentleStop n flush run s = if flush then (s, { status := .refusedRange }) else run p s := by
  simp only [gentleStop, objectOf_some hn, hs]

end

/-- Settles O18: PROGRAMME-STOP CUT by the programme's state. -/
theorem programmeStopCut_makesReady : Obligations.ProgrammeStopCut_MakesReady := by
  intro h i n flush s hr
  refine ⟨fun hn => exec_stop_refused rfl hr (programmeStop_noObject h hn), fun p hn => ⟨fun hs => ?_, fun hs => ?_⟩⟩
  · exact exec_stop_refused (r := .refusedState) rfl hr (programmeCut_refused hn ((active_false _).mpr hs))
  · obtain ⟨t, ht, hserene, hexact⟩ := exec_cut (row := .programmeStopCut h n flush) rfl hr fun x hx =>
      programmeCut_taken (h := h) (flush := flush) hn (by rw [hx]; exact (active_true _).mpr hs)
    obtain ⟨hself, hothers, hcde, hports, hsteady, hsri⟩ := stop_outcome Programme.stopped hserene
    refine ⟨t, droppedCde p s, ht, ?_, hself, hothers, hcde, hports, hsteady, hsri, fun hleave hstop hlinks => ?_⟩
    · rfl
    · have hsettles : CutSettles p s := ⟨hleave, fun o ho => by
        obtain ⟨hvan, hcopy, hroom⟩ := hstop o ho
        exact ⟨hvan, hcopy, (Nat.le_add_right _ _).trans_lt hroom, fun _ => hroom⟩⟩
      rw [hexact hsettles hlinks]
      rfl

/-- What a FINISH or FREEZE of a STARTING programme comes to: a CUT without FLUSH (R31). -/
theorem exec_cutStarting {row : Instr} {h : Hdr} {i : RingStream} {n : Option Nat} {mode : Nat} {s : State} {p : Prog}
    (hrow : messageOf row = some (h, .programmeStop n mode false)) (hr : VanReady h i s) (hs : (prog s p).state = .starting)
    (hp : ∀ x, prog x p = prog s p → programmeStop h n mode false x = (cutProgramme p false x, { status := .done })) :
    ∃ t, exec row s = .next t ∧
      ExceptMarks (prog t p) { prog s p with state := .ready, openStop := none } ∧
      (∀ q, q ≠ p → ExceptMarks (prog t q) (prog s q)) ∧ t.ports = s.ports ∧ SteadyFrom s t ∧
      t.sri = ringReply s.sri h i 5 1 [] ∧
      (entryOf s p = none → ∀ o, (prog s p).openStop = some o →
        o.origin = .van → s.cmu.noticesHome = false → s.cmu.notices.length < 32 →
        t = { s with
          pgc := t.pgc
          cmu := { s.cmu with
            notices := s.cmu.notices ++ [{
              body := .programme p .ready s.tbu.pic (some .cut)
              answers := some o
              tick := s.tbu.tick
              pic := s.tbu.pic }] }
          sri := ringReply s.sri h i 5 1 [] }) := by
  obtain ⟨t, ht, hserene, hexact⟩ := exec_cut hrow hr hp
  obtain ⟨hself, hothers, -, hports, hsteady, hsri⟩ := stop_outcome Programme.stopped hserene
  refine ⟨t, ht, hself, hothers, hports, hsteady, hsri, fun hentry o ho hvan hcopy hroom => ?_⟩
  have hrun : (prog s p).state ≠ .running := by rw [hs]; decide
  have hsettles : CutSettles p s := ⟨fun h => absurd h hrun, fun o' ho' => by
    obtain rfl := Option.some.inj (ho.symm.trans ho')
    exact ⟨hvan, hcopy, hroom, fun h => absurd h hrun⟩⟩
  have hcde : droppedCde p s = s.cde := by simp only [droppedCde, hentry]
  have hnotice : cutNotice p s = [{
      body := .programme p .ready s.tbu.pic (some .cut), answers := some o, tick := s.tbu.tick, pic := s.tbu.pic }] := by
    simp only [cutNotice, ho, Option.map_some, Option.toList_some]
  rw [hexact hsettles fun h => absurd h Bool.false_ne_true, hcde, hnotice, if_neg hrun, if_neg hrun, List.append_nil]
  rfl

/-- Settles O19: PROGRAMME-STOP FINISH by the programme's state and its picture in progress. -/
theorem programmeStopFinish_endsThePicture : Obligations.ProgrammeStopFinish_EndsThePicture := by
  intro h i n s hr
  refine ⟨fun hn => exec_stop_refused rfl hr (programmeStop_noObject h hn), fun p hn => ⟨fun h1 h2 => ?_, fun hs => ?_, fun hs => ?_⟩⟩
  · exact exec_stop_refused (r := .refusedState) rfl hr (gentleStop_refused hn h1 h2)
  · exact exec_cutStarting rfl hr hs fun x hx => gentleStop_starting hn (by rw [hx]; exact hs)
  · cases he : entryOf s p with
    | none =>
      obtain ⟨t, ht, hserene, hexact⟩ := exec_leaves (row := .programmeStopFinish h n false) (r := .done)
        (fun r : Programme => { r with state := .ready }) rfl hr fun x hx hex => by
          refine (gentleStop_running hn (by rw [hx]; exact hs)).trans ?_
          simp only [finishRunning, hex, he]
          rfl
      obtain ⟨hself, hothers, hcde, hports, hsteady, hsri⟩ := stop_outcome _ hserene
      refine ⟨t, ht, hself, hothers, hcde, hports, hsteady, hsri, fun hleave => ?_⟩
      rw [hexact hleave]
      rfl
    | some e =>
      obtain ⟨t, ht, hserene, hexact⟩ := exec_leaves (row := .programmeStopFinish h n false) (r := .accepted)
        (fun r : Programme => { r with state := .stopping, openStop := some { tag := h.tag, origin := .van } }) rfl hr
        fun x hx hex => by
          refine (gentleStop_running hn (by rw [hx]; exact hs)).trans ?_
          simp only [finishRunning, hex, he, hr.2.1]
          rfl
      obtain ⟨hself, hothers, hcde, hports, hsteady, hsri⟩ := stop_outcome _ hserene
      refine ⟨t, ht, hself, hothers, hcde, hports, hsteady, hsri, fun hleave => ?_⟩
      rw [hexact hleave]
      rfl

/-- Settles O20: PROGRAMME-STOP FREEZE by the programme's state, and the FLUSH that neither mode takes. -/
theorem programmeStopFreeze_holdsThePicture : Obligations.ProgrammeStopFreeze_HoldsThePicture := by
  intro h i n s hr
  refine ⟨fun hn => exec_stop_refused rfl hr (programmeStop_noObject h hn), fun p hn => ⟨fun h1 h2 => ?_, fun hs => ?_, fun hs => ?_⟩⟩
  · exact exec_stop_refused (r := .refusedState) rfl hr (gentleStop_refused hn h1 h2)
  · exact exec_cutStarting rfl hr hs fun x hx => gentleStop_starting hn (by rw [hx]; exact hs)
  · refine ⟨exec_stop_refused (r := .refusedRange) rfl hr (gentleStop_running hn hs),
      exec_stop_refused (r := .refusedRange) rfl hr (gentleStop_running hn hs), ?_⟩
    obtain ⟨t, ht, hserene, hexact⟩ := exec_leaves (row := .programmeStopFreeze h n false) (r := .accepted)
      (fun r : Programme => { r with
        state := .freezing, remHold := r.cfg.hold, openStop := some { tag := h.tag, origin := .van } }) rfl hr
      fun x hx _ => by
        refine (gentleStop_running hn (by rw [hx]; exact hs)).trans ?_
        simp only [freezeRunning, hr.2.1]
        rfl
    obtain ⟨hself, hothers, hcde, hports, hsteady, hsri⟩ := stop_outcome _ hserene
    refine ⟨t, ht, hself, hothers, hcde, hports, hsteady, hsri, fun hleave => ?_⟩
    rw [hexact hleave]
    rfl

end Sys2Proof.Machine
end

section
/-! PROOF. The code start: the hold and the skip picture (R18, R19, R30, R44 to R46). -/

namespace Sys2Proof.Machine

/-! ### The step: the code start leaves the pending list, and one programme works on it (R8) -/

/-- The state in which the oldest pending code start has been taken off its list (R8). -/
def popped (s : State) : State := { s with tbu := { s.tbu with codeStarts := s.tbu.codeStarts.tail } }

section
variable {c : CodeStart} {p : Prog} {s t : State}

theorem exec_codeStart (hd : codeStartDue s = some c) (ha : Alone p s) :
    exec .codeStart s =
      .next (finish (startBand (codeProgramme c p (freezeHold c p (overrun p (popped s)))))) := by
  have hwork : codeStartIfDue s = takeCodeStart c (popped s) := by simp only [codeStartIfDue, hd]; rfl
  have halone : Alone p (popped s) := ha
  exact congrArg (fun x => Host.Outcome.next (finish x)) (hwork.trans (takeCodeStart_alone halone))

@[simp] theorem prog_popped (q : Prog) : prog (popped s) q = prog s q := rfl

/-- A programme whose record is stored last. -/
theorem prog_of_set {progs : Table 4 Programme} {r : Programme} (h : t.pgc.progs = progs.set p r) : prog t p = r := by
  simp [prog, h]

/-- A programme without a picture in progress that neither starts nor runs: the hold is all its work (R30). -/
theorem exec_codeStart_hold {progs : Table 4 Programme} {r : Programme} (hd : codeStartDue s = some c) (ha : Alone p s)
    (he : entryOf s p = none) (ht : freezeHold c p (popped s) = t) (hte : entryOf t p = none)
    (hset : t.pgc.progs = progs.set p r) (hr : r.state = .freezing ∨ r.state = .ready) :
    exec .codeStart s = .next (finish t) := by
  have halone : Alone p t := Alone.of_others (s := popped s) ha (ht ▸ freezeHold_others p c _)
  have hover : overrun p (popped s) = popped s := overrun_none he
  have hwork : codeProgramme c p t = t := by
    rw [← prog_of_set hset] at hr
    obtain hr | hr := hr <;> exact codeProgramme_none (by simp [hr]) (by simp [hr])
  rw [exec_codeStart hd ha, hover, ht, hwork, startBand_none halone hte]

/-- A RUNNING programme without a picture in progress: the take, the input status and the decision (R18, R19, R44). -/
theorem exec_codeStart_running (hd : codeStartDue s = some c) (ha : Alone p s) (hs : (prog s p).state = .running)
    (he : entryOf s p = none)
    (ht : decidePicture p (takePicture p true (popped s)).1 c
      (judgeInput p (takePicture p true (popped s)).1 (takePicture p true (popped s)).2) = t) :
    exec .codeStart s = .next (finish (startBand t)) ∧ Alone p t := by
  have hover : overrun p (popped s) = popped s := overrun_none he
  have hhold : freezeHold c p (popped s) = popped s := freezeHold_none (by simp [prog_popped, hs])
  have hwork : codeProgramme c p (popped s) = t := (codeProgramme_running (s := popped s) hs).trans ht
  exact ⟨by rw [exec_codeStart hd ha, hover, hhold, hwork],
    Alone.of_others (s := popped s) ha (hwork ▸ codeProgramme_others p c _)⟩

/-- A RUNNING programme that begins no picture: no band is started. -/
theorem exec_codeStart_idle (hd : codeStartDue s = some c) (ha : Alone p s) (hs : (prog s p).state = .running)
    (he : entryOf s p = none)
    (ht : decidePicture p (takePicture p true (popped s)).1 c
      (judgeInput p (takePicture p true (popped s)).1 (takePicture p true (popped s)).2) = t)
    (hte : entryOf t p = none) : exec .codeStart s = .next (finish t) := by
  obtain ⟨hexec, halone⟩ := exec_codeStart_running hd ha hs he ht
  rw [hexec, startBand_none halone hte]

variable {i : Instr}

/-- A step to a state whose waiting commands and owed marks are those of a quiet one ends there. -/
theorem settled_local (h : exec i s = .next (finish t)) (hq : Quiet s) (hhsc : t.hsc = s.hsc)
    (hvan : t.cmu.van = s.cmu.van) (hhome : t.cmu.home = s.cmu.home) : exec i s = .next t := by
  rw [h, finish_quiet (quiet_of hq hhsc hvan hhome)]

/-- The take attempts that a step marks owed come to nothing where no link can take (R165). -/
theorem settled_owed (h : exec i s = .next (finish (oweAll t))) (hq : Quiet s) (hl : NoLinkTakes s) (hhsc : t.hsc = s.hsc)
    (hlsu : t.lsu = s.lsu) (hvan : t.cmu.van = s.cmu.van) (hhome : t.cmu.home = s.cmu.home) : exec i s = .next t := by
  have hquiet := quiet_of hq hhsc hvan hhome
  have hnone : NoLinkTakes t := by
    intro l
    have := hl l
    simp only [link, sched] at *
    rwa [hhsc, hlsu]
  rw [h, finish_empty (s := oweAll t) hquiet.2.1 hquiet.2.2, settleTakes_owed hnone hquiet.1]

end

/-! ### The skip picture (R45, R46) -/

section
variable {c : CodeStart} {p : Prog} {s t : State} {b : Nat} {free : List Nat} {o : OpenCommand}

/-- The state in which a skip picture of the block `b` has joined the PICTURE queue and the group counter gained one. -/
def skipQueued (p : Prog) (c : CodeStart) (b : Nat) (free : List Nat) (s : State) : State :=
  { s with
    cde := { s.cde with
      loops := s.cde.loops.set p { loopOf s p with groupCount := min 255 ((loopOf s p).groupCount + 1) } }
    pkp := { s.pkp with
      free := free
      owners := s.pkp.owners.modify (Owner.prog p).idx fun r => { r with count := r.count + 1 }
      picture := s.pkp.picture ++ [{
        kind := .picture, owner := some (.prog p), subject := some p.val, number := c.pic, stamp := c.tick,
        deadline := some (c.tick + BitVec.ofNat 32 ((prog s p).cfg.delay * 48)), size := 24, blocks := [b],
        payload := sliceHeader 0 (formatOf s p).bands 3 (loopOf s p).method 0 3 8 }] } }

/-- The pool grants programme `p` one block, `b`, and the buffer stands within its limit. -/
structure SkipFits (p : Prog) (b : Nat) (free : List Nat) (s : State) : Prop where
  free : s.pkp.free = b :: free
  cap : (s.pkp.owners.get (Owner.prog p).idx).count < (s.pkp.owners.get (Owner.prog p).idx).cap
  within : (rateOf s p).fullness ≤ (rateOf s p).limit

theorem SkipFits.of_eq (h : SkipFits p b free s) (hpkp : t.pkp = s.pkp) (hral : t.ral = s.ral) :
    SkipFits p b free t := by
  obtain ⟨hfree, hcap, hwithin⟩ := h
  simp only [rateOf] at hwithin
  exact ⟨by rwa [hpkp], by rwa [hpkp], by simpa only [rateOf, hral] using hwithin⟩

@[simp] theorem prog_skipQueued (q : Prog) : prog (skipQueued p c b free s) q = prog s q := rfl

@[simp] theorem prog_oweAll (q : Prog) : prog (oweAll s) q = prog s q := rfl

theorem onProg_progs_set {f : Programme → Programme} {r : Programme} :
    (oweAll (s.onProg p f)).pgc.progs.set p r = s.pgc.progs.set p r := by
  simp [oweAll, State.onHsc, State.onProg, State.onPgc, Table.modify]

theorem onProg_congr {f g : Programme → Programme} (h : f (prog s p) = g (prog s p)) : s.onProg p f = s.onProg p g := by
  simp only [prog] at h
  simp only [State.onProg, State.onPgc, Table.modify, h]

/-- A record of the Programme Controller that keeps its fields may be changed before or after the skip picture. -/
theorem skipQueued_onProg {f : Programme → Programme} (h : ∀ r, (f r).cfg = r.cfg) :
    skipQueued p c b free (s.onProg p f) = (skipQueued p c b free s).onProg p f := by
  simp only [skipQueued, formatOf, prog_onProg_self, h]
  rfl

theorem emitSkip_fits (h : SkipFits p b free s) : emitSkip p c s = oweAll (skipQueued p c b free s) :=
  emitSkip_granted h.free h.cap h.within

end

/-! ### The hold of a FREEZING programme (R30) -/

section
variable {c : CodeStart} {p : Prog} {s t : State} {b : Nat} {free : List Nat} {o : OpenCommand}

/-- The notice that the end of a FREEZE owes to its command. -/
def holdEnded (p : Prog) (c : CodeStart) (o : OpenCommand) (s : State) : CommandUnit :=
  { s.cmu with
    notices := s.cmu.notices ++ [{
      body := .programme p .ready c.pic (some .freeze), answers := some o, tick := s.tbu.tick, pic := s.tbu.pic }] }

theorem freezeHold_zero (hs : (prog s p).state = .freezing) (hz : (prog s p).remHold = 0) :
    freezeHold c p s = endStop p .freeze c.pic s := by
  simp only [freezeHold, hs, hz, if_true, Nat.lt_irrefl, Nat.zero_le, if_false]

theorem freezeHold_one (hs : (prog s p).state = .freezing) (hz : (prog s p).remHold = 1) :
    freezeHold c p s = endStop p .freeze c.pic (emitSkip p c (s.onProg p fun r => { r with remHold := 0 })) := by
  have hrem := onProg_congr (s := s) (p := p) (f := fun r => { r with remHold := r.remHold - 1 })
    (g := fun r => { r with remHold := 0 }) (by rw [hz])
  simp only [freezeHold, hs, hz, if_true, Nat.zero_lt_one, le_refl, hrem]

theorem freezeHold_more (hs : (prog s p).state = .freezing) (hz : 1 < (prog s p).remHold) :
    freezeHold c p s = emitSkip p c (s.onProg p fun r => { r with remHold := r.remHold - 1 }) := by
  have hpos : 0 < (prog s p).remHold := by omega
  simp only [freezeHold, hs, hpos, Nat.not_le.mpr hz, if_true, if_false]

/-- The skip picture of a hold, before which the record of the programme has changed. -/
theorem emitSkip_onProg (h : SkipFits p b free s) {f : Programme → Programme} (hf : ∀ r, (f r).cfg = r.cfg) :
    emitSkip p c (s.onProg p f) = oweAll ((skipQueued p c b free s).onProg p f) := by
  rw [emitSkip_fits (h.of_eq (t := s.onProg p f) rfl rfl), skipQueued_onProg hf]

/-- The end of a FREEZE whose command came from the ring, with room for the notice. -/
theorem endStop_freeze (ho : (prog s p).openStop = some o) (hvan : o.origin = .van) (hn : s.cmu.noticesHome = false)
    (hroom : s.cmu.notices.length < 32) :
    endStop p .freeze c.pic s = { s with
      pgc := { s.pgc with progs := s.pgc.progs.set p { prog s p with state := .ready, openStop := none } }
      cmu := holdEnded p c o s } := by
  rw [endStop_plain p .freeze c.pic fun o' ho' => ⟨by rw [← Option.some.inj (ho.symm.trans ho')]; exact hvan, hn, hroom⟩, ho]
  rfl

end

/-- Settles O28: the hold at 0, at 1 and above 1. -/
theorem codeStart_actsOnTheHold : Obligations.CodeStart_ActsOnTheHold := by
  intro c p s hq hd ha hs he
  refine ⟨fun o hz ho hvan hn hroom => ?_, fun b free hpos hl hfree hcap hf => ?_⟩
  · have hend := (freezeHold_zero (c := c) (s := popped s) hs hz).trans (endStop_freeze ho hvan hn hroom)
    exact settled_local (exec_codeStart_hold hd ha he hend he rfl (.inr rfl)) hq rfl rfl rfl
  · have hfits : SkipFits p b free (popped s) := SkipFits.of_eq (s := s) ⟨hfree, hcap, hf⟩ rfl rfl
    refine ⟨fun r cmu => { skipQueued p c b free (popped s) with
      pgc := { s.pgc with progs := s.pgc.progs.set p r }, cmu := cmu }, fun _ _ => rfl, fun hmore => ?_,
      fun o hone ho hvan hn hroom => ?_⟩
    · have hskip := (freezeHold_more (c := c) (s := popped s) hs hmore).trans (emitSkip_onProg hfits fun _ => rfl)
      exact settled_owed (exec_codeStart_hold hd ha he hskip he rfl (.inl hs)) hq hl rfl rfl rfl rfl
    · have hskip := (freezeHold_one (c := c) (s := popped s) hs hone).trans
        (congrArg _ (emitSkip_onProg hfits fun _ => rfl))
      have hend := endStop_freeze (c := c) (p := p) (s := oweAll ((skipQueued p c b free (popped s)).onProg p
        fun r => { r with remHold := 0 })) (by simpa using ho) hvan hn hroom
      rw [prog_oweAll, prog_onProg_self, onProg_progs_set] at hend
      exact settled_owed (exec_codeStart_hold hd ha he (hskip.trans hend) he rfl (.inr rfl)) hq hl rfl rfl rfl rfl

/-! ### The take and the input status (R18, R19, R21) -/

section
variable {c : CodeStart} {p : Prog} {s t : State} {b : Nat} {free : List Nat} {counts taken : Bool}

/-- A port of the programme offers nothing: its own, or the other one of its formed pair (R21). -/
def NothingOffered (p : Prog) (s : State) : Prop :=
  (∀ w ∈ (s.ports.get p).store, w.taken = true) ∨
    ((prog s p).pair = true ∧ p.val % 2 = 0 ∧ ∀ w ∈ (s.ports.get (p + 1)).store, w.taken = true)

theorem offers_none (h : ∀ w ∈ (s.ports.get p).store, w.taken = true) : offers s p = false := by
  simp only [offers, List.any_eq_false]
  intro w hw
  simp [h w hw]

theorem takePicture_short (h : NothingOffered p s) : takePicture p counts s = (false, s) := by
  have hshort : (portsOf s p).all (offers s) = false := by
    obtain hown | ⟨hpair, heven, hother⟩ := h
    · cases hp : (prog s p).pair <;> simp [portsOf, hp, offers_none hown]
    · simp [portsOf, hpair, oddOf_even heven, offers_none hother]
  simp [takePicture, hshort]

theorem judgeInput_taken : judgeInput p true s = s.onProg p fun r => { r with input := .present, gapCount := 0 } := by
  simp only [judgeInput, if_true]

theorem judgeInput_gap (h1 : (prog s p).input ≠ .lost) (h2 : (prog s p).gapCount < 24) :
    judgeInput p false s = s.onProg p fun r => { r with input := .gap, gapCount := (prog s p).gapCount + 1 } := by
  have hmin : min 25 ((prog s p).gapCount + 1) = (prog s p).gapCount + 1 := by omega
  have hlt : (prog s p).gapCount + 1 < 25 := by omega
  simp [judgeInput, Config.lostGap, h1, hmin, hlt]

theorem judgeInput_lost (h : (prog s p).input = .lost) :
    judgeInput p false s = s.onProg p fun r => { r with gapCount := min 25 ((prog s p).gapCount + 1) } := by
  simp [judgeInput, Config.lostGap, h]

theorem judgeInput_loses (h1 : (prog s p).input ≠ .lost) (h2 : (prog s p).gapCount = 24) :
    judgeInput p false s = raiseFlag .inputLost (s.onProg p fun r => { r with input := .lost, gapCount := 25 }) := by
  simp [judgeInput, Config.lostGap, h1, h2]

/-! ### The decision for a skip picture (R44) -/

/-- The type of the next picture (R44). -/
def nextType (p : Prog) (s : State) : PicType :=
  if (prog s p).refreshOwed = true ∨ (prog s p).cfg.group ≤ (loopOf s p).groupCount then .anchor else .follow

/-- The target of a picture type (R76). -/
def pictureTarget (p : Prog) (s : State) (type : PicType) : Nat :=
  if type = .anchor then (rateOf s p).anchorTarget else (rateOf s p).followTarget

theorem nextTarget_eq : pictureTarget p s (nextType p s) =
    if (prog s p).refreshOwed = true ∨ (prog s p).cfg.group ≤ (loopOf s p).groupCount then
      (rateOf s p).anchorTarget else (rateOf s p).followTarget := by
  simp only [pictureTarget, nextType]
  split <;> simp

/-- The input status of a picture taken has no part in the decision. -/
theorem nextTarget_judged (hpgc : t.pgc = s.pgc) (hcde : t.cde = s.cde) (hral : t.ral = s.ral) :
    pictureTarget p (t.onProg p fun r => { r with input := .present, gapCount := 0 })
      (nextType p (t.onProg p fun r => { r with input := .present, gapCount := 0 })) =
    pictureTarget p s (nextType p s) := by
  have hprog : prog t p = prog s p := by simp only [prog, hpgc]
  have hloop : loopOf t p = loopOf s p := by simp only [loopOf, hcde]
  have hrate : rateOf t p = rateOf s p := by simp only [rateOf, hral]
  rw [nextTarget_eq, nextTarget_eq, prog_onProg_self, ← hprog, ← hloop, ← hrate]
  rfl

theorem decidePicture_taken (h : (prog s p).skipNext = false) :
    decidePicture p true c s =
      if pictureTarget p s (nextType p s) = 0 then emitSkip p c s
      else beginPicture p (nextType p s) (pictureTarget p s (nextType p s)) c s := by
  have htype : (if (prog s p).refreshOwed || decide ((prog s p).cfg.group ≤ (loopOf s p).groupCount) then PicType.anchor
      else .follow) = nextType p s := by simp [nextType]
  simp only [decidePicture, h, htype, pictureTarget]
  cases nextType p s <;> simp

/-- With the skip-next mark set, nothing taken or a target of 0, a skip picture stands in for the picture (R44). -/
theorem decidePicture_skips (h : (prog s p).skipNext = true ∨ taken = false ∨ pictureTarget p s (nextType p s) = 0) :
    decidePicture p taken c s = emitSkip p c (s.onProg p fun r => { r with skipNext := false }) := by
  cases hskip : (prog s p).skipNext with
  | true => simp [decidePicture, hskip]
  | false =>
    have hmark : s.onProg p (fun r => { r with skipNext := false }) = s := by
      rw [onProg_congr (g := fun r => r) (by rw [← hskip])]
      simp [State.onProg, State.onPgc]
    rw [hmark]
    cases taken with
    | false => simp [decidePicture, hskip]
    | true =>
      have htarget : pictureTarget p s (nextType p s) = 0 := by simpa [hskip] using h
      rw [decidePicture_taken hskip, if_pos htarget]

/-- The skip picture that stands in for the picture, after the input status has been judged. -/
theorem decidePicture_skipped {f : Programme → Programme} (hfits : SkipFits p b free s) (hf : ∀ r, (f r).cfg = r.cfg)
    (h : (f (prog s p)).skipNext = true ∨ taken = false ∨
      pictureTarget p (s.onProg p f) (nextType p (s.onProg p f)) = 0) :
    decidePicture p taken c (s.onProg p f) =
      oweAll ((skipQueued p c b free s).onProg p fun r => { f r with skipNext := false }) := by
  rw [decidePicture_skips (by rwa [prog_onProg_self]), onProg_onProg]
  exact emitSkip_onProg hfits hf

end

section
variable {c : CodeStart} {p : Prog} {s : State} {b : Nat} {free : List Nat} {taken : Bool}

/-- The step of a RUNNING programme that queues a skip picture, from what its take and its input status come to. -/
theorem exec_skip {ports : Table 4 Port} {f : Programme → Programme} (hq : Quiet s) (hl : NoLinkTakes s)
    (hd : codeStartDue s = some c) (ha : Alone p s) (hs : (prog s p).state = .running) (he : entryOf s p = none)
    (hfits : SkipFits p b free s)
    (htake : takePicture p true (popped s) = (taken, { popped s with ports := ports }))
    (hjudge : judgeInput p taken { popped s with ports := ports } = ({ popped s with ports := ports } : State).onProg p f)
    (hf : ∀ r, (f r).cfg = r.cfg) (hskips : (f (prog s p)).skipNext = true ∨ taken = false ∨
      pictureTarget p (({ popped s with ports := ports } : State).onProg p f)
        (nextType p (({ popped s with ports := ports } : State).onProg p f)) = 0) :
    exec .codeStart s = .next { skipQueued p c b free (popped s) with
      ports := ports
      pgc := { s.pgc with progs := s.pgc.progs.set p { f (prog s p) with skipNext := false } } } := by
  have hwork := decidePicture_skipped (c := c) (taken := taken) (s := { popped s with ports := ports })
    (hfits.of_eq rfl rfl) hf hskips
  refine settled_owed (exec_codeStart_idle hd ha hs he ?_ he) hq hl rfl rfl rfl rfl
  rw [htake, hjudge]
  exact hwork

/-- The 25th code start without a picture: LOST, and INPUT-LOST, whatever the flag brings about. -/
theorem exec_loses (hq : Quiet s) (hd : codeStartDue s = some c) (ha : Alone p s) (hs : (prog s p).state = .running)
    (he : entryOf s p = none) (hwithin : (rateOf s p).fullness ≤ (rateOf s p).limit) (hnone : NothingOffered p s)
    (hinput : (prog s p).input ≠ .lost) (hgap : (prog s p).gapCount = 24) (hskip : (prog s p).skipNext = false) :
    ∃ t, exec .codeStart s = .next t ∧ (prog t p).input = .lost ∧ (prog t p).gapCount = 25 ∧
      (prog t p).state = .running ∧ (flagRec t .inputLost).set = true ∧ t.ports = s.ports := by
  have hserene := raiseFlag_serene .inputLost ((popped s).onProg p fun r => { r with input := .lost, gapCount := 25 })
  have hflag := raiseFlag_sets .inputLost ((popped s).onProg p fun r => { r with input := .lost, gapCount := 25 })
  have hjudge := (judgeInput_loses (s := popped s) hinput hgap).symm
  generalize raiseFlag .inputLost ((popped s).onProg p fun r => { r with input := .lost, gapCount := 25 }) = lost at hserene hflag hjudge
  obtain ⟨-, -, hports, hcde, hral, -, -, -, -, -, hprogs, hvan, hhome, -⟩ := serene_eq hserene
  have hprog := exceptMarks_of hprogs p
  rw [prog_onProg_self, prog_popped] at hprog
  have hwithin' : (rateOf lost p).fullness ≤ (rateOf lost p).limit := by rw [rateOf, hral]; exact hwithin
  have hskips : decidePicture p false c lost = emitSkip p c lost := by
    have hmark : (prog lost p).skipNext = false := by rw [hprog]; exact hskip
    simp [decidePicture, hmark]
  obtain ⟨-, -, hports', hcde', -, -, -, -, -, -, hprogs', hvan', hhome', -⟩ := serene_eq (emitSkip_serene (c := c) hwithin')
  have hexec := exec_codeStart_idle hd ha hs he (t := emitSkip p c lost)
    (by rw [takePicture_short (s := popped s) hnone, ← hskips, hjudge])
    (by rw [entryOf, hcde']; exact (congrArg (fun e : Engine => e.entries.get p) hcde).trans he)
  rw [finish_empty (hvan'.trans (hvan.trans hq.2.1)) (hhome'.trans (hhome.trans hq.2.2))] at hexec
  obtain ⟨-, -, hports'', -, -, -, -, -, -, -, hprogs'', -⟩ := serene_eq (settleTakes_serene (emitSkip p c lost))
  have hlast := exceptMarks_of (hprogs''.trans hprogs') p
  have hrecord : prog (countGroup p lost) p = prog lost p := rfl
  rw [hrecord, hprog] at hlast
  refine ⟨_, hexec, ?_, ?_, ?_, settleTakes_keeps _ _ (emitSkip_keeps hwithin' hflag), hports''.trans (hports'.trans hports)⟩
  all_goals rw [hlast]
  exact hs

end

/-- Settles O25: nothing offered, below the 25th gap, LOST and at the 25th; and a picture taken that is not coded. -/
theorem codeStart_skipsWithoutAPicture : Obligations.CodeStart_SkipsWithoutAPicture := by
  intro c p b free s hq hl hd ha hs he hwithin hfree hcap
  have hfits : SkipFits p b free s := ⟨hfree, hcap, hwithin⟩
  refine ⟨fun ports r => { skipQueued p c b free (popped s) with
    ports := ports, pgc := { s.pgc with progs := s.pgc.progs.set p r } }, fun _ _ => rfl, fun hnone => ?_,
    fun old v hpair hstore hv hold hskips => ?_⟩
  · have htake : takePicture p true (popped s) = (false, { popped s with ports := s.ports }) :=
      takePicture_short (s := popped s) hnone
    refine ⟨fun hinput hgap => ?_, fun hinput => ?_, exec_loses hq hd ha hs he hwithin hnone⟩
    · exact exec_skip hq hl hd ha hs he hfits htake (judgeInput_gap (s := popped s) hinput hgap) (fun _ => rfl) (.inr (.inl rfl))
    · exact exec_skip hq hl hd ha hs he hfits htake (judgeInput_lost (s := popped s) hinput) (fun _ => rfl) (.inr (.inl rfl))
  · have htake := takePicture_last (s := popped s) (b := true) hpair hstore hv hold
    refine exec_skip hq hl hd ha hs he hfits htake judgeInput_taken (fun _ => rfl) ?_
    obtain hmark | htarget := hskips
    · exact .inl hmark
    · exact .inr (.inr ((nextTarget_judged (s := s) rfl rfl rfl).trans (nextTarget_eq.trans htarget)))

end Sys2Proof.Machine
end

section
/-! PROOF. The code start: a picture begun (R18, R21, R40 to R49, R129). -/

namespace Sys2Proof.Machine

/-! ### The take of the newest picture (R18, R21) -/

section
variable {p : Prog} {s : State} {counts : Bool} {old old' : List StoredPicture} {v v' : StoredPicture}

/-- The newest picture, untaken, is taken, and the older untaken ones leave the store, counted. -/
theorem takeNewest_counts (h : v.taken = false) :
    takeNewest (old ++ [v]) =
      (old.filter (fun w => w.taken) ++ [{ v with taken := true }], old.countP fun w => !w.taken, true) := by
  simp only [takeNewest, List.foldr_append, List.foldr_cons, List.foldr_nil, h, Bool.false_eq_true, if_false]
  induction old with
  | nil => rfl
  | cons w ws ih =>
    rw [List.foldr_cons, ih]
    cases hw : w.taken <;> simp [hw]

theorem takeFrom_last (hs : (s.ports.get p).store = old ++ [v]) (h : v.taken = false) (hold : ∀ w ∈ old, w.taken = true) :
    takeFrom counts p s = s.onPort p fun q => { q with store := old ++ [{ v with taken := true }] } := by
  simp [takeFrom, hs, takeNewest_last h hold]

theorem takeFrom_counts (hs : (s.ports.get p).store = old ++ [v]) (h : v.taken = false) (hold : ∃ w ∈ old, w.taken = false) :
    takeFrom true p s = raiseFlag .pictureSkipped (s.onPort p fun q =>
      { q with
        store := old.filter (fun w => w.taken) ++ [{ v with taken := true }]
        dropped := min (q.dropped + 1) 65535 }) := by
  have hcount : 0 < old.countP fun w => !w.taken := by
    rw [List.countP_pos_iff]
    obtain ⟨w, hw, ht⟩ := hold
    exact ⟨w, hw, by simp [ht]⟩
  simp only [takeFrom, hs, takeNewest_counts h, hcount, decide_true, Bool.and_self, if_true]
  simp [State.onPort, satInc]

theorem offers_last (hs : (s.ports.get p).store = old ++ [v]) (h : v.taken = false) : offers s p = true := by
  simp [offers, hs, h]

/-- The take of a programme of one camera that evicts an untaken picture, counted and flagged (R18). -/
theorem takePicture_counts (hpair : (prog s p).pair = false) (hs : (s.ports.get p).store = old ++ [v])
    (h : v.taken = false) (hold : ∃ w ∈ old, w.taken = false) (hn : s.cmu.noticesHome = false)
    (hroom : s.cmu.notices.length < 32) :
    takePicture p true s = (true, { s with
      ports := s.ports.set p { s.ports.get p with
        store := old.filter (fun w => w.taken) ++ [{ v with taken := true }]
        dropped := min ((s.ports.get p).dropped + 1) 65535 }
      cmu := flagRaised .pictureSkipped s }) := by
  have hraise := takeFrom_counts (s := s) hs h hold
  rw [raiseFlag_raised (s := s.onPort p _) hn hroom] at hraise
  simp only [takePicture, portsOf, hpair, Bool.false_eq_true, if_false, List.all_cons, List.all_nil, offers_last hs h,
    Bool.and_self, if_true, List.foldl]
  exact congrArg _ hraise

/-- A formed pair takes from both ports (R21). -/
theorem takePicture_pair (hpair : (prog s p).pair = true) (heven : p.val % 2 = 0)
    (hs : (s.ports.get p).store = old ++ [v]) (h : v.taken = false) (hold : ∀ w ∈ old, w.taken = true)
    (hs' : (s.ports.get (p + 1)).store = old' ++ [v']) (h' : v'.taken = false) (hold' : ∀ w ∈ old', w.taken = true) :
    takePicture p counts s = (true, { s with
      ports := (s.ports.set p { s.ports.get p with store := old ++ [{ v with taken := true }] }).set (p + 1)
        { s.ports.get (p + 1) with store := old' ++ [{ v' with taken := true }] } }) := by
  have hne := odd_ne_even heven
  have hother : ((s.onPort p fun q => { q with store := old ++ [{ v with taken := true }] }).ports.get (p + 1)).store =
      old' ++ [v'] := by
    rw [← hs', State.onPort, Table.get_modify_ne _ _ hne.symm]
  simp only [takePicture, portsOf, hpair, if_true, oddOf_even heven, List.all_cons, List.all_nil, offers_last hs h,
    offers_last hs' h', Bool.and_self, List.foldl, takeFrom_last hs h hold, takeFrom_last hother h' hold']
  simp [State.onPort, Table.modify, Table.get_set_ne _ _ hne.symm]

end

/-! ### An anchor resolves the in-points that wait for it (R129) -/

section
variable {p : Prog} {pic : Pic} {s : State} {n : Nat}

/-- The record with the in-points that wait for camera `p` set to the picture `pic`. -/
def Clip.resolvedAt (p : Prog) (pic : Pic) (k : Clip) : Clip :=
  { k with
    cameras := k.cameras.map fun m =>
      if m.prog = p ∧ m.inPoint = none then { m with inPoint := some { pic := pic, short := false } } else m }

theorem closeIfResolved_open (h : ∀ k ∈ s.clm.clips, k.number = n → k.state ≠ .closing) : closeIfResolved n s = s := by
  simp only [closeIfResolved]
  split
  next => rfl
  next k hk =>
    obtain ⟨hmem, hnumber⟩ := clipOf_some hk
    rw [if_neg (fun hc => h k hmem hnumber hc.1)]

/-- Records resolved one after another, none of them CLOSING, are resolved together. -/
theorem resolve_all (l : List Nat) (hnodup : l.Nodup) (h : ∀ k ∈ s.clm.clips, k.number ∈ l → k.state ≠ .closing) :
    l.foldl (fun s n => closeIfResolved n (onClip n (Clip.resolvedAt p pic) s)) s =
      s.onClm fun m => { m with clips := m.clips.map fun k => if k.number ∈ l then k.resolvedAt p pic else k } := by
  induction l generalizing s with
  | nil => simp [State.onClm]
  | cons n l ih =>
    obtain ⟨hn, hl⟩ := List.nodup_cons.mp hnodup
    have hopen : closeIfResolved n (onClip n (Clip.resolvedAt p pic) s) = onClip n (Clip.resolvedAt p pic) s := by
      apply closeIfResolved_open
      simp only [onClip, State.onClm, List.mem_map]
      rintro k ⟨k', hk', rfl⟩ hnum
      split
      · exact h k' hk' (by simp_all)
      · rename_i hother
        rw [if_neg hother] at hnum
        exact absurd hnum hother
    rw [List.foldl_cons, hopen, ih hl]
    · simp only [onClip, State.onClm, List.map_map]
      congr 2
      apply List.map_congr_left
      intro k _
      by_cases hk : k.number = n
      · simp [hk, Clip.resolvedAt, hn]
      · simp [hk]
    · simp only [onClip, State.onClm, List.mem_map]
      rintro k ⟨k', hk', rfl⟩ hmem
      split
      · exact h k' hk' (by simp_all)
      · rename_i hother
        rw [if_neg hother] at hmem
        exact h k' hk' (List.mem_cons_of_mem _ hmem)

theorem anchorStarted_open (hok : ClipsOk s.clm) (h : ∀ k ∈ s.clm.clips, k.pendingOn p = true → k.state ≠ .closing) :
    anchorStarted p pic s =
      s.onClm fun m => { m with clips := m.clips.map fun k => if k.pendingOn p = true then k.resolvedAt p pic else k } := by
  have hnodup : ((s.clm.clips.filter fun k => k.pendingOn p).map (·.number)).Nodup :=
    hok.distinct.sublist (List.filter_sublist.map _)
  have hmem : ∀ k ∈ s.clm.clips, (k.number ∈ (s.clm.clips.filter fun k => k.pendingOn p).map (·.number) ↔ k.pendingOn p = true) := by
    intro k hk
    simp only [List.mem_map, List.mem_filter]
    refine ⟨?_, fun hp => ⟨k, ⟨hk, hp⟩, rfl⟩⟩
    rintro ⟨k', ⟨hk', hp⟩, hnum⟩
    rwa [← clip_unique hok hk' hk hnum]
  have hall := resolve_all (p := p) (pic := pic) _ hnodup fun k hk hp => h k hk ((hmem k hk).mp hp)
  rw [List.foldl_map] at hall
  refine hall.trans ?_
  simp only [State.onClm]
  congr 2
  apply List.map_congr_left
  intro k hk
  simp only [hmem k hk]

end

/-! ### The picture begun (R40, R45, R47 to R49) -/

section
variable {c : CodeStart} {p : Prog} {type : PicType} {target : Nat} {s : State} {m : ClipMarker}

/-- The entry that a picture begins with, no band of it started. -/
def beginningEntry (p : Prog) (type : PicType) (target : Nat) (c : CodeStart) (s : State) : Entry :=
  { pic := c.pic, type := type, method := (loopBegins (loopOf s p) type c.pic).method, bands := (formatOf s p).bands
    target := target, limit := target * (prog s p).cfg.bandLimit / 100
    loopQ := startQuant (loopOf s p) (prog s p).cfg type, codingQ := startQuant (loopOf s p) (prog s p).cfg type
    tick := c.tick }

/-- The state in which a picture has begun, with the Clip Marker `m`. -/
def pictureBegun (p : Prog) (type : PicType) (target : Nat) (c : CodeStart) (m : ClipMarker) (s : State) : State :=
  { s with
    pgc := { s.pgc with
      progs := s.pgc.progs.set p { prog s p with
        refreshOwed := if type = .anchor then false else (prog s p).refreshOwed } }
    clm := m
    cde := { s.cde with
      entries := s.cde.entries.set p (some (beginningEntry p type target c s))
      loops := s.cde.loops.set p (loopBegins (loopOf s p) type c.pic) } }

/-- An anchor started leaves the Clip Marker `m`, and a FOLLOW picture leaves it as it stands. -/
def ResolvesTo (p : Prog) (type : PicType) (pic : Pic) (m : ClipMarker) (s : State) : Prop :=
  match type with
  | .anchor => ∀ t : State, t.clm = s.clm → anchorStarted p pic t = { t with clm := m }
  | .follow => s.clm = m

theorem ResolvesTo.of_clm {pic : Pic} {t : State} (h : ResolvesTo p type pic m s) (ht : t.clm = s.clm) :
    ResolvesTo p type pic m t := by
  cases type with
  | anchor => exact fun u hu => h u (hu.trans ht)
  | follow => exact ht.trans h

theorem beginPicture_eq (h : ResolvesTo p type c.pic m s) :
    beginPicture p type target c s = pictureBegun p type target c m s := by
  cases type with
  | anchor => exact h _ rfl
  | follow =>
    have hsame : s.pgc.progs.set p (prog s p) = s.pgc.progs := by simp [prog]
    simp only [ResolvesTo] at h
    simp only [beginPicture, pictureBegun, ← h, reduceCtorEq, if_false, hsame]
    rfl

theorem resolvesTo_none (h : ∀ k ∈ s.clm.clips, k.pendingOn p = false) : ResolvesTo p type c.pic s.clm s := by
  cases type with
  | anchor => exact fun t ht => by rw [anchorStarted_none (by rwa [ht]), ← ht]
  | follow => rfl

/-- The Clip Marker in which the records pending on `p`, none of them CLOSING, have their in-points. -/
def resolvedClips (p : Prog) (type : PicType) (pic : Pic) (m : ClipMarker) : ClipMarker :=
  { m with clips := m.clips.map fun k => if type = .anchor ∧ k.pendingOn p = true then k.resolvedAt p pic else k }

theorem resolvesTo_open (hok : ClipsOk s.clm) (h : ∀ k ∈ s.clm.clips, k.pendingOn p = true → k.state ≠ .closing) :
    ResolvesTo p type c.pic (resolvedClips p type c.pic s.clm) s := by
  cases type with
  | anchor =>
    intro t ht
    rw [anchorStarted_open (by rwa [ht]) (by rwa [ht]), ← ht]
    simp [State.onClm, resolvedClips]
  | follow => simp [ResolvesTo, resolvedClips]

end

/-! ### A RUNNING programme whose ports offer a picture (R18, R41, R44) -/

section
variable {c : CodeStart} {p : Prog} {s t : State} {ports : Table 4 Port} {cmu : CommandUnit} {m : ClipMarker}

theorem bandTiles_eq (width : Nat) (method : Method) :
    bandTiles width method = if method = .full then width else (width + 1) / 2 := by
  cases method <;> simp [bandTiles, ceilDiv]

theorem nextType_judged (hpgc : t.pgc = s.pgc) (hcde : t.cde = s.cde) :
    nextType p (t.onProg p fun r => { r with input := .present, gapCount := 0 }) = nextType p s := by
  have hprog : prog t p = prog s p := by simp only [prog, hpgc]
  have hloop : loopOf t p = loopOf s p := by simp only [loopOf, hcde]
  simp only [nextType, prog_onProg_self, ← hprog, ← hloop]
  rfl

/-- The stores and the input status after a take. -/
def takenState (p : Prog) (ports : Table 4 Port) (cmu : CommandUnit) (s : State) : State :=
  ({ s with ports := ports, cmu := cmu } : State).onProg p fun r => { r with input := .present, gapCount := 0 }

@[simp] theorem prog_takenState : prog (takenState p ports cmu s) p = { prog s p with input := .present, gapCount := 0 } := by
  rw [takenState, prog_onProg_self]
  rfl

theorem formatOf_takenState : formatOf (takenState p ports cmu s) p = formatOf s p := by
  simp only [formatOf, prog_takenState]
  rfl

theorem beginningEntry_takenState {type : PicType} {target : Nat} :
    beginningEntry p type target c (takenState p ports cmu s) = beginningEntry p type target c s := by
  simp only [beginningEntry, formatOf_takenState, prog_takenState]
  rfl

/-- The entry of the next picture of the programme. -/
def nextEntry (p : Prog) (c : CodeStart) (s : State) : Entry :=
  beginningEntry p (nextType p s) (pictureTarget p s (nextType p s)) c s

/-- The state in which a picture has been taken and begun. -/
def pictureTaken (p : Prog) (c : CodeStart) (m : ClipMarker) (ports : Table 4 Port) (cmu : CommandUnit) (s : State) : State :=
  { s with
    ports := ports
    cmu := cmu
    pgc := { s.pgc with
      progs := s.pgc.progs.set p { prog s p with
        input := .present, gapCount := 0
        refreshOwed := if nextType p s = .anchor then false else (prog s p).refreshOwed } }
    clm := m
    cde := { s.cde with
      entries := s.cde.entries.set p (some (nextEntry p c s))
      loops := s.cde.loops.set p (loopBegins (loopOf s p) (nextType p s) c.pic) } }

/-- The take, the input status and the decision where a picture is taken and coded (R18, R19, R44). -/
theorem decidePicture_begins {counts : Bool} (hskip : (prog s p).skipNext = false)
    (htake : takePicture p counts s = (true, { s with ports := ports, cmu := cmu }))
    (htarget : pictureTarget p s (nextType p s) ≠ 0) (hclips : ResolvesTo p (nextType p s) c.pic m s) :
    decidePicture p (takePicture p counts s).1 c (judgeInput p (takePicture p counts s).1 (takePicture p counts s).2) =
      pictureTaken p c m ports cmu s := by
  have htype : nextType p (takenState p ports cmu s) = nextType p s := nextType_judged rfl rfl
  have htarget' : pictureTarget p (takenState p ports cmu s) (nextType p (takenState p ports cmu s)) =
    pictureTarget p s (nextType p s) := nextTarget_judged rfl rfl rfl
  have hset (r : Programme) : (takenState p ports cmu s).pgc.progs.set p r = s.pgc.progs.set p r := Table.set_set ..
  have hdecide := decidePicture_taken (c := c) (s := takenState p ports cmu s) (p := p) (by simpa using hskip)
  rw [htarget', htype, if_neg htarget, beginPicture_eq (s := takenState p ports cmu s) (m := m) (hclips.of_clm rfl)] at hdecide
  rw [htake, judgeInput_taken]
  refine hdecide.trans ?_
  simp only [pictureBegun, hset, prog_takenState, beginningEntry_takenState]
  rfl

theorem entryOf_pictureTaken : entryOf (pictureTaken p c m ports cmu s) p = some (nextEntry p c s) := by
  simp [entryOf, pictureTaken]

theorem formatOf_pictureTaken : formatOf (pictureTaken p c m ports cmu s) p = formatOf s p := by
  rw [formatOf, prog_of_set rfl]
  rfl

/-- The engine once band 1 of the programme's next picture is in coding. -/
def coding (p : Prog) (c : CodeStart) (s : State) : Engine :=
  { entries := s.cde.entries.set p (some { nextEntry p c s with started := 1 })
    band := some {
      prog := p, pic := c.pic, band := 1, quant := (nextEntry p c s).codingQ
      tiles := bandTiles (formatOf s p).width (nextEntry p c s).method }
    lastServed := p
    loops := s.cde.loops.set p (loopBegins (loopOf s p) (nextType p s) c.pic) }

theorem startBand_pictureTaken (ha : Alone p (pictureTaken p c m ports cmu s)) (hband : s.cde.band = none)
    (hbands : (formatOf s p).bands ≠ 0) :
    startBand (pictureTaken p c m ports cmu s) = { pictureTaken p c m ports cmu s with cde := coding p c s } := by
  rw [startBand_alone ha hband entryOf_pictureTaken (Nat.pos_of_ne_zero hbands), formatOf_pictureTaken]
  simp only [pictureTaken, Table.set_set]
  rfl

theorem exec_begins (hq : Quiet s) (hd : codeStartDue s = some c) (ha : Alone p s) (hs : (prog s p).state = .running)
    (he : entryOf s p = none) (hskip : (prog s p).skipNext = false) (hband : s.cde.band = none)
    (hbands : (formatOf s p).bands ≠ 0) (hclips : ResolvesTo p (nextType p s) c.pic m s)
    (htarget : pictureTarget p s (nextType p s) ≠ 0)
    (htake : takePicture p true (popped s) = (true, { popped s with ports := ports, cmu := cmu }))
    (hvan : cmu.van = s.cmu.van) (hhome : cmu.home = s.cmu.home) :
    exec .codeStart s = .next { pictureTaken p c m ports cmu (popped s) with cde := coding p c (popped s) } := by
  have hwork := decidePicture_begins (s := popped s) (p := p) (c := c) hskip htake htarget (hclips.of_clm rfl)
  obtain ⟨hexec, halone⟩ := exec_codeStart_running hd ha hs he hwork
  rw [startBand_pictureTaken halone hband hbands] at hexec
  exact settled_local hexec hq rfl hvan hhome

end

/-- The programme's loop once a picture of the type has begun, in the words of R45, R47, R48 and R49. -/
theorem loopBegins_eq (l : CodingLoop) (type : PicType) (pic : Pic) :
    loopBegins l type pic =
      if type = .anchor then
        { l with
          groupCount := 1, method := l.pending.getD l.method, pending := none, collapse := none
          history := (pic :: l.history).take 16 }
      else { l with groupCount := min 255 (l.groupCount + 1), collapse := none } := by
  cases type <;> rfl

/-- Settles O24: the newest picture alone, over an untaken one, and at both ports of a pair. -/
theorem codeStart_beginsAPicture : Obligations.CodeStart_BeginsAPicture := by
  intro c p s hq hd ha hs he hskip hband hbands hok hopen
  have hclips := resolvesTo_open (p := p) (c := c) (type := nextType p s) hok hopen
  have hbegins {ports : Table 4 Port} {cmu : CommandUnit} (htarget htake) (hvan : cmu.van = s.cmu.van) (hhome) :=
    exec_begins (ports := ports) (cmu := cmu) hq hd ha hs he hskip hband hbands hclips htarget htake hvan hhome
  refine ⟨nextType p s, pictureTarget p s (nextType p s), startQuant (loopOf s p) (prog s p).cfg (nextType p s),
    loopBegins (loopOf s p) (nextType p s) c.pic,
    fun ports cmu => { pictureTaken p c (resolvedClips p (nextType p s) c.pic s.clm) ports cmu (popped s) with
      cde := coding p c (popped s) }, rfl, rfl, rfl,
    loopBegins_eq _ _ _, fun ports cmu => ?_, fun htarget hpair old v hstore hv => ⟨fun hold => ?_, fun hold hn hroom => ?_⟩,
    fun htarget hpair heven old v old' v' hstore hv hold hstore' hv' hold' => ?_⟩
  · simp only [coding, bandTiles_eq]
    rfl
  · exact hbegins htarget (takePicture_last (s := popped s) hpair hstore hv hold) rfl rfl
  · exact hbegins htarget (takePicture_counts (s := popped s) hpair hstore hv hold hn hroom) rfl rfl
  · exact hbegins htarget (takePicture_pair (s := popped s) hpair heven hstore hv hold hstore' hv' hold') rfl rfl

end Sys2Proof.Machine
end

section
/-! PROOF. The code start: a programme started (R26, R47, R74). -/

namespace Sys2Proof.Machine

/-! ### A band started or not: what the entry keeps (R41) -/

section
variable {c : CodeStart} {p : Prog} {e : Entry} {s t : State}

/-- The engine starts a band of the programme or leaves it: the picture keeps all but its started bands. -/
theorem startBand_keeps (ha : Alone p s) (he : entryOf s p = some e) :
    ∃ (cde : Engine) (n : Nat), startBand s = { s with cde := cde } ∧ cde.entries.get p = some { e with started := n } ∧
      ∀ b, s.cde.band = some b → cde.band = some b := by
  cases hband : s.cde.band with
  | some b =>
    refine ⟨s.cde, e.started, ?_, he, fun _ hb => hband.symm ▸ hb⟩
    simp [startBand, hband]
  | none =>
    by_cases hmore : e.started < e.bands
    · exact ⟨_, e.started + 1, startBand_alone ha hband he hmore, by simp, fun b hb => by cases hb⟩
    · refine ⟨s.cde, e.started, ?_, he, fun b hb => by cases hb⟩
      have hnone : nextServed s.cde = none := by rw [nextServed_alone ha, he]; simp [hmore]
      simp [startBand, hband, hnone]

end

/-! ### A STARTING programme (R26) -/

section
variable {c : CodeStart} {p : Prog} {s t : State} {o : OpenCommand}

theorem runsNow_iff : runsNow s p c = true ↔
    (prog s p).state = .starting ∧ (prog s p).awaiting = false ∧ (prog s p).firstPic = some c.pic := by
  simp [runsNow, and_assoc]

/-- What the programme's record, figures and quantiser are when it becomes RUNNING (R26, R47, R74). -/
theorem becomeRunning_eq : becomeRunning p s = { s with
    pgc := { s.pgc with progs := s.pgc.progs.set p { prog s p with state := .running } }
    ral := { s.ral with progs := s.ral.progs.set p { rateOf s p with fullness := 0, carry := 0, prevRate := (rateOf s p).rate } }
    cde := { s.cde with
      loops := s.cde.loops.set p { loopOf s p with carried := ((prog s p).cfg.qMin + (prog s p).cfg.qMax) / 2 } } } := rfl

/-- The notice owed to the PROGRAMME-START of a programme that became RUNNING (R26). -/
def startNotice (p : Prog) (c : CodeStart) (o : OpenCommand) (s : State) : Notice :=
  { body := .programme p .running c.pic none, answers := some o, tick := s.tbu.tick, pic := s.tbu.pic }

/-- The code start of a STARTING programme's first allocated picture, from what its take and decision come to, with room for
the notice and no home copy. -/
theorem codeProgramme_starts (hrun : runsNow s p c = true)
    (ht : decidePicture p (takePicture p false (becomeRunning p s)).1 c (judgeInput p
      (takePicture p false (becomeRunning p s)).1 (takePicture p false (becomeRunning p s)).2) = t)
    (ho : (prog t p).openStop = some o) (hvan : o.origin = .van) (hn : t.cmu.noticesHome = false)
    (hroom : t.cmu.notices.length < 32) :
    codeProgramme c p s = { t.onProg p fun r => { r with openStop := none } with
      cmu := { t.cmu with notices := t.cmu.notices ++ [startNotice p c o t] } } := by
  have hnotice : codeProgramme c p s =
      queueNotice (.programme p .running c.pic none) (some o) (t.onProg p fun r => { r with openStop := none }) := by
    simp only [codeProgramme, hrun, Bool.true_or, if_true, Bool.not_true, ht, ho]
  rw [hnotice, queueNotice_plain (s := t.onProg p _) hn (fun o' ho' => by cases ho'; exact hvan) hroom]
  rfl

theorem prog_becomeRunning : prog (becomeRunning p s) p = { prog s p with state := .running } := by
  rw [becomeRunning_eq]
  exact Table.get_set_self ..

theorem rateOf_becomeRunning : rateOf (becomeRunning p s) p =
    { rateOf s p with fullness := 0, carry := 0, prevRate := (rateOf s p).rate } := by
  rw [becomeRunning_eq]
  exact Table.get_set_self ..

theorem loopOf_becomeRunning : loopOf (becomeRunning p s) p =
    { loopOf s p with carried := ((prog s p).cfg.qMin + (prog s p).cfg.qMax) / 2 } := by
  rw [becomeRunning_eq]
  exact Table.get_set_self ..

theorem nextType_owed (h : (prog s p).refreshOwed = true) : nextType p s = .anchor := by
  simp [nextType, h]

/-- A picture that a programme begins while a refresh is owed: an anchor (R44). -/
theorem nextEntry_owed (h : (prog s p).refreshOwed = true) : nextEntry p c s =
    beginningEntry p .anchor (rateOf s p).anchorTarget c s := by
  simp [nextEntry, nextType_owed h, pictureTarget]

theorem becomeRunning_progs (r : Programme) :
    { (becomeRunning p s).pgc with progs := (becomeRunning p s).pgc.progs.set p r } =
      { s.pgc with progs := s.pgc.progs.set p r } := by
  rw [becomeRunning_eq]
  simp only [Table.set_set]

theorem pictureTaken_onProg_pgc {m : ClipMarker} {ports : Table 4 Port} {cmu : CommandUnit} {f : Programme → Programme} :
    ((pictureTaken p c m ports cmu s).onProg p f).pgc = { s.pgc with
      progs := s.pgc.progs.set p (f { prog s p with
        input := .present, gapCount := 0
        refreshOwed := if nextType p s = .anchor then false else (prog s p).refreshOwed }) } := by
  simp only [State.onProg_pgc, pictureTaken, Table.modify, Table.get_set_self, Table.set_set]

theorem startQuant_congr {l l' : CodingLoop} {g g' : ProgConfig} {type : PicType} (hl : l = l') (hg : g = g') :
    startQuant l g type = startQuant l' g' type := by rw [hl, hg]

end

/-- Settles O26: the code starts before the first allocated picture, and the one that carries it. -/
theorem codeStart_makesRunning : Obligations.CodeStart_MakesRunning := by
  intro c p s hq hd ha hs hpair he
  have hover : overrun p (popped s) = popped s := overrun_none he
  have hhold : freezeHold c p (popped s) = popped s := freezeHold_none (by simp [hs])
  have hexec := exec_codeStart hd ha
  rw [hover, hhold] at hexec
  refine ⟨fun hwait => ?_, fun v o hawait hfirst howed hskip ho hvan hn hroom htarget hbands hstore hv hclips => ?_⟩
  · rw [codeProgramme_waiting (s := popped s) hs hwait, startBand_none (s := popped s) ha he] at hexec
    exact settled_local hexec hq rfl rfl rfl
  · have hrecord := prog_becomeRunning (p := p) (s := popped s)
    have howed' : (prog (becomeRunning p (popped s)) p).refreshOwed = true := by rw [hrecord]; exact howed
    have htake := takePicture_last (s := becomeRunning p (popped s)) (b := false) (old := [])
      (by rw [hrecord]; exact hpair) hstore hv (by simp)
    have hwork := decidePicture_begins (c := c) (m := s.clm) (by rw [hrecord]; exact hskip) htake
      (by rw [nextType_owed howed', pictureTarget, if_pos rfl, rateOf_becomeRunning]; exact htarget)
      (resolvesTo_none (s := becomeRunning p (popped s)) hclips)
    have hcode := codeProgramme_starts (s := popped s) (runsNow_iff.mpr ⟨hs, hawait, hfirst⟩) hwork (o := o)
      (by rw [prog_of_set rfl, hrecord]; exact ho) hvan hn hroom
    have halone : Alone p (codeProgramme c p (popped s)) := Alone.of_others (s := popped s) ha (codeProgramme_others p c _)
    rw [hcode] at halone hexec
    obtain ⟨cde, n, hband, hentry, -⟩ := startBand_keeps halone
      (entryOf_pictureTaken (s := becomeRunning p (popped s)) (m := s.clm) (ports := s.ports) (cmu := s.cmu))
    rw [hband] at hexec
    rw [nextEntry_owed howed'] at hentry
    refine ⟨_, _, settled_local hexec hq rfl rfl rfl, ?_, rfl, hentry, rfl, rfl, ?_, ?_, rfl, ?_, rfl⟩
    · refine pictureTaken_onProg_pgc.trans ?_
      rw [nextType_owed howed', hrecord, becomeRunning_progs]
      rfl
    · exact (congrArg RateProg.anchorTarget (rateOf_becomeRunning (s := popped s))).trans rfl
    · refine (startQuant_congr loopOf_becomeRunning (congrArg Programme.cfg hrecord)).trans rfl
    · exact congrArg Port.store (Table.get_modify_self ..)

end Sys2Proof.Machine
end

section
/-! PROOF. The code start: an overrun (R29, R30, R43, R58). -/

namespace Sys2Proof.Machine

/-! ### The end of an overrun picture, and what stays of it (R43, R51, R58) -/

/-- What stands in `t` once the picture `e` of programme `p` has ended as an overrun in `s`; `record` is the programme's
state, remaining hold and open stop. -/
structure Overran (p : Prog) (e : Entry) (s : State) (record : ProgState × Nat × Option OpenCommand) (t : State) : Prop where
  record : ((prog t p).state, (prog t p).remHold, (prog t p).openStop) = record
  owed : (prog t p).refreshOwed = true
  entry : entryOf t p = none
  carried : (loopOf t p).carried = e.loopQ
  fullness : (rateOf t p).fullness = (rateOf s p).fullness + e.produced
  band : ∀ b, s.cde.band = some b → b.prog = p → t.cde.band = some { b with discard := true }
  flag : (flagRec t .engineOverrun).set = true
  units : t.ports = s.ports ∧ t.smx = s.smx ∧ t.sdp = s.sdp ∧ t.lsu = s.lsu
  waits : t.cmu.van = s.cmu.van ∧ t.cmu.home = s.cmu.home

section
variable {c : CodeStart} {p : Prog} {e : Entry} {s t u : State} {record record' : ProgState × Nat × Option OpenCommand}

/-- Flags, notices and take attempts keep it. -/
theorem Overran.of_serene (h : Overran p e s record t) (hser : u.serene = t.serene)
    (howed : (prog t p).refreshOwed = true → (prog u p).refreshOwed = true)
    (hflag : (flagRec t .engineOverrun).set = true → (flagRec u .engineOverrun).set = true) : Overran p e s record u := by
  obtain ⟨-, -, hports, hcde, hral, hsmx, hsdp, hlsu, -, -, hprogs, hvan, hhome, -⟩ := serene_eq hser
  have hmarks := exceptMarks_of hprogs p
  refine ⟨?_, howed h.owed, ?_, ?_, ?_, ?_, hflag h.flag, ?_, ?_⟩
  · rw [hmarks]; exact h.record
  · rw [entryOf, hcde]; exact h.entry
  · rw [loopOf, hcde]; exact h.carried
  · rw [rateOf, hral]; exact h.fullness
  · rw [hcde]; exact h.band
  · rw [hports, hsmx, hsdp, hlsu]; exact h.units
  · rw [hvan, hhome]; exact h.waits

theorem Overran.raise (h : Overran p e s record t) (f : EventFlag) : Overran p e s record (raiseFlag f t) :=
  h.of_serene (raiseFlag_serene ..) (by simp [prog]) (raiseFlag_keeps _ _ _)

theorem Overran.notice (h : Overran p e s record t) (b : NoticeBody) (a : Option OpenCommand) :
    Overran p e s record (queueNotice b a t) :=
  h.of_serene (queueNotice_serene ..) (by simp [prog])
    (queueNoticeWith_keeps _ _ (fun g s => raiseWithin_keeps _ g _ s) _ _)

theorem Overran.settled (h : Overran p e s record t) : Overran p e s record (settleTakes t) :=
  h.of_serene (settleTakes_serene _) settleTakes_marks (settleTakes_keeps _ _)

theorem Overran.onProg (h : Overran p e s record t) {f : Programme → Programme}
    (howed : (f (prog t p)).refreshOwed = (prog t p).refreshOwed)
    (hrecord : ((f (prog t p)).state, (f (prog t p)).remHold, (f (prog t p)).openStop) = record') :
    Overran p e s record' (t.onProg p f) :=
  { h with
    record := by rw [prog_onProg_self]; exact hrecord
    owed := by rw [prog_onProg_self, howed]; exact h.owed }

/-- The end of a stop. -/
theorem Overran.endStop (h : Overran p e s record t) (mode : StopMode) (pic : Pic) :
    Overran p e s (.ready, record.2.1, none) (endStop p mode pic t) := by
  have hready := h.onProg (f := fun r => { r with state := .ready, openStop := none })
    (record' := (.ready, record.2.1, none)) rfl (by rw [← h.record])
  simp only [Machine.endStop]
  cases (prog t p).openStop with
  | none => exact hready
  | some o => exact hready.notice _ _

/-- A picture reported, from the fullness that it leaves. -/
theorem Overran.reported {bits : Nat} (h : Overran p e s record (t.onRate p fun r => { r with fullness := r.fullness + bits })) :
    Overran p e s record (pictureReported p bits t) := by
  simp only [pictureReported]
  split
  · exact Overran.raise (h.onProg rfl h.record) _
  · exact h

/-- A header slice is queued in the block granted, or its request is refused and a refresh is owed (R46, R57). -/
theorem emitHeader_cases (pic : Pic) (tick : Tick) (band : Nat) (header : List Byte) :
    (∃ k ps, emitHeader p pic tick band header t = appendPackets .picture ps { t with pkp := k }) ∨
      emitHeader p pic tick band header t =
        refreshCause p (raiseFlag .poolRefused (t.onPool fun k => k.refuse (.prog p))) := by
  simp only [emitHeader, request]
  cases t.pkp.grant (.prog p) 1 with
  | none => exact .inr rfl
  | some granted => exact .inl ⟨granted.2, _, rfl⟩

theorem Overran.header (h : Overran p e s record t) (pic : Pic) (tick : Tick) (band : Nat) (header : List Byte) :
    Overran p e s record (emitHeader p pic tick band header t) := by
  have hser := serene_of_calm (emitHeader_calm p pic tick band header t)
  obtain ⟨k, ps, hgranted⟩ | hrefused := emitHeader_cases (p := p) (t := t) pic tick band header
  · rw [hgranted] at hser ⊢
    exact h.of_serene hser id id
  · rw [hrefused] at hser ⊢
    exact h.of_serene hser (fun howed => refreshCause_owed (by simpa [prog] using howed)) fun hflag =>
      raiseFlag_keeps .poolRefused .engineOverrun _ hflag

/-- A skip picture of the programme. -/
theorem Overran.skip (h : Overran p e s record t) : Overran p e s record (emitSkip p c t) := by
  have hcarried : (loopOf (countGroup p t) p).carried = e.loopQ :=
    (congrArg CodingLoop.carried (Table.get_modify_self ..)).trans h.carried
  have hgroup : Overran p e s record (countGroup p t) :=
    ⟨h.record, h.owed, h.entry, hcarried, h.fullness, h.band, h.flag, h.units, h.waits⟩
  have hheader := hgroup.header c.pic c.tick 0 (sliceHeader 0 (formatOf t p).bands 3 (loopOf t p).method 0 3 Config.sliceHeaderBytes)
  exact Overran.reported { hheader with
    fullness := (congrArg RateProg.fullness (Table.get_modify_self ..)).trans hheader.fullness }

/-- The picture's completion, from the state in which its bits have joined the buffer. -/
theorem Overran.completed (h : Overran p e s record
      (((t.setEntry p none).onLoop p fun l => { l with carried := e.loopQ }).onRate p fun r =>
        { r with fullness := r.fullness + e.produced })) :
    Overran p e s (if record.1 = .stopping then (.ready, record.2.1, none) else record) (completePicture p e t) := by
  have hreported := h.reported
  have hstate := congrArg Prod.fst hreported.record
  simp only at hstate
  simp only [completePicture, hstate]
  split
  · exact hreported.endStop _ _
  · exact hreported

/-- An overrun, whatever its flags and notices bring about. -/
theorem overrun_overran (hfold : fold s p = p) (he : entryOf s p = some e) :
    Overran p e s (if (prog s p).state = .stopping then (.ready, (prog s p).remHold, none) else
      ((prog s p).state, (prog s p).remHold, (prog s p).openStop)) (overrun p s) := by
  have hmarked : refreshCause p (markDiscard p (s.setEntry p none)) =
      (markDiscard p (s.setEntry p none)).onProg p fun r => { r with refreshOwed := true, causes := min (r.causes + 1) 65535 } :=
    refreshCause_alone hfold
  have hser := raiseFlag_serene .engineOverrun (refreshCause p (markDiscard p (s.setEntry p none)))
  have hpgc := raiseFlag_pgc .engineOverrun (refreshCause p (markDiscard p (s.setEntry p none)))
  have hflag := raiseFlag_sets .engineOverrun (refreshCause p (markDiscard p (s.setEntry p none)))
  simp only [overrun, he]
  generalize raiseFlag .engineOverrun (refreshCause p (markDiscard p (s.setEntry p none))) = raised at hser hpgc hflag
  rw [hmarked] at hser hpgc
  obtain ⟨-, -, hports, hcde, hral, hsmx, hsdp, hlsu, -, -, -, hvan, hhome, -⟩ := serene_eq hser
  have hprog : prog raised p = { prog s p with refreshOwed := true, causes := min ((prog s p).causes + 1) 65535 } := by
    rw [prog, hpgc]
    exact Table.get_modify_self ..
  refine Overran.completed (record := ((prog s p).state, (prog s p).remHold, (prog s p).openStop))
    ⟨?_, ?_, ?_, ?_, ?_, ?_, hflag, ⟨hports, hsmx, hsdp, hlsu⟩, ⟨hvan, hhome⟩⟩
  · exact (congrArg (fun r : Programme => (r.state, r.remHold, r.openStop)) hprog).trans rfl
  · exact congrArg Programme.refreshOwed hprog
  · exact Table.get_set_self ..
  · exact congrArg CodingLoop.carried (Table.get_modify_self ..)
  · refine (congrArg RateProg.fullness (Table.get_modify_self ..)).trans ?_
    simp only [rateOf, State.setEntry_ral, State.onLoop_ral, hral]
    rfl
  · intro b hb hp
    refine (congrArg Engine.band hcde).trans ?_
    simp [markDiscard, State.setEntry, hb, hp]

/-- The hold of a FREEZING programme after its overrun (R30). -/
theorem Overran.hold {rem : Nat} {stop : Option OpenCommand} (h : Overran p e s (.freezing, rem, stop) t) :
    Overran p e s (if rem ≤ 1 then (.ready, rem - 1, none) else (.freezing, rem - 1, stop)) (freezeHold c p t) := by
  obtain ⟨hstate, hrem, hstop⟩ : (prog t p).state = .freezing ∧ (prog t p).remHold = rem ∧ (prog t p).openStop = stop := by
    simpa using h.record
  have hlower : Overran p e s (.freezing, rem - 1, stop)
      (if 0 < rem then emitSkip p c (t.onProg p fun r => { r with remHold := r.remHold - 1 }) else t) := by
    split
    · exact (h.onProg rfl (by simp [hstate, hrem, hstop])).skip
    · have hzero : rem = 0 := by omega
      subst hzero
      exact h
  simp only [freezeHold, hstate, hrem, if_true]
  split
  · exact hlower.endStop _ _
  · exact hlower

end

section
variable {c : CodeStart} {p : Prog} {e : Entry} {s t : State}

/-- The overrun and the hold of a STOPPING or FREEZING programme: READY, or FREEZING with some of its hold left. -/
theorem overrun_stops (hfold : fold s p = p) (he : entryOf s p = some e)
    (hs : (prog s p).state = .stopping ∨ (prog s p).state = .freezing) :
    ∃ st rem stop, st = (if (prog s p).state = .stopping ∨ (prog s p).remHold ≤ 1 then ProgState.ready else .freezing) ∧
      (st = .ready ∨ st = .freezing) ∧ (st = .ready → stop = none) ∧
      Overran p e s (st, rem, stop) (freezeHold c p (overrun p s)) := by
  have hover := overrun_overran hfold he
  obtain hs | hs := hs
  · rw [if_pos hs] at hover
    have hready : (prog (overrun p s) p).state = .ready := congrArg Prod.fst hover.record
    rw [freezeHold_none (by simp [hready])]
    exact ⟨_, _, _, by simp [hs], .inl rfl, fun _ => rfl, hover⟩
  · rw [hs] at hover
    have hhold := Overran.hold (c := c) hover
    by_cases hrem : (prog s p).remHold ≤ 1
    · rw [if_pos hrem] at hhold
      exact ⟨_, _, _, by simp [hrem], .inl rfl, fun _ => rfl, hhold⟩
    · rw [if_neg hrem] at hhold
      exact ⟨_, _, _, by simp [hs, hrem], .inr rfl, by simp, hhold⟩

/-- The code start of a STOPPING or FREEZING programme whose picture is still in progress (R29, R30, R43). -/
theorem exec_overrun {st : ProgState} {rem : Nat} {stop : Option OpenCommand} (hq : Quiet s) (hd : codeStartDue s = some c)
    (ha : Alone p s) (ht : Overran p e (popped s) (st, rem, stop) (freezeHold c p (overrun p (popped s))))
    (hst : st = .ready ∨ st = .freezing) :
    ∃ t, exec .codeStart s = .next t ∧ Overran p e (popped s) (st, rem, stop) t := by
  have halone : Alone p (freezeHold c p (overrun p (popped s))) :=
    Alone.of_others (s := popped s) ha ((freezeHold_others p c _).trans (overrun_others p _))
  have hstate := congrArg Prod.fst ht.record
  have hcode : codeProgramme c p (freezeHold c p (overrun p (popped s))) = freezeHold c p (overrun p (popped s)) := by
    simp only at hstate
    obtain rfl | rfl := hst <;> exact codeProgramme_none (by simp [hstate]) (by simp [hstate])
  have hexec := exec_codeStart hd ha
  rw [hcode, startBand_none halone ht.entry, finish_empty (ht.waits.1.trans hq.2.1) (ht.waits.2.trans hq.2.2)] at hexec
  exact ⟨_, hexec, ht.settled⟩

theorem pictureReported_within {bits : Nat} (h : (rateOf s p).fullness + bits ≤ (rateOf s p).limit) :
    pictureReported p bits s = s.onRate p fun r => { r with fullness := r.fullness + bits } := by
  have hrate : rateOf (s.onRate p fun r => { r with fullness := r.fullness + bits }) p =
      { rateOf s p with fullness := (rateOf s p).fullness + bits } := Table.get_modify_self ..
  simp only [pictureReported, hrate, if_neg (Nat.not_lt.mpr h)]

/-- The state after an overrun whose bits fit the buffer, with room for the notice of its flag (R43, R58). -/
def overrunState (p : Prog) (e : Entry) (s : State) : State :=
  { s with
    pgc := { s.pgc with
      progs := s.pgc.progs.set p { prog s p with refreshOwed := true, causes := min ((prog s p).causes + 1) 65535 } }
    ral := { s.ral with
      progs := s.ral.progs.set p { rateOf s p with fullness := (rateOf s p).fullness + e.produced } }
    cde := { s.cde with
      entries := s.cde.entries.set p none
      band := s.cde.band.map fun b => if b.prog = p then { b with discard := true } else b
      loops := s.cde.loops.set p { loopOf s p with carried := e.loopQ } }
    cmu := flagRaised .engineOverrun s }

theorem prog_overrunState : prog (overrunState p e s) p =
    { prog s p with refreshOwed := true, causes := min ((prog s p).causes + 1) 65535 } := prog_of_set rfl

theorem rateOf_overrunState : rateOf (overrunState p e s) p =
    { rateOf s p with fullness := (rateOf s p).fullness + e.produced } := Table.get_set_self ..

theorem loopOf_overrunState : loopOf (overrunState p e s) p = { loopOf s p with carried := e.loopQ } :=
  Table.get_set_self ..

theorem overrun_within (hfold : fold s p = p) (he : entryOf s p = some e) (hs : (prog s p).state ≠ .stopping)
    (hwithin : (rateOf s p).fullness + e.produced ≤ (rateOf s p).limit) (hn : s.cmu.noticesHome = false)
    (hroom : s.cmu.notices.length < 32) : overrun p s = overrunState p e s := by
  have hmarked : refreshCause p (markDiscard p (s.setEntry p none)) =
      (markDiscard p (s.setEntry p none)).onProg p fun r => { r with refreshOwed := true, causes := min (r.causes + 1) 65535 } :=
    refreshCause_alone hfold
  have hstate : (prog (overrunState p e s) p).state ≠ .stopping := by
    rw [prog_overrunState]
    exact hs
  have hreported : pictureReported p e.produced (((raiseFlag .engineOverrun (refreshCause p
      (markDiscard p (s.setEntry p none)))).setEntry p none).onLoop p fun l => { l with carried := e.loopQ }) =
      overrunState p e s := by
    rw [hmarked, raiseFlag_raised (s := (markDiscard p (s.setEntry p none)).onProg p _) hn hroom]
    refine (pictureReported_within (by exact hwithin)).trans ?_
    change ({ overrunState p e s with
      cde := { (overrunState p e s).cde with entries := (s.cde.entries.set p none).set p none } } : State) = overrunState p e s
    rw [Table.set_set]
    rfl
  simp only [overrun, he, completePicture, hreported, if_neg hstate]

end

/-- Settles O27: the overrun of a stopping or freezing programme, and of a RUNNING one that goes on with an anchor. -/
theorem codeStart_endsAnOverrun : Obligations.CodeStart_EndsAnOverrun := by
  intro c p e s hq hd ha hodd he
  have hfold : fold s p = p := by simp [fold, hodd]
  refine ⟨fun hs => ?_, fun old v hs hwithin hpair hskip htarget hstore hv hold hclips hn hroom => ?_⟩
  · obtain ⟨st, rem, stop, hst, hor, hstop, hwork⟩ := overrun_stops (c := c) (s := popped s) hfold he hs
    obtain ⟨t, hexec, ht⟩ := exec_overrun hq hd ha hwork hor
    have hrecord := ht.record
    simp only [Prod.mk.injEq] at hrecord
    obtain ⟨hports, hsmx, hsdp, hlsu⟩ := ht.units
    exact ⟨t, hexec, hrecord.1.trans hst, fun hready => hrecord.2.2.trans (hstop (hrecord.1.symm.trans hready)),
      ht.owed, ht.entry, ht.carried, ht.fullness, ht.band, ht.flag, hports, hsmx, hsdp, hlsu⟩
  · have hover := overrun_within (s := popped s) hfold he (by simp [hs]) hwithin hn hroom
    have hrecord := prog_overrunState (p := p) (e := e) (s := popped s)
    have hrate := rateOf_overrunState (p := p) (e := e) (s := popped s)
    have hloop := loopOf_overrunState (p := p) (e := e) (s := popped s)
    have howed : (prog (overrunState p e (popped s)) p).refreshOwed = true := by rw [hrecord]
    have hrunning : (prog (overrunState p e (popped s)) p).state = .running := by rw [hrecord]; exact hs
    have htake := takePicture_last (s := overrunState p e (popped s)) (b := true) (by rw [hrecord]; exact hpair) hstore hv hold
    have hwork := decidePicture_begins (c := c) (m := s.clm) (by rw [hrecord]; exact hskip) htake
      (by rw [nextType_owed howed, pictureTarget, if_pos rfl, hrate]; exact htarget)
      (resolvesTo_none (s := overrunState p e (popped s)) hclips)
    have hcode := (codeProgramme_running (c := c) hrunning).trans hwork
    have halone : Alone p (codeProgramme c p (overrunState p e (popped s))) :=
      Alone.of_others (s := popped s) ha ((codeProgramme_others p c _).trans (hover ▸ overrun_others p _))
    have hexec := exec_codeStart hd ha
    rw [hover, freezeHold_none (by rw [hrunning]; simp), hcode] at hexec
    rw [hcode] at halone
    obtain ⟨cde, n, hband, hentry, hkeeps⟩ := startBand_keeps halone
      (entryOf_pictureTaken (s := overrunState p e (popped s)) (m := s.clm) (ports := s.ports) (cmu := s.cmu))
    rw [hband] at hexec
    rw [nextEntry_owed howed] at hentry
    refine ⟨_, _, settled_local hexec hq rfl rfl rfl, hentry, rfl, rfl, congrArg RateProg.anchorTarget hrate |>.trans rfl,
      rfl, rfl, (startQuant_congr hloop (congrArg Programme.cfg hrecord)).trans rfl, ?_,
      congrArg RateProg.fullness hrate |>.trans rfl,
      fun b hb hp => ?_, rfl, rfl, rfl, rfl⟩
    · refine (prog_of_set rfl).trans ?_
      rw [nextType_owed howed, hrecord]
      rfl
    · refine hkeeps _ (?_ : s.cde.band.map (fun b => if b.prog = p then { b with discard := true } else b) = _)
      simp [hb, hp]

end Sys2Proof.Machine
end


section
/-! PROOF. Fragments of the band in coding: closed, refused and one too many (R55, R57, R146, R148). -/

namespace Sys2Proof.Machine

section
variable {b : Band} {new : List (List Nat)} {rest : List Nat} {n : Nat} {s : State}

/-- With no band in coding, or one lost or marked for discard, a closed fragment changes nothing. -/
theorem closeFragment_idle (h : ∀ b, s.cde.band = some b → b.discard = true ∨ b.lost = true) : closeFragment n s = s := by
  simp only [closeFragment]
  split
  · rfl
  · rename_i b hb
    rw [if_pos (by simpa using h b hb)]

/-- The state in which the fragments `new` of the band `b` hold blocks since `s`, and `rest` is left of the free list. -/
def fragmentsHeld (b : Band) (new : List (List Nat)) (rest : List Nat) (s : State) : State :=
  { s with
    cde := { s.cde with band := some { b with frags := b.frags ++ new } }
    pkp := { s.pkp with
      free := rest
      owners := s.pkp.owners.modify (Owner.prog b.prog).idx fun r => { r with count := r.count + new.flatten.length } } }

theorem fragmentsHeld_none (hb : s.cde.band = some b) : fragmentsHeld b [] s.pkp.free s = s := by
  simp only [fragmentsHeld, List.append_nil, List.flatten_nil, List.length_nil, Nat.add_zero, Table.modify_id, ← hb]

/-- The state in which the band `b` has been lost since `s`, its fragments `new` the last that were granted (R55, R57). -/
def bandGone (b : Band) (new : List (List Nat)) (rest : List Nat) (refused : Bool) (s : State) : State :=
  { bandLost b new rest refused s with cde := { s.cde with band := some { b with frags := [], lost := true } } }

/-- The loss of the band in coding: its blocks return in fragment order and a refresh is owed (R34, R57). -/
theorem loseBand_eq (hf : fold s b.prog = b.prog) :
    loseBand b s = { s.onProg b.prog (fun r => { r with refreshOwed := true, causes := min (r.causes + 1) 65535 }) with
      cde := { s.cde with band := some { b with frags := [], lost := true } }
      pkp := { s.pkp with
        free := s.pkp.free ++ b.frags.flatten
        owners := s.pkp.owners.modify (Owner.prog b.prog).idx fun r =>
          { r with count := r.count - b.frags.flatten.length } } } := by
  simp only [loseBand, releaseBlocks_all]
  rw [refreshCause_alone (by exact hf)]
  rfl

/-- A fragment whose blocks are granted is held (R55, R148). -/
theorem closeFragment_granted (hd : b.discard = false) (hl : b.lost = false) (hn : (b.frags ++ new).length < 6)
    (hfree : n ≤ rest.length)
    (hcap : (s.pkp.owners.get (Owner.prog b.prog).idx).count + new.flatten.length + n ≤
      (s.pkp.owners.get (Owner.prog b.prog).idx).cap) :
    closeFragment n (fragmentsHeld b new rest s) = fragmentsHeld b (new ++ [rest.take n]) (rest.drop n) s := by
  have hgrant := grant_blocks (k := (fragmentsHeld b new rest s).pkp) (o := .prog b.prog) (n := n) hfree
    (by simpa [fragmentsHeld] using hcap)
  have hmax : ¬ Config.maxFragments ≤ (b.frags ++ new).length := Nat.not_le.mpr hn
  have hband : (fragmentsHeld b new rest s).cde.band = some { b with frags := b.frags ++ new } := rfl
  simp only [closeFragment, hband, hd, hl, Bool.or_self, Bool.false_eq_true, if_false, hmax, request, hgrant]
  simp [fragmentsHeld, State.setBand, State.onCde, hd, hl, Nat.min_eq_left hfree, Nat.add_assoc]

/-- A seventh fragment loses the band (R55). -/
theorem closeFragment_seventh (hd : b.discard = false) (hl : b.lost = false) (hn : 6 ≤ (b.frags ++ new).length)
    (hf : fold s b.prog = b.prog) :
    closeFragment n (fragmentsHeld b new rest s) = bandGone b new rest false s := by
  have hmax : Config.maxFragments ≤ (b.frags ++ new).length := hn
  have hband : (fragmentsHeld b new rest s).cde.band = some { b with frags := b.frags ++ new } := rfl
  simp only [closeFragment, hband, hd, hl, Bool.or_self, Bool.false_eq_true, if_false, hmax, if_true]
  rw [loseBand_eq (by exact hf)]
  simp [fragmentsHeld, bandGone, bandLost, hd]

/-- A refused fragment loses the band; the refusal is counted and sets POOL-REFUSED (R57, R148). -/
theorem closeFragment_refused (hd : b.discard = false) (hl : b.lost = false) (hn : (b.frags ++ new).length < 6)
    (hrefused : rest.length < n ∨ (s.pkp.owners.get (Owner.prog b.prog).idx).cap <
      (s.pkp.owners.get (Owner.prog b.prog).idx).count + new.flatten.length + n)
    (hhome : s.cmu.noticesHome = false) (hroom : s.cmu.notices.length < 32) (hf : fold s b.prog = b.prog) :
    closeFragment n (fragmentsHeld b new rest s) = bandGone b new rest true s := by
  have hrequest := request_refused (s := fragmentsHeld b new rest s) (o := .prog b.prog) (n := n)
    (by simpa [fragmentsHeld] using hrefused)
  have hmax : ¬ Config.maxFragments ≤ (b.frags ++ new).length := Nat.not_le.mpr hn
  have hband : (fragmentsHeld b new rest s).cde.band = some { b with frags := b.frags ++ new } := rfl
  simp only [closeFragment, hband, hd, hl, Bool.or_self, Bool.false_eq_true, if_false, hmax, hrequest]
  rw [raiseFlag_raised (by exact hhome) (by exact hroom), loseBand_eq (by exact hf)]
  simp [fragmentsHeld, bandGone, bandLost, hd, State.onPool, Pool.refuse, satInc]
  rfl

end

/-- Settles O29: no band to close for, a fragment granted, a seventh and a refused one. -/
theorem fragmentClose_requestsBlocks : Obligations.FragmentClose_RequestsBlocks := by
  intro s hq
  have hexec : exec .fragmentClose s = .next (finish (closeFragment 6 s)) := rfl
  refine ⟨fun hidle => ?_, fun b hb hd hl => ?_⟩
  · rw [hexec, closeFragment_idle hidle, finish_quiet hq]
  have hheld := fragmentsHeld_none hb
  refine ⟨fun hn hfree hcap => ?_, fun hn hf => ?_, fun hn hrefused hhome hroom hf => ?_⟩
  · have hwork := closeFragment_granted (s := s) (new := []) hd hl (by simpa using hn) hfree hcap
    rw [hheld] at hwork
    rw [hwork] at hexec
    rw [settled_local hexec hq rfl rfl rfl]
    simp [fragmentsHeld, Nat.min_eq_left hfree]
  · have hwork := closeFragment_seventh (s := s) (n := 6) (new := []) (rest := s.pkp.free) hd hl (by simpa using hn) hf
    rw [hheld] at hwork
    rw [hwork] at hexec
    rw [settled_local hexec hq rfl rfl rfl]
    simp [bandGone, bandLost]
  · have hwork := closeFragment_refused (s := s) (new := []) hd hl (by simpa using hn) hrefused hhome hroom hf
    rw [hheld] at hwork
    rw [hwork] at hexec
    refine ⟨_, settled_local hexec hq rfl rfl rfl, by simp [flagRec, bandGone, bandLost, flagRaised], ?_⟩
    simp [bandGone, bandLost]

end Sys2Proof.Machine
end

section
/-! PROOF. The last fragments of a band: its slice in pieces, and how the band closes (R54 to R57). -/

namespace Sys2Proof.Machine

/-! ### The slice in pieces (R54) -/

section
variable {coded : List Byte} {b : Band} {e e2 : Entry} {s t : State}

/-- The fragments' payloads: the slice cut into pieces of 1,312 bytes (R54). -/
def slicePieces (coded : List Byte) (b : Band) (e : Entry) : List (List Byte) :=
  chunks Config.fragmentBytes (ceilDiv (Config.sliceHeaderBytes + coded.length) Config.fragmentBytes)
    (sliceHeader b.band e.bands e.type.code e.method b.quant 1 (Config.sliceHeaderBytes + coded.length) ++ coded)

/-- The number of fragments of the slice. -/
def fragmentCount (coded : List Byte) : Nat := (8 + coded.length + 1311) / 1312

/-- The blocks of fragment `k` of the slice. -/
def fragmentBlocks (coded : List Byte) (k : Nat) : Nat := (16 + min 1312 (8 + coded.length - 1312 * k) + 255) / 256

theorem chunks_eq_map (k n : Nat) (l : List Byte) (h : n = 0 ∨ k * (n - 1) < l.length) :
    chunks k n l = (List.range n).map fun i => (l.drop (k * i)).take k := by
  induction n generalizing l with
  | zero => rfl
  | succ n ih =>
    have hrest : n = 0 ∨ k * (n - 1) < (l.drop k).length := by
      rcases Nat.eq_zero_or_pos n with hn | hn
      · exact .inl hn
      · obtain ⟨m, rfl⟩ := Nat.exists_eq_add_of_le' hn
        simp only [Nat.add_sub_cancel, Nat.mul_add, List.length_drop, Nat.add_eq_zero_iff, one_ne_zero, and_false,
          false_or] at h ⊢
        omega
    cases l with
    | nil => simp at h
    | cons a l =>
      simp only [chunks, ih _ hrest, List.range_succ_eq_map, List.map_cons, List.map_map, List.drop_drop, Nat.mul_zero,
        List.drop_zero]
      refine congrArg _ (List.map_congr_left fun i _ => ?_)
      simp only [Function.comp_apply, Nat.mul_succ, Nat.add_comm k]

@[simp] theorem sliceHeader_length (band bands type : Nat) (method : Method) (quant kind length : Nat) :
    (sliceHeader band bands type method quant kind length).length = 8 := by simp [sliceHeader, beBytes]

theorem slicePieces_eq : slicePieces coded b e = (List.range (fragmentCount coded)).map fun i =>
    ((sliceHeader b.band e.bands e.type.code e.method b.quant 1 (8 + coded.length) ++ coded).drop (1312 * i)).take 1312 := by
  refine chunks_eq_map 1312 (fragmentCount coded) _ (.inr ?_)
  simp only [fragmentCount, List.length_append, sliceHeader_length]
  omega

@[simp] theorem slicePieces_length : (slicePieces coded b e).length = fragmentCount coded := by simp [slicePieces_eq]

/-- The packets of the slice that the engine queues are those of its fragments (R54, R56). -/
theorem slicePackets_eq {frags : List (List Nat)} (hfrags : frags.length = fragmentCount coded) (hpic : e2.pic = e.pic)
    (htick : e2.tick = e.tick) (hcfg : (prog t b.prog).cfg = (prog s b.prog).cfg) :
    slicePackets t b.prog e2 b.band frags (slicePieces coded b e) = bandPackets coded b e s frags := by
  refine List.ext_getElem (by simp [slicePackets, bandPackets, hfrags]) fun i h1 h2 => ?_
  simp only [slicePackets, bandPackets, List.getElem_mapIdx, List.getElem_zip, slicePieces_length, picturePacket, hpic,
    htick, hcfg]
  simp only [slicePieces_eq, List.getElem_map, List.getElem_range, List.length_take, List.length_drop, List.length_append,
    sliceHeader_length]
  rfl

end

/-! ### The fragments not yet closed request their blocks (R55, R148) -/

section
variable {coded : List Byte} {b : Band} {e : Entry} {new : List (List Nat)} {rest : List Nat} {s : State}

/-- Fragments of `sizes` blocks are closed, one after another. -/
def closeFragments (sizes : List Nat) (s : State) : State := sizes.foldl (fun s n => closeFragment n s) s

theorem closeFragments_append (l m : List Nat) : closeFragments (l ++ m) s = closeFragments m (closeFragments l s) :=
  List.foldl_append

theorem closeFragments_idle (sizes : List Nat) (h : ∀ b, s.cde.band = some b → b.discard = true ∨ b.lost = true) :
    closeFragments sizes s = s := by
  induction sizes with
  | nil => rfl
  | cons n sizes ih => simpa only [closeFragments, List.foldl_cons, closeFragment_idle h] using ih

theorem closeFragments_gone (sizes : List Nat) (refused : Bool) :
    closeFragments sizes (bandGone b new rest refused s) = bandGone b new rest refused s :=
  closeFragments_idle sizes fun c hc => .inr (by rw [← Option.some.inj hc])

theorem closeFragments_granted (more : List (List Nat)) (hd : b.discard = false) (hl : b.lost = false)
    (hn : b.frags.length + new.length + more.length ≤ 6)
    (hcap : (s.pkp.owners.get (Owner.prog b.prog).idx).count + (new ++ more).flatten.length ≤
      (s.pkp.owners.get (Owner.prog b.prog).idx).cap) :
    closeFragments (more.map List.length) (fragmentsHeld b new (more.flatten ++ rest) s) =
      fragmentsHeld b (new ++ more) rest s := by
  induction more generalizing new with
  | nil => simp [closeFragments]
  | cons bs more ih =>
    simp only [List.length_cons, List.flatten_append, List.flatten_cons, List.length_append] at hn hcap
    have hone := closeFragment_granted (s := s) (new := new) (n := bs.length) (rest := (bs :: more).flatten ++ rest) hd hl
      (by rw [List.length_append]; omega) (by simp) (by omega)
    have hmore := ih (new := new ++ [bs]) (by simp; omega)
      (by simp only [List.append_assoc, List.flatten_append, List.length_append, List.flatten_cons, List.flatten_nil,
        List.length_nil]; omega)
    simp only [List.flatten_cons, List.append_assoc, List.take_left', List.drop_left', List.nil_append,
      List.cons_append] at hone hmore
    simpa only [closeFragments, List.map_cons, List.foldl_cons, List.flatten_cons, List.append_assoc, hone] using hmore

/-- The engine closes what it has not closed of the slice. -/
theorem closing_pieces (m : Nat) : ((slicePieces coded b e).drop m).foldl
      (fun s f => closeFragment (blocksFor (Config.packetHeaderBytes + f.length)) s) s =
    closeFragments ((List.range (fragmentCount coded - m)).map fun i => fragmentBlocks coded (m + i)) s := by
  have hdrop : (List.range (fragmentCount coded)).drop m = (List.range (fragmentCount coded - m)).map (m + ·) :=
    List.ext_getElem (by simp) (by simp)
  simp only [slicePieces_eq, ← List.map_drop, hdrop, closeFragments, List.foldl_map, List.length_take, List.length_drop,
    List.length_append, sliceHeader_length]
  rfl

/-- Of the fragments not yet closed, the first are granted their blocks, and the others are requested after them. -/
theorem closeFragments_grants {k : Nat} (hb : s.cde.band = some b) (hd : b.discard = false) (hl : b.lost = false)
    (hg : Grants coded b s new rest) (hn : b.frags.length + new.length ≤ 6) :
    closeFragments ((List.range (new.length + k)).map fun i => fragmentBlocks coded (b.frags.length + i)) s =
      closeFragments ((List.range k).map fun i => fragmentBlocks coded (b.frags.length + new.length + i))
        (fragmentsHeld b new rest s) := by
  obtain ⟨hfree, hsizes, hcap⟩ := hg
  have hgranted := closeFragments_granted (s := s) (new := []) (rest := rest) new hd hl (by simpa using hn) hcap
  rw [← hfree, fragmentsHeld_none hb, hsizes, List.nil_append] at hgranted
  rw [List.range_add, List.map_append, closeFragments_append, List.map_map]
  refine (congrArg _ hgranted).trans ?_
  simp only [Function.comp_def, Nat.add_assoc]

end

end Sys2Proof.Machine
end

section
/-! PROOF. What may follow a band: the bands that SHED emits and the end of the picture (R29, R51, R53, R58, R78), with the
take attempts that they leave owed and the notices that they queue. -/

namespace Sys2Proof.Machine

/-! ### Take attempts owed, and room for the notices -/

section
variable {f : EventFlag} {i : Instr} {n : Nat} {w : Bool} {s t : State}

/-- The state in which every link is owed a take attempt if `w` holds. -/
def owing (w : Bool) (s : State) : State := { s with hsc := if w then (oweAll s).hsc else s.hsc }

theorem oweAll_owing : oweAll (owing w s) = owing true s := by
  cases w
  · rfl
  · have hlinks : ((s.hsc.links.map fun k => { k with owed := true }).map fun k => { k with owed := true }) =
        s.hsc.links.map fun k => { k with owed := true } := Table.ext_get fun l => by simp
    simp only [owing, oweAll, State.onHsc, if_true, hlinks]

theorem settled_owing (h : exec i s = .next (finish (owing w t))) (hq : Quiet s) (hl : NoLinkTakes s) (hhsc : t.hsc = s.hsc)
    (hlsu : t.lsu = s.lsu) (hvan : t.cmu.van = s.cmu.van) (hhome : t.cmu.home = s.cmu.home) : exec i s = .next t := by
  cases w
  · exact settled_local h hq hhsc hvan hhome
  · exact settled_owed h hq hl hhsc hlsu hvan hhome

/-- Notices go to the ring alone, and the notice queue has room for `n` of them and one of POOL-REFUSED. -/
structure Room (n : Nat) (s : State) : Prop where
  home : s.cmu.noticesHome = false
  notices : s.cmu.notices.length + n + (if (flagRec s .poolRefused).set then 0 else 1) ≤ 32

theorem Room.of_cmu (h : Room n s) (hcmu : t.cmu = s.cmu) : Room n t := by
  obtain ⟨hhome, hnotices⟩ := h
  exact ⟨by rwa [hcmu], by rwa [flagRec, hcmu]⟩

theorem Room.notices_lt (h : Room (n + 1) s) : s.cmu.notices.length < 32 := by
  have := h.notices
  omega

theorem notices_flagRaised : (flagRaised f s).notices.length =
    s.cmu.notices.length + if (flagRec s f).set then 0 else 1 := by
  cases h : (s.cmu.flags.get f.idx).set <;> simp [flagRaised, flagRec, h]

/-- A flag that is raised takes the room of one notice. -/
theorem Room.raised (h : Room (n + 1) s) : Room n { s with cmu := flagRaised f s } := by
  obtain ⟨hhome, hnotices⟩ := h
  refine ⟨hhome, ?_⟩
  have hlength := notices_flagRaised (f := f) (s := s)
  have hkept : (flagRec s .poolRefused).set = true → (flagRec { s with cmu := flagRaised f s } .poolRefused).set = true := by
    intro hset
    by_cases hf : f = .poolRefused
    · simp [flagRec, flagRaised, hf]
    · simpa only [flagRec, flagRaised, Table.get_set_ne _ _ fun he => hf (EventFlag.idx_inj he)] using hset
  cases hset : (flagRec s .poolRefused).set with
  | true =>
    simp only [hset, hkept hset, hlength, if_true] at hnotices ⊢
    split <;> omega
  | false =>
    simp only [hset, hlength, Bool.false_eq_true, if_false] at hnotices ⊢
    split <;> split <;> omega

/-- However often POOL-REFUSED is raised, it takes its own room. -/
theorem Room.refused (h : Room n s) : Room n { s with cmu := flagRaised .poolRefused s } := by
  obtain ⟨hhome, hnotices⟩ := h
  refine ⟨hhome, ?_⟩
  have hset : (flagRec { s with cmu := flagRaised .poolRefused s } .poolRefused).set = true := by simp [flagRec, flagRaised]
  simp only [hset, notices_flagRaised, if_true]
  omega

theorem raiseFlag_owing (h : Room (n + 1) s) : raiseFlag f (owing w s) = owing w { s with cmu := flagRaised f s } :=
  raiseFlag_raised (s := owing w s) h.home h.notices_lt

end

/-! ### The bands that SHED emits (R53) -/

section
variable {p : Prog} {e : Entry} {pic : Pic} {tick : Tick} {band n : Nat} {header : List Byte} {w : Bool} {s t : State}

/-- A header slice whose block is granted joins the PICTURE queue (R46, R53). -/
theorem emitHeader_granted (hfree : 1 ≤ s.pkp.free.length)
    (hcap : (s.pkp.owners.get (Owner.prog p).idx).count + 1 ≤ (s.pkp.owners.get (Owner.prog p).idx).cap) :
    emitHeader p pic tick band header (owing w s) = owing true { s with
      pkp := { s.pkp with
        free := s.pkp.free.drop 1
        owners := s.pkp.owners.modify (Owner.prog p).idx fun r => { r with count := r.count + 1 }
        picture := s.pkp.picture ++ [picturePacket s p pic tick band 1 1 (s.pkp.free.take 1) header] } } := by
  have hgrant := grant_blocks (k := (owing w s).pkp) (o := .prog p) hfree hcap
  simp only [emitHeader, request, hgrant]
  exact oweAll_owing (s := { s with pkp := _ })

/-- A header slice whose block is refused is lost (R53, R57). -/
theorem emitHeader_refused (hr : Room (n + 1) s) (hf : fold s p = p) (hrefused : s.pkp.free.length < 1 ∨
      (s.pkp.owners.get (Owner.prog p).idx).cap < (s.pkp.owners.get (Owner.prog p).idx).count + 1) :
    emitHeader p pic tick band header (owing w s) = owing w (skipBandLost p s) := by
  have hrequest := request_refused (s := owing w s) (o := .prog p) hrefused
  have hroom := hr.of_cmu (t := s.onPool fun k => k.refuse (.prog p)) rfl
  simp only [emitHeader, hrequest]
  refine (congrArg (refreshCause p) (raiseFlag_owing (w := w) hroom)).trans ?_
  exact refreshCause_alone hf

/-- The slices of the bands after the first `done` are emitted: `n` of them (R53). -/
def emitBands (p : Prog) (e : Entry) (done n : Nat) (s : State) : State :=
  (List.range n).foldl (fun s i => emitHeader p e.pic e.tick (done + i + 1)
    (sliceHeader (done + i + 1) e.bands e.type.code e.method 0 2 8) s) s

theorem emitBands_succ (done : Nat) : emitBands p e done (n + 1) s =
    emitHeader p e.pic e.tick (done + n + 1) (sliceHeader (done + n + 1) e.bands e.type.code e.method 0 2 8)
      (emitBands p e done n s) := by
  simp only [emitBands, List.range_succ, List.foldl_append, List.foldl_cons, List.foldl_nil]

theorem shedPicture_eq (h : e.done ≤ e.bands) : shedPicture p e s =
    if e.type = .anchor then refreshCause p (completePicture p e (emitBands p e e.done (e.bands - e.done) s))
    else completePicture p e (emitBands p e e.done (e.bands - e.done) s) := by
  have hleft : (List.range e.bands).filter (fun k => e.done ≤ k) = (List.range (e.bands - e.done)).map (e.done + ·) := by
    obtain ⟨n, hn⟩ := Nat.exists_eq_add_of_le h
    rw [hn, Nat.add_sub_cancel_left, List.range_add, List.filter_append, List.filter_eq_nil_iff.mpr,
      List.filter_eq_self.mpr, List.nil_append]
    · simp
    · simp
  simp only [shedPicture, hleft, List.foldl_map, emitBands]
  rfl

/-- The packet of the skip-band slice after the first `done + i` bands, which holds block `i` of the free list. -/
def skipBandPacket (p : Prog) (e : Entry) (done : Nat) (s : State) (i : Nat) : Packet where
  kind := .picture
  owner := some (.prog p)
  subject := some p.val
  number := e.pic
  band := done + i + 1
  stamp := e.tick
  deadline := some (e.tick + BitVec.ofNat 32 ((prog s p).cfg.delay * 48))
  size := 24
  blocks := (s.pkp.free.drop i).take 1
  payload := sliceHeader (done + i + 1) e.bands e.type.code e.method 0 2 8

/-- The state in which the pool has granted the slices of `g` bands after the first `done`. -/
def skipBandsQueued (p : Prog) (e : Entry) (done g : Nat) (s : State) : State :=
  { s with
    pkp := { s.pkp with
      free := s.pkp.free.drop g
      owners := s.pkp.owners.modify (Owner.prog p).idx fun r => { r with count := r.count + g }
      picture := s.pkp.picture ++ (List.range g).map (skipBandPacket p e done s) } }

theorem emitBands_granted (done : Nat) {g : Nat} (hfree : g ≤ s.pkp.free.length)
    (hcap : (s.pkp.owners.get (Owner.prog p).idx).count + g ≤ (s.pkp.owners.get (Owner.prog p).idx).cap) :
    ∃ w', emitBands p e done g (owing w s) = owing w' (skipBandsQueued p e done g s) := by
  induction g with
  | zero => exact ⟨w, by simp [emitBands, skipBandsQueued]⟩
  | succ g ih =>
    obtain ⟨w', hbefore⟩ := ih (by omega) (by omega)
    refine ⟨true, ?_⟩
    rw [emitBands_succ, hbefore, emitHeader_granted (by simp [skipBandsQueued]; omega)
      (by simp only [skipBandsQueued, Table.get_modify_self]; omega)]
    simp only [skipBandsQueued, List.range_succ, List.map_append, List.append_assoc, List.drop_drop, Table.modify_modify,
      Nat.add_assoc, List.map_cons, List.map_nil]
    rfl

/-- What stays the same while slices are refused: the room, what the number stands for, and the pool's answer. -/
structure Refuses (p : Prog) (n : Nat) (s : State) : Prop where
  room : Room (n + 1) s
  fold : fold s p = p
  refused : s.pkp.free.length < 1 ∨
    (s.pkp.owners.get (Owner.prog p).idx).cap < (s.pkp.owners.get (Owner.prog p).idx).count + 1

theorem fold_skipBandLost (q : Prog) : Machine.fold (skipBandLost p s) q = Machine.fold s q :=
  fold_onProg (s := s) (f := fun r => { r with refreshOwed := true, causes := min (r.causes + 1) 65535 }) (fun _ => rfl) p q

theorem Refuses.lost (h : Refuses p n s) : Refuses p n (skipBandLost p s) := by
  obtain ⟨hroom, hfold, hrefused⟩ := h
  exact ⟨hroom.refused.of_cmu rfl, (fold_skipBandLost p).trans hfold, by simpa [skipBandLost] using hrefused⟩

theorem Refuses.iterate (h : Refuses p n s) (m : Nat) : Refuses p n ((skipBandLost p)^[m] s) := by
  induction m with
  | zero => exact h
  | succ m ih => rw [Function.iterate_succ_apply']; exact ih.lost

theorem emitBands_refused {done g m : Nat} {w' : Bool} (h : 0 < m → Refuses p n t)
    (hbefore : emitBands p e done g (owing w s) = owing w' t) :
    emitBands p e done (g + m) (owing w s) = owing w' ((skipBandLost p)^[m] t) := by
  induction m with
  | zero => exact hbefore
  | succ m ih =>
    obtain ⟨hroom, hfold, hrefused⟩ := (h (Nat.succ_pos m)).iterate m
    rw [← Nat.add_assoc, emitBands_succ, ih fun _ => h (Nat.succ_pos m), emitHeader_refused hroom hfold hrefused,
      Function.iterate_succ_apply']

/-- SHED emits every band that is left, each where a block is granted (R53). -/
theorem Sheds.emitted {done : Nat} (h : Sheds p e done s t) (hr : Room (n + 1) s) (hf : fold s p = p) :
    ∃ w', emitBands p e done (e.bands - done) (owing w s) = owing w' t := by
  obtain ⟨g, hbands, hfree, hcap, hlast, rfl⟩ := h
  obtain ⟨w', hgranted⟩ := emitBands_granted (e := e) (w := w) done hfree hcap
  have hrefuses : 0 < e.bands - (done + g) → Refuses p n (skipBandsQueued p e done g s) := by
    refine fun hmore => ⟨hr.of_cmu rfl, hf, ?_⟩
    simp only [skipBandsQueued, Table.get_modify_self, List.length_drop]
    omega
  have hemitted := emitBands_refused hrefuses hgranted
  rw [show g + (e.bands - (done + g)) = e.bands - done by omega] at hemitted
  exact ⟨w', hemitted⟩

/-- The loss of slices does not read the engine. -/
theorem Sheds.withCde {done : Nat} (h : Sheds p e done s t) (cde : Engine) :
    Sheds p e done { s with cde := cde } { t with cde := cde } := by
  obtain ⟨g, hbands, hfree, hcap, hlast, rfl⟩ := h
  refine ⟨g, hbands, hfree, hcap, hlast, ?_⟩
  have hcommutes : Function.Semiconj (fun u : State => { u with cde := cde }) (skipBandLost p) (skipBandLost p) := fun _ => rfl
  exact hcommutes.iterate_right _ _

/-- What the loss of a band, the loss of slices and the flags that go with them leave alone. -/
structure Steady (p : Prog) (n : Nat) (s t : State) : Prop where
  calm : t.calm = s.calm
  hsc : t.hsc = s.hsc
  fold : fold t p = p
  room : Room n t

theorem Steady.refl (hr : Room n s) (hf : Machine.fold s p = p) : Steady p n s s := ⟨rfl, rfl, hf, hr⟩

theorem refreshed_calm (h : Machine.fold s p = p) :
    (s.onProg p fun r => { r with refreshOwed := true, causes := min (r.causes + 1) 65535 }).calm = s.calm := by
  rw [← refreshCause_alone h, refreshCause_calm]

theorem Steady.raised {u : State} (h : Steady p (n + 1) u s) (f : EventFlag) : Steady p n u { s with cmu := flagRaised f s } :=
  ⟨h.calm, h.hsc, h.fold, h.room.raised⟩

theorem Steady.withPool {u : State} (h : Steady p n u s) (k : Pool) : Steady p n u { s with pkp := k } :=
  ⟨h.calm, h.hsc, h.fold, h.room.of_cmu rfl⟩

theorem Steady.skipBandLost {u : State} (h : Steady p n u s) : Steady p n u (skipBandLost p s) :=
  ⟨(refreshed_calm h.fold).trans h.calm, h.hsc, (fold_skipBandLost p).trans h.fold, h.room.refused.of_cmu rfl⟩

theorem Sheds.steady {u : State} {done : Nat} (h : Sheds p e done s t) (hs : Steady p n u s) : Steady p n u t := by
  obtain ⟨g, -, -, -, -, rfl⟩ := h
  have hlost : ∀ m v, Steady p n u v → Steady p n u ((Machine.skipBandLost p)^[m] v) := by
    intro m
    induction m with
    | zero => exact fun _ hv => hv
    | succ m ih => exact fun v hv => ih _ hv.skipBandLost
  exact hlost _ _ (hs.withPool _)

end

/-! ### The end of the picture (R51, R58, R78) -/

section
variable {p : Prog} {e : Entry} {pic : Pic} {bits n : Nat} {overflows stops : Bool} {s : State}

/-- The Command Unit once a picture has been reported (R78). -/
def reportedCmu (overflows : Bool) (s : State) : CommandUnit := if overflows then flagRaised .bufferOverflow s else s.cmu

/-- The notice owed to a FINISH (R29). -/
def finishTold (p : Prog) (pic : Pic) (stops : Bool) (s : State) : List Notice :=
  if stops then (prog s p).openStop.toList.map fun o => {
    body := .programme p .ready pic (some .finish), answers := some o, tick := s.tbu.tick, pic := s.tbu.pic }
  else []

/-- A picture of `bits` bits that overflows the buffer is reported (R78). -/
theorem pictureReported_overflows (hr : Room (n + 1) s) (h : (rateOf s p).limit < (rateOf s p).fullness + bits) :
    pictureReported p bits s = { s with
      cmu := flagRaised .bufferOverflow s
      pgc := { s.pgc with progs := s.pgc.progs.modify p fun r => { r with skipNext := true } }
      ral := { s.ral with progs := s.ral.progs.modify p fun r => { r with fullness := r.fullness + bits } } } := by
  have hrate : rateOf (s.onRate p fun r => { r with fullness := r.fullness + bits }) p =
      { rateOf s p with fullness := (rateOf s p).fullness + bits } := Table.get_modify_self ..
  simp only [pictureReported, hrate, if_pos h]
  exact raiseFlag_raised hr.home hr.notices_lt

/-- A picture of `bits` bits is reported (R78). -/
theorem pictureReported_eq (hr : Room (n + 1) s)
    (ho : overflows = true ↔ (rateOf s p).limit < (rateOf s p).fullness + bits) :
    pictureReported p bits s = { s with
      cmu := reportedCmu overflows s
      pgc := { s.pgc with progs := s.pgc.progs.modify p fun r => { r with skipNext := r.skipNext || overflows } }
      ral := { s.ral with progs := s.ral.progs.modify p fun r => { r with fullness := r.fullness + bits } } } := by
  cases overflows with
  | false =>
    rw [pictureReported_within (by simpa using ho)]
    simp [reportedCmu, State.onRate, State.onRal]
  | true =>
    rw [pictureReported_overflows hr (ho.mp rfl)]
    simp [reportedCmu]

theorem reportedCmu_room (hr : Room (n + 2) s) :
    (reportedCmu overflows s).noticesHome = false ∧ (reportedCmu overflows s).notices.length < 32 := by
  cases overflows with
  | false => exact ⟨hr.home, hr.notices_lt⟩
  | true => exact ⟨hr.raised.home, (hr.raised (f := .bufferOverflow)).notices_lt⟩

/-- The end of a FINISH, where the programme is STOPPING (R29). -/
theorem endStop_if_stopping (hr : s.cmu.noticesHome = false ∧ s.cmu.notices.length < 32)
    (hvan : ∀ o, (prog s p).openStop = some o → o.origin = .van) (hs : stops = true ↔ (prog s p).state = .stopping) :
    (if (prog s p).state = .stopping then endStop p .finish pic s else s) = { s with
      cmu := { s.cmu with notices := s.cmu.notices ++ finishTold p pic stops s }
      pgc := { s.pgc with
        progs := s.pgc.progs.modify p fun r => { r with
          state := if stops then .ready else r.state
          openStop := if stops then none else r.openStop } } } := by
  cases stops with
  | false =>
    rw [if_neg (by simpa using hs)]
    simp [finishTold]
  | true =>
    rw [if_pos (hs.mp rfl), endStop_plain p .finish pic fun o ho => ⟨hvan o ho, hr⟩]
    cases ho : (prog s p).openStop <;> simp [finishTold, ho]

/-- A picture completes (R29, R51, R58). -/
theorem completePicture_eq (hr : Room (n + 2) s) (hvan : ∀ o, (prog s p).openStop = some o → o.origin = .van)
    (ho : overflows = true ↔ (rateOf s p).limit < (rateOf s p).fullness + e.produced)
    (hs : stops = true ↔ (prog s p).state = .stopping) :
    completePicture p e s = { s with
      cmu := { reportedCmu overflows s with
        notices := (reportedCmu overflows s).notices ++ finishTold p e.pic stops s }
      pgc := { s.pgc with
        progs := s.pgc.progs.modify p fun r => { r with
          skipNext := r.skipNext || overflows
          state := if stops then .ready else r.state
          openStop := if stops then none else r.openStop } }
      ral := { s.ral with progs := s.ral.progs.modify p fun r => { r with fullness := r.fullness + e.produced } }
      cde := { s.cde with
        entries := s.cde.entries.set p none
        loops := s.cde.loops.modify p fun l => { l with carried := e.loopQ } } } := by
  have hreported := pictureReported_eq (s := (s.setEntry p none).onLoop p fun l => { l with carried := e.loopQ })
    (hr.of_cmu rfl) ho
  simp only [completePicture, hreported]
  refine (endStop_if_stopping (stops := stops) (reportedCmu_room hr) ?_ ?_).trans ?_
  · simpa [prog] using hvan
  · simpa [prog] using hs
  · simp only [finishTold, prog, Table.get_modify_self, Table.modify_modify]
    rfl

end

end Sys2Proof.Machine
end

section
/-! PROOF. The end of a band: its slice queued or lost, the quantiser loop, the limit, and what follows (R42, R50 to R59, R78). -/

namespace Sys2Proof.Machine

/-! ### The last fragments closed (R54 to R57) -/

section
variable {coded : List Byte} {b c : Band} {e e1 e2 : Entry} {new : List (List Nat)} {rest : List Nat} {bits n : Nat}
  {refused strikes : Bool} {s base : State}

/-- The band `c` that closing the last fragments of `b` leaves in the coder, and the state `base` in which its packets have
joined the PICTURE queue. -/
structure ClosedAs (coded : List Byte) (b c : Band) (e : Entry) (n : Nat) (s base : State) (bits : Nat) : Prop where
  closed : closeFragments ((List.range (fragmentCount coded - b.frags.length)).map fun i =>
      fragmentBlocks coded (b.frags.length + i)) s =
    { base with cde := { s.cde with band := some c }, pkp := { base.pkp with picture := s.pkp.picture } }
  bits : bits = if c.lost then 0 else 8 * coded.length
  queue : base.pkp.picture = s.pkp.picture ++ if c.lost then [] else bandPackets coded b e s c.frags
  whole : c.lost = false → c.frags.length = fragmentCount coded
  steady : Steady b.prog n s base

theorem steady_bandLost (hr : Room n s) (hf : fold s b.prog = b.prog) :
    Steady b.prog n s (bandLost b new rest refused s) := by
  have hcalm := refreshed_calm hf
  have hfold := (fold_onProg (s := s) (f := fun r => { r with refreshOwed := true, causes := min (r.causes + 1) 65535 })
    (fun _ => rfl) b.prog b.prog).trans hf
  cases refused
  · exact ⟨hcalm, rfl, hfold, hr.of_cmu rfl⟩
  · exact ⟨hcalm, rfl, hfold, hr.refused.of_cmu rfl⟩

/-- Every way in which a band closes. -/
theorem BandCloses.closedAs (h : BandCloses coded b e s base bits) (hb : s.cde.band = some b) (hd : b.discard = false)
    (hr : Room (n + 1) s) (hf : fold s b.prog = b.prog) : ∃ c, ClosedAs coded b c e (n + 1) s base bits := by
  cases h with
  | @queued new rest hl hg hall hmax =>
    refine ⟨{ b with frags := b.frags ++ new }, ⟨?_, by simp [hl], by simp [hl], fun _ => by simp [← hall, fragmentCount],
      (Steady.refl hr hf).withPool _⟩⟩
    have hcount : fragmentCount coded - b.frags.length = new.length + 0 := by simp only [fragmentCount]; omega
    rw [hcount, closeFragments_grants hb hd hl hg (by omega)]
    rfl
  | @refused new rest k hl hg hmore hmax hk hrefused =>
    refine ⟨{ b with frags := [], lost := true }, ⟨?_, rfl, by simp [bandLost], by simp, steady_bandLost hr hf⟩⟩
    obtain ⟨m, hm⟩ := Nat.exists_eq_add_of_lt hmore
    have hcount : fragmentCount coded - b.frags.length = new.length + (m + 1) := by simp only [fragmentCount]; omega
    rw [hcount, closeFragments_grants hb hd hl hg (by omega), List.range_succ_eq_map, List.map_cons, Nat.add_zero,
      closeFragments, List.foldl_cons, closeFragment_refused hd hl (by rw [List.length_append]; omega) (by rwa [hk] at hrefused)
      hr.home hr.notices_lt hf]
    exact closeFragments_gone _ _
  | @seventh new rest hl hg hsix hmore =>
    refine ⟨{ b with frags := [], lost := true }, ⟨?_, rfl, by simp [bandLost], by simp, steady_bandLost hr hf⟩⟩
    obtain ⟨m, hm⟩ := Nat.exists_eq_add_of_lt hmore
    have hcount : fragmentCount coded - b.frags.length = new.length + (m + 1) := by simp only [fragmentCount]; omega
    rw [hcount, closeFragments_grants hb hd hl hg (by omega), List.range_succ_eq_map, List.map_cons, Nat.add_zero,
      closeFragments, List.foldl_cons, closeFragment_seventh hd hl (by rw [List.length_append]; omega) hf]
    exact closeFragments_gone _ _
  | lost hl =>
    refine ⟨b, ⟨?_, by simp [hl], by simp [hl], by simp [hl], Steady.refl hr hf⟩⟩
    rw [closeFragments_idle _ fun c hc => .inr (by rw [← Option.some.inj (hb.symm.trans hc)]; exact hl), ← hb]

/-! ### The entry after the band, and what follows (R50, R52, R53) -/

/-- The Command Unit once the band limit has been tested (R52). -/
def limitedCmu (strikes : Bool) (s : State) : CommandUnit := if strikes then flagRaised .bandLimited s else s.cmu

/-- The state in which the band has left the coder and its entry is `e2`. -/
def bandLeft (p : Prog) (e2 : Entry) (strikes : Bool) (s : State) : State :=
  { s with
    cmu := limitedCmu strikes s
    cde := { s.cde with entries := s.cde.entries.set p (some e2), band := none } }

/-- What follows the band: SHED, the end of the picture, or neither (R53, R58). -/
def afterBand (p : Prog) (shed : Bool) (e2 : Entry) (s : State) : State :=
  if shed then shedPicture p e2 s else if e2.bands ≤ e2.done then completePicture p e2 s else s

/-- The entry once the band limit has been tested (R52). -/
def limitedEntry (cfg : ProgConfig) (strikes : Bool) (e : Entry) : Entry :=
  if strikes then { e with struck := true, codingQ := if cfg.action = .coarsen then cfg.qMax else e.codingQ } else e

theorem raise_limited (hr : Room (n + 1) s) :
    (if strikes then raiseFlag .bandLimited s else s) = { s with cmu := limitedCmu strikes s } := by
  cases strikes
  · rfl
  · exact raiseFlag_raised hr.home hr.notices_lt

/-- The band leaves the coder and, unless it is lost, its packets join the PICTURE queue. -/
theorem ClosedAs.queued (h : ClosedAs coded b c e (n + 1) s base bits) (hpic : e2.pic = e.pic) (htick : e2.tick = e.tick) :
    (if c.lost then bandLeft b.prog e2 strikes { base with cde := s.cde, pkp := { base.pkp with picture := s.pkp.picture } }
      else appendPackets .picture (slicePackets
        (bandLeft b.prog e2 strikes { base with cde := s.cde, pkp := { base.pkp with picture := s.pkp.picture } })
        b.prog e2 b.band c.frags (slicePieces coded b e))
        (bandLeft b.prog e2 strikes { base with cde := s.cde, pkp := { base.pkp with picture := s.pkp.picture } })) =
      owing (!c.lost) (bandLeft b.prog e2 strikes base) := by
  obtain ⟨-, -, hqueue, hwhole, hsteady⟩ := h
  obtain ⟨-, -, -, hcde, -, -, -, -, -, -, -, hprogs, -⟩ := calm_eq hsteady.calm
  cases hl : c.lost with
  | true =>
    rw [hl, if_pos rfl, List.append_nil] at hqueue
    rw [if_pos rfl, ← hqueue, ← hcde]
    rfl
  | false =>
    rw [hl, if_neg Bool.false_ne_true] at hqueue
    have hcfg : (prog base b.prog).cfg = (prog s b.prog).cfg := by rw [exceptMarks_of hprogs b.prog]
    have hpackets := slicePackets_eq (b := b) (t := bandLeft b.prog e2 strikes { base with
      cde := s.cde, pkp := { base.pkp with picture := s.pkp.picture } }) (hwhole hl) hpic htick hcfg
    rw [if_neg Bool.false_ne_true, hpackets, ← hcde]
    simp only [appendPackets, State.onPool, Pool.queue, Pool.setQueue, bandLeft, ← hqueue]
    rfl

/-- The band's completion, from what closing its last fragments came to (R42, R50 to R58). -/
theorem ClosedAs.completes (h : ClosedAs coded b c e (n + 1) s base bits)
    (hentry : stepEntry e bits (prog s b.prog).cfg.qMin (prog s b.prog).cfg.qMax = e1)
    (hpic : e1.pic = e.pic) (htick : e1.tick = e.tick) (hstrikes : limitStrikes e1 (prog s b.prog).cfg.action = strikes) :
    completeBand b e coded s = startBand (afterBand b.prog (strikes && (prog s b.prog).cfg.action == .shed)
      (limitedEntry (prog s b.prog).cfg strikes e1)
      (owing (!c.lost) (bandLeft b.prog (limitedEntry (prog s b.prog).cfg strikes e1) strikes base))) := by
  have hsame : (limitedEntry (prog s b.prog).cfg strikes e1).pic = e.pic ∧
      (limitedEntry (prog s b.prog).cfg strikes e1).tick = e.tick := by
    cases strikes <;> exact ⟨hpic, htick⟩
  have hclosing := (closing_pieces (coded := coded) (b := b) (e := e) (s := s) b.frags.length).trans h.closed
  have hqueued := h.queued (strikes := strikes) hsame.1 hsame.2
  have hraised := raise_limited (strikes := strikes) (n := n) (s := (({ base with
    cde := { s.cde with band := some c }, pkp := { base.pkp with picture := s.pkp.picture } } : State).setEntry b.prog
      (some (limitedEntry (prog s b.prog).cfg strikes e1))).setBand none) (h.steady.room.of_cmu rfl)
  have hbits := h.bits
  subst hbits
  simp only [slicePieces] at hclosing hqueued
  simp only [completeBand, hclosing, Option.map_some, Option.getD_some, hentry, hstrikes]
  simp only [limitedEntry] at *
  rw [hraised]
  exact congrArg (fun t => startBand (afterBand b.prog _ _ t)) hqueued

/-- The loop quantiser moves by the table of R50 unless the limit has struck before. -/
theorem stepEntry_eq {q coding qMin qMax : Nat} {u d : Int} (hu : u = (max 1 (e.target / (4 * e.bands)) : Nat))
    (hd : d = ((e.produced + bits : Nat) : Int) - (e.target * (e.done + 1) / e.bands : Nat))
    (hq : if e.struck then q = e.loopQ ∧ coding = e.codingQ else
      coding = q ∧ (q : Int) = min (qMax : Int) (max (qMin : Int) ((e.loopQ : Int) +
        (if 2 * u < d then 2 else if u < d then 1 else if -u ≤ d then 0 else if -(2 * u) ≤ d then -1 else -2)))) :
    stepEntry e bits qMin qMax =
      { e with produced := e.produced + bits, done := e.done + 1, loopQ := q, codingQ := coding } := by
  cases hstruck : e.struck with
  | true =>
    obtain ⟨rfl, rfl⟩ : q = e.loopQ ∧ coding = e.codingQ := by simpa only [hstruck, if_true] using hq
    simp only [stepEntry, hstruck, if_true]
  | false =>
    simp only [hstruck, Bool.false_eq_true, if_false] at hq
    obtain ⟨rfl, hq⟩ := hq
    have hquant : loopQuant e.loopQ (loopMove (e.produced + bits) e.target (e.done + 1) e.bands) qMin qMax = coding := by
      subst hu hd
      exact (congrArg Int.toNat hq.symm).trans (Int.toNat_natCast coding)
    simp only [stepEntry, hstruck, Bool.false_eq_true, if_false, hquant]

theorem limitStrikes_iff {action : LimitAction} : limitStrikes e action = true ↔
    e.done < e.bands ∧ e.struck = false ∧ e.limit < e.produced ∧ action ≠ .off := by
  simp [limitStrikes, and_assoc]

theorem limitedEntry_eq (cfg : ProgConfig) : limitedEntry cfg strikes e = { e with
    struck := e.struck || strikes
    codingQ := if strikes = true ∧ cfg.action = .coarsen then cfg.qMax else e.codingQ } := by
  cases strikes <;> simp [limitedEntry]

end

/-! ### The end of the picture, with SHED or without (R53, R58) -/

section
variable {p : Prog} {e : Entry} {n : Nat} {w shed overflows stops : Bool} {s t last : State}

/-- The programme's record once its picture has ended; `refreshes` if the shed picture was an anchor (R29, R53, R78). -/
def endedRecord (overflows stops refreshes : Bool) (r : Programme) : Programme :=
  { r with
    skipNext := r.skipNext || overflows
    state := if stops then .ready else r.state
    openStop := if stops then none else r.openStop
    refreshOwed := r.refreshOwed || refreshes
    causes := if refreshes then min (r.causes + 1) 65535 else r.causes }

theorem endedRecord_plain : endedRecord overflows stops false = fun r => { r with
    skipNext := r.skipNext || overflows
    state := if stops then .ready else r.state
    openStop := if stops then none else r.openStop } := by
  funext r
  simp [endedRecord]

/-- The state in which the picture `e` has ended. -/
def pictureEnded (p : Prog) (e : Entry) (overflows stops refreshes : Bool) (s : State) : State :=
  { s with
    cmu := { reportedCmu overflows s with
      notices := (reportedCmu overflows s).notices ++ finishTold p e.pic stops s }
    pgc := { s.pgc with progs := s.pgc.progs.modify p (endedRecord overflows stops refreshes) }
    ral := { s.ral with progs := s.ral.progs.modify p fun r => { r with fullness := r.fullness + e.produced } }
    cde := { s.cde with
      entries := s.cde.entries.set p none
      loops := s.cde.loops.modify p fun l => { l with carried := e.loopQ } } }

/-- What the end of the picture depends on besides its entry. -/
structure Ends (p : Prog) (e : Entry) (overflows stops : Bool) (s : State) : Prop where
  van : ∀ o, (prog s p).openStop = some o → o.origin = .van
  overflows : overflows = true ↔ (rateOf s p).limit < (rateOf s p).fullness + e.produced
  stops : stops = true ↔ (prog s p).state = .stopping

theorem Ends.of_calm (h : Ends p e overflows stops s) (hcalm : t.calm = s.calm) : Ends p e overflows stops t := by
  obtain ⟨-, -, -, -, hral, -, -, -, -, -, -, hprogs, -⟩ := calm_eq hcalm
  obtain ⟨hvan, hover, hstops⟩ := h
  have hrecord := exceptMarks_of hprogs p
  refine ⟨?_, ?_, ?_⟩
  · rw [hrecord]; exact hvan
  · rw [rateOf, hral]; exact hover
  · rw [hrecord]; exact hstops

theorem completePicture_ends (hr : Room (n + 2) s) (h : Ends p e overflows stops s) :
    completePicture p e (owing w s) = owing w (pictureEnded p e overflows stops false s) := by
  obtain ⟨hvan, hover, hstops⟩ := h
  rw [completePicture_eq (s := owing w s) (hr.of_cmu rfl) hvan hover hstops]
  simp only [pictureEnded, endedRecord_plain]
  rfl

/-- A shed anchor owes a refresh (R53). -/
theorem refreshCause_ended (hf : fold s p = p) : refreshCause p (owing w (pictureEnded p e overflows stops false s)) =
    owing w (pictureEnded p e overflows stops true s) := by
  have hpair := fold_onProg (s := s) (f := endedRecord overflows stops false) (fun _ => rfl) p p
  have hfold : fold (owing w (pictureEnded p e overflows stops false s)) p = p := hpair.trans hf
  rw [refreshCause_alone hfold]
  have hrecords : (s.pgc.progs.modify p (endedRecord overflows stops false)).modify p
      (fun r => { r with refreshOwed := true, causes := min (r.causes + 1) 65535 }) =
      s.pgc.progs.modify p (endedRecord overflows stops true) :=
    (Table.modify_modify ..).trans (congrArg _ (funext fun r => by simp [endedRecord]))
  simp only [pictureEnded, ← hrecords]
  rfl

theorem afterBand_ends (hlast : if shed then Sheds p e e.done s last else e.bands ≤ e.done ∧ last = s)
    (hr : Room (n + 2) s) (hf : fold s p = p) (h : Ends p e overflows stops s) :
    ∃ w', afterBand p shed e (owing w s) = owing w' (pictureEnded p e overflows stops (shed && e.type == .anchor) last) := by
  cases shed with
  | false =>
    obtain ⟨hdone, rfl⟩ : e.bands ≤ e.done ∧ last = s := by simpa only [Bool.false_eq_true, if_false] using hlast
    refine ⟨w, ?_⟩
    simp only [afterBand, Bool.false_eq_true, if_false, hdone, if_true]
    exact completePicture_ends hr h
  | true =>
    simp only [if_true] at hlast
    obtain ⟨w', hemitted⟩ := hlast.emitted (w := w) hr hf
    have hsteady := hlast.steady (Steady.refl hr hf)
    have hdone : e.done ≤ e.bands := by
      obtain ⟨g, hg, -⟩ := hlast
      omega
    have hends := completePicture_ends (w := w') hsteady.room (h.of_calm hsteady.calm)
    refine ⟨w', ?_⟩
    simp only [afterBand, if_true, shedPicture_eq hdone, hemitted, hends, refreshCause_ended hsteady.fold]
    cases e.type <;> rfl

end

/-! ### The completion of the band (R42, R52, R59) -/

section
variable {coded : List Byte} {b : Band} {p : Prog} {e e2 : Entry} {bits produced q coding n : Nat} {cfg : ProgConfig}
  {w shed strikes overflows stops refreshes : Bool} {s t base last : State}

/-- The entry after the band, the limit having been tested (R42, R50, R52). -/
def doneEntry (e : Entry) (cfg : ProgConfig) (produced q coding : Nat) (strikes : Bool) : Entry :=
  { e with
    produced := produced
    done := e.done + 1
    loopQ := q
    codingQ := if strikes = true ∧ cfg.action = .coarsen then cfg.qMax else coding
    struck := e.struck || strikes }

theorem Room.mono (h : Room (n + 1) s) : Room n s := ⟨h.home, by have := h.notices; omega⟩

theorem Room.bandLeft (h : Room (n + 1) s) : Room n (bandLeft p e2 strikes s) := by
  cases strikes
  · exact h.mono.of_cmu rfl
  · exact h.raised.of_cmu rfl

theorem Alone.of_calm (h : Alone p s) (hcalm : t.calm = s.calm) : Alone p t :=
  h.of_others (others_of_serene p (serene_of_calm hcalm))

theorem Alone.bandLeft (h : Alone p s) : Alone p (owing w (bandLeft p e2 strikes s)) :=
  h.of_others (setEntry_others p (some e2) s)

theorem Alone.pictureEnded (h : Alone p s) : Alone p (owing w (pictureEnded p e overflows stops refreshes s)) :=
  h.of_others ((setEntry_others p none (s.onProg p (endedRecord overflows stops refreshes))).trans (onProg_others p _ s))

/-- The completion of a band that closes, up to what follows it. -/
theorem exec_bandCompletion (h : BandCloses coded b e s base bits) (hb : s.cde.band = some b) (hd : b.discard = false)
    (hlen : b.lost = true ∨ 1312 * b.frags.length ≤ 8 + coded.length) (hf : fold s b.prog = b.prog)
    (he : entryOf s b.prog = some e) (hr : Room (n + 1) s) (hcfg : (prog s b.prog).cfg = cfg)
    (hstep : stepEntry e bits cfg.qMin cfg.qMax =
      { e with produced := produced, done := e.done + 1, loopQ := q, codingQ := coding })
    (hstrikes : strikes = true ↔ e.done + 1 < e.bands ∧ e.struck = false ∧ e.limit < produced ∧ cfg.action ≠ .off)
    (hshed : shed = true ↔ strikes = true ∧ cfg.action = .shed) (he2 : e2 = doneEntry e cfg produced q coding strikes) :
    Steady b.prog (n + 1) s base ∧ ∃ w, exec (.bandCompletion coded) s =
      .next (finish (startBand (afterBand b.prog shed e2 (owing w (bandLeft b.prog e2 strikes base))))) := by
  subst hcfg he2
  obtain ⟨c, hclosed⟩ := h.closedAs hb hd hr hf
  have hlimit := Bool.eq_iff_iff.mpr ((limitStrikes_iff (action := (prog s b.prog).cfg.action) (e := { e with
    produced := produced, done := e.done + 1, loopQ := q, codingQ := coding })).trans hstrikes.symm)
  have hboth : (strikes && (prog s b.prog).cfg.action == .shed) = shed := by
    rw [Bool.eq_iff_iff, hshed]
    simp
  have hwork := hclosed.completes hstep rfl rfl hlimit
  rw [hboth, limitedEntry_eq] at hwork
  have hlong : ¬ (!b.lost && decide (8 + coded.length < 1312 * b.frags.length)) = true := by
    obtain hl | hl := hlen
    · simp [hl]
    · simp [Nat.not_lt.mpr hl]
  have hends : bandEnds coded s = completeBand b e coded s := by
    simp only [bandEnds, hb, hd, he, Bool.false_eq_true, if_false]
    exact if_neg hlong
  exact ⟨hclosed.steady, !c.lost, congrArg (fun t => Host.Outcome.next (finish t)) (hends.trans hwork)⟩

/-- With no picture in progress, none is started. -/
theorem startBand_noEntries (h : ∀ q, entryOf s q = none) : startBand s = s := by
  simp only [entryOf] at h
  simp [startBand, nextServed, h]

/-- A band marked for discard frees its blocks (R59). -/
theorem exec_bandCompletion_discard (hq : Quiet s) (hb : s.cde.band = some b) (hd : b.discard = true)
    (he : ∀ q, entryOf s q = none) : exec (.bandCompletion coded) s = .next { s with
      cde := { s.cde with band := none }
      pkp := { s.pkp with
        free := s.pkp.free ++ b.frags.flatten
        owners := s.pkp.owners.modify (Owner.prog b.prog).idx fun r =>
          { r with count := r.count - b.frags.flatten.length } } } := by
  have hends : bandEnds coded s = discardBand b s := by simp only [bandEnds, hb, hd, if_true]
  simp only [discardBand, releaseBlocks_all] at hends
  have hwork := hends.trans (startBand_noEntries (by exact he))
  exact settled_local (congrArg (fun t => Host.Outcome.next (finish t)) hwork) hq rfl rfl rfl

theorem limitedCmu_waits : (limitedCmu strikes s).van = s.cmu.van ∧ (limitedCmu strikes s).home = s.cmu.home := by
  cases strikes <;> exact ⟨rfl, rfl⟩

theorem reportedCmu_waits : (reportedCmu overflows s).van = s.cmu.van ∧ (reportedCmu overflows s).home = s.cmu.home := by
  cases overflows <;> exact ⟨rfl, rfl⟩

/-- The next band of the picture is started (R41, R52). -/
theorem exec_nextBand (hq : Quiet s) (hl : NoLinkTakes s) (ha : Alone p s) (hbase : Steady p n s base)
    (hexec : exec (.bandCompletion coded) s =
      .next (finish (startBand (afterBand p false e2 (owing w (bandLeft p e2 strikes base))))))
    (hdone : e2.done < e2.bands) (hstarted : e2.started < e2.bands) :
    exec (.bandCompletion coded) s = .next { base with
      cmu := limitedCmu strikes base
      cde := { s.cde with
        entries := s.cde.entries.set p (some { e2 with started := e2.started + 1 })
        band := some {
          prog := p, pic := e2.pic, band := e2.started + 1, quant := e2.codingQ
          tiles := bandTiles (formatOf s p).width e2.method }
        lastServed := p } } := by
  obtain ⟨-, -, -, hcde, -, -, -, -, hlsu, -, hformats, hprogs, hvan, hhome, -⟩ := calm_eq hbase.calm
  have hgoes : afterBand p false e2 (owing w (bandLeft p e2 strikes base)) = owing w (bandLeft p e2 strikes base) := by
    simp only [afterBand, Bool.false_eq_true, if_false, Nat.not_le.mpr hdone]
  have hcfg : (prog base p).cfg = (prog s p).cfg := by rw [exceptMarks_of hprogs p]
  have hformat : formatOf base p = formatOf s p := by simp only [formatOf, hformats, hcfg]
  have hstart := startBand_alone (s := owing w (bandLeft p e2 strikes base)) (e := e2) (ha.of_calm hbase.calm).bandLeft rfl
    (Table.get_set_self ..) hstarted
  rw [hgoes, hstart] at hexec
  rw [← hformat, ← hcde, ← Table.set_set base.cde.entries p (some e2)]
  exact settled_owing hexec hq hl hbase.hsc hlsu (limitedCmu_waits.1.trans hvan) (limitedCmu_waits.2.trans hhome)

theorem finishTold_calm {pic : Pic} (h : t.calm = s.calm) : finishTold p pic stops t = finishTold p pic stops s := by
  obtain ⟨-, htbu, -, -, -, -, -, -, -, -, -, hprogs, -⟩ := calm_eq h
  have hstop : (prog t p).openStop = (prog s p).openStop := by rw [exceptMarks_of hprogs p]
  simp only [finishTold, hstop, htbu]

/-- The picture ends with the band, or with those that SHED emits (R53, R58). -/
theorem exec_pictureEnds (hq : Quiet s) (hl : NoLinkTakes s) (ha : Alone p s) (hbase : Steady p (n + 3) s base)
    (hexec : exec (.bandCompletion coded) s =
      .next (finish (startBand (afterBand p shed e2 (owing w (bandLeft p e2 shed base))))))
    (hends : Ends p e2 overflows stops s)
    (hlast : if shed then Sheds p e2 e2.done { base with cmu := flagRaised .bandLimited base } last
      else e2.bands ≤ e2.done ∧ last = base) :
    exec (.bandCompletion coded) s = .next { last with
      cmu := { reportedCmu overflows last with
        notices := (reportedCmu overflows last).notices ++ finishTold p e2.pic stops s }
      pgc := { last.pgc with
        progs := last.pgc.progs.modify p (endedRecord overflows stops (shed && e2.type == .anchor)) }
      ral := { s.ral with progs := s.ral.progs.modify p fun r => { r with fullness := r.fullness + e2.produced } }
      cde := { s.cde with
        entries := s.cde.entries.set p none
        band := none
        loops := s.cde.loops.modify p fun l => { l with carried := e2.loopQ } } } := by
  have hsteady : Steady p (n + 2) s last := by
    cases shed with
    | false =>
      obtain ⟨-, rfl⟩ := hlast
      exact ⟨hbase.calm, hbase.hsc, hbase.fold, hbase.room.mono⟩
    | true => exact Sheds.steady hlast (hbase.raised .bandLimited)
  obtain ⟨-, -, -, hcde, -⟩ := calm_eq hbase.calm
  obtain ⟨-, -, -, -, hral, -, -, -, hlsu, -, -, hprogs, hvan, hhome, -⟩ := calm_eq hsteady.calm
  have hendsLeft : Ends p e2 overflows stops (bandLeft p e2 shed base) := by
    obtain ⟨hvan, hover, hstops⟩ := hends.of_calm hbase.calm
    exact ⟨hvan, hover, hstops⟩
  have hlastLeft : if shed then Sheds p e2 e2.done (bandLeft p e2 shed base)
        { last with cde := (bandLeft p e2 shed base).cde }
      else e2.bands ≤ e2.done ∧ ({ last with cde := (bandLeft p e2 shed base).cde } : State) = bandLeft p e2 shed base := by
    cases shed with
    | false =>
      obtain ⟨hdone, rfl⟩ := hlast
      exact ⟨hdone, rfl⟩
    | true => exact Sheds.withCde hlast _
  obtain ⟨w', hwork⟩ := afterBand_ends (w := w) hlastLeft hbase.room.bandLeft hbase.fold hendsLeft
  have halone : Alone p ({ last with cde := (bandLeft p e2 shed base).cde } : State) := by
    refine ha.of_others (others_of fun q hq => ⟨?_, ?_⟩)
    · exact (Table.get_set_ne _ _ (Ne.symm hq)).trans (congrArg (fun c : Engine => c.entries.get q) hcde)
    · change (prog last q).state = (prog s q).state
      rw [exceptMarks_of hprogs q]
  rw [hwork, startBand_none halone.pictureEnded (Table.get_set_self ..)] at hexec
  have hdone := settled_owing hexec hq hl hsteady.hsc hlsu (reportedCmu_waits.1.trans hvan) (reportedCmu_waits.2.trans hhome)
  rw [hdone, ← finishTold_calm hsteady.calm, ← hral, ← hcde]
  simp only [pictureEnded, bandLeft, Table.set_set]
  rfl

end

/-- Settles O30: a discarded band, a band after which the next one starts, and one that ends its picture. -/
theorem bandCompletion_queuesTheSlice : Obligations.BandCompletion_QueuesTheSlice := by
  rintro coded b _ s hq hb rfl
  refine ⟨fun hd he => exec_bandCompletion_discard hq hb hd he, ?_⟩
  intro e base bits produced q coding u d strikes hd hcloses hlen hl ha hf he _ hhome hnotices hvan hproduced hu hdiff hquant
    hstrikes
  subst hproduced
  have hroom : Room 4 s := ⟨hhome, by split <;> omega⟩
  have hstep := stepEntry_eq hu hdiff hquant
  refine ⟨fun hdone hstarted hnoshed => ?_, fun last shed overflows stops told hshed hlast hover hstops htold => ?_⟩
  · obtain ⟨hsteady, w, hexec⟩ := exec_bandCompletion (shed := false) hcloses hb hd hlen hf he hroom rfl hstep hstrikes
      (by simpa using hnoshed) rfl
    refine ⟨_, rfl, (exec_nextBand hq hl ha hsteady hexec hdone hstarted).trans ?_⟩
    rw [bandTiles_eq]
    rfl
  · obtain ⟨hsteady, w, hexec⟩ := exec_bandCompletion hcloses hb hd hlen hf he hroom rfl hstep hstrikes hshed rfl
    have hsame : strikes = shed := by
      cases shed with
      | true => exact (hshed.mp rfl).1
      | false =>
        obtain ⟨hdone, -⟩ : e.done + 1 = e.bands ∧ last = base := by simpa using hlast
        refine Bool.eq_false_iff.mpr fun h => ?_
        have := (hstrikes.mp h).1
        omega
    subst hsame htold
    have hends : Ends b.prog (doneEntry e (prog s b.prog).cfg (e.produced + bits) q coding strikes) overflows stops s :=
      ⟨hvan, hover, hstops⟩
    refine ⟨_, rfl, exec_pictureEnds hq hl ha hsteady hexec hends ?_⟩
    cases strikes with
    | true => exact hlast
    | false =>
      obtain ⟨hdone, rfl⟩ : e.done + 1 = e.bands ∧ last = base := by simpa using hlast
      exact ⟨hdone.ge, rfl⟩

end Sys2Proof.Machine
end

section
/-! PROOF. RATE-SET (R67, R68). -/

namespace Sys2Proof.Machine

/-! ### The record that a RATE-SET forms (R67) -/

section
variable {f : RateFields} {r : RateRecord} {s : State} {p : Prog}

theorem isPairedOdd_iff : isPairedOdd s p = true ↔ p.val % 2 = 1 ∧ (prog s (p - 1)).pair = true := by
  have heven : p.val % 2 = 1 → evenOf p = p - 1 := by revert p; decide
  simp only [isPairedOdd, isOdd, pairFormed, Bool.and_eq_true, beq_iff_eq]
  exact and_congr_right fun hodd => by rw [heven hodd]

/-- A present value is changed by its clamp where it lies outside its range. -/
theorem changed_outside {lo hi : Nat} (stored : Nat) (v : Option Nat) (h : lo ≤ hi) :
    (v.map (· != loaded lo hi stored v)).getD false = outside lo hi v := by
  rw [← clampedBy_outside lo hi v h, ← getD_clamp lo hi stored v h]
  cases v <;> rfl

/-- A collapse percent of 0 stands for itself, and every other one is clamped to 10 to 90 (R67). -/
theorem getD_clampCollapse (stored : Nat) (v : Option Nat) :
    (v.map clampCollapse).getD stored = if v = some 0 then 0 else loaded 10 90 stored v := by
  rw [← getD_clamp 10 90 stored v (by decide)]
  cases v with
  | none => rfl
  | some v => simp only [Option.map_some, Option.getD_some, clampCollapse, Option.some.injEq]

theorem changed_collapse (stored : Nat) (v : Option Nat) :
    (v.map (· != if v = some 0 then 0 else loaded 10 90 stored v)).getD false =
      (outside 10 90 v && !decide (v = some 0)) := by
  by_cases h : v = some 0
  · subst h; rfl
  · simp only [h, if_false, decide_false, Bool.not_false, Bool.and_true, changed_outside stored v (by decide : 10 ≤ 90)]

/-- The formed record in the words of R67. -/
theorem formRate_record (f : RateFields) (r : RateRecord) : (formRate f r).1 = {
    weight := loaded 1 255 r.weight f.weight
    boost := loaded 1 4 r.boost f.boost
    minRate := loaded 0 100000 r.minRate f.minRate
    maxRate := max (loaded 0 100000 r.maxRate f.maxRate) (loaded 0 100000 r.minRate f.minRate)
    rDown := loaded 0 100000 r.rDown f.rDown
    rUp := loaded 0 100000 r.rUp f.rUp
    collapse := if f.collapse = some 0 then 0 else loaded 10 90 r.collapse f.collapse
    step := loaded 1 16 r.step f.step } := by
  simp only [formRate, getD_clampCollapse, getD_clamp 1 255 _ _ (by decide), getD_clamp 1 4 _ _ (by decide),
    getD_clamp 0 100000 _ _ (by decide), getD_clamp 1 16 _ _ (by decide)]

/-- A RATE-SET is clamped where a field lies outside its range, or where the maximum is raised to the minimum (R67). -/
theorem formRate_clamped (f : RateFields) (r : RateRecord) : (formRate f r).2 =
    (outside 1 255 f.weight || outside 1 4 f.boost || outside 0 100000 f.minRate || outside 0 100000 f.maxRate ||
      outside 0 100000 f.rDown || outside 0 100000 f.rUp || (outside 10 90 f.collapse && !decide (f.collapse = some 0)) ||
      outside 1 16 f.step ||
      decide (loaded 0 100000 r.maxRate f.maxRate < loaded 0 100000 r.minRate f.minRate)) := by
  simp only [formRate, getD_clampCollapse, getD_clamp 1 255 _ _ (by decide), getD_clamp 1 4 _ _ (by decide),
    getD_clamp 0 100000 _ _ (by decide), getD_clamp 1 16 _ _ (by decide), changed_collapse,
    changed_outside (lo := 1) (hi := 255) _ _ (by decide), changed_outside (lo := 1) (hi := 4) _ _ (by decide),
    changed_outside (lo := 0) (hi := 100000) _ _ (by decide), changed_outside (lo := 1) (hi := 16) _ _ (by decide)]

theorem hasRateField_iff : hasRateField f = true ↔ f.weight ≠ none ∨ f.boost ≠ none ∨ f.minRate ≠ none ∨ f.maxRate ≠ none ∨
    f.rDown ≠ none ∨ f.rUp ≠ none ∨ f.collapse ≠ none ∨ f.step ≠ none := by
  simp only [hasRateField, Bool.or_eq_true, Option.isSome_iff_ne_none, or_assoc]

theorem getD_min (hi stored : Nat) (v : Option Nat) : (v.map (min hi)).getD stored = loaded 0 hi stored v := by
  rw [← getD_clamp 0 hi stored v (Nat.zero_le hi)]
  cases v with
  | none => rfl
  | some v => simp only [Option.map_some, Option.getD_some, clampNat, Nat.zero_max]

/-- The pool fields stored in the words of R67. -/
theorem setPoolFields_eq (f : RateFields) (s : State) : setPoolFields f s = { s with ral := { s.ral with
    headroom := loaded 0 50 s.ral.headroom f.headroom
    labelReserve := loaded 0 2000 s.ral.labelReserve f.labelReserve } } := by
  simp only [setPoolFields, getD_min]
  rfl

theorem poolClamped_eq (f : RateFields) : poolClamped f = (outside 0 50 f.headroom || outside 0 2000 f.labelReserve) := by
  have habove : ∀ (hi : Nat) (v : Option Nat), (v.map fun n => decide (hi < n)).getD false = outside 0 hi v := by
    intro hi v
    cases v <;> simp [outside]
  simp only [poolClamped, habove]

end

/-! ### RATE-SET by its programme (R67, R68) -/

section
variable {h : Hdr} {i : RingStream} {f : RateFields} {s : State} {p : Prog}

/-- Rate fields without a programme are refused. -/
theorem exec_rateSet_noProgramme (hr : VanReady h i s) (hp : f.prog = none) (hf : hasRateField f = true) :
    exec (.rateSet h f) s = .next { s with sri := ringReply s.sri h i 7 5 [] } :=
  exec_refused (c := .rateSet f) (r := .refusedRange) rfl hr (by simp only [perform, rateSet, hp, hf, if_true]) rfl (by simp)

/-- The pool fields alone are stored. -/
theorem exec_rateSet_pool (hr : VanReady h i s) (hp : f.prog = none) (hf : hasRateField f = false) :
    exec (.rateSet h f) s = .next { s with
      ral := { s.ral with
        headroom := loaded 0 50 s.ral.headroom f.headroom
        labelReserve := loaded 0 2000 s.ral.labelReserve f.labelReserve }
      sri := ringReply s.sri h i 7 (doneCode (poolClamped f)) [] } := by
  have hperform : perform (headOf h (.rateSet f)) (.rateSet f) (atHead h (.rateSet f) s) =
      (atHead h (.rateSet f) (setPoolFields f s), { status := doneIf (poolClamped f) }) := by
    simp only [perform, rateSet, hp, hf, Bool.false_eq_true, if_false]
    rfl
  rw [exec_van rfl hr hperform rfl (by simp) hr.1.1 hr.1.2.1 hr.1.2.2, doneIf_code, setPoolFields_eq]
  rfl

theorem exec_rateSet_outside (hr : VanReady h i s) {n : Nat} (hp : f.prog = some n) (hn : 3 < n) :
    exec (.rateSet h f) s = .next { s with sri := ringReply s.sri h i 7 5 [] } := by
  have hnone : finOf 4 n = none := by simp [finOf]; omega
  exact exec_refused (c := .rateSet f) (r := .refusedRange) rfl hr (by simp only [perform, rateSet, hp, hnone]) rfl (by simp)

/-- The odd member of a formed pair is refused, in the query form too (log entry 16). -/
theorem exec_rateSet_odd (hr : VanReady h i s) (hp : f.prog = some p.val) (hodd : isPairedOdd s p = true) :
    exec (.rateSet h f) s = .next { s with sri := ringReply s.sri h i 7 4 [] } :=
  exec_refused (c := .rateSet f) (r := .refusedState) rfl hr
    (by simp only [perform, rateSet, hp, finOf_val, atHead_isPairedOdd, hodd, if_true]) rfl (by simp)

theorem exec_rateSet_query (hr : VanReady h i s) (hf : f = { prog := some p.val }) (hodd : isPairedOdd s p = false) :
    exec (.rateSet h f) s = .next { s with
      sri := ringReply s.sri h i 7 1 [some (rateRecordBytes (rateOf s p).pending)] } := by
  have hperform : perform (headOf h (.rateSet f)) (.rateSet f) (atHead h (.rateSet f) s) =
      (atHead h (.rateSet f) s, { status := .done, results := [some (rateRecordBytes (rateOf s p).pending)] }) := by
    simp only [perform, rateSet, hf, finOf_val, atHead_isPairedOdd, hodd, Bool.false_eq_true, if_false, if_true,
      atHead_rateOf]
  rw [exec_van rfl hr hperform rfl (by simp) hr.1.1 hr.1.2.1 hr.1.2.2]
  rfl

/-- Formed thresholds with r_down not below r_up are refused. -/
theorem exec_rateSet_thresholds (hr : VanReady h i s) (hp : f.prog = some p.val) (hodd : isPairedOdd s p = false)
    (hf : f ≠ { prog := some p.val }) (hbad : (formRate f (rateOf s p).pending).1.rUp ≤ (formRate f (rateOf s p).pending).1.rDown) :
    exec (.rateSet h f) s = .next { s with sri := ringReply s.sri h i 7 5 [] } :=
  exec_refused (c := .rateSet f) (r := .refusedRange) rfl hr
    (by simp only [perform, rateSet, hp, finOf_val, atHead_isPairedOdd, hodd, Bool.false_eq_true, if_false, hf,
      atHead_rateOf, hbad, if_true]) rfl (by simp)

/-- The record is stored as pending, and at once as active where the programme is IDLE or READY. -/
theorem exec_rateSet_stores (hr : VanReady h i s) (hp : f.prog = some p.val) (hodd : isPairedOdd s p = false)
    (hf : f ≠ { prog := some p.val }) {formed : RateRecord} {clamped : Bool}
    (hformed : (formRate f (rateOf s p).pending).1 = formed) (hclamped : (formRate f (rateOf s p).pending).2 = clamped)
    (hok : formed.rDown < formed.rUp) :
    exec (.rateSet h f) s = .next { s with
      ral := { s.ral with
        headroom := loaded 0 50 s.ral.headroom f.headroom
        labelReserve := loaded 0 2000 s.ral.labelReserve f.labelReserve
        progs := s.ral.progs.modify p fun r => { r with
          pending := formed
          active := if (prog s p).state = .idle ∨ (prog s p).state = .ready then formed else r.active } }
      sri := ringReply s.sri h i 7 (doneCode (clamped || poolClamped f)) [] } := by
  have hperform : perform (headOf h (.rateSet f)) (.rateSet f) (atHead h (.rateSet f) s) =
      (atHead h (.rateSet f) (setPoolFields f (s.onRate p fun r => { r with
        pending := formed
        active := if (prog s p).state = .idle ∨ (prog s p).state = .ready then formed else r.active })),
        { status := doneIf (clamped || poolClamped f) }) := by
    simp only [perform, rateSet, hp, finOf_val, atHead_isPairedOdd, hodd, Bool.false_eq_true, if_false, hf,
      atHead_rateOf, hformed, hclamped, Nat.not_le.mpr hok, atHead_prog, Bool.or_eq_true, beq_iff_eq]
    rfl
  rw [exec_van rfl hr hperform rfl (by simp) hr.1.1 hr.1.2.1 hr.1.2.2, doneIf_code, setPoolFields_eq]
  rfl

end

/-- Settles O39: RATE-SET without a programme, with one that does not exist, with the odd member of a formed pair, and with a
programme whose record it queries, refuses or stores. -/
theorem rateSet_storesTheRecord : Obligations.RateSet_StoresTheRecord := by
  rintro h i f pool s hr rfl
  rw [← poolClamped_eq]
  refine ⟨fun hp => ⟨fun hf => exec_rateSet_noProgramme hr hp (hasRateField_iff.mpr hf), fun h1 h2 h3 h4 h5 h6 h7 h8 => ?_⟩,
    fun n hp hn => exec_rateSet_outside hr hp hn, fun p hp => ⟨fun hodd hpair => ?_, ?_⟩⟩
  · exact exec_rateSet_pool hr hp (by simp [hasRateField, h1, h2, h3, h4, h5, h6, h7, h8])
  · exact exec_rateSet_odd hr hp (isPairedOdd_iff.mpr ⟨hodd, hpair⟩)
  · rintro hfree old formed rfl rfl
    have hodd : isPairedOdd s p = false := by
      refine Bool.eq_false_iff.mpr fun hodd => ?_
      obtain ⟨hone, hpair⟩ := isPairedOdd_iff.mp hodd
      exact hfree.elim (by omega) (by simp [hpair])
    rw [← formRate_record]
    refine ⟨fun hf => exec_rateSet_query hr hf hodd, fun hf hbad => exec_rateSet_thresholds hr hp hodd hf hbad, fun hf hok => ?_⟩
    rw [exec_rateSet_stores hr hp hodd hf rfl (formRate_clamped f _) hok, Bool.or_right_comm]

end Sys2Proof.Machine
end

section
/-! PROOF. What a period start does after the allocation: the rates and the engine stand, and flags and refresh-owed marks stay
set (R7, R34, R208). -/

namespace Sys2Proof.Machine

/-! ### Flags and refresh-owed marks that stay set -/

/-- Every flag and every refresh-owed mark that `s` has set is set in `t` (R34, R208). -/
structure Retains (s t : State) : Prop where
  flags : ∀ g, (flagRec s g).set = true → (flagRec t g).set = true
  marks : ∀ p, (prog s p).refreshOwed = true → (prog t p).refreshOwed = true

section
variable {s t u : State}

theorem Retains.trans (h1 : Retains s t) (h2 : Retains t u) : Retains s u :=
  ⟨fun g h => h2.flags g (h1.flags g h), fun p h => h2.marks p (h1.marks p h)⟩

/-- What leaves the programmes and the flags alone retains them. -/
theorem Retains.of_eq (hpgc : t.pgc = s.pgc) (hflags : t.cmu.flags = s.cmu.flags) : Retains s t :=
  ⟨fun g h => by rwa [flagRec_congr hflags g], fun p h => by rwa [prog, hpgc]⟩

theorem Retains.refl (s : State) : Retains s s := .of_eq rfl rfl

theorem Retains.raise (h : Retains s t) (f : EventFlag) : Retains s (raiseFlag f t) :=
  h.trans ⟨fun g => raiseFlag_keeps f g t, fun p hp => by rwa [prog, raiseFlag_pgc]⟩

theorem Retains.foldl {α : Type} {f : State → α → State} (hf : ∀ u a, Retains u (f u a)) (l : List α) (h : Retains s t) :
    Retains s (l.foldl f t) := by
  induction l generalizing t with
  | nil => exact h
  | cons a l ih => exact ih (h.trans (hf t a))

theorem retains_settleTakes (s : State) : Retains s (settleTakes s) :=
  ⟨fun g => settleTakes_keeps g s, fun _ => settleTakes_marks⟩

/-! ### The Clip Marker's part of a period start (R133, R142) -/

theorem requestLabel_pgc (s : State) : (requestLabel s).2.pgc = s.pgc := by
  have hrequest : (request .labelReply 1 s).2.pgc = s.pgc := by
    simp only [request]
    split
    · rfl
    · rw [raiseFlag_pgc]; rfl
  simp only [requestLabel]
  split
  · rfl
  · split <;> rename_i heq <;> rw [heq] at hrequest
    · exact hrequest
    · split <;> exact hrequest

theorem retains_requestLabel (s : State) : Retains s (requestLabel s).2 :=
  ⟨fun g => requestLabel_keeps g s, fun p hp => by rwa [prog, requestLabel_pgc]⟩

theorem retains_closeClip (n : Nat) (e : Pic) (s : State) : Retains s (closeClip n e s) := by
  simp only [closeClip]
  split
  · refine Retains.trans ?_ (retains_requestLabel _)
    exact .of_eq rfl rfl
  · exact .of_eq rfl rfl

theorem retains_runOut (n : Nat) (s : State) : Retains s (runOut n s) := by
  simp only [runOut]
  split
  · exact .refl s
  · split
    · exact retains_closeClip ..
    · exact .of_eq rfl rfl

theorem retains_countPostRoll (s : State) : Retains s (countPostRoll s) := by
  refine Retains.foldl (fun u c => ?_) _ (.refl s)
  split
  · exact retains_runOut ..
  · exact .of_eq rfl rfl

theorem retains_retryLabels (n : Nat) (s : State) : Retains s (retryLabels n s) := by
  induction n generalizing s with
  | zero => exact .refl s
  | succ n ih =>
    have hlabel := retains_requestLabel s
    simp only [retryLabels]
    split
    · exact .refl s
    · split <;> rename_i heq <;> rw [heq] at hlabel
      · exact hlabel.trans (ih _)
      · exact hlabel

/-! ### The home notices of a period start (R210) -/

theorem retains_sendHomeNotice (s : State) : Retains s (sendHomeNotice raiseFlag s).2 :=
  ⟨fun g => sendHomeNotice_keeps raiseFlag g (fun f u => raiseFlag_keeps f g u) s,
    fun p hp => by rwa [prog, sendHomeNotice_pgc raiseFlag raiseFlag_pgc]⟩

theorem sendHomeNotices_calm (n : Nat) (s : State) :
    Retains s (sendHomeNotices n s) ∧ (sendHomeNotices n s).calm = s.calm := by
  induction n generalizing s with
  | zero => exact ⟨.refl s, rfl⟩
  | succ n ih =>
    have hretains := retains_sendHomeNotice s
    have hcalm := sendHomeNotice_calm raiseFlag raiseFlag_calm s
    simp only [sendHomeNotices]
    split <;> rename_i t heq <;> rw [heq] at hretains hcalm
    · obtain ⟨ihretains, ihcalm⟩ := ih t
      exact ⟨hretains.trans ihretains, ihcalm.trans hcalm⟩
    · exact ⟨hretains, hcalm⟩

/-! ### The period start (R6, R7) -/

/-- The Clip Marker's and the Command Unit's parts of a period start, where no reply is held. -/
theorem deliveries_serene (hheld : s.cmu.held = none) {t : State}
    (ht : t = retryHome (retryLabels (countPostRoll s).clm.waiting.length (countPostRoll s))) :
    Retains s t ∧ t.serene = s.serene := by
  obtain ⟨u, hu⟩ : ∃ u, u = retryLabels (countPostRoll s).clm.waiting.length (countPostRoll s) := ⟨_, rfl⟩
  have hretains : Retains s u := hu ▸ (retains_countPostRoll s).trans (retains_retryLabels ..)
  have hserene : u.serene = s.serene := by rw [hu, retryLabels_serene, countPostRoll_serene]
  have hwaits : u.waits = s.waits := by rw [hu, retryLabels_waits, countPostRoll_waits]
  have hnone : u.cmu.held = none := (congrArg (·.2.2.2.2) hwaits).trans hheld
  have hhome : retryHome u = sendHomeNotices u.cmu.homeNotices.length u := by
    simp only [retryHome, retryHeld_none hnone, hnone, Option.isNone_none, if_true]
  rw [← hu, hhome] at ht
  obtain ⟨hsent, hcalm⟩ := sendHomeNotices_calm u.cmu.homeNotices.length u
  exact ht ▸ ⟨hretains.trans hsent, (serene_of_calm hcalm).trans hserene⟩

/-- A period start with no command waiting at home and no reply held leaves the rates and the engine as the allocation left
them, and every flag and mark that the allocation left set. -/
theorem periodStart_allotted (hq : Quiet s) (hheld : s.cmu.held = none) (hdue : periodDue s = true) :
    ∃ t, exec .periodStart s = .next t ∧ t.ral = (allotted s).ral ∧ t.cde = (allotted s).cde ∧ Retains (allotted s) t := by
  have hwaits : (allotted s).waits = s.waits := by simp [allotted]
  obtain ⟨u, hu⟩ : ∃ u, u = startPeriod s := ⟨_, rfl⟩
  obtain ⟨hretains, hserene⟩ := deliveries_serene ((congrArg (·.2.2.2.2) hwaits).trans hheld) (show u = _ from hu)
  obtain ⟨-, -, -, hcde, hral, -⟩ := serene_eq ((settleTakes_serene u).trans hserene)
  obtain ⟨-, -, -, -, -, -, -, -, -, -, -, huvan, huhome, -⟩ := serene_eq hserene
  have hexec := exec_periodStart hdue
  rw [← hu, finish_empty (huvan.trans ((vanOf hwaits).trans hq.2.1)) (huhome.trans ((homeOf hwaits).trans hq.2.2))] at hexec
  exact ⟨_, hexec, hral, hcde, hretains.trans (retains_settleTakes u)⟩

end

end Sys2Proof.Machine
end

section
/-! PROOF. The allocation of one programme, and of the programmes that take part in ascending number (R63, R70 to R80). -/

namespace Sys2Proof.Machine

/-! ### What an allocation reads of the other blocks (R33, R70) -/

/-- `t` has the programmes' states, configurations and pairs of `s`, and boosts the same ones. -/
structure Alike (s t : State) : Prop where
  state : ∀ p, (prog t p).state = (prog s p).state
  cfg : ∀ p, (prog t p).cfg = (prog s p).cfg
  fold : ∀ p, fold t p = fold s p
  boosted : ∀ p, isBoosted t p = isBoosted s p

section
variable {s t u : State} {p : Prog}

theorem Alike.trans (h1 : Alike s t) (h2 : Alike t u) : Alike s u :=
  ⟨fun p => (h2.state p).trans (h1.state p), fun p => (h2.cfg p).trans (h1.cfg p), fun p => (h2.fold p).trans (h1.fold p),
    fun p => (h2.boosted p).trans (h1.boosted p)⟩

theorem Alike.of_parts (hsri : t.sri = s.sri) (hclm : t.clm = s.clm) (hstate : ∀ p, (prog t p).state = (prog s p).state)
    (hcfg : ∀ p, (prog t p).cfg = (prog s p).cfg) (hpair : ∀ p, (prog t p).pair = (prog s p).pair) : Alike s t := by
  have hfold : Machine.fold t = Machine.fold s := funext (fold_pair hpair)
  exact ⟨hstate, hcfg, congrFun hfold, fun p => by simp only [isBoosted, foldSet, hotCameras, hfold, hsri, hclm]⟩

theorem Alike.refl (s : State) : Alike s s := ⟨fun _ => rfl, fun _ => rfl, fun _ => rfl, fun _ => rfl⟩

/-- Flags, notices and refresh causes change nothing that an allocation reads. -/
theorem Alike.of_calm (h : t.calm = s.calm) : Alike s t := by
  obtain ⟨-, -, -, -, -, -, -, hclm, -, hsri, -, hprogs, -⟩ := calm_eq h
  refine .of_parts hsri hclm (fun p => ?_) (fun p => ?_) fun p => ?_ <;> rw [exceptMarks_of hprogs p]

/-- A programme is boosted where a number that stands for it is on-air or a camera of a live HOT clip (R70, R139). -/
theorem isBoosted_iff : isBoosted s p = true ↔ ∃ q, fold s q = p ∧ (s.sri.onAir.get q = true ∨ ∃ c ∈ s.clm.clips,
    c.priority = .hot ∧ (c.state = .opened ∨ c.state = .postRoll ∨ c.state = .closing) ∧ ∃ k ∈ c.cameras, k.prog = q) := by
  simp only [isBoosted, foldSet, hotCameras, members, Table.get_ofFn, Bool.or_eq_true, List.any_eq_true, List.mem_filter,
    List.mem_finRange, true_and, Clip.hotLive, Clip.live, Bool.and_eq_true, beq_iff_eq, or_assoc, and_assoc]
  constructor
  · rintro (⟨q, hq, hfold⟩ | ⟨q, hq, hfold⟩)
    · exact ⟨q, hfold, .inl hq⟩
    · exact ⟨q, hfold, .inr hq⟩
  · rintro ⟨q, hfold, hq | hq⟩
    · exact .inl ⟨q, hq, hfold⟩
    · exact .inr ⟨q, hq, hfold⟩

end

/-! ### One programme's figures (R70, R71, R79, R80) -/

/-- The method that stands decided after a rate (R79). -/
def decidedMethod (rate : Nat) (a : RateRecord) (d : Method) : Method :=
  if d = .full ∧ rate < a.rDown then .half else if d = .half ∧ a.rUp < rate then .full else d

theorem methodDecision_eq (rate : Nat) (a : RateRecord) (d : Method) : methodDecision rate a d =
    if d = decidedMethod rate a d then none else some (decidedMethod rate a d) := by
  cases d <;> simp only [methodDecision, decidedMethod] <;> split <;> simp_all

/-- The rate of a programme under an allocation's figures (R70, R71). -/
def sharedRate (fig : AllocFigures) (p : Prog) (s : State) : Nat :=
  allocRate fig.videoPool (effectiveWeight s p) fig.weightSum (rateOf s p).active

/-- The method that the rate decides (R79). -/
def methodAfter (fig : AllocFigures) (p : Prog) (s : State) : Method :=
  decidedMethod (sharedRate fig p s) (rateOf s p).active (rateOf s p).decided

/-- The rate has collapsed for a programme that is not STARTING (R80). -/
def collapses (fig : AllocFigures) (p : Prog) (s : State) : Bool :=
  !((prog s p).state == .starting) && collapsed (sharedRate fig p s) (rateOf s p).prevRate (rateOf s p).active.collapse

/-- A programme's rate record with the figures of its allocation, before its method is judged (R71, R73 to R76, R80). -/
def figuredRate (fig : AllocFigures) (ticks : Nat) (p : Prog) (s : State) : RateProg :=
  { allocate (sharedRate fig p s) ticks (prog s p).cfg.factor (prog s p).cfg.delay ((prog s p).state == .starting) (rateOf s p)
    with boosted := isBoosted s p }

/-- A programme's rate record after its allocation (R79). -/
def allottedRate (fig : AllocFigures) (ticks : Nat) (p : Prog) (s : State) : RateProg :=
  { figuredRate fig ticks p s with decided := methodAfter fig p s }

/-- What the engine is told of a programme's method and of a collapsed rate (R48, R79, R80). -/
def allottedLoop (fig : AllocFigures) (p : Prog) (s : State) : CodingLoop :=
  { loopOf s p with
    pending := if (rateOf s p).decided = methodAfter fig p s then (loopOf s p).pending
      else if (loopOf s p).method = methodAfter fig p s then none else some (methodAfter fig p s)
    collapse := if collapses fig p s then some (rateOf s p).active.step else (loopOf s p).collapse }

/-- A method decided anew owes the programme's refresh and sets METHOD-CHANGED (R34, R79). -/
def TellsMethod (fig : AllocFigures) (p : Prog) (s t : State) : Prop :=
  (rateOf s p).decided ≠ methodAfter fig p s →
    (prog t (fold s p)).refreshOwed = true ∧ (flagRec t .methodChanged).set = true

section
variable {s t u : State} {p : Prog} {fig : AllocFigures} {ticks : Nat}

theorem effectiveWeight_congr (h : Alike s t) (hr : rateOf t p = rateOf s p) : effectiveWeight t p = effectiveWeight s p := by
  simp only [effectiveWeight, hr, h.boosted]

theorem sharedRate_congr (h : Alike s t) (hr : rateOf t p = rateOf s p) : sharedRate fig p t = sharedRate fig p s := by
  simp only [sharedRate, effectiveWeight_congr h hr, hr]

theorem methodAfter_congr (h : Alike s t) (hr : rateOf t p = rateOf s p) : methodAfter fig p t = methodAfter fig p s := by
  simp only [methodAfter, sharedRate_congr h hr, hr]

theorem allottedRate_congr (h : Alike s t) (hr : rateOf t p = rateOf s p) :
    allottedRate fig ticks p t = allottedRate fig ticks p s := by
  simp only [allottedRate, figuredRate, sharedRate_congr h hr, methodAfter_congr h hr, h.cfg, h.state, h.boosted, hr]

theorem collapses_congr (h : Alike s t) (hr : rateOf t p = rateOf s p) : collapses fig p t = collapses fig p s := by
  simp only [collapses, sharedRate_congr h hr, h.state, hr]

theorem allottedLoop_congr (h : Alike s t) (hr : rateOf t p = rateOf s p) (hl : loopOf t p = loopOf s p) :
    allottedLoop fig p t = allottedLoop fig p s := by
  simp only [allottedLoop, collapses_congr h hr, methodAfter_congr h hr, hr, hl]

theorem TellsMethod.congr (h : Alike s t) (hr : rateOf t p = rateOf s p) (ht : TellsMethod fig p t u) : TellsMethod fig p s u := by
  simpa only [TellsMethod, methodAfter_congr h hr, hr, h.fold] using ht

theorem TellsMethod.retains (h : TellsMethod fig p s t) (hr : Retains t u) : TellsMethod fig p s u := fun hne =>
  ⟨hr.marks _ (h hne).1, hr.flags _ (h hne).2⟩

theorem onLoop_calm (h : t.calm = s.calm) (f : CodingLoop → CodingLoop) : (t.onLoop p f).calm = (s.onLoop p f).calm := by
  simp only [State.calm, Prod.mk.injEq, State.onLoop_cde] at h ⊢
  simp_all

/-- The programme's figures stored, and its method decided. -/
def methodJudged (fig : AllocFigures) (ticks : Nat) (p : Prog) (s : State) : State :=
  if (rateOf s p).decided = methodAfter fig p s then s.onRate p fun _ => figuredRate fig ticks p s
  else decideMethod p (methodAfter fig p s) (s.onRate p fun _ => figuredRate fig ticks p s)

theorem allocateProg_eq : allocateProg fig ticks p s =
    if collapses fig p s then
      (methodJudged fig ticks p s).onLoop p fun c => { c with collapse := some (rateOf s p).active.step }
    else methodJudged fig ticks p s := by
  have hdecision : methodDecision (allocRate fig.videoPool (effectiveWeight s p) fig.weightSum (rateOf s p).active)
      (rateOf s p).active (rateOf s p).decided =
      if (rateOf s p).decided = methodAfter fig p s then none else some (methodAfter fig p s) := methodDecision_eq ..
  by_cases hm : (rateOf s p).decided = methodAfter fig p s
  · simp only [allocateProg, hdecision, methodJudged, if_pos hm]
    rfl
  · simp only [allocateProg, hdecision, methodJudged, if_neg hm]
    rfl

theorem methodJudged_calm : (methodJudged fig ticks p s).calm = ({ s with
    ral := { s.ral with progs := s.ral.progs.set p (allottedRate fig ticks p s) }
    cde := { s.cde with loops := s.cde.loops.set p { loopOf s p with pending := (allottedLoop fig p s).pending } } } : State).calm := by
  by_cases hm : (rateOf s p).decided = methodAfter fig p s
  · have hloops : s.cde.loops.set p (loopOf s p) = s.cde.loops := Table.set_get_self ..
    have hrecord : allottedRate fig ticks p s = figuredRate fig ticks p s := by
      rw [allottedRate, ← hm]
      rfl
    simp only [methodJudged, allottedLoop, if_pos hm, hloops, hrecord]
    rfl
  · simp only [methodJudged, allottedLoop, if_neg hm, decideMethod, raiseFlag_calm, refreshCause_calm, State.onRate,
      State.onRal, Table.modify, Table.set_set, Table.get_set_self]
    rfl

/-- The allocation of one programme: its record and its loop, and beyond them what a refresh cause and a flag change. -/
theorem allocateProg_calm : (allocateProg fig ticks p s).calm = ({ s with
    ral := { s.ral with progs := s.ral.progs.set p (allottedRate fig ticks p s) }
    cde := { s.cde with loops := s.cde.loops.set p (allottedLoop fig p s) } } : State).calm := by
  rw [allocateProg_eq]
  by_cases hc : collapses fig p s = true
  · rw [if_pos hc, onLoop_calm methodJudged_calm]
    simp [allottedLoop, hc, State.onLoop, State.onCde, Table.modify]
  · rw [if_neg hc, methodJudged_calm]
    simp only [allottedLoop, if_neg hc]

theorem methodJudged_tells : TellsMethod fig p s (methodJudged fig ticks p s) := by
  intro hm
  rw [methodJudged, if_neg hm, decideMethod]
  refine ⟨?_, raiseFlag_sets _ _⟩
  rw [prog, raiseFlag_pgc]
  exact congrArg Programme.refreshOwed (prog_onProg_self ..)

theorem retains_refreshCause (p : Prog) (s : State) : Retains s (refreshCause p s) := ⟨fun _ h => h, fun _ => refreshCause_owed⟩

theorem retains_methodJudged : Retains s (methodJudged fig ticks p s) := by
  rw [methodJudged]
  split
  · exact .of_eq rfl rfl
  · refine Retains.raise (t := refreshCause p _) (Retains.trans ?_ (retains_refreshCause p _)) _
    exact .of_eq rfl rfl

/-- What a collapse tells the engine leaves the programmes and the flags alone (R80). -/
theorem retains_collapse : Retains (methodJudged fig ticks p s) (allocateProg fig ticks p s) := by
  rw [allocateProg_eq]
  split
  · exact .of_eq rfl rfl
  · exact .refl _

theorem allocateProg_tells : TellsMethod fig p s (allocateProg fig ticks p s) := methodJudged_tells.retains retains_collapse

theorem retains_allocateProg : Retains s (allocateProg fig ticks p s) := retains_methodJudged.trans retains_collapse

end

/-! ### The programmes that take part (R63) -/

/-- `t` is `s` once the programmes of `l` are allocated: of the rates and the engine, their records and loops alone. -/
structure Allocates (fig : AllocFigures) (ticks : Nat) (l : List Prog) (s t : State) : Prop where
  alike : Alike s t
  retains : Retains s t
  ral : t.ral = { s.ral with progs := t.ral.progs }
  cde : t.cde = { s.cde with loops := t.cde.loops }
  rate : ∀ p, rateOf t p = if p ∈ l then allottedRate fig ticks p s else rateOf s p
  loop : ∀ p, loopOf t p = if p ∈ l then allottedLoop fig p s else loopOf s p
  tells : ∀ p ∈ l, TellsMethod fig p s t

section
variable {s t u : State} {p : Prog} {l : List Prog} {fig : AllocFigures} {ticks : Nat}

theorem Allocates.refl (s : State) : Allocates fig ticks [] s s :=
  ⟨.refl s, .refl s, rfl, rfl, fun _ => rfl, fun _ => rfl, fun _ h => absurd h List.not_mem_nil⟩

theorem get_set_alloc {α : Type} {t : Table 4 α} {p q : Prog} (f : Prog → α) :
    (t.set p (f p)).get q = if q = p then f q else t.get q := by
  by_cases h : q = p
  · subst h; rw [if_pos rfl]; exact Table.get_set_self ..
  · rw [if_neg h]; exact Table.get_set_ne _ _ (Ne.symm h)

theorem allocates_one : Allocates fig ticks [p] s (allocateProg fig ticks p s) := by
  obtain ⟨-, -, -, hcde, hral, -, -, hclm, -, hsri, -, hprogs, -⟩ := calm_eq (allocateProg_calm (fig := fig) (ticks := ticks) (p := p) (s := s))
  have hmarks : ∀ q, ExceptMarks (prog (allocateProg fig ticks p s) q) (prog s q) := exceptMarks_of hprogs
  refine ⟨.of_parts hsri hclm (fun q => ?_) (fun q => ?_) fun q => ?_, retains_allocateProg, ?_, ?_, fun q => ?_, fun q => ?_, ?_⟩
  · rw [hmarks q]
  · rw [hmarks q]
  · rw [hmarks q]
  · rw [hral]
  · rw [hcde]
  · simp only [rateOf, hral, List.mem_singleton]
    exact get_set_alloc (allottedRate fig ticks · s)
  · simp only [loopOf, hcde, List.mem_singleton]
    exact get_set_alloc (allottedLoop fig · s)
  · intro q hq
    obtain rfl := List.mem_singleton.mp hq
    exact allocateProg_tells

/-- An allocation of one more programme, which no earlier one touches. -/
theorem Allocates.cons (hp : p ∉ l) (h1 : Allocates fig ticks [p] s t) (h2 : Allocates fig ticks l t u) :
    Allocates fig ticks (p :: l) s u := by
  have hrate : ∀ q ∈ l, rateOf t q = rateOf s q := fun q hq => by
    rw [h1.rate, if_neg (by rintro h; obtain rfl := List.mem_singleton.mp h; exact hp hq)]
  have hloop : ∀ q ∈ l, loopOf t q = loopOf s q := fun q hq => by
    rw [h1.loop, if_neg (by rintro h; obtain rfl := List.mem_singleton.mp h; exact hp hq)]
  refine ⟨h1.alike.trans h2.alike, h1.retains.trans h2.retains, ?_, ?_, fun q => ?_, fun q => ?_, fun q hq => ?_⟩
  · rw [h2.ral, h1.ral]
  · rw [h2.cde, h1.cde]
  · rw [h2.rate]
    by_cases hq : q ∈ l
    · rw [if_pos hq, if_pos (List.mem_cons_of_mem _ hq), allottedRate_congr h1.alike (hrate q hq)]
    · rw [if_neg hq, h1.rate]
      simp [hq]
  · rw [h2.loop]
    by_cases hq : q ∈ l
    · rw [if_pos hq, if_pos (List.mem_cons_of_mem _ hq), allottedLoop_congr h1.alike (hrate q hq) (hloop q hq)]
    · rw [if_neg hq, h1.loop]
      simp [hq]
  · obtain rfl | hq := List.mem_cons.mp hq
    · exact (h1.tells q (List.mem_singleton_self q)).retains h2.retains
    · exact (h2.tells q hq).congr h1.alike (hrate q hq)

theorem allocates_all (hl : l.Nodup) (s : State) :
    Allocates fig ticks l s (l.foldl (fun s p => allocateProg fig ticks p s) s) := by
  induction l generalizing s with
  | nil => exact .refl s
  | cons p l ih =>
    obtain ⟨hp, hl⟩ := List.nodup_cons.mp hl
    exact .cons hp allocates_one (ih hl _)

end

end Sys2Proof.Machine
end

section
/-! PROOF. The allocation of a period start (R63, R65 to R68, R70 to R80). -/

namespace Sys2Proof.Machine

/-! ### The figures of an allocation (R65, R66, R70, R72) -/

/-- The length of the period that a period start begins (R6). -/
def periodTicks (s : State) : Nat := ((s.onTbu Timebase.startPeriod).tbu.period.map (·.length)).getD 0

/-- The state of which an allocation takes its figures: the period begun and every pending record copied (R68). -/
def copied (s : State) : State := copyRecords (firstAllocated (s.onTbu Timebase.startPeriod))

/-- The figures stored with the participation marks (R63, R82). -/
def recorded (s : State) : State :=
  s.onRal fun a => { a with
    figures := allocFigures s
    progs := Table.ofFn fun p => { a.progs.get p with tookPart := takesPart s p } }

/-- The figures stored, and POOL-SHORT raised where the minima exceed the pool (R72). -/
def figured (s : State) : State :=
  if (allocFigures s).videoPool < (allocFigures s).minSum then raiseFlag .poolShort (recorded s) else recorded s

/-- The effective weight of a programme's pending record (R70). -/
def pendingWeight (s : State) (p : Prog) : Nat :=
  (rateOf s p).pending.weight * (if isBoosted s p then (rateOf s p).pending.boost else 1)

section
variable {s : State} {p : Prog}

theorem periodTicks_eq : periodTicks s = if s.tbu.den ≤ s.tbu.acc + s.tbu.num then s.tbu.base + 1 else s.tbu.base := by
  simp only [periodTicks, State.onTbu_tbu, Timebase.startPeriod, cadenceStep, Option.map_some, Option.getD_some]
  split <;> rfl

theorem takesPart_iff : takesPart s p = true ↔ (prog s p).state = .starting ∨ (prog s p).state = .running := by
  simp only [takesPart, Bool.or_eq_true, beq_iff_eq]

theorem mem_participants : p ∈ participants s ↔ takesPart s p = true := by
  simp only [participants, List.mem_filter, mem_four, true_and]

theorem sum_vals {α : Type} (f : α → Nat) (t : Table 4 α) :
    (t.vals.map f).sum = ((List.finRange 4).map fun i => f (t.get i)).sum := by
  rw [vals_four]
  rfl

/-- A sum over the programmes that take part counts the others as 0. -/
theorem sum_participants (f : Prog → Nat) :
    ((participants s).map f).sum = ((List.finRange 4).map fun p => if takesPart s p then f p else 0).sum := by
  have hfour : List.finRange 4 = four := rfl
  rw [hfour, participants]
  induction four with
  | nil => rfl
  | cons p l ih =>
    rw [List.filter_cons, List.map_cons, List.sum_cons, ← ih]
    split
    · rw [List.map_cons, List.sum_cons]
    · rw [Nat.zero_add]

/-! ### What the programmes' allocations find (R63, R68) -/

theorem alike_copied (s : State) : Alike s (copied s) := by
  have hprog : ∀ p, prog (copied s) p = if (prog s p).state = .starting ∧ (prog s p).awaiting then
      { prog s p with awaiting := false, firstPic := some (s.onTbu Timebase.startPeriod).tbu.pic } else prog s p :=
    fun p => Table.get_map ..
  refine .of_parts rfl rfl (fun p => ?_) (fun p => ?_) fun p => ?_ <;>
  · rw [hprog]
    split <;> rfl

theorem rateOf_copied (s : State) (p : Prog) : rateOf (copied s) p = { rateOf s p with active := (rateOf s p).pending } :=
  Table.get_map ..

theorem takesPart_copied (s : State) (p : Prog) : takesPart (copied s) p = takesPart s p := by
  simp only [takesPart, (alike_copied s).state]

theorem effectiveWeight_copied (s : State) (p : Prog) : effectiveWeight (copied s) p = pendingWeight s p := by
  simp only [effectiveWeight, pendingWeight, rateOf_copied, (alike_copied s).boosted]
  split
  · rfl
  · rw [Nat.mul_one]

/-- The figures in the words of R65, R66, R70 and R72. -/
theorem allocFigures_copied (s : State) : allocFigures (copied s) = {
    usable := usableCapacity s
    soundReserve := soundReserve s
    labelReserve := s.ral.labelReserve
    videoPool := videoPool (usableCapacity s) (soundReserve s + s.ral.labelReserve) s.ral.headroom
    weightSum := ((List.finRange 4).map fun p => if takesPart s p then pendingWeight s p else 0).sum
    minSum := ((List.finRange 4).map fun p => if takesPart s p then (rateOf s p).pending.minRate else 0).sum } := by
  simp only [allocFigures, sum_participants, effectiveWeight_copied, takesPart_copied, rateOf_copied]
  rfl

theorem figured_calm (s : State) : (figured s).calm = (recorded s).calm := by
  rw [figured]
  split
  · exact raiseFlag_calm ..
  · rfl

theorem figured_ral (s : State) : (figured s).ral = (recorded s).ral := by
  obtain ⟨-, -, -, -, hral, -⟩ := calm_eq (figured_calm s)
  exact hral

theorem figured_cde (s : State) : (figured s).cde = s.cde := by
  obtain ⟨-, -, -, hcde, -⟩ := calm_eq (figured_calm s)
  exact hcde

theorem alike_figured (s : State) : Alike s (figured s) :=
  Alike.trans (t := recorded s) (.of_parts rfl rfl (fun _ => rfl) (fun _ => rfl) fun _ => rfl) (.of_calm (figured_calm s))

theorem rateOf_figured (s : State) (p : Prog) : rateOf (figured (copied s)) p =
    { rateOf s p with active := (rateOf s p).pending, tookPart := takesPart s p } := by
  rw [rateOf, figured_ral]
  refine (Table.get_ofFn ..).trans ?_
  rw [takesPart_copied]
  exact congrArg (fun r : RateProg => { r with tookPart := takesPart s p }) (rateOf_copied s p)

theorem figured_short (s : State) (h : (allocFigures s).videoPool < (allocFigures s).minSum) :
    (flagRec (figured s) .poolShort).set = true := by
  rw [figured, if_pos h]
  exact raiseFlag_sets ..

theorem alike_found (s : State) : Alike s (figured (copied s)) := (alike_copied s).trans (alike_figured (copied s))

/-- The allocation of a period start is that of its participants, in ascending number. -/
theorem allotted_allocates (s : State) : Allocates (allocFigures (copied s)) (periodTicks s) (participants (copied s))
    (figured (copied s)) (allotted s) := allocates_all (.filter _ (by decide)) _

end

/-! ### The records and loops that an allocation leaves (R71 to R80) -/

section
variable {s : State} {p : Prog} {fig : AllocFigures} {ticks : Nat}

theorem sharedRate_figured (s : State) (p : Prog) : sharedRate fig p (figured (copied s)) =
    min (rateOf s p).pending.maxRate (max (rateOf s p).pending.minRate
      (fig.videoPool * pendingWeight s p / fig.weightSum)) := by
  have hweight : effectiveWeight (figured (copied s)) p = pendingWeight s p := by
    rw [← effectiveWeight_copied]
    simp only [effectiveWeight, rateOf_figured, rateOf_copied, (alike_figured (copied s)).boosted]
  simp only [sharedRate, allocRate, clampNat, hweight, rateOf_figured]

/-- The record of a programme that takes part, in the words of R71, R73 to R76 and R79. -/
theorem allottedRate_figured {rate b fullness reduction : Nat} (hp : takesPart s p = true)
    (hrate : rate = sharedRate fig p (figured (copied s)))
    (hb : b = (rate * ticks + if (prog s p).state = .starting then 0 else (rateOf s p).carry) / 48)
    (hfullness : fullness = (if (prog s p).state = .starting then 0 else (rateOf s p).fullness) - b)
    (hreduction : reduction = (if rate * (prog s p).cfg.delay / 2 < fullness then
      (fullness - rate * (prog s p).cfg.delay / 2) / 4 else 0)) :
    allottedRate fig ticks p (figured (copied s)) = {
      pending := (rateOf s p).pending
      active := (rateOf s p).pending
      rate := rate
      prevRate := rate
      boosted := isBoosted s p
      tookPart := true
      budget := b
      carry := if (prog s p).state = .starting then (rateOf s p).carry else (rate * ticks + (rateOf s p).carry) % 48
      fullness := if (prog s p).state = .starting then (rateOf s p).fullness else fullness
      limit := rate * (prog s p).cfg.delay
      anchorTarget := if b = 0 then 0 else max (b / 4) (b * (prog s p).cfg.factor - reduction)
      followTarget := if b = 0 then 0 else max (b / 4) (b - reduction)
      decided := decidedMethod rate (rateOf s p).pending (rateOf s p).decided } := by
  have halike := alike_found s
  subst hreduction hfullness hb
  simp only [allottedRate, figuredRate, allocate, methodAfter, ← hrate, halike.state, halike.cfg, halike.boosted, rateOf_figured, hp,
    targetOf, targetReduction]
  by_cases hs : (prog s p).state = .starting
  · simp only [hs, beq_self_eq_true, if_true]
  · simp only [hs, beq_eq_false_iff_ne.mpr hs, Bool.false_eq_true, if_false]

/-- What the engine is told of a programme that takes part, in the words of R48, R79 and R80. -/
theorem allottedLoop_figured {rate : Nat} {m : Method} (hp : takesPart s p = true)
    (hrate : rate = sharedRate fig p (figured (copied s)))
    (hm : m = decidedMethod rate (rateOf s p).pending (rateOf s p).decided) :
    allottedLoop fig p (figured (copied s)) = { loopOf s p with
      pending := if (rateOf s p).decided = m then (loopOf s p).pending
        else if (loopOf s p).method = m then none else some m
      collapse := if (prog s p).state = .running ∧ 0 < (rateOf s p).pending.collapse ∧
          rate * 100 < (rateOf s p).prevRate * (100 - (rateOf s p).pending.collapse) then some (rateOf s p).pending.step
        else (loopOf s p).collapse } := by
  have halike := alike_found s
  have hl : loopOf (figured (copied s)) p = loopOf s p := by
    rw [loopOf, figured_cde]
    rfl
  have hcollapses : collapses fig p (figured (copied s)) = true ↔ (prog s p).state = .running ∧
      0 < (rateOf s p).pending.collapse ∧
      rate * 100 < (rateOf s p).prevRate * (100 - (rateOf s p).pending.collapse) := by
    have hrunning : (prog s p).state ≠ .starting ↔ (prog s p).state = .running := by
      obtain hs | hs := takesPart_iff.mp hp <;> simp [hs]
    simp only [collapses, collapsed, ← hrate, halike.state, rateOf_figured, Bool.and_eq_true, Bool.not_eq_true',
      beq_eq_false_iff_ne, decide_eq_true_eq, hrunning]
  simp only [allottedLoop, methodAfter, ← hrate, rateOf_figured, hl, ← hm, hcollapses]

/-- Of the Rate Allocator, the allocation changes the figures and the programmes' records. -/
theorem allotted_ral : (allotted s).ral = { s.ral with figures := allocFigures (copied s), progs := (allotted s).ral.progs } := by
  rw [(allotted_allocates s).ral, figured_ral]
  rfl

/-- Of the Coding Engine, the allocation changes the programmes' loops. -/
theorem allotted_cde : (allotted s).cde = { s.cde with loops := (allotted s).cde.loops } := by
  rw [(allotted_allocates s).cde, figured_cde]
  rfl

theorem rateOf_allotted : rateOf (allotted s) p =
    if takesPart s p then allottedRate (allocFigures (copied s)) (periodTicks s) p (figured (copied s))
    else { rateOf s p with active := (rateOf s p).pending, tookPart := takesPart s p } := by
  simp only [(allotted_allocates s).rate, mem_participants, takesPart_copied, rateOf_figured]

theorem loopOf_allotted : loopOf (allotted s) p =
    if takesPart s p then allottedLoop (allocFigures (copied s)) p (figured (copied s)) else loopOf s p := by
  simp only [(allotted_allocates s).loop, mem_participants, takesPart_copied]
  rw [loopOf, figured_cde]
  rfl

/-- A method turned by the allocation owes a refresh and sets METHOD-CHANGED (R34, R79). -/
theorem allotted_tells (hp : takesPart s p = true) (hturned : (rateOf s p).decided ≠ (rateOf (allotted s) p).decided) :
    (prog (allotted s) (fold s p)).refreshOwed = true ∧ (flagRec (allotted s) .methodChanged).set = true := by
  have htells := (allotted_allocates s).tells p (mem_participants.mpr ((takesPart_copied s p).trans hp))
  rw [TellsMethod, rateOf_figured, (alike_found s).fold] at htells
  rw [rateOf_allotted, if_pos hp] at hturned
  exact htells hturned

end

/-- Settles O31: the figures of the allocation, the programmes that take no part, and those that do. -/
theorem periodStart_allocatesRates : Obligations.PeriodStart_AllocatesRates := by
  intro boosted s hq hheld hdue hboosted
  obtain rfl : boosted = isBoosted s := funext fun p => Bool.eq_iff_iff.mpr ((hboosted p).trans isBoosted_iff.symm)
  obtain ⟨t, hexec, hral, hcde, hretains⟩ := periodStart_allotted hq hheld hdue
  have hrate : ∀ p, rateOf t p = rateOf (allotted s) p := fun p => by rw [rateOf, hral]; rfl
  have hloop : ∀ p, loopOf t p = loopOf (allotted s) p := fun p => by rw [loopOf, hcde]; rfl
  refine ⟨t, periodTicks s, usableCapacity s, soundReserve s, _, _, _, takesPart s, pendingWeight s, hexec, periodTicks_eq,
    fun _ => takesPart_iff, fun _ => rfl, sum_vals workingCapacity s.lsu, sum_vals streamRate s.sdp, rfl, rfl, rfl, fun hshort => ?_,
    ?_, ?_, ?_, ?_, fun p hp => ⟨?_, ?_⟩, fun p hp => ?_⟩
  · refine ((allotted_allocates s).retains.trans hretains).flags _ (figured_short _ ?_)
    rw [allocFigures_copied]
    exact hshort
  · rw [hral, allotted_ral]
  · rw [hral, allotted_ral]
  · rw [hral, allotted_ral]
    exact allocFigures_copied s
  · rw [hcde, allotted_cde]
  · rw [hrate, rateOf_allotted, if_neg (Bool.eq_false_iff.mp hp), hp]
  · rw [hloop, loopOf_allotted, if_neg (Bool.eq_false_iff.mp hp)]
  · have hr := allottedRate_figured (fig := allocFigures (copied s)) (ticks := periodTicks s) hp rfl rfl rfl rfl
    refine ⟨_, sharedRate (allocFigures (copied s)) p (figured (copied s)), _, _, _, rfl, ?_, rfl, rfl, rfl, ?_, ?_, ?_⟩
    · rw [sharedRate_figured, allocFigures_copied]
      rfl
    · rw [hrate, rateOf_allotted, if_pos hp, hr]
      rfl
    · rw [hloop, hrate, rateOf_allotted, loopOf_allotted, if_pos hp, if_pos hp, hr]
      exact allottedLoop_figured hp rfl rfl
    · intro hturned
      rw [hrate] at hturned
      obtain ⟨howed, hflag⟩ := allotted_tells hp hturned
      exact ⟨hretains.marks _ howed, hretains.flags _ hflag⟩

end Sys2Proof.Machine
end

section
/-! PROOF. Sound cells: routed, stored in a jitter store, or counted (R85, R86, R199). -/

namespace Sys2Proof.Machine

section
variable {i : RingStream} {k : Fin 32} {c n : BlockNo} {x : SoundBlock} {held : List JitterBlock} {s : State}

/-! ### R86's table -/

theorem cellCase_stored (hnear : (c - n).toNat < 4) (hnew : ∀ b ∈ held, b.block ≠ c) : cellCase n c held = .stored := by
  have hnone : (held.any fun b => b.block == c) = false := by simpa [List.any_eq_false] using hnew
  simp only [cellCase, hnear, hnone, if_true, Bool.false_eq_true, if_false]

theorem cellCase_duplicate (hnear : (c - n).toNat < 4) (hheld : ∃ b ∈ held, b.block = c) :
    cellCase n c held = .duplicate := by
  have hany : (held.any fun b => b.block == c) = true := by simpa [List.any_eq_true] using hheld
  simp only [cellCase, hnear, hany, if_true]

theorem cellCase_early (hfar : 4 ≤ (c - n).toNat) (hahead : (c - n).toNat < 32768) : cellCase n c held = .early := by
  simp only [cellCase, Nat.not_lt.mpr hfar, Nat.not_le.mpr hahead, if_false]

theorem cellCase_late (hbehind : 32768 ≤ (c - n).toNat) : cellCase n c held = .late := by
  simp only [cellCase, show ¬ (c - n).toNat < 4 by omega, hbehind, if_false, if_true]

/-! ### A sound cell at its input (R86) -/

/-- The input once a sound cell `gap` blocks after the next to mix is counted and discarded (R86). -/
def Input.cellCounted (gap : Nat) (v : Input) : Input :=
  if gap < 4 then { v with duplicate := min (v.duplicate + 1) 65535 }
  else if gap < 32768 then { v with early := min (v.early + 1) 65535 }
  else { v with late := min (v.late + 1) 65535 }

theorem soundArrival_unaligned (h : s.smx.aligned = false) : soundArrival k c x s = s := by
  simp only [soundArrival, h, Bool.false_eq_true, if_false]

theorem soundArrival_stores (h : s.smx.aligned = true) (hnear : (c - s.smx.next).toNat < 4)
    (hnew : ∀ b ∈ (inputOf s k).store, b.block ≠ c) :
    soundArrival k c x s = s.onInput k fun v => { v with store := v.store ++ [⟨c, x⟩] } := by
  simp only [soundArrival, h, if_true, cellCase_stored hnear hnew]

/-- A cell that is held already, or lies outside the four blocks that the store takes, is counted by its case. -/
theorem soundArrival_counts (h : s.smx.aligned = true)
    (hout : 4 ≤ (c - s.smx.next).toNat ∨ ∃ b ∈ (inputOf s k).store, b.block = c) :
    soundArrival k c x s = raiseFlag .soundLate (s.onInput k (·.cellCounted (c - s.smx.next).toNat)) := by
  simp only [soundArrival, h, if_true]
  by_cases hnear : (c - s.smx.next).toNat < 4
  · have hheld := hout.resolve_left (Nat.not_le.mpr hnear)
    simp only [cellCase_duplicate hnear hheld, Input.cellCounted, hnear, if_true, satInc]
  · by_cases hahead : (c - s.smx.next).toNat < 32768
    · simp only [cellCase_early (Nat.not_lt.mp hnear) hahead, Input.cellCounted, hnear, hahead, if_true, if_false, satInc]
    · simp only [cellCase_late (Nat.not_lt.mp hahead), Input.cellCounted, hnear, hahead, if_false, satInc]

/-! ### A sound cell by its stream's entry (R85, R199) -/

theorem exec_soundCell_unrouted (hq : Quiet s) (h : s.sri.table.get i = .none) :
    exec (.soundCell i c x) s = .next { s with sri := { s.sri with unrouted := min (s.sri.unrouted + 1) 65535 } } := by
  have hroute : soundCell i c x s = countUnrouted s := by simp only [soundCell, route, h]
  show Host.Outcome.next (finish (soundCell i c x s)) = _
  rw [hroute]
  exact congrArg Host.Outcome.next (finish_kept hq rfl rfl)

theorem exec_soundCell_wrongKind (hq : Quiet s)
    (h : s.sri.table.get i = .tally ∨ s.sri.table.get i = .control ∨ ∃ d, s.sri.table.get i = .desk d) :
    exec (.soundCell i c x) s = .next { s with sri := { s.sri with wrongKind := min (s.sri.wrongKind + 1) 65535 } } := by
  have hroute : soundCell i c x s = countWrongKind s := by
    obtain h | h | ⟨d, h⟩ := h <;> simp only [soundCell, route, h]
  show Host.Outcome.next (finish (soundCell i c x s)) = _
  rw [hroute]
  exact congrArg Host.Outcome.next (finish_kept hq rfl rfl)

theorem exec_soundCell_input (h : s.sri.table.get i = .soundInput k) :
    exec (.soundCell i c x) s = .next (finish (soundArrival k c x s)) := by
  have hroute : soundCell i c x s = soundArrival k c x s := by simp only [soundCell, route, h]
  show Host.Outcome.next (finish (soundCell i c x s)) = _
  rw [hroute]

/-- A raised flag whose notice has room and no home copy is the end of a command that leaves nothing else to do (R208). -/
theorem finish_raiseFlag {f : EventFlag} (hq : Quiet s) (hhome : s.cmu.noticesHome = false) (hroom : s.cmu.notices.length < 32) :
    finish (raiseFlag f s) = raiseFlag f s := by
  rw [raiseFlag_raised hhome hroom]
  exact finish_quiet (quiet_of hq rfl rfl rfl)

end

/-- Settles O35: the cell by its stream's entry, and at an input by R86's table. -/
theorem soundCell_isStoredOrCounted : Obligations.SoundCell_IsStoredOrCounted := by
  refine fun i c x s hq => ⟨exec_soundCell_unrouted hq, exec_soundCell_wrongKind hq, fun k hk => ⟨fun h => ?_, ?_, ?_⟩⟩
  · rw [exec_soundCell_input hk, soundArrival_unaligned h, finish_quiet hq]
  · intro h hnear hnew
    rw [exec_soundCell_input hk, soundArrival_stores h hnear hnew]
    exact congrArg Host.Outcome.next (finish_kept hq rfl rfl)
  · intro h hhome hroom hout
    obtain ⟨u, hu⟩ : ∃ u, u = s.onInput k (·.cellCounted (c - s.smx.next).toNat) := ⟨_, rfl⟩
    have hquiet : Quiet u := by rw [hu]; exact quiet_of hq rfl rfl rfl
    refine ⟨raiseFlag .soundLate u, ?_, raiseFlag_sets _ _, ?_⟩
    · rw [exec_soundCell_input hk, soundArrival_counts h hout, ← hu,
        finish_raiseFlag hquiet (by rw [hu]; exact hhome) (by rw [hu]; exact hroom)]
    · rw [raiseFlag_raised (by rw [hu]; exact hhome) (by rw [hu]; exact hroom), hu]
      rfl

end Sys2Proof.Machine
end

section
/-! PROOF. TRIGGER-SET, and the Clip Marker's answer to a trigger (R100, R102, R104). -/

namespace Sys2Proof.Machine

/-- The clip table once record `n`, where it is OPEN, has entered POST-ROLL (R131). -/
def rolledOut (n : Nat) (m : ClipMarker) : ClipMarker :=
  { m with
    clips := m.clips.map fun c =>
      if c.number = n ∧ c.state = .opened then { c with state := .postRoll, count := m.postRoll } else c }

/-! ### The Clip Marker's answer (R102) -/

section
variable {k : Fin 4} {n : Nat} {a : TriggerReply} {early late : List TriggerReply} {s t : State}

theorem answerTrigger_none (h : ∀ a ∈ s.smx.answers, a.trigger ≠ k) : answerTrigger k s = s := by
  have hnone : (s.smx.answers.find? fun a => a.trigger == k) = none :=
    List.find?_eq_none.mpr fun a ha => by simpa using h a ha
  simp only [answerTrigger, hnone]

/-- The oldest answer for the trigger is taken, and those of the others stay in their order. -/
theorem answerTrigger_oldest (hs : s.smx.answers = early ++ a :: late) (ha : a.trigger = k) (h : ∀ b ∈ early, b.trigger ≠ k) :
    answerTrigger k s = takeAnswer k a.clip { s with smx := { s.smx with answers := early ++ late } } := by
  have hnone : (early.find? fun a => a.trigger == k) = none := List.find?_eq_none.mpr fun b hb => by simpa using h b hb
  have hfind : (s.smx.answers.find? fun a => a.trigger == k) = some a := by
    rw [hs, List.find?_append, hnone, Option.none_or, List.find?_cons_of_pos (by simpa using ha)]
  have herase : s.smx.answers.erase a = early ++ late := by
    have hnot : a ∉ early := fun hmem => h a hmem ha
    rw [hs, List.erase_append_right _ hnot, List.erase_cons_head]
  simp only [answerTrigger, hfind, State.onSmx, herase]

theorem takeAnswer_unawaited {clip : Option Nat} (h : (triggerOf s k).clip ≠ .awaited) : takeAnswer k clip s = s := by
  simp only [takeAnswer, h, if_false]

theorem takeAnswer_refused (h : (triggerOf s k).clip = .awaited) :
    takeAnswer k none s = s.onTrigger k fun t => { t with clip := .absent } := by
  simp only [takeAnswer, h, if_true]

theorem takeAnswer_records (h : (triggerOf s k).clip = .awaited)
    (hst : (triggerOf s k).state = .active ∨ (triggerOf s k).state = .releasing) :
    takeAnswer k (some n) s = s.onTrigger k fun t => { t with clip := .number n } := by
  obtain hst | hst := hst <;> simp only [takeAnswer, h, hst, if_true]

/-- A trigger released while its clip was awaited sends the MARK-OUT it owes (R102, R131). -/
theorem takeAnswer_marksOut (h : (triggerOf s k).clip = .awaited)
    (hst : (triggerOf s k).state = .idle ∨ (triggerOf s k).state = .arming) (hm : ClipsOk s.clm) (hp : s.clm.postRoll ≠ 0) :
    takeAnswer k (some n) s = (s.onTrigger k fun t => { t with clip := .absent }).onClm (rolledOut n) := by
  have hsent : takeAnswer k (some n) s = silentMarkOut n (s.onTrigger k fun t => { t with clip := .absent }) := by
    obtain hst | hst := hst <;> simp only [takeAnswer, h, hst, if_true]
  rw [hsent]
  exact silent_markOut n _ hm hp

/-- TRIGGER-ANSWER, by what the trigger makes of it. -/
theorem exec_triggerAnswer (hq : Quiet s) (h : answerTrigger k s = t) (hhsc : t.hsc = s.hsc) (hcmu : t.cmu = s.cmu) :
    exec (.triggerAnswer k) s = .next t := by
  subst h
  exact congrArg Host.Outcome.next (finish_kept hq hhsc hcmu)

end

/-- Settles O44: no answer, or the oldest one, by the trigger's clip and state. -/
theorem triggerAnswer_recordsOrMarksOut : Obligations.TriggerAnswer_RecordsOrMarksOut := by
  refine fun k s hq hm hp => ⟨fun h => exec_triggerAnswer hq (answerTrigger_none h) rfl rfl, fun early a late hs ha h => ?_⟩
  have holdest := answerTrigger_oldest hs ha h
  refine ⟨fun hclip => ?_, fun hclip hnone => ?_, fun n hclip hsome => ⟨fun hst => ?_, fun hst => ?_⟩⟩
  · exact exec_triggerAnswer hq (holdest.trans (takeAnswer_unawaited hclip)) rfl rfl
  · rw [hnone] at holdest
    exact exec_triggerAnswer hq (holdest.trans (takeAnswer_refused hclip)) rfl rfl
  · rw [hsome] at holdest
    exact exec_triggerAnswer hq (holdest.trans (takeAnswer_records hclip hst)) rfl rfl
  · rw [hsome] at holdest
    exact exec_triggerAnswer hq (holdest.trans (takeAnswer_marksOut hclip hst hm hp)) rfl rfl

/-! ### The trigger that a TRIGGER-SET forms (R100) -/

section
variable {h : Hdr} {i : RingStream} {f : TriggerFields} {s : State} {k : Fin 4} {bus : Fin 8} {cameras : Table 4 Bool}
  {prio : Priority} {old new : Trigger} {n : Nat}

theorem Priority.ofCode_code (p : Priority) : Priority.ofCode p.code = some p := by cases p <;> rfl

/-- A number that names an object, stored or given. -/
theorem finOf_getD {n : Nat} {v : Option Nat} {stored new : Fin n} (h : v = none ∧ new = stored ∨ v = some new.val) :
    finOf n (v.getD stored.val) = some new := by
  obtain ⟨rfl, rfl⟩ | rfl := h <;> exact finOf_val _

/-- The set of numbers that a field names, or the stored one where the field is absent. -/
theorem setOf_getD {n : Nat} {l : Option (List Nat)} (stored : Table n Bool) (h : ∀ v, l = some v → ∀ c ∈ v, c < n) :
    ∃ t, (l.map (setOf n)).getD (some stored) = some t ∧ (l = none → t = stored) ∧
      ∀ v, l = some v → ∀ c : Fin n, t.get c = true ↔ c.val ∈ v := by
  cases l with
  | none => exact ⟨stored, rfl, fun _ => rfl, fun v hv => nomatch hv⟩
  | some v =>
    obtain ⟨t, ht, hget⟩ := setOf_some (h v rfl)
    refine ⟨t, ht, fun hv => (nomatch hv), fun w hw c => ?_⟩
    cases hw
    rw [hget, decide_eq_true_eq]

/-- The trigger that a TRIGGER-SET forms, in the words of R100. -/
theorem formTrigger_eq (f : TriggerFields) (bus : Fin 8) (cameras : Table 4 Bool) (prio : Priority) (old : Trigger) :
    formTrigger f bus cameras prio old = { old with
      bus := bus
      hi := loaded 0 8388607 old.hi f.hi
      lo := loaded 0 8388607 old.lo f.lo
      nOpen := loaded 1 255 old.nOpen f.nOpen
      nClose := loaded 1 255 old.nClose f.nClose
      cameras := cameras
      priority := prio } := by
  simp only [formTrigger, Config.maxSample, getD_clamp 0 8388607 _ _ (by decide), getD_clamp 1 255 _ _ (by decide)]

theorem triggerClamped_eq (f : TriggerFields) : triggerClamped f =
    (outside 0 8388607 f.hi || outside 0 8388607 f.lo || outside 1 255 f.nOpen || outside 1 255 f.nClose) := by
  simp only [triggerClamped, Config.maxSample, clampedBy_outside 0 8388607 _ (by decide), clampedBy_outside 1 255 _ (by decide)]

/-- A bus, camera or priority out of range names no choice (R100). -/
theorem triggerChoices_none (h : (∃ v, f.bus = some v ∧ 7 < v) ∨ (∃ l, f.cameras = some l ∧ ∃ c ∈ l, 3 < c) ∨
    (∃ v, f.priority = some v ∧ v ≠ 1 ∧ v ≠ 2)) : triggerChoices f old = none := by
  obtain ⟨v, hv, hout⟩ | ⟨l, hl, hout⟩ | ⟨v, hv, h1, h2⟩ := h
  · have hbus : finOf 8 v = none := fin_bad hout
    simp only [triggerChoices, hv, Option.getD_some, hbus, Option.bind_none]
  · have hset : setOf 4 l = none := setOf_none hout
    simp only [triggerChoices, hl, Option.map_some, Option.getD_some, hset, Option.bind_none, Option.bind_fun_none]
  · have hprio : Priority.ofCode v = none := by
      unfold Priority.ofCode
      split
      · exact absurd rfl h1
      · exact absurd rfl h2
      · rfl
    simp only [triggerChoices, hv, Option.getD_some, hprio, Option.map_none, Option.bind_fun_none]

theorem triggerChoices_some (hbus : f.bus = none ∧ bus = old.bus ∨ f.bus = some bus.val)
    (hprio : f.priority = none ∧ prio = old.priority ∨ f.priority = some prio.code)
    (hcams : (f.cameras.map (setOf 4)).getD (some old.cameras) = some cameras) :
    triggerChoices f old = some (bus, cameras, prio) := by
  have hcode : Priority.ofCode (f.priority.getD old.priority.code) = some prio := by
    obtain ⟨hf, rfl⟩ | hf := hprio <;> rw [hf] <;> exact Priority.ofCode_code _
  simp only [triggerChoices, finOf_getD hbus, hcams, hcode, Option.bind_some, Option.map_some]

/-! ### A formed trigger stored (R104) -/

/-- With the bus and the thresholds as they were the trigger goes on (R104). -/
theorem storeTrigger_keeps (hlo : new.lo < new.hi) (hbus : new.bus = (triggerOf s k).bus) (hhi : new.hi = (triggerOf s k).hi)
    (hsame : new.lo = (triggerOf s k).lo) : storeTrigger k new s = s.onTrigger k fun _ => new := by
  have hgoes : endsTrigger (triggerOf s k) new = false := by
    simp only [endsTrigger, ← hbus, ← hhi, ← hsame, bne_self_eq_false, Bool.false_or, Bool.and_eq_false_iff,
      beq_eq_false_iff_ne]
    omega
  simp only [storeTrigger, hgoes, Bool.false_eq_true, if_false]

theorem endsTrigger_of (h : new.lo < new.hi ∧ (new.bus ≠ old.bus ∨ new.hi ≠ old.hi ∨ new.lo ≠ old.lo) ∨ new.hi = 0 ∧ new.lo = 0) :
    endsTrigger old new = true := by
  simp only [endsTrigger, Bool.or_eq_true, Bool.and_eq_true, bne_iff_ne, beq_iff_eq]
  obtain ⟨-, hbus | hhi | hlo⟩ | hzero := h
  · exact .inl (.inl (.inl hbus.symm))
  · exact .inl (.inl (.inr hhi.symm))
  · exact .inl (.inr hlo.symm)
  · exact .inr hzero

/-- A trigger that ends without a recorded clip sends nothing (R104). -/
theorem storeTrigger_ends (h : endsTrigger (triggerOf s k) new = true) (hclip : ∀ n, new.clip ≠ .number n) :
    storeTrigger k new s = s.onTrigger k fun _ => { new with state := .idle, run := 0 } := by
  cases hc : new.clip with
  | number n => exact absurd hc (hclip n)
  | absent | awaited => simp only [storeTrigger, h, if_true, triggerMarkOut, triggerOf_onTrigger, hc]

/-- A trigger that ends with a recorded clip sends its MARK-OUT (R104, R131). -/
theorem storeTrigger_marksOut (h : endsTrigger (triggerOf s k) new = true) (hclip : new.clip = .number n) (hm : ClipsOk s.clm)
    (hp : s.clm.postRoll ≠ 0) :
    storeTrigger k new s =
      (s.onTrigger k fun _ => { new with state := .idle, run := 0, clip := .absent }).onClm (rolledOut n) := by
  simp only [storeTrigger, h, if_true, triggerMarkOut, triggerOf_onTrigger, hclip, onTrigger_onTrigger]
  exact silent_markOut n _ hm hp

/-! ### TRIGGER-SET (R100, R104) -/

theorem listsFit_triggerSet (h : f.cameras = none ∨ ∃ l, f.cameras = some l ∧ l.length ≤ 4) : listsFit (.triggerSet f) = true := by
  obtain h | ⟨l, h, hl⟩ := h
  · simp [listsFit, h]
  · simpa [listsFit, h] using hl

theorem exec_triggerSet_noTrigger (hr : VanReady h i s) (hl : listsFit (.triggerSet f) = true)
    (ht : f.trigger = none ∨ ∃ n, f.trigger = some n ∧ 3 < n) :
    exec (.triggerSet h f) s = .next { s with sri := ringReply s.sri h i 12 5 [] } :=
  exec_refused (c := .triggerSet f) (r := .refusedRange) rfl hr (by simp only [perform, triggerSet, objectOf_none ht]) hl (by simp)

theorem exec_triggerSet_noChoice (hr : VanReady h i s) (hl : listsFit (.triggerSet f) = true) (ht : f.trigger = some k.val)
    (hc : triggerChoices f (triggerOf s k) = none) :
    exec (.triggerSet h f) s = .next { s with sri := ringReply s.sri h i 12 5 [] } :=
  exec_refused (c := .triggerSet f) (r := .refusedRange) rfl hr
    (by simp only [perform, triggerSet, objectOf_some ht, atHead_triggerOf, hc]) hl (by simp)

/-- Thresholds formed in the wrong order are refused (R100). -/
theorem exec_triggerSet_thresholds (hr : VanReady h i s) (hl : listsFit (.triggerSet f) = true) (ht : f.trigger = some k.val)
    (hc : triggerChoices f (triggerOf s k) = some (bus, cameras, prio))
    (hnew : formTrigger f bus cameras prio (triggerOf s k) = new) (hle : new.hi ≤ new.lo) (hne : new.hi ≠ 0 ∨ new.lo ≠ 0) :
    exec (.triggerSet h f) s = .next { s with sri := ringReply s.sri h i 12 5 [] } :=
  exec_refused (c := .triggerSet f) (r := .refusedRange) rfl hr
    (by simp only [perform, triggerSet, objectOf_some ht, atHead_triggerOf, hc, hnew]; rw [if_pos (by omega)]) hl (by simp)

/-- A formed trigger whose thresholds stand is stored, and the reply is DONE or DONE-CLAMPED. -/
theorem exec_triggerSet_stores (hr : VanReady h i s) (hl : listsFit (.triggerSet f) = true) (ht : f.trigger = some k.val)
    (hc : triggerChoices f (triggerOf s k) = some (bus, cameras, prio))
    (hnew : formTrigger f bus cameras prio (triggerOf s k) = new) (hok : new.lo < new.hi ∨ new.hi = 0 ∧ new.lo = 0)
    {x : Mixer} {m : ClipMarker}
    (hstore : storeTrigger k new (atHead h (.triggerSet f) s) = atHead h (.triggerSet f) { s with smx := x, clm := m }) :
    exec (.triggerSet h f) s = .next { s with
      smx := x
      clm := m
      sri := ringReply s.sri h i 12 (doneCode (triggerClamped f)) [] } := by
  have hperform : perform (headOf h (.triggerSet f)) (.triggerSet f) (atHead h (.triggerSet f) s) =
      (atHead h (.triggerSet f) { s with smx := x, clm := m }, { status := doneIf (triggerClamped f) }) := by
    simp only [perform, triggerSet, objectOf_some ht, atHead_triggerOf, hc, hnew, hstore]
    rw [if_neg (by omega)]
  rw [exec_van rfl hr hperform hl (by simp) hr.1.1 hr.1.2.1 hr.1.2.2, doneIf_code]
  rfl

end

/-- Settles O43: TRIGGER-SET by its trigger, its choices, its thresholds, and whether it ends what the trigger does. -/
theorem triggerSet_storesAndEnds : Obligations.TriggerSet_StoresAndEnds := by
  intro h i f s hr hm hp hlist
  have hl := listsFit_triggerSet hlist
  refine ⟨exec_triggerSet_noTrigger hr hl, ?_⟩
  rintro k old ht rfl
  refine ⟨fun hbad => exec_triggerSet_noChoice hr hl ht (triggerChoices_none hbad), fun bus prio hbus hprio hcams => ?_⟩
  obtain ⟨cameras, hset, hnone, hsome⟩ := setOf_getD (triggerOf s k).cameras fun l hl c hc => Nat.lt_succ_of_le (hcams l hl c hc)
  have hchoice := triggerChoices_some hbus hprio hset
  have hform := formTrigger_eq f bus cameras prio (triggerOf s k)
  rw [← triggerClamped_eq]
  refine ⟨cameras, _, _, hnone, hsome, rfl, rfl, fun hle hne => ?_, fun hlo hsame hhi hlo' => ?_, fun hends => ⟨fun hclip => ?_, fun n hclip => ?_⟩⟩
  · exact exec_triggerSet_thresholds hr hl ht hchoice hform hle hne
  · exact exec_triggerSet_stores hr hl ht hchoice hform (.inl hlo) (storeTrigger_keeps hlo hsame hhi hlo')
  · exact exec_triggerSet_stores hr hl ht hchoice hform (hends.imp_left And.left) (storeTrigger_ends (endsTrigger_of hends) hclip)
  · exact exec_triggerSet_stores hr hl ht hchoice hform (hends.imp_left And.left)
      (storeTrigger_marksOut (endsTrigger_of hends) hclip hm hp)

end Sys2Proof.Machine
end

section
/-! PROOF. INPUT-SET, MIX-SET and BUS-SET: the gains computed again (R91, R92, R97 to R99). -/

namespace Sys2Proof.Machine

/-! ### Lists of updates -/

section
variable {α β γ : Type} {n : Nat}

/-- Updates that leave what is read leave it together. -/
theorem foldl_reads {step : β → α → β} {read : β → γ} {l : List α} (h : ∀ a ∈ l, ∀ b, read (step b a) = read b) (b : β) :
    read (l.foldl step b) = read b := by
  induction l generalizing b with
  | nil => rfl
  | cons a l ih =>
    rw [List.foldl_cons, ih fun c hc => h c (List.mem_cons_of_mem _ hc), h a (List.mem_cons_self ..)]

/-- Updates each of which may be refused, where none is. -/
theorem foldl_bind_some {f : β → α → Option β} {g : β → α → β} {l : List α} (h : ∀ a ∈ l, ∀ b, f b a = some (g b a)) (b : β) :
    l.foldl (fun acc a => acc.bind fun b => f b a) (some b) = some (l.foldl g b) := by
  induction l generalizing b with
  | nil => rfl
  | cons a l ih =>
    rw [List.foldl_cons, List.foldl_cons, Option.bind_some, h a (List.mem_cons_self ..)]
    exact ih (fun c hc => h c (List.mem_cons_of_mem _ hc)) _

/-- Updates each of which may be refused, where one is. -/
theorem foldl_bind_none {f : β → α → Option β} {l : List α} {acc : Option β} (h : acc = none ∨ ∃ a ∈ l, ∀ b, f b a = none) :
    l.foldl (fun acc a => acc.bind fun b => f b a) acc = none := by
  induction l generalizing acc with
  | nil => exact h.resolve_right (by simp)
  | cons a l ih =>
    refine ih ?_
    obtain rfl | ⟨c, hc, hnone⟩ := h
    · exact .inl rfl
    · obtain rfl | hc := List.mem_cons.mp hc
      · left
        cases acc with
        | none => rfl
        | some b => exact hnone b
      · exact .inr ⟨c, hc, hnone⟩

theorem mapM_some {f : α → Option β} {g : α → β} {l : List α} (h : ∀ a ∈ l, f a = some (g a)) : l.mapM f = some (l.map g) := by
  induction l with
  | nil => rfl
  | cons a l ih =>
    rw [List.mapM_cons, h a (List.mem_cons_self ..), ih fun c hc => h c (List.mem_cons_of_mem _ hc)]
    rfl

theorem mapM_none {f : α → Option β} {l : List α} (h : ∃ a ∈ l, f a = none) : l.mapM f = none := by
  induction l with
  | nil => simp at h
  | cons a l ih =>
    rw [List.mapM_cons]
    cases ha : f a with
    | none => rfl
    | some b =>
      obtain ⟨c, hc, hnone⟩ := h
      obtain rfl | hc := List.mem_cons.mp hc
      · rw [hnone] at ha
        cases ha
      · rw [ih ⟨c, hc, hnone⟩]
        rfl

/-- Entries of a table changed one after another, each once. -/
theorem foldl_modify_get (f : Fin n → β → β) (l : List (Fin n)) (hl : l.Nodup) (t : Table n β) (i : Fin n) :
    (l.foldl (fun t k => t.modify k (f k)) t).get i = if i ∈ l then f i (t.get i) else t.get i := by
  induction l generalizing t with
  | nil => simp
  | cons a l ih =>
    obtain ⟨ha, hl⟩ := List.nodup_cons.mp hl
    rw [List.foldl_cons, ih hl]
    by_cases hia : i = a
    · subst hia
      simp [ha]
    · rw [Table.get_modify_ne _ _ (Ne.symm hia)]
      simp [hia]

end

/-! ### Gains (R91, R92) -/

section
variable {k : Fin 32} {b : Fin 8} {v : Input} {groups : Table 8 Bool} {s : State}

/-- R92: the input is muted by its own mute or by a muted group of it. -/
theorem inputMuted_iff : inputMuted groups v = true ↔ v.mute = true ∨ ∃ g, v.groups.get g = true ∧ groups.get g = true := by
  simp only [inputMuted, Bool.or_eq_true, List.any_eq_true, List.mem_finRange, true_and, Bool.and_eq_true]

/-- A cross-point whose target is computed again for input `v` under the mutes `groups` (R91). -/
def CrossPoint.retargeted (groups : Table 8 Bool) (v : Input) (x : CrossPoint) : CrossPoint :=
  { x with target := targetGain (inputMuted groups v) v.trim x.cross }

theorem recompute_eq (k : Fin 32) (s : State) : recompute k s = { s with smx := { s.smx with
    cross := s.smx.cross.modify k (Table.map (CrossPoint.retargeted s.smx.groups (inputOf s k))) } } := rfl

/-- Inputs whose cross-points are computed again one after another (R91). -/
theorem foldl_recompute (l : List (Fin 32)) (s : State) : l.foldl (fun s k => recompute k s) s = { s with smx := { s.smx with
    cross := l.foldl (fun t k => t.modify k (Table.map (CrossPoint.retargeted s.smx.groups (inputOf s k)))) s.smx.cross } } := by
  induction l generalizing s with
  | nil => rfl
  | cons a l ih =>
    rw [List.foldl_cons, ih, recompute_eq]
    rfl

end

/-! ### INPUT-SET (R97) -/

theorem objectOf_val {n : Nat} (j : Fin n) : objectOf n (some j.val) = some j := objectOf_some rfl

theorem LossPolicy.ofCode_code (p : LossPolicy) : LossPolicy.ofCode p.code = some p := by cases p <;> rfl

theorem LossPolicy.ofCode_none {n : Nat} (h : n = 0 ∨ 3 < n) : LossPolicy.ofCode n = none := by
  unfold LossPolicy.ofCode
  split
  case h_4 => rfl
  all_goals omega

section
variable {h : Hdr} {i : RingStream} {f : InputFields} {s : State} {k : Fin 32} {v : Input} {mute : Bool} {groups : Table 8 Bool}
  {policy : LossPolicy}

/-- A mute, group or policy out of range names no choice (R97). -/
theorem inputChoices_none (h : (∃ n, f.mute = some n ∧ n ≠ 1 ∧ n ≠ 2) ∨ (∃ l, f.groups = some l ∧ ∃ g ∈ l, 7 < g) ∨
    (∃ n, f.policy = some n ∧ (n = 0 ∨ 3 < n))) : inputChoices f v = none := by
  obtain ⟨n, hn, h1, h2⟩ | ⟨l, hl, hout⟩ | ⟨n, hn, hout⟩ := h
  · have hmute : onOffOfCode n = none := onOffOfCode_none (by omega)
    simp only [inputChoices, hn, Option.getD_some, hmute, Option.bind_none]
  · have hset : setOf 8 l = none := setOf_none hout
    simp only [inputChoices, hl, Option.map_some, Option.getD_some, hset, Option.bind_none, Option.bind_fun_none]
  · simp only [inputChoices, hn, Option.getD_some, LossPolicy.ofCode_none hout, Option.map_none, Option.bind_fun_none]

theorem inputChoices_some (hm : f.mute = none ∧ mute = v.mute ∨ f.mute = some (if mute then 1 else 2))
    (hp : f.policy = none ∧ policy = v.policy ∨ f.policy = some policy.code)
    (hg : (f.groups.map (setOf 8)).getD (some v.groups) = some groups) : inputChoices f v = some (mute, groups, policy) := by
  have hmute : onOffOfCode (f.mute.getD (onOff v.mute)) = some mute := by
    obtain ⟨hf, rfl⟩ | hf := hm <;> rw [hf] <;> exact onOffOfCode_onOff _
  have hpolicy : LossPolicy.ofCode (f.policy.getD v.policy.code) = some policy := by
    obtain ⟨hf, rfl⟩ | hf := hp <;> rw [hf] <;> exact LossPolicy.ofCode_code _
  simp only [inputChoices, hmute, hg, hpolicy, Option.bind_some, Option.map_some]

theorem listsFit_inputSet (h : f.groups = none ∨ ∃ l, f.groups = some l ∧ l.length ≤ 8) : listsFit (.inputSet f) = true := by
  obtain h | ⟨l, h, hl⟩ := h
  · simp [listsFit, h]
  · simpa [listsFit, h] using hl

theorem exec_inputSet_noInput (hr : VanReady h i s) (hl : listsFit (.inputSet f) = true)
    (hf : f.input = none ∨ ∃ n, f.input = some n ∧ 31 < n) :
    exec (.inputSet h f) s = .next { s with sri := ringReply s.sri h i 9 5 [] } :=
  exec_refused (c := .inputSet f) (r := .refusedRange) rfl hr (by simp only [perform, inputSet, objectOf_none hf]) hl (by simp)

theorem exec_inputSet_query (hr : VanReady h i s) (hf : f = { input := some k.val }) :
    exec (.inputSet h f) s = .next { s with sri := ringReply s.sri h i 9 1 (inputResults s k) } := by
  subst hf
  have hperform : perform (headOf h (.inputSet { input := some k.val })) (.inputSet { input := some k.val })
      (atHead h (.inputSet { input := some k.val }) s) =
      (atHead h (.inputSet { input := some k.val }) s, { status := .done, results := inputResults s k }) := by
    simp only [perform, inputSet, objectOf_val, if_true]
    rfl
  rw [exec_van rfl hr hperform rfl (by simp) hr.1.1 hr.1.2.1 hr.1.2.2]
  rfl

theorem exec_inputSet_noChoice (hr : VanReady h i s) (hl : listsFit (.inputSet f) = true) (hk : f.input = some k.val)
    (hf : f ≠ { input := some k.val }) (hc : inputChoices f (inputOf s k) = none) :
    exec (.inputSet h f) s = .next { s with sri := ringReply s.sri h i 9 5 [] } :=
  exec_refused (c := .inputSet f) (r := .refusedRange) rfl hr
    (by simp only [perform, inputSet, hk, objectOf_val, hf, if_false, atHead_inputOf, hc]) hl (by simp)

/-- The fields are stored and the input's eight cross-points computed again (R91, R97). -/
theorem exec_inputSet_stores (hr : VanReady h i s) (hl : listsFit (.inputSet f) = true) (hk : f.input = some k.val)
    (hf : f ≠ { input := some k.val }) (hc : inputChoices f (inputOf s k) = some (mute, groups, policy))
    (hv : v = { inputOf s k with
      trim := loaded 0 8192 (inputOf s k).trim f.trim, mute := mute, groups := groups, policy := policy }) :
    exec (.inputSet h f) s = .next { s with
      smx := { s.smx with
        inputs := s.smx.inputs.set k v
        cross := s.smx.cross.modify k (Table.map (CrossPoint.retargeted s.smx.groups v)) }
      sri := ringReply s.sri h i 9 (doneCode (outside 0 8192 f.trim)) [] } := by
  have hstored : ({ s with smx := { s.smx with inputs := s.smx.inputs.set k v } } : State).smx.inputs.get k = v :=
    Table.get_set_self ..
  have hperform : perform (headOf h (.inputSet f)) (.inputSet f) (atHead h (.inputSet f) s) =
      (atHead h (.inputSet f) (recompute k { s with smx := { s.smx with inputs := s.smx.inputs.set k v } }),
        { status := doneIf (outside 0 8192 f.trim) }) := by
    simp only [perform, inputSet, hk, objectOf_val, hf, if_false, atHead_inputOf, hc, clampedBy_outside 0 8192 _ (by decide),
      getD_clamp 0 8192 _ _ (by decide)]
    subst hv
    rfl
  rw [exec_van rfl hr hperform hl (by simp) hr.1.1 hr.1.2.1 hr.1.2.2, doneIf_code, recompute_eq, inputOf, hstored]
  rfl

end

/-- Settles O41: INPUT-SET by its input, whether it is a query, and its choices. -/
theorem inputSet_recomputesTheInput : Obligations.InputSet_RecomputesTheInput := by
  intro h i f s hr hlist
  have hl := listsFit_inputSet hlist
  refine ⟨exec_inputSet_noInput hr hl, fun k hk => ⟨exec_inputSet_query hr, fun hf => ⟨fun hbad => ?_, ?_⟩⟩⟩
  · exact exec_inputSet_noChoice hr hl hk hf (inputChoices_none hbad)
  · intro mute policy hmute hpolicy hgroups
    obtain ⟨groups, hset, hnone, hsome⟩ := setOf_getD (inputOf s k).groups fun l hl g hg => Nat.lt_succ_of_le (hgroups l hl g hg)
    obtain ⟨v, hv⟩ : ∃ v, v = { inputOf s k with
      trim := loaded 0 8192 (inputOf s k).trim f.trim, mute := mute, groups := groups, policy := policy } := ⟨_, rfl⟩
    have hmuted : inputMuted s.smx.groups v = true ↔ mute = true ∨ ∃ g, groups.get g = true ∧ s.smx.groups.get g = true := by
      rw [inputMuted_iff, hv]
    have hrow : ∀ b, ((s.smx.cross.modify k (Table.map (CrossPoint.retargeted s.smx.groups v))).get k).get b =
        CrossPoint.retargeted s.smx.groups v (crossOf s k b) := fun b => by
      rw [Table.get_modify_self, Table.get_map]
      rfl
    refine ⟨groups, inputMuted s.smx.groups v = true, _, hnone, hsome, hmuted, rfl,
      s.smx.cross.modify k (Table.map (CrossPoint.retargeted s.smx.groups v)),
      fun j hj => Table.get_modify_ne _ _ (Ne.symm hj), fun b => ⟨fun hm => ?_, fun hm => ?_⟩, ?_⟩
    · rw [hrow, CrossPoint.retargeted, targetGain, if_pos hm]
    · rw [hrow, CrossPoint.retargeted, targetGain, if_neg hm, hv]
    · rw [exec_inputSet_stores hr hl hk hf (inputChoices_some hmute hpolicy hset) hv, hv]

/-! ### MIX-SET (R98) -/

section
variable {h : Hdr} {i : RingStream} {entries : List MixEntry} {e : MixEntry} {s : State} {k : Fin 32} {b : Fin 8}

/-- The cross-point that an entry names, and its value clamped (R98). -/
def mixObject (e : MixEntry) : Fin 32 × Fin 8 × Nat := (Fin.ofNat 32 e.input, Fin.ofNat 8 e.bus, min 8192 e.cross)

/-- The entry names cross-point `k`, `b`. -/
def NamesCross (e : MixEntry) (k : Fin 32) (b : Fin 8) : Prop := e.input = k.val ∧ e.bus = b.val

theorem mixObjects_none (h : 31 < e.input ∨ 7 < e.bus) : mixObjects e = none := by
  obtain h | h := h
  · rw [mixObjects, fin_bad h, Option.bind_none]
  · simp only [mixObjects, fin_bad h, Option.map_none, Option.bind_fun_none]

theorem mixObjects_some (h : e.input ≤ 31 ∧ e.bus ≤ 7) : mixObjects e = some (mixObject e) := by
  have hk : finOf 32 e.input = some (Fin.ofNat 32 e.input) := by
    rw [← finOf_val (Fin.ofNat 32 e.input), Fin.val_ofNat, Nat.mod_eq_of_lt (by omega)]
  have hb : finOf 8 e.bus = some (Fin.ofNat 8 e.bus) := by
    rw [← finOf_val (Fin.ofNat 8 e.bus), Fin.val_ofNat, Nat.mod_eq_of_lt (by omega)]
  simp only [mixObjects, hk, hb, Option.bind_some, Option.map_some, mixObject, clampNat, Nat.zero_max]

theorem object_names (h : e.input ≤ 31 ∧ e.bus ≤ 7) : (mixObject e).1 = k ∧ (mixObject e).2.1 = b ↔ NamesCross e k b := by
  simp only [mixObject, NamesCross, Fin.ext_iff, Fin.val_ofNat]
  omega

/-- The cross-points once one value is stored and its target computed again (R91, R98). -/
def withCross (m : Mixer) (t : Table 32 (Table 8 CrossPoint)) (e : MixEntry) : Table 32 (Table 8 CrossPoint) :=
  t.modify (mixObject e).1 fun row => row.modify (mixObject e).2.1 fun x =>
    ({ x with cross := (mixObject e).2.2 } : CrossPoint).retargeted m.groups (m.inputs.get (mixObject e).1)

theorem foldl_setCross (entries : List MixEntry) (s : State) :
    (entries.map mixObject).foldl (fun s e => setCross e.1 e.2.1 e.2.2 s) s =
      { s with smx := { s.smx with cross := entries.foldl (withCross s.smx) s.smx.cross } } := by
  induction entries generalizing s with
  | nil => rfl
  | cons e entries ih =>
    rw [List.map_cons, List.foldl_cons, ih]
    rfl

/-- An entry changes the cross-point that it names, and no other. -/
theorem withCross_get (m : Mixer) (t : Table 32 (Table 8 CrossPoint)) (he : e.input ≤ 31 ∧ e.bus ≤ 7) :
    (NamesCross e k b → ((withCross m t e).get k).get b =
      ({ (t.get k).get b with cross := min 8192 e.cross } : CrossPoint).retargeted m.groups (m.inputs.get k)) ∧
    (¬ NamesCross e k b → ((withCross m t e).get k).get b = (t.get k).get b) := by
  rw [← object_names he]
  refine ⟨?_, fun hne => ?_⟩
  · rintro ⟨rfl, rfl⟩
    rw [withCross, Table.get_modify_self, Table.get_modify_self]
    rfl
  · by_cases hk : (mixObject e).1 = k
    · subst hk
      rw [withCross, Table.get_modify_self, Table.get_modify_ne _ _ fun hb => hne ⟨rfl, hb⟩]
    · rw [withCross, Table.get_modify_ne _ _ hk]

theorem withCross_applied (m : Mixer) (t : Table 32 (Table 8 CrossPoint)) (he : e.input ≤ 31 ∧ e.bus ≤ 7) :
    (((withCross m t e).get k).get b).applied = ((t.get k).get b).applied := by
  obtain ⟨hnamed, hother⟩ := withCross_get (k := k) (b := b) m t he
  by_cases hn : NamesCross e k b
  · rw [hnamed hn]; rfl
  · rw [hother hn]

/-- A cross-point that no entry names stays as it was. -/
theorem foldl_withCross_other {m : Mixer} (t : Table 32 (Table 8 CrossPoint)) (hok : ∀ e ∈ entries, e.input ≤ 31 ∧ e.bus ≤ 7)
    (hnot : ∀ e ∈ entries, ¬ NamesCross e k b) : ((entries.foldl (withCross m) t).get k).get b = (t.get k).get b :=
  foldl_reads (read := fun t : Table 32 (Table 8 CrossPoint) => (t.get k).get b)
    (fun e he t => (withCross_get m t (hok e he)).2 (hnot e he)) t

/-- A cross-point takes the value of the last entry that names it. -/
theorem foldl_withCross_last {m : Mixer} {t : Table 32 (Table 8 CrossPoint)} {early late : List MixEntry}
    (hok : ∀ d ∈ early ++ e :: late, d.input ≤ 31 ∧ d.bus ≤ 7) (he : NamesCross e k b) (hlate : ∀ d ∈ late, ¬ NamesCross d k b) :
    (((early ++ e :: late).foldl (withCross m) t).get k).get b =
      ({ (t.get k).get b with cross := min 8192 e.cross } : CrossPoint).retargeted m.groups (m.inputs.get k) := by
  have happlied : (((early.foldl (withCross m) t).get k).get b).applied = ((t.get k).get b).applied :=
    foldl_reads (read := fun t : Table 32 (Table 8 CrossPoint) => ((t.get k).get b).applied)
      (fun d hd t => withCross_applied m t (hok d (List.mem_append_left _ hd))) t
  rw [List.foldl_append, List.foldl_cons,
    foldl_withCross_other _ (fun d hd => hok d (List.mem_append_right _ (List.mem_cons_of_mem _ hd))) hlate,
    (withCross_get m _ (hok e (List.mem_append_right _ (List.mem_cons_self ..)))).1 he]
  simp only [CrossPoint.retargeted, happlied]

theorem exec_mixSet_refused (hr : VanReady h i s) (hl : 1 ≤ entries.length ∧ entries.length ≤ 32)
    (hbad : ∃ e ∈ entries, 31 < e.input ∨ 7 < e.bus) :
    exec (.mixSet h entries) s = .next { s with sri := ringReply s.sri h i 10 5 [] } := by
  obtain ⟨e, he, hout⟩ := hbad
  have hnone : entries.mapM mixObjects = none := mapM_none ⟨e, he, mixObjects_none hout⟩
  exact exec_refused (c := .mixSet entries) (r := .refusedRange) rfl hr (by simp only [perform, mixSet, hnone])
    (decide_eq_true hl) (by simp)

theorem exec_mixSet_stores (hr : VanReady h i s) (hl : 1 ≤ entries.length ∧ entries.length ≤ 32)
    (hok : ∀ e ∈ entries, e.input ≤ 31 ∧ e.bus ≤ 7) :
    exec (.mixSet h entries) s = .next { s with
      smx := { s.smx with cross := entries.foldl (withCross s.smx) s.smx.cross }
      sri := ringReply s.sri h i 10 (doneCode (entries.any fun e => decide (8192 < e.cross))) [] } := by
  have hsome : entries.mapM mixObjects = some (entries.map mixObject) := mapM_some fun e he => mixObjects_some (hok e he)
  have hclamped : (fun e : MixEntry => clampedBy 0 8192 (some e.cross)) = fun e => decide (8192 < e.cross) := by
    funext e
    rw [clampedBy_outside 0 8192 _ (by decide)]
    simp [outside]
  have hperform : perform (headOf h (.mixSet entries)) (.mixSet entries) (atHead h (.mixSet entries) s) =
      (atHead h (.mixSet entries) { s with smx := { s.smx with cross := entries.foldl (withCross s.smx) s.smx.cross } },
        { status := doneIf (entries.any fun e => decide (8192 < e.cross)) }) := by
    simp only [perform, mixSet, hsome, foldl_setCross, hclamped]
    rfl
  rw [exec_van rfl hr hperform (decide_eq_true hl) (by simp) hr.1.1 hr.1.2.1 hr.1.2.2, doneIf_code]
  rfl

end

/-! ### BUS-SET (R99) -/

section
variable {h : Hdr} {i : RingStream} {f : BusFields} {s : State} {groups stored : Table 8 Bool} {given : Table 8 (Option Nat)}

theorem objectOf_iff {n : Nat} {v : Option Nat} {j : Fin n} : objectOf n v = some j ↔ v = some j.val := by
  refine ⟨fun hv => ?_, objectOf_some⟩
  obtain ⟨m, rfl, hm⟩ := Option.bind_eq_some_iff.mp hv
  rw [finOf_some hm]

theorem groupMutes_none (h : ∃ g v, given.get g = some v ∧ v ≠ 1 ∧ v ≠ 2) : groupMutes given stored = none := by
  obtain ⟨g, v, hg, h1, h2⟩ := h
  have hbad : onOffOfCode v = none := onOffOfCode_none (by omega)
  refine foldl_bind_none (.inr ⟨g, List.mem_finRange g, fun t => ?_⟩)
  rw [hg, Option.getD_some, hbad, Option.map_none]

theorem groupMutes_some (h : ∀ g, given.get g = none ∧ groups.get g = stored.get g ∨
    given.get g = some (if groups.get g then 1 else 2)) : groupMutes given stored = some groups := by
  have hchoice : ∀ g, onOffOfCode ((given.get g).getD (onOff (stored.get g))) = some (groups.get g) := fun g => by
    obtain ⟨hg, hsame⟩ | hg := h g <;> rw [hg]
    · rw [hsame]
      exact onOffOfCode_onOff _
    · exact onOffOfCode_onOff _
  have hfold : groupMutes given stored =
      some ((List.finRange 8).foldl (fun t g => t.modify g fun _ => groups.get g) stored) :=
    foldl_bind_some (fun g _ t => by rw [hchoice, Option.map_some]; rfl) stored
  rw [hfold]
  congr 1
  apply Table.ext_get
  intro g
  rw [foldl_modify_get (fun g _ => groups.get g) _ (List.nodup_finRange 8), if_pos (List.mem_finRange g)]

/-- The buses once the bus fields are stored (R99). -/
def storedBuses (f : BusFields) (t : Table 8 Bus) : Table 8 Bus :=
  Table.ofFn fun b => if f.bus = some b.val then { t.get b with
    master := loaded 0 8192 (t.get b).master f.master
    decay := loaded 0 65535 (t.get b).decay f.decay } else t.get b

theorem storeBus_eq (f : BusFields) (s : State) :
    storeBus f (objectOf 8 f.bus) s = s.onSmx fun m => { m with buses := storedBuses f m.buses } := by
  cases hb : objectOf 8 f.bus with
  | none =>
    have hsame : storedBuses f s.smx.buses = s.smx.buses := Table.ext_get fun b => by
      rw [storedBuses, Table.get_ofFn, if_neg fun h => by rw [objectOf_some h] at hb; cases hb]
    simp only [storeBus, State.onSmx, hsame]
  | some b =>
    have hsame : s.smx.buses.modify b (fun v => { v with
        master := (f.master.map (clampNat 0 8192)).getD v.master
        decay := (f.decay.map (clampNat 0 65535)).getD v.decay }) = storedBuses f s.smx.buses := Table.ext_get fun c => by
      simp only [storedBuses, Table.get_ofFn, Table.get_modify, objectOf_iff.mp hb, Option.some.injEq, ← Fin.ext_iff,
        getD_clamp 0 8192 _ _ (by decide), getD_clamp 0 65535 _ _ (by decide)]
    simp only [storeBus, State.onBus, State.onSmx, hsame]

/-- The members of the groups whose mutes differ. -/
def changedMembers (groups : Table 8 Bool) (m : Mixer) : List (Fin 32) :=
  (List.finRange 32).filter fun k => (List.finRange 8).any fun g => (m.inputs.get k).groups.get g && groups.get g != m.groups.get g

/-- The cross-points once the group mutes are stored (R91, R92). -/
def regroupedCross (groups : Table 8 Bool) (m : Mixer) : Table 32 (Table 8 CrossPoint) :=
  (changedMembers groups m).foldl (fun t k => t.modify k (Table.map (CrossPoint.retargeted groups (m.inputs.get k)))) m.cross

theorem storeGroups_eq (groups : Table 8 Bool) (s : State) : storeGroups groups s = s.onSmx fun m => { m with
    groups := groups
    cross := regroupedCross groups m } := by
  simp only [storeGroups, foldl_recompute]
  rfl

theorem regroupedCross_get (groups : Table 8 Bool) (s : State) (k : Fin 32) (b : Fin 8) :
    ((regroupedCross groups s.smx).get k).get b =
      if ∃ g, (inputOf s k).groups.get g = true ∧ groups.get g ≠ s.smx.groups.get g then { crossOf s k b with
        target := if (inputOf s k).mute = true ∨ (∃ g, (inputOf s k).groups.get g = true ∧ groups.get g = true)
          then 0 else (inputOf s k).trim * (crossOf s k b).cross / 4096 }
      else crossOf s k b := by
  have hmem : k ∈ changedMembers groups s.smx ↔ ∃ g, (inputOf s k).groups.get g = true ∧ groups.get g ≠ s.smx.groups.get g := by
    simp only [changedMembers, List.mem_filter, List.mem_finRange, true_and, List.any_eq_true, Bool.and_eq_true, bne_iff_ne,
      inputOf]
  have hnodup : (changedMembers groups s.smx).Nodup := (List.nodup_finRange 32).filter _
  rw [regroupedCross, foldl_modify_get (fun k => Table.map (CrossPoint.retargeted groups (s.smx.inputs.get k))) _ hnodup]
  simp only [hmem]
  split
  · rw [Table.get_map]
    simp only [CrossPoint.retargeted, targetGain, inputMuted_iff]
    rfl
  · rfl

/-- A bus field without a bus, or a bus out of range, is refused before the group mutes are read (R99). -/
theorem exec_busSet_refused (hr : VanReady h i s) (hbad : (f.bus = none ∧ (f.master ≠ none ∨ f.decay ≠ none)) ∨
    (∃ n, f.bus = some n ∧ 7 < n) ∨ (∃ g v, f.groups.get g = some v ∧ v ≠ 1 ∧ v ≠ 2)) :
    exec (.busSet h f) s = .next { s with sri := ringReply s.sri h i 11 5 [] } := by
  refine exec_refused (c := .busSet f) (r := .refusedRange) rfl hr ?_ rfl (by simp)
  simp only [perform, busSet, Option.isSome_iff_ne_none]
  obtain hnone | ⟨n, hn, hout⟩ | hgroups := hbad
  · rw [if_pos (.inl hnone)]
  · rw [if_pos (.inr ⟨by simp [hn], objectOf_none (.inr ⟨n, hn, hout⟩)⟩)]
  · rw [groupMutes_none hgroups]
    split <;> rfl

theorem exec_busSet_stores (hr : VanReady h i s) (hbus : f.bus = none ∧ f.master = none ∧ f.decay = none ∨ ∃ b : Fin 8, f.bus = some b.val)
    (hgroups : groupMutes f.groups s.smx.groups = some groups) :
    exec (.busSet h f) s = .next { s with
      smx := { s.smx with
        buses := storedBuses f s.smx.buses
        cross := regroupedCross groups s.smx
        groups := groups
        lag := loaded 1 4 s.smx.lag f.lag }
      sri := ringReply s.sri h i 11
        (doneCode (outside 0 8192 f.master || outside 0 65535 f.decay || outside 1 4 f.lag)) [] } := by
  have hfree : ¬ ((f.bus = none ∧ (f.master ≠ none ∨ f.decay ≠ none)) ∨ (f.bus ≠ none ∧ objectOf 8 f.bus = none)) := by
    obtain ⟨h1, h2, h3⟩ | ⟨b, hb⟩ := hbus
    · simp [h1, h2, h3]
    · simp [hb, objectOf_val]
  have hperform : perform (headOf h (.busSet f)) (.busSet f) (atHead h (.busSet f) s) =
      (atHead h (.busSet f) { s with smx := { s.smx with
        buses := storedBuses f s.smx.buses
        cross := regroupedCross groups s.smx
        groups := groups
        lag := loaded 1 4 s.smx.lag f.lag } },
        { status := doneIf (outside 0 8192 f.master || outside 0 65535 f.decay || outside 1 4 f.lag) }) := by
    simp only [perform, busSet, Option.isSome_iff_ne_none, if_neg hfree, atHead_smx, hgroups, storeBus_eq, storeGroups_eq,
      clampedBy_outside 0 8192 _ (by decide), clampedBy_outside 0 65535 _ (by decide), clampedBy_outside 1 4 _ (by decide),
      getD_clamp 1 4 _ _ (by decide)]
    rfl
  rw [exec_van rfl hr hperform rfl (by simp) hr.1.1 hr.1.2.1 hr.1.2.2, doneIf_code]
  rfl

end

/-- Settles O42: MIX-SET by the last entry for each cross-point, BUS-SET by its bus and its group mutes. -/
theorem mixSetAndBusSet_storeAndRecompute : Obligations.MixSetAndBusSet_StoreAndRecompute := by
  refine fun h i s hr => ⟨fun entries h1 h32 => ⟨exec_mixSet_refused hr ⟨h1, h32⟩, fun hok => ?_⟩, fun f =>
    ⟨exec_busSet_refused hr, fun hbus groups hgroups => ?_⟩⟩
  · refine ⟨_, fun k b hnot => foldl_withCross_other _ hok hnot, ?_, exec_mixSet_stores hr ⟨h1, h32⟩ hok⟩
    rintro k b early e late rfl hk hb hlate
    rw [foldl_withCross_last hok ⟨hk, hb⟩ hlate]
    simp only [CrossPoint.retargeted, targetGain, inputMuted_iff]
    rfl
  · exact ⟨_, _, fun b => Table.get_ofFn .., regroupedCross_get groups s, exec_busSet_stores hr hbus (groupMutes_some hgroups)⟩

end Sys2Proof.Machine
end

section
/-! PROOF. INPUT-MAP: the query, the refusals, and the table stored with its discards (R85, R200). -/

namespace Sys2Proof.Machine

/-! ### Tables and counts -/

section
variable {n : Nat} {α : Type}

theorem vals_eq_map (t : Table n α) : t.vals = (List.finRange n).map t.get := by
  have hofFn : t = Table.ofFn t.get := Table.ext_get fun i => (Table.get_ofFn ..).symm
  rw [← List.ofFn_eq_map]
  exact congrArg Table.vals hofFn

theorem any_vals (t : Table n α) (p : α → Bool) : t.vals.any p = true ↔ ∃ i, p (t.get i) = true := by
  simp only [vals_eq_map, List.any_map, List.any_eq_true, List.mem_finRange, true_and, Function.comp]

theorem card_filter (p : Fin n → Prop) [DecidablePred p] :
    (Finset.univ.filter p).card = ((List.finRange n).filter fun k => decide (p k)).length := rfl

theorem countP_vals (t : Table n α) {q : α → Bool} {p : Fin n → Prop} [DecidablePred p] (h : ∀ k, q (t.get k) = true ↔ p k) :
    t.vals.countP q = (Finset.univ.filter p).card := by
  rw [card_filter, vals_eq_map, List.countP_map, List.countP_eq_length_filter]
  refine congrArg List.length (List.filter_congr fun k _ => ?_)
  rw [Function.comp, Bool.eq_iff_iff, decide_eq_true_eq, h]

end

section
variable {h : Hdr} {i : RingStream} {f : MapFields} {e : MapEntry} {d : Dest} {k out : RingStream} {t : Table 256 Dest} {r : Ring}
  {s : State} {entries early late : List MapEntry}

/-- R200: the number of streams of each destination kind. -/
theorem destCounts_eq {n1 n2 n3 n4 n5 : Nat} (h1 : n1 = (Finset.univ.filter fun k => t.get k = .none).card)
    (h2 : n2 = (Finset.univ.filter fun k => ∃ j, t.get k = .soundInput j).card)
    (h3 : n3 = (Finset.univ.filter fun k => t.get k = .tally).card)
    (h4 : n4 = (Finset.univ.filter fun k => ∃ j, t.get k = .desk j).card)
    (h5 : n5 = (Finset.univ.filter fun k => t.get k = .control).card) : destCounts t = [n1, n2, n3, n4, n5] := by
  subst h1 h2 h3 h4 h5
  simp only [destCounts, List.map_cons, List.map_nil, List.cons.injEq, and_true]
  refine ⟨?_, ?_, ?_, ?_, ?_⟩ <;> refine countP_vals t fun k => ?_ <;> cases t.get k <;> simp [Dest.codes]

/-! ### The formed table (R200) -/

/-- The entry is in range: its stream, its destination, and the number that the destination takes. -/
def EntryOk (e : MapEntry) : Prop :=
  e.stream ≤ 255 ∧ 1 ≤ e.dest ∧ e.dest ≤ 5 ∧ (e.dest = 2 → e.index ≤ 31) ∧ (e.dest = 4 → e.index ≤ 7)

theorem destOf_codes (h : destOf e.dest e.index = some d) :
    e.dest = d.codes.1 ∧ (e.dest = 2 ∨ e.dest = 4 → e.index = d.codes.2) := by
  generalize e.dest = dest at h ⊢
  unfold destOf at h
  split at h
  · cases h
    exact ⟨rfl, by simp⟩
  · obtain ⟨n, hn, rfl⟩ := Option.map_eq_some_iff.mp h
    exact ⟨rfl, fun _ => finOf_some hn⟩
  · cases h
    exact ⟨rfl, by simp⟩
  · obtain ⟨n, hn, rfl⟩ := Option.map_eq_some_iff.mp h
    exact ⟨rfl, fun _ => finOf_some hn⟩
  · cases h
    exact ⟨rfl, by simp⟩
  · cases h

theorem destOf_none (h : e.dest = 0 ∨ 5 < e.dest ∨ e.dest = 2 ∧ 31 < e.index ∨ e.dest = 4 ∧ 7 < e.index) :
    destOf e.dest e.index = none := by
  generalize e.dest = dest at h ⊢
  unfold destOf
  split
  · omega
  · rw [fin_bad (by omega), Option.map_none]
  · omega
  · rw [fin_bad (by omega), Option.map_none]
  · omega
  · rfl

/-- The destination that an entry in range names. -/
def entryDest (e : MapEntry) : Dest := (destOf e.dest e.index).getD .none

theorem destOf_some (h : EntryOk e) : destOf e.dest e.index = some (entryDest e) := by
  obtain ⟨-, h1, h5, hinput, hdesk⟩ := h
  have hsome : (destOf e.dest e.index).isSome = true := by
    obtain h | h | h | h | h : e.dest = 1 ∨ e.dest = 2 ∨ e.dest = 3 ∨ e.dest = 4 ∨ e.dest = 5 := by omega
    · rw [h]; rfl
    · have hlt := Nat.lt_succ_of_le (hinput h)
      rw [h, destOf, Option.isSome_map, finOf, dif_pos hlt]; rfl
    · rw [h]; rfl
    · have hlt := Nat.lt_succ_of_le (hdesk h)
      rw [h, destOf, Option.isSome_map, finOf, dif_pos hlt]; rfl
    · rw [h]; rfl
  obtain ⟨d, hd⟩ := Option.isSome_iff_exists.mp hsome
  rw [entryDest, hd, Option.getD_some]

/-- The table that entries in range leave, in list order. -/
def mappedTable (entries : List MapEntry) (t : Table 256 Dest) : Table 256 Dest :=
  entries.foldl (fun t e => t.set (Fin.ofNat 256 e.stream) (entryDest e)) t

theorem formTable_some (h : ∀ e ∈ entries, EntryOk e) : formTable entries t = some (mappedTable entries t) := by
  refine foldl_bind_some (fun e he t => ?_) t
  have hstream : finOf 256 e.stream = some (Fin.ofNat 256 e.stream) := by
    rw [← finOf_val (Fin.ofNat 256 e.stream), Fin.val_ofNat, Nat.mod_eq_of_lt (Nat.lt_succ_of_le (h e he).1)]
  rw [hstream, Option.bind_some, destOf_some (h e he), Option.map_some]

/-- One entry out of range refuses the whole. -/
theorem formTable_none (he : e ∈ entries) (h : 255 < e.stream ∨ e.dest = 0 ∨ 5 < e.dest ∨ e.dest = 2 ∧ 31 < e.index ∨
    e.dest = 4 ∧ 7 < e.index) : formTable entries t = none := by
  refine foldl_bind_none (.inr ⟨e, he, fun t => ?_⟩)
  obtain h | h := h
  · rw [fin_bad h, Option.bind_none]
  · simp only [destOf_none h, Option.map_none, Option.bind_fun_none]

theorem stream_ne (he : EntryOk e) (hk : e.stream ≠ k.val) : Fin.ofNat 256 e.stream ≠ k := by
  have hle := he.1
  rw [Ne, Fin.ext_iff, Fin.val_ofNat, Nat.mod_eq_of_lt (Nat.lt_succ_of_le hle)]
  exact hk

/-- A stream that no entry names keeps its entry. -/
theorem mappedTable_other (hok : ∀ e ∈ entries, EntryOk e) (h : ∀ e ∈ entries, e.stream ≠ k.val) :
    (mappedTable entries t).get k = t.get k :=
  foldl_reads (read := fun t : Table 256 Dest => t.get k) (fun e he t => Table.get_set_ne t _ (stream_ne (hok e he) (h e he))) t

/-- A stream takes the last entry that names it. -/
theorem mappedTable_last (hok : ∀ d ∈ early ++ e :: late, EntryOk d) (he : e.stream = k.val)
    (hlate : ∀ d ∈ late, d.stream ≠ k.val) : (mappedTable (early ++ e :: late) t).get k = entryDest e := by
  have hk : Fin.ofNat 256 e.stream = k := Fin.ext (by rw [Fin.val_ofNat, he, Nat.mod_eq_of_lt k.isLt])
  have hsuffix := mappedTable_other (t := (mappedTable early t).set k (entryDest e))
    (fun d hd => hok d (List.mem_append_right _ (List.mem_cons_of_mem _ hd))) hlate
  rw [Table.get_set_self] at hsuffix
  rw [mappedTable, List.foldl_append, List.foldl_cons, hk]
  exact hsuffix

theorem mapStands_iff : mapStands t out = true ↔ (∃ k, t.get k = .control) ∧ t.get out = .none := by
  simp only [mapStands, Bool.and_eq_true, any_vals, beq_iff_eq]

/-! ### The table stored (R200) -/

theorem foldl_satInc {α : Type} (l : List α) (d : Nat) :
    l.foldl (fun n _ => satInc n) d = if l.length = 0 then d else min (d + l.length) 65535 := by
  induction l generalizing d with
  | nil => rfl
  | cons a l ih =>
    rw [List.foldl_cons, ih, satInc, List.length_cons]
    split <;> split <;> omega

/-- The streams whose entry changes lose their partial messages, which are counted. -/
theorem storeMap_eq {partials : Table 256 (Option Assembling)} {n : Nat}
    (hp : ∀ k, partials.get k = if t.get k = r.table.get k then r.partials.get k else none)
    (hn : n = (Finset.univ.filter fun k => partials.get k ≠ r.partials.get k).card) :
    r.storeMap t out = { r with
      table := t
      output := out
      partials := partials
      discarded := if n = 0 then r.discarded else min (r.discarded + n) 65535 } := by
  obtain ⟨lost, hlost⟩ : ∃ lost, lost = (List.finRange 256).filter fun k => t.get k != r.table.get k && (r.partials.get k).isSome :=
    ⟨_, rfl⟩
  have hmem : ∀ k, k ∈ lost ↔ partials.get k ≠ r.partials.get k := fun k => by
    simp only [hlost, List.mem_filter, List.mem_finRange, true_and, Bool.and_eq_true, bne_iff_ne, hp k,
      Option.isSome_iff_ne_none]
    by_cases hsame : t.get k = r.table.get k
    · simp [hsame]
    · simp [hsame, eq_comm]
  have hlength : n = lost.length := by
    rw [hn, card_filter]
    refine congrArg List.length ?_
    rw [hlost]
    refine List.filter_congr fun k _ => ?_
    rw [Bool.eq_iff_iff, decide_eq_true_eq, ← hmem k, hlost, List.mem_filter, and_iff_right (List.mem_finRange k)]
  have hpartials : lost.foldl (fun p k => p.set k none) r.partials = partials := by
    apply Table.ext_get
    intro k
    have hget := foldl_modify_get (fun _ _ => none) lost (hlost ▸ (List.nodup_finRange 256).filter _) r.partials k
    refine hget.trans ?_
    by_cases hk : k ∈ lost
    · have hne := (hmem k).mp hk
      rw [if_pos hk, hp k, if_neg fun hsame => hne (by rw [hp k, if_pos hsame])]
    · rw [if_neg hk]
      exact (not_not.mp (mt (hmem k).mpr hk)).symm
  simp only [Ring.storeMap, ← hlost, hpartials, foldl_satInc, ← hlength]

/-! ### INPUT-MAP (R200) -/

theorem mapFields_empty : f = {} ↔ f.entries = [] ∧ f.output = none := by
  obtain ⟨entries, output⟩ := f
  simp only [MapFields.mk.injEq]

theorem exec_inputMap_query (hr : VanReady h i s) {n1 n2 n3 n4 n5 : Nat} (hc : destCounts s.sri.table = [n1, n2, n3, n4, n5]) :
    exec (.inputMap h {}) s = .next { s with
      sri := ringReply s.sri h i 8 1 [some [byteOf s.sri.output.val],
        some (beBytes 2 n1 ++ beBytes 2 n2 ++ beBytes 2 n3 ++ beBytes 2 n4 ++ beBytes 2 n5)] } := by
  have hbytes : ((destCounts s.sri.table).map (beBytes 2)).flatten =
      beBytes 2 n1 ++ beBytes 2 n2 ++ beBytes 2 n3 ++ beBytes 2 n4 ++ beBytes 2 n5 := by
    simp only [hc, List.map_cons, List.map_nil, List.flatten_cons, List.flatten_nil, List.append_nil, List.append_assoc]
  have hperform : perform (headOf h (.inputMap {})) (.inputMap {}) (atHead h (.inputMap {}) s) =
      (atHead h (.inputMap {}) s, {
        status := .done
        results := [some [byteOf s.sri.output.val],
          some (beBytes 2 n1 ++ beBytes 2 n2 ++ beBytes 2 n3 ++ beBytes 2 n4 ++ beBytes 2 n5)] }) := by
    simp only [perform, inputMap, and_self, if_true, atHead_sri, hbytes, beBytes_one]
  rw [exec_van rfl hr hperform rfl (by simp) hr.1.1 hr.1.2.1 hr.1.2.2]
  rfl

/-- A destination, number or stream out of range is refused. -/
theorem exec_inputMap_outside (hr : VanReady h i s) (hl : f.entries.length ≤ 32) (hf : f ≠ {})
    (hbad : (∃ n, f.output = some n ∧ 255 < n) ∨ (∃ e ∈ f.entries, 255 < e.stream ∨ e.dest = 0 ∨ 5 < e.dest ∨
      e.dest = 2 ∧ 31 < e.index ∨ e.dest = 4 ∧ 7 < e.index)) :
    exec (.inputMap h f) s = .next { s with sri := ringReply s.sri h i 8 5 [] } := by
  refine exec_refused (c := .inputMap f) (r := .refusedRange) rfl hr ?_ (decide_eq_true hl) (by simp)
  simp only [perform, inputMap, if_neg (mt mapFields_empty.mpr hf)]
  obtain ⟨n, hn, hout⟩ | ⟨e, he, hout⟩ := hbad
  · rw [hn, Option.getD_some, fin_bad hout]
    split
    · exact absurd ‹none = some _› (by simp)
    · rfl
  · rw [formTable_none he hout]

theorem exec_inputMap_falls (hr : VanReady h i s) (hl : f.entries.length ≤ 32) (hf : f ≠ {})
    (hout : f.output.getD s.sri.output.val = out.val) (ht : formTable f.entries s.sri.table = some t)
    (hfalls : mapStands t out = false) : exec (.inputMap h f) s = .next { s with sri := ringReply s.sri h i 8 4 [] } :=
  exec_refused (c := .inputMap f) (r := .refusedState) rfl hr
    (by simp only [perform, inputMap, if_neg (mt mapFields_empty.mpr hf), atHead_sri, ht, hout, finOf_val, hfalls,
      Bool.false_eq_true, if_false]) (decide_eq_true hl) (by simp)

theorem exec_inputMap_stores (hr : VanReady h i s) (hl : f.entries.length ≤ 32) (hf : f ≠ {})
    (hout : f.output.getD s.sri.output.val = out.val) (ht : formTable f.entries s.sri.table = some t)
    (hstands : mapStands t out = true) (hstore : s.sri.storeMap t out = r) :
    exec (.inputMap h f) s = .next { s with sri := ringReply r h i 8 1 [] } := by
  have hperform : perform (headOf h (.inputMap f)) (.inputMap f) (atHead h (.inputMap f) s) =
      (atHead h (.inputMap f) { s with sri := r }, { status := .done }) := by
    simp only [perform, inputMap, if_neg (mt mapFields_empty.mpr hf), atHead_sri, ht, hout, finOf_val, hstands, if_true, ← hstore]
    rfl
  rw [exec_van rfl hr hperform (decide_eq_true hl) (by simp) hr.1.1 hr.1.2.1 hr.1.2.2]
  rfl

end

/-- Settles O40: INPUT-MAP as a query, with a number out of range, and by the table that its entries form. -/
theorem inputMap_judgesTheTable : Obligations.InputMap_JudgesTheTable := by
  intro h i f s hr hl
  refine ⟨?_, fun hf => ⟨exec_inputMap_outside hr hl hf, fun out hout hok => ?_⟩⟩
  · rintro rfl n1 n2 n3 n4 n5 h1 h2 h3 h4 h5
    exact exec_inputMap_query hr (destCounts_eq h1 h2 h3 h4 h5)
  · have hform := formTable_some (t := s.sri.table) hok
    refine ⟨_, fun k hk => mappedTable_other hok hk, fun k early e late hentries hk hlate => ?_, fun hfalls => ?_, ?_⟩
    · have hdest : (mappedTable f.entries s.sri.table).get k = entryDest e := by
        rw [hentries] at hok ⊢
        exact mappedTable_last hok hk hlate
      have hcodes := destOf_codes (destOf_some (hok e (by simp [hentries])))
      rw [← hdest] at hcodes
      obtain ⟨hkind, hnumber⟩ := hcodes
      split <;> rename_i hget <;> rw [hget] at hkind hnumber
      · exact hkind
      · exact ⟨hkind, hnumber (.inl hkind)⟩
      · exact hkind
      · exact ⟨hkind, hnumber (.inr hkind)⟩
      · exact hkind
    · refine exec_inputMap_falls hr hl hf hout hform (Bool.eq_false_iff.mpr fun hstands => ?_)
      obtain ⟨⟨k, hk⟩, hnone⟩ := mapStands_iff.mp hstands
      exact hfalls.elim (fun h => h k hk) (fun h => h hnone)
    · intro hcontrol hnone partials n hp hn
      exact exec_inputMap_stores hr hl hf hout hform (mapStands_iff.mpr ⟨hcontrol, hnone⟩) (storeMap_eq hp hn)

end Sys2Proof.Machine
end

section
/-! PROOF. The mix of one block: contributions, bus sums, gains, saturation and meters (R88 to R96), and the flags that it
raises. -/

namespace Sys2Proof.Machine

/-! ### Inputs (R88, R90) -/

section
variable {n : BlockNo} {k : Fin 32} {v : Input} {b : JitterBlock} {mapped : Bool} {s : State} {old new : List JitterBlock}

theorem isMapped_iff : isMapped s k = true ↔ ∃ i, s.sri.table.get i = .soundInput k := by
  simp only [isMapped, any_vals, beq_iff_eq]

/-- An input once blocks before `n` have left its store (R88). -/
def Input.skipped (n : BlockNo) (v : Input) : Input :=
  { v with store := v.store.filter fun b => decide ((b.block - n).toNat < 32768) }

/-- An input after the mix of block `n`, the blocks before it skipped (R88, R90). -/
def Input.mixed (mapped : Bool) (n : BlockNo) (v : Input) : Input :=
  { v with
    store := v.store.filter fun b => b.block != n && decide ((b.block - n).toNat < 32768)
    last := (contribution mapped n v).1
    loss := if (contribution mapped n v).2 then min (v.loss + 1) 65535 else v.loss }

/-- Skipped blocks are none that an input would give: block `n` itself stays. -/
theorem contribution_skipped : contribution mapped n (v.skipped n) = contribution mapped n v := by
  have hfind : (v.skipped n).store.find? (fun b => b.block == n) = v.store.find? fun b => b.block == n := by
    rw [Input.skipped, List.find?_filter]
    congr 1
    funext b
    by_cases hb : b.block = n
    · simp [hb]
    · simp [hb]
  simp only [contribution, hfind]
  rfl

theorem contributed_skipped : contributed mapped n (v.skipped n) = v.mixed mapped n := by
  simp only [contributed, contribution_skipped]
  simp only [Input.mixed, Input.skipped, satInc, List.filter_filter]

theorem contribution_stored (hs : v.store = old ++ b :: new) (hb : b.block = n) (hold : ∀ c ∈ old, c.block ≠ n) :
    contribution mapped n v = (b.samples, false) := by
  have hnone : old.find? (fun b => b.block == n) = none := List.find?_eq_none.mpr fun c hc => by simpa using hold c hc
  have hfind : v.store.find? (fun b => b.block == n) = some b := by
    rw [hs, List.find?_append, hnone, Option.none_or, List.find?_cons_of_pos (by simpa using hb)]
  simp only [contribution, hfind]

theorem contribution_absent (h : ∀ b ∈ v.store, b.block ≠ n) :
    contribution mapped n v = if mapped then (substitute v, true) else (silentBlock, false) := by
  have hnone : v.store.find? (fun b => b.block == n) = none := List.find?_eq_none.mpr fun b hb => by simpa using h b hb
  simp only [contribution, hnone]

/-- R90: the block of a mapped input is lost where its store does not hold it. -/
theorem contribution_lost : (contribution mapped n v).2 = true ↔ (∀ b ∈ v.store, b.block ≠ n) ∧ mapped = true := by
  by_cases h : ∀ b ∈ v.store, b.block ≠ n
  · rw [contribution_absent h, and_iff_right h]
    cases mapped <;> simp
  · have hsome : (v.store.find? fun b => b.block == n).isSome = true := by
      rw [List.find?_isSome]
      push Not at h
      simpa using h
    obtain ⟨b, hb⟩ := Option.isSome_iff_exists.mp hsome
    simp only [contribution, hb, Bool.false_eq_true, false_iff, not_and]
    exact fun hall => absurd hall h

end

/-! ### Buses (R94 to R96) -/

section
variable {n : BlockNo} {b : Fin 8} {j : Fin 16} {bus : Bus} {terms : List (SoundBlock × CrossPoint)} {z : Int}

theorem saturate_eq (z : Int) : saturate z = max (-8388608) (min 8388607 z) := by
  simp only [saturate, clampInt]
  omega

/-- A saturated value is a sample (R95). -/
theorem toInt_saturate (z : Int) : (BitVec.ofInt 24 (saturate z)).toInt = saturate z := by
  rw [saturate_eq]
  exact BitVec.toInt_ofInt_eq_self (by decide) (by omega) (by omega)

theorem foldl_max {α : Type} (f : α → Nat) (l : List α) (m : Nat) :
    m ≤ l.foldl (fun m a => max m (f a)) m ∧ (∀ a ∈ l, f a ≤ l.foldl (fun m a => max m (f a)) m) ∧
    (l.foldl (fun m a => max m (f a)) m = m ∨ ∃ a ∈ l, l.foldl (fun m a => max m (f a)) m = f a) := by
  induction l generalizing m with
  | nil => simp
  | cons a l ih =>
    obtain ⟨hle, hall, hone⟩ := ih (max m (f a))
    rw [List.foldl_cons]
    refine ⟨le_trans (le_max_left ..) hle, fun c hc => ?_, ?_⟩
    · obtain rfl | hc := List.mem_cons.mp hc
      · exact le_trans (le_max_right ..) hle
      · exact hall c hc
    · obtain hone | ⟨c, hc, hone⟩ := hone
      · rcases max_choice m (f a) with hm | hm
        · exact .inl (hone.trans hm)
        · exact .inr ⟨a, List.mem_cons_self .., hone.trans hm⟩
      · exact .inr ⟨c, List.mem_cons_of_mem _ hc, hone⟩

/-- R96: the block peak is the largest magnitude, with 8,388,608 counted as 8,388,607. -/
theorem blockPeak_spec (block : SoundBlock) : (∀ j, min 8388607 (block.get j).toInt.natAbs ≤ blockPeak block) ∧
    ∃ j, blockPeak block = min 8388607 (block.get j).toInt.natAbs := by
  have hfold : blockPeak block = (List.finRange 16).foldl (fun m j => max m (min 8388607 (block.get j).toInt.natAbs)) 0 := by
    rw [blockPeak, vals_eq_map, List.foldl_map]
    rfl
  obtain ⟨-, hall, hone⟩ := foldl_max (fun j => min 8388607 (block.get j).toInt.natAbs) (List.finRange 16) 0
  rw [← hfold] at hall hone
  refine ⟨fun j => hall j (List.mem_finRange j), ?_⟩
  obtain hzero | ⟨j, -, hj⟩ := hone
  · have hfirst := hall 0 (List.mem_finRange 0)
    exact ⟨0, by omega⟩
  · exact ⟨j, hj⟩

/-- Sample `j` of a bus under its master gain, before saturation (R94, R95). -/
def busMastered (bus : Bus) (terms : List (SoundBlock × CrossPoint)) (j : Fin 16) : Int :=
  mastered (busSample terms j) (masterGain bus j)

theorem busOutput_get : ((busOutput bus terms).1.get j).toInt = saturate (busMastered bus terms j) := by
  simp only [busOutput, Table.get_ofFn]
  exact toInt_saturate _

theorem busOutput_clipped : (busOutput bus terms).2 = true ↔ ∃ j, saturate (busMastered bus terms j) ≠ busMastered bus terms j := by
  simp only [busOutput, List.any_eq_true, List.mem_finRange, true_and, bne_iff_ne]
  rfl

/-- R95, R96: what a bus keeps of a mix, by its samples before and after saturation. -/
theorem busAfter_spec (bus : Bus) (terms : List (SoundBlock × CrossPoint)) : ∃ peak clips,
    (∀ j, min 8388607 (saturate (busMastered bus terms j)).natAbs ≤ peak) ∧
    (∃ j, peak = min 8388607 (saturate (busMastered bus terms j)).natAbs) ∧
    ((busOutput bus terms).2 = true → clips = min (bus.clips + 1) 65535) ∧
    ((busOutput bus terms).2 = false → clips = bus.clips) ∧
    busAfter bus (busOutput bus terms) = { bus with
      applied := bus.master
      clips := clips
      blockPeak := peak
      heldPeak := max peak (bus.heldPeak - bus.decay) } := by
  obtain ⟨hall, hone⟩ := blockPeak_spec (busOutput bus terms).1
  simp only [busOutput_get] at hall hone
  exact ⟨_, if (busOutput bus terms).2 then min (bus.clips + 1) 65535 else bus.clips, hall, hone, fun h => if_pos h,
    fun h => if_neg (by simp [h]), rfl⟩

end

/-! ### The mixer after a mix, and the flags (R88 to R96) -/

section
variable {n m : BlockNo} {k : Fin 32} {b : Fin 8} {f : EventFlag} {s u : State}

/-- What input `k` gives to the mix of block `n`, and whether its block is lost (R90). -/
def given (s : State) (n : BlockNo) (k : Fin 32) : SoundBlock × Bool := contribution (isMapped s k) n (inputOf s k)

/-- The output of bus `b` at the mix of block `n`, and whether a sample was saturated (R94, R95). -/
def outputOf (s : State) (n : BlockNo) (b : Fin 8) : SoundBlock × Bool := busOutput (busOf s b) (busTerms s n b)

/-- The mixer once block `n` is mixed, before the triggers step (R88 to R96). -/
def mixedMixer (n : BlockNo) (s : State) : Mixer :=
  { s.smx with
    inputs := Table.ofFn fun k => (inputOf s k).mixed (isMapped s k) n
    cross := s.smx.cross.map fun row => row.map fun x => { x with applied := x.target }
    buses := Table.ofFn fun b => busAfter (busOf s b) (outputOf s n b) }

/-- A flag raised once for each entry of a list (R208). -/
def raises {α : Type} (f : EventFlag) (l : List α) (s : State) : State := l.foldl (fun s _ => raiseFlag f s) s

/-- The state in which the triggers step at the mix of block `n`: the block event taken, the mixer mixed, and the flags of lost
blocks and saturated buses raised. -/
def mixedState (n : BlockNo) (s : State) : State :=
  raises .busClipped ((List.finRange 8).filter fun b => (outputOf s n b).2)
    (raises .soundLoss ((List.finRange 32).filter fun k => (given s n k).2)
      { s with tbu := { s.tbu with blockDue := false }, smx := mixedMixer n s })

theorem mixBlock_eq : (mixBlock n (skipTo n (s.onTbu fun t => { t with blockDue := false }))).2 =
    four.foldl (fun s i => stepTrigger i s) (mixedState n s) := by
  obtain ⟨w, hw⟩ : ∃ w, w = skipTo n (s.onTbu fun t => { t with blockDue := false }) := ⟨_, rfl⟩
  have hinput : ∀ k, inputOf w k = (inputOf s k).skipped n := fun k => by rw [hw]; exact Table.get_map ..
  have hmapped : ∀ k, isMapped w k = isMapped s k := fun k => by rw [hw]; rfl
  have hgiven : ∀ k, contribution (isMapped w k) n (inputOf w k) = given s n k := fun k => by
    rw [hmapped, hinput, contribution_skipped]
    rfl
  have hcross : ∀ k b, crossOf w k b = crossOf s k b := fun k b => by rw [hw]; rfl
  have hterms : ∀ b, busTerms w n b = busTerms s n b := fun b => by
    simp only [busTerms, hgiven, hcross]
    rfl
  have hout : ∀ b, busOutput (busOf w b) (busTerms w n b) = outputOf s n b := fun b => by
    rw [hterms, hw]
    rfl
  have hmixed : w.onSmx (fun m => { m with
      inputs := Table.ofFn fun k => contributed (isMapped w k) n (m.inputs.get k)
      cross := m.cross.map fun row => row.map fun x => { x with applied := x.target }
      buses := Table.ofFn fun b => busAfter (m.buses.get b) (outputOf s n b) }) =
      { s with tbu := { s.tbu with blockDue := false }, smx := mixedMixer n s } := by
    have hinputs : (Table.ofFn fun k => contributed (isMapped w k) n (w.smx.inputs.get k)) = (mixedMixer n s).inputs :=
      Table.ext_get fun k => by
        rw [Table.get_ofFn, mixedMixer, Table.get_ofFn, hmapped, ← contributed_skipped, ← hinput]
        rfl
    simp only [State.onSmx, hinputs]
    rw [hw]
    rfl
  rw [← hw]
  simp only [mixBlock, hgiven, hout, hmixed, Table.get_ofFn]
  rfl

/-- A block event at the mix lag or above mixes the block that lies the lag before it (R88). -/
theorem mixEvent_mixes (halign : s.smx.aligned = true) (hlag : s.smx.lag ≤ (m - s.smx.next).toNat)
    (hahead : (m - s.smx.next).toNat < 32768) (hn : n = m - BitVec.ofNat 16 s.smx.lag) :
    (mixEvent m (s.onTbu fun t => { t with blockDue := false })).2 =
      (four.foldl (fun s i => stepTrigger i s) (mixedState n s)).onSmx fun x => { x with next := n + 1 } := by
  have hmix : ¬ ((m - s.smx.next).toNat < s.smx.lag ∨ 32768 ≤ (m - s.smx.next).toNat) := by omega
  subst hn
  simp only [mixEvent, State.onTbu_smx, halign, if_true, hmix, if_false, mixBlock_eq]

/-! ### What raised flags leave, and what they set (R208) -/

theorem raises_calm {α : Type} (f : EventFlag) (l : List α) (s : State) : (raises f l s).calm = s.calm :=
  foldl_calm _ (fun s _ => raiseFlag_calm f s) l s

theorem raises_pgc {α : Type} (f : EventFlag) (l : List α) (s : State) : (raises f l s).pgc = s.pgc :=
  foldl_reads (read := State.pgc) (fun _ _ s => raiseFlag_pgc f s) s

theorem raises_keeps {α : Type} (f g : EventFlag) (l : List α) {s : State} (h : (flagRec s g).set = true) :
    (flagRec (raises f l s) g).set = true := by
  induction l generalizing s with
  | nil => exact h
  | cons a l ih => exact ih (raiseFlag_keeps f g s h)

theorem raises_sets {α : Type} (f : EventFlag) {l : List α} (s : State) (h : l ≠ []) : (flagRec (raises f l s) f).set = true := by
  cases l with
  | nil => exact absurd rfl h
  | cons a l => exact raises_keeps f f l (raiseFlag_sets f s)

/-- Without home copies, raised flags change the Command Unit alone. -/
theorem raises_cmu {α : Type} (f : EventFlag) (l : List α) {s : State} (h : s.cmu.noticesHome = false) :
    ∃ c, raises f l s = { s with cmu := c } ∧ c.noticesHome = false := by
  induction l generalizing s with
  | nil => exact ⟨_, rfl, h⟩
  | cons a l ih =>
    obtain ⟨c, hc, hhome⟩ := raiseFlag_cmu f h
    obtain ⟨d, hd, hhome⟩ := ih (s := raiseFlag f s) (by rw [hc]; exact hhome)
    refine ⟨d, ?_, hhome⟩
    rw [raises, List.foldl_cons]
    refine hd.trans ?_
    rw [hc]

theorem mixedState_calm : (mixedState n s).calm =
    ({ s with tbu := { s.tbu with blockDue := false }, smx := mixedMixer n s } : State).calm :=
  (raises_calm ..).trans (raises_calm ..)

theorem mixedState_pgc : (mixedState n s).pgc = s.pgc := (raises_pgc ..).trans (raises_pgc ..)

theorem mixedState_soundLoss (h : (given s n k).2 = true) : (flagRec (mixedState n s) .soundLoss).set = true :=
  raises_keeps _ _ _ (raises_sets _ _ (List.ne_nil_of_mem (List.mem_filter.mpr ⟨List.mem_finRange k, h⟩)))

theorem mixedState_busClipped (h : (outputOf s n b).2 = true) : (flagRec (mixedState n s) .busClipped).set = true :=
  raises_sets _ _ (List.ne_nil_of_mem (List.mem_filter.mpr ⟨List.mem_finRange b, h⟩))

/-- Without home copies, the mix leaves the links as they were. -/
theorem mixedState_links (h : s.cmu.noticesHome = false) : (mixedState n s).hsc = s.hsc ∧ (mixedState n s).lsu = s.lsu := by
  obtain ⟨c, hc, hhome⟩ := raises_cmu .soundLoss ((List.finRange 32).filter fun k => (given s n k).2)
    (s := { s with tbu := { s.tbu with blockDue := false }, smx := mixedMixer n s }) h
  obtain ⟨d, hd, -⟩ := raises_cmu .busClipped ((List.finRange 8).filter fun b => (outputOf s n b).2) (s := raises _ _ _)
    (by rw [hc]; exact hhome)
  rw [mixedState, hd, hc]
  exact ⟨rfl, rfl⟩

end

end Sys2Proof.Machine
end

section
/-! PROOF. The block event at the mix lag: the mix, then the triggers on their block peaks and the marks that they send
(R88 to R96, R101 to R103). -/

namespace Sys2Proof.Machine

/-! ### What a sound trigger's MARK-IN leaves (R102) -/

section
variable {i : Fin 4} {v : Trigger} {n : Nat} {source : ClipSource} {prio : Priority} {kept : List Prog} {c : Clip} {s s' t t' w : State}

theorem sentMarkIn_none (h : keptCameras v.cameras s = []) :
    sentMarkIn i v s = s.onSmx fun m => { m with answers := m.answers ++ [⟨i, none⟩] } := by
  simp only [sentMarkIn, markIn_none h]

theorem sentMarkIn_full (h : keptCameras v.cameras s ≠ []) (hlen : s.clm.clips.length = 64) (hacked : s.clm.acked = []) :
    sentMarkIn i v s = (raiseFlag .clipFull s).onSmx fun m => { m with answers := m.answers ++ [⟨i, none⟩] } := by
  simp only [sentMarkIn, markIn_full h hlen hacked]

theorem sentMarkIn_makes (hm : ClipsOk s.clm) (h : keptCameras v.cameras s ≠ []) (hlen : s.clm.clips.length < 64) :
    ∃ c pgc, MarkedIn (.trigger i) v.priority (keptCameras v.cameras s) s { s with pgc := pgc } c ∧
      sentMarkIn i v s = { s with
        pgc := pgc
        clm := withRecord c s.clm
        smx := { s.smx with answers := s.smx.answers ++ [⟨i, some c.number⟩] } } := by
  obtain ⟨c, u, hsent, hmarked, hu⟩ := markIn_makes (.trigger i) v.cameras v.priority hm h hlen
  obtain ⟨hrecord, hnumber, hcameras, hplaced, hmarks, hformats⟩ := hmarked
  refine ⟨c, u.pgc, ⟨hrecord, hnumber, hcameras, hplaced, hmarks, hformats⟩, ?_⟩
  simp only [sentMarkIn, hsent]
  rw [hu]
  rfl

/-- What a MARK-IN reads and what it changes are the anchor histories, the picture number, the clip table and the programmes. -/
theorem MarkedIn.congr (h : MarkedIn source prio kept s t c) (htbu : s'.tbu.pic = s.tbu.pic) (hclm : s'.clm = s.clm)
    (hcde : s'.cde = s.cde) (hpgc : s'.pgc = s.pgc) (hafter : t'.pgc = t.pgc) : MarkedIn source prio kept s' t' c := by
  obtain ⟨hrecord, hnumber, hcameras, hplaced, hmarks, hformats⟩ := h
  refine ⟨?_, ?_, hcameras, ?_, ?_, ?_⟩
  · rw [htbu]; exact hrecord
  · rw [hclm]; exact hnumber
  · simpa only [loopOf, hcde, htbu, hclm] using hplaced
  · simpa only [prog, hpgc, hafter] using hmarks
  · rw [hafter, hpgc]; exact hformats

/-! ### The four triggers, where one alone sends a mark (R101 to R103) -/

theorem marksIn_not_marksOut {peak : Nat} (h : v.MarksIn peak) : ¬ v.MarksOut peak n := by
  obtain ⟨hin, -⟩ := h
  rintro ⟨hout, -⟩
  obtain hin | hin := hin <;> obtain hout | hout := hout <;> rw [hin] at hout <;> cases hout

theorem stepTrigger_marksIn (h : (triggerOf s i).MarksIn (peakOf s i)) :
    stepTrigger i s = sentMarkIn i (triggerOf s i) (s.onTrigger i (·.stepped (peakOf s i))) := by
  obtain ⟨-, hstep⟩ | ⟨n, hout, -⟩ | ⟨hnot, -⟩ := stepTrigger_cases i s
  · exact hstep
  · exact absurd hout (marksIn_not_marksOut h)
  · exact absurd h hnot

theorem stepTrigger_marksOut (h : (triggerOf s i).MarksOut (peakOf s i) n) :
    stepTrigger i s = silentMarkOut n (s.onTrigger i (·.stepped (peakOf s i))) := by
  obtain ⟨hin, -⟩ | ⟨k, hout, hstep⟩ | ⟨-, hnot, -⟩ := stepTrigger_cases i s
  · exact absurd h (marksIn_not_marksOut hin)
  · obtain ⟨-, -, hclip⟩ := h
    obtain ⟨-, -, hclip'⟩ := hout
    rw [hclip] at hclip'
    cases hclip'
    exact hstep
  · exact absurd h (hnot n)

/-- One trigger alone opens: the four steps come to its MARK-IN, but for the triggers' own records. -/
theorem stepTriggers_marksIn (hone : ∀ k, k ≠ i → Unmarked w k) (h : (triggerOf w i).MarksIn (peakOf w i)) :
    ∃ T U : Table 4 Trigger, four.foldl (fun s i => stepTrigger i s) w =
      (sentMarkIn i (triggerOf w i) { w with smx := { w.smx with triggers := T } }).onSmx fun m => { m with triggers := U } := by
  obtain ⟨T, U, hT, hfold⟩ := stepTriggers_one i w hone
  obtain ⟨u, hu⟩ : ∃ u : State, u = { w with smx := { w.smx with triggers := T } } := ⟨_, rfl⟩
  have htrigger : triggerOf u i = triggerOf w i := by rw [hu]; exact hT
  have hpeak : peakOf u i = peakOf w i := by rw [peakOf, htrigger, hu]; rfl
  have hstep := stepTrigger_marksIn (s := u) (i := i) (by rw [htrigger, hpeak]; exact h)
  rw [htrigger] at hstep
  refine ⟨T.modify i (·.stepped (peakOf u i)), U, hfold.trans ?_⟩
  rw [← hu]
  simp only [hstep]
  rw [hu]
  rfl

/-- One trigger alone releases a recorded clip: the four steps come to its MARK-OUT, but for the triggers' own records. -/
theorem stepTriggers_marksOut (hone : ∀ k, k ≠ i → Unmarked w k) (h : (triggerOf w i).MarksOut (peakOf w i) n)
    (hm : ClipsOk w.clm) (hp : w.clm.postRoll ≠ 0) :
    ∃ U : Table 4 Trigger, four.foldl (fun s i => stepTrigger i s) w =
      { w with smx := { w.smx with triggers := U }, clm := rolledOut n w.clm } := by
  obtain ⟨T, U, hT, hfold⟩ := stepTriggers_one i w hone
  obtain ⟨u, hu⟩ : ∃ u : State, u = { w with smx := { w.smx with triggers := T } } := ⟨_, rfl⟩
  have htrigger : triggerOf u i = triggerOf w i := by rw [hu]; exact hT
  have hpeak : peakOf u i = peakOf w i := by rw [peakOf, htrigger, hu]; rfl
  have hstep := stepTrigger_marksOut (s := u) (i := i) (by rw [htrigger, hpeak]; exact h)
  have hclm : (u.onTrigger i (·.stepped (peakOf u i))).clm = w.clm := by rw [hu]; rfl
  rw [silent_markOut n _ (by rw [hclm]; exact hm) (by rw [hclm]; exact hp)] at hstep
  refine ⟨U, hfold.trans ?_⟩
  rw [← hu]
  simp only [hstep]
  rw [hu]
  rfl

end

/-! ### The end of the block event (R9, R163, R165) -/

section
variable {n : BlockNo} {g : EventFlag} {i : Fin 4} {s u v w t : State}

/-- The links gain their credit, and every link has a take attempt. -/
def credited (s : State) : State := settleTakes (creditBlock s)

theorem credited_calm (s : State) : (credited s).calm = s.calm := by
  rw [credited, settleTakes_calm, creditBlock, oweAll_calm]
  rfl

theorem credited_keeps (h : (flagRec s g).set = true) : (flagRec (credited s) g).set = true := settleTakes_keeps g _ h

/-- Where no link can take, no packet is dropped late, and the programmes stay as they are. -/
theorem credited_pgc (h : NoLinkTakes s) : (credited s).pgc = s.pgc := by
  have hnone : NoLinkTakes (creditBlock s) := fun l => by
    have hsched : (sched (creditBlock s) l).slot = (sched s l).slot ∧
        (sched (creditBlock s) l).inFlight = (sched s l).inFlight := by
      simp only [sched, creditBlock, oweAll, State.onHsc, Table.get_map, Table.get_ofFn, gainCredit]
      split <;> exact ⟨rfl, rfl⟩
    obtain ⟨hslot, hflight⟩ := hsched
    rw [hslot, hflight]
    exact h l
  rw [credited, settleTakes_cannot hnone]
  rfl

/-- The end of the block event that has mixed block `n`: the triggers step, the next block is the one after, and the links gain
their credit. -/
def mixedEnd (n : BlockNo) (w : State) : State :=
  credited ((four.foldl (fun s i => stepTrigger i s) w).onSmx fun x => { x with next := n + 1 })

theorem mixedState_fields (n : BlockNo) (s : State) :
    (mixedState n s).pending = s.pending ∧ (mixedState n s).tbu = { s.tbu with blockDue := false } ∧
    (mixedState n s).ports = s.ports ∧ (mixedState n s).cde = s.cde ∧ (mixedState n s).ral = s.ral ∧
    (mixedState n s).smx = mixedMixer n s ∧ (mixedState n s).sdp = s.sdp ∧ (mixedState n s).clm = s.clm ∧
    (mixedState n s).lsu = s.lsu ∧ (mixedState n s).sri = s.sri ∧ (mixedState n s).cmu.van = s.cmu.van ∧
    (mixedState n s).cmu.home = s.cmu.home := by
  obtain ⟨h1, h2, h3, h4, h5, h6, h7, h8, h9, h10, -, -, h11, h12, -⟩ := calm_eq (mixedState_calm (n := n) (s := s))
  exact ⟨h1, h2, h3, h4, h5, h6, h7, h8, h9, h10, h11, h12⟩

/-- The block event that mixes block `n` (R9, R88). -/
theorem exec_blockEvent_mixes (hq : Quiet s) (hdue : s.tbu.blockDue = true) (halign : s.smx.aligned = true)
    (hs : ∀ i, (s.sdp.get i).enable = false) (hlag : s.smx.lag ≤ (endedBlock s - s.smx.next).toNat)
    (hahead : (endedBlock s - s.smx.next).toNat < 32768) (hn : n = endedBlock s - BitVec.ofNat 16 s.smx.lag) :
    exec .blockEvent s = .next (mixedEnd n (mixedState n s)) := by
  obtain ⟨-, -, -, -, -, -, hsdp, -, -, -, hvan, hhome⟩ := mixedState_fields n s
  obtain ⟨v, hv⟩ : ∃ v, v = four.foldl (fun s i => stepTrigger i s) (mixedState n s) := ⟨_, rfl⟩
  obtain ⟨-, -, -, -, -, hsdp', -, -, hvan', hhome', -⟩ := stepTriggers_leaves four (mixedState n s) v hv
  have hmix := mixEvent_mixes halign hlag hahead hn
  rw [← hv] at hmix
  have hwork := blockWork_disabled hmix fun i => by
    rw [State.onSmx_sdp, hsdp', hsdp]
    exact hs i
  show Host.Outcome.next (finish (blockIfDue s)) = _
  rw [blockIfDue, if_pos hdue, hwork, mixedEnd, ← hv, credited, finish_empty]
  · exact hvan'.trans (hvan.trans hq.2.1)
  · exact hhome'.trans (hhome.trans hq.2.2)

/-- What the block event leaves of everything but the pool, the links' traffic, the clip table and the programmes. -/
theorem mixedEnd_leaves (n : BlockNo) (w : State) :
    (mixedEnd n w).sdp = w.sdp ∧ (mixedEnd n w).ports = w.ports ∧ (mixedEnd n w).cde = w.cde ∧ (mixedEnd n w).ral = w.ral ∧
    (mixedEnd n w).lsu = w.lsu ∧ (mixedEnd n w).sri = w.sri ∧ (mixedEnd n w).tbu = w.tbu ∧
    (∀ g, (flagRec w g).set = true → (flagRec (mixedEnd n w) g).set = true) := by
  obtain ⟨v, hv⟩ : ∃ v, v = four.foldl (fun s i => stepTrigger i s) w := ⟨_, rfl⟩
  obtain ⟨-, htbu, hports, hcde, hral, -, hsdp, -, hlsu, hsri, -⟩ := calm_eq (credited_calm
    (v.onSmx fun x => { x with next := n + 1 }))
  obtain ⟨-, htbu', hports', hcde', hral', hsdp', hlsu', hsri', -, -, hflags⟩ := stepTriggers_leaves four w v hv
  rw [mixedEnd, ← hv]
  exact ⟨hsdp.trans hsdp', hports.trans hports', hcde.trans hcde', hral.trans hral', hlsu.trans hlsu', hsri.trans hsri',
    htbu.trans htbu', fun g hg => credited_keeps (hflags g hg)⟩

/-- The mixer at the end: the triggers stepped on the block peaks of their buses, and the answers on their way. -/
theorem mixedEnd_smx (n : BlockNo) (w : State) : ∃ sent, (mixedEnd n w).smx = { w.smx with
    next := n + 1
    triggers := Table.ofFn fun i => (triggerOf w i).stepped (peakOf w i)
    answers := w.smx.answers ++ sent } := by
  obtain ⟨sent, hsmx⟩ := stepTriggers_smx w
  obtain ⟨v, hv⟩ : ∃ v, v = four.foldl (fun s i => stepTrigger i s) w := ⟨_, rfl⟩
  obtain ⟨-, -, -, -, -, hend, -⟩ := calm_eq (credited_calm (v.onSmx fun x => { x with next := n + 1 }))
  refine ⟨sent, ?_⟩
  rw [mixedEnd, ← hv, hend, State.onSmx_smx, hv, hsmx]

/-- The clip table and the answers at the end, by what the triggers' steps have left. -/
theorem mixedEnd_marks (hfold : four.foldl (fun s i => stepTrigger i s) w = v) :
    (mixedEnd n w).clm = v.clm ∧ (mixedEnd n w).smx.answers = v.smx.answers ∧
    (∀ g, (flagRec v g).set = true → (flagRec (mixedEnd n w) g).set = true) ∧
    (NoLinkTakes v → (mixedEnd n w).pgc = v.pgc) := by
  obtain ⟨-, -, -, -, -, hsmx, -, hclm, -⟩ := calm_eq (credited_calm (v.onSmx fun x => { x with next := n + 1 }))
  rw [mixedEnd, hfold]
  exact ⟨hclm, by rw [hsmx]; rfl, fun g hg => credited_keeps hg, fun h => credited_pgc h⟩

/-- Triggers that send no mark leave the clip table and the answers on their way. -/
theorem mixedEnd_unmarked (h : ∀ i, Unmarked w i) :
    (mixedEnd n w).clm = w.clm ∧ (mixedEnd n w).smx.answers = w.smx.answers := by
  obtain ⟨T, hfold, -⟩ := stepTriggers_unmarked four w (by decide) fun i _ => h i
  obtain ⟨hclm, hanswers, -, -⟩ := mixedEnd_marks (n := n) hfold
  exact ⟨hclm, hanswers⟩

end

/-! ### The triggers' marks, in the terms of the state before the block event (R102, R103) -/

section
variable {n : BlockNo} {i : Fin 4} {peak : Fin 4 → Nat} {kept : List Prog} {c : Nat} {s : State}

/-- The block peak that trigger `i` steps on at the mix of block `n`. -/
def mixedPeak (n : BlockNo) (s : State) (i : Fin 4) : Nat :=
  (busAfter (busOf s (triggerOf s i).bus) (outputOf s n (triggerOf s i).bus)).blockPeak

theorem triggerOf_mixedState (n : BlockNo) (s : State) (i : Fin 4) : triggerOf (mixedState n s) i = triggerOf s i := by
  obtain ⟨-, -, -, -, -, hsmx, -⟩ := mixedState_fields n s
  rw [triggerOf, hsmx]
  rfl

theorem peakOf_mixedState (n : BlockNo) (s : State) (i : Fin 4) : peakOf (mixedState n s) i = mixedPeak n s i := by
  obtain ⟨-, -, -, -, -, hsmx, -⟩ := mixedState_fields n s
  rw [peakOf, triggerOf_mixedState, busOf, hsmx, mixedMixer, Table.get_ofFn, mixedPeak]

/-- The trigger's step on its peak sends no mark. -/
def SendsNone (n : BlockNo) (s : State) (i : Fin 4) : Prop :=
  ¬ (triggerOf s i).MarksIn (mixedPeak n s i) ∧ ∀ c, ¬ (triggerOf s i).MarksOut (mixedPeak n s i) c

theorem unmarked_mixedState : Unmarked (mixedState n s) i ↔ SendsNone n s i := by
  rw [Unmarked, triggerOf_mixedState, peakOf_mixedState, SendsNone]

/-- The cameras that a MARK-IN keeps are read of the programmes alone. -/
theorem keptCameras_pgc {cams : Table 4 Bool} {u : State} (hpgc : u.pgc = s.pgc) (hsorted : kept.Pairwise (· < ·))
    (hkept : ∀ p, p ∈ kept ↔ (∃ q, cams.get q = true ∧ fold s q = p) ∧ (prog s p).state = .running) :
    keptCameras cams u = kept := by
  refine keptCameras_eq hsorted fun p => ?_
  have hfold : ∀ q, fold u q = fold s q := fun q => fold_pgc hpgc q
  have hprog : prog u p = prog s p := congrArg (fun x : Controller => x.progs.get p) hpgc
  rw [hkept]
  simp only [hfold, hprog]

theorem answers_mixedState (n : BlockNo) (s : State) : (mixedState n s).smx.answers = s.smx.answers := by
  obtain ⟨-, -, -, -, -, hsmx, -⟩ := mixedState_fields n s
  rw [hsmx]
  rfl

theorem clm_mixedState (n : BlockNo) (s : State) : (mixedState n s).clm = s.clm := by
  obtain ⟨-, -, -, -, -, -, -, hclm, -⟩ := mixedState_fields n s
  exact hclm

section
variable (hone : ∀ k, k ≠ i → SendsNone n s k) (hin : (triggerOf s i).MarksIn (mixedPeak n s i))
include hone hin

/-- One trigger alone opens: the state that its MARK-IN reads is, where that looks, the one before the block event. -/
theorem mixedState_opens : ∃ (U : Table 4 Trigger) (u : State), four.foldl (fun s i => stepTrigger i s) (mixedState n s) =
    (sentMarkIn i (triggerOf s i) u).onSmx (fun m => { m with triggers := U }) ∧
    u.pgc = s.pgc ∧ u.clm = s.clm ∧ u.smx.answers = s.smx.answers ∧ u.tbu.pic = s.tbu.pic ∧ u.cde = s.cde ∧
    (s.cmu.noticesHome = false → u.hsc = s.hsc ∧ u.lsu = s.lsu) := by
  obtain ⟨w, hw⟩ : ∃ w, w = mixedState n s := ⟨_, rfl⟩
  have hpgc : w.pgc = s.pgc := by rw [hw]; exact mixedState_pgc
  have hclm : w.clm = s.clm := by rw [hw]; exact clm_mixedState n s
  have hanswers : w.smx.answers = s.smx.answers := by rw [hw]; exact answers_mixedState n s
  have hlinks : s.cmu.noticesHome = false → w.hsc = s.hsc ∧ w.lsu = s.lsu := by rw [hw]; exact mixedState_links
  obtain ⟨-, htbu, -, hcde, -⟩ := mixedState_fields n s
  rw [← hw] at htbu hcde
  obtain ⟨T, U, hfold⟩ := stepTriggers_marksIn (w := mixedState n s) (i := i) (fun k hk => unmarked_mixedState.mpr (hone k hk))
    (by rw [triggerOf_mixedState, peakOf_mixedState]; exact hin)
  rw [triggerOf_mixedState, ← hw] at hfold
  rw [← hw]
  exact ⟨U, _, hfold, hpgc, hclm, hanswers, by rw [htbu], hcde, hlinks⟩

/-- R102, R127: a MARK-IN that keeps no camera is refused. -/
theorem mixedEnd_noCamera (hkept : ∀ p, ¬ ((∃ q, (triggerOf s i).cameras.get q = true ∧ fold s q = p) ∧ (prog s p).state = .running)) :
    (mixedEnd n (mixedState n s)).clm = s.clm ∧
    (mixedEnd n (mixedState n s)).smx.answers = s.smx.answers ++ [{ trigger := i, clip := none }] := by
  obtain ⟨U, u, hfold, hupgc, huclm, huanswers, -, -, -⟩ := mixedState_opens hone hin
  have hcams : keptCameras (triggerOf s i).cameras u = [] :=
    keptCameras_pgc hupgc .nil fun p => iff_of_false List.not_mem_nil (hkept p)
  rw [sentMarkIn_none hcams] at hfold
  obtain ⟨hclm, hanswers, -, -⟩ := mixedEnd_marks (n := n) hfold
  refine ⟨hclm.trans huclm, hanswers.trans ?_⟩
  rw [← huanswers]
  rfl

section
variable (hsorted : kept.Pairwise (· < ·))
  (hkept : ∀ p, p ∈ kept ↔ (∃ q, (triggerOf s i).cameras.get q = true ∧ fold s q = p) ∧ (prog s p).state = .running)
  (hsome : kept ≠ [])
include hsorted hkept hsome

/-- R102, R124: a MARK-IN that finds no place is refused, and CLIP-FULL is set. -/
theorem mixedEnd_full (hlen : s.clm.clips.length = 64) (hacked : s.clm.acked = []) :
    (flagRec (mixedEnd n (mixedState n s)) .clipFull).set = true ∧ (mixedEnd n (mixedState n s)).clm = s.clm ∧
    (mixedEnd n (mixedState n s)).smx.answers = s.smx.answers ++ [{ trigger := i, clip := none }] := by
  obtain ⟨U, u, hfold, hupgc, huclm, huanswers, -, -, -⟩ := mixedState_opens hone hin
  have hcams : keptCameras (triggerOf s i).cameras u ≠ [] := by rwa [keptCameras_pgc hupgc hsorted hkept]
  rw [sentMarkIn_full hcams (by rw [huclm]; exact hlen) (by rw [huclm]; exact hacked)] at hfold
  obtain ⟨-, -, -, -, -, hraised, -, hraisedClm, -⟩ := calm_eq (raiseFlag_calm .clipFull u)
  obtain ⟨hclm, hanswers, hflags, -⟩ := mixedEnd_marks (n := n) hfold
  refine ⟨hflags _ (raiseFlag_sets .clipFull u), hclm.trans (hraisedClm.trans huclm), hanswers.trans ?_⟩
  rw [← huanswers, ← hraised]
  rfl

/-- R102, R123, R127: a MARK-IN with room makes its record, and its number is on its way. -/
theorem mixedEnd_makes (hm : ClipsOk s.clm) (hlen : s.clm.clips.length < 64) (hlinks : NoLinkTakes s)
    (hhome : s.cmu.noticesHome = false) : ∃ c,
    MarkedIn (.trigger i) (triggerOf s i).priority kept s (mixedEnd n (mixedState n s)) c ∧
    (mixedEnd n (mixedState n s)).clm = withRecord c s.clm ∧
    (mixedEnd n (mixedState n s)).smx.answers = s.smx.answers ++ [{ trigger := i, clip := some c.number }] := by
  obtain ⟨U, u, hfold, hupgc, huclm, huanswers, hupic, hucde, hulinks⟩ := mixedState_opens hone hin
  have hcams : keptCameras (triggerOf s i).cameras u = kept := keptCameras_pgc hupgc hsorted hkept
  obtain ⟨c, pgc, hmarked, hsent⟩ := sentMarkIn_makes (i := i) (v := triggerOf s i) (s := u) (by rw [huclm]; exact hm)
    (by rwa [hcams]) (by rw [huclm]; exact hlen)
  rw [hsent] at hfold
  obtain ⟨hclm, hanswers, -, hpgc⟩ := mixedEnd_marks (n := n) hfold
  obtain ⟨hhsc, hlsu⟩ := hulinks hhome
  have hnone : (mixedEnd n (mixedState n s)).pgc = pgc := hpgc fun l => by
    simp only [State.onSmx, link, sched, hhsc, hlsu]
    exact hlinks l
  rw [hcams] at hmarked
  refine ⟨c, hmarked.congr hupic.symm huclm.symm hucde.symm hupgc.symm hnone,
    hclm.trans (congrArg (withRecord c) huclm), hanswers.trans ?_⟩
  rw [← huanswers]
  rfl

end

end

/-- R103, R131: the MARK-OUT of a released trigger's clip. -/
theorem mixedEnd_releases (hone : ∀ k, k ≠ i → SendsNone n s k) (hout : (triggerOf s i).MarksOut (mixedPeak n s i) c)
    (hm : ClipsOk s.clm) (hp : s.clm.postRoll ≠ 0) :
    (mixedEnd n (mixedState n s)).smx.answers = s.smx.answers ∧ (mixedEnd n (mixedState n s)).clm = rolledOut c s.clm := by
  have hclm := clm_mixedState n s
  obtain ⟨U, hfold⟩ := stepTriggers_marksOut (w := mixedState n s) (i := i) (n := c)
    (fun k hk => unmarked_mixedState.mpr (hone k hk)) (by rw [triggerOf_mixedState, peakOf_mixedState]; exact hout)
    (by rw [hclm]; exact hm) (by rw [hclm]; exact hp)
  obtain ⟨hend, hanswers, -, -⟩ := mixedEnd_marks (n := n) hfold
  exact ⟨hanswers.trans (answers_mixedState n s), hend.trans (congrArg (rolledOut c) hclm)⟩

end

/-! ### The mixer at the end of the block event (R88 to R96, R101) -/

section
variable {n : BlockNo} {s : State}

/-- The mixer that the block event leaves, field by field but for the answers. -/
theorem mixedEnd_mixer (n : BlockNo) (s : State) : ∃ sent, (mixedEnd n (mixedState n s)).smx = { mixedMixer n s with
    next := n + 1
    triggers := Table.ofFn fun i => (triggerOf s i).stepped (mixedPeak n s i)
    answers := s.smx.answers ++ sent } := by
  obtain ⟨sent, hsmx⟩ := mixedEnd_smx n (mixedState n s)
  obtain ⟨-, -, -, -, -, hmixed, -⟩ := mixedState_fields n s
  simp only [triggerOf_mixedState, peakOf_mixedState, answers_mixedState] at hsmx
  exact ⟨sent, by rw [hsmx, hmixed]⟩

theorem inputOf_mixedEnd (k : Fin 32) : inputOf (mixedEnd n (mixedState n s)) k = (inputOf s k).mixed (isMapped s k) n := by
  obtain ⟨sent, hsmx⟩ := mixedEnd_mixer n s
  rw [inputOf, hsmx]
  exact Table.get_ofFn ..

theorem crossOf_mixedEnd (k : Fin 32) (b : Fin 8) :
    crossOf (mixedEnd n (mixedState n s)) k b = { crossOf s k b with applied := (crossOf s k b).target } := by
  obtain ⟨sent, hsmx⟩ := mixedEnd_mixer n s
  rw [crossOf, hsmx, mixedMixer, Table.get_map, Table.get_map]
  rfl

theorem busOf_mixedEnd (b : Fin 8) : busOf (mixedEnd n (mixedState n s)) b = busAfter (busOf s b) (outputOf s n b) := by
  obtain ⟨sent, hsmx⟩ := mixedEnd_mixer n s
  rw [busOf, hsmx]
  exact Table.get_ofFn ..

theorem triggerOf_mixedEnd (i : Fin 4) :
    triggerOf (mixedEnd n (mixedState n s)) i = (triggerOf s i).stepped (mixedPeak n s i) := by
  obtain ⟨sent, hsmx⟩ := mixedEnd_mixer n s
  rw [triggerOf, hsmx]
  exact Table.get_ofFn ..

end

/-- Settles O33: the inputs by `contribution`, the buses by `busAfter_spec`, and the triggers' marks by who sends one. -/
theorem blockEvent_mixesAtTheLag : Obligations.BlockEvent_MixesAtTheLag := by
  rintro m n s hq hdue halign hs rfl hlag hahead hn
  have hexec := exec_blockEvent_mixes hq hdue halign hs hlag hahead hn
  obtain ⟨sent, hsmx⟩ := mixedEnd_mixer n s
  obtain ⟨-, htbu, hports, hcde, hral, -, hsdp, -, hlsu, hsri, -⟩ := mixedState_fields n s
  obtain ⟨hsdp', hports', hcde', hral', hlsu', hsri', htbu', hflags⟩ := mixedEnd_leaves n (mixedState n s)
  have hinput := inputOf_mixedEnd (n := n) (s := s)
  have hcross := crossOf_mixedEnd (n := n) (s := s)
  have hbus := busOf_mixedEnd (n := n) (s := s)
  have htrigger := triggerOf_mixedEnd (n := n) (s := s)
  refine ⟨mixedEnd n (mixedState n s), fun k => (given s n k).1, fun b j => busSample (busTerms s n b) j,
    fun b j => busMastered (busOf s b) (busTerms s n b) j, fun b j => saturate (busMastered (busOf s b) (busTerms s n b) j),
    fun k => (given s n k).2 = true, mixedPeak n s, hexec, ?_⟩
  obtain ⟨t, ht⟩ : ∃ t, t = mixedEnd n (mixedState n s) := ⟨_, rfl⟩
  rw [← ht] at hsmx hsdp' hports' hcde' hral' hlsu' hsri' htbu' hflags hinput hcross hbus htrigger ⊢
  refine ⟨fun k => contribution_lost.trans (and_congr_right fun _ => isMapped_iff),
    fun k b old new hstore hb hold => congrArg Prod.fst (contribution_stored hstore hb hold), fun k hlost => ?_,
    fun k hfound hnot => ?_, fun b j => ?_, fun b j => rfl, fun b j => saturate_eq _, by rw [hsmx], by rw [hsmx]; exact halign,
    by rw [hsmx]; rfl, by rw [hsmx]; rfl, fun k => ?_, hcross, fun b => ?_,
    fun ⟨k, hlost⟩ => hflags _ (mixedState_soundLoss hlost), hsdp'.trans hsdp, hports'.trans hports, hcde'.trans hcde,
    hral'.trans hral, hlsu'.trans hlsu, hsri'.trans hsri, htbu'.trans htbu, fun i => ?_, htrigger, fun hnone => ?_,
    fun i hone hm => ⟨fun hin kept hsorted hkept => ⟨?_, ?_, ?_⟩, fun c hout hp => ?_⟩⟩
  · obtain ⟨habsent, hmapped⟩ := contribution_lost.mp hlost
    simp only [given, contribution_absent habsent, hmapped, if_true]
    rfl
  · have hunmapped : isMapped s k = false := Bool.eq_false_iff.mpr fun hmapped => hfound (contribution_lost.mpr ⟨hnot, hmapped⟩)
    simp only [given, contribution_absent hnot, hunmapped, Bool.false_eq_true, if_false]
  · simp only [busSample, busTerms, List.map_map]
    rfl
  · exact ⟨_, fun h => if_pos h, fun h => if_neg h, hinput k⟩
  · obtain ⟨peak, clips, hall, hone, hclipped, hclean, hafter⟩ := busAfter_spec (busOf s b) (busTerms s n b)
    refine ⟨peak, clips, hall, hone, fun hsat => ?_, fun hsame => hclean ?_, (hbus b).trans hafter⟩
    · have hout := busOutput_clipped.mpr hsat
      exact ⟨hclipped hout, hflags _ (mixedState_busClipped hout)⟩
    · refine Bool.eq_false_iff.mpr fun hsat => ?_
      obtain ⟨j, hj⟩ := busOutput_clipped.mp hsat
      exact hj (hsame j)
  · rw [hbus, mixedPeak]
  · obtain ⟨hclm, hanswers⟩ := mixedEnd_unmarked (n := n) fun i => unmarked_mixedState.mpr (hnone i)
    rw [ht]
    exact ⟨hclm.trans (clm_mixedState n s), hanswers.trans (answers_mixedState n s)⟩
  · rintro rfl
    rw [ht]
    exact mixedEnd_noCamera hone hin fun p hp => List.not_mem_nil ((hkept p).mpr hp)
  · rw [ht]
    exact mixedEnd_full hone hin hsorted hkept
  · rw [ht]
    exact fun hsome hlen hlinks hhome => mixedEnd_makes hone hin hsorted hkept hsome hm hlen hlinks hhome
  · rw [ht]
    exact mixedEnd_releases hone hout hm hp

end Sys2Proof.Machine
end

section
/-! PROOF. SOUND-STREAM-SET (R108 to R110, R113). -/

namespace Sys2Proof.Machine

/-! ### What a SOUND-STREAM-SET stores (R108 to R110) -/

theorem Width.ofBits_bits (w : Width) : Width.ofBits w.bits = some w := by cases w <;> rfl

theorem Width.ofBits_none {n : Nat} (h16 : n ≠ 16) (h24 : n ≠ 24) : Width.ofBits n = none := by
  unfold Width.ofBits
  split
  case h_3 => rfl
  all_goals contradiction

section
variable {f : StreamFields} {t : SoundStream} {enable : Bool} {left right : Fin 8} {width : Width} {linked : Option Prog}

/-- An enable, bus, width or programme outside its range names no choice (R108). -/
theorem streamChoices_none (h : (∃ v, f.enable = some v ∧ v ≠ 1 ∧ v ≠ 2) ∨ (∃ v, f.left = some v ∧ 7 < v) ∨
    (∃ v, f.right = some v ∧ 7 < v) ∨ (∃ v, f.width = some v ∧ v ≠ 16 ∧ v ≠ 24) ∨
    ∃ v, f.linked = some (some v) ∧ 3 < v) : streamChoices f t = none := by
  obtain ⟨v, hv, h1, h2⟩ | ⟨v, hv, hout⟩ | ⟨v, hv, hout⟩ | ⟨v, hv, h16, h24⟩ | ⟨v, hv, hout⟩ := h
  · have henable : onOffOfCode v = none := onOffOfCode_none (by omega)
    simp only [streamChoices, hv, Option.getD_some, henable, Option.bind_none]
  · simp only [streamChoices, hv, Option.getD_some, fin_bad hout, Option.bind_none, Option.bind_fun_none]
  · simp only [streamChoices, hv, Option.getD_some, fin_bad hout, Option.bind_none, Option.bind_fun_none]
  · simp only [streamChoices, hv, Option.getD_some, Width.ofBits_none h16 h24, Option.bind_none, Option.bind_fun_none]
  · simp only [streamChoices, hv, fin_bad hout, Option.map_none, Option.bind_fun_none]

theorem streamChoices_some (he : f.enable = none ∧ enable = t.enable ∨ f.enable = some (onOff enable))
    (hl : f.left = none ∧ left = t.left ∨ f.left = some left.val)
    (hr : f.right = none ∧ right = t.right ∨ f.right = some right.val)
    (hw : f.width = none ∧ width = t.width ∨ f.width = some width.bits)
    (hp : f.linked = none ∧ linked = t.linked ∨ f.linked = some (linked.map (·.val))) :
    streamChoices f t = some (enable, left, right, width, linked) := by
  have henable : onOffOfCode (f.enable.getD (onOff t.enable)) = some enable := by
    obtain ⟨hf, rfl⟩ | hf := he <;> rw [hf] <;> exact onOffOfCode_onOff _
  have hwidth : Width.ofBits (f.width.getD t.width.bits) = some width := by
    obtain ⟨hf, rfl⟩ | hf := hw <;> rw [hf] <;> exact Width.ofBits_bits _
  simp only [streamChoices, henable, finOf_getD hl, finOf_getD hr, hwidth, Option.bind_some]
  obtain ⟨hf, rfl⟩ | hf := hp
  · simp only [hf, Option.map_some]
  · cases linked <;> simp only [hf, Option.map_none, Option.map_some, finOf_val]

/-- A stream with the fields of a SOUND-STREAM-SET stored, and its target delay as it was (R108). -/
def SoundStream.withFields (t : SoundStream) (f : StreamFields) (left right : Fin 8) (width : Width) (linked : Option Prog) :
    SoundStream :=
  { t with
    left := left
    right := right
    width := width
    linked := linked
    fixedDelay := loaded 0 96000 t.fixedDelay f.fixedDelay
    trim := (f.trim.map (clampInt (-4800) 4800)).getD t.trim
    allowance := loaded 100 2000 t.allowance f.allowance }

/-- A link, a fixed delay or a trim in the command has the target delay computed again (R110). -/
def setsDelay (f : StreamFields) : Bool := f.linked.isSome || f.fixedDelay.isSome || f.trim.isSome

/-- The stored stream with the target delay of R110. -/
def delayed (f : StreamFields) (s : State) (t : SoundStream) : SoundStream :=
  { t with target := if setsDelay f then targetDelay s t else t.target }

theorem ite_setsDelay (a b : Nat) :
    (if setsDelay f then a else b) = if f.linked = none ∧ f.fixedDelay = none ∧ f.trim = none then b else a := by
  have hnone : ¬ setsDelay f = true ↔ f.linked = none ∧ f.fixedDelay = none ∧ f.trim = none := by
    simp only [setsDelay, Bool.or_eq_true, Option.isSome_iff_ne_none, not_or, not_not, and_assoc]
  rw [← ite_not, if_congr hnone rfl rfl]

/-- An unlinked stream's target delay (R110). -/
theorem targetDelay_unlinked {s : State} (h : t.linked = none) :
    targetDelay s t = (min 96000 (max 0 ((t.fixedDelay : Int) + t.trim))).toNat := by
  simp only [targetDelay, linkedProg, h, Option.map_none, clampInt, Config.maxDelay]
  rfl

/-- A value clamped in a SOUND-STREAM-SET (R108). -/
def streamClamped (f : StreamFields) : Bool :=
  outside 0 96000 f.fixedDelay || outside 100 2000 f.allowance || decide (∃ v ∈ f.trim, v < -4800 ∨ 4800 < v)

/-- A present number differs from its clamped value where it lies outside its range. -/
theorem map_clampNat_bne (lo hi : Nat) (v : Option Nat) (h : lo ≤ hi) : (v.map (clampNat lo hi) != v) = outside lo hi v := by
  rw [← clampedBy_outside lo hi v h]
  cases v with
  | none => rfl
  | some v => simp only [clampedBy, Option.map_some, Option.getD_some, bne, Option.some_beq_some, Bool.beq_comm]

theorem map_clampInt_bne (lo hi : Int) (v : Option Int) (h : lo ≤ hi) :
    (v.map (clampInt lo hi) != v) = decide (∃ n ∈ v, n < lo ∨ hi < n) := by
  cases v with
  | none => simp
  | some n =>
    rw [Bool.eq_iff_iff]
    simp only [clampInt, Option.map_some, bne_iff_ne, ne_eq, Option.some.injEq, Option.mem_def, exists_eq_left',
      decide_eq_true_eq]
    omega

end

/-! ### A stream turned on or off (R113) -/

/-- Stream `k`, enabled before as `was` says, is turned on, turned off, or stays (R113). -/
def switched (k : Fin 4) (was enable : Bool) (s : State) : State :=
  if enable && !was then enableStream k s else if !enable && was then disableStream k s else s

section
variable {h : Hdr} {i : RingStream} {f : StreamFields} {s : State} {k : Fin 4} {was enable : Bool} {left right : Fin 8}
  {width : Width} {linked : Option Prog}

theorem switched_same : switched k was was s = s := by cases was <;> rfl

theorem switched_leaves : (switched k was enable s).hsc = s.hsc ∧ (switched k was enable s).cmu = s.cmu ∧
    (switched k was enable s).sri = s.sri := by
  cases was <;> cases enable <;> exact ⟨rfl, rfl, rfl⟩

theorem switched_atHead (c : Command) : switched k was enable (atHead h c s) = atHead h c (switched k was enable s) := by
  cases was <;> cases enable <;> rfl

/-- The blocks that a stream's assembly holds (R113, R118). -/
def SoundStream.heldBlocks (t : SoundStream) : List Nat := ((t.assembly.bind (·.packet)).map (·.blocks)).getD []

theorem heldBlocks_eq {t : SoundStream} {blocks : List Nat}
    (hsome : ∀ a p, t.assembly = some a → a.packet = some p → blocks = p.blocks)
    (hnone : (∀ a p, t.assembly = some a → a.packet ≠ some p) → blocks = []) : t.heldBlocks = blocks := by
  cases ha : t.assembly with
  | none =>
    rw [hnone fun a p h => by rw [ha] at h; cases h]
    simp only [SoundStream.heldBlocks, ha, Option.bind_none, Option.map_none, Option.getD_none]
  | some a =>
    cases hp : a.packet with
    | none =>
      rw [hnone fun b p h => by rw [ha] at h; cases h; rw [hp]; exact fun h => nomatch h]
      simp only [SoundStream.heldBlocks, ha, Option.bind_some, hp, Option.map_none, Option.getD_none]
    | some p =>
      rw [hsome a p ha hp]
      simp only [SoundStream.heldBlocks, ha, Option.bind_some, hp, Option.map_some, Option.getD_some]

theorem switched_on (new : SoundStream) : switched k false true { s with sdp := s.sdp.set k new } = { s with
    sdp := s.sdp.set k { new with enable := true, current := new.target, lineL := [], lineR := [], assembly := none } } := by
  show enableStream k _ = _
  simp only [enableStream, State.onStream, Table.modify, Table.get_set_self, Table.set_set]

theorem switched_off (new : SoundStream) : switched k true false { s with sdp := s.sdp.set k new } = { s with
    sdp := s.sdp.set k { new with enable := false, lineL := [], lineR := [], assembly := none }
    pkp := { s.pkp with
      free := s.pkp.free ++ new.heldBlocks
      owners := s.pkp.owners.modify Owner.sound.idx fun r => { r with count := r.count - new.heldBlocks.length } } } := by
  show disableStream k _ = _
  simp only [disableStream, State.onStream, Table.modify, Table.get_set_self, Table.set_set, releaseBlocks, State.onPool,
    Pool.release, SoundStream.heldBlocks]

/-! ### SOUND-STREAM-SET (R108, R113) -/

/-- A SOUND-STREAM-SET that is neither a query nor refused: the fields stored, the target, and the switch. -/
theorem soundStreamSet_stores (hk : f.stream = some k.val) (hf : f ≠ { stream := some k.val })
    (hc : streamChoices f (s.sdp.get k) = some (enable, left, right, width, linked)) :
    soundStreamSet f s = (switched k (s.sdp.get k).enable enable { s with
      sdp := s.sdp.set k (delayed f s ((s.sdp.get k).withFields f left right width linked)) },
      { status := doneIf (streamClamped f) }) := by
  obtain ⟨t, ht⟩ : ∃ t, t = (s.sdp.get k).withFields f left right width linked := ⟨_, rfl⟩
  have hstored : (if setsDelay f then retarget k { s with sdp := s.sdp.set k t } else { s with sdp := s.sdp.set k t }) =
      { s with sdp := s.sdp.set k (delayed f s t) } := by
    cases hr : setsDelay f
    · simp only [delayed, hr, Bool.false_eq_true, if_false]
    · simp only [delayed, hr, if_true, retarget, State.onStream, Table.modify, Table.get_set_self, Table.set_set]
      rfl
  have hclamped : (f.fixedDelay.map (clampNat 0 96000) != f.fixedDelay || f.trim.map (clampInt (-4800) 4800) != f.trim ||
      f.allowance.map (clampNat 100 2000) != f.allowance) = streamClamped f := by
    rw [map_clampNat_bne _ _ _ (by decide), map_clampNat_bne _ _ _ (by decide), map_clampInt_bne _ _ _ (by decide),
      streamClamped, Bool.or_right_comm]
  rw [← ht, ← hstored, ← hclamped, ht]
  simp only [soundStreamSet, hk, objectOf_val, if_neg hf, hc, getD_clamp 0 96000 _ _ (by decide),
    getD_clamp 100 2000 _ _ (by decide)]
  rfl

theorem exec_soundStreamSet_noStream (hr : VanReady h i s) (hf : f.stream = none ∨ ∃ n, f.stream = some n ∧ 3 < n) :
    exec (.soundStreamSet h f) s = .next { s with sri := ringReply s.sri h i 13 5 [] } :=
  exec_refused (c := .soundStreamSet f) (r := .refusedRange) rfl hr
    (by simp only [perform, soundStreamSet, objectOf_none hf]) rfl (by simp)

theorem exec_soundStreamSet_query (hr : VanReady h i s) (hf : f = { stream := some k.val }) :
    exec (.soundStreamSet h f) s = .next { s with sri := ringReply s.sri h i 13 1 (streamResults s (s.sdp.get k)) } := by
  subst hf
  have hperform : perform (headOf h (.soundStreamSet { stream := some k.val })) (.soundStreamSet { stream := some k.val })
      (atHead h (.soundStreamSet { stream := some k.val }) s) =
      (atHead h (.soundStreamSet { stream := some k.val }) s,
        { status := .done, results := streamResults s (s.sdp.get k) }) := by
    simp only [perform, soundStreamSet, objectOf_val, if_true]
    rfl
  rw [exec_van rfl hr hperform rfl (by simp) hr.1.1 hr.1.2.1 hr.1.2.2]
  rfl

theorem exec_soundStreamSet_noChoice (hr : VanReady h i s) (hk : f.stream = some k.val) (hf : f ≠ { stream := some k.val })
    (hc : streamChoices f (s.sdp.get k) = none) :
    exec (.soundStreamSet h f) s = .next { s with sri := ringReply s.sri h i 13 5 [] } :=
  exec_refused (c := .soundStreamSet f) (r := .refusedRange) rfl hr
    (by simp only [perform, soundStreamSet, hk, objectOf_val, if_neg hf, atHead_sdp, hc]) rfl (by simp)

theorem exec_soundStreamSet_stores (hr : VanReady h i s) (hk : f.stream = some k.val) (hf : f ≠ { stream := some k.val })
    (hc : streamChoices f (s.sdp.get k) = some (enable, left, right, width, linked)) :
    exec (.soundStreamSet h f) s = .next { switched k (s.sdp.get k).enable enable { s with
      sdp := s.sdp.set k (delayed f s ((s.sdp.get k).withFields f left right width linked)) } with
      sri := ringReply s.sri h i 13 (doneCode (streamClamped f)) [] } := by
  obtain ⟨u, hu⟩ : ∃ u, u = switched k (s.sdp.get k).enable enable { s with
      sdp := s.sdp.set k (delayed f s ((s.sdp.get k).withFields f left right width linked)) } := ⟨_, rfl⟩
  obtain ⟨hhsc, hcmu, hsri⟩ : u.hsc = s.hsc ∧ u.cmu = s.cmu ∧ u.sri = s.sri := by rw [hu]; exact switched_leaves
  have hperform : perform (headOf h (.soundStreamSet f)) (.soundStreamSet f) (atHead h (.soundStreamSet f) s) =
      (atHead h (.soundStreamSet f) u, { status := doneIf (streamClamped f) }) := by
    rw [hu, ← switched_atHead]
    exact soundStreamSet_stores hk hf hc
  obtain ⟨howed, hvan, hhome⟩ := quiet_of hr.1 hhsc (by rw [hcmu]) (by rw [hcmu])
  rw [exec_van rfl hr hperform rfl (by simp) howed hvan hhome, doneIf_code, hsri, hu]
  rfl

end

/-- Settles O45: SOUND-STREAM-SET by its stream, whether it is a query, its choices, and the switch that its enable makes. -/
theorem soundStreamSet_storesAndSwitches : Obligations.SoundStreamSet_StoresAndSwitches := by
  intro h i f s hr
  refine ⟨exec_soundStreamSet_noStream hr, ?_⟩
  rintro k old hk rfl
  refine ⟨exec_soundStreamSet_query hr, fun hf => ⟨fun hbad =>
    exec_soundStreamSet_noChoice hr hk hf (streamChoices_none hbad), ?_⟩⟩
  intro enable left right width linked he hl hri hw hp
  have hwidth : f.width = none ∧ width = (s.sdp.get k).width ∨ f.width = some width.bits := by
    cases width <;> exact hw
  have hexec := exec_soundStreamSet_stores hr hk hf (streamChoices_some he hl hri hwidth hp)
  obtain ⟨stored, hstored⟩ : ∃ t, t = (s.sdp.get k).withFields f left right width linked := ⟨_, rfl⟩
  obtain ⟨new, hnew⟩ : ∃ t, t = delayed f s stored := ⟨_, rfl⟩
  rw [← hstored, ← hnew] at hexec
  have htarget : new.target = if f.linked = none ∧ f.fixedDelay = none ∧ f.trim = none then (s.sdp.get k).target
      else targetDelay s stored := by
    rw [hnew, hstored, ← ite_setsDelay]
    rfl
  refine ⟨stored.fixedDelay, new.target, stored.trim, new, _, by rw [hstored]; rfl, fun hnone => ?_, fun v hv => ?_,
    htarget.trans ?_, by rw [hnew, hstored]; rfl, rfl, fun hsame => ?_, fun hon hwas => ?_,
    fun hoff hwas blocks hsome hnone => ?_⟩
  · rw [hstored, SoundStream.withFields, hnone]
    rfl
  · rw [hstored, SoundStream.withFields, hv]
    show min 4800 (max (-4800) v) = _
    omega
  · refine if_congr Iff.rfl rfl ?_
    have hlinked : stored.linked = linked := by rw [hstored]; rfl
    cases linked with
    | none => exact targetDelay_unlinked hlinked
    | some q => exact targetDelay_linked hlinked
  · rw [hexec, hsame, switched_same]
    rfl
  · rw [hexec, hon, hwas, switched_on]
    rfl
  · have hblocks : new.heldBlocks = blocks := by
      rw [← heldBlocks_eq hsome hnone, hnew, hstored]
      rfl
    rw [hexec, hoff, hwas, switched_off, hblocks]
    rfl

end Sys2Proof.Machine
end

section
/-! PROOF. The block event's blocks in a home sound stream: the delay line, its slew, and the SOUND packets (R111, R112, R115
to R118). -/

namespace Sys2Proof.Machine

/-! ### Steps of which one alone acts -/

section
variable {α β : Type} {f : β → α → β} {l : List α} {a : α} {b c : β}

theorem foldl_still (h : ∀ x ∈ l, f b x = b) : l.foldl f b = b := by
  induction l with
  | nil => rfl
  | cons x l ih =>
    rw [List.foldl_cons, h x (List.mem_cons_self ..)]
    exact ih fun y hy => h y (List.mem_cons_of_mem _ hy)

/-- One element alone changes the state, before its turn and after it. -/
theorem foldl_one (hl : l.Nodup) (ha : a ∈ l) (hb : ∀ x ∈ l, x ≠ a → f b x = b) (hstep : f b a = c)
    (hc : ∀ x ∈ l, x ≠ a → f c x = c) : l.foldl f b = c := by
  induction l with
  | nil => exact absurd ha List.not_mem_nil
  | cons x l ih =>
    obtain ⟨hx, hl⟩ := List.nodup_cons.mp hl
    rw [List.foldl_cons]
    by_cases hxa : x = a
    · subst hxa
      rw [hstep]
      exact foldl_still fun y hy => hc y (List.mem_cons_of_mem _ hy) fun h => hx (h ▸ hy)
    · rw [hb x (List.mem_cons_self ..) hxa]
      exact ih hl ((List.mem_cons.mp ha).resolve_left (Ne.symm hxa)) (fun y hy => hb y (List.mem_cons_of_mem _ hy))
        fun y hy => hc y (List.mem_cons_of_mem _ hy)

end

/-! ### The delay line (R111, R112) -/

theorem trimLine_getD (l : List Sample) (n : Nat) : (trimLine l).getD n 0 = l.getD n 0 := by
  induction l generalizing n with
  | nil => rfl
  | cons x xs ih =>
    rw [trimLine]
    split
    next hnil =>
      have hzero : ∀ n, xs.getD n 0 = 0 := fun n => by rw [← ih n, hnil]; rfl
      cases n with
      | zero => split_ifs with hx <;> simp [hx]
      | succ n =>
        rw [List.getD_cons_succ, hzero]
        split_ifs <;> rfl
    next y ys hcons =>
      cases n with
      | zero => rfl
      | succ n => rw [List.getD_cons_succ, List.getD_cons_succ, ← ih n, hcons]

/-- A silent block enters a line as 16 zero samples ahead of what it held (R111). -/
theorem writeLine_silent_getD (line : List Sample) (n : Nat) :
    (writeLine line silentBlock).getD n 0 = if n < 16 ∨ 96016 ≤ n then 0 else line.getD (n - 16) 0 := by
  have hsilent : silentBlock.vals.reverse = List.replicate 16 0 := List.reverse_replicate ..
  rw [writeLine, trimLine_getD, hsilent, Config.maxDelay, List.getD_eq_getElem?_getD, List.getElem?_take]
  by_cases hdeep : n < 96016
  · rw [if_pos hdeep, List.getElem?_append, List.length_replicate]
    by_cases hnew : n < 16
    · rw [if_pos hnew, if_pos (.inl hnew), List.getElem?_replicate_of_lt hnew]
      rfl
    · rw [if_neg hnew, if_neg (by omega), List.getD_eq_getElem?_getD]
  · rw [if_neg hdeep, if_pos (.inr (Nat.le_of_not_lt hdeep))]
    rfl

/-! ### A block that arrives at a stream (R111, R112, R115 to R118) -/

/-- A stream once the bus blocks `l` and `r` stand in its lines and its delay has made a slew step (R111, R112). -/
def SoundStream.written (t : SoundStream) (l r : SoundBlock) : SoundStream :=
  { t with lineL := writeLine t.lineL l, lineR := writeLine t.lineR r, current := slewed t }

/-- The output blocks that the lines give, packed at width `w` (R111, R112, R115). -/
def SoundStream.packedOut (t : SoundStream) (w : Width) (l r : SoundBlock) : List Byte :=
  packBlock w (outBlock (writeLine t.lineL l) t.current (slewed t)) (outBlock (writeLine t.lineR r) t.current (slewed t))

section
variable {s u : State} {i : Fin 4} {m : BlockNo} {l r : SoundBlock} {t : SoundStream}

/-- A stream without an assembly opens a packet where the pool grants its two blocks (R116). -/
theorem streamArrival_opens (ht : t = s.sdp.get i) (ha : t.assembly = none) (hfree : 2 ≤ s.pkp.free.length)
    (hcap : (s.pkp.owners.get Owner.sound.idx).count + 2 ≤ (s.pkp.owners.get Owner.sound.idx).cap) :
    streamArrival i m l r s = { s with
      sdp := s.sdp.set i { t.written l r with
        assembly := some ⟨1, t.width, some (openPacket s i m t (s.pkp.free.take 2) (t.packedOut t.width l r))⟩ }
      pkp := { s.pkp with
        free := s.pkp.free.drop 2
        owners := s.pkp.owners.modify Owner.sound.idx fun r => { r with count := r.count + 2 } } } := by
  subst ht
  have hgrant := request_granted (o := .sound) (n := 2) (s := s.onStream i fun t => { t with
    lineL := writeLine (s.sdp.get i).lineL l, lineR := writeLine (s.sdp.get i).lineR r, current := slewed (s.sdp.get i) })
    hfree hcap
  simp only [streamArrival, ha, hgrant]
  simp only [State.onStream, Table.modify, Table.get_set_self, Table.set_set]
  rfl

/-- The fourth block fills the stream's packet, which joins the SOUND queue (R117). -/
theorem streamArrival_fills {w : Width} {pk : Packet} (ht : t = s.sdp.get i) (ha : t.assembly = some ⟨3, w, some pk⟩) :
    streamArrival i m l r s = oweAll { s with
      sdp := s.sdp.set i { t.written l r with assembly := none, packets := satInc t.packets }
      pkp := { s.pkp with
        sound := s.pkp.sound ++ [{ pk with payload := pk.payload ++ t.packedOut w l r }] } } := by
  subst ht
  simp only [streamArrival, ha, Option.map_some]
  simp only [State.onStream, Table.modify, Table.get_set_self, Table.set_set]
  rfl

/-- Of the four streams, stream `i` alone is enabled. -/
def OnlyEnabled (i : Fin 4) (s : State) : Prop :=
  (s.sdp.get i).enable = true ∧ ∀ k, k ≠ i → (s.sdp.get k).enable = false

theorem onlyEnabled_set (h : OnlyEnabled i s) (ht : t.enable = true) (hu : u.sdp = s.sdp.set i t) : OnlyEnabled i u := by
  refine ⟨?_, fun k hk => ?_⟩
  · rw [hu, Table.get_set_self]
    exact ht
  · rw [hu, Table.get_set_ne _ _ (Ne.symm hk)]
    exact h.2 k hk

/-- The blocks of a block event, where one stream is enabled and stays so. -/
theorem streamsArrival_only {blocks : Table 8 SoundBlock} (h : OnlyEnabled i s)
    (harrival : streamArrival i m (blocks.get (s.sdp.get i).left) (blocks.get (s.sdp.get i).right) s = u)
    (hu : OnlyEnabled i u) : streamsArrival m blocks s = u := by
  obtain ⟨hon, hoff⟩ := h
  obtain ⟨-, hoff'⟩ := hu
  refine foldl_one (a := i) (by decide) (mem_four i) (fun k _ hk => ?_) ?_ fun k _ hk => ?_
  · simp only [hoff k hk, Bool.false_eq_true, if_false]
  · simp only [hon, if_true, harrival]
  · simp only [hoff' k hk, Bool.false_eq_true, if_false]

end

/-! ### The block event (R9, R163) -/

section
variable {s u : State} {i : Fin 4} {m : BlockNo} {t : SoundStream}

/-- Where no link is UP or DEGRADED, no link gains credit and the take attempts of the block event find nothing (R163, R165). -/
theorem finish_creditBlock_carriesNone (hv : s.cmu.van = []) (hh : s.cmu.home = []) (hl : NoLinkCarries s) :
    finish (creditBlock s) = s.noOwed := by
  have hlinks : (Table.ofFn fun l => gainCredit (s.lsu.get l) (s.hsc.links.get l)) = s.hsc.links := by
    apply Table.ext_get
    intro l
    have hcarries : (s.lsu.get l).state.carries = false := hl l
    rw [Table.get_ofFn, gainCredit, hcarries, if_neg Bool.false_ne_true]
  have hcredit : creditBlock s = oweAll s := by
    rw [creditBlock, State.onHsc, hlinks]
  rw [hcredit, finish_empty (by exact hv) (by exact hh), settleTakes_cannot (noLinkTakes_of (by exact hl)), noOwed_oweAll]

/-- The state in which the work of a due block event is done (R9). -/
def blockTaken (s : State) : State := { s with tbu := { s.tbu with blockDue := false } }

theorem blockIfDue_due (h : s.tbu.blockDue = true) : blockIfDue s = blockWork (endedBlock s) (blockTaken s) := by
  rw [blockIfDue, if_pos h]
  rfl

theorem silentBlocks_get (b : Fin 8) : silentBlocks.get b = silentBlock := Table.get_replicate ..

/-- A block event that is due and finds the mixer below its lag: the silent blocks reach the one enabled stream, whatever this
makes of it, and no link takes (R9, R88, R111). -/
theorem exec_blockEvent_stream (hq : Quiet s) (hl : NoLinkCarries s) (hdue : s.tbu.blockDue = true)
    (halign : s.smx.aligned = true) (hgap : (endedBlock s - s.smx.next).toNat < s.smx.lag) (hone : OnlyEnabled i s)
    (harrival : streamArrival i (endedBlock s) silentBlock silentBlock (blockTaken s) = u)
    (hu : u.sdp = s.sdp.set i t) (ht : t.enable = true) (hcmu : u.cmu = s.cmu) (hlsu : u.lsu = s.lsu) :
    exec .blockEvent s = .next u.noOwed := by
  obtain ⟨-, hvan, hhome⟩ := hq
  have hmix : mixEvent (endedBlock s) (blockTaken s) = (silentBlocks, blockTaken s) := by
    simp only [mixEvent, blockTaken, halign, hgap, true_or, if_true]
  have harrived : streamsArrival (endedBlock s) silentBlocks (blockTaken s) = u := by
    refine streamsArrival_only hone ?_ (onlyEnabled_set hone ht hu)
    rw [silentBlocks_get, silentBlocks_get, harrival]
  have hcarries : NoLinkCarries u := fun l => by
    rw [link, hlsu]
    exact hl l
  show Host.Outcome.next (finish (blockIfDue s)) = _
  rw [blockIfDue_due hdue, blockWork, hmix, harrived,
    finish_creditBlock_carriesNone (by rw [hcmu]; exact hvan) (by rw [hcmu]; exact hhome) hcarries]

/-- A stream's buffer delay for its deadlines: the linked programme's, or the stream's own allowance (R116). -/
theorem deadlineMs_linked {q : Prog} (h : t.linked = some q) : deadlineMs s t = (prog s (fold s q)).cfg.delay := by
  simp only [deadlineMs, linkedProg, h, Option.map_some]

theorem deadlineMs_unlinked (h : t.linked = none) : deadlineMs s t = t.allowance := by
  simp only [deadlineMs, linkedProg, h, Option.map_none]

/-- The packet opened at a block event, by the numbers of its stamp and its deadline (R116). -/
theorem openPacket_eq {stamp : Nat} (h : stamp = (s.tbu.tick - 16 - BitVec.ofNat 32 t.current).toNat) (blocks : List Nat)
    (payload : List Byte) : openPacket s i m t blocks payload = {
      kind := .sound, owner := some .sound, subject := some i.val, number := BitVec.ofNat 32 m.toNat
      stamp := BitVec.ofNat 32 stamp, deadline := some (BitVec.ofNat 32 (stamp + deadlineMs s t * 48))
      size := if t.width = .bits16 then 272 else 400, blocks := blocks, payload := payload } := by
  have hstamp : BitVec.ofNat 32 stamp = s.tbu.tick - 16 - BitVec.ofNat 32 t.current := by
    rw [h, BitVec.ofNat_toNat, BitVec.setWidth_eq]
  have hsize : soundSize t.width = if t.width = .bits16 then 272 else 400 := by cases t.width <;> rfl
  rw [BitVec.ofNat_add, hstamp, ← hsize]
  rfl

end

/-- Settles O34: the lines by `writeLine_silent_getD`, the stream by `streamArrival_opens` and `streamArrival_fills`. -/
theorem blockEvent_packsSound : Obligations.BlockEvent_PacksSound := by
  rintro m i t s hq hl hdue rfl halign hgap ht hon hoff
  have hexec := fun u t' => exec_blockEvent_stream (u := u) (t := t') hq hl hdue halign hgap ⟨ht ▸ hon, hoff⟩
  refine ⟨slewed t, _, writeLine t.lineL silentBlock, writeLine t.lineR silentBlock,
    outBlock (writeLine t.lineL silentBlock) t.current (slewed t),
    outBlock (writeLine t.lineR silentBlock) t.current (slewed t),
    deadlineMs s t, rfl, writeLine_silent_getD _, writeLine_silent_getD _, fun j => Table.get_ofFn ..,
    fun j => Table.get_ofFn ..,
    ?_, rfl, fun ha hfree hcap => ?_, fun w pk ha => ?_⟩
  · cases hlinked : t.linked with
    | none => exact deadlineMs_unlinked hlinked
    | some q => exact deadlineMs_linked hlinked
  · have harrival := streamArrival_opens (s := blockTaken s) (m := endedBlock s) (l := silentBlock) (r := silentBlock) ht ha hfree
      hcap
    rw [hexec _ _ harrival rfl hon rfl rfl, noOwed_of (by exact hq.1), openPacket_eq rfl]
    rfl
  · have harrival := streamArrival_fills (s := blockTaken s) (m := endedBlock s) (l := silentBlock) (r := silentBlock) ht ha
    rw [hexec _ _ harrival rfl hon rfl rfl, noOwed_oweAll, noOwed_of (by exact hq.1)]
    rfl

end Sys2Proof.Machine
end

section
/-! PROOF. The clip table under every operation (R122, R123, R124): the operations that leave the Clip Marker alone, first. -/

namespace Sys2Proof.Machine

/-! ### Operations that leave the Clip Marker alone -/

section
variable {s t : State}

theorem clm_of_calm (h : t.calm = s.calm) : t.clm = s.clm := by
  obtain ⟨-, -, -, -, -, -, -, hclm, -⟩ := calm_eq h
  exact hclm

theorem clm_ite {c : Prop} [Decidable c] {a b : State} (ha : a.clm = s.clm) (hb : b.clm = s.clm) :
    (if c then a else b).clm = s.clm := by split <;> assumption

theorem foldl_clm {α : Type} {f : State → α → State} (h : ∀ s a, (f s a).clm = s.clm) (l : List α) (s : State) :
    (l.foldl f s).clm = s.clm := by
  induction l generalizing s with
  | nil => rfl
  | cons a l ih => rw [List.foldl_cons, ih, h]

@[simp] theorem raiseFlag_clm (f : EventFlag) (s : State) : (raiseFlag f s).clm = s.clm := clm_of_calm (raiseFlag_calm ..)

@[simp] theorem queueNotice_clm (b : NoticeBody) (a : Option OpenCommand) (s : State) : (queueNotice b a s).clm = s.clm :=
  clm_of_calm (queueNotice_calm ..)

theorem request_clm {o : Owner} {n : Nat} {bs : Option (List Nat)} (h : request o n s = (bs, t)) : t.clm = s.clm := by
  rw [← clm_of_calm (request_calm o n s), h]

@[simp] theorem settleTakes_clm (s : State) : (settleTakes s).clm = s.clm := clm_of_calm (settleTakes_calm s)

@[simp] theorem reroute_clm (ps : List Packet) (s : State) : (reroute ps s).clm = s.clm := clm_of_calm (reroute_calm ..)

@[simp] theorem setReservation_clm (l : Link) (r : Option Reservation) (s : State) : (setReservation l r s).clm = s.clm :=
  clm_of_calm (setReservation_calm ..)

@[simp] theorem flushPictures_clm (p : Prog) (s : State) : (flushPictures p s).clm = s.clm := clm_of_calm (flushPictures_calm ..)

@[simp] theorem refreshCause_clm (p : Prog) (s : State) : (refreshCause p s).clm = s.clm := rfl
@[simp] theorem appendPackets_clm (c : QueueClass) (ps : List Packet) (s : State) : (appendPackets c ps s).clm = s.clm := rfl
@[simp] theorem oweTake_clm (l : Link) (s : State) : (oweTake l s).clm = s.clm := rfl
@[simp] theorem releaseBlocks_clm (o : Owner) (bs : List Nat) (s : State) : (releaseBlocks o bs s).clm = s.clm := rfl

theorem sendHomeNotices_clm (n : Nat) (s : State) : (sendHomeNotices n s).clm = s.clm := by
  obtain ⟨-, hcalm⟩ := sendHomeNotices_calm n s
  exact clm_of_calm hcalm

/-! The home sound streams (chapter 6). -/

@[simp] theorem retargetWhere_clm (which : SoundStream → Bool) (s : State) : (retargetWhere which s).clm = s.clm := by
  rw [retargetWhere_only]

theorem streamArrival_clm (i : Fin 4) (m : BlockNo) (l r : SoundBlock) (s : State) : (streamArrival i m l r s).clm = s.clm := by
  simp only [streamArrival]
  split
  · split
    all_goals
      rename_i h
      have hclm := request_clm h
      exact hclm
  · split
    · rfl
    · split <;> rfl

theorem streamsArrival_clm (m : BlockNo) (blocks : Table 8 SoundBlock) (s : State) : (streamsArrival m blocks s).clm = s.clm :=
  foldl_clm (fun s i => by dsimp only; split <;> simp only [streamArrival_clm]) _ _

theorem creditBlock_clm (s : State) : (creditBlock s).clm = s.clm := rfl

theorem blockWork_clm (m : BlockNo) (s : State) : (blockWork m s).clm = (mixEvent m s).2.clm := by
  rw [blockWork, creditBlock_clm, streamsArrival_clm]

theorem soundStreamSet_clm (f : StreamFields) (s : State) : (soundStreamSet f s).1.clm = s.clm := by
  simp only [soundStreamSet]
  repeat' split
  all_goals rfl

/-! The links (chapters 9, 10). -/

@[simp] theorem withdraw_clm (l : Link) (s : State) : (withdraw l s).clm = s.clm := by
  simp only [withdraw]
  split <;> simp

theorem applyFault_clm (l : Link) (c : FaultClass) (code : Byte) (s : State) : (applyFault l c code s).clm = s.clm := by
  simp only [applyFault, holdLink, degradeLink]
  repeat' split
  all_goals simp

@[simp] theorem giveProbe_clm (l : Link) (s : State) : (giveProbe l s).clm = s.clm := by
  simp only [giveProbe]
  split <;> rfl

theorem enterProving_clm (l : Link) (cmd : Option OpenCommand) (s : State) : (enterProving l cmd s).clm = s.clm := by
  simp only [enterProving, giveProbe_clm]
  rfl

theorem enterUp_clm (l : Link) (s : State) : (enterUp l s).clm = s.clm := by
  simp only [enterUp, oweTake_clm, queueNotice_clm, State.onLink_clm]
  repeat' split
  all_goals simp only [applyFault_clm, State.onLink_clm]

@[simp] theorem judgeProving_clm (l : Link) (s : State) : (judgeProving l s).clm = s.clm := by
  simp only [judgeProving]
  repeat' split
  all_goals simp only [enterUp_clm]

theorem probeRetired_clm (l : Link) (s : State) : (probeRetired l s).clm = s.clm := by
  simp only [probeRetired]
  split <;> simp

theorem failProving_clm (l : Link) (s : State) : (failProving l s).clm = s.clm := by
  simp only [failProving]
  split <;> simp [applyFault_clm]

theorem timeOutOldest_clm (l : Link) (s : State) : (timeOutOldest l s).clm = s.clm := by
  simp only [timeOutOldest]
  split <;> simp [applyFault_clm]

theorem endWindow_clm (l : Link) (s : State) : (endWindow l s).clm = s.clm := by
  simp only [endWindow]
  repeat' split
  all_goals simp [applyFault_clm]

theorem expireRecovery_clm (l : Link) (s : State) : (expireRecovery l s).clm = s.clm := by
  simp only [expireRecovery]
  split <;> rfl

theorem deadlineIfDue_clm (l : Link) (s : State) : (deadlineIfDue l s).clm = s.clm := clm_ite (failProving_clm ..) rfl

theorem retryIfDue_clm (l : Link) (s : State) : (retryIfDue l s).clm = s.clm := clm_ite (enterProving_clm ..) rfl

theorem probeIfDue_clm (l : Link) (s : State) : (probeIfDue l s).clm = s.clm := clm_ite (giveProbe_clm ..) rfl

theorem recoveryIfDue_clm (l : Link) (s : State) : (recoveryIfDue l s).clm = s.clm := clm_ite (expireRecovery_clm ..) rfl

theorem windowIfDue_clm (l : Link) (s : State) : (windowIfDue l s).clm = s.clm := clm_ite (endWindow_clm ..) rfl

theorem timeoutIfDue_clm (l : Link) (s : State) : (timeoutIfDue l s).clm = s.clm := clm_ite (timeOutOldest_clm ..) rfl

theorem timersIfDue_clm (l : Link) (s : State) : (timersIfDue l s).clm = s.clm := by
  simp only [timersIfDue, timeoutIfDue_clm, windowIfDue_clm, recoveryIfDue_clm, probeIfDue_clm, retryIfDue_clm,
    deadlineIfDue_clm]

theorem takeCapacity_clm (l : Link) (cap : Nat) (s : State) : (takeCapacity l cap s).clm = s.clm := by
  simp only [takeCapacity]
  split <;> simp [applyFault_clm]

theorem takeFaultReport_clm (l : Link) (code : Byte) (s : State) : (takeFaultReport l code s).clm = s.clm := by
  simp only [takeFaultReport, returnToUp]
  repeat' split
  all_goals simp [applyFault_clm]

theorem applySettings_clm (l : Link) (t : LinkSettings) (s : State) : (applySettings l t s).clm = s.clm := by
  simp [applySettings, apply_ite State.clm, timeOutOldest_clm]

theorem linkSet_clm (f : LinkFields) (s : State) : (linkSet f s).1.clm = s.clm := by
  simp only [linkSet]
  repeat' split
  all_goals simp [applySettings_clm, setCaps]

theorem linkUp_clm (h : Hdr) (n : Option Nat) (s : State) : (linkUp h n s).1.clm = s.clm := by
  simp only [linkUp]
  repeat' split
  all_goals simp [enterProving_clm]

theorem linkDown_clm (n : Option Nat) (s : State) : (linkDown n s).1.clm = s.clm := by
  simp only [linkDown, takeDown]
  repeat' split
  all_goals simp

theorem linkClear_clm (h : Hdr) (n : Option Nat) (s : State) : (linkClear h n s).1.clm = s.clm := by
  simp only [linkClear]
  repeat' split
  all_goals simp [enterProving_clm]

/-! The allocator and the coding engine (chapters 3, 4). -/

theorem allocateProg_clm (fig : AllocFigures) (ticks : Nat) (p : Prog) (s : State) :
    (allocateProg fig ticks p s).clm = s.clm := by
  simp only [allocateProg, decideMethod]
  repeat' split
  all_goals simp

theorem allocation_clm (ticks : Nat) (s : State) : (allocation ticks s).clm = s.clm := by
  refine (foldl_clm (fun s p => allocateProg_clm _ ticks p s) _ _).trans ?_
  split <;> simp [copyRecords]

theorem rateSet_clm (f : RateFields) (s : State) : (rateSet f s).1.clm = s.clm := by
  simp only [rateSet]
  repeat' split
  all_goals rfl

@[simp] theorem pictureReported_clm (p : Prog) (bits : Nat) (s : State) : (pictureReported p bits s).clm = s.clm := by
  simp only [pictureReported]
  split <;> simp

@[simp] theorem endStop_clm (p : Prog) (mode : StopMode) (pic : Pic) (s : State) : (endStop p mode pic s).clm = s.clm := by
  simp only [endStop]
  split <;> simp

@[simp] theorem completePicture_clm (p : Prog) (e : Entry) (s : State) : (completePicture p e s).clm = s.clm := by
  simp only [completePicture]
  split <;> simp

@[simp] theorem emitHeader_clm (p : Prog) (pic : Pic) (tick : Tick) (band : Nat) (header : List Byte) (s : State) :
    (emitHeader p pic tick band header s).clm = s.clm := clm_of_calm (emitHeader_calm ..)

@[simp] theorem emitSkip_clm (p : Prog) (c : CodeStart) (s : State) : (emitSkip p c s).clm = s.clm := by
  simp [emitSkip, countGroup]

@[simp] theorem startBand_clm (s : State) : (startBand s).clm = s.clm := by
  simp only [startBand]
  repeat' split
  all_goals rfl

theorem releaseFrags_clm (o : Owner) (frags : List (List Nat)) (s : State) :
    (frags.foldl (fun s bs => releaseBlocks o bs s) s).clm = s.clm := foldl_clm (fun s bs => releaseBlocks_clm o bs s) _ _

@[simp] theorem loseBand_clm (b : Band) (s : State) : (loseBand b s).clm = s.clm := by
  simp [loseBand, releaseFrags_clm]

@[simp] theorem closeFragment_clm (blocks : Nat) (s : State) : (closeFragment blocks s).clm = s.clm := by
  simp only [closeFragment]
  repeat' split
  · rfl
  · rfl
  · exact loseBand_clm ..
  · rename_i h
    have hclm := request_clm h
    exact hclm
  · rename_i h
    exact (loseBand_clm ..).trans (request_clm h)

theorem shedPicture_clm (p : Prog) (e : Entry) (s : State) : (shedPicture p e s).clm = s.clm := by
  simp only [shedPicture]
  split <;> simp [foldl_clm]

theorem discardBand_clm (b : Band) (s : State) : (discardBand b s).clm = s.clm := by
  simp [discardBand, releaseFrags_clm]

theorem completeBand_clm (b : Band) (e : Entry) (coded : List Byte) (s : State) : (completeBand b e coded s).clm = s.clm := by
  simp [completeBand, apply_ite State.clm, shedPicture_clm, foldl_clm]

theorem bandEnds_clm (coded : List Byte) (s : State) : (bandEnds coded s).clm = s.clm := by
  simp only [bandEnds]
  repeat' split
  all_goals simp only [discardBand_clm, completeBand_clm]

theorem overrun_clm (p : Prog) (s : State) : (overrun p s).clm = s.clm := by
  simp only [overrun]
  split <;> simp [markDiscard]

theorem dropPicture_clm (p : Prog) (s : State) : (dropPicture p s).clm = s.clm := by
  simp only [dropPicture]
  split <;> rfl

theorem freezeHold_clm (c : CodeStart) (p : Prog) (s : State) : (freezeHold c p s).clm = s.clm := by
  simp only [freezeHold]
  repeat' split
  all_goals simp

theorem takeFrom_clm (counts : Bool) (p : Prog) (s : State) : (takeFrom counts p s).clm = s.clm := by
  simp only [takeFrom]
  split <;> simp

theorem takePicture_clm (p : Prog) (wasRunning : Bool) (s : State) : (takePicture p wasRunning s).2.clm = s.clm := by
  simp only [takePicture]
  split
  · exact foldl_clm (fun s q => takeFrom_clm _ q s) _ _
  · rfl

theorem judgeInput_clm (p : Prog) (taken : Bool) (s : State) : (judgeInput p taken s).clm = s.clm := by
  simp only [judgeInput]
  repeat' split
  all_goals simp

/-! The ports and the programmes (chapter 2). -/

theorem pictureCompletes_clm (p : Prog) (s : State) : (pictureCompletes p s).clm = s.clm := by
  simp only [pictureCompletes, returnInput]
  repeat' split
  all_goals simp

theorem formatSet_clm (f : FormatFields) (s : State) : (formatSet f s).1.clm = s.clm := by
  simp only [formatSet]
  repeat' split
  all_goals rfl

theorem programmeSet_clm (f : ProgFields) (s : State) : (programmeSet f s).1.clm = s.clm := by
  simp only [programmeSet, storeConfig, formPair, dissolvePair]
  repeat' split
  all_goals simp

theorem programmeStart_clm (h : Hdr) (n : Option Nat) (s : State) : (programmeStart h n s).1.clm = s.clm := by
  simp only [programmeStart]
  repeat' split
  all_goals rfl

theorem refreshCommand_clm (n : Option Nat) (s : State) : (refreshCommand n s).1.clm = s.clm := by
  simp only [refreshCommand]
  split <;> rfl

theorem refreshReturn_clm (n : Byte) (s : State) : (refreshReturn n s).clm = s.clm := by
  simp only [refreshReturn, homeRefresh]
  repeat' split
  all_goals rfl

/-! The Sound Mixer's inputs, gains and buses (chapter 5). -/

theorem soundArrival_clm (k : Fin 32) (c : BlockNo) (x : SoundBlock) (s : State) : (soundArrival k c x s).clm = s.clm := by
  simp only [soundArrival]
  repeat' split
  all_goals simp [State.onInput]

theorem inputSet_clm (f : InputFields) (s : State) : (inputSet f s).1.clm = s.clm := by
  simp only [inputSet]
  repeat' split
  all_goals rfl

theorem setCross_clm (k : Fin 32) (b : Fin 8) (cross : Nat) (s : State) : (setCross k b cross s).clm = s.clm := rfl

theorem mixSet_clm (l : List MixEntry) (s : State) : (mixSet l s).1.clm = s.clm := by
  simp only [mixSet]
  split
  · rfl
  · exact foldl_clm (fun s (e : Fin 32 × Fin 8 × Nat) => setCross_clm e.1 e.2.1 e.2.2 s) _ _

theorem recompute_clm (k : Fin 32) (s : State) : (recompute k s).clm = s.clm := rfl

theorem storeGroups_clm (groups : Table 8 Bool) (s : State) : (storeGroups groups s).clm = s.clm :=
  (foldl_clm (fun s k => recompute_clm k s) _ _).trans rfl

theorem busSet_clm (f : BusFields) (s : State) : (busSet f s).1.clm = s.clm := by
  simp only [busSet, storeBus]
  repeat' split
  all_goals simp [storeGroups_clm, State.onBus]

/-! The timebase, the ring and the Command Unit (chapters 1, 11). -/

theorem timebaseSet_clm (f : TimebaseFields) (s : State) : (timebaseSet f s).1.clm = s.clm := by
  simp only [timebaseSet]
  split <;> simp

theorem inputMap_clm (f : MapFields) (s : State) : (inputMap f s).1.clm = s.clm := by
  simp only [inputMap]
  repeat' split
  all_goals rfl

theorem statusQuery_clm (f : QueryFields) (s : State) : (statusQuery f s).1.clm = s.clm := by
  simp only [statusQuery]
  split
  · simp only [queryBlock, queryMixer, answerObject, clearIf]
    repeat' split
    all_goals rfl
  · rfl

theorem clearFlag_clm (f : Fin 19) (s : State) : (clearFlag f s).clm = s.clm := rfl

theorem eventsClear_clm (l : ClearList) (s : State) : (eventsClear l s).1.clm = s.clm := by
  simp only [eventsClear]
  repeat' split
  · rfl
  · rfl
  · exact foldl_clm (fun s f => clearFlag_clm f s) _ _

theorem authoritySet_clm (f : AuthorityFields) (s : State) : (authoritySet f s).1.clm = s.clm := by
  simp only [authoritySet]
  split <;> rfl

theorem offerHome_clm (tag : Byte) (body : List Byte) (s : State) : (offerHome tag body s).clm = s.clm := by
  simp only [offerHome]
  split
  all_goals
    rename_i h
    have hclm := request_clm h
    exact hclm

@[simp] theorem submit_clm (m : Msg) (s : State) : (submit m s).clm = s.clm := by
  simp only [submit, joinVan, joinHome]
  repeat' split
  all_goals simp
  all_goals
    rename_i h
    exact request_clm h

@[simp] theorem discardAssembly_clm (s : State) : (discardAssembly s).clm = s.clm := by
  simp [discardAssembly]

@[simp] theorem assemble_clm (src : Src) (i : RingStream) (a : Assembling) (s : State) : (assemble src i a s).clm = s.clm := by
  simp only [assemble]
  split <;> simp [setPartial]

theorem firstCell_clm (src : Src) (i : RingStream) (kind tag : Byte) (count length : Nat) (body : List Byte) (s : State) :
    (firstCell src i kind tag count length body s).clm = s.clm := by
  simp only [firstCell]
  split <;> simp [setPartial]

theorem continuationCell_clm (src : Src) (i : RingStream) (index : Nat) (body : List Byte) (s : State) :
    (continuationCell src i index body s).clm = s.clm := by
  simp only [continuationCell]
  repeat' split
  all_goals simp [setPartial]

theorem fillSlot_clm (s : State) : (fillSlot s).clm = s.clm := by
  simp only [fillSlot]
  split <;> rfl

end

end Sys2Proof.Machine
end

section
/-! PROOF. Every step keeps the clip table well formed (R122, R123, R124). -/

namespace Sys2Proof.Machine

section
variable {s t : State} {m : ClipMarker}

/-! ### The clip table's own operations -/

/-- The invariant reads the records, the next clip number and the acknowledgement order alone. -/
theorem ClipsOk.congr {m' : ClipMarker} (h : ClipsOk m) (hclips : m'.clips = m.clips) (hnext : m'.next = m.next)
    (hacked : m'.acked = m.acked) : ClipsOk m' := by
  obtain ⟨hsize, hdistinct, hnumbers, hn, ha⟩ := h
  constructor <;> simpa only [hclips, hnext, hacked]

theorem ClipsOk.ite {c : Prop} [Decidable c] (hs : ClipsOk s.clm) (ht : ClipsOk t.clm) :
    ClipsOk (if c then s else t).clm := by split <;> assumption

theorem ClipsOk.foldl {α : Type} {f : State → α → State} (hf : ∀ s a, ClipsOk s.clm → ClipsOk (f s a).clm) (l : List α)
    (h : ClipsOk s.clm) : ClipsOk (l.foldl f s).clm := by
  induction l generalizing s with
  | nil => exact h
  | cons a l ih => exact ih (hf s a h)

theorem ClipsOk.onClip (h : ClipsOk s.clm) (n : Nat) (f : Clip → Clip) (hf : ∀ c, (f c).number = c.number) :
    ClipsOk (onClip n f s).clm :=
  h.map _ (fun c => by split <;> simp only [hf]) s.clm.tally

/-- A freed record leaves the acknowledgement order too (R122). -/
theorem ClipsOk.freeClip (h : ClipsOk s.clm) (n : Nat) : ClipsOk (freeClip n s).clm := by
  obtain ⟨hsize, hdistinct, hnumbers, hnext, hacked⟩ := h
  refine ⟨(List.length_filter_le ..).trans hsize, hdistinct.sublist (List.filter_sublist.map _),
    fun c hc => hnumbers c (List.mem_of_mem_filter hc), hnext, fun k hk => ?_⟩
  obtain ⟨hk, hne⟩ := List.mem_filter.mp hk
  obtain ⟨c, hc, rfl⟩ := List.mem_map.mp (hacked k hk)
  exact List.mem_map.mpr ⟨c, List.mem_filter.mpr ⟨hc, hne⟩, rfl⟩

/-- The acknowledgement order names records of the table, so the record freed for a place was there: a place is free (R124). -/
theorem ClipsOk.makeRoom (h : ClipsOk s.clm) (hroom : makeRoom s = some t) : ClipsOk t.clm ∧ t.clm.clips.length < 64 := by
  simp only [Machine.makeRoom] at hroom
  split at hroom
  next hlen =>
    obtain rfl := Option.some.inj hroom
    exact ⟨h, hlen⟩
  next =>
    split at hroom
    next => exact absurd hroom (by simp)
    next n _ hacked =>
      obtain rfl := Option.some.inj hroom
      obtain ⟨c, hc, rfl⟩ := List.mem_map.mp (h.acked n (hacked ▸ List.mem_cons_self ..))
      refine ⟨h.freeClip _, lt_of_lt_of_le ?_ h.size⟩
      exact List.length_filter_lt_length_iff_exists.mpr ⟨c, hc, by simp⟩

/-- A record joins a table with a free place under a number that no record holds (R123). -/
theorem ClipsOk.add (h : ClipsOk m) {c : Clip} (hlen : m.clips.length < 64) (hfree : c.number ∉ m.clips.map (·.number))
    (hrange : 1 ≤ c.number ∧ c.number ≤ 65535) :
    ClipsOk { m with clips := m.clips ++ [c], next := nextNumber c.number } := by
  obtain ⟨-, hdistinct, hnumbers, -, hacked⟩ := h
  refine ⟨by simpa using hlen, ?_, fun k hk => ?_, ?_, fun k hk => ?_⟩
  · rw [List.map_append, List.nodup_append]
    exact ⟨hdistinct, List.nodup_singleton _, fun a ha b hb hab => hfree (by simp_all)⟩
  · obtain hk | hk := List.mem_append.mp hk
    · exact hnumbers k hk
    · rwa [List.mem_singleton.mp hk]
  · simp only [nextNumber]
    split <;> omega
  · rw [List.map_append]
    exact List.mem_append_left _ (hacked k hk)

/-- A MARK-IN takes the first free number for its record (R123, R124). -/
theorem ClipsOk.markIn (h : ClipsOk s.clm) (source : ClipSource) (cams : Table 4 Bool) (prio : Priority) (text : List Byte) :
    ClipsOk (markIn source cams prio text s).2.clm := by
  simp only [Machine.markIn]
  split
  · exact h
  · split
    next => rwa [raiseFlag_clm]
    next u hroom =>
      obtain ⟨hok, hlen⟩ := h.makeRoom hroom
      obtain ⟨a, hpick, hfree, -⟩ := pickNumber_found (u.clm.clips.map (·.number)) u.clm.next (by simpa using hlen.le)
        hok.next.1 hok.next.2
      have hrange : 1 ≤ numAt u.clm.next a ∧ numAt u.clm.next a ≤ 65535 := by
        rw [numAt]
        omega
      rw [foldl_clm fun s (k : ClipCamera) => refreshCause_clm k.prog s]
      exact hok.add hlen (by rwa [hpick]) (by rwa [hpick])

/-! ### Labels and closing (R133, R134, R142, R143) -/

theorem ClipsOk.requestLabel (h : ClipsOk s.clm) : ClipsOk (requestLabel s).2.clm := by
  simp only [Machine.requestLabel]
  split
  · exact h
  · split
    all_goals
      rename_i hreq
      rw [← request_clm hreq] at h
    · exact h
    · split <;> exact h.congr rfl rfl rfl

theorem ClipsOk.retryLabels (n : Nat) (h : ClipsOk s.clm) : ClipsOk (retryLabels n s).clm := by
  induction n generalizing s with
  | zero => exact h
  | succ n ih =>
    have hone := h.requestLabel
    simp only [Machine.retryLabels]
    split
    · exact h
    · split <;> rename_i hreq <;> rw [hreq] at hone
      · exact ih hone
      · exact hone

theorem ClipsOk.closeClip (h : ClipsOk s.clm) (n : Nat) (e : Pic) : ClipsOk (closeClip n e s).clm := by
  simp only [Machine.closeClip]
  have hjoined := (h.onClip n (fun c => { c with
    state := .closed, count := 0, expiry := none, outPoint := some (c.inPoints.foldl laterPic e) }) fun _ => rfl).congr
    (m' := { (Machine.onClip n _ s).clm with waiting := s.clm.waiting ++ [n] }) rfl rfl rfl
  exact ClipsOk.ite (ClipsOk.requestLabel hjoined) hjoined

theorem ClipsOk.runOut (h : ClipsOk s.clm) (n : Nat) : ClipsOk (runOut n s).clm := by
  simp only [Machine.runOut]
  split
  · exact h
  · exact ClipsOk.ite (h.closeClip ..) (h.onClip _ _ fun _ => rfl)

theorem ClipsOk.closeIfResolved (h : ClipsOk s.clm) (n : Nat) : ClipsOk (closeIfResolved n s).clm := by
  simp only [Machine.closeIfResolved]
  split
  · exact h
  · exact ClipsOk.ite (h.closeClip ..) h

theorem ClipsOk.countPostRoll (h : ClipsOk s.clm) : ClipsOk (countPostRoll s).clm := by
  refine ClipsOk.foldl (fun s c h => ?_) _ h
  exact ClipsOk.ite (h.runOut _) (h.onClip _ _ fun _ => rfl)

theorem ClipsOk.startPostRoll (h : ClipsOk s.clm) (n : Nat) : ClipsOk (startPostRoll n s).clm := by
  have hrolls := h.onClip n (fun c => { c with state := .postRoll, count := s.clm.postRoll }) fun _ => rfl
  exact ClipsOk.ite (hrolls.runOut n) hrolls

theorem ClipsOk.labelTaken (h : ClipsOk s.clm) (n : Nat) : ClipsOk (labelTaken n s).clm :=
  h.onClip _ _ fun c => by split <;> rfl

/-- An acknowledged record is one of the table (R143). -/
theorem ClipsOk.labelRetired (h : ClipsOk s.clm) (n : Nat) : ClipsOk (labelRetired n s).clm := by
  simp only [Machine.labelRetired]
  split
  · exact h
  next c hc =>
    obtain ⟨hmem, hnum⟩ := clipOf_some hc
    obtain ⟨hsize, hdistinct, hnumbers, hnext, hacked⟩ :=
      h.onClip n (fun c => { c with state := .acked, ackTick := some s.tbu.tick }) fun _ => rfl
    refine ⟨hsize, hdistinct, hnumbers, hnext, fun k hk => ?_⟩
    obtain hk | hk := List.mem_append.mp hk
    · exact hacked k hk
    · rw [List.mem_singleton.mp hk, ← hnum]
      refine List.mem_map.mpr ⟨_, List.mem_map.mpr ⟨c, hmem, rfl⟩, ?_⟩
      dsimp only
      split <;> rfl

/-! ### Marks out, anchors, and programmes that leave RUNNING (R129 to R132) -/

theorem ClipsOk.markOut (h : ClipsOk s.clm) {n : Nat} (hmark : markOut n s = some t) : ClipsOk t.clm := by
  obtain ⟨c, -, hmark⟩ := Option.bind_eq_some_iff.mp hmark
  split at hmark
  · obtain rfl := Option.some.inj hmark
    exact h.startPostRoll n
  · obtain rfl := Option.some.inj hmark
    exact h
  · exact absurd hmark (by simp)

theorem ClipsOk.silentMarkOut (h : ClipsOk s.clm) (n : Nat) : ClipsOk (silentMarkOut n s).clm := by
  rw [Machine.silentMarkOut]
  cases hmark : Machine.markOut n s with
  | none => exact h
  | some t => exact h.markOut hmark

theorem ClipsOk.anchorStarted (h : ClipsOk s.clm) (p : Prog) (q : Pic) : ClipsOk (anchorStarted p q s).clm := by
  refine ClipsOk.foldl (fun s c h => ?_) _ h
  apply ClipsOk.closeIfResolved
  exact h.onClip _ _ fun _ => rfl

theorem ClipsOk.leavesRunning (h : ClipsOk s.clm) (p : Prog) : ClipsOk (leavesRunning p s).clm := by
  refine ClipsOk.foldl (fun s c h => ?_) _ h
  apply ClipsOk.ite
  · rw [queueNotice_clm]
    exact h.freeClip _
  · apply ClipsOk.closeIfResolved
    exact h.onClip _ _ fun _ => rfl

/-! ### The code start (R41, R44, R49) -/

theorem ClipsOk.beginPicture (h : ClipsOk s.clm) (p : Prog) (type : PicType) (target : Nat) (c : CodeStart) :
    ClipsOk (beginPicture p type target c s).clm := by
  cases type with
  | anchor => exact ClipsOk.anchorStarted (by exact h) p c.pic
  | follow => exact h

theorem ClipsOk.decidePicture (h : ClipsOk s.clm) (p : Prog) (taken : Bool) (c : CodeStart) :
    ClipsOk (decidePicture p taken c s).clm := by
  have hskips : ∀ u : State, u.clm = s.clm → ClipsOk (emitSkip p c u).clm := fun u hu => by rwa [emitSkip_clm, hu]
  simp only [Machine.decidePicture]
  refine ClipsOk.ite (hskips _ rfl) (ClipsOk.ite (hskips _ rfl) (ClipsOk.ite (hskips _ rfl) ?_))
  exact h.beginPicture ..

theorem ClipsOk.codeProgramme (h : ClipsOk s.clm) (c : CodeStart) (p : Prog) : ClipsOk (codeProgramme c p s).clm := by
  simp only [Machine.codeProgramme]
  split
  · have htaken : ∀ (wasRunning : Bool) (u : State), u.clm = s.clm → ClipsOk (judgeInput p (takePicture p wasRunning u).1
        (takePicture p wasRunning u).2).clm := fun wasRunning u hu => by rwa [judgeInput_clm, takePicture_clm, hu]
    split
    · have hdecided := (htaken (!runsNow s p c) (becomeRunning p s) rfl).decidePicture p
        (takePicture p (!runsNow s p c) (becomeRunning p s)).1 c
      split
      · rw [queueNotice_clm]
        exact hdecided
      · exact hdecided
    · exact (htaken _ s rfl).decidePicture ..
  · exact h

theorem ClipsOk.takeCodeStart (h : ClipsOk s.clm) (c : CodeStart) : ClipsOk (takeCodeStart c s).clm := by
  simp only [Machine.takeCodeStart, startBand_clm]
  refine ClipsOk.foldl (fun s p h => h.codeProgramme c p) _ ?_
  rwa [foldl_clm fun s p => freezeHold_clm c p s, foldl_clm fun s p => overrun_clm p s]

theorem ClipsOk.codeStartIfDue (h : ClipsOk s.clm) : ClipsOk (codeStartIfDue s).clm := by
  simp only [Machine.codeStartIfDue]
  split
  · exact ClipsOk.takeCodeStart (by exact h) _
  · exact h

theorem ClipsOk.codeStartsDue (n : Nat) (h : ClipsOk s.clm) : ClipsOk (codeStartsDue n s).clm := by
  induction n generalizing s with
  | zero => exact h
  | succ n ih => exact ClipsOk.ite (ih h.codeStartIfDue) h

/-! ### The sound triggers (R101 to R104) -/

theorem ClipsOk.triggerMarkIn (h : ClipsOk s.clm) (i : Fin 4) : ClipsOk (triggerMarkIn i s).clm :=
  ClipsOk.ite h (ClipsOk.markIn (by exact h) ..)

theorem ClipsOk.triggerMarkOut (h : ClipsOk s.clm) (i : Fin 4) : ClipsOk (triggerMarkOut i s).clm := by
  simp only [Machine.triggerMarkOut]
  split
  · exact ClipsOk.silentMarkOut (by exact h) _
  · exact h

theorem ClipsOk.armTrigger (h : ClipsOk s.clm) (i : Fin 4) (run : Nat) : ClipsOk (armTrigger i run s).clm :=
  ClipsOk.ite (ClipsOk.triggerMarkIn (by exact h) i) h

theorem ClipsOk.releaseTrigger (h : ClipsOk s.clm) (i : Fin 4) (run : Nat) : ClipsOk (releaseTrigger i run s).clm :=
  ClipsOk.ite (ClipsOk.triggerMarkOut (by exact h) i) h

theorem ClipsOk.stepTrigger (h : ClipsOk s.clm) (i : Fin 4) : ClipsOk (stepTrigger i s).clm := by
  simp only [Machine.stepTrigger]
  split
  · exact h
  · split
    · exact ClipsOk.ite (h.armTrigger i _) h
    · exact ClipsOk.ite (h.armTrigger i _) h
    · exact ClipsOk.ite (h.releaseTrigger i _) h
    · exact ClipsOk.ite (h.releaseTrigger i _) h

theorem ClipsOk.takeAnswer (h : ClipsOk s.clm) (i : Fin 4) (clip : Option Nat) : ClipsOk (takeAnswer i clip s).clm := by
  refine ClipsOk.ite ?_ h
  cases clip with
  | none => exact h
  | some n =>
    dsimp only
    split
    · exact h
    · exact h
    · exact ClipsOk.silentMarkOut (by exact h) n
    · exact ClipsOk.silentMarkOut (by exact h) n

theorem ClipsOk.answerTrigger (h : ClipsOk s.clm) (i : Fin 4) : ClipsOk (answerTrigger i s).clm := by
  simp only [Machine.answerTrigger]
  split
  · exact h
  · exact ClipsOk.takeAnswer (by exact h) i _

theorem ClipsOk.triggerSet (h : ClipsOk s.clm) (f : TriggerFields) : ClipsOk (triggerSet f s).1.clm := by
  simp only [Machine.triggerSet]
  split
  · exact h
  · split
    · exact h
    · split
      · exact h
      · exact ClipsOk.ite (ClipsOk.triggerMarkOut (by exact h) _) h

/-! ### The block event (R9, R101) -/

theorem ClipsOk.mixBlock (h : ClipsOk s.clm) (n : BlockNo) : ClipsOk (mixBlock n s).2.clm := by
  simp only [Machine.mixBlock]
  apply ClipsOk.foldl fun s i h => h.stepTrigger i
  rwa [foldl_clm fun s _ => raiseFlag_clm _ s, foldl_clm fun s _ => raiseFlag_clm _ s, State.onSmx_clm]

theorem ClipsOk.mixEvent (h : ClipsOk s.clm) (b : BlockNo) : ClipsOk (mixEvent b s).2.clm := by
  simp only [Machine.mixEvent]
  split
  · split
    · exact h
    · rw [State.onSmx_clm]
      apply ClipsOk.mixBlock
      exact h
  · exact h

theorem ClipsOk.blockIfDue (h : ClipsOk s.clm) : ClipsOk (blockIfDue s).clm := by
  refine ClipsOk.ite ?_ h
  rw [blockWork_clm]
  apply ClipsOk.mixEvent
  exact h

/-! ### The commands of chapter 7 (R125 to R137) -/

theorem ClipsOk.clipMarkIn (h : ClipsOk s.clm) (src : Src) (f : MarkFields) : ClipsOk (clipMarkIn src f s).1.clm := by
  have hmarkIn : ∀ desk source cams prio text, ClipsOk (markInFor desk source cams prio text s).1.clm := by
    intro desk source cams prio text
    have hmark := h.markIn source cams prio text
    simp only [markInFor]
    split
    all_goals
      rename_i hres
      rw [hres] at hmark
    · exact hmark
    · split
      · exact hmark.congr rfl rfl rfl
      · exact hmark
  simp only [Machine.clipMarkIn]
  split
  · split
    · exact h
    · split
      · exact h
      · split
        · exact h
        · exact hmarkIn ..
  · exact h

theorem ClipsOk.markRecord (h : ClipsOk s.clm) {src : Src} {f : MarkFields} {act : Clip → Option (State × Reply)}
    (hact : ∀ c r, act c = some r → ClipsOk r.1.clm) : ClipsOk (markRecord src f act s).1.clm := by
  simp only [Machine.markRecord]
  split
  · split
    · exact h
    next hr =>
      split
      · exact hact _ _ hr
      · exact h
  · exact h

theorem ClipsOk.clipMark (h : ClipsOk s.clm) (src : Src) (action : Nat) (f : MarkFields) :
    ClipsOk (clipMark src action f s).1.clm := by
  simp only [Machine.clipMark]
  split
  · exact h.clipMarkIn src f
  · refine h.markRecord fun c r hr => ?_
    obtain ⟨u, hu, rfl⟩ := Option.map_eq_some_iff.mp hr
    exact h.markOut hu
  · refine h.markRecord fun c r hr => ?_
    split at hr
    · obtain rfl := Option.some.inj hr
      exact h.startPostRoll _
    · obtain rfl := Option.some.inj hr
      exact h
    · exact absurd hr (by simp)
  · refine h.markRecord fun c r hr => ?_
    split at hr
    · obtain rfl := Option.some.inj hr
      exact h.freeClip _
    · exact absurd hr (by simp)
  · exact h

theorem ClipsOk.clipLabel (h : ClipsOk s.clm) (src : Src) (ref : ClipRef) (text : Option (List Byte)) :
    ClipsOk (clipLabel src ref text s).1.clm := by
  simp only [Machine.clipLabel]
  split
  · exact h
  · split
    · exact h
    · split
      · exact h
      · cases text with
        | none => exact h
        | some t => exact h.onClip _ _ fun _ => rfl

theorem ClipsOk.clipQuery (h : ClipsOk s.clm) (src : Src) (ref : ClipRef) : ClipsOk (clipQuery src ref s).1.clm := by
  simp only [Machine.clipQuery]
  repeat' split
  all_goals exact h

theorem ClipsOk.clipSettings (h : ClipsOk s.clm) (f : ClipSettingsFields) : ClipsOk (clipSettings f s).1.clm := by
  simp only [Machine.clipSettings]
  split
  · exact h.congr rfl rfl rfl
  · exact h

/-! ### PROGRAMME-STOP (R27 to R31) and the tally (R140) -/

theorem ClipsOk.cutProgramme (h : ClipsOk s.clm) (p : Prog) (flush : Bool) : ClipsOk (cutProgramme p flush s).clm := by
  have hended : ∀ u : State, u.clm = s.clm → ClipsOk (endStop p .cut s.tbu.pic u).clm := fun u hu => by
    rwa [endStop_clm, hu]
  have hflushed : (if flush then flushPictures p (dropPicture p s) else dropPicture p s).clm = s.clm := by
    split <;> simp only [flushPictures_clm, dropPicture_clm]
  exact ClipsOk.ite ((hended _ hflushed).leavesRunning p) (hended _ hflushed)

theorem ClipsOk.gentleStop (h : ClipsOk s.clm) (n : Option Nat) (flush : Bool) {run : Prog → State → State × Reply}
    (hrun : ∀ p, ClipsOk (run p s).1.clm) : ClipsOk (gentleStop n flush run s).1.clm := by
  simp only [Machine.gentleStop]
  split
  · exact h
  · split
    · split
      · exact h
      · exact h.cutProgramme ..
    · split
      · exact h
      · exact hrun _
    · exact h

theorem ClipsOk.programmeStop (h : ClipsOk s.clm) (m : Hdr) (n : Option Nat) (mode : Nat) (flush : Bool) :
    ClipsOk (programmeStop m n mode flush s).1.clm := by
  have hleaves : ∀ (p : Prog) (f : Programme → Programme), ClipsOk (Machine.leavesRunning p (s.onProg p f)).clm :=
    fun p f => ClipsOk.leavesRunning (by exact h) p
  simp only [Machine.programmeStop]
  split
  · simp only [programmeCut]
    split
    · exact h
    · split
      · exact h
      · exact h.cutProgramme ..
  · refine h.gentleStop n flush fun p => ?_
    simp only [finishRunning]
    split <;> exact hleaves ..
  · exact h.gentleStop n flush fun p => hleaves ..
  · split <;> exact h

theorem ClipsOk.leaveAir (h : ClipsOk s.clm) (p : Prog) : ClipsOk (leaveAir p s).clm := by
  simp only [Machine.leaveAir]
  split
  · exact h
  · exact (h.silentMarkOut _).congr rfl rfl rfl

theorem ClipsOk.enterAir (h : ClipsOk s.clm) (p : Prog) : ClipsOk (enterAir p s).clm := by
  have hmark := h.markIn .tally ((Table.replicate 4 false).set p true) s.clm.tallyPriority []
  simp only [Machine.enterAir]
  split
  all_goals
    rename_i hres
    rw [hres] at hmark
    exact hmark.congr rfl rfl rfl

theorem ClipsOk.judgeTally (h : ClipsOk s.clm) (onAir : Table 4 Bool) : ClipsOk (judgeTally onAir s).clm := by
  have hleft := h.foldl (fun s p h => h.leaveAir p) (four.filter fun p => s.clm.view.get p && !(foldSet s onAir).get p)
  have hentered := hleft.foldl (fun s p h => h.enterAir p) (four.filter fun p => (foldSet s onAir).get p && !s.clm.view.get p)
  exact (ClipsOk.ite hentered hleft).congr rfl rfl rfl

/-! ### What the modems deliver (R170, R176) -/

theorem ClipsOk.tellLabel {f : Nat → State → State} (hf : ∀ n s, ClipsOk s.clm → ClipsOk (f n s).clm) (p : Packet)
    (h : ClipsOk s.clm) : ClipsOk (tellLabel f p s).clm := by
  simp only [Machine.tellLabel]
  split
  · exact hf _ _ h
  · exact h

theorem ClipsOk.takenReport (h : ClipsOk s.clm) (l : Link) (epoch : Epoch) (seq : Seq) :
    ClipsOk (takenReport l epoch seq s).clm := by
  simp only [Machine.takenReport]
  repeat' split
  · exact ClipsOk.tellLabel (fun n _ h => h.labelTaken n) _ h
  · exact h
  · exact h

theorem ClipsOk.retireEntry (h : ClipsOk s.clm) (l : Link) (e : InFlight) : ClipsOk (retireEntry l e s).clm := by
  have htold := ClipsOk.tellLabel (s := s.onPool fun k => k.releasePacket e.packet) (fun n _ h => h.labelRetired n) e.packet h
  refine ClipsOk.ite ?_ htold
  rw [probeRetired_clm]
  exact htold

theorem ClipsOk.ackPacket (h : ClipsOk s.clm) (n : Byte) (epoch : Epoch) (a : Seq) : ClipsOk (ackPacket n epoch a s).clm := by
  have hretire : ∀ l k, ClipsOk (retire l k a s).clm := fun l k => by
    have hentries := ClipsOk.foldl (s := s.onSched l fun h => { h with inFlight := h.inFlight.drop k, lastAck := a })
      (fun s e h => h.retireEntry l e) ((sched s l).inFlight.take k) h
    exact ClipsOk.ite hentries hentries
  simp only [Machine.ackPacket, ackLink]
  split
  · split
    · exact h
    · split
      · exact h
      · exact hretire _ _
      · rw [raiseFlag_clm]
        exact h
  · exact h

theorem ClipsOk.returnPacket (h : ClipsOk s.clm) (p : ReturnPacket) : ClipsOk (returnPacket p s).clm := by
  simp only [Machine.returnPacket, controlReturn]
  split
  · exact h.ackPacket ..
  · rwa [refreshReturn_clm]
  · rwa [submit_clm]
  · exact h

theorem ClipsOk.modemReport (h : ClipsOk s.clm) (l : Link) (r : ModemReport) : ClipsOk (modemReport l r s).clm := by
  simp only [Machine.modemReport]
  split
  · rwa [takeCapacity_clm]
  · rwa [takeFaultReport_clm]
  · exact h.takenReport ..
  · exact h

/-! ### Cells (R199 to R202, R213) -/

theorem ClipsOk.route (h : ClipsOk s.clm) (i : RingStream) {use : Dest → Option (State → State)}
    (huse : ∀ d f, use d = some f → ClipsOk (f s).clm) : ClipsOk (route i use s).clm := by
  simp only [Machine.route]
  split
  · exact h
  · split
    next f hf => exact huse _ f hf
    next => exact h

theorem ClipsOk.ringCell (h : ClipsOk s.clm) (c : RingCell) : ClipsOk (ringCell c s).clm := by
  have hdiscard : ∀ i, ClipsOk (discardAssembly (setPartial i none s)).clm := fun i => by
    rw [discardAssembly_clm]
    exact h
  simp only [Machine.ringCell]
  split
  · refine h.route _ fun d f hf => ?_
    split at hf <;> simp only [Option.some.injEq, reduceCtorEq] at hf
    rwa [← hf, soundArrival_clm]
  · simp only [tallyCell]
    split
    · exact h
    · refine h.route _ fun d f hf => ?_
      split at hf <;> simp only [Option.some.injEq, reduceCtorEq] at hf
      subst hf
      exact ClipsOk.judgeTally (by exact h) _
  · refine ClipsOk.ite (hdiscard _) (h.route _ fun d f hf => ?_)
    obtain ⟨src, -, rfl⟩ := Option.map_eq_some_iff.mp hf
    rwa [firstCell_clm]
  · refine h.route _ fun d f hf => ?_
    obtain ⟨src, -, rfl⟩ := Option.map_eq_some_iff.mp hf
    rwa [continuationCell_clm]
  · refine ClipsOk.ite (h.route _ fun d f hf => ?_) h
    exact absurd hf (by simp)

/-! ### The Command Unit (R203 to R212) -/

/-- RESET MEDIA empties the table and keeps the next clip number (R145). -/
theorem ClipsOk.resetMedia (h : ClipsOk s.clm) (home : List Msg) : ClipsOk (resetMediaBlocks home s).clm :=
  ⟨Nat.zero_le _, List.nodup_nil, fun _ hc => absurd hc List.not_mem_nil, h.next, fun _ hn => absurd hn List.not_mem_nil⟩

theorem ClipsOk.perform (h : ClipsOk s.clm) (m : Msg) (c : Command) : ClipsOk (perform m c s).1.clm := by
  cases c with
  | timebaseSet => exact (timebaseSet_clm ..).symm ▸ h
  | formatSet => exact (formatSet_clm ..).symm ▸ h
  | programmeSet => exact (programmeSet_clm ..).symm ▸ h
  | programmeStart => exact (programmeStart_clm ..).symm ▸ h
  | programmeStop => exact h.programmeStop ..
  | refresh => exact (refreshCommand_clm ..).symm ▸ h
  | rateSet => exact (rateSet_clm ..).symm ▸ h
  | inputMap => exact (inputMap_clm ..).symm ▸ h
  | inputSet => exact (inputSet_clm ..).symm ▸ h
  | mixSet => exact (mixSet_clm ..).symm ▸ h
  | busSet => exact (busSet_clm ..).symm ▸ h
  | triggerSet => exact h.triggerSet _
  | soundStreamSet => exact (soundStreamSet_clm ..).symm ▸ h
  | clipMark => exact h.clipMark ..
  | clipLabel => exact h.clipLabel ..
  | clipQuery => exact h.clipQuery ..
  | clipSettings => exact h.clipSettings _
  | linkSet => exact (linkSet_clm ..).symm ▸ h
  | linkUp => exact (linkUp_clm ..).symm ▸ h
  | linkDown => exact (linkDown_clm ..).symm ▸ h
  | linkClear => exact (linkClear_clm ..).symm ▸ h
  | statusQuery => exact (statusQuery_clm ..).symm ▸ h
  | eventsClear => exact (eventsClear_clm ..).symm ▸ h
  | authoritySet => exact (authoritySet_clm ..).symm ▸ h
  | reset n =>
    obtain _ | _ | n := n
    · exact h
    · exact h.resetMedia _
    · exact h

theorem ClipsOk.answer (h : ClipsOk s.clm) (m : Msg) : ClipsOk (answer m s).1.clm := by
  simp only [Machine.answer]
  split
  · rwa [raiseFlag_clm]
  · exact h
  · split
    · exact h
    · exact h.perform ..

theorem ClipsOk.resetBlocks (s : State) : ClipsOk (resetBlocks s).clm := clipsOk_reset

theorem ClipsOk.dispatchVan (h : ClipsOk s.clm) (m : Msg) : ClipsOk (dispatchVan m s).clm :=
  ClipsOk.ite (ClipsOk.resetBlocks s) (h.answer m)

theorem ClipsOk.dispatchHome (h : ClipsOk s.clm) (m : Msg) : ClipsOk (dispatchHome m s).clm := by
  refine ClipsOk.ite (ClipsOk.resetBlocks s) ?_
  rw [offerHome_clm]
  exact h.answer m

theorem ClipsOk.serveVan (n : Nat) (h : ClipsOk s.clm) : ClipsOk (serveVan n s).clm := by
  induction n generalizing s with
  | zero => exact h
  | succ n ih =>
    simp only [Machine.serveVan]
    split
    · exact h
    · exact ClipsOk.ite (ih (h.dispatchVan _)) h

theorem ClipsOk.serveHome (n : Nat) (h : ClipsOk s.clm) : ClipsOk (serveHome n s).clm := by
  induction n generalizing s with
  | zero => exact h
  | succ n ih =>
    simp only [Machine.serveHome]
    split
    · exact ih (h.dispatchHome _)
    · exact h

theorem ClipsOk.finish (h : ClipsOk s.clm) : ClipsOk (finish s).clm := by
  rw [Machine.finish, settleTakes_clm]
  exact (h.serveVan _).serveHome _

theorem ClipsOk.takeCommand (h : ClipsOk s.clm) (m : Hdr) (c : Command) : ClipsOk (takeCommand m c s).clm := by
  refine ClipsOk.finish ?_
  rwa [submit_clm]

/-! ### Periods, ticks and what is due (chapter 1) -/

theorem ClipsOk.onTbu (h : ClipsOk s.clm) (f : Timebase → Timebase) : ClipsOk (s.onTbu f).clm := h

theorem ClipsOk.retryHome (h : ClipsOk s.clm) : ClipsOk (retryHome s).clm := by
  have hheld : ClipsOk (retryHeld s).clm := by
    simp only [retryHeld]
    split
    · exact h
    · refine ClipsOk.serveHome _ ?_
      rwa [offerHome_clm]
  refine ClipsOk.ite ?_ hheld
  rwa [sendHomeNotices_clm]

theorem ClipsOk.startPeriod (h : ClipsOk s.clm) : ClipsOk (startPeriod s).clm := by
  simp only [Machine.startPeriod, deliverPeriod]
  refine ((ClipsOk.countPostRoll ?_).retryLabels _).retryHome
  rw [allocation_clm]
  exact h

theorem ClipsOk.periodIfDue (h : ClipsOk s.clm) : ClipsOk (periodIfDue s).clm := ClipsOk.ite h.startPeriod h

theorem ClipsOk.caughtUp (h : ClipsOk s.clm) : ClipsOk (caughtUp s).clm := by
  refine ClipsOk.finish ?_
  rw [catchUp, foldl_clm fun s l => timersIfDue_clm l s]
  exact (h.periodIfDue.codeStartsDue _).blockIfDue

theorem ClipsOk.ringFrame (h : ClipsOk s.clm) (elapsed : Nat) : ClipsOk (ringFrame elapsed s).clm := by
  have hfilled : ClipsOk (fillSlot (Machine.caughtUp s)).clm := by
    rw [fillSlot_clm]
    exact h.caughtUp
  simp only [Machine.ringFrame]
  split
  · apply ClipsOk.startPeriod
    apply hfilled.onTbu
  · apply hfilled.onTbu

theorem ClipsOk.missFrame (h : ClipsOk s.clm) : ClipsOk (missFrame s).clm := by
  simp only [Machine.missFrame]
  split
  · rw [raiseFlag_clm]
    apply h.caughtUp.onTbu
  · apply h.caughtUp.onTbu

/-- Every command keeps the clip table well formed. -/
theorem ClipsOk.exec (h : ClipsOk s.clm) (c : Instr) (e : exec c s = .next t) : ClipsOk t.clm := by
  have hsame : ∀ u : State, u.clm = s.clm → ClipsOk (Machine.finish u).clm := fun u hu => ClipsOk.finish (by rwa [hu])
  cases c <;> simp only [Machine.exec] at e <;> injection e with e <;> subst e
  case powerOnReset => exact ClipsOk.resetBlocks s
  case ringFrameStart => exact (h.ringFrame _).finish
  case missedFrame => exact h.missFrame.finish
  case localTick => exact ClipsOk.finish (h.caughtUp.onTbu _)
  case periodStart => exact h.periodIfDue.finish
  case codeStart => exact h.codeStartIfDue.finish
  case fragmentClose => exact hsame _ (closeFragment_clm ..)
  case bandCompletion => exact hsame _ (bandEnds_clm ..)
  case blockEvent => exact h.blockIfDue.finish
  case pictureStartSignal => exact hsame _ rfl
  case pictureEndComplete => exact hsame _ (pictureCompletes_clm ..)
  case pictureEndBroken => exact hsame _ rfl
  case soundCell i b x => exact (h.ringCell (.sound i b x)).finish
  case tallyCell i n body => exact (h.ringCell (.tally i n body)).finish
  case controlFirstCell i kind tag count length body => exact (h.ringCell (.first i kind tag count length body)).finish
  case controlContinuationCell i index body => exact (h.ringCell (.continuation i index body)).finish
  case unroutedCell => exact (h.ringCell _).finish
  case unknownCommand => exact hsame _ (submit_clm ..)
  case ack => exact (h.ackPacket ..).finish
  case refreshPacket => exact hsame _ (refreshReturn_clm ..)
  case controlPacket => exact hsame _ (submit_clm ..)
  case capacityReport => exact hsame _ (takeCapacity_clm ..)
  case faultReport => exact hsame _ (takeFaultReport_clm ..)
  case takenReport => exact (h.takenReport ..).finish
  case triggerAnswer => exact (h.answerTrigger _).finish
  case ignoredReturnPacket => exact (h.returnPacket _).finish
  case ignoredModemReport => exact (h.modemReport ..).finish
  case probeBuild => exact hsame _ (probeIfDue_clm ..)
  case provingDeadline => exact hsame _ (deadlineIfDue_clm ..)
  case retryExpiry => exact hsame _ (retryIfDue_clm ..)
  case recoveryExpiry => exact hsame _ (recoveryIfDue_clm ..)
  case windowEnd => exact hsame _ (windowIfDue_clm ..)
  case ackTimeout => exact hsame _ (timeoutIfDue_clm ..)
  all_goals exact h.takeCommand _ _

end

/-- Settles O58: an idle step by itself, every other by `ClipsOk.exec`, which reads no waiting command. -/
theorem step_keepsClipTable : Obligations.Step_KeepsClipTable := by
  intro s t hstep h
  rw [step] at hstep
  split at hstep
  next =>
    obtain rfl := Host.Outcome.next.inj hstep
    exact h
  next c rest _ => exact ClipsOk.exec (s := { s with pending := rest }) h c hstep

end Sys2Proof.Machine
end

section
/-! PROOF. A TALLY cell: its form and routing, and the marks of the cameras that leave and enter the air (R127, R131, R140, R199,
R201, R213). -/

namespace Sys2Proof.Machine

section
variable {i : RingStream} {count : Byte} {body : List Byte} {onAir view : Table 4 Bool} {p : Prog} {s t : State}

/-! ### The set that a cell carries (R213) -/

theorem tallySet_none (h : 4 < count.toNat ∨ ¬ ((body.take count.toNat).map (·.toNat)).Nodup ∨
    ∃ v ∈ (body.take count.toNat).map (·.toNat), 4 ≤ v) : tallySet count body = none := by
  simp only [tallySet]
  split
  next hform =>
    obtain ⟨hcount, hnodup⟩ := hform
    obtain h | h | h := h
    · omega
    · exact absurd hnodup h
    · exact setOf_none h
  next => rfl

theorem tallySet_some (hcount : count.toNat ≤ 4) (hnodup : ((body.take count.toNat).map (·.toNat)).Nodup)
    (hrange : ∀ v ∈ (body.take count.toNat).map (·.toNat), v < 4) :
    ∃ onAir, tallySet count body = some onAir ∧ ∀ p, onAir.get p = true ↔ p.val ∈ (body.take count.toNat).map (·.toNat) := by
  obtain ⟨onAir, hset, hget⟩ := setOf_some hrange
  refine ⟨onAir, ?_, fun p => by rw [hget p, decide_eq_true_iff]⟩
  rw [tallySet, if_pos ⟨hcount, hnodup⟩, hset]

/-! ### The cell by its stream's entry (R199, R201) -/

theorem exec_tallyCell_discarded (hq : Quiet s) (h : tallySet count body = none) :
    exec (.tallyCell i count body) s = .next s := by
  have hcell : tallyCell i count body s = s := by simp only [tallyCell, h]
  show Host.Outcome.next (finish (tallyCell i count body s)) = _
  rw [hcell, finish_quiet hq]

theorem exec_tallyCell_unrouted (hq : Quiet s) (hset : tallySet count body = some onAir) (h : s.sri.table.get i = .none) :
    exec (.tallyCell i count body) s = .next { s with
      sri := { s.sri with unrouted := min (s.sri.unrouted + 1) 65535 } } := by
  have hroute : tallyCell i count body s = countUnrouted s := by simp only [tallyCell, hset, route, h]
  show Host.Outcome.next (finish (tallyCell i count body s)) = _
  rw [hroute]
  exact congrArg Host.Outcome.next (finish_kept hq rfl rfl)

theorem exec_tallyCell_wrongKind (hq : Quiet s) (hset : tallySet count body = some onAir)
    (h : s.sri.table.get i = .control ∨ (∃ k, s.sri.table.get i = .soundInput k) ∨ ∃ d, s.sri.table.get i = .desk d) :
    exec (.tallyCell i count body) s = .next { s with
      sri := { s.sri with wrongKind := min (s.sri.wrongKind + 1) 65535 } } := by
  have hroute : tallyCell i count body s = countWrongKind s := by
    obtain h | ⟨k, h⟩ | ⟨d, h⟩ := h <;> simp only [tallyCell, hset, route, h]
  show Host.Outcome.next (finish (tallyCell i count body s)) = _
  rw [hroute]
  exact congrArg Host.Outcome.next (finish_kept hq rfl rfl)

/-- The state in which a new on-air set is judged against the tally view (R201). -/
def withOnAir (onAir : Table 4 Bool) (s : State) : State := { s with sri := { s.sri with onAir := onAir } }

/-- A cell of good form on a tally stream, by what R140 makes of its set. -/
theorem exec_tallyCell (hset : tallySet count body = some onAir) (h : s.sri.table.get i = .tally)
    (hjudged : judgeTally onAir (withOnAir onAir s) = t) (hquiet : Quiet t) :
    exec (.tallyCell i count body) s = .next t := by
  have hroute : tallyCell i count body s = judgeTally onAir (withOnAir onAir s) := by
    simp only [tallyCell, hset, route, h]
    rfl
  show Host.Outcome.next (finish (tallyCell i count body s)) = _
  rw [hroute, hjudged, finish_quiet hquiet]

/-! ### The on-air set against the tally view (R140) -/

/-- The cameras of a first set that are not in a second one, in ascending number. -/
def camerasLost (old new : Table 4 Bool) : List Prog := four.filter fun p => old.get p && !new.get p

theorem mem_camerasLost {old new : Table 4 Bool} : p ∈ camerasLost old new ↔ old.get p = true ∧ new.get p = false := by
  simp [camerasLost]

theorem camerasLost_nodup (old new : Table 4 Bool) : (camerasLost old new).Nodup := List.Nodup.filter _ (by decide)

/-- A camera leaving without a tally clip changes nothing. -/
theorem leaveAirs_clipless {l : List Prog} (h : ∀ p ∈ l, s.clm.tally.get p = none) : l.foldl (fun s p => leaveAir p s) s = s :=
  foldl_still fun p hp => by simp only [leaveAir, h p hp]

/-- With auto-mark off, the cameras that leave the air alone are worked. -/
theorem judgeTally_leaves (hauto : s.clm.autoMark = false)
    (hleft : (camerasLost s.clm.view (foldSet s onAir)).foldl (fun s p => leaveAir p s) s = t) :
    judgeTally onAir s = t.onClm fun m => { m with view := foldSet s onAir } := by
  simp only [judgeTally, hauto]
  rw [← hleft]
  rfl

/-- With auto-mark on, and no tally clip of a camera that leaves the air, the one camera that enters it is worked. -/
theorem judgeTally_enters (hauto : s.clm.autoMark = true)
    (hleft : ∀ q ∈ camerasLost s.clm.view (foldSet s onAir), s.clm.tally.get q = none)
    (hone : ∀ q, q ∈ camerasLost (foldSet s onAir) s.clm.view ↔ q = p) :
    judgeTally onAir s = (enterAir p s).onClm fun m => { m with view := foldSet s onAir } := by
  have hentered : (camerasLost (foldSet s onAir) s.clm.view).foldl (fun s p => enterAir p s) s = enterAir p s :=
    foldl_one (camerasLost_nodup ..) ((hone p).mpr rfl) (fun q hq hne => absurd ((hone q).mp hq) hne) rfl
      fun q hq hne => absurd ((hone q).mp hq) hne
  rw [camerasLost] at hentered
  rw [← hentered]
  simp only [judgeTally, hauto, if_true]
  rw [show (four.filter _).foldl (fun s p => leaveAir p s) s = s from leaveAirs_clipless hleft]

/-! ### A camera that enters the air alone (R127, R140) -/

theorem keptCameras_alone (hfold : fold s p = p) :
    keptCameras ((Table.replicate 4 false).set p true) s = if (prog s p).state = .running then [p] else [] := by
  have hset : ∀ q : Prog, ((Table.replicate 4 false).set p true).get q = true ↔ q = p := fun q => by
    by_cases hqp : p = q
    · subst hqp; simp
    · simp [Table.get_set_ne _ _ hqp, Ne.symm hqp]
  refine keptCameras_eq (by split <;> simp) fun q => ?_
  simp only [hset, exists_eq_left, hfold]
  split <;> rename_i hrun
  · rw [List.mem_singleton]
    exact ⟨fun h => ⟨h.symm, h ▸ hrun⟩, fun h => h.1.symm⟩
  · exact ⟨fun h => absurd h List.not_mem_nil, fun ⟨h, hq⟩ => absurd (h ▸ hq) hrun⟩

theorem enterAir_refused {st : Status}
    (h : markIn .tally ((Table.replicate 4 false).set p true) s.clm.tallyPriority [] s = (.error st, t)) :
    enterAir p s = t.onClm fun m => { m with tally := m.tally.set p none } := by simp only [enterAir, h]

theorem enterAir_marked {n : Nat}
    (h : markIn .tally ((Table.replicate 4 false).set p true) s.clm.tallyPriority [] s = (.ok n, t)) :
    enterAir p s = t.onClm fun m => { m with tally := m.tally.set p (some n) } := by simp only [enterAir, h]

theorem enterAir_stopped (hfold : fold s p = p) (hrun : (prog s p).state ≠ .running) :
    enterAir p s = s.onClm fun m => { m with tally := m.tally.set p none } :=
  enterAir_refused (markIn_none (by rw [keptCameras_alone hfold, if_neg hrun]))

theorem enterAir_full (hfold : fold s p = p) (hrun : (prog s p).state = .running) (hlen : s.clm.clips.length = 64)
    (hacked : s.clm.acked = []) :
    enterAir p s = (raiseFlag .clipFull s).onClm fun m => { m with tally := m.tally.set p none } :=
  enterAir_refused (markIn_full (by rw [keptCameras_alone hfold, if_pos hrun]; simp) hlen hacked)

theorem enterAir_makes (hm : ClipsOk s.clm) (hfold : fold s p = p) (hrun : (prog s p).state = .running)
    (hlen : s.clm.clips.length < 64) :
    ∃ (c : Clip) (u : State), MarkedIn .tally s.clm.tallyPriority [p] s u c ∧ enterAir p s = { s with
      pgc := u.pgc
      clm := { withRecord c s.clm with tally := s.clm.tally.set p (some c.number) } } := by
  have hkept : keptCameras ((Table.replicate 4 false).set p true) s = [p] := by rw [keptCameras_alone hfold, if_pos hrun]
  obtain ⟨c, u, hmark, hmarked, hu⟩ := markIn_makes .tally _ s.clm.tallyPriority hm (by rw [hkept]; simp) hlen
  rw [hkept] at hmarked
  refine ⟨c, u, hmarked, (enterAir_marked hmark).trans ?_⟩
  rw [hu]
  rfl

/-- A camera that enters the air stands for itself: the view is of folded cameras. -/
theorem fold_entering (h : (foldSet s onAir).get p = true) : fold s p = p := by
  simp only [foldSet, Table.get_ofFn, List.any_eq_true, beq_iff_eq] at h
  obtain ⟨q, -, rfl⟩ := h
  exact fold_fold s q

theorem foldSet_get : (foldSet s onAir).get p = true ↔ ∃ q, onAir.get q = true ∧ fold s q = p := by
  simp [foldSet, members]

end

/-- Settles O36: the cell by its form, its stream's entry, and the cameras that leave and enter the air. -/
theorem tallyCell_replacesTheOnAirSet : Obligations.TallyCell_ReplacesTheOnAirSet := by
  rintro i count body names s hq rfl
  refine ⟨fun h => exec_tallyCell_discarded hq (tallySet_none h), fun hcount hnodup hrange => ?_⟩
  obtain ⟨onAir, hset, hget⟩ := tallySet_some hcount hnodup hrange
  refine ⟨exec_tallyCell_unrouted hq hset, exec_tallyCell_wrongKind hq hset, fun h => ?_⟩
  refine ⟨onAir, foldSet s onAir, hget, fun p => ?_, fun hauto hleft => ?_, fun hauto hroll hm leaves hleaves => ?_,
    fun p hauto hm hleft hone => ?_⟩
  · simp only [foldSet_get, hget]
  · have hair : (camerasLost s.clm.view (foldSet s onAir)).foldl (fun s p => leaveAir p s) (withOnAir onAir s) =
        withOnAir onAir s := leaveAirs_clipless fun p hp => by
      obtain ⟨hold, hnew⟩ := mem_camerasLost.mp hp
      exact hleft p hold hnew
    exact exec_tallyCell hset h (judgeTally_leaves (s := withOnAir onAir s) hauto hair) (quiet_of hq rfl rfl rfl)
  · have hmem : ∀ p, p ∈ camerasLost s.clm.view (foldSet s onAir) ↔ leaves p = true := fun p => by
      rw [mem_camerasLost, hleaves, Bool.and_eq_true, Bool.not_eq_true']
    have hair := leaveAirs_eq _ (withOnAir onAir s) (camerasLost_nodup s.clm.view (foldSet s onAir)) hm hroll
    simp only [hmem] at hair
    exact exec_tallyCell hset h (judgeTally_leaves (s := withOnAir onAir s) hauto hair) (quiet_of hq rfl rfl rfl)
  · have hp : (foldSet s onAir).get p = true ∧ s.clm.view.get p = false := (hone p).mpr rfl
    have hfold := fold_entering hp.1
    have hjudged : judgeTally onAir (withOnAir onAir s) =
        (enterAir p (withOnAir onAir s)).onClm fun m => { m with view := foldSet s onAir } :=
      judgeTally_enters (s := withOnAir onAir s) hauto (fun q hq => by
        obtain ⟨hold, hnew⟩ := mem_camerasLost.mp hq
        exact hleft q hold hnew) fun q => mem_camerasLost.trans (hone q)
    refine ⟨fun hrun => ?_, fun hrun hlen => ?_, fun hrun hlen hacked hhome hroom => ?_⟩
    · rw [enterAir_stopped (s := withOnAir onAir s) hfold hrun] at hjudged
      exact exec_tallyCell hset h hjudged (quiet_of hq rfl rfl rfl)
    · obtain ⟨c, u, hmarked, hmakes⟩ := enterAir_makes (s := withOnAir onAir s) hm hfold hrun hlen
      rw [hmakes] at hjudged
      exact ⟨_, c, exec_tallyCell hset h hjudged (quiet_of hq rfl rfl rfl), hmarked.congr rfl rfl rfl rfl rfl, rfl⟩
    · rw [enterAir_full (s := withOnAir onAir s) hfold hrun hlen hacked,
        raiseFlag_raised (s := withOnAir onAir s) hhome hroom] at hjudged
      exact exec_tallyCell hset h hjudged (quiet_of hq rfl rfl rfl)

end Sys2Proof.Machine
end

section
/-! PROOF. CLIP-MARK IN of the control stream (R123 to R128). -/

namespace Sys2Proof.Machine

section
variable {h : Hdr} {i : RingStream} {f : MarkFields} {d : Fin 8} {source : ClipSource} {cams : Table 4 Bool} {prio : Priority}
  {text : List Byte} {s t : State} {m : ClipMarker}

/-! ### A MARK-IN with text, in a place that is free or freed (R124, R127) -/

/-- The record that a MARK-IN makes, where a place is free. -/
def newClip (source : ClipSource) (cams : Table 4 Bool) (prio : Priority) (text : List Byte) (s : State) : Clip where
  number := pickNumber (s.clm.clips.map (·.number)) 65 s.clm.next
  source := source
  priority := prio
  mark := s.tbu.pic
  cameras := (keptCameras cams s).map fun p => ⟨p, placeInPoint (s.cde.loops.get p).history s.tbu.pic s.clm.preRoll⟩
  text := text.take Config.labelChars

/-- The refresh causes of a record's pending in-points leave the clip table. -/
theorem refreshCauses_onClm (l : List ClipCamera) (s : State) (m : ClipMarker) :
    l.foldl (fun s k => refreshCause k.prog s) { s with clm := m } =
      { l.foldl (fun s k => refreshCause k.prog s) s with clm := m } := by
  induction l generalizing s with
  | nil => rfl
  | cons k l ih => exact ih (refreshCause k.prog s)

theorem makeRoom_free (hlen : s.clm.clips.length < 64) : makeRoom s = some s := if_pos hlen

theorem makeRoom_freed {old : Nat} {rest : List Nat} (hlen : s.clm.clips.length = 64) (hacked : s.clm.acked = old :: rest) :
    makeRoom s = some (freeClip old s) := by
  simp [makeRoom, hlen, hacked, Config.clipRecords]

/-- The table in which a MARK-IN finds a place: as it was, or without the record acknowledged longest ago (R124). -/
theorem makeRoom_place (h : s.clm.clips.length < 64 ∧ m = s.clm ∨ s.clm.clips.length = 64 ∧ ∃ old rest,
    s.clm.acked = old :: rest ∧ m = { s.clm with
      clips := s.clm.clips.filter fun c => c.number != old
      desks := s.clm.desks.map fun k => if k = some old then none else k
      tally := s.clm.tally.map fun k => if k = some old then none else k
      waiting := s.clm.waiting.filter fun k => k != old
      acked := s.clm.acked.filter fun k => k != old }) :
    makeRoom s = some { s with clm := m } ∧ m.next = s.clm.next ∧ m.preRoll = s.clm.preRoll := by
  obtain ⟨hlen, rfl⟩ | ⟨hlen, old, rest, hacked, rfl⟩ := h
  · exact ⟨makeRoom_free hlen, rfl, rfl⟩
  · exact ⟨by rw [makeRoom_freed hlen hacked, freeClip_eq], rfl, rfl⟩

theorem markIn_newClip (hkept : keptCameras cams s ≠ []) (hlen : s.clm.clips.length < 64) :
    markIn source cams prio text s = (.ok (newClip source cams prio text s).number, {
      ((newClip source cams prio text s).cameras.filter fun k => k.inPoint.isNone).foldl (fun s k => refreshCause k.prog s) s with
      clm := { s.clm with
        clips := s.clm.clips ++ [newClip source cams prio text s]
        next := nextNumber (newClip source cams prio text s).number } }) := by
  have he : (keptCameras cams s).isEmpty = false := by simpa using hkept
  rw [← refreshCauses_onClm]
  simp only [markIn, he, makeRoom_free hlen]
  rfl

theorem MarkedIn.withText {kept : List Prog} {c : Clip} (h : MarkedIn source prio kept s t c) (text : List Byte) :
    { c with text := text } = {
      number := c.number, state := .opened, source := source, priority := prio, mark := s.tbu.pic, cameras := c.cameras
      text := text } := congrArg (fun k : Clip => { k with text := text }) h.record

/-- `markIn_makes` for a MARK-IN with text. -/
theorem markIn_adds (hm : ClipsOk s.clm) (hkept : keptCameras cams s ≠ []) (hlen : s.clm.clips.length < 64) :
    ∃ (c : Clip) (u : State), MarkedIn source prio (keptCameras cams s) s u c ∧ markIn source cams prio text s =
      (.ok c.number, { s with pgc := u.pgc, clm := withRecord { c with text := text.take 48 } s.clm }) := by
  obtain ⟨c, u, hmark, hmarked, hu⟩ := markIn_makes source cams prio hm hkept hlen
  rw [markIn_newClip hkept hlen, Prod.mk.injEq] at hmark
  obtain ⟨-, hstate⟩ := hmark
  have hclm := congrArg State.clm (hstate.trans hu)
  simp only [withRecord, ClipMarker.mk.injEq, List.append_cancel_left_eq, List.cons.injEq, and_true] at hclm
  obtain ⟨hclip, hnext⟩ := hclm
  subst hclip
  refine ⟨_, u, hmarked, ?_⟩
  rw [markIn_newClip hkept hlen]
  refine Prod.ext rfl ?_
  have hadded := congrArg (fun v => { v with
    clm := withRecord { newClip source cams prio [] s with text := text.take 48 } s.clm }) (hstate.trans hu)
  refine Eq.trans ?_ hadded
  simp only [withRecord, ← hnext]
  rfl

/-- A MARK-IN in the place of the record acknowledged longest ago is one of the table that holds that record no more. -/
theorem markIn_room (hroom : makeRoom s = some { s with clm := m }) (hlen : m.clips.length < 64)
    (hpre : m.preRoll = s.clm.preRoll) (hkept : keptCameras cams s ≠ []) :
    markIn source cams prio text s = markIn source cams prio text { s with clm := m } := by
  have he : (keptCameras cams s).isEmpty = false := by simpa using hkept
  have hsame : keptCameras cams { s with clm := m } = keptCameras cams s := rfl
  simp only [markIn, hroom, hsame, he, makeRoom_free (s := { s with clm := m }) hlen, hpre, Bool.false_eq_true, if_false]

/-! ### The command (R125 to R127) -/

theorem markCameras_named {l : List Nat} (hcameras : f.cameras = some l) (hrange : ∀ c ∈ l, c ≤ 3) :
    ∃ cams, markCameras f = some cams ∧ ∀ q : Prog, cams.get q = true ↔ q.val ∈ l := by
  obtain ⟨cams, hset, hget⟩ := setOf_some (n := 4) fun c hc => Nat.lt_succ_of_le (hrange c hc)
  exact ⟨cams, by rw [markCameras, hcameras]; exact hset, fun q => by rw [hget, decide_eq_true_iff]⟩

theorem markValues_given (hprio : f.priority = none ∧ prio = .normal ∨ f.priority = some prio.code)
    (htext : text = f.text.getD []) (hprint : ∀ c ∈ text, 32 ≤ c.toNat ∧ c.toNat ≤ 126) : markValues f = some (prio, text) := by
  have hcode : Priority.ofCode (f.priority.getD 1) = some prio := by
    obtain ⟨hnone, rfl⟩ | hsome := hprio
    · rw [hnone]; rfl
    · rw [hsome]; exact Priority.ofCode_code prio
  simp only [markValues, hcode, Option.bind_some, ← htext, printable_all hprint, if_true]

theorem actingDesk_van {ref : ClipRef} (hdesk : ref.desk = some d.val) : actingDesk (.van i none) ref = some (some d) := by
  simp [actingDesk, hdesk, finOf]

theorem clipMarkIn_stopped (hdesk : f.ref.desk = some d.val) (hcams : markCameras f = some cams)
    (hkept : keptCameras cams s = []) :
    clipMarkIn (.van i none) f s = (s, { status := .refusedState }) := by
  simp only [clipMarkIn, hcams, actingDesk_van hdesk, markSource, Option.map_some, hkept, List.isEmpty_nil, if_true]

theorem clipMarkIn_runs (hdesk : f.ref.desk = some d.val) (hcams : markCameras f = some cams) (hkept : keptCameras cams s ≠ [])
    (hvalues : markValues f = some (prio, text)) :
    clipMarkIn (.van i none) f s = markInFor (some d) (.vanDesk d) cams prio text s := by
  have he : (keptCameras cams s).isEmpty = false := by simpa using hkept
  simp only [clipMarkIn, hcams, actingDesk_van hdesk, markSource, Option.map_some, he, hvalues, Bool.false_eq_true, if_false]

/-- The results of the MARK-IN that has made the record `c` (R127). -/
def markedResults (c : Clip) : List (Option (List Byte)) :=
  [some (beBytes 2 c.number), some (beBytes 4 c.mark.toNat), some (c.cameras.map fun k => byteOf k.prog.val),
    some (c.cameras.map inPointBytes).flatten]

theorem markedResults_eq {c : Clip} {kept : List Prog} {pic : Pic} (hkept : c.cameras.map (·.prog) = kept) (hpic : c.mark = pic) :
    markedResults c = [some (beBytes 2 c.number), some (beBytes 4 pic.toNat), some (kept.map fun p => byteOf p.val),
      some (c.cameras.map fun k => match k.inPoint with
        | some a => beBytes 4 a.pic.toNat ++ [if a.short then 2 else 1]
        | none => [0, 0, 0, 0, 3]).flatten] := by
  rw [← hkept, ← hpic, List.map_map, markedResults, funext inPointBytes_eq] <;> rfl

/-- The record just added is the one of its number. -/
theorem clipOf_added {c : Clip} (hclips : t.clm.clips = m.clips ++ [c]) (hfree : ∀ k ∈ m.clips, k.number ≠ c.number) :
    clipOf t c.number = some c := by
  have hnone : m.clips.find? (fun k => k.number == c.number) = none :=
    List.find?_eq_none.mpr fun k hk => by simpa using hfree k hk
  simp [clipOf, hclips, List.find?_append, hnone]

theorem markInFor_ok {c : Clip} (hmark : markIn source cams prio text s = (.ok c.number, t)) (hclip : clipOf t c.number = some c)
    (hpic : c.mark = s.tbu.pic) : markInFor (some d) source cams prio text s =
      (t.onClm fun m => { m with desks := m.desks.set d (some c.number) },
        { status := doneIf (decide (48 < text.length)), results := markedResults c }) := by
  have hdesk : clipOf (t.onClm fun m => { m with desks := m.desks.set d (some c.number) }) c.number = some c := hclip
  simp only [markInFor, hmark, hdesk, markedResults, hpic]
  rfl

/-- The clip table once desk `d` has marked the record `c` in. -/
def markedBy (d : Fin 8) (c : Clip) (m : ClipMarker) : ClipMarker :=
  { withRecord c m with desks := m.desks.set d (some c.number) }

theorem markInFor_makes (hm : ClipsOk m) (hlen : m.clips.length < 64) (hroom : makeRoom s = some { s with clm := m })
    (hpre : m.preRoll = s.clm.preRoll) (hkept : keptCameras cams s ≠ []) :
    ∃ (c : Clip) (u : State), MarkedIn source prio (keptCameras cams s) { s with clm := m } u c ∧
      markInFor (some d) source cams prio text s = ({ s with pgc := u.pgc, clm := markedBy d { c with text := text.take 48 } m },
        { status := doneIf (decide (48 < text.length)), results := markedResults c }) := by
  obtain ⟨c, u, hmarked, hmark⟩ := markIn_adds (text := text) (s := { s with clm := m }) hm hkept hlen
  refine ⟨c, u, hmarked, ?_⟩
  obtain ⟨hrecord, ⟨ahead, -, hfree, -⟩, -⟩ := hmarked
  exact markInFor_ok (c := { c with text := text.take 48 }) ((markIn_room hroom hlen hpre hkept).trans hmark)
    (clipOf_added rfl hfree) (congrArg Clip.mark hrecord)

/-! ### Its outcomes on the ring -/

theorem listsFit_clipMark {l : List Nat} {action : Nat} (hcameras : f.cameras = some l) (hlen : 1 ≤ l.length ∧ l.length ≤ 4) :
    listsFit (.clipMark action f) = true := by
  simp [listsFit, hcameras, hlen]

theorem exec_clipMarkIn_stopped (hr : VanReady h i s) (hfit : listsFit (.clipMark 1 f) = true) (hdesk : f.ref.desk = some d.val)
    (hcams : markCameras f = some cams) (hkept : keptCameras cams s = []) :
    exec (.clipMarkIn h f) s = .next { s with sri := ringReply s.sri h i 14 4 [] } := by
  have hperform : perform (headOf h (.clipMark 1 f)) (.clipMark 1 f) (atHead h (.clipMark 1 f) s) =
      (atHead h (.clipMark 1 f) s, { status := .refusedState }) := by
    show clipMarkIn h.src f _ = _
    rw [hr.2.1]
    exact clipMarkIn_stopped hdesk hcams hkept
  exact exec_refused rfl hr hperform hfit (by simp)

theorem exec_clipMarkIn_full (hr : VanReady h i s) (hfit : listsFit (.clipMark 1 f) = true) (hdesk : f.ref.desk = some d.val)
    (hcams : markCameras f = some cams) (hkept : keptCameras cams s ≠ []) (hvalues : markValues f = some (prio, text))
    (hlen : s.clm.clips.length = 64) (hacked : s.clm.acked = []) (hhome : s.cmu.noticesHome = false)
    (hroom : s.cmu.notices.length < 32) :
    exec (.clipMarkIn h f) s = .next { s with cmu := flagRaised .clipFull s, sri := ringReply s.sri h i 14 7 [] } := by
  have hperform : perform (headOf h (.clipMark 1 f)) (.clipMark 1 f) (atHead h (.clipMark 1 f) s) =
      (atHead h (.clipMark 1 f) { s with cmu := flagRaised .clipFull s }, { status := .refusedFull }) := by
    have hruns := clipMarkIn_runs (i := i) (s := atHead h (.clipMark 1 f) s) hdesk hcams hkept hvalues
    have hfull := markIn_full (source := .vanDesk d) (prio := prio) (text := text) (s := atHead h (.clipMark 1 f) s)
      hkept hlen hacked
    rw [raiseFlag_raised (s := atHead h (.clipMark 1 f) s) hhome hroom] at hfull
    show clipMarkIn h.src f _ = _
    rw [hr.2.1, hruns, markInFor, hfull]
    rfl
  rw [exec_van (u := { s with cmu := flagRaised .clipFull s }) rfl hr hperform hfit (by simp) hr.1.1 hr.1.2.1 hr.1.2.2]
  rfl

theorem makeRoom_atHead (c : Command) (s : State) : makeRoom (atHead h c s) = (makeRoom s).map (atHead h c) := by
  simp only [makeRoom, atHead_clm, apply_ite (Option.map (atHead h c)), Option.map_some]
  cases s.clm.acked <;> rfl

theorem exec_clipMarkIn_makes (hr : VanReady h i s) (hfit : listsFit (.clipMark 1 f) = true) (hdesk : f.ref.desk = some d.val)
    (hcams : markCameras f = some cams) (hkept : keptCameras cams s ≠ []) (hvalues : markValues f = some (prio, text))
    (hm : ClipsOk m) (hlen : m.clips.length < 64) (hroom : makeRoom s = some { s with clm := m })
    (hpre : m.preRoll = s.clm.preRoll) :
    ∃ (c : Clip) (u : State), MarkedIn (.vanDesk d) prio (keptCameras cams s) { s with clm := m } u c ∧
      exec (.clipMarkIn h f) s = .next { s with
        pgc := u.pgc
        clm := markedBy d { c with text := text.take 48 } m
        sri := ringReply s.sri h i 14 (doneCode (decide (48 < text.length))) (markedResults c) } := by
  obtain ⟨c, u, hmarked, hmakes⟩ := markInFor_makes (d := d) (source := .vanDesk d) (cams := cams) (prio := prio) (text := text)
    (s := atHead h (.clipMark 1 f) s) hm hlen ((makeRoom_atHead ..).trans (congrArg _ hroom)) hpre hkept
  refine ⟨c, u, hmarked.congr rfl rfl rfl rfl rfl, ?_⟩
  have hperform : perform (headOf h (.clipMark 1 f)) (.clipMark 1 f) (atHead h (.clipMark 1 f) s) =
      (atHead h (.clipMark 1 f) { s with pgc := u.pgc, clm := markedBy d { c with text := text.take 48 } m },
        { status := doneIf (decide (48 < text.length)), results := markedResults c }) := by
    have hruns := clipMarkIn_runs (i := i) (s := atHead h (.clipMark 1 f) s) hdesk hcams hkept hvalues
    show clipMarkIn h.src f _ = _
    rw [hr.2.1, hruns, hmakes]
    rfl
  rw [exec_van (u := { s with pgc := u.pgc, clm := markedBy d { c with text := text.take 48 } m }) rfl hr hperform hfit (by simp)
    hr.1.1 hr.1.2.1 hr.1.2.2, doneIf_code]
  rfl

end

/-- Settles O46: the cameras kept, and the record by the place that the table has for it. -/
theorem clipMarkIn_makesARecord : Obligations.ClipMarkIn_MakesARecord := by
  intro h i f d l prio text s hr hm hdesk hcameras hmin hmax hrange hprio htext hprint
  obtain ⟨cams, hcams, hget⟩ := markCameras_named hcameras hrange
  have hfit : listsFit (.clipMark 1 f) = true := listsFit_clipMark hcameras ⟨hmin, hmax⟩
  have hvalues := markValues_given hprio htext hprint
  refine ⟨keptCameras cams s, keptCameras_sorted cams s, fun p => by simp only [keptCameras_mem, hget],
    exec_clipMarkIn_stopped hr hfit hdesk hcams, fun hkept hlen hacked hhome hroom => ?_, fun m hkept hplace => ?_⟩
  · refine ⟨_, exec_clipMarkIn_full hr hfit hdesk hcams hkept hvalues hlen hacked hhome hroom, ?_, rfl⟩
    have hset := raiseFlag_sets .clipFull s
    rw [raiseFlag_raised hhome hroom] at hset
    exact hset
  · obtain ⟨hroom, hnext, hpre⟩ := makeRoom_place hplace
    obtain ⟨hok, hlen⟩ := ClipsOk.makeRoom hm hroom
    obtain ⟨c, u, hmarked, hexec⟩ := exec_clipMarkIn_makes hr hfit hdesk hcams hkept hvalues hok hlen hroom hpre
    have hclip := hmarked.withText (text.take 48)
    obtain ⟨hrecord, ⟨ahead, hnumber, hfree, hheld⟩, hkeptCams, hplaced, hmarks, hformats⟩ := hmarked
    rw [hnext] at hnumber hheld
    rw [hpre] at hplaced
    refine ⟨_, c.number, ahead, c.cameras, hexec, hnumber, hfree, hheld, hkeptCams, hplaced, hmarks, hformats, ?_⟩
    rw [markedResults_eq hkeptCams (congrArg Clip.mark hrecord), hclip]
    rfl

end Sys2Proof.Machine
end

section
/-! PROOF. CLIP-MARK OUT, EXTEND and CANCEL of the control stream (R125, R131 to R135, R142). -/

namespace Sys2Proof.Machine

section
variable {h : Hdr} {i : RingStream} {f : MarkFields} {s t u : State} {c d : Clip} {n : Nat} {e : Pic}

/-! ### One record of the table replaced -/

/-- The table with `d` in the place of the record of its number. -/
def putClip (d : Clip) (s : State) : State :=
  { s with clm := { s.clm with clips := s.clm.clips.map fun k => if k.number = d.number then d else k } }

theorem onClip_putClip (hm : ClipsOk s.clm) (hc : c ∈ s.clm.clips) {g : Clip → Clip} (hg : (g c).number = c.number) :
    onClip c.number g s = putClip (g c) s := by
  rw [onClip_put hm hc, putClip, hg]

theorem putClip_clipsOk (hm : ClipsOk s.clm) (d : Clip) : ClipsOk (putClip d s).clm :=
  hm.map (fun k => if k.number = d.number then d else k) (fun k => by split <;> simp_all) s.clm.tally

theorem mem_putClip (hc : c ∈ s.clm.clips) (hd : d.number = c.number) : d ∈ (putClip d s).clm.clips :=
  List.mem_map.mpr ⟨c, hc, if_pos hd.symm⟩

theorem clipOf_putClip (hm : ClipsOk s.clm) (hc : c ∈ s.clm.clips) (hd : d.number = c.number) :
    clipOf (putClip d s) d.number = some d := clipOf_mem (putClip_clipsOk hm d) (mem_putClip hc hd)

theorem putClip_putClip (d d' : Clip) (hd : d.number = d'.number) (s : State) : putClip d' (putClip d s) = putClip d' s := by
  simp only [putClip, List.map_map]
  congr 2
  refine List.map_congr_left fun k _ => ?_
  by_cases hk : k.number = d'.number <;> simp [hk, hd]

theorem dead_of (hstate : c.state = .closed ∨ c.state = .sent ∨ c.state = .acked) : c.live = false := by
  obtain hstate | hstate | hstate := hstate <;> rw [Clip.live, hstate] <;> rfl

/-! ### A record marked out (R131) -/

theorem markOut_opened (hclip : clipOf s n = some c) (hstate : c.state = .opened) : markOut n s = some (startPostRoll n s) := by
  simp only [markOut, hclip, Option.bind_some, hstate]

theorem markOut_postRoll (hclip : clipOf s n = some c) (hstate : c.state = .postRoll) : markOut n s = some s := by
  simp only [markOut, hclip, Option.bind_some, hstate]

theorem markOut_past (hclip : clipOf s n = some c)
    (hstate : c.state = .closing ∨ c.state = .closed ∨ c.state = .sent ∨ c.state = .acked) : markOut n s = none := by
  obtain hstate | hstate | hstate | hstate := hstate <;> simp only [markOut, hclip, Option.bind_some, hstate]

/-! ### The post-roll that starts, and the record that closes (R131 to R133, R142) -/

/-- The record in POST-ROLL with a whole count. -/
def Clip.rolling (count : Nat) (c : Clip) : Clip := { c with state := .postRoll, count := count }

/-- The record CLOSING, its in-points not all placed. -/
def Clip.closingAt (e : Pic) (c : Clip) : Clip := { c with state := .closing, count := 0, expiry := some e }

/-- The record CLOSED on a picture that no in-point passes. -/
def Clip.closedAt (e : Pic) (c : Clip) : Clip := { c with state := .closed, count := 0, expiry := none, outPoint := some e }

theorem runOut_pending (hm : ClipsOk s.clm) (hc : c ∈ s.clm.clips) (hpending : ∃ k ∈ c.cameras, k.inPoint = none) :
    runOut c.number s = putClip (c.closingAt (s.tbu.pic - 1)) s := by
  have hresolved : c.resolved = false := by simpa [Clip.resolved] using hpending
  simp only [runOut, clipOf_mem hm hc, hresolved, Bool.false_eq_true, if_false]
  exact onClip_putClip hm hc rfl

theorem runOut_closes (hm : ClipsOk s.clm) (hc : c ∈ s.clm.clips) (hplaced : ∀ k ∈ c.cameras, ∃ a, k.inPoint = some a) :
    runOut c.number s = closeClip c.number (s.tbu.pic - 1) s := by
  have hresolved : c.resolved = true := List.all_eq_true.mpr fun k hk => by
    obtain ⟨a, ha⟩ := hplaced k hk
    rw [ha]; rfl
  simp only [runOut, clipOf_mem hm hc, hresolved, if_true]

/-- The table in which the record's label asks for its block. -/
def closedIn (e : Pic) (c : Clip) (s : State) : State :=
  (putClip (c.closedAt e) s).onClm fun m => { m with waiting := s.clm.waiting ++ [c.number] }

theorem closeClip_placed (hm : ClipsOk s.clm) (hc : c ∈ s.clm.clips)
    (hplaced : ∀ k ∈ c.cameras, ∃ a, k.inPoint = some a ∧ (e - a.pic).toNat ≤ 2147483647) :
    closeClip c.number e s = if s.clm.waiting.isEmpty then (requestLabel (closedIn e c s)).2 else closedIn e c s := by
  have hout : c.inPoints.foldl laterPic e = e := later_e c.cameras e hplaced
  simp only [closeClip]
  rw [onClip_putClip hm hc rfl, hout]
  rfl

/-- The record closed and its label, in block `b`, queued. -/
def delivered (e : Pic) (c : Clip) (b : Nat) (free : List Nat) (s : State) : State :=
  { putClip (c.closedAt e) s with
    pkp := { s.pkp with
      free := free
      owners := s.pkp.owners.modify Owner.labelReply.idx fun r => { r with count := r.count + 1 }
      label := s.pkp.label ++ [labelPacket s.tbu (c.closedAt e) [b]] } }

/-- The label of the record just closed, alone in its order, is granted its block and queued (R142). -/
theorem requestLabel_granted {b : Nat} {free : List Nat} (hm : ClipsOk s.clm) (hc : c ∈ s.clm.clips) (hnone : s.clm.waiting = [])
    (hfree : s.pkp.free = b :: free)
    (hcap : (s.pkp.owners.get Owner.labelReply.idx).count < (s.pkp.owners.get Owner.labelReply.idx).cap) :
    (requestLabel (closedIn e c s)).2 = oweAll (delivered e c b free s) := by
  have hgrant := request_granted (o := .labelReply) (n := 1) (s := closedIn e c s)
    (by show 1 ≤ s.pkp.free.length; rw [hfree]; simp) hcap
  have hfront : (closedIn e c s).clm.waiting = [c.number] := by
    show s.clm.waiting ++ [c.number] = _
    rw [hnone]; rfl
  have hclip : clipOf (closedIn e c s) c.number = some (c.closedAt e) := clipOf_putClip (d := c.closedAt e) hm hc rfl
  simp only [requestLabel, hfront, hgrant, State.onClm, hclip]
  simp only [closedIn, delivered, putClip, State.onClm, hfree, hnone]
  rfl

theorem startPostRoll_counts (hm : ClipsOk s.clm) (hc : c ∈ s.clm.clips) (hroll : s.clm.postRoll ≠ 0) :
    startPostRoll c.number s = putClip (c.rolling s.clm.postRoll) s := by
  simp only [startPostRoll, if_neg hroll]
  exact onClip_putClip hm hc rfl

theorem startPostRoll_runsOut (hm : ClipsOk s.clm) (hc : c ∈ s.clm.clips) (hroll : s.clm.postRoll = 0) :
    startPostRoll c.number s = runOut c.number (putClip (c.rolling 0) s) := by
  simp only [startPostRoll, hroll]
  rw [onClip_putClip hm hc rfl]
  rfl

theorem startPostRoll_pending (hm : ClipsOk s.clm) (hc : c ∈ s.clm.clips) (hroll : s.clm.postRoll = 0)
    (hpending : ∃ k ∈ c.cameras, k.inPoint = none) :
    startPostRoll c.number s = putClip (c.closingAt (s.tbu.pic - 1)) s := by
  have hout := runOut_pending (c := c.rolling 0) (putClip_clipsOk hm _) (mem_putClip hc rfl) hpending
  rw [startPostRoll_runsOut hm hc hroll]
  exact hout.trans (putClip_putClip (c.rolling 0) (c.closingAt (s.tbu.pic - 1)) rfl s)

theorem startPostRoll_closes (hm : ClipsOk s.clm) (hc : c ∈ s.clm.clips) (hroll : s.clm.postRoll = 0)
    (hplaced : ∀ k ∈ c.cameras, ∃ a, k.inPoint = some a ∧ (s.tbu.pic - 1 - a.pic).toNat ≤ 2147483647) :
    startPostRoll c.number s = closeClip c.number (s.tbu.pic - 1) (putClip (c.rolling 0) s) := by
  rw [startPostRoll_runsOut hm hc hroll]
  exact runOut_closes (c := c.rolling 0) (putClip_clipsOk hm _) (mem_putClip hc rfl) fun k hk =>
    (hplaced k hk).imp fun _ ha => ha.1

theorem closedIn_rolling : closedIn e (c.rolling 0) (putClip (c.rolling 0) s) = closedIn e c s := by
  have hput := putClip_putClip (c.rolling 0) (c.closedAt e) rfl s
  exact congrArg (fun v => v.onClm fun m => { m with waiting := s.clm.waiting ++ [c.number] }) hput

/-- With the setting 0, a record whose in-points are placed closes: behind other labels that wait, its own waits too. -/
theorem startPostRoll_joins (hm : ClipsOk s.clm) (hc : c ∈ s.clm.clips) (hroll : s.clm.postRoll = 0)
    (hplaced : ∀ k ∈ c.cameras, ∃ a, k.inPoint = some a ∧ (s.tbu.pic - 1 - a.pic).toNat ≤ 2147483647)
    (hwait : s.clm.waiting ≠ []) :
    startPostRoll c.number s = closedIn (s.tbu.pic - 1) c s := by
  have hclose := closeClip_placed (c := c.rolling 0) (putClip_clipsOk hm (c.rolling 0)) (mem_putClip hc rfl) hplaced
  have hempty : (putClip (c.rolling 0) s).clm.waiting.isEmpty = false := by
    show s.clm.waiting.isEmpty = false
    simpa using hwait
  rw [closedIn_rolling, if_neg (by rw [hempty]; simp)] at hclose
  exact (startPostRoll_closes hm hc hroll hplaced).trans hclose

/-- With the setting 0, a record whose in-points are placed closes: where no other label waits, its own is queued. -/
theorem startPostRoll_delivers {b : Nat} {free : List Nat} (hm : ClipsOk s.clm) (hc : c ∈ s.clm.clips)
    (hroll : s.clm.postRoll = 0)
    (hplaced : ∀ k ∈ c.cameras, ∃ a, k.inPoint = some a ∧ (s.tbu.pic - 1 - a.pic).toNat ≤ 2147483647)
    (hnone : s.clm.waiting = []) (hfree : s.pkp.free = b :: free)
    (hcap : (s.pkp.owners.get Owner.labelReply.idx).count < (s.pkp.owners.get Owner.labelReply.idx).cap) :
    startPostRoll c.number s = oweAll (delivered (s.tbu.pic - 1) c b free s) := by
  have hclose := closeClip_placed (c := c.rolling 0) (putClip_clipsOk hm (c.rolling 0)) (mem_putClip hc rfl) hplaced
  rw [closedIn_rolling, if_pos (by show s.clm.waiting.isEmpty = true; rw [hnone]; rfl)] at hclose
  exact ((startPostRoll_closes hm hc hroll hplaced).trans hclose).trans (requestLabel_granted hm hc hnone hfree hcap)

/-! ### The record that a CLIP-MARK acts on (R125) -/

/-- The fields of a CLIP-MARK are in range. -/
structure FieldsOk (f : MarkFields) : Prop where
  fits : ∀ action, listsFit (.clipMark action f) = true
  cameras : ∃ cams, markCameras f = some cams
  values : (markValues f).isSome = true

theorem fieldsOk_of (hcameras : f.cameras = none ∨ ∃ l, f.cameras = some l ∧ 1 ≤ l.length ∧ l.length ≤ 4 ∧ ∀ c ∈ l, c ≤ 3)
    (hprio : f.priority = none ∨ f.priority = some 1 ∨ f.priority = some 2)
    (htext : ∀ t, f.text = some t → ∀ c ∈ t, 32 ≤ c.toNat ∧ c.toNat ≤ 126) : FieldsOk f := by
  have hprint : ∀ c ∈ f.text.getD [], 32 ≤ c.toNat ∧ c.toNat ≤ 126 := by
    cases hf : f.text with
    | none => simp
    | some t => exact htext t hf
  have hvalues : (markValues f).isSome = true := by
    obtain hprio | hprio | hprio := hprio
    · rw [markValues_given (.inl ⟨hprio, rfl⟩) rfl hprint]; rfl
    · rw [markValues_given (prio := .normal) (.inr hprio) rfl hprint]; rfl
    · rw [markValues_given (prio := .hot) (.inr hprio) rfl hprint]; rfl
  obtain hnone | ⟨l, hsome, hmin, hmax, hrange⟩ := hcameras
  · exact ⟨fun _ => by simp [listsFit, hnone], ⟨_, by rw [markCameras, hnone]; rfl⟩, hvalues⟩
  · obtain ⟨cams, hcams, -⟩ := markCameras_named hsome hrange
    exact ⟨fun _ => listsFit_clipMark hsome ⟨hmin, hmax⟩, ⟨cams, hcams⟩, hvalues⟩

/-- A CLIP-MARK of a control stream names the record `c` of the table. -/
structure NamesClip (i : RingStream) (ref : ClipRef) (s : State) (c : Clip) : Prop where
  named : recordOf (.van i none) ref s = some c.number
  stands : clipOf s c.number = some c

theorem namesClip_of {ref : ClipRef} (hm : ClipsOk s.clm) (hc : c ∈ s.clm.clips)
    (hnamed : (ref.desk = none ∨ ∃ d : Fin 8, ref.desk = some d.val) ∧
      (ref.clip = some c.number ∨ ref.clip = none ∧ ∃ d : Fin 8, ref.desk = some d.val ∧ s.clm.desks.get d = some c.number)) :
    NamesClip i ref s c := ⟨record_some hm rfl hc hnamed, clipOf_mem hm hc⟩

theorem NamesClip.atHead {ref : ClipRef} (hn : NamesClip i ref s c) (h : Hdr) (m : Command) : NamesClip i ref (atHead h m s) c :=
  ⟨hn.named, hn.stands⟩

theorem markRecord_none (act : Clip → Option (State × Reply)) (hf : FieldsOk f) (hnone : recordOf (.van i none) f.ref s = none) :
    markRecord (.van i none) f act s = (s, { status := .refusedRange }) := by
  obtain ⟨cams, hcams⟩ := hf.cameras
  simp only [markRecord, hcams, hnone, Option.bind_none]

theorem markRecord_names (act : Clip → Option (State × Reply)) (hf : FieldsOk f) (hn : NamesClip i f.ref s c) :
    markRecord (.van i none) f act s = (act c).getD (s, { status := .refusedState }) := by
  obtain ⟨cams, hcams⟩ := hf.cameras
  simp only [markRecord, hcams, hn.named, Option.bind_some, hn.stands, hf.values, if_true]
  cases act c <;> rfl

/-! ### The three commands (R131, R132, R135) -/

theorem clipMarkOut_done (hf : FieldsOk f) (hn : NamesClip i f.ref s c) (hmark : markOut c.number s = some t)
    (hclip : clipOf t c.number = some d) {code : Byte} (hcode : byteOf d.state.code = code) :
    clipMarkOut (.van i none) f s = (t, { status := .done, results := [some (beBytes 2 c.number), some [code]] }) := by
  rw [clipMarkOut, markRecord_names _ hf hn, hmark]
  simp only [Option.map_some, Option.getD_some, hclip, beBytes_one, hcode]

theorem clipMarkOut_refused (hf : FieldsOk f) (hn : NamesClip i f.ref s c) (hmark : markOut c.number s = none) :
    clipMarkOut (.van i none) f s = (s, { status := .refusedState }) := by
  rw [clipMarkOut, markRecord_names _ hf hn, hmark]
  rfl

theorem clipMarkExtend_opened (hf : FieldsOk f) (hn : NamesClip i f.ref s c) (hstate : c.state = .opened) :
    clipMarkExtend (.van i none) f s = (s, { status := .done }) := by
  rw [clipMarkExtend, markRecord_names _ hf hn, hstate]
  rfl

theorem clipMarkExtend_postRoll (hf : FieldsOk f) (hn : NamesClip i f.ref s c) (hstate : c.state = .postRoll) :
    clipMarkExtend (.van i none) f s = (startPostRoll c.number s, { status := .done }) := by
  rw [clipMarkExtend, markRecord_names _ hf hn, hstate]
  rfl

theorem clipMarkExtend_refused (hf : FieldsOk f) (hn : NamesClip i f.ref s c)
    (hstate : c.state = .closing ∨ c.state = .closed ∨ c.state = .sent ∨ c.state = .acked) :
    clipMarkExtend (.van i none) f s = (s, { status := .refusedState }) := by
  rw [clipMarkExtend, markRecord_names _ hf hn]
  obtain hstate | hstate | hstate | hstate := hstate <;> rw [hstate] <;> rfl

theorem clipMarkCancel_live (hf : FieldsOk f) (hn : NamesClip i f.ref s c) (hlive : c.live = true) :
    clipMarkCancel (.van i none) f s =
      (freeClip c.number s, { status := .done, results := [some (beBytes 2 c.number)] }) := by
  rw [clipMarkCancel, markRecord_names _ hf hn, if_pos hlive]
  rfl

theorem clipMarkCancel_refused (hf : FieldsOk f) (hn : NamesClip i f.ref s c) (hlive : c.live = false) :
    clipMarkCancel (.van i none) f s = (s, { status := .refusedState }) := by
  rw [clipMarkCancel, markRecord_names _ hf hn, hlive]
  rfl

/-! ### Their outcomes on the ring -/

section
variable {row : Instr} {action : Nat} {status : Status} {results : List (Option (List Byte))} {code : Byte}

/-- A CLIP-MARK that finds its way free and asks for no take attempt, by what the Clip Marker makes of it. -/
theorem exec_clipMark (hrow : messageOf row = some (h, .clipMark action f)) (hr : VanReady h i s) (hf : FieldsOk f) (hq : Quiet u)
    (hmark : clipMark (.van i none) action f (atHead h (.clipMark action f) s) =
      (atHead h (.clipMark action f) u, { status := status, results := results }))
    (hcode : byteOf status.code = code) :
    exec row s = .next { u with sri := ringReply u.sri h i 14 code results } := by
  have hperform : perform (headOf h (.clipMark action f)) (.clipMark action f) (atHead h (.clipMark action f) s) =
      (atHead h (.clipMark action f) u, { status := status, results := results }) := by
    show clipMark h.src action f _ = _
    rw [hr.2.1, hmark]
  rw [exec_van hrow hr hperform (hf.fits action) (by simp) hq.1 hq.2.1 hq.2.2, hcode]
  rfl

/-- `exec_clipMark` where a label that was queued asks for takes, and no link can take. -/
theorem exec_clipMark_owed (hrow : messageOf row = some (h, .clipMark action f)) (hr : VanReady h i s) (hf : FieldsOk f)
    (hq : Quiet u) (hlinks : NoLinkTakes u)
    (hmark : clipMark (.van i none) action f (atHead h (.clipMark action f) s) =
      (oweAll (atHead h (.clipMark action f) u), { status := status, results := results }))
    (hcode : byteOf status.code = code) :
    exec row s = .next { u with sri := ringReply u.sri h i 14 code results } := by
  have hperform : perform (headOf h (.clipMark action f)) (.clipMark action f) (atHead h (.clipMark action f) s) =
      (oweAll (atHead h (.clipMark action f) u), { status := status, results := results }) := by
    show clipMark h.src action f _ = _
    rw [hr.2.1, hmark]
  rw [exec_message hrow, van_owed hr hperform (hf.fits action) (by simp) hlinks hq.1 hq.2.1 hq.2.2, hcode]
  rfl

end

/-- A CLIP-MARK that names no record (R125). -/
theorem exec_clipMark_none (hr : VanReady h i s) (hf : FieldsOk f) (hnone : recordOf (.van i none) f.ref s = none) :
    exec (.clipMarkOut h f) s = .next { s with sri := ringReply s.sri h i 14 5 [] } ∧
    exec (.clipMarkExtend h f) s = .next { s with sri := ringReply s.sri h i 14 5 [] } ∧
    exec (.clipMarkCancel h f) s = .next { s with sri := ringReply s.sri h i 14 5 [] } :=
  ⟨exec_clipMark (u := s) (action := 2) rfl hr hf hr.1 (markRecord_none _ hf hnone) rfl,
    exec_clipMark (u := s) (action := 3) rfl hr hf hr.1 (markRecord_none _ hf hnone) rfl,
    exec_clipMark (u := s) (action := 4) rfl hr hf hr.1 (markRecord_none _ hf hnone) rfl⟩

/-- A CLIP-MARK OUT that moves its record on. -/
theorem exec_clipMarkOut (hr : VanReady h i s) (hf : FieldsOk f) (hn : NamesClip i f.ref s c) (hq : Quiet u)
    (hmark : markOut c.number (atHead h (.clipMark 2 f) s) = some (atHead h (.clipMark 2 f) u))
    (hclip : clipOf u c.number = some d) {code : Byte} (hcode : byteOf d.state.code = code) :
    exec (.clipMarkOut h f) s = .next { u with
      sri := ringReply u.sri h i 14 1 [some (beBytes 2 c.number), some [code]] } :=
  exec_clipMark (u := u) (action := 2) rfl hr hf hq (clipMarkOut_done hf (hn.atHead h _) hmark hclip hcode) rfl

/-- A CLIP-MARK OUT that closes its record and queues its label, where no link can take. -/
theorem exec_clipMarkOut_delivers (hr : VanReady h i s) (hf : FieldsOk f) (hn : NamesClip i f.ref s c) (hq : Quiet u)
    (hlinks : NoLinkTakes u)
    (hmark : markOut c.number (atHead h (.clipMark 2 f) s) = some (oweAll (atHead h (.clipMark 2 f) u)))
    (hclip : clipOf u c.number = some d) {code : Byte} (hcode : byteOf d.state.code = code) :
    exec (.clipMarkOut h f) s = .next { u with
      sri := ringReply u.sri h i 14 1 [some (beBytes 2 c.number), some [code]] } :=
  exec_clipMark_owed (u := u) (action := 2) rfl hr hf hq hlinks (clipMarkOut_done hf (hn.atHead h _) hmark hclip hcode) rfl

/-- A CLIP-MARK EXTEND of a record in POST-ROLL, under a setting above 0. -/
theorem exec_clipMarkExtend_restarts (hr : VanReady h i s) (hf : FieldsOk f) (hm : ClipsOk s.clm) (hc : c ∈ s.clm.clips)
    (hn : NamesClip i f.ref s c) (hstate : c.state = .postRoll) (hroll : s.clm.postRoll ≠ 0) :
    exec (.clipMarkExtend h f) s = .next { putClip { c with count := s.clm.postRoll } s with
      sri := ringReply s.sri h i 14 1 [] } := by
  have hextend := clipMarkExtend_postRoll hf (hn.atHead h (.clipMark 3 f)) hstate
  have hrolling : c.rolling s.clm.postRoll = { c with count := s.clm.postRoll } := by rw [Clip.rolling, ← hstate]
  rw [startPostRoll_counts (s := atHead h (.clipMark 3 f) s) hm hc hroll, atHead_clm, hrolling] at hextend
  exact exec_clipMark (row := .clipMarkExtend h f) (u := putClip { c with count := s.clm.postRoll } s) rfl hr hf
    (quiet_of hr.1 rfl rfl rfl) hextend rfl

/-- A CLIP-MARK CANCEL of a live record. -/
theorem exec_clipMarkCancel_frees (hr : VanReady h i s) (hf : FieldsOk f) (hn : NamesClip i f.ref s c) (hlive : c.live = true) :
    exec (.clipMarkCancel h f) s = .next { freeClip c.number s with
      sri := ringReply s.sri h i 14 1 [some (beBytes 2 c.number)] } :=
  exec_clipMark (row := .clipMarkCancel h f) (u := freeClip c.number s) rfl hr hf (quiet_of hr.1 rfl rfl rfl)
    (clipMarkCancel_live hf (hn.atHead h _) hlive) rfl

end

/-- Settles O47: the record named, by its state; an OUT under a post-roll of 0 by its in-points and the labels that wait. -/
theorem clipMarkOutExtendCancel_actOnTheRecord : Obligations.ClipMarkOutExtendCancel_ActOnTheRecord := by
  intro h i f s hr hm hcameras hprio htext names hnames
  have hf := fieldsOk_of hcameras hprio htext
  refine ⟨fun hnone reply hreply => ?_, fun c hc hname n put hnumber hput => ?_⟩
  · subst hreply
    exact exec_clipMark_none hr hf (record_none rfl fun c hc hn => hnone c hc ((hnames _).mpr hn))
  · subst hnumber
    have hn := namesClip_of (i := i) hm hc ((hnames _).mp hname)
    have hq : ∀ d, Quiet (putClip d s) := fun d => quiet_of hr.1 rfl rfl rfl
    simp only [hput]
    have hopened : c.state = .opened → markOut c.number (atHead h (.clipMark 2 f) s) =
        some (startPostRoll c.number (atHead h (.clipMark 2 f) s)) := markOut_opened (hn.atHead h _).stands
    refine ⟨fun hstate hroll => ?_, fun hstate hroll hpending => ?_, fun hstate hroll hplaced closed hclosed => ⟨fun hwait => ?_,
      fun b free hnone hlinks hfree hcap => ?_⟩, fun hstate => ⟨?_, fun hroll => ?_⟩, fun hstate => ?_, fun hstate => ?_,
      fun hstate => ⟨?_, ?_⟩, fun hstate => ?_⟩
    · have hmark := (hopened hstate).trans (congrArg some (startPostRoll_counts hm hc hroll))
      exact exec_clipMarkOut (u := putClip (c.rolling s.clm.postRoll) s) hr hf hn (hq _) hmark (clipOf_putClip hm hc rfl) rfl
    · have hmark := (hopened hstate).trans (congrArg some (startPostRoll_pending hm hc hroll hpending))
      exact exec_clipMarkOut (u := putClip (c.closingAt (s.tbu.pic - 1)) s) hr hf hn (hq _) hmark (clipOf_putClip hm hc rfl) rfl
    · subst hclosed
      have hmark := (hopened hstate).trans (congrArg some (startPostRoll_joins hm hc hroll hplaced hwait))
      exact exec_clipMarkOut (u := closedIn (s.tbu.pic - 1) c s) hr hf hn (quiet_of hr.1 rfl rfl rfl) hmark
        (clipOf_putClip (d := c.closedAt (s.tbu.pic - 1)) hm hc rfl) rfl
    · subst hclosed
      have hmark := (hopened hstate).trans (congrArg some (startPostRoll_delivers hm hc hroll hplaced hnone hfree hcap))
      exact exec_clipMarkOut_delivers (u := delivered (s.tbu.pic - 1) c b free s) hr hf hn (quiet_of hr.1 rfl rfl rfl) hlinks
        hmark (clipOf_putClip (d := c.closedAt (s.tbu.pic - 1)) hm hc rfl) rfl
    · have hmark := markOut_postRoll (hn.atHead h (.clipMark 2 f)).stands hstate
      exact exec_clipMarkOut (u := s) hr hf hn hr.1 hmark hn.stands (by rw [hstate]; rfl)
    · exact exec_clipMarkExtend_restarts hr hf hm hc hn hstate hroll
    · exact exec_clipMark (u := s) (action := 3) rfl hr hf hr.1 (clipMarkExtend_opened hf (hn.atHead h _) hstate) rfl
    · rw [exec_clipMarkCancel_frees hr hf hn ((live_iff c).mpr hstate), freeClip_eq]
    · have hpast := markOut_past (hn.atHead h (.clipMark 2 f)).stands hstate
      exact exec_clipMark (u := s) (action := 2) rfl hr hf hr.1 (clipMarkOut_refused hf (hn.atHead h _) hpast) rfl
    · exact exec_clipMark (u := s) (action := 3) rfl hr hf hr.1 (clipMarkExtend_refused hf (hn.atHead h _) hstate) rfl
    · exact exec_clipMark (u := s) (action := 4) rfl hr hf hr.1 (clipMarkCancel_refused hf (hn.atHead h _) (dead_of hstate)) rfl

end Sys2Proof.Machine
end

section
/-! PROOF. CLIP-LABEL, CLIP-QUERY and CLIP-SETTINGS of the control stream (R125, R136 to R138). -/

namespace Sys2Proof.Machine

section
variable {h : Hdr} {i : RingStream} {ref : ClipRef} {text : List Byte} {f : ClipSettingsFields} {s u : State} {c : Clip}

/-! ### CLIP-LABEL (R136) -/

theorem clipLabel_none (text : Option (List Byte)) (hnone : recordOf (.van i none) ref s = none) :
    clipLabel (.van i none) ref text s = (s, { status := .refusedRange }) := by
  simp only [clipLabel, hnone, Option.bind_none]

theorem clipLabel_dead (hn : NamesClip i ref s c) (hlive : c.live = false) (text : Option (List Byte)) :
    clipLabel (.van i none) ref text s = (s, { status := .refusedState }) := by
  simp only [clipLabel, hn.named, Option.bind_some, hn.stands, hlive, Bool.not_false, if_true]

theorem clipLabel_kept (hn : NamesClip i ref s c) (hlive : c.live = true) :
    clipLabel (.van i none) ref none s = (s, { status := .done }) := by
  simp [clipLabel, hn.named, hn.stands, hlive]

theorem clipLabel_unprintable (hn : NamesClip i ref s c) (hlive : c.live = true)
    (hprint : ∃ b ∈ text, b.toNat < 32 ∨ 126 < b.toNat) :
    clipLabel (.van i none) ref (some text) s = (s, { status := .refusedRange }) := by
  simp [clipLabel, hn.named, hn.stands, hlive, printable_not hprint]

theorem clipLabel_replaced (hm : ClipsOk s.clm) (hc : c ∈ s.clm.clips) (hn : NamesClip i ref s c) (hlive : c.live = true)
    (hprint : ∀ b ∈ text, 32 ≤ b.toNat ∧ b.toNat ≤ 126) :
    clipLabel (.van i none) ref (some text) s =
      (putClip { c with text := text.take 48 } s, { status := doneIf (decide (48 < text.length)) }) := by
  have hput : onClip c.number (fun k => { k with text := text.take 48 }) s = putClip { c with text := text.take 48 } s :=
    onClip_putClip hm hc rfl
  simp only [clipLabel, hn.named, Option.bind_some, hn.stands, hlive, Option.getD_some, printable_all hprint, Config.labelChars,
    hput, Bool.not_true, Bool.false_eq_true, if_false]
  rfl

/-! ### CLIP-QUERY (R138) -/

theorem clipQuery_names (hn : NamesClip i ref s c) :
    clipQuery (.van i none) ref s = (s, { status := .done, results := clipResults c }) := by
  have hfield : ¬ (ref.clip = none ∧ ref.desk = none) := fun ⟨hclip, hdesk⟩ => by
    have hnamed := hn.named
    simp [recordOf, actingDesk, hclip, hdesk] at hnamed
  simp only [clipQuery, if_neg hfield, hn.named, Option.bind_some, hn.stands]

theorem clipQuery_none (hfield : ref ≠ {}) (hnone : recordOf (.van i none) ref s = none) :
    clipQuery (.van i none) ref s = (s, { status := .refusedRange }) := by
  have hsome : ¬ (ref.clip = none ∧ ref.desk = none) := fun ⟨hclip, hdesk⟩ => hfield (by cases ref; simp_all)
  simp only [clipQuery, if_neg hsome, hnone, Option.bind_none]

theorem clipQuery_table {l : List Clip} (hm : ClipsOk s.clm) (hperm : l.Perm s.clm.clips)
    (hsorted : (l.map (·.number)).Pairwise (· < ·)) : clipQuery (.van i none) {} s = (s, { status := .done, results :=
      [some (l.map fun c => beBytes 2 c.number ++ [byteOf c.state.code]).flatten] }) := by
  simp only [clipQuery, sort_eq hperm hsorted hm.distinct, and_self, if_true, beBytes_one]

/-- The fields of a record, byte by byte. -/
theorem clipResults_eq (c : Clip) : clipResults c = [some (beBytes 2 c.number), some [byteOf c.state.code],
    some [byteOf c.source.codes.1, byteOf c.source.codes.2], some [byteOf c.priority.code],
    some (beBytes 4 c.mark.toNat), some (c.cameras.map fun k => byteOf k.prog.val),
    some (c.cameras.map fun k => match k.inPoint with
      | some a => beBytes 4 a.pic.toNat ++ [if a.short then 2 else 1]
      | none => [0, 0, 0, 0, 3]).flatten,
    if c.state = .postRoll then some [byteOf c.count] else none, c.expiry.map fun e => beBytes 4 e.toNat,
    c.outPoint.map fun o => beBytes 4 o.toNat, some c.text, c.ackTick.map fun t => beBytes 4 t.toNat] := by
  simp only [clipResults, beBytes_one, funext inPointBytes_eq] <;> rfl

/-! ### CLIP-SETTINGS (R137) -/

theorem priority_ofCode_none {v : Nat} (h1 : v ≠ 1) (h2 : v ≠ 2) : Priority.ofCode v = none := by
  unfold Priority.ofCode
  split <;> simp_all

theorem clipSettings_choiceless
    (hchoice : (∃ v, f.autoMark = some v ∧ v ≠ 1 ∧ v ≠ 2) ∨ ∃ v, f.tallyPriority = some v ∧ v ≠ 1 ∧ v ≠ 2) :
    clipSettings f s = (s, { status := .refusedRange }) := by
  obtain ⟨v, hauto, h1, h2⟩ | ⟨v, hprio, h1, h2⟩ := hchoice
  · have hnone : onOffOfCode v = none := onOffOfCode_none (by omega)
    simp only [clipSettings, hauto, Option.getD_some, hnone]
  · simp only [clipSettings, hprio, Option.getD_some, priority_ofCode_none h1 h2]
    split <;> simp_all

/-- The choice that an auto-mark field makes, or the one that stands. -/
theorem autoMark_given {auto : Bool}
    (h : f.autoMark = none ∧ auto = s.clm.autoMark ∨ f.autoMark = some (if auto then 1 else 2)) :
    onOffOfCode (f.autoMark.getD (onOff s.clm.autoMark)) = some auto := by
  obtain ⟨hnone, rfl⟩ | hsome := h
  · rw [hnone]; exact onOffOfCode_onOff _
  · rw [hsome]; cases auto <;> rfl

theorem tallyPriority_given {prio : Priority}
    (h : f.tallyPriority = none ∧ prio = s.clm.tallyPriority ∨ f.tallyPriority = some (if prio = .normal then 1 else 2)) :
    Priority.ofCode (f.tallyPriority.getD s.clm.tallyPriority.code) = some prio := by
  obtain ⟨hnone, rfl⟩ | hsome := h
  · rw [hnone]; exact Priority.ofCode_code _
  · rw [hsome]; cases prio <;> rfl

theorem min_loaded (stored : Nat) (v : Option Nat) : (v.map (min 250)).getD stored = loaded 0 250 stored v := by
  cases v with
  | none => rfl
  | some v =>
    simp only [Option.map_some, Option.getD_some, loaded]
    split_ifs <;> omega

theorem over_outside (v : Option Nat) : decide (250 < v.getD 0) = outside 0 250 v := by
  cases v <;> simp [outside]

/-- The Clip Marker with new settings; both counts are clamped to 250 (R137). -/
def withSettings (f : ClipSettingsFields) (auto : Bool) (prio : Priority) (m : ClipMarker) : ClipMarker :=
  { m with
    preRoll := loaded 0 250 m.preRoll f.preRoll
    postRoll := loaded 0 250 m.postRoll f.postRoll
    autoMark := auto
    tallyPriority := prio }

theorem clipSettings_stores {auto : Bool} {prio : Priority} (hfield : f ≠ {})
    (hauto : onOffOfCode (f.autoMark.getD (onOff s.clm.autoMark)) = some auto)
    (hprio : Priority.ofCode (f.tallyPriority.getD s.clm.tallyPriority.code) = some prio) :
    clipSettings f s = ({ s with clm := withSettings f auto prio s.clm },
      { status := doneIf (outside 0 250 f.preRoll || outside 0 250 f.postRoll) }) := by
  simp only [clipSettings, hauto, hprio, if_neg hfield, min_loaded, over_outside, withSettings, State.onClm]

/-- The four settings, byte by byte. -/
def settingsBytes (m : ClipMarker) : List (Option (List Byte)) :=
  [some (beBytes 1 m.preRoll), some (beBytes 1 m.postRoll), some [if m.autoMark then 1 else 2],
    some [if m.tallyPriority = .normal then 1 else 2]]

theorem clipSettings_query (s : State) : clipSettings {} s = (s, { status := .done, results := settingsBytes s.clm }) := by
  have hauto : beBytes 1 (onOff s.clm.autoMark) = [if s.clm.autoMark then 1 else 2] := by cases s.clm.autoMark <;> rfl
  have hprio : beBytes 1 s.clm.tallyPriority.code = [if s.clm.tallyPriority = .normal then 1 else 2] := by
    cases s.clm.tallyPriority <;> rfl
  simp only [clipSettings, Option.getD_none, onOffOfCode_onOff, Priority.ofCode_code, clipSettingsResults, hauto, hprio]
  rfl

/-! ### Their outcomes on the ring -/

/-- A command that finds its way free and asks for no take attempt, by its status and results. -/
theorem exec_answered {row : Instr} {m : Command} {status : Status} {results : List (Option (List Byte))} {code : Byte}
    (hrow : messageOf row = some (h, m)) (hr : VanReady h i s) (hfit : listsFit m = true) (hm : m ≠ .reset 2) (hq : Quiet u)
    (hperform : perform (headOf h m) m (atHead h m s) = (atHead h m u, { status := status, results := results }))
    (hcode : byteOf status.code = code) :
    exec row s = .next { u with sri := ringReply u.sri h i (commandKind m) code results } := by
  rw [exec_van hrow hr hperform hfit hm hq.1 hq.2.1 hq.2.2, hcode]

/-- A CLIP-LABEL by what the Clip Marker makes of it. -/
theorem exec_clipLabel {label : Option (List Byte)} {status : Status} {code : Byte} (hr : VanReady h i s) (hq : Quiet u)
    (hlabel : clipLabel (.van i none) ref label (atHead h (.clipLabel ref label) s) =
      (atHead h (.clipLabel ref label) u, { status := status })) (hcode : byteOf status.code = code) :
    exec (.clipLabel h ref label) s = .next { u with sri := ringReply u.sri h i 15 code [] } := by
  refine exec_answered (u := u) (m := .clipLabel ref label) rfl hr rfl (by simp) hq ?_ hcode
  show clipLabel h.src ref label _ = _
  rw [hr.2.1, hlabel]

theorem exec_clipQuery {status : Status} {results : List (Option (List Byte))} {code : Byte} (hr : VanReady h i s)
    (hquery : clipQuery (.van i none) ref (atHead h (.clipQuery ref) s) =
      (atHead h (.clipQuery ref) s, { status := status, results := results })) (hcode : byteOf status.code = code) :
    exec (.clipQuery h ref) s = .next { s with sri := ringReply s.sri h i 16 code results } := by
  refine exec_answered (u := s) (m := .clipQuery ref) rfl hr rfl (by simp) hr.1 ?_ hcode
  show clipQuery h.src ref _ = _
  rw [hr.2.1, hquery]

theorem exec_clipSettings {status : Status} {results : List (Option (List Byte))} {code : Byte} (hr : VanReady h i s)
    (hq : Quiet u)
    (hset : clipSettings f (atHead h (.clipSettings f) s) =
      (atHead h (.clipSettings f) u, { status := status, results := results })) (hcode : byteOf status.code = code) :
    exec (.clipSettings h f) s = .next { u with sri := ringReply u.sri h i 17 code results } :=
  exec_answered (u := u) (m := .clipSettings f) rfl hr rfl (by simp) hq hset hcode

end

/-- Settles O48: each command by the record that it names, or by its fields. -/
theorem clipLabelQuerySettings_answerAndStore : Obligations.ClipLabelQuerySettings_AnswerAndStore := by
  intro h i s hr hm
  refine ⟨fun ref names hnames => ⟨fun c hc hname => ?_, fun hnone => ?_⟩, fun l hperm hsorted => ?_, fun f => ⟨fun hchoice => ?_,
    fun hquery => ?_, fun auto prio hfield hauto hprio => ?_⟩⟩
  · have hn := namesClip_of (i := i) hm hc ((hnames _).mp hname)
    refine ⟨fun hstate text => ?_, fun hstate => ?_, ?_⟩
    · exact exec_clipLabel (u := s) hr hr.1 (clipLabel_dead (hn.atHead h _) (dead_of hstate) text) rfl
    · have hlive := (live_iff c).mpr hstate
      refine ⟨?_, fun text hprint => ?_, fun text hprint => ?_⟩
      · exact exec_clipLabel (u := s) hr hr.1 (clipLabel_kept (hn.atHead h _) hlive) rfl
      · exact exec_clipLabel (u := s) hr hr.1 (clipLabel_unprintable (hn.atHead h _) hlive hprint) rfl
      · exact exec_clipLabel (u := putClip { c with text := text.take 48 } s) hr (quiet_of hr.1 rfl rfl rfl)
          (clipLabel_replaced hm hc (hn.atHead h _) hlive hprint) (doneIf_code _)
    · have hexec := exec_clipQuery hr (clipQuery_names (hn.atHead h _)) rfl
      rw [clipResults_eq] at hexec
      exact hexec
  · have hrecord := record_none (i := i) rfl fun c hc hn => hnone c hc ((hnames _).mpr hn)
    exact ⟨fun text => exec_clipLabel (u := s) hr hr.1 (clipLabel_none text hrecord) rfl,
      fun hfield => exec_clipQuery hr (clipQuery_none hfield hrecord) rfl⟩
  · exact exec_clipQuery hr (clipQuery_table hm hperm hsorted) rfl
  · exact exec_clipSettings (u := s) hr hr.1 (clipSettings_choiceless hchoice) rfl
  · subst hquery
    exact exec_clipSettings (u := s) hr hr.1 (clipSettings_query _) rfl
  · exact exec_clipSettings (u := { s with clm := withSettings f auto prio s.clm }) hr (quiet_of hr.1 rfl rfl rfl)
      (clipSettings_stores hfield (autoMark_given hauto) (tallyPriority_given hprio)) (doneIf_code _)

end Sys2Proof.Machine
end

section
/-! PROOF. What the commands and faults of a link share: a command that asks for take attempts which find nothing to take, a
lost link's traffic back in its class queues (R156, R173, R189), and the actions of a fault (R193, R194). -/

namespace Sys2Proof.Machine

/-! ### Take attempts that find nothing to take, and the command that asks for them (R165, R203 to R205) -/

theorem noLinkTakes_noOwed {s : State} : NoLinkTakes s.noOwed ↔ NoLinkTakes s := by
  simp [NoLinkTakes, sched, link, State.noOwed, State.onHsc]

/-- No link can take, or no packet waits, so that no take attempt moves a packet. -/
def Idle (s : State) : Prop := NoLinkTakes s ∨ QueuesEmpty s

theorem settleTakes_idle {s u : State} (hu : s.noOwed = u) (h : Idle u) : settleTakes s = u := by
  subst hu
  obtain htakes | hempty := h
  · exact settleTakes_cannot (noLinkTakes_noOwed.mp htakes)
  · exact settleTakes_empty hempty

theorem noOwed_oweTake (l : Link) (s : State) : (oweTake l s).noOwed = s.noOwed := by
  have hlinks : ((s.hsc.links.modify l fun k => { k with owed := true }).map fun k => { k with owed := false }) =
      s.hsc.links.map fun k => { k with owed := false } := by
    apply Table.ext_get
    intro k
    by_cases hk : l = k
    · subst hk; simp
    · simp [Table.get_modify_ne _ _ hk]
  simp only [State.noOwed, oweTake, State.onSched, State.onHsc, hlinks]

section
variable {row : Instr} {m : Command} {h : Hdr} {i : RingStream} {s u x : State} {r : Reply}

/-- The reply on the ring takes the command out of the VAN queue (R205). -/
theorem replyVan_atHead (hr : VanReady h i s) (hvan : u.cmu.van = []) : replyVan (headOf h m) r (atHead h m u) =
    { u with sri := ringReply u.sri h i (commandKind m) (byteOf r.status.code) r.results } := by
  have hqueue : ({ u.cmu with van := [] } : CommandUnit) = u.cmu := by rw [← hvan]
  have hbytes : r.bytes (headOf h m) =
      [commandKind m, byteOf r.status.code, byteOf i.val, 0] ++ records 1 r.results := by
    simp [Reply.bytes, headOf, srcStreamByte, hr.2.1]
  simp only [replyVan, atHead, State.onSri, State.onCmu, ringReply, hbytes, List.tail_cons, hqueue]
  rfl

/-- A command that finds its way free: the reply joins the state of its owner, and the take attempts asked for are made. -/
theorem exec_settles (hrow : messageOf row = some (h, m)) (hr : VanReady h i s) (hfit : listsFit m = true) (hm : m ≠ .reset 2)
    (hperform : perform (headOf h m) m (atHead h m s) = (x, r)) (hhome : x.cmu.home = []) :
    exec row s = .next (settleTakes (replyVan (headOf h m) r x)) := by
  rw [exec_message hrow, takeCommand_van hr hfit hm (by rw [hperform]; exact hhome), hperform]

/-- The owner's state without its marks is `u`, and its take attempts find nothing to take. -/
theorem exec_idle (hrow : messageOf row = some (h, m)) (hr : VanReady h i s) (hfit : listsFit m = true) (hm : m ≠ .reset 2)
    (hperform : perform (headOf h m) m (atHead h m s) = (x, r)) (hx : x.noOwed = atHead h m u) (hvan : u.cmu.van = [])
    (hhome : u.cmu.home = []) (hidle : Idle u) :
    exec row s = .next { u with sri := ringReply u.sri h i (commandKind m) (byteOf r.status.code) r.results } := by
  have hxhome : x.cmu.home = [] := (congrArg (fun v => v.cmu.home) hx).trans hhome
  rw [exec_settles hrow hr hfit hm hperform hxhome]
  have hreply : (replyVan (headOf h m) r x).noOwed =
      { u with sri := ringReply u.sri h i (commandKind m) (byteOf r.status.code) r.results } := by
    rw [← replyVan_atHead hr hvan, ← hx]
    rfl
  rw [settleTakes_idle hreply hidle]

end

/-! ### A notice and a flag of a link (R208, R209) -/

/-- The notice that a link's outcome owes to its open command. -/
def owedNotice (body : NoticeBody) (cmd : Option OpenCommand) (s : State) : List Notice :=
  (cmd.map fun o => ({ body := body, answers := some o, tick := s.tbu.tick, pic := s.tbu.pic } : Notice)).toList

/-- The notice of link `l`'s open command has room in the queue, and no copy of it goes home (R209, R210). -/
structure NoticeFits (l : Link) (s : State) : Prop where
  noCopy : s.cmu.noticesHome = false
  room : s.cmu.notices.length < 32
  van : ∀ o, (link s l).openCommand = some o → o.origin = .van

theorem queueNotice_noOwed {b : NoticeBody} {a : Option OpenCommand} {s u : State} (hu : s.noOwed = u)
    (hcopy : u.cmu.noticesHome = false) (hvan : ∀ o, a = some o → o.origin = .van) (hroom : u.cmu.notices.length < 32) :
    (queueNotice b a s).noOwed = u.onCmu fun c =>
      { c with notices := c.notices ++ [{ body := b, answers := a, tick := u.tbu.tick, pic := u.tbu.pic }] } := by
  subst hu
  rw [queueNotice_plain (by exact hcopy) hvan (by exact hroom)]
  rfl

/-! ### A lost link's traffic (R156, R173, R189) -/

/-- The class queues once packets have gone back to their heads (R156). -/
def returned (ps : List Packet) (k : Pool) : Pool :=
  { k with
    reply := (ps.filter fun p => p.kind = .reply) ++ k.reply
    label := (ps.filter fun p => p.kind = .label) ++ k.label
    sound := (ps.filter fun p => p.kind = .sound) ++ k.sound
    picture := (ps.filter fun p => p.kind = .picture) ++ k.picture }

/-- A link's scheduling without its traffic (R173). -/
def LinkSched.emptied (h : LinkSched) : LinkSched :=
  { h with slot := none, inFlight := [], reservation := none, credit := 0, carry := 0 }

/-- The state in which link `l` has lost its traffic to the class queues (R173). -/
def withdrawn (l : Link) (s : State) : State :=
  { s with
    pkp := returned (linkPackets (sched s l)) s.pkp
    hsc := { s.hsc with links := s.hsc.links.modify l LinkSched.emptied } }

theorem ofClass_eq (c : QueueClass) (k : PacketKind) (hk : k.queue = some c) (ps : List Packet) :
    ofClass c ps = ps.filter fun p => p.kind = k := by
  refine List.filter_congr fun p _ => ?_
  cases hp : p.kind <;> cases k <;> cases hk <;> rfl

/-- Without a formed pair no packet is one of an odd member (R33). -/
theorem pairedOddPacket_unpaired {s : State} (hpair : ∀ p, (prog s p).pair = false) (p : Packet) :
    pairedOddPacket s p = false := by
  simp [pairedOddPacket, isPairedOdd, pairFormed, hpair]

theorem reroute_unpaired {s : State} (hpair : ∀ p, (prog s p).pair = false) (ps : List Packet) :
    reroute ps s = oweAll (s.onPool (returned ps)) := by
  simp only [reroute, pairedOddPacket_unpaired hpair, Bool.not_false, List.filter_true, List.filter_false,
    Pool.releasePackets, List.foldl_nil, ofClass_eq .reply .reply rfl, ofClass_eq .label .label rfl,
    ofClass_eq .sound .sound rfl, ofClass_eq .picture .picture rfl]
  rfl

theorem setReservation_pgc (l : Link) (r : Option Reservation) (s : State) : (setReservation l r s).pgc = s.pgc := by
  simp only [setReservation]
  split <;> rfl

theorem withdraw_noOwed {l : Link} {s : State} (hpair : ∀ p, (prog s p).pair = false) :
    (withdraw l s).noOwed = (withdrawn l s).noOwed := by
  have hclear : ((setReservation l none s).onSched l fun h =>
      { h with slot := none, inFlight := [], credit := 0, carry := 0 }).noOwed =
      (s.onSched l LinkSched.emptied).noOwed := by
    rw [noOwed_onSched l _ (fun _ => rfl) (noOwed_setReservation l none s), ← noOwed_onSched l _ (fun _ => rfl) rfl]
    simp only [State.onSched, State.onHsc, Table.modify_modify]
    rfl
  simp only [withdraw]
  split
  · rename_i hnone
    rw [hclear, withdrawn, List.isEmpty_iff.mp hnone]
    rfl
  · have hunpaired : ∀ p, (prog ((setReservation l none s).onSched l fun h =>
        { h with slot := none, inFlight := [], credit := 0, carry := 0 }) p).pair = false := by
      simpa only [prog, State.onSched_pgc, setReservation_pgc] using hpair
    rw [reroute_unpaired hunpaired, noOwed_oweAll]
    exact congrArg (fun v => v.onPool (returned (linkPackets (sched s l)))) hclear

theorem noOwed_withdrawn {l : Link} {s : State} (ho : NoOwed s) : NoOwed (withdrawn l s) := fun k => by
  have hk := ho k
  simp only [sched, withdrawn, Table.get_modify] at hk ⊢
  split
  · exact hk
  · exact hk

/-- With the other links idle, nothing takes once link `l` carries no more. -/
theorem noLinkTakes_of_others {l : Link} {s : State} (hl : (link s l).state.carries = false)
    (hothers : ∀ k, k ≠ l → (link s k).state.carries = false) : NoLinkTakes s := fun k => by
  by_cases hk : k = l
  · exact .inl (hk ▸ hl)
  · exact .inl (hothers k hk)

/-! ### A fault and its action (R193, R194) -/

section
variable {l : Link} {c : FaultClass} {code : Byte} {s : State}

/-- The state in which a fault is recorded and its flag raised (R193). -/
def faulted (l : Link) (c : FaultClass) (code : Byte) (s : State) : State :=
  { s with lsu := s.lsu.set l (withFault c s.tbu.tick code (link s l)), cmu := linkFaultRaised s }

/-- The record of a link that a fault has held; `retry` is its expiry, if it has one (R193). -/
def LinkRecord.holding (retry : Option Tick) (r : LinkRecord) : LinkRecord :=
  { r with
    state := .held, retry := retry, proving := none, degrading := Table.replicate 5 false, recovery := none, window := none }

/-- The retry expiry that HOLD-RETRY sets (R193). -/
def retryOf (s : State) (l : Link) : FaultAction → Option Tick
  | .holdRetry => some (s.tbu.tick + BitVec.ofNat 32 (link s l).settings.retryTime)
  | _ => none

/-- The record of a link that a fault of class `c` at tick `now` has degraded (R194). -/
def LinkRecord.degradedBy (c : FaultClass) (now : Tick) (r : LinkRecord) : LinkRecord :=
  { r with
    state := .degraded
    degrading := (if r.state = .up then Table.replicate 5 false else r.degrading).set c.idx true
    recovery := some { tick := now + 48000, passed := false } }

theorem applyFault_held (hheld : (link s l).state = .held) :
    applyFault l c code s = { s with lsu := s.lsu.set l (withFault c s.tbu.tick code (link s l)) } := by
  simp only [applyFault, if_pos hheld]
  rfl

theorem applyFault_ignored (hheld : (link s l).state ≠ .held) (ha : (link s l).settings.actions.get c.idx = .ignore) :
    applyFault l c code s = s := by
  simp only [applyFault, if_neg hheld, actionOf, ha]

/-- The record and the flag of a fault, with room for the flag's notice (R193, R208). -/
theorem raiseFlag_linkFault (hcopy : s.cmu.noticesHome = false) (hroom : s.cmu.notices.length < 32) :
    raiseFlag .linkFault (s.onLink l (recordFault c s.tbu.tick code)) = faulted l c code s := by
  rw [raiseFlag_raised (by exact hcopy) (by exact hroom)]
  rfl

theorem applyFault_reported (h : FaultSettles l s) (hheld : (link s l).state ≠ .held)
    (ha : (link s l).settings.actions.get c.idx = .report) : applyFault l c code s = faulted l c code s := by
  have hroom := h.room
  simp only [applyFault, if_neg hheld, actionOf, ha]
  exact raiseFlag_linkFault h.noCopy (by omega)

theorem link_faulted (s : State) : link (faulted l c code s) l = withFault c s.tbu.tick code (link s l) := by
  simp [link, faulted]

theorem degradeLink_noOwed (s : State) :
    (degradeLink l c s).noOwed = (s.onLink l (LinkRecord.degradedBy c s.tbu.tick)).noOwed := by
  simp only [degradeLink]
  split
  · exact noOwed_oweTake l _
  · rfl

theorem applyFault_degraded (h : FaultSettles l s) (hheld : (link s l).state ≠ .held)
    (ha : (link s l).settings.actions.get c.idx = .degrade) : (applyFault l c code s).noOwed =
      (if (link s l).state.carries then (faulted l c code s).onLink l (LinkRecord.degradedBy c s.tbu.tick)
        else faulted l c code s).noOwed := by
  have hroom := h.room
  simp only [applyFault, if_neg hheld, actionOf, ha, raiseFlag_linkFault h.noCopy (show s.cmu.notices.length < 32 by omega)]
  split
  · exact degradeLink_noOwed _
  · rfl

/-- The notice that a carrying link is held (R193). -/
def heldNotice (l : Link) (c : FaultClass) (s : State) : List Notice :=
  if (link s l).state.carries then [{ body := .linkHeld l c, tick := s.tbu.tick, pic := s.tbu.pic }] else []

theorem holdLink_noOwed {a : FaultAction} (ha : a = .holdLatched ∨ a = .holdRetry) (hpair : ∀ p, (prog s p).pair = false)
    (hcopy : s.cmu.noticesHome = false) (hroom : s.cmu.notices.length < 32) :
    (holdLink l c (decide (a = .holdRetry)) s).noOwed =
      (((withdrawn l s).onLink l (LinkRecord.holding (retryOf s l a))).onCmu fun q =>
        { q with notices := q.notices ++ heldNotice l c s }).noOwed := by
  have hlost : (withdraw l (s.onLink l (LinkRecord.holding (retryOf s l a)))).noOwed =
      ((withdrawn l s).onLink l (LinkRecord.holding (retryOf s l a))).noOwed := withdraw_noOwed (by exact hpair)
  have hrecord : s.onLink l (fun r => { r with
      state := .held
      retry := if decide (a = .holdRetry) = true then some (tickPlus s.tbu.tick r.settings.retryTime) else none
      proving := none, degrading := Table.replicate 5 false, recovery := none, window := none }) =
      s.onLink l (LinkRecord.holding (retryOf s l a)) := by
    obtain rfl | rfl := ha <;> rfl
  simp only [holdLink, hrecord]
  split
  · rename_i hcarries
    rw [queueNotice_noOwed hlost (by exact hcopy) (by simp) (by exact hroom), heldNotice, if_pos hcarries]
    rfl
  · rename_i hcarries
    rw [hlost, heldNotice, if_neg hcarries]
    simp only [List.append_nil]
    rfl

theorem linkFaultRaised_room (h : FaultSettles l s) : (linkFaultRaised s).notices.length < 32 := by
  have hroom := h.room
  simp only [linkFaultRaised, flagRaised, List.length_append]
  split <;> simp only [List.length_nil, List.length_singleton] <;> omega

theorem applyFault_holds {a : FaultAction} (h : FaultSettles l s) (hheld : (link s l).state ≠ .held)
    (ha : (link s l).settings.actions.get c.idx = a) (hold : a = .holdLatched ∨ a = .holdRetry) :
    (applyFault l c code s).noOwed =
      (((withdrawn l (faulted l c code s)).onLink l (LinkRecord.holding (retryOf s l a))).onCmu fun q =>
        { q with notices := q.notices ++ heldNotice l c s }).noOwed := by
  have hroom := h.room
  have happly : applyFault l c code s = holdLink l c (decide (a = .holdRetry)) (faulted l c code s) := by
    obtain rfl | rfl := hold <;>
      simp only [applyFault, if_neg hheld, actionOf, ha,
        raiseFlag_linkFault h.noCopy (show s.cmu.notices.length < 32 by omega)] <;> rfl
  have hretry : retryOf (faulted l c code s) l a = retryOf s l a := by
    obtain rfl | rfl := hold
    · rfl
    · simp only [retryOf, link_faulted]; rfl
  have hnotice : heldNotice l c (faulted l c code s) = heldNotice l c s := by
    simp only [heldNotice, link_faulted]; rfl
  rw [happly, holdLink_noOwed hold (by exact h.unpaired) (by exact h.noCopy) (linkFaultRaised_room h), hretry, hnotice]

/-- A fault that settles does what R193 and R194 say, whatever attempts it asks for. -/
theorem applyFault_applied (h : FaultSettles l s) (ho : NoOwed s) :
    FaultApplied l c code s (applyFault l c code s).noOwed where
  held := fun hheld => by
    rw [applyFault_held hheld]
    exact noOwed_of (by exact ho)
  ignored := fun hheld ha => by rw [applyFault_ignored hheld ha, noOwed_of ho]
  reported := fun hheld ha => by
    rw [applyFault_reported h hheld ha]
    exact noOwed_of (by exact ho)
  degraded := fun hcarries ha => by
    have hheld : (link s l).state ≠ .held := fun e => by simp [e, LinkState.carries] at hcarries
    rw [applyFault_degraded h hheld ha, if_pos hcarries, noOwed_of (by exact ho)]
    simp only [State.onLink, faulted, Table.modify, Table.get_set_self, Table.set_set]
    rfl
  holds := fun ps hps hheld ha => by
    have hclear : NoOwed (((withdrawn l (faulted l c code s)).onLink l
        (LinkRecord.holding (retryOf s l ((link s l).settings.actions.get c.idx)))).onCmu fun q =>
        { q with notices := q.notices ++ heldNotice l c s }) :=
      noOwed_withdrawn (l := l) (s := faulted l c code s) ho
    rw [applyFault_holds h hheld rfl ha, noOwed_of hclear, hps]
    simp only [State.onLink, State.onCmu, withdrawn, faulted, Table.modify, Table.get_set_self, Table.set_set]
    obtain ha | ha := ha <;> rw [ha] <;> rfl

theorem Idle.noOwed (h : Idle s) : Idle s.noOwed := h.imp noLinkTakes_noOwed.mpr id

/-- A change of the Link Supervisor's record of `l`, and of no other link's, moves no packet. -/
theorem FaultSettles.idle {t : State} (h : FaultSettles l s) (hothers : ∀ k, k ≠ l → link t k = link s k)
    (hhsc : t.hsc = s.hsc) (hpkp : t.pkp = s.pkp) : Idle t := by
  obtain hslot | hempty := h.full
  · refine .inl fun k => ?_
    by_cases hk : k = l
    · exact .inr (.inl (by rw [hk, sched, hhsc]; exact hslot))
    · exact .inl (by rw [hothers k hk]; exact h.others k hk)
  · exact .inr (by simpa only [QueuesEmpty, hpkp] using hempty)

theorem link_faulted_ne {k : Link} (hk : k ≠ l) : link (faulted l c code s) k = link s k :=
  Table.get_set_ne _ _ (Ne.symm hk)

/-- After a fault that settles no take attempt moves a packet (R165). -/
theorem applyFault_idle (h : FaultSettles l s) : Idle (applyFault l c code s).noOwed := by
  have hfaulted : Idle (faulted l c code s) := h.idle (fun _ hk => link_faulted_ne hk) rfl rfl
  by_cases hheld : (link s l).state = .held
  · rw [applyFault_held hheld]
    exact Idle.noOwed (h.idle (fun _ hk => Table.get_set_ne _ _ (Ne.symm hk)) rfl rfl)
  · have holding : ∀ a, (link s l).settings.actions.get c.idx = a → a = .holdLatched ∨ a = .holdRetry →
        Idle (applyFault l c code s).noOwed := fun a ha hold => by
      rw [applyFault_holds h hheld ha hold]
      refine Idle.noOwed (.inl (noLinkTakes_of_others (l := l) ?_ fun k hk => ?_))
      · exact congrArg (fun r : LinkRecord => r.state.carries) (Table.get_modify_self _ _ _)
      · have hlink : link (((withdrawn l (faulted l c code s)).onLink l (LinkRecord.holding (retryOf s l a))).onCmu fun q =>
            { q with notices := q.notices ++ heldNotice l c s }) k = link s k :=
          (Table.get_modify_ne _ _ (Ne.symm hk)).trans (link_faulted_ne hk)
        rw [hlink]
        exact h.others k hk
    cases ha : (link s l).settings.actions.get c.idx with
    | holdLatched => exact holding _ ha (.inl rfl)
    | holdRetry => exact holding _ ha (.inr rfl)
    | degrade =>
      rw [applyFault_degraded h hheld ha]
      refine Idle.noOwed ?_
      split
      · exact h.idle (fun k hk => (Table.get_modify_ne _ _ (Ne.symm hk)).trans (link_faulted_ne hk)) rfl rfl
      · exact hfaulted
    | report =>
      rw [applyFault_reported h hheld ha]
      exact hfaulted.noOwed
    | ignore =>
      rw [applyFault_ignored hheld ha]
      exact Idle.noOwed (h.idle (fun _ _ => rfl) rfl rfl)

end

end Sys2Proof.Machine
end

section
/-! PROOF. LINK-DOWN (R156, R173, R188, R189). -/

namespace Sys2Proof.Machine

section
variable {h : Hdr} {i : RingStream} {l : Link} {n : Option Nat} {s u x : State}

/-- The record of a link that LINK-DOWN has taken DOWN (R188). -/
def LinkRecord.downed (r : LinkRecord) : LinkRecord :=
  { r with
    state := .down, proving := none, retry := none, degrading := Table.replicate 5 false, recovery := none, window := none,
    openCommand := none }

/-- The part with link `l` DOWN and the notice of its open command queued (R188). -/
def downedIn (l : Link) (old s : State) : State :=
  (s.onLink l LinkRecord.downed).onCmu fun q =>
    { q with notices := q.notices ++ owedNotice (.linkDown l) (link old l).openCommand old }

/-- A link without traffic goes DOWN (R188). -/
theorem takeDown_resting (hstate : (link s l).state = .down ∨ (link s l).state = .held) (hfits : NoticeFits l s) :
    takeDown l s = downedIn l s s := by
  simp only [takeDown, if_pos hstate]
  cases hcmd : (link s l).openCommand with
  | none => simp only [downedIn, owedNotice, hcmd, Option.map_none, Option.toList_none, List.append_nil]; rfl
  | some o =>
    simp only
    rw [queueNotice_plain (by exact hfits.noCopy) (by rw [← hcmd]; exact hfits.van) (by exact hfits.room)]
    simp only [downedIn, owedNotice, hcmd]
    rfl

/-- A link with traffic goes DOWN, and its packets go back to the class queues (R173, R188). -/
theorem takeDown_withdraws (hstate : ¬ ((link s l).state = .down ∨ (link s l).state = .held))
    (hpair : ∀ p, (prog s p).pair = false) (hfits : NoticeFits l s) :
    (takeDown l s).noOwed = (downedIn l s (withdrawn l s)).noOwed := by
  have hlost : (withdraw l (s.onLink l LinkRecord.downed)).noOwed = ((withdrawn l s).onLink l LinkRecord.downed).noOwed :=
    withdraw_noOwed (by exact hpair)
  simp only [takeDown, if_neg hstate]
  cases hcmd : (link s l).openCommand with
  | none =>
    simp only [downedIn, owedNotice, hcmd, Option.map_none, Option.toList_none, List.append_nil]
    exact hlost
  | some o =>
    simp only
    refine (queueNotice_noOwed hlost hfits.noCopy (by rw [← hcmd]; exact hfits.van) hfits.room).trans ?_
    simp only [downedIn, owedNotice, hcmd]
    rfl

theorem perform_linkDown (hn : n = some l.val) (m : Msg) : perform m (.linkDown n) s = (takeDown l s, { status := .done }) := by
  simp only [perform, linkDown, objectOf_some hn]

theorem exec_linkDown_absent (hr : VanReady h i s) (hn : n = none ∨ ∃ v, n = some v ∧ 3 < v) :
    exec (.linkDown h n) s = .next { s with sri := ringReply s.sri h i 20 5 [] } := by
  refine exec_answered (u := s) (m := .linkDown n) (status := .refusedRange) rfl hr rfl (by simp) hr.1 ?_ rfl
  simp only [perform, linkDown, objectOf_none hn]

theorem exec_linkDown_resting (hr : VanReady h i s) (hn : n = some l.val)
    (hstate : (link s l).state = .down ∨ (link s l).state = .held) (hfits : NoticeFits l s) :
    exec (.linkDown h n) s = .next { downedIn l s s with sri := ringReply s.sri h i 20 1 [] } := by
  refine exec_answered (u := downedIn l s s) (m := .linkDown n) (status := .done) rfl hr rfl (by simp) hr.1 ?_ rfl
  rw [perform_linkDown hn, takeDown_resting (s := atHead h (.linkDown n) s) hstate ⟨hfits.noCopy, hfits.room, hfits.van⟩]
  rfl

theorem exec_linkDown_withdraws (hr : VanReady h i s) (hn : n = some l.val)
    (hstate : ¬ ((link s l).state = .down ∨ (link s l).state = .held))
    (hothers : ∀ k, k ≠ l → (link s k).state.carries = false) (hpair : ∀ p, (prog s p).pair = false) (hfits : NoticeFits l s) :
    exec (.linkDown h n) s = .next { downedIn l s (withdrawn l s) with sri := ringReply s.sri h i 20 1 [] } := by
  have hclear : NoOwed (downedIn l s (withdrawn l s)) := noOwed_withdrawn (l := l) (s := s) hr.1.1
  have hdown : (takeDown l (atHead h (.linkDown n) s)).noOwed = atHead h (.linkDown n) (downedIn l s (withdrawn l s)) := by
    rw [takeDown_withdraws (s := atHead h (.linkDown n) s) hstate hpair ⟨hfits.noCopy, hfits.room, hfits.van⟩]
    exact noOwed_of hclear
  have hidle : Idle (downedIn l s (withdrawn l s)) := by
    refine .inl (noLinkTakes_of_others (l := l) ?_ fun k hk => ?_)
    · exact congrArg (fun r : LinkRecord => r.state.carries) (Table.get_modify_self _ _ _)
    · have hlink : link (downedIn l s (withdrawn l s)) k = link s k := Table.get_modify_ne _ _ (Ne.symm hk)
      rw [hlink]
      exact hothers k hk
  exact exec_idle (m := .linkDown n) (r := { status := .done }) rfl hr rfl (by simp) (perform_linkDown hn _) hdown hr.1.2.1
    hr.1.2.2 hidle

end

/-- Settles O51: no link, a link without traffic, and one whose traffic goes back to the class queues. -/
theorem linkDown_withdrawsTheTraffic : Obligations.LinkDown_WithdrawsTheTraffic := by
  intro h i n s hr hcopy hroom
  refine ⟨exec_linkDown_absent hr, ?_⟩
  rintro l r notices hn rfl hvan rfl down rfl
  refine ⟨fun hstate => ?_, fun hstate hothers hpair ps hps => ?_⟩
  · rw [exec_linkDown_resting hr hn hstate ⟨hcopy, hroom, hvan⟩]
    rfl
  · have htraffic : ¬ ((link s l).state = .down ∨ (link s l).state = .held) := by
      obtain hs | hs | hs := hstate <;> simp [hs]
    rw [exec_linkDown_withdraws hr hn htraffic hothers hpair ⟨hcopy, hroom, hvan⟩, hps]
    rfl

end Sys2Proof.Machine
end

section
/-! PROOF. LINK-SET (R149, R164, R168, R182, R183, R186, R190). -/

namespace Sys2Proof.Machine

/-! ### The fields of LINK-SET (R149, R183) -/

section
variable {f : LinkFields} {s : State}

/-- A LINK-SET that carries no field of a link carries at most the pool section (R149). -/
theorem hasLinkField_false : hasLinkField f = false ↔ f.share = none ∧ f.kinds = none ∧ f.burst = none ∧ f.floor = none ∧
    f.ackTimeout = none ∧ f.minFraction = none ∧ f.count = none ∧ f.proveTimeout = none ∧ f.retryTime = none ∧
    f.actions = none := by
  simp only [hasLinkField, Bool.or_eq_false_iff, Option.isSome_eq_false_iff, Option.isNone_iff_eq_none, and_assoc]

/-- A pool cap is clamped (R149). -/
theorem caps_clamped {caps : Table 6 (Option Nat)} :
    caps.vals.any (clampedBy 0 Config.poolBlocks) = decide (∃ o, outside 0 16384 (caps.get o) = true) := by
  rw [Bool.eq_iff_iff, List.any_eq_true, decide_eq_true_eq]
  constructor
  · rintro ⟨v, hv, hclamped⟩
    obtain ⟨j, hj, rfl⟩ := List.getElem_of_mem hv
    exact ⟨⟨j, by rwa [caps.len] at hj⟩, by rwa [clampedBy_outside _ _ _ (Nat.zero_le _)] at hclamped⟩
  · rintro ⟨o, ho⟩
    exact ⟨caps.get o, List.getElem_mem _, by rwa [clampedBy_outside _ _ _ (Nat.zero_le _)]⟩

/-- A value of the link fields is clamped (R183). -/
def linkFieldsOutside (f : LinkFields) : Bool :=
  outside 0 100 f.share || outside 1328 65535 f.burst || outside 0 250000 f.floor || outside 4800 480000 f.ackTimeout ||
  outside 0 100 f.minFraction || outside 1 16 f.count || outside 24000 480000 f.proveTimeout ||
  outside 4800 2880000 f.retryTime

theorem linkClamped_eq : linkClamped f =
    (linkFieldsOutside f || decide (∃ o, outside 0 16384 (f.caps.get o) = true)) := by
  simp only [linkClamped, linkFieldsOutside, caps_clamped, clampedBy_outside 0 100 _ (by decide),
    clampedBy_outside 1328 65535 _ (by decide), clampedBy_outside 0 250000 _ (by decide),
    clampedBy_outside 4800 480000 _ (by decide), clampedBy_outside 1 16 _ (by decide),
    clampedBy_outside 24000 480000 _ (by decide), clampedBy_outside 4800 2880000 _ (by decide)]

theorem linkFieldsOutside_bare (hbare : hasLinkField f = false) : linkFieldsOutside f = false := by
  obtain ⟨h1, -, h2, h3, h4, h5, h6, h7, h8, -⟩ := hasLinkField_false.mp hbare
  simp [linkFieldsOutside, outside, h1, h2, h3, h4, h5, h6, h7, h8]

/-- The caps that the pool section stores, owner by owner (R149). -/
theorem setCaps_eq {owners : Table 6 OwnerRecord} (howners : ∀ o, owners.get o =
    { s.pkp.owners.get o with cap := loaded 0 16384 (s.pkp.owners.get o).cap (f.caps.get o) }) :
    setCaps f.caps s = { s with pkp := { s.pkp with owners := owners } } := by
  have htable : owners = Table.ofFn fun o => { s.pkp.owners.get o with
      cap := ((f.caps.get o).map (clampNat 0 Config.poolBlocks)).getD (s.pkp.owners.get o).cap } :=
    Table.ext_get fun o => by rw [howners, Table.get_ofFn, getD_clamp 0 _ _ _ (Nat.zero_le _)]; rfl
  rw [htable]
  rfl

/-- The place of a permitted kind among PICTURE, SOUND, LABEL and REPLY, and 4 where the number is none of theirs. -/
def kindPlace (k : Nat) : Nat := if k = 0 then 4 else k - 1

theorem kindsOf_eq (l : List Nat) : kindsOf l = setOf 4 (l.map kindPlace) := rfl

/-- A kind out of range names no set of permitted kinds (R183). -/
theorem kindsOf_none {ks : List Nat} (hbad : ∃ k ∈ ks, k = 0 ∨ 4 < k) : kindsOf ks = none := by
  obtain ⟨k, hk, hrange⟩ := hbad
  rw [kindsOf_eq]
  refine setOf_none ⟨kindPlace k, List.mem_map_of_mem hk, ?_⟩
  simp only [kindPlace]
  split <;> omega

/-- The permitted kinds are the ones named, or the stored ones where the field is absent (R183). -/
theorem kinds_named (stored : Table 4 Bool) (hrange : ∀ ks, f.kinds = some ks → ∀ k ∈ ks, 1 ≤ k ∧ k ≤ 4) :
    ∃ kinds, (f.kinds.map kindsOf).getD (some stored) = some kinds ∧ (f.kinds = none → kinds = stored) ∧
      ∀ ks, f.kinds = some ks → ∀ c : Fin 4, kinds.get c = true ↔ c.val + 1 ∈ ks := by
  have hplace : ∀ ks, f.kinds = some ks → ∀ k ∈ ks, kindPlace k + 1 = k := fun ks hks k hk => by
    have := hrange ks hks k hk
    rw [kindPlace, if_neg (by omega)]
    omega
  obtain ⟨kinds, hset, hnone, hsome⟩ := setOf_getD (l := f.kinds.map (List.map kindPlace)) stored fun v hv c hc => by
    obtain ⟨ks, hks, rfl⟩ := Option.map_eq_some_iff.mp hv
    obtain ⟨k, hk, rfl⟩ := List.mem_map.mp hc
    have := hplace ks hks k hk
    have := hrange ks hks k hk
    omega
  refine ⟨kinds, by rw [← hset, Option.map_map]; rfl, fun hk => hnone (by rw [hk]; rfl), fun ks hks c => ?_⟩
  rw [hsome _ (by rw [hks]; rfl), List.mem_map]
  constructor
  · rintro ⟨k, hk, hc⟩
    rwa [← hc, hplace ks hks k hk]
  · intro hc
    have := hplace ks hks _ hc
    exact ⟨_, hc, by omega⟩

/-- One pair of a fault action list, laid over the actions (R183). -/
def layPair (t : Table 5 FaultAction) (p : Nat × Nat) : Option (Table 5 FaultAction) :=
  (FaultClass.ofCode p.1).bind fun c => (FaultAction.ofCode p.2).bind fun a =>
    if c = .proveFail ∧ a ≠ .holdLatched ∧ a ≠ .holdRetry then none else some (t.set c.idx a)

theorem actionsOf_eq (ps : List (Nat × Nat)) (t : Table 5 FaultAction) : actionsOf ps t = ps.foldlM layPair t := by
  have hfold : ∀ (ps : List (Nat × Nat)) (acc : Option (Table 5 FaultAction)),
      ps.foldl (fun acc p => acc.bind fun t => layPair t p) acc = acc.bind fun t => ps.foldlM layPair t := by
    intro ps
    induction ps with
    | nil => intro acc; cases acc <;> rfl
    | cons p ps ih =>
      intro acc
      rw [List.foldl_cons, ih]
      cases acc <;> rfl
  exact hfold ps (some t)

theorem actionsOf_cons (p : Nat × Nat) (ps : List (Nat × Nat)) (t : Table 5 FaultAction) :
    actionsOf (p :: ps) t = (layPair t p).bind (actionsOf ps) := by
  simp only [actionsOf_eq, List.foldlM_cons]
  congr 1

theorem faultClass_ofCode_none {n : Nat} (h : n = 0 ∨ 5 < n) : FaultClass.ofCode n = none := by
  unfold FaultClass.ofCode
  split
  case h_6 => rfl
  all_goals omega

theorem faultClass_of {n : Nat} (h : 1 ≤ n ∧ n ≤ 5) : ∃ c : FaultClass, FaultClass.ofCode n = some c ∧ c.idx.val + 1 = n := by
  obtain ⟨hlow, hhigh⟩ := h
  interval_cases n <;> exact ⟨_, rfl, rfl⟩

theorem faultAction_ofCode_none {n : Nat} (h : n = 0 ∨ 5 < n) : FaultAction.ofCode n = none := by
  unfold FaultAction.ofCode
  split
  case h_6 => rfl
  all_goals omega

theorem faultAction_of {n : Nat} (h : 1 ≤ n ∧ n ≤ 5) : ∃ a : FaultAction, FaultAction.ofCode n = some a ∧ a.code = n := by
  obtain ⟨hlow, hhigh⟩ := h
  interval_cases n <;> exact ⟨_, rfl, rfl⟩

/-- PROVE-FAIL takes the actions numbered 1 and 2 alone (R183). -/
theorem holdAction_iff (a : FaultAction) : (a ≠ .holdLatched ∧ a ≠ .holdRetry) ↔ 3 ≤ a.code := by
  cases a <;> decide

/-- A pair of a class and an action is laid unless it is barred (R183). -/
theorem layPair_of {p : Nat × Nat} {c : FaultClass} {a : FaultAction} (hc : FaultClass.ofCode p.1 = some c)
    (ha : FaultAction.ofCode p.2 = some a) (t : Table 5 FaultAction) :
    layPair t p = if c = .proveFail ∧ 3 ≤ a.code then none else some (t.set c.idx a) := by
  simp only [layPair, hc, ha, Option.bind_some, ← holdAction_iff]

theorem proveFail_iff (c : FaultClass) : c = .proveFail ↔ c.idx.val + 1 = 5 := by cases c <;> decide

/-- A pair of a class or an action out of range, or of an action barred for PROVE-FAIL, is not laid (R183). -/
theorem layPair_none {p : Nat × Nat} (hbad : p.1 = 0 ∨ 5 < p.1 ∨ p.2 = 0 ∨ 5 < p.2 ∨ p.1 = 5 ∧ 3 ≤ p.2)
    (t : Table 5 FaultAction) : layPair t p = none := by
  by_cases hclass : p.1 = 0 ∨ 5 < p.1
  · simp only [layPair, faultClass_ofCode_none hclass, Option.bind_none]
  · by_cases haction : p.2 = 0 ∨ 5 < p.2
    · simp only [layPair, faultAction_ofCode_none haction, Option.bind_none, Option.bind_fun_none]
    · obtain ⟨c, hc, hcode⟩ := faultClass_of (n := p.1) (by omega)
      obtain ⟨a, ha, hact⟩ := faultAction_of (n := p.2) (by omega)
      rw [layPair_of hc ha, if_pos ⟨(proveFail_iff c).mpr (by omega), by omega⟩]

/-- A pair that is neither out of range nor barred sets its class's action (R183). -/
theorem layPair_some {p : Nat × Nat} (hc : 1 ≤ p.1 ∧ p.1 ≤ 5) (ha : 1 ≤ p.2 ∧ p.2 ≤ 5) (hbar : p.1 = 5 → p.2 ≤ 2)
    (t : Table 5 FaultAction) :
    ∃ (c : Fin 5) (a : FaultAction), c.val + 1 = p.1 ∧ a.code = p.2 ∧ layPair t p = some (t.set c a) := by
  obtain ⟨c, hclass, hcode⟩ := faultClass_of hc
  obtain ⟨a, haction, hact⟩ := faultAction_of ha
  refine ⟨c.idx, a, hcode, hact, ?_⟩
  rw [layPair_of hclass haction, if_neg]
  rintro ⟨hfail, hhigh⟩
  have := hbar (hcode.symm.trans ((proveFail_iff c).mp hfail))
  omega

theorem actionsOf_none {ps : List (Nat × Nat)} (t : Table 5 FaultAction)
    (hbad : ∃ p ∈ ps, p.1 = 0 ∨ 5 < p.1 ∨ p.2 = 0 ∨ 5 < p.2 ∨ p.1 = 5 ∧ 3 ≤ p.2) : actionsOf ps t = none := by
  induction ps generalizing t with
  | nil => simp at hbad
  | cons p ps ih =>
    rw [actionsOf_cons]
    obtain ⟨q, hq, hrange⟩ := hbad
    obtain rfl | hq := List.mem_cons.mp hq
    · rw [layPair_none hrange]
      rfl
    · cases layPair t p with
      | none => rfl
      | some u => exact ih u ⟨q, hq, hrange⟩

/-- A fault action list leaves the classes that it does not name, and the last pair of a class stands (R183). -/
theorem actionsOf_some {ps : List (Nat × Nat)} (t : Table 5 FaultAction)
    (hrange : ∀ p ∈ ps, 1 ≤ p.1 ∧ p.1 ≤ 5 ∧ 1 ≤ p.2 ∧ p.2 ≤ 5 ∧ (p.1 = 5 → p.2 ≤ 2)) :
    ∃ u, actionsOf ps t = some u ∧ (∀ c, (∀ p ∈ ps, p.1 ≠ c.val + 1) → u.get c = t.get c) ∧
      ∀ (c : Fin 5) early p late, ps = early ++ p :: late → p.1 = c.val + 1 → (∀ q ∈ late, q.1 ≠ c.val + 1) →
        (u.get c).code = p.2 := by
  induction ps generalizing t with
  | nil => exact ⟨t, rfl, fun _ _ => rfl, fun c early p late hps => by simp at hps⟩
  | cons q ps ih =>
    obtain ⟨hc1, hc2, ha1, ha2, hbar⟩ := hrange q (List.mem_cons_self ..)
    obtain ⟨c, a, hcode, hact, hlay⟩ := layPair_some ⟨hc1, hc2⟩ ⟨ha1, ha2⟩ hbar t
    obtain ⟨u, hu, hkept, hlast⟩ := ih (t.set c a) fun p hp => hrange p (List.mem_cons_of_mem _ hp)
    refine ⟨u, by rw [actionsOf_cons, hlay]; exact hu, fun d hd => ?_, fun d early p late hps hp hlate => ?_⟩
    · have hne : c ≠ d := fun e => hd q (List.mem_cons_self ..) (by rw [← hcode, e])
      rw [hkept d fun p hp => hd p (List.mem_cons_of_mem _ hp), Table.get_set_ne _ _ hne]
    · cases early with
      | nil =>
        obtain ⟨rfl, rfl⟩ := List.cons.inj hps
        have hcd : c = d := Fin.ext (by omega)
        rw [hkept d hlate, hcd, Table.get_set_self, hact]
      | cons e early => exact hlast d early p late (List.cons.inj hps).2 hp hlate

/-- The actions of a LINK-SET are the stored ones, but for the classes that it names (R183). -/
theorem actions_named (stored : Table 5 FaultAction) (hrange : ∀ ps, f.actions = some ps → ∀ p ∈ ps,
    1 ≤ p.1 ∧ p.1 ≤ 5 ∧ 1 ≤ p.2 ∧ p.2 ≤ 5 ∧ (p.1 = 5 → p.2 ≤ 2)) :
    ∃ actions, actionsOf (f.actions.getD []) stored = some actions ∧
      (∀ c, (∀ ps, f.actions = some ps → ∀ p ∈ ps, p.1 ≠ c.val + 1) → actions.get c = stored.get c) ∧
      ∀ (c : Fin 5) early p late, f.actions = some (early ++ p :: late) → p.1 = c.val + 1 →
        (∀ q ∈ late, q.1 ≠ c.val + 1) → (actions.get c).code = p.2 := by
  cases hf : f.actions with
  | none => exact ⟨stored, rfl, fun _ _ => rfl, fun c early p late hps => nomatch hps⟩
  | some ps =>
    obtain ⟨actions, hset, hkept, hlast⟩ := actionsOf_some stored (hrange ps hf)
    exact ⟨actions, hset, fun c hc => hkept c (hc ps rfl),
      fun c early p late hps => hlast c early p late (Option.some.inj hps)⟩

/-- The permitted kinds of a LINK-SET, as the settings that it forms hold them (R183). -/
theorem kinds_formed (old : LinkSettings) (hrange : ∀ ks, f.kinds = some ks → ∀ k ∈ ks, 1 ≤ k ∧ k ≤ 4) :
    ∃ kinds, (f.kinds.map kindsOf).getD (some (storedKinds old)) = some kinds ∧
      ∀ actions new, new = formSettings f kinds actions old →
        (f.kinds = none → (new.kindPicture, new.kindSound, new.kindLabel, new.kindReply) =
          (old.kindPicture, old.kindSound, old.kindLabel, old.kindReply)) ∧
        ∀ ks, f.kinds = some ks → (new.kindPicture = true ↔ 1 ∈ ks) ∧ (new.kindSound = true ↔ 2 ∈ ks) ∧
          (new.kindLabel = true ↔ 3 ∈ ks) ∧ (new.kindReply = true ↔ 4 ∈ ks) := by
  obtain ⟨kinds, hset, hnone, hsome⟩ := kinds_named (storedKinds old) hrange
  refine ⟨kinds, hset, fun actions new hnew => ?_⟩
  subst hnew
  refine ⟨fun hf => ?_, fun ks hks => ⟨hsome ks hks 0, hsome ks hks 1, hsome ks hks 2, hsome ks hks 3⟩⟩
  rw [hnone hf]
  rfl

/-- The settings that the link fields form, in the words of R183. -/
theorem formSettings_eq (kinds : Table 4 Bool) (actions : Table 5 FaultAction) (old : LinkSettings) :
    formSettings f kinds actions old = { formSettings f kinds actions old with
      share := loaded 0 100 old.share f.share
      burst := loaded 1328 65535 old.burst f.burst
      floor := loaded 0 250000 old.floor f.floor
      ackTimeout := loaded 4800 480000 old.ackTimeout f.ackTimeout
      minFraction := loaded 0 100 old.minFraction f.minFraction
      count := loaded 1 16 old.count f.count
      proveTimeout := loaded 24000 480000 old.proveTimeout f.proveTimeout
      retryTime := loaded 4800 2880000 old.retryTime f.retryTime
      actions := actions } := by
  simp only [formSettings, getD_clamp 0 100 _ _ (by decide), getD_clamp 1328 65535 _ _ (by decide),
    getD_clamp 0 250000 _ _ (by decide), getD_clamp 4800 480000 _ _ (by decide), getD_clamp 1 16 _ _ (by decide),
    getD_clamp 24000 480000 _ _ (by decide), getD_clamp 4800 2880000 _ _ (by decide)]

end

/-! ### The settings stored (R164, R165, R168, R182) -/

section
variable {l : Link} {t : LinkSettings} {s u : State}

/-- The state with link `l`'s settings stored, before anything is judged or taken: C of the new share, the credit within the new
burst limit, no reservation without PICTURE (R164, R168, R182). -/
def stored (l : Link) (t : LinkSettings) (s : State) : State :=
  { s with
    hsc := { s.hsc with
      links := s.hsc.links.modify l fun k => { k with
        credit := min t.burst k.credit
        reservation := if t.kindPicture then k.reservation else none } }
    lsu := s.lsu.modify l fun r => { r with settings := t, capacity := r.reported * t.share / 100 } }

/-- The settings change what the link may take: other permitted kinds, or a higher burst limit (R165). -/
def Widens (old t : LinkSettings) : Prop :=
  old.burst < t.burst ∨ (t.kindPicture, t.kindSound, t.kindLabel, t.kindReply) ≠
    (old.kindPicture, old.kindSound, old.kindLabel, old.kindReply)

theorem storedKinds_inj {t old : LinkSettings} : storedKinds t = storedKinds old ↔
    (t.kindPicture, t.kindSound, t.kindLabel, t.kindReply) =
      (old.kindPicture, old.kindSound, old.kindLabel, old.kindReply) := by
  simp [storedKinds]

theorem widens_iff {old : LinkSettings} :
    (storedKinds t != storedKinds old || decide (old.burst < t.burst)) = true ↔ Widens old t := by
  rw [Bool.or_eq_true, bne_iff_ne, decide_eq_true_eq, ne_eq, storedKinds_inj, or_comm, Widens]

/-- The settings stored, and the take attempts asked for. -/
def storeSettings (l : Link) (t : LinkSettings) (s : State) : State :=
  let s2 := (s.onLink l fun r => { r with settings := t, capacity := effectiveCapacity r.reported t.share }).onSched l
    fun h => { h with credit := min t.burst h.credit }
  let s3 := if t.kindPicture then s2 else setReservation l none s2
  if storedKinds t != storedKinds (link s l).settings || decide ((link s l).settings.burst < t.burst) then oweTake l s3 else s3

theorem applySettings_eq (l : Link) (t : LinkSettings) (s : State) : applySettings l t s =
    if ackTimeoutDue l (judgeProving l (storeSettings l t s)) && t.ackTimeout != (link s l).settings.ackTimeout then
      timeOutOldest l (judgeProving l (storeSettings l t s)) else judgeProving l (storeSettings l t s) := rfl

/-- The reservation as it is stored, whether or not it ends. -/
theorem storeReservation_noOwed (l : Link) (t : LinkSettings) (s : State) :
    (if t.kindPicture then s else setReservation l none s).noOwed =
      (s.onSched l fun k => { k with reservation := if t.kindPicture then k.reservation else none }).noOwed := by
  cases t.kindPicture with
  | true => simp [State.onSched, State.onHsc]
  | false => exact noOwed_setReservation l none s

theorem storeSettings_noOwed (l : Link) (t : LinkSettings) (s : State) :
    (storeSettings l t s).noOwed = (stored l t s).noOwed := by
  have howe : ∀ (c : Prop) [Decidable c] (x : State), (if c then oweTake l x else x).noOwed = x.noOwed := by
    intro c _ x
    split
    · exact noOwed_oweTake l x
    · rfl
  rw [storeSettings, howe, storeReservation_noOwed]
  simp only [State.onSched, State.onHsc, State.onLink, Table.modify_modify]
  rfl

/-- Settings that widen what the link may take ask for a take attempt of it (R165). -/
theorem storeSettings_owes (hwidens : Widens (link s l).settings t) : (sched (storeSettings l t s) l).owed = true := by
  rw [storeSettings, if_pos (widens_iff.mpr hwidens)]
  exact congrArg LinkSched.owed (Table.get_modify_self _ _ _)

/-- Settings that neither widen what the link may take nor end its reservation ask for no take attempt (R165). -/
theorem storeSettings_asksNothing (hwidens : ¬ Widens (link s l).settings t)
    (hpicture : t.kindPicture = true ∨ (sched s l).reservation = none) : storeSettings l t s = stored l t s := by
  rw [storeSettings, if_neg (mt widens_iff.mp hwidens)]
  cases hk : t.kindPicture with
  | true => simp [stored, hk, State.onSched, State.onHsc, State.onLink]; rfl
  | false =>
    have hnone : (sched s l).reservation = none := hpicture.resolve_left (by simp [hk])
    simp only [sched] at hnone
    simp [setReservation, stored, hk, State.onSched, State.onHsc, State.onLink, sched, hnone]
    rfl

/-! ### What the stored settings bring due (R186, R190) -/

/-- The oldest in-flight entry of a carrying link is older than its ack timeout and not yet judged (R190). -/
theorem ackTimeoutDue_iff : ackTimeoutDue l s = true ↔ ∃ e es, (link s l).state.carries = true ∧
    (sched s l).inFlight = e :: es ∧ (link s l).settings.ackTimeout < (s.tbu.tick - e.tick).toNat ∧
    (link s l).timedOut ≠ some e.seq := by
  cases hentries : (sched s l).inFlight with
  | nil => simp [ackTimeoutDue, hentries]
  | cons e es => simp [ackTimeoutDue, hentries]

theorem ackTimeoutDue_noOwed (l : Link) (s : State) : ackTimeoutDue l s.noOwed = ackTimeoutDue l s := by
  simp only [ackTimeoutDue, sched, State.noOwed, State.onHsc, Table.get_map]
  rfl

/-- LINK-SET brings a link to UP: it is PROVING, and its probes retired reach the new count (R186). -/
def Proven (l : Link) (t : LinkSettings) (s : State) : Prop :=
  ∃ p, (link s l).state = .proving ∧ (link s l).proving = some p ∧ t.count ≤ p.retired

/-- LINK-SET brings ACK-TIMEOUT due: the ack timeout changes, and the oldest entry has grown older than it (R190). -/
def TimesOut (l : Link) (t : LinkSettings) (s : State) : Prop :=
  ∃ e es, (link s l).state.carries = true ∧ (sched s l).inFlight = e :: es ∧
    t.ackTimeout ≠ (link s l).settings.ackTimeout ∧ t.ackTimeout < (s.tbu.tick - e.tick).toNat ∧
    (link s l).timedOut ≠ some e.seq

theorem link_stored (l : Link) (t : LinkSettings) (s : State) : link (stored l t s) l =
    { link s l with settings := t, capacity := (link s l).reported * t.share / 100 } := Table.get_modify_self _ _ _

theorem inFlight_stored (l : Link) (t : LinkSettings) (s : State) : (sched (stored l t s) l).inFlight = (sched s l).inFlight := by
  simp [sched, stored]

theorem link_storeSettings (l : Link) (t : LinkSettings) (s : State) :
    link (storeSettings l t s) l = link (stored l t s) l :=
  congrArg (fun lsu => lsu.get l) (congrArg State.lsu (storeSettings_noOwed l t s) :)

theorem ackTimeoutDue_storeSettings : (ackTimeoutDue l (storeSettings l t s) &&
    t.ackTimeout != (link s l).settings.ackTimeout) = true ↔ TimesOut l t s := by
  rw [← ackTimeoutDue_noOwed, storeSettings_noOwed, ackTimeoutDue_noOwed, Bool.and_eq_true, bne_iff_ne, ackTimeoutDue_iff,
    link_stored, inFlight_stored]
  constructor
  · rintro ⟨⟨e, es, hcarries, hentries, hold, hseq⟩, hchange⟩
    exact ⟨e, es, hcarries, hentries, hchange, hold, hseq⟩
  · rintro ⟨e, es, hcarries, hentries, hchange, hold, hseq⟩
    exact ⟨⟨e, es, hcarries, hentries, hold, hseq⟩, hchange⟩

theorem judgeProving_stays (h : ∀ p, (link s l).state = .proving → (link s l).proving = some p →
    ¬ (link s l).settings.count ≤ p.retired) : judgeProving l s = s := by
  simp only [judgeProving]
  split
  · rename_i p hp
    exact if_neg fun hup => h p hup.1 hp hup.2
  · rfl

theorem judgeProving_up {p : Proving} (hstate : (link s l).state = .proving) (hp : (link s l).proving = some p)
    (hcount : (link s l).settings.count ≤ p.retired) : judgeProving l s = enterUp l s := by
  simp only [judgeProving, hp]
  exact if_pos ⟨hstate, hcount⟩

theorem judgeProving_storeSettings (h : ¬ Proven l t s) : judgeProving l (storeSettings l t s) = storeSettings l t s := by
  refine judgeProving_stays fun p hstate hp hcount => h ⟨p, ?_⟩
  rw [link_storeSettings, link_stored] at hstate hp hcount
  exact ⟨hstate, hp, hcount⟩

/-- Settings that bring nothing due are stored (R183). -/
theorem applySettings_stores (hproven : ¬ Proven l t s) (htime : ¬ TimesOut l t s) :
    applySettings l t s = storeSettings l t s := by
  rw [applySettings_eq, judgeProving_storeSettings hproven, if_neg (mt ackTimeoutDue_storeSettings.mp htime)]

/-- The record of a link that has entered UP at tick `now` (R186). -/
def LinkRecord.upAt (now : Tick) (r : LinkRecord) : LinkRecord :=
  { r with
    state := .up, proving := none, window := some { start := now, handed := 0, retired := 0 }, timedOut := none,
    openCommand := none }

/-- The state in which link `l` has entered UP and its notice is queued (R186). -/
def upIn (l : Link) (s : State) : State :=
  (s.onLink l (LinkRecord.upAt s.tbu.tick)).onCmu fun q =>
    { q with notices := q.notices ++ [{
        body := .linkUp l (sched s l).epoch
        answers := (link s l).openCommand
        tick := s.tbu.tick
        pic := s.tbu.pic }] }

theorem upIn_noOwed (l : Link) (s : State) : (upIn l s).noOwed = upIn l s.noOwed := by
  have hepoch : (sched s.noOwed l).epoch = (sched s l).epoch := by simp [sched, State.noOwed, State.onHsc]
  rw [upIn, upIn, hepoch]
  rfl

theorem upIn_stored (l : Link) (t : LinkSettings) (s : State) : upIn l (stored l t s) =
    ((stored l t s).onLink l (LinkRecord.upAt s.tbu.tick)).onCmu fun q =>
      { q with notices := q.notices ++ [{
          body := .linkUp l (sched s l).epoch
          answers := (link s l).openCommand
          tick := s.tbu.tick
          pic := s.tbu.pic }] } := by
  have hepoch : (sched (stored l t s) l).epoch = (sched s l).epoch := by simp [sched, stored]
  rw [upIn, hepoch, link_stored]
  rfl

/-- A link without a standing fault enters UP (R186). -/
theorem enterUp_noOwed (hfloor : (link s l).settings.floor ≤ (link s l).capacity) (hcode : (link s l).code = 0)
    (hfits : NoticeFits l s) : (enterUp l s).noOwed = (upIn l s).noOwed := by
  have hlow : ¬ (link s l).capacity < (link s l).settings.floor := Nat.not_lt.mpr hfloor
  simp only [enterUp, if_neg hlow, hcode, bne_self_eq_false, Bool.and_false, Bool.false_eq_true, if_false]
  rw [noOwed_oweTake, queueNotice_plain (by exact hfits.noCopy) hfits.van (by exact hfits.room)]
  simp only [State.onLink, Table.modify_modify]
  rfl

/-- Settings that a PROVING link's probes retired reach take it UP (R186). -/
theorem applySettings_up (hproven : Proven l t s)
    (hyoung : ∀ e es, (sched s l).inFlight = e :: es → t.ackTimeout = (link s l).settings.ackTimeout ∨
      (s.tbu.tick - e.tick).toNat ≤ t.ackTimeout)
    (hfloor : t.floor ≤ (link s l).reported * t.share / 100) (hcode : (link s l).code = 0) (hfits : NoticeFits l s) :
    (applySettings l t s).noOwed = (upIn l (stored l t s)).noOwed := by
  obtain ⟨p, hstate, hp, hcount⟩ := hproven
  have hlink : link (storeSettings l t s) l = { link s l with settings := t, capacity := (link s l).reported * t.share / 100 } :=
    (link_storeSettings l t s).trans (link_stored l t s)
  have hcmu : (storeSettings l t s).cmu = s.cmu := (congrArg State.cmu (storeSettings_noOwed l t s) :)
  have hup : (judgeProving l (storeSettings l t s)).noOwed = (upIn l (stored l t s)).noOwed := by
    rw [judgeProving_up (p := p) (by rw [hlink]; exact hstate) (by rw [hlink]; exact hp) (by rw [hlink]; exact hcount),
      enterUp_noOwed (by rw [hlink]; exact hfloor) (by rw [hlink]; exact hcode)
        ⟨by rw [hcmu]; exact hfits.noCopy, by rw [hcmu]; exact hfits.room, by rw [hlink]; exact hfits.van⟩,
      upIn_noOwed, storeSettings_noOwed, ← upIn_noOwed]
  have hdue : ¬ (ackTimeoutDue l (judgeProving l (storeSettings l t s)) &&
      t.ackTimeout != (link s l).settings.ackTimeout) = true := by
    rw [← ackTimeoutDue_noOwed, hup, ackTimeoutDue_noOwed, Bool.and_eq_true, bne_iff_ne, ackTimeoutDue_iff]
    rintro ⟨⟨e, es, -, hentries, hold, -⟩, hchange⟩
    have hsettings : (link (upIn l (stored l t s)) l).settings = t := by
      simp [link, upIn, stored, LinkRecord.upAt]
    rw [hsettings] at hold
    obtain hsame | hle := hyoung e es ((inFlight_stored l t s).symm.trans hentries)
    · exact hchange hsame
    · exact absurd hold (Nat.not_lt.mpr hle)
  rw [applySettings_eq, if_neg hdue, hup]

/-- The state in which the entry of sequence `q` has been judged late on link `l` (R190). -/
def timedOutIn (l : Link) (q : Seq) (s : State) : State := s.onLink l fun r => { r with timedOut := some q }

/-- Settings that bring ACK-TIMEOUT due, and ask for nothing else, detect it (R190). -/
theorem applySettings_timesOut {e : InFlight} {es : List InFlight} (htime : TimesOut l t s)
    (hentries : (sched s l).inFlight = e :: es) (hstored : storeSettings l t s = stored l t s) :
    applySettings l t s = applyFault l .ackTimeout (link s l).code (timedOutIn l e.seq (stored l t s)) := by
  have hproven : ¬ Proven l t s := by
    rintro ⟨p, hstate, -⟩
    obtain ⟨-, -, hcarries, -⟩ := htime
    simp [hstate, LinkState.carries] at hcarries
  rw [applySettings_eq, judgeProving_storeSettings hproven, if_pos (ackTimeoutDue_storeSettings.mpr htime), hstored]
  simp only [timeOutOldest, inFlight_stored, hentries, link_stored]
  rfl

end

/-! ### LINK-SET by its fields (R149, R183) -/

section
variable {f : LinkFields} {l : Link} {s : State}

theorem linkSet_unnamed (hlink : f.link = none) : linkSet f s =
    if hasLinkField f then (s, { status := .refusedRange })
    else (setCaps f.caps s, { status := doneIf (linkClamped f) }) := by
  simp only [linkSet, hlink]

theorem linkSet_outside {n : Nat} (hlink : f.link = some n) (hn : 3 < n) : linkSet f s = (s, { status := .refusedRange }) := by
  simp only [linkSet, hlink, fin_bad (show 4 ≤ n from hn)]

theorem linkSet_query (l : Link) (s : State) : linkSet { link := some l.val } s =
    (s, { status := .done, results := settingsResults (link s l).settings }) := by
  simp only [linkSet, finOf_val, if_true]

/-- Permitted kinds or fault actions that are not allowed refuse the command (R183). -/
theorem linkSet_barred (hlink : f.link = some l.val) (hquery : f ≠ { link := some l.val })
    (hbad : (f.kinds.map kindsOf).getD (some (storedKinds (link s l).settings)) = none ∨
      actionsOf (f.actions.getD []) (link s l).settings.actions = none) :
    linkSet f s = (s, { status := .refusedRange }) := by
  simp only [linkSet, hlink, finOf_val, if_neg hquery]
  split
  · rename_i hkinds hactions
    obtain h | h := hbad
    · exact absurd (hkinds.symm.trans h) (by simp)
    · exact absurd (hactions.symm.trans h) (by simp)
  · rfl

/-- A taken LINK-SET of a link stores the caps, and the link's fields if it carries any (R149, R183). -/
theorem linkSet_taken {kinds : Table 4 Bool} {actions : Table 5 FaultAction} (hlink : f.link = some l.val)
    (hquery : f ≠ { link := some l.val })
    (hkinds : (f.kinds.map kindsOf).getD (some (storedKinds (link s l).settings)) = some kinds)
    (hactions : actionsOf (f.actions.getD []) (link s l).settings.actions = some actions) :
    linkSet f s = (if hasLinkField f then
      applySettings l (formSettings f kinds actions (link s l).settings) (setCaps f.caps s) else setCaps f.caps s,
      { status := doneIf (linkClamped f) }) := by
  simp only [linkSet, hlink, finOf_val, if_neg hquery, hkinds, hactions]

end

/-! ### LINK-SET on the ring (R203 to R205) -/

section
variable {f : LinkFields} {h : Hdr} {i : RingStream} {l : Link} {t : LinkSettings} {s u v w : State} {code : Byte}

theorem exec_linkSet {status : Status} {results : List (Option (List Byte))} (hr : VanReady h i s) (hq : Quiet u)
    (hset : linkSet f (atHead h (.linkSet f) s) = (atHead h (.linkSet f) u, { status := status, results := results }))
    (hcode : byteOf status.code = code) :
    exec (.linkSet h f) s = .next { u with sri := ringReply u.sri h i 18 code results } :=
  exec_answered (u := u) (m := .linkSet f) rfl hr rfl (by simp) hq hset hcode

theorem exec_linkSet_refused (hr : VanReady h i s)
    (hset : linkSet f (atHead h (.linkSet f) s) = (atHead h (.linkSet f) s, { status := .refusedRange })) :
    exec (.linkSet h f) s = .next { s with sri := ringReply s.sri h i 18 5 [] } :=
  exec_linkSet (u := s) hr hr.1 hset rfl

/-- The reply to a taken LINK-SET of one link's fields. -/
def settingsReply (f : LinkFields) : Reply := { status := doneIf (linkClamped f) }

/-- The state `u` with the reply to a taken LINK-SET on the ring. -/
def repliedSet (h : Hdr) (i : RingStream) (f : LinkFields) (u : State) : State :=
  { u with sri := ringReply u.sri h i 18 (doneCode (linkClamped f)) [] }

theorem replyVan_linkSet (hr : VanReady h i s) (hvan : u.cmu.van = []) :
    replyVan (headOf h (.linkSet f)) (settingsReply f) (atHead h (.linkSet f) u) = repliedSet h i f u := by
  rw [replyVan_atHead hr hvan, settingsReply, doneIf_code]
  rfl

/-- A LINK-SET that the part takes: what its settings do, the reply, and the take attempts asked for. -/
theorem exec_linkSet_settles (hr : VanReady h i s)
    (hset : linkSet f (atHead h (.linkSet f) s) = (applySettings l t (atHead h (.linkSet f) u), settingsReply f)) :
    exec (.linkSet h f) s = .next (settleTakes (replyVan (headOf h (.linkSet f)) (settingsReply f)
      (applySettings l t (atHead h (.linkSet f) u)))) := by
  have hwaits := (congrArg (fun x => x.1.waits.2.1) hset).symm.trans (congrArg (·.2.1) (linkSet_waits f _))
  exact exec_settles (m := .linkSet f) rfl hr rfl (by simp) hset (hwaits.trans hr.1.2.2)

theorem noOwed_stored (ho : NoOwed u) : NoOwed (stored l t u) := fun k => by
  have hk := ho k
  simp only [sched, stored, Table.get_modify] at hk ⊢
  split <;> exact hk

/-- The settings stored leave what decides whether a link can take (R165). -/
theorem linkTakes_stored (l : Link) (t : LinkSettings) (u : State) (k : Link) :
    (link (stored l t u) k).state = (link u k).state ∧ (sched (stored l t u) k).slot = (sched u k).slot ∧
      (sched (stored l t u) k).inFlight = (sched u k).inFlight := by
  simp only [link, sched, stored, Table.get_modify]
  split <;> exact ⟨rfl, rfl, rfl⟩

theorem idle_stored (hidle : Idle u) : Idle (stored l t u) := by
  refine hidle.imp (fun hlinks k => ?_) id
  obtain ⟨hstate, hslot, hflight⟩ := linkTakes_stored l t u k
  rw [hstate, hslot, hflight]
  exact hlinks k

/-- The reply to a LINK-SET joins a state that its attempts leave as `u`. -/
theorem replyVan_noOwed (hr : VanReady h i s) (hvan : u.cmu.van = []) (hu : v.noOwed = atHead h (.linkSet f) u) :
    (replyVan (headOf h (.linkSet f)) (settingsReply f) v).noOwed = repliedSet h i f u := by
  rw [← replyVan_linkSet hr hvan, ← hu]
  rfl

/-- The settings stored and the reply on the ring, but for the marks of attempts owed. -/
theorem replyVan_storeSettings (hr : VanReady h i s) (hq : Quiet u) :
    (replyVan (headOf h (.linkSet f)) (settingsReply f) (storeSettings l t (atHead h (.linkSet f) u))).noOwed =
      repliedSet h i f (stored l t u) := by
  refine replyVan_noOwed (u := stored l t u) hr hq.2.1 ?_
  rw [storeSettings_noOwed]
  exact noOwed_of (noOwed_stored (l := l) (t := t) hq.1)

/-- A LINK-SET that brings nothing due, where no take attempt moves a packet or none is asked for (R165, R183). -/
theorem exec_linkSet_stores (hr : VanReady h i s) (hq : Quiet u)
    (hset : linkSet f (atHead h (.linkSet f) s) = (applySettings l t (atHead h (.linkSet f) u), settingsReply f))
    (hproven : ¬ Proven l t u) (htime : ¬ TimesOut l t u)
    (hidle : Idle u ∨ ¬ Widens (link u l).settings t ∧ (t.kindPicture = true ∨ (sched u l).reservation = none)) :
    exec (.linkSet h f) s = .next (repliedSet h i f (stored l t u)) := by
  rw [exec_linkSet_settles hr hset, applySettings_stores (s := atHead h (.linkSet f) u) hproven htime]
  obtain hidle | ⟨hwidens, hpicture⟩ := hidle
  · rw [settleTakes_idle (replyVan_storeSettings hr hq) (idle_stored (l := l) (t := t) hidle)]
  · have hkept : storeSettings l t (atHead h (.linkSet f) u) = atHead h (.linkSet f) (stored l t u) :=
      storeSettings_asksNothing (s := atHead h (.linkSet f) u) hwidens hpicture
    rw [hkept, replyVan_linkSet hr (u := stored l t u) hq.2.1]
    exact congrArg _ (settleTakes_noOwed (noOwed_stored (l := l) (t := t) hq.1))

/-- A LINK-SET that widens what its link may take gives it a take attempt (R165 to R168). -/
theorem exec_linkSet_takes (hr : VanReady h i s) (hq : Quiet u)
    (hset : linkSet f (atHead h (.linkSet f) s) = (applySettings l t (atHead h (.linkSet f) u), settingsReply f))
    (hproven : ¬ Proven l t u) (htime : ¬ TimesOut l t u) (hwidens : Widens (link u l).settings t)
    (htakes : LinkTakes l (repliedSet h i f (stored l t u))) (hothers : ∀ k, k ≠ l → ¬ LinkTakes k u)
    (hattempt : TakeAttempt l (repliedSet h i f (stored l t u)) w) : exec (.linkSet h f) s = .next w := by
  rw [exec_linkSet_settles hr hset, applySettings_stores (s := atHead h (.linkSet f) u) hproven htime]
  have howed : (sched (storeSettings l t (atHead h (.linkSet f) u)) l).owed = true :=
    storeSettings_owes (s := atHead h (.linkSet f) u) hwidens
  refine congrArg _ (settleTakes_owes hattempt htakes (replyVan_storeSettings hr hq) howed fun k hk htake => hothers k hk ?_)
  obtain ⟨hstate, hslot, hflight⟩ := linkTakes_stored l t u k
  obtain ⟨hcarries, hfree, hroom⟩ := htake
  exact ⟨hstate ▸ hcarries, hslot ▸ hfree, hflight ▸ hroom⟩

/-- A LINK-SET that its link's probes reach takes the link UP, with no packet to take (R186). -/
theorem exec_linkSet_up (hr : VanReady h i s) (hq : Quiet u)
    (hset : linkSet f (atHead h (.linkSet f) s) = (applySettings l t (atHead h (.linkSet f) u), settingsReply f))
    (hproven : Proven l t u)
    (hyoung : ∀ e es, (sched u l).inFlight = e :: es → t.ackTimeout = (link u l).settings.ackTimeout ∨
      (u.tbu.tick - e.tick).toNat ≤ t.ackTimeout)
    (hfloor : t.floor ≤ (link u l).reported * t.share / 100) (hcode : (link u l).code = 0) (hfits : NoticeFits l u)
    (hempty : QueuesEmpty u) : exec (.linkSet h f) s = .next (repliedSet h i f (upIn l (stored l t u))) := by
  have hup : (applySettings l t (atHead h (.linkSet f) u)).noOwed = atHead h (.linkSet f) (upIn l (stored l t u)) := by
    rw [applySettings_up (s := atHead h (.linkSet f) u) hproven hyoung hfloor hcode ⟨hfits.noCopy, hfits.room, hfits.van⟩]
    exact noOwed_of (noOwed_stored (l := l) (t := t) hq.1)
  have hreply := replyVan_noOwed hr (u := upIn l (stored l t u)) hq.2.1 hup
  rw [exec_linkSet_settles hr hset, settleTakes_idle hreply (.inr hempty)]

/-- A fault applied before the reply is one applied after it. -/
theorem FaultApplied.replied {c : FaultClass} {b : Byte} {m : Msg} {r : Reply} (ha : FaultApplied l c b u v) :
    FaultApplied l c b (replyVan m r u) (replyVan m r v) where
  held := fun hstate => congrArg (replyVan m r) (ha.held hstate)
  ignored := fun hstate haction => congrArg (replyVan m r) (ha.ignored hstate haction)
  reported := fun hstate haction => congrArg (replyVan m r) (ha.reported hstate haction)
  degraded := fun hcarries haction => congrArg (replyVan m r) (ha.degraded hcarries haction)
  holds := fun ps hps hstate haction => congrArg (replyVan m r) (ha.holds ps hps hstate haction)

theorem Idle.replied {m : Msg} {r : Reply} (hidle : Idle u.noOwed) : Idle (replyVan m r u).noOwed := hidle

theorem faultSettles_timedOutIn (hfault : FaultSettles l u) {q : Seq} : FaultSettles l (timedOutIn l q (stored l t u)) := by
  refine ⟨hfault.noCopy, hfault.room, hfault.unpaired, fun k hk => ?_, ?_⟩
  · have hlink : link (timedOutIn l q (stored l t u)) k = link u k :=
      (Table.get_modify_ne _ _ (Ne.symm hk)).trans (Table.get_modify_ne _ _ (Ne.symm hk))
    rw [hlink]
    exact hfault.others k hk
  · refine hfault.full.imp (fun hslot => ?_) id
    exact (congrArg Option.isSome (linkTakes_stored l t u l).2.1).trans hslot

/-- A LINK-SET whose new ack timeout the oldest entry exceeds applies ACK-TIMEOUT (R190, R193). -/
theorem exec_linkSet_timesOut {e : InFlight} {es : List InFlight} (hr : VanReady h i s) (hq : Quiet u)
    (hset : linkSet f (atHead h (.linkSet f) s) = (applySettings l t (atHead h (.linkSet f) u), settingsReply f))
    (htime : TimesOut l t u) (hentries : (sched u l).inFlight = e :: es)
    (hstays : ¬ Widens (link u l).settings t ∧ (t.kindPicture = true ∨ (sched u l).reservation = none))
    (hfault : FaultSettles l u) :
    ∃ w, exec (.linkSet h f) s = .next w ∧
      FaultApplied l .ackTimeout (link u l).code (repliedSet h i f (timedOutIn l e.seq (stored l t u))) w := by
  obtain ⟨hwidens, hpicture⟩ := hstays
  have hkept := storeSettings_asksNothing (s := atHead h (.linkSet f) u) hwidens hpicture
  have hsettles : FaultSettles l (timedOutIn l e.seq (stored l t (atHead h (.linkSet f) u))) :=
    faultSettles_timedOutIn (u := atHead h (.linkSet f) u)
      ⟨hfault.noCopy, hfault.room, hfault.unpaired, hfault.others, hfault.full⟩
  have hclear : NoOwed (timedOutIn l e.seq (stored l t (atHead h (.linkSet f) u))) :=
    noOwed_stored (l := l) (t := t) (u := u) hq.1
  rw [exec_linkSet_settles hr hset, applySettings_timesOut (s := atHead h (.linkSet f) u) htime hentries hkept,
    settleTakes_idle rfl (applyFault_idle hsettles).replied]
  refine ⟨_, rfl, ?_⟩
  rw [← replyVan_linkSet hr (u := timedOutIn l e.seq (stored l t u)) hq.2.1]
  exact (applyFault_applied hsettles hclear).replied

/-- A permitted kind out of range, or a fault action pair out of range or barred, refuses the command (R183). -/
theorem exec_linkSet_barred (hr : VanReady h i s) (hlink : f.link = some l.val)
    (hbad : (∃ ks, f.kinds = some ks ∧ ∃ k ∈ ks, k = 0 ∨ 4 < k) ∨
      ∃ ps, f.actions = some ps ∧ ∃ p ∈ ps, p.1 = 0 ∨ 5 < p.1 ∨ p.2 = 0 ∨ 5 < p.2 ∨ p.1 = 5 ∧ 3 ≤ p.2) :
    exec (.linkSet h f) s = .next { s with sri := ringReply s.sri h i 18 5 [] } := by
  refine exec_linkSet_refused hr (linkSet_barred hlink ?_ (hbad.imp ?_ ?_))
  · rintro rfl
    simp at hbad
  · rintro ⟨ks, hks, hkind⟩
    rw [hks]
    exact kindsOf_none hkind
  · rintro ⟨ps, hps, hpair⟩
    rw [hps]
    exact actionsOf_none _ hpair

/-- The part with the caps of a pool section stored (R149). -/
def withOwners (owners : Table 6 OwnerRecord) (s : State) : State := { s with pkp := { s.pkp with owners := owners } }

/-- A LINK-SET with the pool section alone stores the caps (R149). -/
theorem exec_linkSet_caps {owners : Table 6 OwnerRecord} (hr : VanReady h i s) (hbare : hasLinkField f = false)
    (hcaps : setCaps f.caps s = withOwners owners s)
    (hlink : f.link = none ∨ f.link = some l.val ∧ f ≠ { link := some l.val }) :
    exec (.linkSet h f) s = .next { withOwners owners s with
      sri := ringReply s.sri h i 18 (doneCode (decide (∃ o, outside 0 16384 (f.caps.get o) = true))) [] } := by
  have hset : linkSet f (atHead h (.linkSet f) s) =
      (atHead h (.linkSet f) (withOwners owners s), { status := doneIf (linkClamped f) }) := by
    have hstate : setCaps f.caps (atHead h (.linkSet f) s) = atHead h (.linkSet f) (withOwners owners s) :=
      congrArg (atHead h (.linkSet f)) hcaps
    obtain hlink | ⟨hlink, hquery⟩ := hlink
    · rw [linkSet_unnamed hlink, hbare, hstate]
      rfl
    · obtain ⟨-, hkinds, -, -, -, -, -, -, -, hactions⟩ := hasLinkField_false.mp hbare
      rw [linkSet_taken (kinds := storedKinds (link s l).settings) (actions := (link s l).settings.actions) hlink hquery
        (by rw [hkinds]; rfl) (by rw [hactions]; rfl), hbare, hstate]
      rfl
  rw [exec_linkSet (u := withOwners owners s) hr hr.1 hset (doneIf_code _), linkClamped_eq, linkFieldsOutside_bare hbare,
    Bool.false_or]
  rfl

/-- The state in which a taken LINK-SET of link fields begins its work on the link. -/
theorem linkSet_settings {owners : Table 6 OwnerRecord} {kinds : Table 4 Bool} {actions : Table 5 FaultAction}
    (hcaps : setCaps f.caps s = withOwners owners s) (hfield : hasLinkField f = true) (hlink : f.link = some l.val)
    (hkinds : (f.kinds.map kindsOf).getD (some (storedKinds (link s l).settings)) = some kinds)
    (hactions : actionsOf (f.actions.getD []) (link s l).settings.actions = some actions) :
    linkSet f (atHead h (.linkSet f) s) = (applySettings l (formSettings f kinds actions (link s l).settings)
      (atHead h (.linkSet f) (withOwners owners s)), settingsReply f) := by
  have hquery : f ≠ { link := some l.val } := by
    rintro rfl
    exact absurd hfield (by simp [hasLinkField])
  have hstate : setCaps f.caps (atHead h (.linkSet f) s) = atHead h (.linkSet f) (withOwners owners s) :=
    congrArg (atHead h (.linkSet f)) hcaps
  rw [linkSet_taken (s := atHead h (.linkSet f) s) hlink hquery hkinds hactions, if_pos hfield, hstate]
  rfl

end

/-- Settles O49: LINK-SET without a link, of no link, as a query, barred, with the pool section alone, and of a link's fields by
what they bring due. -/
theorem linkSet_storesTheSettings : Obligations.LinkSet_StoresTheSettings := by
  intro h i f s owners caps hr howners hcaps bare hbare
  have hstored : setCaps f.caps s = withOwners owners s := setCaps_eq howners
  have hfields : bare ↔ hasLinkField f = false := hbare.trans hasLinkField_false.symm
  have hfield : ¬ bare → hasLinkField f = true := fun hb => by simpa [hfields] using hb
  subst hcaps
  refine ⟨fun hlink hb => ?_, fun hlink hb => ?_, fun n hlink hn => ?_, ?_⟩
  · refine exec_linkSet_refused hr ?_
    rw [linkSet_unnamed hlink, if_pos (hfield hb)]
  · exact exec_linkSet_caps (l := 0) hr (hfields.mp hb) hstored (.inl hlink)
  · exact exec_linkSet_refused hr (linkSet_outside hlink hn)
  · rintro l old hlink rfl
    refine ⟨fun hquery => ?_, fun hbad => ?_, fun hquery hb => ?_, fun hb hkinds hactions => ?_⟩
    · subst hquery
      exact exec_linkSet (u := s) hr hr.1 (linkSet_query l _) rfl
    · exact exec_linkSet_barred hr hlink hbad
    · exact exec_linkSet_caps hr (hfields.mp hb) hstored (.inr ⟨hlink, hquery⟩)
    · obtain ⟨kinds, hset, hformed⟩ := kinds_formed (link s l).settings hkinds
      obtain ⟨actions, hacts, hkept, hlast⟩ := actions_named (link s l).settings.actions hactions
      have hq : Quiet (withOwners owners s) := hr.1
      have htaken := linkSet_settings (h := h) hstored (hfield hb) hlink hset hacts
      obtain ⟨hnone, hsome⟩ := hformed actions _ rfl
      refine ⟨_, actions, hkept, hlast, hnone, hsome, formSettings_eq kinds actions _, ?_⟩
      generalize formSettings f kinds actions (link s l).settings = new at htaken
      intro u judged raised stays hu hjudged hraised hstays
      have hreplied : u = repliedSet h i f (stored l new (withOwners owners s)) := by
        rw [hu, repliedSet, linkClamped_eq]
        rfl
      have hnotJudged : ¬ judged → ¬ Proven l new (withOwners owners s) ∧ ¬ TimesOut l new (withOwners owners s) :=
        fun hj => not_or.mp (mt hjudged.mpr hj)
      have hstill : stays → ¬ Widens (link s l).settings new ∧ (new.kindPicture = true ∨ (sched s l).reservation = none) :=
        fun h => (hstays.mp h).imp_left (mt hraised.mpr)
      clear hu
      subst hreplied
      refine ⟨fun hj hidle => ?_, fun w hj hraise htakes hothers hattempt => ?_,
        fun p hstate hp hcount hyoung hfloor hcode hempty hcopy hroom hvan => ?_,
        fun e es hcarries hentries hchange hold hseq hs hfault => ?_⟩
      · obtain ⟨hproven, htime⟩ := hnotJudged hj
        exact exec_linkSet_stores hr hq htaken hproven htime (or_assoc.mpr hidle |>.imp id hstill)
      · obtain ⟨hproven, htime⟩ := hnotJudged hj
        exact exec_linkSet_takes hr hq htaken hproven htime (hraised.mp hraise) htakes hothers hattempt
      · have hcapacity := congrArg LinkRecord.capacity (link_stored l new (withOwners owners s))
        rw [exec_linkSet_up hr hq htaken ⟨p, hstate, hp, hcount⟩ hyoung (hfloor.trans_eq hcapacity) hcode
          ⟨hcopy, hroom, hvan⟩ hempty, upIn_stored]
        rfl
      · exact exec_linkSet_timesOut hr hq htaken ⟨e, es, hcarries, hentries, hchange, hold, hseq⟩ hentries (hstill hs)
          ⟨hfault.noCopy, hfault.room, hfault.unpaired, hfault.others, hfault.full⟩

end Sys2Proof.Machine
end

section
/-! PROOF. Every step makes the take attempts that it owes, and keeps the command queues, the pool and the in-flight lists (R146,
R147, R165, R171, R203). -/

namespace Sys2Proof.Machine

/-! ### Take attempts settled (R165) -/

/-- The attempts are made until none is owed. -/
theorem noOwed_settle (n : Nat) (s : State) : NoOwed (settle n s) := by
  induction n generalizing s with
  | zero => exact fun l => by simp [settle, sched, State.onHsc]
  | succ n ih =>
    simp only [settle]
    split
    · exact ih _
    · rename_i hnone
      intro l
      simpa using List.any_eq_false.mp (Bool.not_eq_true _ ▸ hnone) l (mem_four l)

/-- Power-on reset owes no attempt, and every other command ends with those that it owes. -/
theorem exec_settlesTakes {s t : State} (c : Instr) (e : exec c s = .next t) : NoOwed t := by
  have hfinish : ∀ u, NoOwed (finish u) := fun u => noOwed_settle 8 (serve u)
  cases c <;> simp only [exec] at e <;> injection e with e <;> subst e
  case powerOnReset => exact fun l => by simp [resetBlocks, State.reset, sched]
  all_goals exact hfinish _

/-! ### The command queues (R203) -/

section
variable {s t : State}

theorem CommandQueuesOk.of_waits (h : CommandQueuesOk s.cmu) (hw : t.waits = s.waits) : CommandQueuesOk t.cmu :=
  ⟨(vanOf hw).symm ▸ h.van, (homeOf hw).symm ▸ h.home⟩

theorem commandQueuesOk_reset (s : State) : CommandQueuesOk (resetBlocks s).cmu := ⟨Nat.zero_le _, Nat.zero_le _⟩

theorem CommandQueuesOk.ite {p : Prop} [Decidable p] (ht : CommandQueuesOk t.cmu) (hs : CommandQueuesOk s.cmu) :
    CommandQueuesOk (if p then t else s).cmu := by
  split
  · exact ht
  · exact hs

theorem CommandQueuesOk.onTbu (h : CommandQueuesOk s.cmu) (f : Timebase → Timebase) : CommandQueuesOk (s.onTbu f).cmu := h

theorem CommandQueuesOk.raiseFlag (h : CommandQueuesOk s.cmu) (f : EventFlag) : CommandQueuesOk (raiseFlag f s).cmu :=
  h.of_waits (raiseFlag_waits ..)

/-- A message joins its queue while fewer than 8 wait there. -/
theorem CommandQueuesOk.submit (h : CommandQueuesOk s.cmu) (m : Msg) : CommandQueuesOk (submit m s).cmu := by
  simp only [Machine.submit]
  split
  · simp only [joinVan]
    split
    · rename_i hroom
      have hlen : s.cmu.van.length < 8 := hroom
      refine ⟨?_, h.home⟩
      simp only [State.onCmu_cmu, List.length_append, List.length_singleton]
      omega
    · split
      · exact CommandQueuesOk.raiseFlag (by exact h) _
      · refine CommandQueuesOk.raiseFlag ?_ _
        exact ⟨h.van, h.home⟩
  · simp only [joinHome]
    split
    · rename_i hroom
      have hlen : s.cmu.home.length < 8 := hroom
      refine ⟨h.van, ?_⟩
      simp only [State.onCmu_cmu, List.length_append, List.length_singleton]
      omega
    · have hrequest := request_waits .labelReply 1 s
      split
      all_goals
        rename_i hr
        rw [hr] at hrequest
        refine CommandQueuesOk.raiseFlag ?_ _
      · exact h.of_waits ((appendPackets_waits ..).trans hrequest)
      · exact ⟨vanOf hrequest ▸ h.van, homeOf hrequest ▸ h.home⟩

/-- The owner of a command keeps the queues; RESET MEDIA leaves at most its own message in the HOME queue (R211). -/
theorem CommandQueuesOk.answer (h : CommandQueuesOk s.cmu) (m : Msg) : CommandQueuesOk (answer m s).1.cmu := by
  simp only [Machine.answer]
  split
  · exact h.raiseFlag _
  · exact h
  next c _ =>
    split
    · exact h
    · obtain ⟨-, hvan, hhome⟩ := perform_queues m c s
      refine ⟨hvan ▸ h.van, ?_⟩
      rw [hhome]
      split
      · split <;> simp
      · exact h.home

theorem CommandQueuesOk.offerHome (h : CommandQueuesOk s.cmu) (tag : Byte) (body : List Byte) :
    CommandQueuesOk (offerHome tag body s).cmu := by
  refine ⟨(offerHome_van tag body s).symm ▸ h.van, ?_⟩
  have hrequest := homeOf (request_waits .labelReply (blocksFor (Config.packetHeaderBytes + body.length))
    (s.onCmu fun c => { c with held := some { tag := tag, bytes := body } }))
  simp only [Machine.offerHome]
  split
  all_goals
    rename_i hr
    rw [hr] at hrequest
  · have hlen := h.home
    have happend := homeOf (appendPackets_waits .reply [replyPacket (some tag) body ‹_› s.tbu.tick] ‹State›)
    simp only [leaveHome, State.onCmu_cmu, List.length_tail] at *
    rw [happend, hrequest]
    omega
  · rw [hrequest]
    exact h.home

theorem CommandQueuesOk.dispatchVan (h : CommandQueuesOk s.cmu) (m : Msg) : CommandQueuesOk (dispatchVan m s).cmu := by
  refine CommandQueuesOk.ite (commandQueuesOk_reset s) ?_
  have hlen := (h.answer m).van
  refine ⟨?_, (h.answer m).home⟩
  simp only [replyVan, State.onCmu_cmu, State.onSri_cmu, List.length_tail]
  omega

theorem CommandQueuesOk.dispatchHome (h : CommandQueuesOk s.cmu) (m : Msg) : CommandQueuesOk (dispatchHome m s).cmu :=
  CommandQueuesOk.ite (commandQueuesOk_reset s) ((h.answer m).offerHome ..)

theorem CommandQueuesOk.serveVan (n : Nat) (h : CommandQueuesOk s.cmu) : CommandQueuesOk (serveVan n s).cmu := by
  induction n generalizing s with
  | zero => exact h
  | succ n ih =>
    simp only [Machine.serveVan]
    split
    · exact h
    · exact CommandQueuesOk.ite (ih (h.dispatchVan _)) h

theorem CommandQueuesOk.serveHome (n : Nat) (h : CommandQueuesOk s.cmu) : CommandQueuesOk (serveHome n s).cmu := by
  induction n generalizing s with
  | zero => exact h
  | succ n ih =>
    simp only [Machine.serveHome]
    split
    · exact ih (h.dispatchHome _)
    · exact h

theorem CommandQueuesOk.finish (h : CommandQueuesOk s.cmu) : CommandQueuesOk (finish s).cmu :=
  ((h.serveVan _).serveHome _).of_waits (settleTakes_waits _)

/-! ### The queues under cells, return packets and periods (R202, R205, R210) -/

theorem CommandQueuesOk.route (h : CommandQueuesOk s.cmu) (i : RingStream) {use : Dest → Option (State → State)}
    (huse : ∀ d f, use d = some f → CommandQueuesOk (f s).cmu) : CommandQueuesOk (route i use s).cmu := by
  simp only [Machine.route]
  split
  · exact h
  · split
    next f hf => exact huse _ f hf
    next => exact h

theorem CommandQueuesOk.discarded (h : CommandQueuesOk s.cmu) (i : RingStream) :
    CommandQueuesOk (discardAssembly (setPartial i none s)).cmu :=
  h.of_waits ((discardAssembly_waits _).trans (setPartial_waits ..))

theorem CommandQueuesOk.assemble (h : CommandQueuesOk s.cmu) (src : Src) (i : RingStream) (a : Assembling) :
    CommandQueuesOk (assemble src i a s).cmu :=
  CommandQueuesOk.ite (CommandQueuesOk.submit (by exact h) _) h

theorem CommandQueuesOk.controlFirst (h : CommandQueuesOk s.cmu) (i : RingStream) (kind tag : Byte) (count length : Nat)
    (body : List Byte) : CommandQueuesOk (controlFirst i kind tag count length body s).cmu := by
  refine CommandQueuesOk.ite (h.discarded i) (h.route i fun d f hf => ?_)
  obtain ⟨src, -, rfl⟩ := Option.map_eq_some_iff.mp hf
  exact (CommandQueuesOk.ite (h.discarded i) h).assemble ..

theorem CommandQueuesOk.controlContinuation (h : CommandQueuesOk s.cmu) (i : RingStream) (index : Nat) (body : List Byte) :
    CommandQueuesOk (controlContinuation i index body s).cmu := by
  refine h.route i fun d f hf => ?_
  obtain ⟨src, -, rfl⟩ := Option.map_eq_some_iff.mp hf
  simp only [continuationCell]
  split
  · exact h.of_waits (discardAssembly_waits s)
  · exact CommandQueuesOk.ite (h.assemble ..) (h.discarded i)

theorem CommandQueuesOk.ringCell (h : CommandQueuesOk s.cmu) (c : RingCell) : CommandQueuesOk (ringCell c s).cmu := by
  cases c with
  | sound => exact h.of_waits (soundCell_waits ..)
  | tally => exact h.of_waits (tallyCell_waits ..)
  | first => exact h.controlFirst ..
  | continuation => exact h.controlContinuation ..
  | other => exact h.of_waits (otherCell_waits ..)

theorem CommandQueuesOk.returnPacket (h : CommandQueuesOk s.cmu) (p : ReturnPacket) :
    CommandQueuesOk (returnPacket p s).cmu := by
  cases p with
  | ack => exact h.of_waits (ackPacket_waits ..)
  | refresh => exact h.of_waits (refreshReturn_waits ..)
  | control => exact h.submit _
  | bad => exact h

theorem CommandQueuesOk.retryHome (h : CommandQueuesOk s.cmu) : CommandQueuesOk (retryHome s).cmu := by
  have hheld : CommandQueuesOk (retryHeld s).cmu := by
    simp only [retryHeld]
    split
    · exact h
    · exact (h.offerHome ..).serveHome _
  exact CommandQueuesOk.ite (hheld.of_waits (sendHomeNotices_waits ..)) hheld

theorem CommandQueuesOk.startPeriod (h : CommandQueuesOk s.cmu) : CommandQueuesOk (startPeriod s).cmu := by
  simp only [Machine.startPeriod, deliverPeriod]
  refine CommandQueuesOk.retryHome (h.of_waits ?_)
  rw [retryLabels_waits, countPostRoll_waits, allocation_waits, firstAllocated_waits]
  rfl

theorem CommandQueuesOk.periodIfDue (h : CommandQueuesOk s.cmu) : CommandQueuesOk (periodIfDue s).cmu :=
  CommandQueuesOk.ite h.startPeriod h

theorem codeStartsDue_waits (n : Nat) (s : State) : (codeStartsDue n s).waits = s.waits := by
  induction n generalizing s with
  | zero => rfl
  | succ n ih =>
    simp only [codeStartsDue]
    split
    · rw [ih, codeStartIfDue_waits]
    · rfl

theorem CommandQueuesOk.caughtUp (h : CommandQueuesOk s.cmu) : CommandQueuesOk (caughtUp s).cmu := by
  refine CommandQueuesOk.finish (h.periodIfDue.of_waits ?_)
  rw [catchUp, foldl_waits _ fun s l => timersIfDue_waits l s, blockIfDue_waits, codeStartsDue_waits]

theorem CommandQueuesOk.ringFrame (h : CommandQueuesOk s.cmu) (elapsed : Nat) : CommandQueuesOk (ringFrame elapsed s).cmu := by
  have hfilled : CommandQueuesOk (fillSlot (Machine.caughtUp s)).cmu :=
    ⟨(fillSlot_van _).symm ▸ h.caughtUp.van, (fillSlot_home _).symm ▸ h.caughtUp.home⟩
  simp only [Machine.ringFrame]
  split
  · apply CommandQueuesOk.startPeriod
    apply hfilled.onTbu
  · apply hfilled.onTbu

theorem CommandQueuesOk.missFrame (h : CommandQueuesOk s.cmu) : CommandQueuesOk (missFrame s).cmu := by
  simp only [Machine.missFrame]
  split
  · apply CommandQueuesOk.raiseFlag
    apply h.caughtUp.onTbu
  · apply h.caughtUp.onTbu

/-- Every command keeps the command queues to 8 messages. -/
theorem CommandQueuesOk.exec (h : CommandQueuesOk s.cmu) (c : Instr) (e : exec c s = .next t) : CommandQueuesOk t.cmu := by
  have hsame : ∀ u : State, u.waits = s.waits → CommandQueuesOk (Machine.finish u).cmu := fun u hu => (h.of_waits hu).finish
  cases c <;> simp only [Machine.exec] at e <;> injection e with e <;> subst e
  case powerOnReset => exact commandQueuesOk_reset s
  case ringFrameStart => exact (h.ringFrame _).finish
  case missedFrame => exact h.missFrame.finish
  case localTick => exact CommandQueuesOk.finish (h.caughtUp.onTbu _)
  case periodStart => exact h.periodIfDue.finish
  case codeStart => exact hsame _ (codeStartIfDue_waits _)
  case fragmentClose => exact hsame _ (closeFragment_waits ..)
  case bandCompletion => exact hsame _ (bandEnds_waits ..)
  case blockEvent => exact hsame _ (blockIfDue_waits _)
  case pictureStartSignal => exact hsame _ rfl
  case pictureEndComplete => exact hsame _ (pictureCompletes_waits ..)
  case pictureEndBroken => exact hsame _ rfl
  case soundCell => exact hsame _ (soundCell_waits ..)
  case tallyCell => exact hsame _ (tallyCell_waits ..)
  case controlFirstCell => exact (h.controlFirst ..).finish
  case controlContinuationCell => exact (h.controlContinuation ..).finish
  case unroutedCell => exact (h.ringCell _).finish
  case unknownCommand => exact (h.submit _).finish
  case ack => exact hsame _ (ackPacket_waits ..)
  case refreshPacket => exact hsame _ (refreshReturn_waits ..)
  case controlPacket => exact (h.submit _).finish
  case capacityReport => exact hsame _ (takeCapacity_waits ..)
  case faultReport => exact hsame _ (takeFaultReport_waits ..)
  case takenReport => exact hsame _ (takenReport_waits ..)
  case triggerAnswer => exact hsame _ (answerTrigger_waits ..)
  case ignoredReturnPacket => exact (h.returnPacket _).finish
  case ignoredModemReport => exact hsame _ (modemReport_waits ..)
  case probeBuild => exact hsame _ (probeIfDue_waits ..)
  case provingDeadline => exact hsame _ (deadlineIfDue_waits ..)
  case retryExpiry => exact hsame _ (retryIfDue_waits ..)
  case recoveryExpiry => exact hsame _ (recoveryIfDue_waits ..)
  case windowEnd => exact hsame _ (windowIfDue_waits ..)
  case ackTimeout => exact hsame _ (timeoutIfDue_waits ..)
  all_goals exact (h.submit _).finish

end

/-- Settles O59: an idle step by itself; every command by `exec_settlesTakes`, `CommandQueuesOk.exec` and `Ok.exec`, which read no
waiting command. -/
theorem step_settlesTakesAndQueues : Obligations.Step_SettlesTakesAndQueues := by
  intro s t hstep
  rw [step] at hstep
  split at hstep
  next =>
    obtain rfl := Host.Outcome.next.inj hstep
    exact ⟨id, id, And.intro⟩
  next c rest _ =>
    refine ⟨fun _ => exec_settlesTakes c hstep, fun h => CommandQueuesOk.exec (s := { s with pending := rest }) h c hstep,
      fun hpool hlanes => ?_⟩
    have hbooks : Ok 0 { s with pending := rest } := (ok_iff (s := s)).mpr ⟨hpool, hlanes⟩
    exact ok_iff.mp (hbooks.exec c hstep)

end Sys2Proof.Machine
end

section
/-! PROOF. Cells, return packets and modem reports of no usable form (R178, R199, R213 to R215). -/

namespace Sys2Proof.Machine

section
variable {stream kind : Byte} {rest : List Byte} {i : RingStream} {s : State}

/-! ### What the bytes spell (12.1, 12.3) -/

theorem kind_toNat {n : Nat} (hn : n < 256) : kind = BitVec.ofNat 8 n ↔ kind.toNat = n := by
  rw [BitVec.toNat_eq, BitVec.toNat_ofNat, Nat.mod_eq_of_lt (by simpa using hn)]

/-- A cell whose kind byte is none of SOUND, TALLY, CONTROL-first and CONTROL-continuation (R213). -/
theorem parseCell_other (hkind : kind.toNat = 0 ∨ 4 < kind.toNat) :
    parseCell (stream :: kind :: rest) = .other stream.toFin kind := by
  have hbyte : byteAt (stream :: kind :: rest) 1 = kind := rfl
  simp only [parseCell, hbyte]
  split
  all_goals first
    | omega
    | rfl

/-- R214: a return packet that is none of ACK, REFRESH and CONTROL, or not of its kind's length. -/
theorem parseReturn_bad (hform : ¬(kind = 1 ∧ rest.length = 4 ∨ kind = 2 ∧ rest.length = 1 ∨ kind = 3 ∧ 5 ≤ rest.length)) :
    parseReturn (kind :: rest) = .bad := by
  have hbyte : byteAt (kind :: rest) 0 = kind := rfl
  simp only [parseReturn, hbyte, List.length_cons]
  split
  case h_1 hk => rw [if_neg fun hlen => hform (.inl ⟨(kind_toNat (by decide)).mpr hk, by omega⟩)]
  case h_2 hk => rw [if_neg fun hlen => hform (.inr (.inl ⟨(kind_toNat (by decide)).mpr hk, by omega⟩))]
  case h_3 hk => rw [if_neg fun hlen => hform (.inr (.inr ⟨(kind_toNat (by decide)).mpr hk, by omega⟩))]
  case h_4 => rfl

/-- R215: a modem report that is none of CAPACITY, FAULT and TAKEN, or not of its kind's length. -/
theorem parseReport_bad (hform : ¬(kind = 1 ∧ rest.length = 4 ∨ kind = 2 ∧ rest.length = 1 ∨ kind = 3 ∧ rest.length = 3)) :
    parseReport (kind :: rest) = .bad := by
  have hbyte : byteAt (kind :: rest) 0 = kind := rfl
  simp only [parseReport, hbyte, List.length_cons]
  split
  case h_1 hk => rw [if_neg fun hlen => hform (.inl ⟨(kind_toNat (by decide)).mpr hk, by omega⟩)]
  case h_2 hk => rw [if_neg fun hlen => hform (.inr (.inl ⟨(kind_toNat (by decide)).mpr hk, by omega⟩))]
  case h_3 hk => rw [if_neg fun hlen => hform (.inr (.inr ⟨(kind_toNat (by decide)).mpr hk, by omega⟩))]
  case h_4 => rfl

/-! ### Routing (R199) -/

theorem route_none {use : Dest → Option (State → State)} (h : s.sri.table.get i = .none) :
    route i use s = countUnrouted s := by
  simp only [route, h]

theorem route_wrongKind (h : s.sri.table.get i ≠ .none) : route i (fun _ => none) s = countWrongKind s := by
  cases hdest : s.sri.table.get i with
  | none => exact absurd hdest h
  | soundInput | tally | desk | control => simp only [route, hdest]

/-- A cell of one of the four kinds that a stream may name, on a stream that names no destination. -/
theorem ringCell_unrouted (hkind : kind.toNat = 1 ∨ kind.toNat = 4 ∨ kind.toNat = 5 ∨ kind.toNat = 6)
    (h : s.sri.table.get stream.toFin = .none) : ringCell (parseCell (stream :: kind :: rest)) s = countUnrouted s := by
  have hbyte : byteAt (stream :: kind :: rest) 1 = kind := rfl
  obtain hk | hk | hk := hkind
  · simp only [parseCell, hbyte, hk]
    exact route_none h
  · simp only [parseCell, hbyte, hk]
    exact route_none h
  · rw [parseCell_other (by omega)]
    simp only [ringCell, otherCell, if_pos hk]
    exact route_none h

theorem exec_unroutedCell {t : State} (hq : Quiet s) (hcell : ringCell (parseCell (stream :: kind :: rest)) s = t)
    (hhsc : t.hsc = s.hsc) (hcmu : t.cmu = s.cmu) : exec (.unroutedCell (stream :: kind :: rest)) s = .next t := by
  show Host.Outcome.next (finish (ringCell (parseCell (stream :: kind :: rest)) s)) = _
  rw [hcell, finish_kept hq hhsc hcmu]

theorem exec_unroutedCell_noKind (hq : Quiet s) (hkind : kind.toNat = 0 ∨ 6 < kind.toNat) :
    exec (.unroutedCell (stream :: kind :: rest)) s = .next (countWrongKind s) := by
  refine exec_unroutedCell hq ?_ rfl rfl
  rw [parseCell_other (by omega)]
  simp only [ringCell, otherCell, if_neg (show ¬(kind.toNat = 5 ∨ kind.toNat = 6) by omega)]

theorem exec_unroutedCell_wrongKind (hq : Quiet s) (hkind : kind.toNat = 5 ∨ kind.toNat = 6)
    (h : s.sri.table.get stream.toFin ≠ .none) :
    exec (.unroutedCell (stream :: kind :: rest)) s = .next (countWrongKind s) := by
  refine exec_unroutedCell hq ?_ rfl rfl
  rw [parseCell_other (by omega)]
  simp only [ringCell, otherCell, if_pos hkind]
  exact route_wrongKind h

/-! ### Home requests ignored (R178) -/

theorem finish_ignoreHome (hq : Quiet s) : finish (ignoreHome s) = ignoreHome s := finish_quiet ⟨hq.1, hq.2⟩

end

/-- Settles O38: cells by their kind byte and their stream's entry; packets and reports by what their bytes spell. -/
theorem unusableInput_isCounted : Obligations.UnusableInput_IsCounted := by
  refine fun s hq => ⟨fun stream kind rest => ⟨fun hkind => ?_, fun hkind hdest => ?_, fun hkind hdest => ?_⟩,
    fun kind rest => ⟨fun hform => ?_, fun l hform => ?_⟩⟩
  · exact exec_unroutedCell_noKind hq (hkind.imp_left (kind_toNat (by decide)).mp)
  · refine exec_unroutedCell hq (ringCell_unrouted ?_ hdest) rfl rfl
    exact hkind.imp (kind_toNat (by decide)).mp (Or.imp (kind_toNat (by decide)).mp
      (Or.imp (kind_toNat (by decide)).mp (kind_toNat (by decide)).mp))
  · exact exec_unroutedCell_wrongKind hq (hkind.imp (kind_toNat (by decide)).mp (kind_toNat (by decide)).mp) hdest
  · show Host.Outcome.next (finish (returnPacket (parseReturn (kind :: rest)) s)) = _
    rw [parseReturn_bad hform, returnPacket, finish_ignoreHome hq]
    rfl
  · show Host.Outcome.next (finish (modemReport l (parseReport (kind :: rest)) s)) = _
    rw [parseReport_bad hform, modemReport, finish_ignoreHome hq]
    rfl

end Sys2Proof.Machine
end

section
/-! PROOF. LINK-UP, LINK-CLEAR and the retry expiry: the entry to PROVING (R172, R174, R184, R185, R195, R196). -/

namespace Sys2Proof.Machine

section
variable {h : Hdr} {i : RingStream} {l : Link} {n : Option Nat} {cmd : Option OpenCommand} {s : State}

/-! ### The entry to PROVING (R172, R174, R185) -/

/-- A link's scheduling as its entry to PROVING at tick `now` leaves it: a new epoch, and the first probe in the slot. -/
def LinkSched.probing (now : Tick) (k : LinkSched) : LinkSched :=
  { k with
    epoch := k.epoch + 1, nextSeq := 0, lastAck := 65535, credit := 0, carry := 0
    slot := some {
      packet := {
        kind := .probe, owner := none, subject := none, number := 0, stamp := now, size := 24,
        payload := [0, 1, 0, 0, 0, 0, 0, 0] }
      epoch := k.epoch + 1, seq := 0, offered := now } }

/-- The record of a link that has entered PROVING at tick `now` for the command `cmd`, with one probe sent. -/
def LinkRecord.provingAt (now : Tick) (cmd : Option OpenCommand) (r : LinkRecord) : LinkRecord :=
  { r with
    state := .proving, retry := none, openCommand := cmd
    proving := some {
      sent := 1, retired := 0, deadline := now + BitVec.ofNat 32 r.settings.proveTimeout, nextProbe := now + 2400 } }

/-- The state in which link `l` has entered PROVING. -/
def provingIn (l : Link) (cmd : Option OpenCommand) (s : State) : State :=
  (s.onSched l (LinkSched.probing s.tbu.tick)).onLink l (LinkRecord.provingAt s.tbu.tick cmd)

theorem tableModify_congr {k : Nat} {α : Type} {t : Table k α} {j : Fin k} {f g : α → α} (hfg : f (t.get j) = g (t.get j)) :
    t.modify j f = t.modify j g := congrArg (t.set j) hfg

/-- A link without traffic enters PROVING with its first probe in the slot. -/
theorem enterProving_eq (hslot : (sched s l).slot = none) (hflight : (sched s l).inFlight = []) :
    enterProving l cmd s = provingIn l cmd s := by
  simp only [sched] at hslot hflight
  have hsched : ((s.hsc.links.modify l fun k =>
        { k with epoch := k.epoch + 1, nextSeq := 0, lastAck := 65535, credit := 0, carry := 0 }).modify l fun k =>
      if k.slot.isNone && decide (k.inFlight.length < Config.inFlightMax) then
        { k with slot := some ⟨{
            kind := .probe, owner := none, subject := none, number := 0, stamp := s.tbu.tick, size := 24,
            payload := probePayload 1 }, k.epoch, k.nextSeq, s.tbu.tick⟩ }
      else k) = s.hsc.links.modify l (LinkSched.probing s.tbu.tick) := by
    rw [Table.modify_modify]
    apply tableModify_congr
    simp only [hslot, hflight, Option.isNone_none, List.length_nil, Config.inFlightMax, Nat.zero_lt_succ, decide_true,
      Bool.and_self, if_true, LinkSched.probing]
    rfl
  simp only [enterProving, newEpoch, giveProbe, offerProbe, State.onSched, State.onHsc, State.onLink, link,
    Table.get_modify_self, Table.modify_modify, Option.map_some] at hsched ⊢
  rw [hsched]
  rfl

theorem noOwed_provingIn (ho : NoOwed s) : NoOwed (provingIn l cmd s) := fun k => by
  have hk := ho k
  simp only [sched, provingIn, State.onLink, State.onSched, State.onHsc, Table.get_modify] at hk ⊢
  split
  · exact hk
  · exact hk

/-! ### LINK-UP and LINK-CLEAR (R184, R196) -/

/-- The command that opens a proving (R184). -/
def opens (h : Hdr) : OpenCommand := { tag := h.tag, origin := .van }

theorem exec_linkUp_absent (hr : VanReady h i s) (hn : n = none ∨ ∃ v, n = some v ∧ 3 < v) :
    exec (.linkUp h n) s = .next { s with sri := ringReply s.sri h i 19 5 [] } := by
  refine exec_refused (c := .linkUp n) (r := .refusedRange) rfl hr ?_ rfl (by simp)
  simp only [perform, linkUp, objectOf_none hn]

theorem exec_linkUp_refused (hr : VanReady h i s) (hn : n = some l.val) (hstate : (link s l).state ≠ .down) :
    exec (.linkUp h n) s = .next { s with sri := ringReply s.sri h i 19 4 [] } := by
  refine exec_refused (c := .linkUp n) (r := .refusedState) rfl hr ?_ rfl (by simp)
  simp only [perform, linkUp, objectOf_some hn]
  exact if_neg hstate

theorem exec_linkUp_proves (hr : VanReady h i s) (hn : n = some l.val) (hstate : (link s l).state = .down)
    (hslot : (sched s l).slot = none) (hflight : (sched s l).inFlight = []) :
    exec (.linkUp h n) s = .next { provingIn l (some (opens h)) s with sri := ringReply s.sri h i 19 3 [] } := by
  refine exec_answered (u := provingIn l (some (opens h)) s) (m := .linkUp n) (status := .accepted) rfl hr rfl (by simp)
    ⟨noOwed_provingIn hr.1.1, hr.1.2⟩ ?_ rfl
  simp only [perform, linkUp, objectOf_some hn, headOf, hr.2.1, srcOrigin]
  rw [if_pos (by exact hstate), enterProving_eq (by exact hslot) (by exact hflight)]
  rfl

theorem exec_linkClear_absent (hr : VanReady h i s) (hn : n = none ∨ ∃ v, n = some v ∧ 3 < v) :
    exec (.linkClear h n) s = .next { s with sri := ringReply s.sri h i 21 5 [] } := by
  refine exec_refused (c := .linkClear n) (r := .refusedRange) rfl hr ?_ rfl (by simp)
  simp only [perform, linkClear, objectOf_none hn]

theorem exec_linkClear_refused (hr : VanReady h i s) (hn : n = some l.val) (hstate : (link s l).state = .proving) :
    exec (.linkClear h n) s = .next { s with sri := ringReply s.sri h i 21 4 [] } := by
  refine exec_refused (c := .linkClear n) (r := .refusedState) rfl hr ?_ rfl (by simp)
  have hhead : (link (atHead h (.linkClear n) s) l).state = .proving := hstate
  simp only [perform, linkClear, objectOf_some hn, hhead]

theorem exec_linkClear_empties (hr : VanReady h i s) (hn : n = some l.val) (hproving : (link s l).state ≠ .proving)
    (hheld : (link s l).state ≠ .held) :
    exec (.linkClear h n) s = .next { s with
      lsu := s.lsu.modify l fun r => { r with firstFault := none }
      sri := ringReply s.sri h i 21 1 [] } := by
  refine exec_answered (u := s.onLink l fun r => { r with firstFault := none }) (m := .linkClear n) (status := .done) rfl hr
    rfl (by simp) hr.1 ?_ rfl
  cases hstate : (link s l).state with
  | held => exact absurd hstate hheld
  | proving => exact absurd hstate hproving
  | down | up | degraded =>
    have hhead : (link (atHead h (.linkClear n) s) l).state = _ := hstate
    simp only [perform, linkClear, objectOf_some hn, hhead]
    rfl

theorem exec_linkClear_proves (hr : VanReady h i s) (hn : n = some l.val) (hstate : (link s l).state = .held)
    (hslot : (sched s l).slot = none) (hflight : (sched s l).inFlight = []) :
    exec (.linkClear h n) s = .next { provingIn l (some (opens h)) s with sri := ringReply s.sri h i 21 3 [] } := by
  refine exec_answered (u := provingIn l (some (opens h)) s) (m := .linkClear n) (status := .accepted) rfl hr rfl (by simp)
    ⟨noOwed_provingIn hr.1.1, hr.1.2⟩ ?_ rfl
  have hhead : (link (atHead h (.linkClear n) s) l).state = .held := hstate
  simp only [perform, linkClear, objectOf_some hn, hhead, headOf, hr.2.1, srcOrigin]
  rw [enterProving_eq (by exact hslot) (by exact hflight)]
  rfl

/-! ### The retry expiry (R195) -/

theorem retryDue_iff : retryDue l s = true ↔
    (link s l).state = .held ∧ ∃ t, (link s l).retry = some t ∧ (s.tbu.tick - t).toNat ≤ 2147483647 := by
  cases hretry : (link s l).retry <;> simp [retryDue, hretry, reached, atOrBefore]

theorem exec_retryExpiry_early (hq : Quiet s) (hdue : ¬ retryDue l s = true) : exec (.retryExpiry l) s = .next s := by
  show Host.Outcome.next (finish (retryIfDue l s)) = _
  rw [retryIfDue, if_neg hdue, finish_quiet hq]

theorem exec_retryExpiry_proves (hq : Quiet s) (hdue : retryDue l s = true) (hslot : (sched s l).slot = none)
    (hflight : (sched s l).inFlight = []) : exec (.retryExpiry l) s = .next (provingIn l none s) := by
  show Host.Outcome.next (finish (retryIfDue l s)) = _
  rw [retryIfDue, if_pos hdue, enterProving_eq hslot hflight, finish_quiet ⟨noOwed_provingIn hq.1, hq.2⟩]

end

/-- Settles O50: the two commands by their link and its state, and the retry expiry by what is due. -/
theorem linkUpClearRetry_enterProving : Obligations.LinkUpClearRetry_EnterProving := by
  intro s entered hentered
  have hproving : ∀ l cmd, entered l cmd = provingIn l cmd s := hentered
  refine ⟨fun h i n hr => ⟨fun hn => ⟨exec_linkUp_absent hr hn, exec_linkClear_absent hr hn⟩, fun l hn => ?_⟩,
    fun hq l => ⟨fun hnone => ?_, fun t hheld hretry => ⟨fun hearly => ?_, fun hdue hslot hflight => ?_⟩⟩⟩
  · refine ⟨exec_linkUp_refused hr hn, exec_linkClear_refused hr hn, exec_linkClear_empties hr hn,
      fun hslot hflight => ⟨fun hdown => ?_, fun hheld => ?_⟩⟩
    · rw [hproving]
      exact exec_linkUp_proves hr hn hdown hslot hflight
    · rw [hproving]
      exact exec_linkClear_proves hr hn hheld hslot hflight
  · refine exec_retryExpiry_early hq fun hdue => ?_
    obtain ⟨hheld, t, hretry, -⟩ := retryDue_iff.mp hdue
    obtain hstate | hnone := hnone
    · exact hstate hheld
    · simp [hnone] at hretry
  · refine exec_retryExpiry_early hq fun hdue => ?_
    obtain ⟨-, u, hu, hle⟩ := retryDue_iff.mp hdue
    obtain rfl := Option.some.inj (hu.symm.trans hretry)
    omega
  · rw [hproving]
    exact exec_retryExpiry_proves hq (retryDue_iff.mpr ⟨hheld, t, hretry, hdue⟩) hslot hflight

end Sys2Proof.Machine
end

section
/-! PROOF. TAKEN reports and acknowledgements: the slot into the in-flight list, the retirement of its oldest entries, and the
take attempt that follows (R143, R165 to R170, R175, R176, R185, R186, R191). -/

namespace Sys2Proof.Machine

section
variable {l : Link} {s u w : State}

/-! ### The one take attempt that the link is owed (R165) -/

theorem canTake_false (h : (link s l).state.carries = false ∨ (sched s l).slot.isSome = true ∨
    256 ≤ (sched s l).inFlight.length) : canTake s l = false := by
  rw [← Bool.not_eq_true, canTake_iff]
  rintro ⟨hcarries, hslot, hroom⟩
  obtain h | h | h := h
  · simp [h] at hcarries
  · simp [hslot] at h
  · omega

/-- The attempt of a link that cannot take, or finds no packet, changes nothing. -/
theorem settleTakes_oweTake (ho : NoOwed u) (h : canTake u l = false ∨ QueuesEmpty u) : settleTakes (oweTake l u) = u := by
  rw [settleTakes_blocked, oweTake_noOwed ho]
  intro k hk
  by_cases hkl : l = k
  · subst hkl
    refine h.imp_left fun hcannot => ?_
    rw [canTake_noOwed (oweTake_noOwed ho), hcannot]
  · have hsched : (sched (oweTake l u) k).owed = (sched u k).owed :=
      congrArg LinkSched.owed (Table.get_modify_ne _ _ hkl)
    rw [hsched, ho k] at hk
    cases hk

theorem noOwed_onSched_kept {f : LinkSched → LinkSched} (ho : NoOwed s) (hf : ∀ k, (f k).owed = k.owed) :
    NoOwed (s.onSched l f) := fun k => by
  have hk := ho k
  simp only [sched, State.onSched, State.onHsc, Table.get_modify] at hk ⊢
  split
  · rw [hf, hk]
  · exact hk

theorem finish_onSched {f : LinkSched → LinkSched} (hq : Quiet s) (hf : ∀ k, (f k).owed = k.owed) :
    finish (s.onSched l f) = s.onSched l f := finish_quiet ⟨noOwed_onSched_kept hq.1 hf, hq.2⟩

theorem linkTakes_congr {k : Link} (hsched : sched u k = sched s k) (hlink : link u k = link s k) :
    LinkTakes k u ↔ LinkTakes k s := by rw [LinkTakes, hsched, hlink]; rfl

/-! ### TAKEN reports (R143, R170, R191) -/

/-- The Clip Marker once the LABEL packet `p` has entered an in-flight list (R143). -/
def labelSent (p : Packet) (m : ClipMarker) : ClipMarker :=
  { m with clips := m.clips.map fun c =>
      if p.kind = .label ∧ p.subject = some c.number ∧ c.state = .closed then { c with state := .sent } else c }

theorem labelNumber_some {p : Packet} {n : Nat} : labelNumber p = some n ↔ p.kind = .label ∧ p.subject = some n := by
  simp [labelNumber]

theorem tellLabel_labelTaken (p : Packet) (s : State) : tellLabel labelTaken p s = s.onClm (labelSent p) := by
  have hnone : (∀ n, p.kind = .label → p.subject ≠ some n) → s = s.onClm (labelSent p) := fun h => by
    have hid : ∀ c : Clip, ¬ (p.kind = .label ∧ p.subject = some c.number ∧ c.state = .closed) :=
      fun c hc => h _ hc.1 hc.2.1
    simp [State.onClm, labelSent, hid]
  cases hnum : labelNumber p with
  | none =>
    simp only [tellLabel, hnum]
    exact hnone fun n hk hs => by simp [labelNumber, hk, hs] at hnum
  | some n =>
    obtain ⟨hk, hs⟩ := labelNumber_some.mp hnum
    simp only [tellLabel, hnum, labelTaken, onClip, State.onClm, labelSent, hk, hs, true_and, Option.some.injEq]
    congr 2
    refine List.map_congr_left fun c _ => ?_
    by_cases hn : c.number = n
    · simp [hn]
    · simp [hn, Ne.symm hn]

/-- The state in which the slot's packet has entered the in-flight list of its link. -/
def slotHanded (l : Link) (t : Slot) (s : State) : State :=
  ((s.onSched l (·.handOver s.tbu.tick t)).onLink l fun r => { r with
    window := if t.packet.kind = .probe then r.window else
      r.window.map fun w => { w with handed := w.handed + 1 } }).onClm (labelSent t.packet)

theorem handOver_eq (t : Slot) : handOver l t s = oweTake l (slotHanded l t s) := by
  have hwindow : windowHanded t.packet = fun r => { r with
      window := if t.packet.kind = .probe then r.window else
        r.window.map fun w => { w with handed := w.handed + 1 } } := by
    funext r
    simp only [windowHanded]
    split <;> rfl
  simp only [handOver, tellLabel_labelTaken, hwindow, slotHanded]

theorem exec_takenReport_ignored {e : Epoch} {a : Seq} (hq : Quiet s)
    (h : ∀ t, (sched s l).slot = some t → t.epoch ≠ e ∨ t.seq ≠ a) : exec (.takenReport l e a) s =
      .next (s.onSched l fun k => { k with ignoredTaken := min (k.ignoredTaken + 1) 65535 }) := by
  have hwork : takenReport l e a s = s.onSched l fun k => { k with ignoredTaken := satInc k.ignoredTaken } := by
    simp only [takenReport]
    split
    · rename_i t hslot
      exact if_neg fun hmatch => (h t hslot).elim (· hmatch.1) (· hmatch.2)
    · rfl
  show Host.Outcome.next (finish (takenReport l e a s)) = _
  rw [hwork]
  exact congrArg Host.Outcome.next (finish_onSched hq fun _ => rfl)

theorem exec_takenReport {t : Slot} (hq : Quiet s) (hslot : (sched s l).slot = some t) :
    exec (.takenReport l t.epoch t.seq) s = .next (settleTakes (oweTake l (slotHanded l t s))) := by
  have hwork : takenReport l t.epoch t.seq s = oweTake l (slotHanded l t s) := by
    simp only [takenReport, hslot, and_self, if_true, handOver_eq]
  show Host.Outcome.next (finish (takenReport l t.epoch t.seq s)) = _
  rw [hwork, finish_empty (by exact hq.2.1) (by exact hq.2.2)]

theorem noOwed_slotHanded {t : Slot} (ho : NoOwed s) : NoOwed (slotHanded l t s) :=
  noOwed_onSched_kept (f := (·.handOver s.tbu.tick t)) ho fun _ => rfl

theorem canTake_slotHanded {t : Slot} (h : (link s l).state.carries = false ∨ 255 ≤ (sched s l).inFlight.length) :
    canTake (slotHanded l t s) l = false := by
  refine canTake_false (h.imp (fun hcarries => ?_) fun hfull => .inr ?_)
  · simpa [link, slotHanded] using hcarries
  · simpa [sched, slotHanded, LinkSched.handOver] using Nat.succ_le_succ hfull

theorem exec_takenReport_rests {t : Slot} (hq : Quiet s) (hslot : (sched s l).slot = some t)
    (h : (link s l).state.carries = false ∨ QueuesEmpty s ∨ 255 ≤ (sched s l).inFlight.length) :
    exec (.takenReport l t.epoch t.seq) s = .next (slotHanded l t s) := by
  rw [exec_takenReport hq hslot, settleTakes_oweTake (noOwed_slotHanded hq.1)]
  obtain hcarries | hempty | hfull := h
  · exact .inl (canTake_slotHanded (.inl hcarries))
  · exact .inr hempty
  · exact .inl (canTake_slotHanded (.inr hfull))

theorem exec_takenReport_takes {t : Slot} (hq : Quiet s) (hslot : (sched s l).slot = some t)
    (htakes : LinkTakes l (slotHanded l t s)) (hothers : ∀ k, k ≠ l → ¬ LinkTakes k s)
    (hattempt : TakeAttempt l (slotHanded l t s) w) : exec (.takenReport l t.epoch t.seq) s = .next w := by
  rw [exec_takenReport hq hslot, settleTakes_attempt hattempt htakes (noOwed_slotHanded hq.1)]
  intro k hk htake
  have hsched : sched (slotHanded l t s) k = sched s k := Table.get_modify_ne _ _ (Ne.symm hk)
  have hlink : link (slotHanded l t s) k = link s k := Table.get_modify_ne _ _ (Ne.symm hk)
  exact hothers k hk ((linkTakes_congr hsched hlink).mp htake)

/-! ### Acknowledgements of no entry (R175) -/

theorem ackPacket_link {n : Byte} {e : Epoch} {a : Seq} (hn : n.toNat = l.val) : ackPacket n e a s = ackLink l e a s := by
  simp only [ackPacket, hn, finOf_val]

theorem exec_ack_noLink {n : Byte} {e : Epoch} {a : Seq} (hq : Quiet s) (hn : 3 < n.toNat) : exec (.ack n e a) s =
    .next { s with hsc := { s.hsc with ignoredHome := min (s.hsc.ignoredHome + 1) 65535 } } := by
  have hwork : ackPacket n e a s = ignoreHome s := by simp only [ackPacket, fin_bad hn]
  show Host.Outcome.next (finish (ackPacket n e a s)) = _
  rw [hwork, finish_ignoreHome hq]
  rfl

theorem exec_ack_stale {n : Byte} {e : Epoch} {a : Seq} (hq : Quiet s) (hn : n.toNat = l.val)
    (h : (link s l).state = .down ∨ (link s l).state = .held ∨ (sched s l).epoch ≠ e) : exec (.ack n e a) s =
      .next (s.onSched l fun k => { k with stale := min (k.stale + 1) 65535 }) := by
  have hwork : ackPacket n e a s = s.onSched l fun k => { k with stale := satInc k.stale } := by
    rw [ackPacket_link hn, ackLink]
    exact if_pos h
  show Host.Outcome.next (finish (ackPacket n e a s)) = _
  rw [hwork]
  exact congrArg Host.Outcome.next (finish_onSched hq fun _ => rfl)

/-- An acknowledgement of link `l`'s epoch, in a state in which the link judges acknowledgements (R175). -/
structure Judged (l : Link) (n e : Byte) (s : State) : Prop where
  number : n.toNat = l.val
  notDown : (link s l).state ≠ .down
  notHeld : (link s l).state ≠ .held
  epoch : (sched s l).epoch = e

/-- R175's advance of sequence `a` over link `l`'s latest acknowledgement. -/
def advance (l : Link) (a : Seq) (s : State) : Nat := (a - (sched s l).lastAck).toNat

/-- R175's count of the sequences of link `l` that are not acknowledged. -/
def outstanding (l : Link) (s : State) : Nat := ((sched s l).nextSeq - 1 - (sched s l).lastAck).toNat

section
variable {n e : Byte} {a : Seq}

theorem ackPacket_judged (hj : Judged l n e s) : ackPacket n e a s =
    match ackCase (advance l a s) (outstanding l s) with
    | .repeated => s.onSched l fun k => { k with repeated := satInc k.repeated }
    | .current => retire l (advance l a s) a s
    | .invalid => raiseFlag .ackInvalid (s.onSched l fun k => { k with invalid := satInc k.invalid }) := by
  have hlive : ¬ ((link s l).state = .down ∨ (link s l).state = .held ∨ (sched s l).epoch ≠ e) := by
    simp [hj.notDown, hj.notHeld, hj.epoch]
  rw [ackPacket_link hj.number, ackLink, if_neg hlive]
  rfl

theorem exec_ack_repeated (hq : Quiet s) (hj : Judged l n e s) (hk : advance l a s = 0 ∨ 32768 ≤ advance l a s) :
    exec (.ack n e a) s = .next (s.onSched l fun k => { k with repeated := min (k.repeated + 1) 65535 }) := by
  have hcase : ackCase (advance l a s) (outstanding l s) = .repeated := by
    rw [ackCase]
    obtain hzero | hfar := hk
    · exact if_pos hzero
    · rw [if_neg (by omega), if_pos hfar]
  show Host.Outcome.next (finish (ackPacket n e a s)) = _
  rw [ackPacket_judged hj, hcase]
  exact congrArg Host.Outcome.next (finish_onSched hq fun _ => rfl)

theorem exec_ack_invalid (hq : Quiet s) (hj : Judged l n e s) (hbeyond : outstanding l s < advance l a s)
    (hnear : advance l a s < 32768) (hcopy : s.cmu.noticesHome = false) (hroom : s.cmu.notices.length < 32) :
    exec (.ack n e a) s = .next { s.onSched l fun k => { k with invalid := min (k.invalid + 1) 65535 } with
      cmu := flagRaised .ackInvalid s } := by
  have hcase : ackCase (advance l a s) (outstanding l s) = .invalid := by
    rw [ackCase, if_neg (by omega), if_neg (by omega), if_neg (by omega)]
  show Host.Outcome.next (finish (ackPacket n e a s)) = _
  have hcounted : Quiet (s.onSched l fun k => { k with invalid := satInc k.invalid }) :=
    ⟨noOwed_onSched_kept hq.1 fun _ => rfl, hq.2⟩
  simp only [ackPacket_judged hj, hcase]
  rw [finish_raiseFlag hcounted (by exact hcopy) (by exact hroom), raiseFlag_raised (by exact hcopy) (by exact hroom)]
  rfl

theorem ackPacket_current (hj : Judged l n e s) (hpos : 1 ≤ advance l a s) (hwithin : advance l a s ≤ outstanding l s)
    (hnear : advance l a s < 32768) : ackPacket n e a s = retire l (advance l a s) a s := by
  have hcase : ackCase (advance l a s) (outstanding l s) = .current := by
    rw [ackCase, if_neg (by omega), if_neg (by omega), if_pos hwithin]
  rw [ackPacket_judged hj, hcase]

end

/-! ### What a retired entry does (R143, R176) -/

/-- The Clip Marker once the LABEL packets of the clips numbered `ns` are acknowledged at tick `now` (R143). -/
def labelsAcked (now : Tick) (ns : List Nat) (m : ClipMarker) : ClipMarker :=
  { m with
    clips := m.clips.map fun c => if c.number ∈ ns then { c with state := .acked, ackTick := some now } else c
    acked := m.acked ++ ns.filter fun n => m.clips.any (·.number == n) }

theorem labelsAcked_nil (now : Tick) (m : ClipMarker) : labelsAcked now [] m = m := by simp [labelsAcked]

theorem labelsAcked_append (now : Tick) (ns ms : List Nat) (m : ClipMarker) :
    labelsAcked now ms (labelsAcked now ns m) = labelsAcked now (ns ++ ms) m := by
  have hnumber : ∀ c : Clip, (if c.number ∈ ns then { c with state := .acked, ackTick := some now } else c : Clip).number =
      c.number := fun c => by split <;> rfl
  simp only [labelsAcked, List.map_map, List.any_map, List.filter_append, List.append_assoc, Function.comp_def, hnumber]
  congr 1
  refine List.map_congr_left fun c _ => ?_
  by_cases hms : c.number ∈ ms <;> by_cases hns : c.number ∈ ns <;> simp [hms, hns]

theorem labelRetired_eq (n : Nat) (s : State) : labelRetired n s = s.onClm (labelsAcked s.tbu.tick [n]) := by
  simp only [labelRetired, clipOf]
  split
  · rename_i hnone
    have hno : ∀ c ∈ s.clm.clips, c.number ≠ n := by simpa using hnone
    have hmap : (s.clm.clips.map fun c =>
        if c.number = n then { c with state := .acked, ackTick := some s.tbu.tick } else c) = s.clm.clips :=
      (List.map_congr_left (g := id) fun c hc => if_neg (hno c hc)).trans (List.map_id _)
    have hany : s.clm.clips.any (·.number == n) = false := by simpa using hno
    simp [State.onClm, labelsAcked, hmap, hany]
  · rename_i c hsome
    have hnumber : (c.number == n) = true := List.find?_some (p := fun c : Clip => c.number == n) hsome
    have hany : s.clm.clips.any (·.number == n) = true :=
      List.any_eq_true.mpr ⟨c, List.mem_of_find?_eq_some hsome, hnumber⟩
    simp [onClip, State.onClm, labelsAcked, hany]

theorem tellLabel_labelRetired (p : Packet) (s : State) :
    tellLabel labelRetired p s = s.onClm (labelsAcked s.tbu.tick (labelNumber p).toList) := by
  cases hnum : labelNumber p with
  | none => simp [tellLabel, hnum, State.onClm, labelsAcked_nil]
  | some n => simp [tellLabel, hnum, labelRetired_eq]

/-- A link's record with `n` more packets retired in its window (R191). -/
def LinkRecord.windowPlus (n : Nat) (r : LinkRecord) : LinkRecord :=
  { r with window := r.window.map fun w => { w with retired := w.retired + n } }

theorem windowRetired_eq (p : Packet) : windowRetired p = LinkRecord.windowPlus (if p.kind ≠ .probe then 1 else 0) := by
  funext r
  cases r
  by_cases hprobe : p.kind = .probe <;> simp [windowRetired, LinkRecord.windowPlus, hprobe]

theorem LinkRecord.windowPlus_zero : LinkRecord.windowPlus 0 = fun r => r := by
  funext r
  cases r
  simp [LinkRecord.windowPlus]

/-- The clips whose LABEL packets the entries `es` hold. -/
def labelNumbers (es : List InFlight) : List Nat := es.filterMap fun e => labelNumber e.packet

/-- The state in which the entries `es` have left link `l` (R176); what its probes do to a proving is not in it. -/
def entriesRetired (l : Link) (es : List InFlight) (s : State) : State :=
  ((s.onPool (·.releasePackets (es.map (·.packet)))).onClm (labelsAcked s.tbu.tick (labelNumbers es))).onLink l
    (LinkRecord.windowPlus (es.countP fun e => e.packet.kind ≠ .probe))

theorem entriesRetired_nil (l : Link) (s : State) : entriesRetired l [] s = s := by
  simp only [entriesRetired, labelNumbers, List.map_nil, List.filterMap_nil, List.countP_nil, LinkRecord.windowPlus_zero, State.onPool,
    State.onClm, State.onLink, labelsAcked_nil, Table.modify_id, Pool.releasePackets, List.foldl_nil]

theorem entriesRetired_append (es fs : List InFlight) (s : State) :
    entriesRetired l fs (entriesRetired l es s) = entriesRetired l (es ++ fs) s := by
  have hwindow : ∀ n m r, LinkRecord.windowPlus m (LinkRecord.windowPlus n r) = LinkRecord.windowPlus (n + m) r := by
    intro n m r
    simp [LinkRecord.windowPlus, Function.comp_def, Nat.add_assoc]
  simp only [entriesRetired, labelNumbers, State.onPool, State.onClm, State.onLink, Table.modify_modify, hwindow,
    labelsAcked_append, Pool.releasePackets, List.map_append, List.filterMap_append, List.countP_append, List.foldl_append]

theorem retireEntry_eq (e : InFlight) (s : State) : retireEntry l e s =
    if e.packet.kind = .probe then probeRetired l (entriesRetired l [e] s) else entriesRetired l [e] s := by
  have hlabel : (labelNumber e.packet).toList = labelNumbers [e] := by
    cases hnum : labelNumber e.packet <;> simp [labelNumbers, hnum]
  have hentry : ((s.onPool (·.releasePacket e.packet)).onClm (labelsAcked s.tbu.tick (labelNumber e.packet).toList)).onLink l
      (windowRetired e.packet) = entriesRetired l [e] s := by
    rw [windowRetired_eq, hlabel]
    by_cases hprobe : e.packet.kind = .probe <;> simp [entriesRetired, hprobe, Pool.releasePackets]
  simp only [retireEntry, tellLabel_labelRetired]
  exact congrArg (fun t => if e.packet.kind = .probe then probeRetired l t else t) hentry

/-- On a link that is not PROVING, entries are retired without a word to the Link Supervisor but the window's (R176). -/
theorem foldl_retireEntry (es : List InFlight) {s : State} (hstate : (link s l).state ≠ .proving) :
    es.foldl (fun s e => retireEntry l e s) s = entriesRetired l es s := by
  induction es generalizing s with
  | nil => exact (entriesRetired_nil l s).symm
  | cons e es ih =>
    have hkept : (link (entriesRetired l [e] s) l).state ≠ .proving := by
      simpa [entriesRetired, link, LinkRecord.windowPlus] using hstate
    have hentry : retireEntry l e s = entriesRetired l [e] s := by
      rw [retireEntry_eq, probeRetired, if_neg hkept, ite_self]
    rw [List.foldl_cons, hentry, ih hkept, entriesRetired_append, List.singleton_append]

/-! ### The probes of a proving (R185, R186) -/

/-- Link `l`'s record in a proving of record `p` with `n` more probes retired. -/
def LinkRecord.probesPlus (p : Proving) (n : Nat) (r : LinkRecord) : LinkRecord :=
  { r with proving := some { p with retired := p.retired + n } }

/-- A probe has been retired, and the proving has not been judged yet. -/
theorem retireEntry_probe {e : InFlight} {p : Proving} (hprobe : e.packet.kind = .probe)
    (hstate : (link s l).state = .proving) (hp : (link s l).proving = some p) :
    retireEntry l e s = judgeProving l ((entriesRetired l [e] s).onLink l (LinkRecord.probesPlus p 1)) := by
  have hkept : (link (entriesRetired l [e] s) l).state = .proving := by
    simpa [entriesRetired, link, LinkRecord.windowPlus] using hstate
  have hrecord : (link (entriesRetired l [e] s) l).proving = some p := by
    simpa [entriesRetired, link, LinkRecord.windowPlus] using hp
  rw [retireEntry_eq, if_pos hprobe, probeRetired, if_pos hkept]
  refine congrArg (judgeProving l) (congrArg (fun t => { entriesRetired l [e] s with lsu := t }) (tableModify_congr ?_))
  simp only [link] at hrecord
  simp [LinkRecord.probesPlus, hrecord]

/-- The state in which the blocks of the entries `es` are released (R176). -/
def released (es : List InFlight) (s : State) : State := s.onPool (·.releasePackets (es.map (·.packet)))

theorem released_append (es fs : List InFlight) (s : State) : released fs (released es s) = released (es ++ fs) s := by
  simp only [released, State.onPool, Pool.releasePackets, List.map_append, List.foldl_append]

theorem entriesRetired_probes {es : List InFlight} (hprobes : ∀ e ∈ es, e.packet.kind = .probe) (s : State) :
    entriesRetired l es s = released es s := by
  have hlabels : labelNumbers es = [] :=
    List.filterMap_eq_nil_iff.mpr fun e he => by simp [labelNumber, hprobes e he]
  have hcount : (es.countP fun e => e.packet.kind ≠ .probe) = 0 :=
    List.countP_eq_zero.mpr fun e he => by simp [hprobes e he]
  simp only [entriesRetired, released, hlabels, hcount, State.onPool, State.onClm, State.onLink, labelsAcked_nil,
    LinkRecord.windowPlus_zero, Table.modify_id]

theorem link_probesPlus {p : Proving} {n : Nat} (es : List InFlight) (s : State) :
    link ((released es s).onLink l (LinkRecord.probesPlus p n)) l = LinkRecord.probesPlus p n (link s l) :=
  Table.get_modify_self ..

theorem retireEntry_probe_stays {e : InFlight} {p : Proving} (hprobe : e.packet.kind = .probe)
    (hstate : (link s l).state = .proving) (hp : (link s l).proving = some p)
    (hbelow : p.retired + 1 < (link s l).settings.count) :
    retireEntry l e s = (released [e] s).onLink l (LinkRecord.probesPlus p 1) := by
  rw [retireEntry_probe hprobe hstate hp, entriesRetired_probes (by simpa using hprobe), judgeProving_stays]
  intro q _ hq hle
  rw [link_probesPlus] at hq hle
  obtain rfl := Option.some.inj hq
  exact absurd hle (Nat.not_le.mpr hbelow)

theorem upIn_probesPlus {p : Proving} {n : Nat} (es : List InFlight) (s : State) :
    upIn l ((released es s).onLink l (LinkRecord.probesPlus p n)) = upIn l (released es s) := by
  rw [upIn, link_probesPlus]
  simp only [upIn, State.onLink, Table.modify_modify]
  rfl

/-- Link `l` has no standing fault, and the notice of its entry to UP has room and no home copy (R186). -/
structure UpReady (l : Link) (s : State) : Prop where
  floor : (link s l).settings.floor ≤ (link s l).capacity
  code : (link s l).code = 0
  fits : NoticeFits l s

theorem UpReady.probesPlus {p : Proving} {n : Nat} {es : List InFlight} (hready : UpReady l s) :
    UpReady l ((released es s).onLink l (LinkRecord.probesPlus p n)) where
  floor := by rw [link_probesPlus]; exact hready.floor
  code := by rw [link_probesPlus]; exact hready.code
  fits := ⟨hready.fits.noCopy, hready.fits.room, by rw [link_probesPlus]; exact hready.fits.van⟩

/-- The probe that a proving waits for last takes a link without a standing fault UP (R185, R186). -/
theorem retireEntry_probe_up {e : InFlight} {p : Proving} (hprobe : e.packet.kind = .probe)
    (hstate : (link s l).state = .proving) (hp : (link s l).proving = some p)
    (hreached : (link s l).settings.count ≤ p.retired + 1) (hready : UpReady l s) :
    (retireEntry l e s).noOwed = (upIn l (released [e] s)).noOwed := by
  rw [retireEntry_probe hprobe hstate hp, entriesRetired_probes (by simpa using hprobe),
    judgeProving_up (p := { p with retired := p.retired + 1 }),
    enterUp_noOwed hready.probesPlus.floor hready.probesPlus.code hready.probesPlus.fits, upIn_probesPlus]
  · rwa [link_probesPlus]
  · rw [link_probesPlus]
    rfl
  · rwa [link_probesPlus]

/-- Probes that a proving still waits for after them leave it PROVING (R185). -/
theorem foldl_probes_below (es : List InFlight) {s : State} {p : Proving} (hprobes : ∀ e ∈ es, e.packet.kind = .probe)
    (hstate : (link s l).state = .proving) (hp : (link s l).proving = some p)
    (hbelow : p.retired + es.length < (link s l).settings.count) :
    es.foldl (fun s e => retireEntry l e s) s = (released es s).onLink l (LinkRecord.probesPlus p es.length) := by
  induction es generalizing s p with
  | nil =>
    have hsame : s.lsu.modify l (LinkRecord.probesPlus p 0) = s.lsu := by
      refine (tableModify_congr (g := fun r => r) ?_).trans (Table.modify_id ..)
      simp only [link] at hp
      rw [LinkRecord.probesPlus, Nat.add_zero, ← hp]
    simp only [List.foldl_nil, released, Pool.releasePackets, List.map_nil, State.onPool, State.onLink, List.length_nil, hsame]
  | cons e es ih =>
    obtain ⟨hprobe, hrest⟩ := List.forall_mem_cons.mp hprobes
    rw [List.length_cons] at hbelow
    have hplus : ∀ r, LinkRecord.probesPlus { p with retired := p.retired + 1 } es.length (LinkRecord.probesPlus p 1 r) =
        LinkRecord.probesPlus p (es.length + 1) r := fun r => by
      simp only [LinkRecord.probesPlus, Nat.add_assoc, Nat.add_comm 1]
    rw [List.foldl_cons, retireEntry_probe_stays hprobe hstate hp (by omega),
      ih (p := { p with retired := p.retired + 1 }) hrest (by rwa [link_probesPlus]) (by rw [link_probesPlus]; rfl)
        (by rw [link_probesPlus]; simp only [LinkRecord.probesPlus]; omega),
      ← List.singleton_append, ← released_append]
    simp only [released, State.onPool, State.onLink, Table.modify_modify, hplus]
    rfl

/-- Probes that reach the number a proving waits for take a link without a standing fault UP (R185, R186). -/
theorem foldl_probes_up (es : List InFlight) {s : State} {p : Proving} (hprobes : ∀ e ∈ es, e.packet.kind = .probe)
    (hstate : (link s l).state = .proving) (hp : (link s l).proving = some p)
    (hbefore : p.retired < (link s l).settings.count) (hreached : (link s l).settings.count ≤ p.retired + es.length)
    (hready : UpReady l s) : (es.foldl (fun s e => retireEntry l e s) s).noOwed = (upIn l (released es s)).noOwed := by
  induction es generalizing s p with
  | nil => exact absurd hreached (Nat.not_le.mpr hbefore)
  | cons e es ih =>
    obtain ⟨hprobe, hrest⟩ := List.forall_mem_cons.mp hprobes
    rw [List.length_cons] at hreached
    rw [List.foldl_cons, ← List.singleton_append, ← released_append]
    by_cases hlast : (link s l).settings.count ≤ p.retired + 1
    · have hentry := retireEntry_probe_up hprobe hstate hp hlast hready
      have hnow : (link (retireEntry l e s) l).state ≠ .proving := by
        have hup : link (retireEntry l e s) l = LinkRecord.upAt s.tbu.tick (link s l) :=
          (congrArg (fun v => link v l) hentry).trans (Table.get_modify_self ..)
        simp [hup, LinkRecord.upAt]
      rw [foldl_retireEntry es hnow, entriesRetired_probes hrest]
      exact congrArg (released es) hentry
    · rw [retireEntry_probe_stays hprobe hstate hp (by omega),
        ih (p := { p with retired := p.retired + 1 }) hrest (by rwa [link_probesPlus]) (by rw [link_probesPlus]; rfl)
          (by rw [link_probesPlus]; simp only [LinkRecord.probesPlus]; omega)
          (by rw [link_probesPlus]; simp only [LinkRecord.probesPlus]; omega)
          hready.probesPlus]
      exact congrArg State.noOwed (upIn_probesPlus ..)

/-! ### A current acknowledgement (R165, R176) -/

theorem releasePackets_entries {owners : Table 6 OwnerRecord} (es : List InFlight) {k : Pool}
    (howners : ∀ o, owners.get o = { k.owners.get o with
      count := (k.owners.get o).count -
        ((es.filter fun e => e.packet.owner.map (·.idx) = some o).map (·.packet.blocks.length)).sum }) :
    k.releasePackets (es.map (·.packet)) = { k with
      free := k.free ++ ((es.filter (·.packet.owner.isSome)).map (·.packet.blocks)).flatten
      owners := owners } := by
  induction es generalizing k with
  | nil =>
    have hsame : owners = k.owners := Table.ext_get fun o => howners o
    simp [Pool.releasePackets, hsame]
  | cons e es ih =>
    have hfold : k.releasePackets ((e :: es).map (·.packet)) = (k.releasePacket e.packet).releasePackets (es.map (·.packet)) := rfl
    cases howner : e.packet.owner with
    | none =>
      have hentry : k.releasePacket e.packet = k := by simp only [Pool.releasePacket, howner]
      rw [hfold, hentry, ih (by simpa [howner] using howners)]
      simp [howner]
    | some o =>
      have hentry : k.releasePacket e.packet = k.release o e.packet.blocks := by simp only [Pool.releasePacket, howner]
      rw [hfold, hentry, ih]
      · simp [howner, Pool.release]
      · intro j
        rw [howners j]
        by_cases hj : o.idx = j
        · subst hj
          simp [howner, Pool.release, Nat.sub_sub]
        · simp [howner, Pool.release, Table.get_modify_ne _ _ hj, hj]

/-- The state in which the list of link `l` begins after its oldest `k` entries, acknowledged up to sequence `a` (R176). -/
def listRetired (l : Link) (k : Nat) (a : Seq) (s : State) : State :=
  s.onSched l fun h => { h with inFlight := h.inFlight.drop k, lastAck := a }

theorem noOwed_listRetired {k : Nat} {a : Seq} (ho : NoOwed s) : NoOwed (listRetired l k a s) :=
  noOwed_onSched_kept ho fun _ => rfl

/-- The state in which the oldest `k` entries of link `l` are retired up to sequence `a`, with the table `owners` of what its
owners then hold (R143, R176). -/
def ackedTo (l : Link) (k : Nat) (a : Seq) (es : List InFlight) (owners : Table 6 OwnerRecord) (s : State) : State :=
  { s with
    pkp := { s.pkp with
      free := s.pkp.free ++ ((es.filter (·.packet.owner.isSome)).map (·.packet.blocks)).flatten
      owners := owners }
    clm := { s.clm with
      clips := s.clm.clips.map fun c =>
        if ∃ e ∈ es, e.packet.kind = .label ∧ e.packet.subject = some c.number then
          { c with state := .acked, ackTick := some s.tbu.tick } else c
      acked := s.clm.acked ++ (es.filterMap fun e =>
        if e.packet.kind = .label then e.packet.subject else none).filter fun n => s.clm.clips.any (·.number == n) }
    hsc := { s.hsc with
      links := s.hsc.links.modify l fun h => { h with inFlight := h.inFlight.drop k, lastAck := a } } }

theorem mem_labelNumbers {es : List InFlight} {n : Nat} :
    n ∈ labelNumbers es ↔ ∃ e ∈ es, e.packet.kind = .label ∧ e.packet.subject = some n := by
  simp only [labelNumbers, List.mem_filterMap, labelNumber_some]

section
variable {k : Nat} {a : Seq} {es : List InFlight} {owners : Table 6 OwnerRecord}

theorem entriesRetired_listRetired
    (howners : ∀ o, owners.get o = { s.pkp.owners.get o with
      count := (s.pkp.owners.get o).count -
        ((es.filter fun e => e.packet.owner.map (·.idx) = some o).map (·.packet.blocks.length)).sum }) :
    entriesRetired l es (listRetired l k a s) = (ackedTo l k a es owners s).onLink l
      (LinkRecord.windowPlus (es.length - es.countP fun e => e.packet.kind = .probe)) := by
  have hcount : (es.countP fun e => e.packet.kind ≠ .probe) = es.length - es.countP fun e => e.packet.kind = .probe := by
    have hboth := List.length_eq_countP_add_countP (fun e : InFlight => decide (e.packet.kind = .probe)) (l := es)
    simp only [decide_not, Bool.decide_eq_true, ne_eq] at hboth ⊢
    omega
  have hpool := releasePackets_entries es howners
  simp only [entriesRetired, hcount, State.onPool, State.onClm, listRetired, State.onSched, State.onHsc, hpool, labelsAcked,
    mem_labelNumbers]
  rfl

/-- The fold of `retire` over the entries it retires. -/
def retireAll (l : Link) (k : Nat) (a : Seq) (s : State) : State :=
  ((sched s l).inFlight.take k).foldl (fun s e => retireEntry l e s) (listRetired l k a s)

theorem retire_eq (l : Link) (k : Nat) (a : Seq) (s : State) : retire l k a s =
    if ((sched s l).inFlight.drop k).length < 256 then oweTake l (retireAll l k a s) else retireAll l k a s := rfl

/-- The attempt that an acknowledgement leaves the link finds nothing to take. -/
theorem finish_retire_rests {v : State} (hall : retireAll l k a s = v) (hv : Quiet v)
    (h : canTake v l = false ∨ QueuesEmpty v) : finish (retire l k a s) = v := by
  rw [retire_eq, hall]
  split
  · rw [finish_empty (by exact hv.2.1) (by exact hv.2.2), settleTakes_oweTake hv.1 h]
  · exact finish_quiet hv

theorem finish_retire_takes {v : State} (hall : retireAll l k a s = v) (hv : Quiet v)
    (hroom : ((sched s l).inFlight.drop k).length < 256) (htakes : LinkTakes l v) (hothers : ∀ j, j ≠ l → ¬ LinkTakes j v)
    (hattempt : TakeAttempt l v w) : finish (retire l k a s) = w := by
  rw [retire_eq, hall, if_pos hroom, finish_empty (by exact hv.2.1) (by exact hv.2.2)]
  exact settleTakes_attempt hattempt htakes hv.1 hothers

theorem finish_retire_idle {v : State} (hall : (retireAll l k a s).noOwed = v) (hvan : v.cmu.van = [])
    (hhome : v.cmu.home = []) (hempty : QueuesEmpty v) : finish (retire l k a s) = v := by
  have hmarks : (retire l k a s).noOwed = v := by
    rw [retire_eq, ← hall]
    split
    · exact noOwed_oweTake ..
    · rfl
  have hcmu : (retire l k a s).cmu = v.cmu := (congrArg State.cmu hmarks :)
  rw [finish_empty (hcmu ▸ hvan) (hcmu ▸ hhome), settleTakes_idle hmarks (.inr hempty)]

theorem quiet_ackedTo {f : LinkRecord → LinkRecord} (hq : Quiet s) : Quiet ((ackedTo l k a es owners s).onLink l f) :=
  ⟨noOwed_listRetired (l := l) (k := k) (a := a) hq.1, hq.2⟩

theorem canTake_ackedTo {f : LinkRecord → LinkRecord}
    (h : (f (link s l)).state.carries = false ∨ (sched s l).slot.isSome = true) :
    canTake ((ackedTo l k a es owners s).onLink l f) l = false := by
  refine canTake_false (h.imp (fun hcarries => ?_) fun hslot => .inl ?_)
  · simpa [link, ackedTo] using hcarries
  · simpa [sched, ackedTo] using hslot

theorem linkTakes_ackedTo {f : LinkRecord → LinkRecord} {j : Link} (hj : j ≠ l) :
    LinkTakes j ((ackedTo l k a es owners s).onLink l f) ↔ LinkTakes j s := by
  have hsched : sched ((ackedTo l k a es owners s).onLink l f) j = sched s j := Table.get_modify_ne _ _ (Ne.symm hj)
  have hlink : link ((ackedTo l k a es owners s).onLink l f) j = link s j := Table.get_modify_ne _ _ (Ne.symm hj)
  exact linkTakes_congr hsched hlink

/-- What the oldest `k` entries `es` of link `l` leave: `owners` is what the owners of blocks hold after them (R146, R176). -/
structure Oldest (l : Link) (k : Nat) (es : List InFlight) (owners : Table 6 OwnerRecord) (s : State) : Prop where
  entries : es = (sched s l).inFlight.take k
  owners : ∀ o, owners.get o = { s.pkp.owners.get o with
    count := (s.pkp.owners.get o).count -
      ((es.filter fun e => e.packet.owner.map (·.idx) = some o).map (·.packet.blocks.length)).sum }

theorem retireAll_plain (ho : Oldest l k es owners s) (hstate : (link s l).state ≠ .proving) :
    retireAll l k a s = (ackedTo l k a es owners s).onLink l
      (LinkRecord.windowPlus (es.length - es.countP fun e => e.packet.kind = .probe)) := by
  have hfold := foldl_retireEntry (l := l) es (s := listRetired l k a s) hstate
  rw [retireAll, ← ho.entries, hfold, entriesRetired_listRetired ho.owners]

theorem released_listRetired (ho : Oldest l k es owners s) (hprobes : ∀ e ∈ es, e.packet.kind = .probe) :
    released es (listRetired l k a s) = ackedTo l k a es owners s := by
  have hall : (es.countP fun e => e.packet.kind = .probe) = es.length :=
    List.countP_eq_length.mpr fun e he => by simp [hprobes e he]
  rw [← entriesRetired_probes (l := l) hprobes, entriesRetired_listRetired ho.owners, hall, Nat.sub_self,
    LinkRecord.windowPlus_zero, State.onLink, Table.modify_id]

theorem finish_retire_plain_rests (hq : Quiet s) (ho : Oldest l k es owners s) (hstate : (link s l).state ≠ .proving)
    (h : (link s l).state.carries = false ∨ QueuesEmpty s ∨ (sched s l).slot.isSome = true) :
    finish (retire l k a s) = (ackedTo l k a es owners s).onLink l
      (LinkRecord.windowPlus (es.length - es.countP fun e => e.packet.kind = .probe)) := by
  refine finish_retire_rests (retireAll_plain ho hstate) (quiet_ackedTo hq) ?_
  obtain hcarries | hempty | hslot := h
  · exact .inl (canTake_ackedTo (.inl hcarries))
  · exact .inr hempty
  · exact .inl (canTake_ackedTo (.inr hslot))

theorem finish_retire_plain_takes {v : State} (hq : Quiet s) (ho : Oldest l k es owners s)
    (hstate : (link s l).state ≠ .proving) (hv : v = (ackedTo l k a es owners s).onLink l
      (LinkRecord.windowPlus (es.length - es.countP fun e => e.packet.kind = .probe)))
    (htakes : LinkTakes l v) (hothers : ∀ j, j ≠ l → ¬ LinkTakes j s) (hattempt : TakeAttempt l v w) :
    finish (retire l k a s) = w := by
  subst hv
  have hroom : ((sched s l).inFlight.drop k).length < 256 := by
    obtain ⟨-, -, hroom⟩ := htakes
    simpa [sched, ackedTo] using hroom
  exact finish_retire_takes (retireAll_plain ho hstate) (quiet_ackedTo hq) hroom htakes
    (fun j hj => mt (linkTakes_ackedTo hj).mp (hothers j hj)) hattempt

theorem finish_retire_probes {p : Proving} (hq : Quiet s) (ho : Oldest l k es owners s)
    (hprobes : ∀ e ∈ es, e.packet.kind = .probe) (hstate : (link s l).state = .proving) (hp : (link s l).proving = some p)
    (hbelow : p.retired + es.length < (link s l).settings.count) :
    finish (retire l k a s) = (ackedTo l k a es owners s).onLink l (LinkRecord.probesPlus p es.length) := by
  have hfold := foldl_probes_below (l := l) es (s := listRetired l k a s) hprobes hstate hp hbelow
  refine finish_retire_rests ?_ (quiet_ackedTo hq) (.inl (canTake_ackedTo (.inl ?_)))
  · rw [retireAll, ← ho.entries, hfold, released_listRetired ho hprobes]
  · simp [LinkRecord.probesPlus, hstate, LinkState.carries]

theorem finish_retire_up {p : Proving} (hq : Quiet s) (ho : Oldest l k es owners s)
    (hprobes : ∀ e ∈ es, e.packet.kind = .probe) (hstate : (link s l).state = .proving) (hp : (link s l).proving = some p)
    (hbefore : p.retired < (link s l).settings.count) (hreached : (link s l).settings.count ≤ p.retired + es.length)
    (hready : UpReady l s) (hempty : QueuesEmpty s) :
    finish (retire l k a s) = upIn l (ackedTo l k a es owners s) := by
  have hfold := foldl_probes_up (l := l) es (s := listRetired l k a s) hprobes hstate hp hbefore hreached
    ⟨hready.floor, hready.code, hready.fits.noCopy, hready.fits.room, hready.fits.van⟩
  have hnone : NoOwed (upIn l (ackedTo l k a es owners s)) := noOwed_listRetired (l := l) (k := k) (a := a) hq.1
  refine finish_retire_idle ?_ (by exact hq.2.1) (by exact hq.2.2) (by exact hempty)
  rw [retireAll, ← ho.entries, hfold, released_listRetired ho hprobes, noOwed_of hnone]

end

end

/-- Settles O53: TAKEN reports by the slot they name; acknowledgements by R175's table, a current one by the state of its link. -/
theorem takenAndAck_moveTheList : Obligations.TakenAndAck_MoveTheList := by
  refine fun l s hq => ⟨fun e a => exec_takenReport_ignored hq, fun t u hslot hu => ?_, fun n e a => exec_ack_noLink hq,
    fun n e a k m hn hk hm => ⟨exec_ack_stale hq hn, fun hdown hheld hepoch => ?_⟩⟩
  · subst hu
    exact ⟨exec_takenReport_rests hq hslot, fun w => exec_takenReport_takes hq hslot⟩
  · subst hk hm
    have hj : Judged l n e s := ⟨hn, hdown, hheld, hepoch⟩
    refine ⟨exec_ack_repeated hq hj, exec_ack_invalid hq hj,
      fun hpos hwithin hnear es probes owners u hes hprobes howners hu => ?_⟩
    have ho : Oldest l (advance l a s) es owners s := ⟨hes, howners⟩
    have hu : u = ackedTo l (advance l a s) a es owners s := hu
    have hwork := ackPacket_current hj hpos hwithin hnear
    have hexec : ∀ v, finish (retire l (advance l a s) a s) = v → exec (.ack n e a) s = .next v := by
      rintro v rfl
      exact congrArg (fun x => Host.Outcome.next (finish x)) hwork
    subst hu hprobes
    refine ⟨fun v hstate hv => ⟨fun hrests => ?_, fun w htakes hothers hattempt => ?_⟩,
      fun p hstate hp hall => ⟨fun hbelow => ?_, fun hbefore hreached hfloor hcode hempty hcopy hroom hvan => ?_⟩⟩
    · subst hv
      exact hexec _ (finish_retire_plain_rests hq ho hstate hrests)
    · exact hexec w (finish_retire_plain_takes hq ho hstate hv htakes hothers hattempt)
    all_goals
      have hcount : (es.countP fun e => e.packet.kind = .probe) = es.length :=
        List.countP_eq_length.mpr fun e he => by simp [hall e he]
    · rw [hcount] at hbelow ⊢
      exact hexec _ (finish_retire_probes hq ho hall hstate hp hbelow)
    · rw [hcount] at hreached
      refine hexec _ ((finish_retire_up hq ho hall hstate hp hbefore hreached
        ⟨hfloor, hcode, hcopy, hroom, hvan⟩ hempty).trans ?_)
      have hsame : (sched (ackedTo l (advance l a s) a es owners s) l).epoch = e := by simpa [sched, ackedTo] using hepoch
      rw [upIn, hsame]
      rfl

end Sys2Proof.Machine
end

section
/-! PROOF. CAPACITY and FAULT reports of a modem, and the faults that an event detects on a link (R182, R192 to R194). -/

namespace Sys2Proof.Machine

section
variable {l : Link} {c : FaultClass} {code : Byte} {f : LinkRecord → LinkRecord} {row : Instr} {s u x : State}

/-! ### A change of one link's record (R165) -/

theorem Quiet.onLink (hq : Quiet s) : Quiet (s.onLink l f) := hq

theorem link_onLink_self : link (s.onLink l f) l = f (link s l) := Table.get_modify_self ..

theorem link_onLink_ne {k : Link} (hk : k ≠ l) : link (s.onLink l f) k = link s k := Table.get_modify_ne _ _ hk.symm

theorem FaultSettles.onLink (h : FaultSettles l s) : FaultSettles l (s.onLink l f) where
  noCopy := h.noCopy
  room := h.room
  unpaired := h.unpaired
  others := fun k hk => by
    rw [link_onLink_ne hk]
    exact h.others k hk
  full := h.full

/-- A link's record decides by its state alone whether the link can take. -/
theorem Idle.onLink (hidle : Idle s) (hf : ∀ r, (f r).state = r.state) : Idle (s.onLink l f) := by
  refine hidle.imp (fun hlinks k => ?_) id
  have hstate : (link (s.onLink l f) k).state = (link s k).state := by
    simp only [link, State.onLink_lsu, Table.get_modify]
    split
    · exact hf _
    · rfl
  rw [hstate]
  exact hlinks k

/-- A command that asks for take attempts which find nothing to take. -/
theorem finish_idle (hq : Quiet s) (hwaits : x.waits = s.waits) (hx : x.noOwed = u) (hidle : Idle u) : finish x = u :=
  (finish_empty ((vanOf hwaits).trans hq.2.1) ((homeOf hwaits).trans hq.2.2)).trans (settleTakes_idle hx hidle)

/-! ### What a fault and a recovery do (R193, R194) -/

/-- A row whose work changes nothing that a command's end looks at. -/
theorem exec_done (hu : Quiet u) (hwork : x = u) (hrow : exec row s = .next (finish x)) : exec row s = .next u := by
  rw [hrow, hwork, finish_quiet hu]

/-- A row whose work is a fault that settles does what R193 and R194 say. -/
theorem exec_applyFault (hq : Quiet s) (h : FaultSettles l s) (hwork : x = applyFault l c code s)
    (hrow : exec row u = .next (finish x)) : ∃ t, exec row u = .next t ∧ FaultApplied l c code s t := by
  refine ⟨(applyFault l c code s).noOwed, ?_, applyFault_applied h hq.1⟩
  rw [hrow, hwork, finish_idle hq (applyFault_waits ..) rfl (applyFault_idle h)]

/-- The record of a DEGRADED link that has returned to UP (R194). -/
def LinkRecord.recovered (r : LinkRecord) : LinkRecord :=
  { r with state := .up, degrading := Table.replicate 5 false, recovery := none }

/-- The return to UP of a link that has nothing to take. -/
theorem finish_returnToUp (hq : Quiet s) (hfull : (sched s l).slot.isSome = true ∨ QueuesEmpty s) :
    finish (returnToUp l s) = s.onLink l LinkRecord.recovered := by
  have hnothing : canTake (s.onLink l LinkRecord.recovered) l = false ∨ QueuesEmpty (s.onLink l LinkRecord.recovered) :=
    hfull.imp (fun hslot => canTake_false (.inr (.inl hslot))) id
  exact (finish_empty (by exact hq.2.1) (by exact hq.2.2)).trans (settleTakes_oweTake hq.1 hnothing)

/-! ### CAPACITY reports (R182, R192) -/

/-- A link on which a report is judged for a fault: UP, DEGRADED or HELD (R192). -/
def Supervised (l : Link) (s : State) : Prop :=
  (link s l).state = .up ∨ (link s l).state = .degraded ∨ (link s l).state = .held

theorem supervised_iff : ((link s l).state.carries || (link s l).state == .held) = true ↔ Supervised l s := by
  simp [Supervised, LinkState.carries, or_assoc]

/-- The effective capacity C that a reported capacity of `cap` makes (R182). -/
def capacityOf (l : Link) (cap : Nat) (s : State) : Nat := min cap 250000 * (link s l).settings.share / 100

/-- The state in which link `l` holds a reported capacity of `cap` and the C it makes (R182). -/
def reportedIn (l : Link) (cap : Nat) (s : State) : State :=
  s.onLink l fun r => { r with reported := min cap 250000, capacity := min cap 250000 * r.settings.share / 100 }

theorem link_reportedIn (cap : Nat) : link (reportedIn l cap s) l =
    { link s l with reported := min cap 250000, capacity := capacityOf l cap s } := link_onLink_self

theorem takeCapacity_eq (cap : Nat) : takeCapacity l cap s =
    if ((link s l).state.carries || (link s l).state == .held) && decide (capacityOf l cap s < (link s l).settings.floor) then
      applyFault l .capacityFloor (link s l).code (reportedIn l cap s)
    else reportedIn l cap s := by
  have hstored : (s.onLink l fun r => { r with
      reported := min Config.maxCapacity cap
      capacity := effectiveCapacity (min Config.maxCapacity cap) r.settings.share }) = reportedIn l cap s := by
    rw [Nat.min_comm]
    rfl
  simp only [takeCapacity, hstored, link_reportedIn]

theorem takeCapacity_stored {cap : Nat} (h : ¬ Supervised l s ∨ (link s l).settings.floor ≤ capacityOf l cap s) :
    takeCapacity l cap s = reportedIn l cap s := by
  rw [takeCapacity_eq, if_neg]
  rw [Bool.and_eq_true, supervised_iff, decide_eq_true_eq, not_and_or, Nat.not_lt]
  exact h

theorem takeCapacity_low {cap : Nat} (hlive : Supervised l s) (hlow : capacityOf l cap s < (link s l).settings.floor) :
    takeCapacity l cap s = applyFault l .capacityFloor (link s l).code (reportedIn l cap s) := by
  rw [takeCapacity_eq, if_pos]
  rw [Bool.and_eq_true, supervised_iff, decide_eq_true_eq]
  exact ⟨hlive, hlow⟩

/-! ### FAULT reports (R192, R194) -/

/-- The state in which link `l` holds the modem code `code` (R192). -/
def codedIn (l : Link) (code : Byte) (s : State) : State := s.onLink l fun r => { r with code := code }

theorem takeFaultReport_nonzero (hcode : code ≠ 0) : takeFaultReport l code s =
    if (link s l).state.carries || (link s l).state == .held then applyFault l .modemFault code (codedIn l code s)
    else codedIn l code s := by
  simp only [takeFaultReport, if_neg hcode, link_onLink_self]
  rfl

theorem takeFaultReport_stored (hcode : code ≠ 0) (hdead : ¬ Supervised l s) :
    takeFaultReport l code s = codedIn l code s := by
  rw [takeFaultReport_nonzero hcode, if_neg (mt supervised_iff.mp hdead)]

theorem takeFaultReport_fault (hcode : code ≠ 0) (hlive : Supervised l s) :
    takeFaultReport l code s = applyFault l .modemFault code (codedIn l code s) := by
  rw [takeFaultReport_nonzero hcode, if_pos (supervised_iff.mpr hlive)]

theorem takeFaultReport_zero : takeFaultReport l 0 s =
    if (link s l).state = .degraded ∧ ((link s l).recovery.map (·.passed)).getD false then returnToUp l (codedIn l 0 s)
    else codedIn l 0 s := by
  simp only [takeFaultReport, if_true, link_onLink_self]
  rfl

theorem takeFaultReport_zero_stays
    (h : (link s l).state ≠ .degraded ∨ ∀ v, (link s l).recovery = some v → v.passed = false) :
    takeFaultReport l 0 s = codedIn l 0 s := by
  rw [takeFaultReport_zero, if_neg]
  rintro ⟨hdegraded, hpassed⟩
  obtain hstate | hwaits := h
  · exact hstate hdegraded
  · cases hrecovery : (link s l).recovery with
    | none => simp [hrecovery] at hpassed
    | some v => simp [hrecovery, hwaits v hrecovery] at hpassed

theorem takeFaultReport_zero_returns {v : Recovery} (hstate : (link s l).state = .degraded)
    (hrecovery : (link s l).recovery = some v) (hpassed : v.passed = true) :
    takeFaultReport l 0 s = returnToUp l (codedIn l 0 s) := by
  rw [takeFaultReport_zero, if_pos]
  exact ⟨hstate, by simp [hrecovery, hpassed]⟩

end

/-- Settles O52: a capacity by the floor, a modem code by its being 0, each by the state of its link. -/
theorem modemReports_judgeAndApply : Obligations.ModemReports_JudgeAndApply := by
  intro l s hq live hlive
  have hlive : live ↔ Supervised l s := hlive
  refine ⟨fun cap u hu => ?_, fun code u hu => ?_⟩
  · obtain rfl : u = reportedIn l cap.toNat s := hu
    refine ⟨fun h => ?_, fun hl hlow hfault => ?_⟩
    · exact exec_done hq.onLink (takeCapacity_stored (h.imp_left (mt hlive.mpr))) rfl
    · exact exec_applyFault hq.onLink hfault.onLink (takeCapacity_low (hlive.mp hl) hlow) rfl
  · obtain rfl : u = codedIn l code s := hu
    refine ⟨fun hcode hdead => ?_, fun hcode hl hfault => ?_, fun hcode hstays => ?_,
      fun v hcode hstate hrecovery hpassed hfull => ?_⟩
    · exact exec_done hq.onLink (takeFaultReport_stored hcode (mt hlive.mpr hdead)) rfl
    · exact exec_applyFault hq.onLink hfault.onLink (takeFaultReport_fault hcode (hlive.mp hl)) rfl
    · subst hcode
      exact exec_done hq.onLink (takeFaultReport_zero_stays hstays) rfl
    · subst hcode
      show Host.Outcome.next (finish (takeFaultReport l 0 s)) = _
      rw [takeFaultReport_zero_returns hstate hrecovery hpassed, finish_returnToUp (s := codedIn l 0 s) hq.onLink hfull]
      simp only [codedIn, State.onLink, Table.modify_modify]
      rfl

end Sys2Proof.Machine
end

section
/-! PROOF. The timers of a link: further probe, proving deadline, recovery expiry, measuring window and ack timeout (R185, R187,
R190, R191, R193, R194). -/

namespace Sys2Proof.Machine

section
variable {l : Link} {c : FaultClass} {code : Byte} {s x : State}

/-! ### What is due (R10) -/

theorem probeDue_iff {p : Proving} (hp : (link s l).proving = some p) : probeDue l s = true ↔
    (link s l).state = .proving ∧ (s.tbu.tick - p.nextProbe).toNat ≤ 2147483647 := by
  simp [probeDue, hp, reached, atOrBefore]

theorem provingDeadlineDue_iff {p : Proving} (hp : (link s l).proving = some p) : provingDeadlineDue l s = true ↔
    (link s l).state = .proving ∧ (s.tbu.tick - p.deadline).toNat ≤ 2147483647 := by
  simp [provingDeadlineDue, hp, reached, atOrBefore]

theorem recoveryDue_iff {v : Recovery} (hv : (link s l).recovery = some v) : recoveryDue l s = true ↔
    (link s l).state = .degraded ∧ v.passed = false ∧ (s.tbu.tick - v.tick).toNat ≤ 2147483647 := by
  simp [recoveryDue, hv, reached, atOrBefore]

theorem windowDue_iff {w : Window} (hw : (link s l).window = some w) : windowDue l s = true ↔
    (link s l).state.carries = true ∧ (s.tbu.tick - (w.start + 48000)).toNat ≤ 2147483647 := by
  simp only [windowDue, hw, Option.map_some, Option.getD_some, reached, atOrBefore, Bool.and_eq_true, decide_eq_true_eq]
  rfl

/-- A timer that is not due changes nothing (log entry 2). -/
theorem exec_notDue {row : Instr} {p : Prop} [Decidable p] (hq : Quiet s) (hp : ¬ p)
    (hrow : exec row s = .next (finish (if p then x else s))) : exec row s = .next s := exec_done hq (if_neg hp) hrow

/-! ### A further probe (R174, R185) -/

/-- A link's scheduling at tick `now` once its probe of ordinal `n` is built: the probe takes an empty slot of a link with room
in flight, and is discarded otherwise. -/
def LinkSched.probed (now : Tick) (n : Nat) (k : LinkSched) : LinkSched :=
  if k.slot = none ∧ k.inFlight.length < 256 then { k with
    slot := some {
      packet := {
        kind := .probe, owner := none, subject := none, number := 0, stamp := now, size := 24
        payload := [byteOf (n / 256), byteOf n, 0, 0, 0, 0, 0, 0] }
      epoch := k.epoch
      seq := k.nextSeq
      offered := now } }
  else k

theorem offerProbe_eq (n : Nat) : offerProbe l n s = s.onSched l (LinkSched.probed s.tbu.tick n) := by
  have hpayload : probePayload n = [byteOf (n / 256), byteOf n, 0, 0, 0, 0, 0, 0] := by
    simp [probePayload, beBytes, byteOf]
  have hroom : ∀ k : LinkSched, (k.slot.isNone && decide (k.inFlight.length < Config.inFlightMax)) = true ↔
      k.slot = none ∧ k.inFlight.length < 256 := fun _ =>
    Bool.and_eq_true_iff.trans (and_congr Option.isNone_iff_eq_none decide_eq_true_iff)
  simp only [offerProbe, hpayload]
  exact congrArg (s.onSched l) (funext fun k => if_congr (hroom k) rfl rfl)

theorem LinkSched.probed_owed (now : Tick) (n : Nat) (k : LinkSched) : (k.probed now n).owed = k.owed := by
  rw [LinkSched.probed]
  split <;> rfl

/-- A link's record with the proving record `p`. -/
def LinkRecord.withProving (p : Proving) (r : LinkRecord) : LinkRecord := { r with proving := some p }

theorem onLink_proving {p : Proving} {g : Proving → Proving} (hp : (link s l).proving = some p) :
    (s.onLink l fun r => { r with proving := r.proving.map g }) = s.onLink l (LinkRecord.withProving (g p)) := by
  refine congrArg (fun lsu => { s with lsu := lsu }) (tableModify_congr ?_)
  simp only [link] at hp
  simp only [LinkRecord.withProving, hp, Option.map_some]

theorem giveProbe_eq {p : Proving} (hp : (link s l).proving = some p) : giveProbe l s =
    (s.onSched l (LinkSched.probed s.tbu.tick (p.sent + 1))).onLink l
      (LinkRecord.withProving { p with sent := p.sent + 1 }) := by
  simp only [giveProbe, hp, onLink_proving hp, offerProbe_eq]
  rfl

/-- The state in which link `l`, in a proving of record `p`, has built a further probe (R185). -/
def probedIn (l : Link) (p : Proving) (s : State) : State :=
  (s.onSched l (LinkSched.probed s.tbu.tick (p.sent + 1))).onLink l
    (LinkRecord.withProving { p with sent := p.sent + 1, nextProbe := p.nextProbe + 2400 })

theorem buildProbe_eq {p : Proving} (hp : (link s l).proving = some p) : buildProbe l s = probedIn l p s := by
  rw [buildProbe, onLink_proving hp, giveProbe_eq (congrArg LinkRecord.proving link_onLink_self)]
  simp only [probedIn, State.onSched, State.onHsc, State.onLink, Table.modify_modify]
  rfl

theorem exec_probeBuild_due {p : Proving} (hq : Quiet s) (hp : (link s l).proving = some p) (hdue : probeDue l s = true) :
    exec (.probeBuild l) s = .next (probedIn l p s) :=
  exec_done ⟨noOwed_onSched_kept hq.1 fun _ => LinkSched.probed_owed .., hq.2⟩ ((if_pos hdue).trans (buildProbe_eq hp)) rfl

/-! ### The proving deadline (R187, R193) -/

/-- What a fault can make of a link that is PROVING. -/
theorem applyFault_proving (h : FaultSettles l s) (hstate : (link s l).state = .proving) :
    (applyFault l c code s).noOwed = s.noOwed ∨ (applyFault l c code s).noOwed = (faulted l c code s).noOwed ∨
      ∃ retry, (applyFault l c code s).noOwed =
        ((withdrawn l (faulted l c code s)).onLink l (LinkRecord.holding retry)).noOwed := by
  have hheld : (link s l).state ≠ .held := by simp [hstate]
  have hcarries : (link s l).state.carries = false := by simp [hstate, LinkState.carries]
  have holding : ∀ a, (link s l).settings.actions.get c.idx = a → a = .holdLatched ∨ a = .holdRetry →
      (applyFault l c code s).noOwed =
        ((withdrawn l (faulted l c code s)).onLink l (LinkRecord.holding (retryOf s l a))).noOwed := fun a ha hold => by
    rw [applyFault_holds h hheld ha hold]
    simp only [heldNotice, hcarries, Bool.false_eq_true, if_false, List.append_nil]
    rfl
  cases ha : (link s l).settings.actions.get c.idx with
  | holdLatched => exact .inr (.inr ⟨_, holding _ ha (.inl rfl)⟩)
  | holdRetry => exact .inr (.inr ⟨_, holding _ ha (.inr rfl)⟩)
  | degrade =>
    rw [applyFault_degraded h hheld ha, hcarries]
    exact .inr (.inl rfl)
  | report => exact .inr (.inl (congrArg State.noOwed (applyFault_reported h hheld ha)))
  | ignore => exact .inl (congrArg State.noOwed (applyFault_ignored hheld ha))

theorem applyFault_tbu : (applyFault l c code s).tbu = s.tbu := congrArg (·.2.1) (applyFault_fixed l c code s)

theorem applyFault_proving_openCommand (h : FaultSettles l s) (hstate : (link s l).state = .proving) :
    (link (applyFault l c code s).noOwed l).openCommand = (link s l).openCommand := by
  have hopen : (link (faulted l c code s) l).openCommand = (link s l).openCommand := by
    rw [link_faulted]
    rfl
  obtain hsame | hfaulted | ⟨retry, hheld⟩ := applyFault_proving (c := c) (code := code) h hstate
  · rw [hsame]
    rfl
  · rw [hfaulted]
    exact hopen
  · rw [hheld]
    exact (congrArg LinkRecord.openCommand (Table.get_modify_self _ _ (LinkRecord.holding retry))).trans hopen

/-- A fault of a PROVING link leaves room for the notice that the link's open command is owed (R187, R209). -/
theorem applyFault_proving_room (h : FaultSettles l s) (hstate : (link s l).state = .proving) :
    (applyFault l c code s).noOwed.cmu.noticesHome = false ∧ (applyFault l c code s).noOwed.cmu.notices.length < 32 := by
  have hroom := h.room
  obtain hsame | hfaulted | ⟨retry, hheld⟩ := applyFault_proving (c := c) (code := code) h hstate
  · rw [hsame]
    exact ⟨h.noCopy, show s.cmu.notices.length < 32 by omega⟩
  · rw [hfaulted]
    exact ⟨h.noCopy, linkFaultRaised_room h⟩
  · rw [hheld]
    exact ⟨h.noCopy, linkFaultRaised_room h⟩

/-- A link's record without its open command. -/
def LinkRecord.answered (r : LinkRecord) : LinkRecord := { r with openCommand := none }

/-- The state `t` with the open command of link `l`, as `s` has it, answered by PROVE-FAIL (R187). -/
def proveFailTold (l : Link) (s t : State) : State :=
  (t.onLink l LinkRecord.answered).onCmu fun q =>
    { q with notices := q.notices ++ owedNotice (.proveFail l) (link s l).openCommand s }

theorem Idle.proveFailTold {t : State} (hidle : Idle t) : Idle (proveFailTold l s t) :=
  Idle.onLink (f := LinkRecord.answered) hidle fun _ => rfl

theorem owedNotice_congr {t : State} {b : NoticeBody} {a : Option OpenCommand} (h : t.tbu = s.tbu) :
    owedNotice b a t = owedNotice b a s := by
  simp only [owedNotice, h]

theorem failProving_noOwed (h : FaultSettles l s) (hstate : (link s l).state = .proving)
    (hvan : ∀ o, (link s l).openCommand = some o → o.origin = .van) :
    (failProving l s).noOwed = proveFailTold l s (applyFault l .proveFail (link s l).code s).noOwed := by
  obtain ⟨hcopy, hroom⟩ := applyFault_proving_room (c := .proveFail) (code := (link s l).code) h hstate
  have hopen := applyFault_proving_openCommand (c := .proveFail) (code := (link s l).code) h hstate
  have htbu : (applyFault l .proveFail (link s l).code s).noOwed.tbu = s.tbu := applyFault_tbu
  rw [proveFailTold, failProving]
  generalize applyFault l .proveFail (link s l).code s = t at hcopy hroom hopen htbu ⊢
  cases hcmd : (link s l).openCommand with
  | none =>
    have hsame : t.noOwed.lsu.modify l LinkRecord.answered = t.noOwed.lsu := by
      refine (tableModify_congr (g := fun r => r) ?_).trans (Table.modify_id ..)
      have hnone : (t.noOwed.lsu.get l).openCommand = none := hopen.trans hcmd
      rw [LinkRecord.answered, ← hnone]
    simp only [State.onLink, State.onCmu, hsame, owedNotice, Option.map_none, Option.toList_none, List.append_nil]
  | some o =>
    have hsent : (queueNotice (.proveFail l) (some o) (t.onLink l LinkRecord.answered)).noOwed =
        (t.noOwed.onLink l LinkRecord.answered).onCmu fun q =>
          { q with notices := q.notices ++ owedNotice (.proveFail l) (some o) t.noOwed } :=
      queueNotice_noOwed rfl hcopy (by rw [← hcmd]; exact hvan) hroom
    exact hsent.trans (by rw [owedNotice_congr htbu])

theorem exec_provingDeadline_due (hq : Quiet s) (hdue : provingDeadlineDue l s = true) (h : FaultSettles l s)
    (hstate : (link s l).state = .proving) (hvan : ∀ o, (link s l).openCommand = some o → o.origin = .van) :
    exec (.provingDeadline l) s = .next (proveFailTold l s (applyFault l .proveFail (link s l).code s).noOwed) := by
  show Host.Outcome.next (finish (deadlineIfDue l s)) = _
  rw [deadlineIfDue, if_pos hdue]
  exact congrArg _ (finish_idle hq (failProving_waits l s) (failProving_noOwed h hstate hvan) (applyFault_idle h).proveFailTold)

/-! ### The recovery expiry (R194) -/

/-- The link waits for modem code 0 before it returns to UP. -/
theorem waitsForModem_iff : waitsForModem (link s l) = true ↔
    (link s l).degrading.get FaultClass.modemFault.idx = true ∧ (link s l).code ≠ 0 := by
  simp [waitsForModem]

theorem exec_recoveryExpiry_waits {v : Recovery} (hq : Quiet s) (hdue : recoveryDue l s = true)
    (hv : (link s l).recovery = some v) (hwaits : waitsForModem (link s l) = true) : exec (.recoveryExpiry l) s =
      .next (s.onLink l fun r => { r with recovery := some { v with passed := true } }) := by
  refine exec_done hq.onLink ((if_pos hdue).trans ((if_pos hwaits).trans ?_)) rfl
  refine congrArg (fun lsu => { s with lsu := lsu }) (tableModify_congr ?_)
  simp only [link] at hv
  rw [hv]
  rfl

theorem exec_recoveryExpiry_returns (hq : Quiet s) (hdue : recoveryDue l s = true)
    (hwaits : ¬ waitsForModem (link s l) = true) (hfull : (sched s l).slot.isSome = true ∨ QueuesEmpty s) :
    exec (.recoveryExpiry l) s = .next (s.onLink l LinkRecord.recovered) := by
  show Host.Outcome.next (finish (recoveryIfDue l s)) = _
  rw [recoveryIfDue, if_pos hdue, expireRecovery, if_neg hwaits, finish_returnToUp hq hfull]

/-! ### The end of a measuring window (R191, R193) -/

/-- The next measuring window of a link begins where the last ended. -/
def LinkRecord.nextWindow (r : LinkRecord) : LinkRecord :=
  { r with window := r.window.map fun w => { start := w.start + 48000, handed := 0, retired := 0 } }

/-- The window's packets retired fall short of the link's fraction of those handed over. -/
def FallsShort (l : Link) (w : Window) (s : State) : Prop :=
  1 ≤ w.handed ∧ w.retired < w.handed * (link s l).settings.minFraction / 100

theorem endWindow_eq {w : Window} (hw : (link s l).window = some w) : endWindow l s =
    (if decide (1 ≤ w.handed) && decide (w.retired < w.handed * (link s l).settings.minFraction / 100) then
      applyFault l .ackShortfall (link s l).code s else s).onLink l LinkRecord.nextWindow := by
  simp only [endWindow, hw]
  rfl

theorem endWindow_short {w : Window} (hw : (link s l).window = some w) (hshort : FallsShort l w s) :
    endWindow l s = (applyFault l .ackShortfall (link s l).code s).onLink l LinkRecord.nextWindow := by
  rw [endWindow_eq hw, if_pos (by simpa [FallsShort] using hshort)]

theorem endWindow_enough {w : Window} (hw : (link s l).window = some w) (hshort : ¬ FallsShort l w s) : endWindow l s =
    s.onLink l fun r => { r with window := some { start := w.start + 48000, handed := 0, retired := 0 } } := by
  rw [endWindow_eq hw, if_neg (by simpa [FallsShort] using hshort)]
  refine congrArg (fun lsu => { s with lsu := lsu }) (tableModify_congr ?_)
  simp only [link] at hw
  rw [LinkRecord.nextWindow, hw]
  rfl

theorem exec_windowEnd_enough {w : Window} (hq : Quiet s) (hdue : windowDue l s = true) (hw : (link s l).window = some w)
    (hshort : ¬ FallsShort l w s) : exec (.windowEnd l) s =
      .next (s.onLink l fun r => { r with window := some { start := w.start + 48000, handed := 0, retired := 0 } }) :=
  exec_done hq.onLink ((if_pos hdue).trans (endWindow_enough hw hshort)) rfl

theorem exec_windowEnd_short {w : Window} (hq : Quiet s) (hdue : windowDue l s = true) (hw : (link s l).window = some w)
    (hshort : FallsShort l w s) (h : FaultSettles l s) : exec (.windowEnd l) s =
      .next ((applyFault l .ackShortfall (link s l).code s).noOwed.onLink l LinkRecord.nextWindow) := by
  show Host.Outcome.next (finish (windowIfDue l s)) = _
  rw [windowIfDue, if_pos hdue, endWindow_short hw hshort]
  have hwaits : ((applyFault l .ackShortfall (link s l).code s).onLink l LinkRecord.nextWindow).waits = s.waits :=
    applyFault_waits l .ackShortfall (link s l).code s
  exact congrArg _ (finish_idle hq hwaits rfl ((applyFault_idle h).onLink fun _ => rfl))

/-! ### The ack timeout (R190, R193) -/

theorem timeOutOldest_eq {e : InFlight} {es : List InFlight} (hentries : (sched s l).inFlight = e :: es) :
    timeOutOldest l s = applyFault l .ackTimeout (link s l).code (timedOutIn l e.seq s) := by
  simp only [timeOutOldest, hentries, timedOutIn]

end

/-- Settles O54: each timer by whether it is due, and one that is due by what it finds. -/
theorem linkTimers_actWhenDue : Obligations.LinkTimers_ActWhenDue := by
  intro l s hq due hdue
  refine ⟨fun hstate => ⟨exec_notDue (p := probeDue l s) hq (fun h => ?_) rfl,
      exec_notDue (p := provingDeadlineDue l s) hq (fun h => ?_) rfl⟩,
    fun hstate => exec_notDue (p := recoveryDue l s) hq (fun h => ?_) rfl,
    fun hstate => ⟨exec_notDue (p := windowDue l s) hq (fun h => ?_) rfl,
      exec_notDue (p := ackTimeoutDue l s) hq (fun h => ?_) rfl⟩,
    fun p hstate hp => ?_, fun v hstate hv waits hwaits => ?_, fun w hstate hw short hshort => ?_,
    fun hstate => ⟨fun hnone => exec_notDue (p := ackTimeoutDue l s) hq (fun h => ?_) rfl,
      fun e es hentries => ⟨fun hearly => exec_notDue (p := ackTimeoutDue l s) hq (fun h => ?_) rfl,
        fun hold hseq hfault => ?_⟩⟩⟩
  · simp [probeDue, hstate] at h
  · simp [provingDeadlineDue, hstate] at h
  · simp [recoveryDue, hstate] at h
  · simp [windowDue, hstate] at h
  · simp [ackTimeoutDue, hstate] at h
  · have hprobe : probeDue l s = true ↔ due p.nextProbe := by rw [probeDue_iff hp, hdue, and_iff_right hstate]
    have hdeadline : provingDeadlineDue l s = true ↔ due p.deadline := by
      rw [provingDeadlineDue_iff hp, hdue, and_iff_right hstate]
    refine ⟨fun hearly => exec_notDue hq (mt hprobe.mp hearly) rfl,
      fun hnow => exec_probeBuild_due hq hp (hprobe.mpr hnow),
      fun hearly => exec_notDue hq (mt hdeadline.mp hearly) rfl, fun hnow hfault hvan => ?_⟩
    exact ⟨_, applyFault_applied hfault hq.1, exec_provingDeadline_due hq (hdeadline.mpr hnow) hfault hstate hvan⟩
  · have hexpiry : recoveryDue l s = true ↔ v.passed = false ∧ due v.tick := by
      rw [recoveryDue_iff hv, hdue, and_iff_right hstate]
    have hwaits : waitsForModem (link s l) = true ↔ waits := waitsForModem_iff.trans hwaits.symm
    refine ⟨fun hearly => exec_notDue (p := recoveryDue l s) hq (fun h => ?_) rfl,
      fun hpassed hnow hw => exec_recoveryExpiry_waits hq (hexpiry.mpr ⟨hpassed, hnow⟩) hv (hwaits.mpr hw),
      fun hpassed hnow hw hfull =>
        exec_recoveryExpiry_returns hq (hexpiry.mpr ⟨hpassed, hnow⟩) (mt hwaits.mp hw) hfull⟩
    obtain ⟨hpending, hnow⟩ := hexpiry.mp h
    obtain hpassed | hlater := hearly
    · exact absurd (hpending.symm.trans hpassed) (by decide)
    · exact hlater hnow
  · have hend : windowDue l s = true ↔ due (w.start + 48000) := by rw [windowDue_iff hw, hdue, and_iff_right hstate]
    have hshort : short ↔ FallsShort l w s := hshort
    exact ⟨fun hearly => exec_notDue hq (mt hend.mp hearly) rfl,
      fun hnow hs => exec_windowEnd_enough hq (hend.mpr hnow) hw (mt hshort.mpr hs),
      fun hnow hs hfault => ⟨_, applyFault_applied hfault hq.1,
        exec_windowEnd_short hq (hend.mpr hnow) hw (hshort.mp hs) hfault⟩⟩
  · simp [ackTimeoutDue, hnone] at h
  · obtain ⟨e', es', -, hentries', hold, hseq⟩ := ackTimeoutDue_iff.mp h
    obtain ⟨rfl, -⟩ := List.cons.inj (hentries.symm.trans hentries')
    obtain hyoung | hjudged := hearly
    · omega
    · exact hseq hjudged
  · have hlate : ackTimeoutDue l s = true := ackTimeoutDue_iff.mpr ⟨e, es, hstate, hentries, hold, hseq⟩
    exact exec_applyFault (s := timedOutIn l e.seq s) hq.onLink hfault.onLink
      ((if_pos hlate).trans (timeOutOldest_eq hentries)) rfl

end Sys2Proof.Machine
end

section
/-! PROOF. The queue of commands, the ring map and the output slot (R199, R200, R203). -/

namespace Sys2Proof.Machine

/-! ### The queue of commands (R203) -/

/-- Settles O1: that is how `step` takes the command at the front. -/
theorem step_runsFrontCommand : Obligations.Step_RunsFrontCommand := by
  intro c rest s hpending
  simp only [step, hpending]

/-- INPUT-MAP is no business of the waiting commands. -/
theorem inputMap_pending (f : MapFields) (s : State) : (inputMap f s).1.pending = s.pending := by
  simp only [inputMap]
  split
  · rfl
  · split
    · split <;> rfl
    · rfl

/-- The waiting commands are no block's: every command keeps them, the resets included. -/
theorem pending_keeper (l : List Instr) : Keeper fun s => s.pending = l where
  only _ _ h hs := (fixed_eq h).1.symm.trans hs
  period _ h := h
  code _ h := h
  block _ h := h
  frame _ _ h := h
  missed _ h := h
  tick _ h := h
  timebase _ _ h := h
  map f s h := (inputMap_pending f s).trans h
  reset _ h := h

/-- Settles O2: `pending_keeper` for the commands that wait beforehand. -/
theorem exec_leavesWaitingCommands : Obligations.Exec_LeavesWaitingCommands :=
  fun c s _ h => (pending_keeper s.pending).exec c h rfl

/-! ### The acceptance table and the output stream (R200) -/

/-- INPUT-MAP keeps a control stream and an unread output stream, since it stores a table that stands or none (R200). -/
theorem MapOk.inputMap {s : State} (h : MapOk s.sri) (f : MapFields) : MapOk (Machine.inputMap f s).1.sri := by
  simp only [Machine.inputMap]
  split
  · exact h
  · split
    · split
      · rename_i hstands
        obtain ⟨hcontrol, hnone⟩ := mapStands_iff.mp hstands
        exact ⟨hcontrol, hnone⟩
      · exact h
    · exact h

/-- What R200 lets stand is a property of the acceptance table and the output stream alone. -/
theorem MapOk.of_map {r q : Ring} (h : MapOk r) (ht : r.table = q.table) (ho : r.output = q.output) : MapOk q :=
  ⟨ht ▸ h.control, ht ▸ ho ▸ h.output⟩

theorem map_keeper : Keeper fun s => MapOk s.sri where
  only _ _ h hs := by
    obtain ⟨-, -, htable, houtput⟩ := fixed_eq h
    exact hs.of_map htable houtput
  period _ h := h
  code _ h := h
  block _ h := h
  frame _ _ h := h
  missed _ h := h
  tick _ h := h
  timebase _ _ h := h
  map f _ h := h.inputMap f
  reset _ _ := mapOk_reset

/-- Settles O10: every command keeps the map's two marks, since only INPUT-MAP and the resets store one. -/
theorem step_keepsRingMap : Obligations.Step_KeepsRingMap := fun _ _ h hm =>
  map_keeper.step (fun _ _ hs => hs) h hm

/-! ### The output slot (R199) -/

section
variable {s : State}

theorem fillSlot_reply {c : List Byte} {rest : List (List Byte)} (hq : s.sri.queue = c :: rest) :
    fillSlot s = { s with sri := { s.sri with slot := some c, queue := rest } } := by
  simp only [fillSlot, hq]
  rfl

theorem fillSlot_notice {n : Notice} {rest : List Notice} (hq : s.sri.queue = []) (hn : s.cmu.notices = n :: rest) :
    fillSlot s = { s with
      sri := { s.sri with slot := some (noticeCell s.sri.output n) }
      cmu := { s.cmu with notices := rest } } := by
  simp [fillSlot, hq, hn, State.onSri, State.onCmu]

/-- A frame start in LOCKED with nothing due fills the frame's output slot, and else touches the Timebase Unit alone. -/
theorem exec_ringFrameStart_locked (hq : Quiet s) (hd : NothingDue s) (hlock : s.tbu.lock = .locked) (e : Nat) :
    exec (.ringFrameStart e) s = .next ((fillSlot s).onTbu fun _ => { s.tbu.takeTick with miss := 0 }) := by
  obtain ⟨hvan, hhome⟩ : (fillSlot s).cmu.van = s.cmu.van ∧ (fillSlot s).cmu.home = s.cmu.home := by
    simp only [fillSlot]
    split <;> exact ⟨rfl, rfl⟩
  have hframe : ringFrame e s = (fillSlot s).onTbu fun _ => { s.tbu.takeTick with miss := 0 } := by
    rw [ringFrame_nothing hq hd, frameStart_locked e hlock]
    rfl
  show Host.Outcome.next (finish (ringFrame e s)) = _
  rw [hframe]
  exact congrArg _ (finish_quiet (quiet_of hq (fillSlot_hsc s) hvan hhome))

end

/-- Settles O7: `fillSlot` by the ring output queue, and with that empty by the notice queue. -/
theorem outputSlot_repliesBeforeNotices : Obligations.OutputSlot_RepliesBeforeNotices := by
  intro e s hq hd hlock
  refine ⟨_, exec_ringFrameStart_locked hq hd hlock e, fun c rest hqueue => ?_, fun n rest hqueue hn => ?_,
    fun hqueue hn => ?_⟩
  · rw [fillSlot_reply hqueue]
    exact ⟨rfl, rfl⟩
  · rw [fillSlot_notice hqueue hn]
    exact ⟨rfl, rfl⟩
  · rw [fillSlot_empty hqueue hn]
    exact ⟨rfl, rfl⟩

end Sys2Proof.Machine
end

section
/-! PROOF. CONTROL cells assembled into messages, and those out of order discarded (R202, R203, R213). -/

namespace Sys2Proof.Machine

section
variable {i : RingStream} {src : Src} {kind tag count index : Byte} {length : BitVec 16} {body : List Byte} {a : Assembling}
  {s t : State}

/-! ### A cell by the form of its stream (R199, R213) -/

/-- A desk's stream or a control stream takes CONTROL cells, for the origin that its entry names (R199). -/
theorem route_assembly (f : Src → State → State) (h : assemblySrc (s.sri.table.get i) i = some src) :
    route i (fun d => (assemblySrc d i).map f) s = f src s := by
  simp only [route]
  split
  · rename_i hdest
    rw [hdest] at h
    cases h
  · simp only [h, Option.map_some]

theorem byte_zero_iff : count = 0 ↔ count.toNat = 0 := kind_toNat (n := 0) (by decide)

theorem badFirst_iff : badFirst count.toNat length.toNat = true ↔ count = 0 ∨ 8 < count.toNat ∨ 448 < length.toNat := by
  simp only [badFirst, Bool.or_eq_true, beq_iff_eq, decide_eq_true_eq, or_assoc, byte_zero_iff]
  rfl

theorem exec_controlFirstCell_good (hsrc : assemblySrc (s.sri.table.get i) i = some src)
    (hcount : 1 ≤ count.toNat ∧ count.toNat ≤ 8) (hlength : length.toNat ≤ 448) : exec (.controlFirstCell i kind tag count length body) s =
      .next (finish (firstCell src i kind tag count.toNat length.toNat body s)) := by
  have hgood : ¬ badFirst count.toNat length.toNat = true := by
    rw [badFirst_iff, byte_zero_iff]
    omega
  show Host.Outcome.next (finish (controlFirst i kind tag count.toNat length.toNat body s)) = _
  rw [controlFirst, if_neg hgood, route_assembly _ hsrc]

theorem exec_controlContinuationCell (hsrc : assemblySrc (s.sri.table.get i) i = some src) :
    exec (.controlContinuationCell i index body) s = .next (finish (continuationCell src i index.toNat body s)) := by
  show Host.Outcome.next (finish (controlContinuation i index.toNat body s)) = _
  rw [controlContinuation, route_assembly _ hsrc]

/-! ### A message that has gained a cell (R202) -/

theorem setPartial_self (h : s.sri.partials.get i = none) : setPartial i none s = s := by
  simp only [setPartial, State.onSri, ← h, Table.set_get_self]

/-- A message that waits for more cells is kept. -/
theorem assemble_waits (h : a.received < a.cells) : assemble src i a s = setPartial i (some a) s :=
  if_neg (by omega)

/-- A complete message of a length that its cells hold is that of its bytes (R213). -/
theorem assemble_complete (h : a.received = a.cells) (hfew : (a.cells - 1) * 56 < a.length ∨ a.cells = 1)
    (hmany : a.length ≤ a.cells * 56) : assemble src i a s =
      submit { hdr := ⟨src, a.tag⟩, kind := a.kind, body := parseMessage a.kind (a.bytes.take a.length) } (setPartial i none s) := by
  have hfits : lengthFits a.cells a.length = true := by
    simp only [lengthFits, Bool.and_eq_true, Bool.or_eq_true, decide_eq_true_eq, beq_iff_eq]
    exact ⟨hmany, hfew⟩
  rw [assemble, if_pos h.ge, assembled, if_pos hfits]

/-- A message that waits for more cells changes the Station Ring Interface alone. -/
theorem finish_assemble_waits (hq : Quiet s) (h : a.received < a.cells) :
    finish (assemble src i a s) = { s with sri := { s.sri with partials := s.sri.partials.set i (some a) } } := by
  rw [assemble_waits h]
  exact finish_kept hq rfl rfl

/-- A CONTROL-first cell of a one-cell message acts as UNKNOWN_COMMAND (R202, R203). -/
theorem finish_assemble_one (hlength : length.toNat ≤ 56) :
    Host.Outcome.next (finish (assemble src i ⟨kind, tag, 1, length.toNat, 1, body⟩ s)) =
      exec (.unknownCommand ⟨src, tag⟩ kind (body.take length.toNat)) (setPartial i none s) := by
  rw [assemble_complete rfl (.inr rfl) (by simpa using hlength)]
  rfl

/-! ### Cells and messages discarded (R202, R213) -/

/-- A discard counts one, and raises MALFORMED, whose notice has room and no home copy (R202, R208, R213). -/
theorem discardAssembly_eq (h1 : s.cmu.noticesHome = false) (h2 : s.cmu.notices.length < 32) :
    discardAssembly s = { s with
      cmu := flagRaised .malformed s
      sri := { s.sri with discarded := min (s.sri.discarded + 1) 65535 } } := by
  rw [discardAssembly, raiseFlag_raised (by exact h1) (by exact h2)]
  rfl

/-- What a discard on stream `i` leaves, where the stream then has partial message `p`, or none. -/
def discardedOn (i : RingStream) (p : Option Assembling) (s : State) : State :=
  { s with
    cmu := flagRaised .malformed s
    sri := { s.sri with partials := s.sri.partials.set i p, discarded := min (s.sri.discarded + 1) 65535 } }

theorem discardAssembly_setPartial (h1 : s.cmu.noticesHome = false) (h2 : s.cmu.notices.length < 32) :
    discardAssembly (setPartial i none s) = discardedOn i none s :=
  discardAssembly_eq (s := setPartial i none s) h1 h2

theorem setPartial_discardedOn (p q : Option Assembling) : setPartial i q (discardedOn i p s) = discardedOn i q s := by
  simp only [setPartial, State.onSri, discardedOn, Table.set_set]

theorem quiet_discardedOn (hq : Quiet s) (p : Option Assembling) : Quiet (discardedOn i p s) := quiet_of hq rfl rfl rfl

theorem flagRaised_sets (f : EventFlag) (s : State) : ((flagRaised f s).flags.get f.idx).set = true := by
  simp only [flagRaised, Table.get_set_self]

/-- A cell that is discarded, with what was received, leaves no partial message, and MALFORMED set. -/
theorem discarded_only (hq : Quiet s) (ht : t = discardedOn i none s) : ∃ u, Host.Outcome.next (finish t) = (.next u : Result) ∧
    (flagRec u .malformed).set = true ∧ u = { s with
      cmu := u.cmu
      sri := { s.sri with partials := s.sri.partials.set i none, discarded := min (s.sri.discarded + 1) 65535 } } := by
  rw [ht, finish_quiet (quiet_discardedOn hq none)]
  exact ⟨_, rfl, flagRaised_sets .malformed s, rfl⟩

/-! ### The two cells (R202) -/

theorem firstCell_none (h : s.sri.partials.get i = none) (n k : Nat) :
    firstCell src i kind tag n k body s = assemble src i ⟨kind, tag, n, k, 1, body⟩ s := by
  simp only [firstCell, h, Option.isSome_none, Bool.false_eq_true, if_false]

theorem firstCell_over (h : s.sri.partials.get i = some a) (h1 : s.cmu.noticesHome = false) (h2 : s.cmu.notices.length < 32)
    (n k : Nat) : firstCell src i kind tag n k body s = assemble src i ⟨kind, tag, n, k, 1, body⟩ (discardedOn i none s) := by
  simp only [firstCell, h, Option.isSome_some, if_true, discardAssembly_setPartial h1 h2]

theorem continuationCell_next (h : s.sri.partials.get i = some a) (hindex : a.received = index.toNat) :
    continuationCell src i index.toNat body s =
      assemble src i { a with received := a.received + 1, bytes := a.bytes ++ body } s := by
  simp only [continuationCell, h, hindex, if_true]

theorem continuationCell_stray (h : s.sri.partials.get i = none ∨ ∃ a, s.sri.partials.get i = some a ∧ a.received ≠ index.toNat)
    (h1 : s.cmu.noticesHome = false) (h2 : s.cmu.notices.length < 32) :
    continuationCell src i index.toNat body s = discardedOn i none s := by
  rw [← discardAssembly_setPartial h1 h2]
  obtain hnone | ⟨a, hsome, hindex⟩ := h
  · simp only [continuationCell, hnone, setPartial_self hnone]
  · simp only [continuationCell, hsome, if_neg hindex]

theorem exec_controlFirstCell_bad (hq : Quiet s) (hbad : count = 0 ∨ 8 < count.toNat ∨ 448 < length.toNat)
    (h1 : s.cmu.noticesHome = false) (h2 : s.cmu.notices.length < 32) :
    ∃ t, exec (.controlFirstCell i kind tag count length body) s = .next t ∧ (flagRec t .malformed).set = true ∧
      t = { s with
        cmu := t.cmu
        sri := { s.sri with partials := s.sri.partials.set i none, discarded := min (s.sri.discarded + 1) 65535 } } :=
  discarded_only hq ((if_pos (badFirst_iff.mpr hbad)).trans (discardAssembly_setPartial h1 h2))

end

/-- Settles O37: first cells by what the stream holds and the message's cells, continuation cells by their index. -/
theorem controlCells_assembleMessages : Obligations.ControlCells_AssembleMessages := by
  intro i src s hq hdest
  have hsrc : assemblySrc (s.sri.table.get i) i = some src := by
    obtain ⟨hcontrol, rfl⟩ | ⟨d, hdesk, rfl⟩ := hdest
    · rw [hcontrol]; rfl
    · rw [hdesk]; rfl
  refine ⟨fun kind tag count length body hnone hlength => ⟨fun hone hcell => ?_, fun h2 h8 => ?_⟩,
    fun index body a hsome hindex => ⟨fun hmore => ?_, fun hlast hfew hmany => ?_⟩,
    fun h1 h2 => ⟨fun index body hstray => ?_, fun kind tag count length body hbad => exec_controlFirstCell_bad hq hbad h1 h2,
      fun kind tag count length body a dropped hsome hlength hdropped => ⟨fun hone hcell => ?_, fun htwo h8 => ?_⟩⟩⟩
  · subst hone
    rw [exec_controlFirstCell_good hsrc (by decide) hlength, firstCell_none hnone]
    exact (finish_assemble_one hcell).trans (by rw [setPartial_self hnone])
  · rw [exec_controlFirstCell_good hsrc ⟨by omega, h8⟩ hlength, firstCell_none hnone]
    exact congrArg _ (finish_assemble_waits hq h2)
  · rw [exec_controlContinuationCell hsrc, continuationCell_next hsome hindex]
    exact congrArg _ (finish_assemble_waits hq hmore)
  · rw [exec_controlContinuationCell hsrc, continuationCell_next hsome hindex]
    exact congrArg (fun t => Host.Outcome.next (finish t)) (assemble_complete hlast (.inl hfew) hmany)
  · rw [exec_controlContinuationCell hsrc]
    exact discarded_only hq (continuationCell_stray hstray h1 h2)
  · subst hone
    rw [exec_controlFirstCell_good hsrc (by decide) hlength, firstCell_over hsome h1 h2, hdropped]
    exact (finish_assemble_one hcell).trans (by rw [setPartial_discardedOn]; rfl)
  · rw [exec_controlFirstCell_good hsrc ⟨by omega, h8⟩ hlength, firstCell_over hsome h1 h2, hdropped]
    refine congrArg _ ((finish_assemble_waits (a := ⟨kind, tag, count.toNat, length.toNat, 1, body⟩)
      (quiet_discardedOn hq none) htwo).trans ?_)
    simp only [discardedOn, Table.set_set]

end Sys2Proof.Machine
end

section
/-! PROOF. What the bytes of a message spell (R204, R214, 12.1): no command, no known kind, or one command. -/

namespace Sys2Proof.Machine

section
variable {kind a b c d : Byte} {bytes text : List Byte} {fields : List (Byte × List Byte)}

/-- The bytes of a run of field records (12.1). -/
def fieldBytes (fields : List (Byte × List Byte)) : List Byte :=
  (fields.map fun f => f.1 :: byteOf f.2.length :: f.2).flatten

/-- The records that a run of field records parses as. -/
def fieldRecords (fields : List (Byte × List Byte)) : List (Nat × List Byte) := fields.map fun f => (f.1.toNat, f.2)

theorem parseRecords_fieldBytes (h : ∀ f ∈ fields, f.2.length < 256) :
    parseRecords (fieldBytes fields).length (fieldBytes fields) = some (fieldRecords fields) :=
  parseRecords_of h _ le_rfl

/-! ### Bytes that spell no command (R204, steps 1 and 2) -/

theorem parseMessage_unfilled (h : ¬ FieldsFill bytes) : parseMessage kind bytes = .malformed := by
  have hnone : parseRecords bytes.length bytes = none := by
    simpa using mt (parse_fill bytes).mp h
  simp only [parseMessage, hnone]

theorem parseMessage_unknown (hk : kind.toNat = 0 ∨ 25 < kind.toNat) (h : FieldsFill bytes) :
    parseMessage kind bytes = .unknown := by
  obtain ⟨rs, hrs⟩ := Option.isSome_iff_exists.mp ((parse_fill bytes).mpr h)
  simp only [parseMessage, hrs, fieldTable_none hk]

/-- Every kind from 1 to 25 is that of a command, and no command has a field of an identifier above 16 (R204, 12.1). -/
theorem fieldTable_some {k : Nat} (h1 : 1 ≤ k) (h2 : k ≤ 25) : ∃ table, fieldTable k = some table ∧ ∀ e ∈ table, e.1 ≤ 16 := by
  interval_cases k <;> exact ⟨_, rfl, by decide⟩

/-- A message with a field that is none of the command's is malformed (log entry 41). -/
theorem parseMessage_foreign (h1 : 1 ≤ kind.toNat) (h2 : kind.toNat ≤ 25) (hlen : ∀ f ∈ fields, f.2.length < 256)
    (hid : ∃ f ∈ fields, 16 < f.1.toNat) : parseMessage kind (fieldBytes fields) = .malformed := by
  obtain ⟨table, htable, hids⟩ := fieldTable_some h1 h2
  obtain ⟨f, hf, hid⟩ := hid
  have hmisfit : ¬ fieldsFit table (fieldRecords fields) = true := fun hfit => by
    simp only [fieldsFit, Bool.and_eq_true, List.all_eq_true, List.any_eq_true, beq_iff_eq] at hfit
    obtain ⟨e, he, heq, -⟩ := hfit.1 (f.1.toNat, f.2) (List.mem_map_of_mem hf)
    have hsame : e.1 = f.1.toNat := heq
    have hle := hids e he
    omega
  simp only [parseMessage, parseRecords_fieldBytes hlen, htable, if_neg hmisfit]

/-! ### Bytes that spell a command (R204, 12.1) -/

/-- A run of field records that fit their kind's table is the command that the records spell. -/
theorem parseMessage_spells {table : List (Nat × FieldSize)} {m : Command} (hlen : ∀ f ∈ fields, f.2.length < 256)
    (htable : fieldTable kind.toNat = some table) (hfit : fieldsFit table (fieldRecords fields) = true)
    (hm : commandOf kind.toNat (fieldRecords fields) = some m) : parseMessage kind (fieldBytes fields) = bodyOf m := by
  simp only [parseMessage, parseRecords_fieldBytes hlen, htable, hfit, if_true, hm]

theorem beNat_one (a : Byte) : beNat [a] = a.toNat := by simp [beNat]

theorem beNat_two (a b : Byte) : beNat [a, b] = a.toNat * 256 + b.toNat := by simp [beNat]

theorem parseMessage_refresh : parseMessage 6 [0, 1, a] = .command (.refresh (some a.toNat)) :=
  parseMessage_spells (fields := [(0, [a])]) (m := .refresh (some a.toNat)) (by simp) rfl rfl
    (by simp [commandOf, numOf, fieldOf, fieldRecords, beNat_one])

theorem parseMessage_linkDown : parseMessage 20 [0, 1, a] = .command (.linkDown (some a.toNat)) :=
  parseMessage_spells (fields := [(0, [a])]) (m := .linkDown (some a.toNat)) (by simp) rfl rfl
    (by simp [commandOf, numOf, fieldOf, fieldRecords, beNat_one])

theorem parseMessage_formatSet : parseMessage 2 [0, 1, a, 1, 1, b, 2, 1, c] =
    .command (.formatSet { entry := some a.toNat, width := some b.toNat, bands := some c.toNat }) :=
  parseMessage_spells (fields := [(0, [a]), (1, [b]), (2, [c])])
    (m := .formatSet { entry := some a.toNat, width := some b.toNat, bands := some c.toNat }) (by simp) rfl rfl
    (by simp [commandOf, numOf, fieldOf, fieldRecords, beNat_one])

theorem parseMessage_timebaseSet : parseMessage 1 [1, 2, a, b, 2, 1, c, 3, 1, d] = .command (.timebaseSet {
    base := some (a.toNat * 256 + b.toNat), den := some c.toNat, num := some d.toNat }) :=
  parseMessage_spells (fields := [(1, [a, b]), (2, [c]), (3, [d])])
    (m := .timebaseSet { base := some (a.toNat * 256 + b.toNat), den := some c.toNat, num := some d.toNat }) (by simp) rfl rfl
    (by simp [commandOf, numOf, fieldOf, fieldRecords, beNat_one, beNat_two])

theorem parseMessage_clipLabel (h : text.length < 256) :
    parseMessage 15 ([0, 2, a, b, 1, byteOf text.length] ++ text) =
      .command (.clipLabel { clip := some (a.toNat * 256 + b.toNat) } (some text)) := by
  have hbytes : [0, 2, a, b, 1, byteOf text.length] ++ text = fieldBytes [(0, [a, b]), (1, text)] := by
    simp [fieldBytes, byteOf]
  rw [hbytes]
  exact parseMessage_spells (m := .clipLabel { clip := some (a.toNat * 256 + b.toNat) } (some text)) (by simp [h]) rfl
    (by simp [fieldsFit, fieldRecords, FieldSize.admits, Nat.mod_one])
    (by simp [commandOf, clipRefOf, fieldRecords, fieldOf, beNat_two])

/-- A CONTROL packet of a length that it states and that R214 allows is the message in its payload. -/
theorem controlBody_payload {n : Nat} (h : n = bytes.length) (hmax : bytes.length ≤ 448) :
    controlBody kind n bytes = parseMessage kind bytes :=
  if_pos ⟨h, h ▸ hmax⟩

end

/-! ### The rows that carry bytes (R203, R214) -/

section
variable {h : Hdr} {kind tag a : Byte} {bytes : List Byte} {length : BitVec 16} {s : State}

theorem exec_unknownCommand : exec (.unknownCommand h kind bytes) s =
    .next (finish (submit { hdr := h, kind := kind, body := parseMessage kind bytes } s)) := rfl

theorem exec_controlPacket : exec (.controlPacket kind tag length bytes) s =
    .next (finish (submit { hdr := ⟨.home, tag⟩, kind := kind, body := controlBody kind length.toNat bytes } s)) := rfl

/-- A home packet is the message in its payload (R214). -/
theorem exec_controlPacket_payload (hlength : length.toNat = bytes.length) (hmax : bytes.length ≤ 448) :
    exec (.controlPacket kind tag length bytes) s = exec (.unknownCommand ⟨.home, tag⟩ kind bytes) s := by
  rw [exec_controlPacket, controlBody_payload hlength hmax, exec_unknownCommand]

/-- Bytes that spell a command are that command, as its own row has it (R204). -/
theorem exec_unknownCommand_spells {row : Instr} {m : Command} (hrow : messageOf row = some (h, m)) (hkind : commandKind m = kind)
    (hfit : listsFit m = true) (hbytes : parseMessage kind bytes = .command m) :
    exec (.unknownCommand h kind bytes) s = exec row s := by
  rw [exec_message hrow, exec_unknownCommand, hbytes, takeCommand, bodyOf, if_pos hfit, hkind]

end

end Sys2Proof.Machine
end

section
/-! PROOF. The judgement of every message and its one reply (R203 to R205): the messages that no owner sees, those that their owner
answers, and those that find their queue full. -/

namespace Sys2Proof.Machine

/-! ### A message that is answered before any owner sees it (R204) -/

/-- The judgement of message `m` answers it with status `r`, and leaves `u` of the Command Unit. -/
def AnsweredUnseen (m : Msg) (s : State) (r : Status) (u : CommandUnit) : Prop :=
  m.body = .malformed ∧ r = .malformed ∧ u = flagRaised .malformed s ∨
  m.body = .unknown ∧ r = .unknown ∧ u = s.cmu ∨
  (∃ c, m.body = .command c ∧ ShutOut s.cmu.authority m.hdr.src c) ∧ r = .refusedAuthority ∧ u = s.cmu

/-- The message that a command's row hands to the Command Unit. -/
def messageFor (h : Hdr) (c : Command) : Msg := { hdr := h, kind := commandKind c, body := bodyOf c }

section
variable {m : Msg} {c : Command} {h : Hdr} {r : Status} {u : CommandUnit} {s : State}

theorem exec_messageFor {row : Instr} (hrow : messageOf row = some (h, c)) :
    exec row s = .next (finish (submit (messageFor h c) s)) := exec_message hrow s

theorem bodyOf_listOut (hl : ListOut c) : bodyOf c = .malformed :=
  if_neg fun hfit => (listsFit_iff c).mp hfit hl

theorem bodyOf_fits (hl : ¬ ListOut c) : bodyOf c = .command c := if_pos ((listsFit_iff c).mpr hl)

theorem answeredUnseen_malformed (hm : m.body = .malformed) : AnsweredUnseen m s .malformed (flagRaised .malformed s) :=
  .inl ⟨hm, rfl, rfl⟩

theorem answeredUnseen_unknown (hm : m.body = .unknown) : AnsweredUnseen m s .unknown s.cmu := .inr (.inl ⟨hm, rfl, rfl⟩)

theorem answeredUnseen_shutOut (hl : ¬ ListOut c) (hc : ShutOut s.cmu.authority h.src c) :
    AnsweredUnseen (messageFor h c) s .refusedAuthority s.cmu :=
  .inr (.inr ⟨⟨c, bodyOf_fits hl, hc⟩, rfl, rfl⟩)

theorem AnsweredUnseen.cmu (hj : AnsweredUnseen m s r u) :
    u.van = s.cmu.van ∧ u.home = s.cmu.home ∧ u.held = s.cmu.held ∧ u.noticesHome = s.cmu.noticesHome := by
  obtain ⟨-, -, rfl⟩ | ⟨-, -, rfl⟩ | ⟨-, -, rfl⟩ := hj <;> exact ⟨rfl, rfl, rfl, rfl⟩

/-- The answer to such a message, in a state `w` that has what the judgement reads of `s`; a malformed one raises its flag, whose
notice has room and no home copy. -/
theorem AnsweredUnseen.answer {w : State} (hj : AnsweredUnseen m s r u) (ha : w.cmu.authority = s.cmu.authority)
    (hn : m.body = .malformed → w.cmu.noticesHome = false ∧ w.cmu.notices.length < 32) :
    answer m w = ({ w with cmu := if m.body = .malformed then flagRaised .malformed w else w.cmu }, { status := r }) := by
  obtain ⟨hm, rfl, -⟩ | ⟨hm, rfl, -⟩ | ⟨⟨c, hm, hc⟩, rfl, -⟩ := hj
  · obtain ⟨h1, h2⟩ := hn hm
    simp only [Machine.answer, hm, if_true, raiseFlag_raised h1 h2]
  · simp [Machine.answer, hm]
  · simp [Machine.answer, hm, ha, (unauthorised_iff ..).mpr hc]

theorem AnsweredUnseen.atVan (hj : AnsweredUnseen m s r u)
    (hn : m.body = .malformed → s.cmu.noticesHome = false ∧ s.cmu.notices.length < 32) :
    Machine.answer m (atVan m s) = (Machine.atVan m { s with cmu := u }, { status := r }) := by
  rw [hj.answer (w := Machine.atVan m s) rfl hn]
  obtain ⟨hm, -, rfl⟩ | ⟨hm, -, rfl⟩ | ⟨⟨c, hm, -⟩, -, rfl⟩ := hj <;> rw [hm] <;> rfl

theorem AnsweredUnseen.atHome (hj : AnsweredUnseen m s r u)
    (hn : m.body = .malformed → s.cmu.noticesHome = false ∧ s.cmu.notices.length < 32) :
    Machine.answer m (atHome m s) = (Machine.atHome m { s with cmu := u }, { status := r }) := by
  rw [hj.answer (w := Machine.atHome m s) rfl hn]
  obtain ⟨hm, -, rfl⟩ | ⟨hm, -, rfl⟩ | ⟨⟨c, hm, -⟩, -, rfl⟩ := hj <;> rw [hm] <;> rfl

/-- A message is a RESET ALL that passes only where it carries that command, and its judgement lets it through. -/
theorem isResetAll_iff : isResetAll m s = true ↔ m.body = .command (.reset 2) ∧ ¬ ShutOut s.cmu.authority m.hdr.src (.reset 2) := by
  simp only [isResetAll, ← unauthorised_iff]
  split
  · simp_all
  · rename_i hm
    simp only [Bool.false_eq_true, false_iff, not_and]
    exact fun h => absurd h hm

theorem AnsweredUnseen.notReset {w : State} (hj : AnsweredUnseen m s r u) (ha : w.cmu.authority = s.cmu.authority) :
    isResetAll m w = false := by
  rw [← Bool.not_eq_true, isResetAll_iff, ha]
  rintro ⟨hreset, hpass⟩
  obtain ⟨hm, -⟩ | ⟨hm, -⟩ | ⟨⟨c, hm, hc⟩, -⟩ := hj
  · rw [hm] at hreset; cases hreset
  · rw [hm] at hreset; cases hreset
  · obtain rfl := Body.command.inj (hm.symm.trans hreset)
    exact hpass hc

/-- A message from the ring that no owner sees: its status in one reply on the ring. -/
theorem AnsweredUnseen.van {i : RingStream} {d : Option (Fin 8)} (hj : AnsweredUnseen m s r u) (hq : Quiet s)
    (hsrc : m.hdr.src = .van i d) (hroom : s.sri.queue.length + 8 ≤ 64)
    (hn : m.body = .malformed → s.cmu.noticesHome = false ∧ s.cmu.notices.length < 32) :
    finish (submit m s) = { s with cmu := u, sri := ringReply s.sri m.hdr i m.kind (byteOf r.code) [] } :=
  van_answered (u := { s with cmu := u }) (r := { status := r }) hq hsrc hroom (hj.notReset (w := Machine.atVan m s) rfl)
    (hj.atVan hn) (fun l => hq.1 l) (hj.cmu.1.trans hq.2.1)

end

/-! ### A message that goes to its owner (R204, R205) -/

section
variable {h : Hdr} {c : Command} {s : State}

theorem Status.owners_code {r : Status} (hr : r.owners) : byteOf r.code = 1 ∨ byteOf r.code = 2 ∨ byteOf r.code = 3 ∨
    byteOf r.code = 4 ∨ byteOf r.code = 5 ∨ byteOf r.code = 7 := by
  obtain rfl | rfl | rfl | rfl | rfl | rfl := hr <;> decide

theorem messageFor_notReset (hl : ¬ ListOut c) (hc : c ≠ .reset 2) : isResetAll (messageFor h c) s = false := by
  rw [← Bool.not_eq_true, isResetAll_iff]
  rintro ⟨hreset, -⟩
  exact hc (Body.command.inj ((bodyOf_fits hl).symm.trans hreset))

theorem answer_messageFor (hl : ¬ ListOut c) (hpass : ¬ ShutOut s.cmu.authority h.src c) :
    answer (messageFor h c) s = perform (messageFor h c) c s := by
  have hbody : (messageFor h c).body = .command c := bodyOf_fits hl
  have hin : unauthorised s.cmu.authority (messageFor h c).hdr.src c = false :=
    Bool.eq_false_iff.mpr (mt (unauthorised_iff ..).mp hpass)
  simp only [answer, hbody, hin, Bool.false_eq_true, if_false]

/-- A message from the ring that goes to its owner: one reply with one of the owner's statuses joins the ring output queue. -/
theorem van_performed {i : RingStream} {d : Option (Fin 8)} (hq : Quiet s) (hsrc : h.src = .van i d)
    (hroom : s.sri.queue.length + 8 ≤ 64) (hl : ¬ ListOut c) (hpass : ¬ ShutOut s.cmu.authority h.src c) (hc : c ≠ .reset 2) :
    ∃ (t : State) (r : Reply), finish (submit (messageFor h c) s) = t ∧ r.status.owners ∧
      t.sri.queue = s.sri.queue ++ replyCells t.sri.output h.tag ([commandKind c, byteOf r.status.code, byteOf i.val, 0] ++
        records 1 r.results) ∧ t.cmu.van = [] ∧ t.cmu.home = [] := by
  have hserved := van_served hq hsrc hroom (messageFor_notReset (h := h) (s := atVan (messageFor h c) s) hl hc)
  have hans : answer (messageFor h c) (atVan (messageFor h c) s) = perform (messageFor h c) c (atVan (messageFor h c) s) :=
    answer_messageFor hl hpass
  have hhome := answer_home (messageFor h c) (atVan (messageFor h c) s) hsrc hq.2.2
  obtain ⟨hqueue, hvan, -⟩ := perform_queues (messageFor h c) c (atVan (messageFor h c) s)
  have howners := perform_owners (messageFor h c) c (atVan (messageFor h c) s)
  rw [hans] at hserved hhome
  generalize perform (messageFor h c) c (atVan (messageFor h c) s) = p at *
  refine ⟨_, p.2, hserved, howners, ?_⟩
  have hwaits := settleTakes_waits (replyVan (messageFor h c) p.2 p.1)
  have hfixed := settleTakes_fixed (replyVan (messageFor h c) p.2 p.1)
  simp only [State.waits, Prod.mk.injEq] at hwaits
  obtain ⟨hvanKept, hhomeKept, -, hqueueKept, -⟩ := hwaits
  obtain ⟨-, -, -, houtputKept⟩ := fixed_eq hfixed
  rw [hvanKept, hhomeKept, hqueueKept, houtputKept]
  have hbytes : p.2.bytes (messageFor h c) = [commandKind c, byteOf p.2.status.code, byteOf i.val, 0] ++ records 1 p.2.results := by
    simp [Reply.bytes, messageFor, srcStreamByte, hsrc]
  refine ⟨?_, ?_, hhome⟩
  · simp only [replyVan, State.onSri_sri, State.onCmu_sri, hqueue, hbytes]
    rfl
  · simp only [replyVan, State.onCmu_cmu, State.onSri_cmu, hvan]
    rfl

/-- A RESET ALL from home that passes: the state after reset, with its reply in the ring output queue (R212). -/
theorem home_resetAll (hq : Quiet s) (hsrc : h.src = .home) (hheld : s.cmu.held = none)
    (hpass : ¬ ShutOut s.cmu.authority h.src (.reset 2)) : finish (submit (messageFor h (.reset 2)) s) = { State.reset with
      pending := s.pending
      sri := { State.reset.sri with queue := replyCells 254 h.tag [25, 1, 0, 0] } } := by
  have hsubmit : submit (messageFor h (.reset 2)) s = atHome (messageFor h (.reset 2)) s := by
    simp [submit, messageFor, hsrc, joinHome, hq.2.2, Config.commandQueue, atHome, State.onCmu]
  have hreset : isResetAll (messageFor h (.reset 2)) (atHome (messageFor h (.reset 2)) s) = true := isResetAll_iff.mpr ⟨rfl, hpass⟩
  have hserve : serve (atHome (messageFor h (.reset 2)) s) =
      resetAll (messageFor h (.reset 2)) (atHome (messageFor h (.reset 2)) s) := by
    have hvan : serveVan (atHome (messageFor h (.reset 2)) s).cmu.van.length (atHome (messageFor h (.reset 2)) s) =
        atHome (messageFor h (.reset 2)) s := serveVan_nil _ hq.2.1
    have hhome : serveHome (atHome (messageFor h (.reset 2)) s).cmu.home.length (atHome (messageFor h (.reset 2)) s) =
        dispatchHome (messageFor h (.reset 2)) (atHome (messageFor h (.reset 2)) s) := by
      simp [atHome, serveHome, hheld]
    rw [serve, hvan, hhome, dispatchHome, if_pos hreset]
  have howed : NoOwed (resetAll (messageFor h (.reset 2)) (atHome (messageFor h (.reset 2)) s)) := quiet_reset.1
  rw [hsubmit, finish, hserve, settleTakes_noOwed howed]
  simp only [resetAll, Reply.bytes, messageFor, srcStreamByte, hsrc]
  rfl

/-- A message from home that goes to its owner: one reply with one of the owner's statuses goes home, or is held. -/
theorem home_performed (hq : Quiet s) (hsrc : h.src = .home) (hheld : s.cmu.held = none) (hl : ¬ ListOut c)
    (hpass : ¬ ShutOut s.cmu.authority h.src c) (hc : c ≠ .reset 2) :
    ∃ (t : State) (r : Reply) (body : List Byte), finish (submit (messageFor h c) s) = t ∧ r.status.owners ∧
      body = [commandKind c, byteOf r.status.code, 0, 0] ++ records 1 r.results ∧
      (t.cmu.home = [] ∧ t.cmu.held = none ∧ OnItsWay h.tag body t ∨
        t.cmu.home = [messageFor h c] ∧ t.cmu.held = some { tag := h.tag, bytes := body }) ∧
      t.cmu.van = [] ∧ t.sri.queue = s.sri.queue := by
  have hdelivered := home_delivered hq hsrc hheld (messageFor_notReset (h := h) (s := atHome (messageFor h c) s) hl hc)
  have hans : answer (messageFor h c) (atHome (messageFor h c) s) = perform (messageFor h c) c (atHome (messageFor h c) s) :=
    answer_messageFor hl hpass
  have howners := perform_owners (messageFor h c) c (atHome (messageFor h c) s)
  rw [hans] at hdelivered
  refine ⟨_, _, _, rfl, howners, ?_, hdelivered⟩
  simp only [Reply.bytes, messageFor, srcStreamByte, hsrc]

end

end Sys2Proof.Machine
end

section
/-! PROOF. Replies that go home or wait for a block, the queues that are full, and the statement that gathers the judgement and
the reply of every message (R203 to R205, R208, R214). -/

namespace Sys2Proof.Machine

section
variable {m : Msg} {h : Hdr} {r : Status} {s t : State}

/-! ### A reply of no results goes home, or is held (R205) -/

/-- The Packet Pool once a reply of tag `tag` and body `body`, which fits one block, has been granted that block and queued. -/
def replyQueued (tag : Byte) (body : List Byte) (s : State) : Pool :=
  { s.pkp with
    free := s.pkp.free.drop 1
    owners := s.pkp.owners.set 5 { s.pkp.owners.get 5 with count := (s.pkp.owners.get 5).count + 1 }
    reply := s.pkp.reply ++ [replyPacket (some tag) body (s.pkp.free.take 1) s.tbu.tick] }

/-- The Packet Pool once a request of the label-and-reply owner has been refused. -/
def replyRefused (s : State) : Pool :=
  { s.pkp with
    owners := s.pkp.owners.set 5 { s.pkp.owners.get 5 with refused := min ((s.pkp.owners.get 5).refused + 1) 65535 } }

theorem bytes_home (hsrc : m.hdr.src = .home) (r : Status) :
    ({ status := r } : Reply).bytes m = [m.kind, byteOf r.code, 0, 0] := by
  simp only [Reply.bytes, srcStreamByte, hsrc]
  rfl

/-- A message from home whose answer leaves state `t` and no attempt owed: its reply is granted a block and queued. -/
theorem home_granted (hq : Quiet s) (hsrc : m.hdr.src = .home) (hheld : s.cmu.held = none)
    (hr : isResetAll m (atHome m s) = false) (ha : answer m (atHome m s) = (atHome m t, { status := r })) (ho : NoOwed t)
    (hl : NoLinkTakes t) (hhome : t.cmu.home = []) (hnone : t.cmu.held = none) (hfree : 1 ≤ t.pkp.free.length)
    (hcap : (t.pkp.owners.get 5).count + 1 ≤ (t.pkp.owners.get 5).cap) :
    finish (submit m s) = { t with pkp := replyQueued m.hdr.tag [m.kind, byteOf r.code, 0, 0] t } := by
  have hcmu : ({ (atHome m t).cmu with home := (atHome m t).cmu.home.tail, held := none } : CommandUnit) = t.cmu := by
    show ({ t.cmu with home := [], held := none } : CommandUnit) = t.cmu
    rw [← hhome, ← hnone]
  rw [home_served hq hsrc hheld hr, ha, bytes_home hsrc,
    offerHome_granted (s := atHome m t) (n := 1) (by simp) rfl hfree hcap, hcmu]
  exact settleTakes_owed (s := { t with pkp := replyQueued m.hdr.tag [m.kind, byteOf r.code, 0, 0] t }) hl ho

/-- The same where the pool refuses the block: the reply is held, its command stays, and POOL-REFUSED is raised. -/
theorem home_held (hq : Quiet s) (hsrc : m.hdr.src = .home) (hheld : s.cmu.held = none)
    (hr : isResetAll m (atHome m s) = false) (ha : answer m (atHome m s) = (atHome m t, { status := r })) (ho : NoOwed t)
    (hcopy : t.cmu.noticesHome = false) (hroom : t.cmu.notices.length < 32)
    (hrefused : t.pkp.free = [] ∨ (t.pkp.owners.get 5).cap ≤ (t.pkp.owners.get 5).count) :
    finish (submit m s) = { t with
      pkp := replyRefused t
      cmu := { flagRaised .poolRefused t with
        home := [m], held := some { tag := m.hdr.tag, bytes := [m.kind, byteOf r.code, 0, 0] } } } := by
  have hshort : t.pkp.free.length < 1 ∨ (t.pkp.owners.get 5).cap < (t.pkp.owners.get 5).count + 1 :=
    hrefused.imp (fun h => by simp [h]) (by omega)
  rw [home_served hq hsrc hheld hr, ha, bytes_home hsrc,
    offerHome_refused (s := atHome m t) (n := 1) (by simp) rfl hshort, raiseFlag_raised (by exact hcopy) (by exact hroom),
    settleTakes_noOwed (by exact ho)]
  rfl

/-! ### A message that finds its queue full (R203) -/

theorem submit_van {i : RingStream} {d : Option (Fin 8)} (hsrc : m.hdr.src = .van i d) : submit m s = joinVan m s := by
  simp only [submit, hsrc]

theorem submit_home (hsrc : m.hdr.src = .home) : submit m s = joinHome m s := by
  simp only [submit, hsrc]

/-- While the ring output queue has no room for the largest reply the VAN queue does no work (R203). -/
theorem serveVan_full (n : Nat) (hfull : 56 < s.sri.queue.length) : serveVan n s = s := by
  cases n with
  | zero => rfl
  | succ n =>
    have hroom : ¬ s.sri.queue.length + Config.replyCells ≤ Config.ringQueue := by
      simp only [Config.replyCells, Config.ringQueue]; omega
    cases hv : s.cmu.van <;> simp [serveVan, hv, hroom]

theorem finish_full (hfull : 56 < s.sri.queue.length) (hhome : s.cmu.home = []) (ho : NoOwed s) : finish s = s := by
  simp only [finish, serve, serveVan_full _ hfull, serveHome_nil _ hhome, settleTakes_noOwed ho]

/-- A full VAN queue answers QUEUE-FULL where the ring output queue has room for one more cell (R203, R208). -/
theorem van_queueFull {i : RingStream} {d : Option (Fin 8)} (hsrc : m.hdr.src = .van i d) (hvan : s.cmu.van.length = 8)
    (hhome : s.cmu.home = []) (ho : NoOwed s) (hcopy : s.cmu.noticesHome = false) (hnotices : s.cmu.notices.length < 31)
    (hbusy : 56 < s.sri.queue.length) (hroom : s.sri.queue.length < 64) :
    finish (submit m s) = { s with
      cmu := flagRaised .commandOverflow s
      sri := ringReply s.sri m.hdr i m.kind 8 [] } := by
  have hbytes : queueFull.bytes m = [m.kind, 8, byteOf i.val, 0] ++ records 1 [] := by
    simp only [queueFull, Reply.bytes, srcStreamByte, hsrc]
    rfl
  have hjoin : joinVan m s = { s with
      cmu := flagRaised .commandOverflow s
      sri := ringReply s.sri m.hdr i m.kind 8 [] } := by
    rw [joinVan, if_neg (by simp [hvan, Config.commandQueue]), if_pos (by simpa [Config.ringQueue] using hroom), hbytes,
      raiseFlag_raised (by exact hcopy) (by exact Nat.lt_succ_of_lt hnotices)]
    rfl
  rw [submit_van hsrc, hjoin]
  refine finish_full ?_ hhome (fun l => ho l)
  simp only [ringReply, List.length_append]
  omega

/-- A full VAN queue counts an overflow where the ring output queue is full too (R203, R208). -/
theorem van_overflows {i : RingStream} {d : Option (Fin 8)} (hsrc : m.hdr.src = .van i d) (hvan : s.cmu.van.length = 8)
    (hhome : s.cmu.home = []) (ho : NoOwed s) (hcopy : s.cmu.noticesHome = false) (hnotices : s.cmu.notices.length < 31)
    (hfull : 64 ≤ s.sri.queue.length) :
    finish (submit m s) = { s with
      cmu := { flagRaised .commandOverflow s with overflow := min (s.cmu.overflow + 1) 65535 } } := by
  have hjoin : joinVan m s = { s with
      cmu := { flagRaised .commandOverflow s with overflow := min (s.cmu.overflow + 1) 65535 } } := by
    rw [joinVan, if_neg (by simp [hvan, Config.commandQueue]), if_neg (by simpa [Config.ringQueue] using hfull),
      raiseFlag_raised (by exact hcopy) (by exact Nat.lt_succ_of_lt hnotices)]
    rfl
  rw [submit_van hsrc, hjoin]
  exact finish_full (show 56 < s.sri.queue.length by omega) hhome (fun l => ho l)

/-- A full HOME queue answers QUEUE-FULL in a packet of its own where the pool grants it a block (R203, R208). -/
theorem home_queueFull (hsrc : m.hdr.src = .home) (hhome : s.cmu.home.length = 8) (hheld : s.cmu.held ≠ none)
    (hvan : s.cmu.van = []) (ho : NoOwed s) (hl : NoLinkTakes s) (hcopy : s.cmu.noticesHome = false)
    (hnotices : s.cmu.notices.length < 31) (hfree : 1 ≤ s.pkp.free.length)
    (hcap : (s.pkp.owners.get 5).count + 1 ≤ (s.pkp.owners.get 5).cap) :
    finish (submit m s) = { s with
      cmu := flagRaised .commandOverflow s
      pkp := replyQueued m.hdr.tag [m.kind, 8, 0, 0] s } := by
  obtain ⟨held, hheld⟩ := Option.ne_none_iff_exists'.mp hheld
  have hjoin : joinHome m s = oweAll { s with
      cmu := flagRaised .commandOverflow s
      pkp := replyQueued m.hdr.tag [m.kind, 8, 0, 0] s } := by
    rw [joinHome, if_neg (by simp [hhome, Config.commandQueue]), request_granted (o := .labelReply) hfree hcap]
    simp only [queueFull, bytes_home hsrc]
    rw [raiseFlag_raised (by exact hcopy) (by exact Nat.lt_succ_of_lt hnotices)]
    rfl
  rw [submit_home hsrc, hjoin, finish_held (by exact hvan) (by exact hheld)]
  exact settleTakes_owed (fun l => hl l) (fun l => ho l)

/-- A full HOME queue counts an overflow where the pool refuses the block: POOL-REFUSED is raised first (log entry 46). -/
theorem home_overflows (hsrc : m.hdr.src = .home) (hhome : s.cmu.home.length = 8) (hheld : s.cmu.held ≠ none)
    (hvan : s.cmu.van = []) (ho : NoOwed s) (hcopy : s.cmu.noticesHome = false) (hnotices : s.cmu.notices.length < 31)
    (hrefused : s.pkp.free = [] ∨ (s.pkp.owners.get 5).cap ≤ (s.pkp.owners.get 5).count) :
    finish (submit m s) = { s with
      cmu := { flagRaised .commandOverflow { s with cmu := flagRaised .poolRefused s } with
        overflow := min (s.cmu.overflow + 1) 65535 }
      pkp := replyRefused s } := by
  obtain ⟨held, hheld⟩ := Option.ne_none_iff_exists'.mp hheld
  have hshort : s.pkp.free.length < 1 ∨ (s.pkp.owners.get 5).cap < (s.pkp.owners.get 5).count + 1 :=
    hrefused.imp (fun h => by simp [h]) (by omega)
  have hroom : (flagRaised .poolRefused s).notices.length < 32 := by
    simp only [flagRaised, List.length_append]
    split <;> simp <;> omega
  have hjoin : joinHome m s = { s with
      cmu := { flagRaised .commandOverflow { s with cmu := flagRaised .poolRefused s } with
        overflow := min (s.cmu.overflow + 1) 65535 }
      pkp := replyRefused s } := by
    rw [joinHome, if_neg (by simp [hhome, Config.commandQueue]), request_refused (o := .labelReply) hshort,
      raiseFlag_raised (by exact hcopy) (by exact Nat.lt_succ_of_lt hnotices)]
    simp only
    rw [raiseFlag_raised (by exact hcopy) (by exact hroom)]
    rfl
  rw [submit_home hsrc, hjoin, finish_held (by exact hvan) (by exact hheld), settleTakes_noOwed (by exact ho)]

/-! ### REFRESH from home (R35, R36) -/

/-- A REFRESH from home that passes its judgement, by its own row, by its bytes, or in a packet. -/
theorem exec_homeRefresh {row : Instr} {n : Option Nat} (hsrc : h.src = .home)
    (hrow : row = .refresh h n ∨ ∃ a : Byte, n = some a.toNat ∧
      (row = .unknownCommand h 6 [0, 1, a] ∨ row = .controlPacket 6 h.tag 3 [0, 1, a])) :
    exec row s = .next (finish (submit (messageFor h (.refresh n)) s)) := by
  have hspells : ∀ a : Byte, exec (.unknownCommand h 6 [0, 1, a]) s = exec (.refresh h (some a.toNat)) s := fun a =>
    exec_unknownCommand_spells rfl rfl rfl parseMessage_refresh
  obtain rfl | ⟨a, rfl, rfl | rfl⟩ := hrow
  · exact exec_messageFor rfl
  · exact (hspells a).trans (exec_messageFor rfl)
  · have hhdr : h = ⟨.home, h.tag⟩ := by rw [← hsrc]
    have hpayload : exec (.controlPacket 6 h.tag 3 [0, 1, a]) s = exec (.unknownCommand ⟨.home, h.tag⟩ 6 [0, 1, a]) s :=
      exec_controlPacket_payload rfl (by simp)
    rw [hpayload, ← hhdr]
    exact (hspells a).trans (exec_messageFor rfl)

theorem refresh_passes (hsrc : h.src = .home) (ha : s.cmu.authority ≠ .van) (n : Option Nat) :
    ¬ ShutOut s.cmu.authority h.src (.refresh n) := by
  rw [hsrc]
  rintro (⟨f, hf⟩ | ⟨hvan, -⟩)
  · cases hf
  · exact ha hvan

theorem answer_refresh_noObject {w : State} {n : Option Nat} (hpass : ¬ ShutOut w.cmu.authority h.src (.refresh n))
    (hn : n = none ∨ ∃ v, n = some v ∧ 3 < v) :
    answer (messageFor h (.refresh n)) w = (w, { status := .refusedRange }) := by
  rw [answer_messageFor id hpass]
  simp only [perform, refreshCommand, objectOf_none hn]

theorem answer_refresh {n : Option Nat} {p : Prog} (hpass : ¬ ShutOut s.cmu.authority h.src (.refresh n)) (hn : n = some p.val) :
    answer (messageFor h (.refresh n)) (atHome (messageFor h (.refresh n)) s) =
      (atHome (messageFor h (.refresh n)) (refreshCause p s), { status := .done }) := by
  have hpass' : ¬ ShutOut (atHome (messageFor h (.refresh n)) s).cmu.authority h.src (.refresh n) := hpass
  rw [answer_messageFor id hpass']
  simp only [perform, refreshCommand, objectOf_some hn, refreshCause, fold_pgc (s := atHome _ s) (t := s) rfl]
  rfl

end

/-! ### A message from home that no owner sees -/

/-- What a row from home that no owner answers comes to: a message of the row's kind, and the judgement that answers it. -/
theorem exec_home_unseen {row : Instr} {tag kind status : Byte} {u : CommandUnit} {s : State}
    (hrow : (∃ h c, messageOf row = some (h, c) ∧ h = { src := .home, tag := tag } ∧ kind = commandKind c ∧
        (ListOut c ∧ status = 10 ∧ u = flagRaised .malformed s ∨
          ¬ ListOut c ∧ ShutOut s.cmu.authority h.src c ∧ status = 6 ∧ u = s.cmu)) ∨
      (∃ length message, row = .controlPacket kind tag length message ∧
        (length.toNat = message.length ∧ message.length ≤ 448 ∧ FieldsFill message ∧ (kind.toNat = 0 ∨ 25 < kind.toNat) ∧
            status = 9 ∧ u = s.cmu ∨
          (length.toNat ≠ message.length ∨ 448 < length.toNat ∨ ¬ FieldsFill message) ∧ status = 10 ∧
            u = flagRaised .malformed s))) :
    ∃ m r, exec row s = .next (finish (submit m s)) ∧ m.hdr = { src := .home, tag := tag } ∧ m.kind = kind ∧
      status = byteOf r.code ∧ AnsweredUnseen m s r u := by
  obtain ⟨h, c, hc, rfl, rfl, ⟨hl, rfl, rfl⟩ | ⟨hl, hshut, rfl, rfl⟩⟩ |
    ⟨length, message, rfl, ⟨hlength, hmax, hfill, hkind, rfl, rfl⟩ | ⟨hbad, rfl, rfl⟩⟩ := hrow
  · exact ⟨_, _, exec_messageFor hc, rfl, rfl, rfl, answeredUnseen_malformed (bodyOf_listOut hl)⟩
  · exact ⟨_, _, exec_messageFor hc, rfl, rfl, rfl, answeredUnseen_shutOut hl hshut⟩
  · refine ⟨_, _, exec_controlPacket, rfl, rfl, rfl, answeredUnseen_unknown ?_⟩
    exact (controlBody_payload hlength hmax).trans (parseMessage_unknown hkind hfill)
  · refine ⟨_, _, exec_controlPacket, rfl, rfl, rfl, answeredUnseen_malformed ?_⟩
    show controlBody kind length.toNat message = .malformed
    simp only [controlBody]
    split
    · rename_i hgood
      obtain hne | hlong | hunfilled := hbad
      · exact absurd hgood.1 hne
      · exact absurd hlong (Nat.not_lt.mpr hgood.2)
      · exact parseMessage_unfilled hunfilled
    · rfl

/-- Settles O57: each clause by the message's judgement, its owner's answer, or the queue that it finds full. -/
theorem messages_areJudgedAndAnswered : Obligations.Messages_AreJudgedAndAnswered := by
  refine ⟨fun row h c i d s hrow hsrc hq hroom => ⟨fun hl hcopy hnotices => ?_, fun hl hshut => ?_, fun hl hpass hc => ?_⟩,
    fun row h c s hrow hsrc hq hheld hl hpass => ⟨?_, fun hc => ?_⟩,
    fun h i d kind bytes s hsrc hq hroom => ⟨fun hkind hfill => ?_, fun hbad hcopy hnotices => ?_⟩,
    fun h a b c d text s => ⟨?_, ?_, ?_, ?_, fun htext => ?_⟩,
    fun kind tag length message s hlength hmax => exec_controlPacket_payload hlength hmax,
    ?_, ?_, ?_⟩
  · rw [exec_messageFor hrow]
    exact congrArg _ ((answeredUnseen_malformed (bodyOf_listOut hl)).van hq hsrc hroom fun _ => ⟨hcopy, hnotices⟩)
  · rw [exec_messageFor hrow]
    refine congrArg _ ((answeredUnseen_shutOut hl hshut).van hq hsrc hroom fun hm => ?_)
    exact absurd ((bodyOf_fits hl).symm.trans hm) (by simp)
  · obtain ⟨t, r, ht, hr, hqueue, hvan, hhome⟩ := van_performed hq hsrc hroom hl hpass hc
    exact ⟨t, _, r.results, (exec_messageFor hrow).trans (congrArg _ ht), Status.owners_code hr, hqueue, hvan, hhome⟩
  · rintro rfl
    exact (exec_messageFor hrow).trans (congrArg _ (home_resetAll hq hsrc hheld hpass))
  · obtain ⟨t, r, body, ht, hr, hbody, hreply, hvan, hqueue⟩ := home_performed hq hsrc hheld hl hpass hc
    have hm : messageFor h c = { hdr := h, kind := commandKind c, body := .command c } := by
      rw [messageFor, bodyOf_fits hl]
    rw [hm] at hreply
    exact ⟨t, _, r.results, body, (exec_messageFor hrow).trans (congrArg _ ht), Status.owners_code hr, hbody, hreply, hvan, hqueue⟩
  · rw [exec_unknownCommand]
    refine congrArg _ ((answeredUnseen_unknown (parseMessage_unknown hkind hfill)).van hq hsrc hroom fun hm => ?_)
    exact absurd ((parseMessage_unknown hkind hfill).symm.trans hm) (by simp)
  · rw [exec_unknownCommand]
    have hbody : parseMessage kind bytes = .malformed := by
      obtain hunfilled | ⟨h1, h25, fields, hlen, hid, rfl⟩ := hbad
      · exact parseMessage_unfilled hunfilled
      · exact parseMessage_foreign h1 h25 hlen hid
    exact congrArg _ ((answeredUnseen_malformed hbody).van hq hsrc hroom fun _ => ⟨hcopy, hnotices⟩)
  · exact exec_unknownCommand_spells rfl rfl rfl parseMessage_refresh
  · exact exec_unknownCommand_spells rfl rfl rfl parseMessage_linkDown
  · exact exec_unknownCommand_spells rfl rfl rfl parseMessage_formatSet
  · exact exec_unknownCommand_spells rfl rfl rfl parseMessage_timebaseSet
  · exact exec_unknownCommand_spells rfl rfl rfl (parseMessage_clipLabel htext)
  · rintro row tag kind status u r body s hq hl hheld hcopy hnotices rfl hrow rfl
    obtain ⟨m, answer, hexec, hhdr, rfl, rfl, hunseen⟩ := exec_home_unseen hrow
    have hsrc : m.hdr.src = .home := by rw [hhdr]
    have htag : m.hdr.tag = tag := by rw [hhdr]
    subst htag
    obtain ⟨-, hhome, hnone, hsame⟩ := hunseen.cmu
    have hanswer := hunseen.atHome fun _ => ⟨hcopy, hnotices⟩
    have hreset := hunseen.notReset (w := atHome m s) rfl
    rw [hexec]
    refine ⟨fun hfree hcap => ?_, fun hroom hrefused => ⟨m, hhdr, rfl, ?_⟩⟩
    · exact congrArg _ (home_granted (t := { s with cmu := u }) hq hsrc hheld hreset hanswer hq.1 hl (hhome.trans hq.2.2)
        (hnone.trans hheld) hfree hcap)
    · exact congrArg _ (home_held (t := { s with cmu := u }) hq hsrc hheld hreset hanswer hq.1 (hsame.trans hcopy) hroom hrefused)
  · refine fun row h c s hrow ho hcopy hnotices => ⟨fun i d hsrc hvan hhome hbusy => ⟨fun hroom => ?_, fun hfull => ?_⟩, ?_⟩
    · exact (exec_messageFor hrow).trans
        (congrArg _ (van_queueFull (m := messageFor h c) hsrc hvan hhome ho hcopy hnotices hbusy hroom))
    · exact (exec_messageFor hrow).trans (congrArg _ (van_overflows hsrc hvan hhome ho hcopy hnotices hfull))
    · rintro r hsrc hhome hheld hvan hl rfl
      rw [exec_messageFor hrow]
      exact ⟨fun hfree hcap => congrArg _
          (home_queueFull (m := messageFor h c) hsrc hhome hheld hvan ho hl hcopy hnotices hfree hcap),
        fun hrefused => congrArg _ (home_overflows hsrc hhome hheld hvan ho hcopy hnotices hrefused)⟩
  · rintro row h n b free r answered s hrow hq hsrc hauthority hl hheld hfree rfl hcap hanswered
    have hpass := refresh_passes hsrc hauthority n
    have hreset : isResetAll (messageFor h (.refresh n)) (atHome (messageFor h (.refresh n)) s) = false :=
      messageFor_notReset id (by simp)
    have hone : 1 ≤ s.pkp.free.length := by simp [hfree]
    rw [exec_homeRefresh hsrc hrow]
    refine ⟨fun hn => ?_, fun p q hn hfold => ?_⟩
    · have hanswer : answer (messageFor h (.refresh n)) (atHome (messageFor h (.refresh n)) s) =
          (atHome (messageFor h (.refresh n)) s, { status := .refusedRange }) := answer_refresh_noObject hpass hn
      rw [home_granted hq hsrc hheld hreset hanswer hq.1 hl hq.2.2 hheld hone hcap, hanswered]
      simp only [replyQueued, hfree]
      rfl
    · rw [← fold_eq] at hfold
      rw [home_granted hq hsrc hheld hreset (answer_refresh hpass hn) hq.1 hl hq.2.2 hheld hone hcap, hanswered, hfold]
      simp only [replyQueued, refreshCause, State.onProg, State.onPgc, hfree]
      rfl

end Sys2Proof.Machine
end
